-- ==== Sys2Proof/Word.lean ====
section
/-!
DEFINITION. The word types of the ZH8 (R1, R16, R50): a scalar register, a byte, a vector register of 1 KiB, a mask of up
to 8,192 bits, a bracket of 8 KiB, and the register numbers of the encodings.
-/

namespace Sys2Proof

/-- A 64-bit scalar value: s0 to s31, a state register, an address while it is computed. -/
abbrev Word := BitVec 64

/-- One byte of memory or scratchpad. -/
abbrev Byte := BitVec 8

/-- The number of a scalar or vector register (R33, R39). -/
abbrev Reg := BitVec 5

/-- The content of one vector register, 1 KiB; element 0 in the least significant bits (R1). -/
abbrev VReg := BitVec 8192

/-- The content of one mask register: bit e belongs to element e (R16). -/
abbrev Mask := BitVec 8192

/-- The content of blo or bhi: a register group of 8 KiB (R164). -/
abbrev Bracket := BitVec 65536

/-- A vector clock: entry s, for die CDs, is 16 bits (R237, R239). -/
abbrev Clock := Vector (BitVec 16) 8

end Sys2Proof
end

