-- ==== Sys2Proof/Config.lean ====
section
/-!
DEFINITION. What an implementation fixes and what the manual leaves open. Every free value is an opaque constant with no
body: nothing in Lean can evaluate it, so a theorem that mentions one holds for every value of it. A value that the manual
calls not defined (R5) is one of these, applied to the counter `State.fresh`.
-/

namespace Sys2Proof.Config

/-- A 64-bit value the manual does not define (R5). (DEDUCED, log 9) -/
opaque freeWord : Nat → Word

/-- The content of a vector register that the manual does not define (R172, R338, R168). -/
opaque freeVReg : Nat → VReg

/-- A choice the manual leaves to the device: an old or a new translation (R187), an old or a new instruction word (R113), a
word before or after a running settle (R192). -/
opaque freeBool : Nat → Bool

/-- How far `time` has moved since the last step (R50): it and `cycle` only ever rise. -/
opaque ticks : Nat → Nat
/-- See `ticks`: the cycles of the arithmetic clock in the same time. -/
opaque cycles : Nat → Nat

/-- Which neighbour a faithful f64 `vfrcp`, `vfrsq`, `vfexp2` or `vflog2` gives (R74): operation, rounding mode and operand
decide it alone, so the same input gives the same bits. `true` takes the neighbour away from zero. (DESIGN CHOICE, log 11) -/
opaque faithfulUp : Nat → Nat → Word → Bool

/-- Where inside the bounds of R207 the estimate of one macro falls: a fraction of 2^64 of the interval. -/
opaque wmvPoint : Nat → Nat → Word

/-- The published error model of a macro (R209): gain error, offset and sigma as f32 bits, by die × 8,192 + macro, temperature band and
thousands of hours of use. (DESIGN CHOICE, log 14) -/
opaque macroGain : Nat → BitVec 8 → BitVec 16 → BitVec 32
/-- See `macroGain`. -/
opaque macroOffset : Nat → BitVec 8 → BitVec 16 → BitVec 32
/-- See `macroGain`. -/
opaque macroSigma : Nat → BitVec 8 → BitVec 16 → BitVec 32

/-- A row of the weight arrays after their content is lost (R375), by line. -/
opaque lostRow : Nat → BitVec 512

/-- How a packet header names an operation and its details (R237): by operation, bytes and tag. (DESIGN CHOICE, log 115) -/
opaque packetKind : Nat → BitVec 8
/-- See `packetKind`. -/
opaque packetInfo : Nat → Nat → Nat → BitVec 48

/-- SHA-512 of a number written as bytes, and whether an ECDSA P-521 signature over a digest verifies under a key (R298): standards that the
manual names and does not define. -/
opaque sha512 : Nat → BitVec 512
/-- See `sha512`: key, digest, signature. -/
opaque ecdsaOk : Nat → BitVec 512 → Nat → Bool
/-- The signature of the PF over a measurement (R298). -/
opaque spdmSign : Nat → BitVec 512 → BitVec 1056

/-- A byte of the PCIe configuration space of a function (R284): function, 64 for the PF, and offset. -/
opaque configByte : Nat → Nat → Byte

/-- The digests that the PF measures for SPDM (R298): by measurement index and state of the registers. -/
opaque measurement : Nat → Nat → BitVec 512

end Sys2Proof.Config
end

