-- ==== Sys2Proof/Syntax.lean ====
section
/-!
DEFINITION. The syntax of one step of the ZH8: every row of the opcode table is a constructor of `Instr`. The first group
are the 32-bit scalar words (R33 to R36), the second the 64-bit vector words (R39 to R46), the third the events: whole steps
of the dispatcher, the engines, the fabric, the host and the power control, which have no word; an event without arguments
acts on the first place of the state where it is enabled. Constructors without arguments stand last.
-/

namespace Sys2Proof

/-- The fields of a vector word below its opcode, as R39 lays them out. -/
structure VWord where
  /-- bits 55:54: 00 vv, 01 vs, 10 vi, 11 special (R40) -/
  form : BitVec 2
  /-- bits 53:49: destination -/
  vd   : Reg
  /-- bits 48:44: first source -/
  va   : Reg
  /-- bits 43:39: second source -/
  vb   : Reg
  /-- bits 38:36: mask register, 0 names m0 -/
  m    : BitVec 3
  /-- bit 35: replicate modifier on vb (R41) -/
  rep  : Bool
  /-- bits 34:33: replicated unit -/
  rsz  : BitVec 2
  /-- bits 32:27: index of the replicated unit -/
  ridx : BitVec 6
  /-- bits 26:23: element type (R42) -/
  ty   : BitVec 4
  /-- bits 22:18: opcode-specific (R43) -/
  ctl  : BitVec 5
  /-- bits 17:0: scalar register or immediate (R40) -/
  x    : BitVec 18
  deriving DecidableEq, Repr

/-- Where a function writes device registers through its BAR (R289). -/
structure Through where
  /-- the function: a virtual function, 64 the PF, 65 an engine of the device -/
  fn : Nat
  /-- the die of a launch slot, or the physical address of a register -/
  at_ : Nat
  deriving DecidableEq, Repr

/-- One step: a scalar word, a vector word or an event. A hart is named by its key, 384 × die + `hid`; a gang by its die and
`gid`; a line by PA[47:6]; a frame by PA[47:18]. -/
inductive Instr where
  /-- Writes the 64-bit or 32-bit wrapped sum of two scalar registers (R86). -/
  | add (w : Bool) (d a b : Reg)
  /-- Writes the wrapped difference of two scalar registers (R86). -/
  | sub (w : Bool) (d a b : Reg)
  /-- Writes the bitwise AND of two scalar registers (R86). -/
  | and (w : Bool) (d a b : Reg)
  /-- Writes the bitwise OR of two scalar registers (R86). -/
  | or (w : Bool) (d a b : Reg)
  /-- Writes the bitwise XOR of two scalar registers (R86). -/
  | xor (w : Bool) (d a b : Reg)
  /-- Shifts a register left by the second operand modulo the width (R86). -/
  | shl (w : Bool) (d a b : Reg)
  /-- Shifts a register right, shifting in zeros (R86). -/
  | shr (w : Bool) (d a b : Reg)
  /-- Shifts a register right, shifting in copies of the sign bit (R86). -/
  | sra (w : Bool) (d a b : Reg)
  /-- Writes 1 if the first operand is less than the second, signed (R86). -/
  | slt (w : Bool) (d a b : Reg)
  /-- Writes 1 if the first operand is less than the second, unsigned (R86). -/
  | sltu (w : Bool) (d a b : Reg)
  /-- Writes the signed minimum of two registers (R86). -/
  | min (w : Bool) (d a b : Reg)
  /-- Writes the signed maximum of two registers (R86). -/
  | max (w : Bool) (d a b : Reg)
  /-- Writes the unsigned minimum of two registers (R86). -/
  | minu (w : Bool) (d a b : Reg)
  /-- Writes the unsigned maximum of two registers (R86). -/
  | maxu (w : Bool) (d a b : Reg)
  /-- Writes the low bits of the product of two registers (R86). -/
  | mul (w : Bool) (d a b : Reg)
  /-- Writes the high half of the signed product (R86). -/
  | mulh (w : Bool) (d a b : Reg)
  /-- Writes the high half of the unsigned product (R86). -/
  | mulhu (w : Bool) (d a b : Reg)
  /-- Writes the signed quotient rounded toward zero, never trapping (R88). -/
  | div (w : Bool) (d a b : Reg)
  /-- Writes the unsigned quotient, never trapping (R88). -/
  | divu (w : Bool) (d a b : Reg)
  /-- Writes the signed remainder of div (R88). -/
  | rem (w : Bool) (d a b : Reg)
  /-- Writes the unsigned remainder of divu (R88). -/
  | remu (w : Bool) (d a b : Reg)
  /-- Writes the number of leading zero bits of a register (R86). -/
  | clz (w : Bool) (d a : Reg)
  /-- Writes the number of one bits of a register (R86). -/
  | popc (w : Bool) (d a : Reg)
  /-- Adds a sign-extended immediate to a register (R89). -/
  | addi (d a : Reg) (imm : BitVec 16)
  /-- ANDs a register with a zero-extended immediate (R89). -/
  | andi (d a : Reg) (imm : BitVec 16)
  /-- ORs a register with a zero-extended immediate (R89). -/
  | ori (d a : Reg) (imm : BitVec 16)
  /-- XORs a register with a zero-extended immediate (R89). -/
  | xori (d a : Reg) (imm : BitVec 16)
  /-- Writes 1 if the register is less than the signed immediate (R89). -/
  | slti (d a : Reg) (imm : BitVec 16)
  /-- Writes 1 if the register is below the sign-extended immediate, unsigned (R89). -/
  | sltiu (d a : Reg) (imm : BitVec 16)
  /-- Shifts left by an immediate amount (R89). -/
  | shli (w : Bool) (d a : Reg) (n : BitVec 6)
  /-- Shifts right logically by an immediate amount (R89). -/
  | shri (w : Bool) (d a : Reg) (n : BitVec 6)
  /-- Shifts right arithmetically by an immediate amount (R89). -/
  | srai (w : Bool) (d a : Reg) (n : BitVec 6)
  /-- Writes the register shifted left 16 ORed with the immediate (R89). -/
  | ldhi (d a : Reg) (imm : BitVec 16)
  /-- Writes pc plus four times the sign-extended immediate (R89). -/
  | addpc (d : Reg) (imm : BitVec 16)
  /-- Loads a sign-extended byte from the live image (R90). -/
  | ldb (d a : Reg) (imm : BitVec 16)
  /-- Loads a zero-extended byte (R90). -/
  | ldbu (d a : Reg) (imm : BitVec 16)
  /-- Loads a sign-extended halfword (R90). -/
  | ldh (d a : Reg) (imm : BitVec 16)
  /-- Loads a zero-extended halfword (R90). -/
  | ldhu (d a : Reg) (imm : BitVec 16)
  /-- Loads a sign-extended word (R90). -/
  | ldw (d a : Reg) (imm : BitVec 16)
  /-- Loads a zero-extended word (R90). -/
  | ldwu (d a : Reg) (imm : BitVec 16)
  /-- Loads a doubleword (R90). -/
  | ldd (d a : Reg) (imm : BitVec 16)
  /-- Loads from base plus scaled index with optional allocation hints (R92). -/
  | ldx (wd : BitVec 3) (na by_ : Bool) (sc : BitVec 2) (d a b : Reg)
  /-- Stores the low byte of a register (R90). -/
  | stb (d a : Reg) (imm : BitVec 16)
  /-- Stores the low halfword of a register (R90). -/
  | sth (d a : Reg) (imm : BitVec 16)
  /-- Stores the low word of a register (R90). -/
  | stw (d a : Reg) (imm : BitVec 16)
  /-- Stores a doubleword (R90). -/
  | std (d a : Reg) (imm : BitVec 16)
  /-- Stores to base plus scaled index with optional allocation hints (R92). -/
  | stx (wd : BitVec 2) (na by_ : Bool) (sc : BitVec 2) (d a b : Reg)
  /-- Atomically adds a value to a memory word and returns the old value (R94). -/
  | aadd (dw sc : Bool) (d a b : Reg)
  /-- Atomically swaps a value into a memory word (R94). -/
  | aswap (dw sc : Bool) (d a b : Reg)
  /-- Atomically ANDs a value into a memory word (R94). -/
  | aand (dw sc : Bool) (d a b : Reg)
  /-- Atomically ORs a value into a memory word (R94). -/
  | aor (dw sc : Bool) (d a b : Reg)
  /-- Atomically XORs a value into a memory word (R94). -/
  | axor (dw sc : Bool) (d a b : Reg)
  /-- Atomically stores the signed minimum (R94). -/
  | amin (dw sc : Bool) (d a b : Reg)
  /-- Atomically stores the signed maximum (R94). -/
  | amax (dw sc : Bool) (d a b : Reg)
  /-- Atomically stores the unsigned minimum (R94). -/
  | aminu (dw sc : Bool) (d a b : Reg)
  /-- Atomically stores the unsigned maximum (R94). -/
  | amaxu (dw sc : Bool) (d a b : Reg)
  /-- Atomically compares and swaps a memory word (R94). -/
  | acas (dw sc : Bool) (d a b : Reg)
  /-- Branches if two registers are equal (R96). -/
  | beq (a b : Reg) (off : BitVec 16)
  /-- Branches if two registers differ (R96). -/
  | bne (a b : Reg) (off : BitVec 16)
  /-- Branches if less, signed (R96). -/
  | blt (a b : Reg) (off : BitVec 16)
  /-- Branches if greater or equal, signed (R96). -/
  | bge (a b : Reg) (off : BitVec 16)
  /-- Branches if less, unsigned (R96). -/
  | bltu (a b : Reg) (off : BitVec 16)
  /-- Branches if greater or equal, unsigned (R96). -/
  | bgeu (a b : Reg) (off : BitVec 16)
  /-- Jumps by a 21-bit word offset (R96). -/
  | jmp (off : BitVec 21)
  /-- Writes the return address and jumps (R97). -/
  | jal (d : Reg) (off : BitVec 21)
  /-- Jumps to register plus offset and writes the return address (R97). -/
  | jalr (d a : Reg) (imm : BitVec 16)
  /-- Queues a vector-fetch block to run once (R98). -/
  | vfb (off : BitVec 21)
  /-- Queues a vector-fetch block as a strip-mined loop over s_n elements (R98). -/
  | vloop (n : Reg) (off : BitVec 21)
  /-- Requests a vector length grant and queues the new length, width and grouping (R99). -/
  | vsetl (sew grp : BitVec 2) (d a : Reg)
  /-- Waits for and reads a return slot into a scalar register (R101). -/
  | qget (d : Reg) (slot : BitVec 3)
  /-- Attaches the hart to the quad's matrix unit with as many free rows as available (R102). -/
  | mxatt (d a : Reg)
  /-- Checks a range and starts settling its pages into the arrays (R195). -/
  | settle (a b : Reg)
  /-- Settles a range and drops every cached copy, waiting until done (R195). -/
  | renew (a b : Reg)
  /-- Reads the settle count of a page (R196). -/
  | scnt (d a : Reg)
  /-- Holds the scalar stream until a page's count reaches a target (R196). -/
  | swait (a b : Reg)
  /-- Executes a block of broadcast commands on bank units and waits for them (R197). -/
  | nbx (a b : Reg)
  /-- Sends one add request to the bank unit holding a word (R198). -/
  | nbadd (f32 : Bool) (a b : Reg)
  /-- Submits a reduction parameter block to a base reduction engine (R202). -/
  | bred (a : Reg)
  /-- Writes the error-model records of 16 macros of a weight set to memory (R210). -/
  | wcalModel (a b : Reg)
  /-- Requests early calibration of every macro of a weight set (R211). -/
  | wcalEarly (a : Reg)
  /-- Reads the die's replica table version and merges the die clock (R254). -/
  | xver (d : Reg)
  /-- Adds an explicit count to an expert's load counter (R249). -/
  | xcount (a b : Reg)
  /-- Submits a replica gradient merge to the engine on the master's die (R264). -/
  | xmerge (a : Reg)
  /-- Loads a new placement policy, effective at the next interval (R255). -/
  | xpol (a : Reg)
  /-- Writes a value into a patchable field of a pool launch record (R107). -/
  | lpatch (d a b : Reg)
  /-- Arms a pool record into a work queue (R108). -/
  | larm (a b : Reg)
  /-- Raises a trap with cause 0x40 and the given code (R109). -/
  | trap (code : BitVec 12)
  /-- Reads a state register (R110). -/
  | getsr (d : Reg) (n : BitVec 12)
  /-- Writes a state register (R110). -/
  | setsr (a : Reg) (n : BitVec 12)
  /-- Supervisor write of vown that performs the vector walk (R315). -/
  | setsrVown (a : Reg)
  /-- Write of savep that completes as vwait and checks the save area (R310). -/
  | setsrSavep (a : Reg)
  /-- Reads and writes a state register as one step (R110). -/
  | swapsr (d a : Reg) (n : BitVec 12)
  /-- Adds integer elements modulo 2^w (R118). -/
  | vadd (f : VWord)
  /-- Subtracts integer elements modulo 2^w (R118). -/
  | vsub (f : VWord)
  /-- Writes the low bits of element products (R118). -/
  | vmul (f : VWord)
  /-- Writes the high bits of element products (R118). -/
  | vmulh (f : VWord)
  /-- Multiplies and adds into the destination modulo 2^w (R118). -/
  | vmadd (f : VWord)
  /-- Divides integer elements (R118). -/
  | vdiv (f : VWord)
  /-- Writes integer element remainders (R118). -/
  | vrem (f : VWord)
  /-- Writes the smaller integer element (R118). -/
  | vmin (f : VWord)
  /-- Writes the larger integer element (R118). -/
  | vmax (f : VWord)
  /-- Bitwise AND of elements (R118). -/
  | vand (f : VWord)
  /-- Bitwise OR of elements (R118). -/
  | vor (f : VWord)
  /-- Bitwise XOR of elements (R118). -/
  | vxor (f : VWord)
  /-- Shifts elements left (R118). -/
  | vshl (f : VWord)
  /-- Shifts elements right logically (R118). -/
  | vshr (f : VWord)
  /-- Shifts elements right arithmetically (R118). -/
  | vsra (f : VWord)
  /-- Adds elements with saturation (R118). -/
  | vsadd (f : VWord)
  /-- Subtracts elements with saturation (R118). -/
  | vssub (f : VWord)
  /-- Writes the absolute value of integer elements (R118). -/
  | vabs (f : VWord)
  /-- Narrows elements with a right shift, rounding and optional saturation (R119). -/
  | vclip (f : VWord)
  /-- Adds floating elements with one rounding (R120). -/
  | vfadd (f : VWord)
  /-- Subtracts floating elements (R120). -/
  | vfsub (f : VWord)
  /-- Multiplies floating elements (R120). -/
  | vfmul (f : VWord)
  /-- Fused multiply-add into the destination (R120). -/
  | vfma (f : VWord)
  /-- Fused multiply-subtract of the destination (R120). -/
  | vfms (f : VWord)
  /-- Fused destination minus product (R120). -/
  | vfnma (f : VWord)
  /-- Divides floating elements (R120). -/
  | vfdiv (f : VWord)
  /-- Square root of floating elements (R120). -/
  | vfsqrt (f : VWord)
  /-- Floating minimum under the NaN and zero rules (R69). -/
  | vfmin (f : VWord)
  /-- Floating maximum under the NaN and zero rules (R69). -/
  | vfmax (f : VWord)
  /-- Clears the sign bit of floating elements (R120). -/
  | vfabs (f : VWord)
  /-- Inverts the sign bit of floating elements (R120). -/
  | vfneg (f : VWord)
  /-- Reciprocal of floating elements (R74). -/
  | vfrcp (f : VWord)
  /-- Base-2 exponential of floating elements (R74). -/
  | vfexp2 (f : VWord)
  /-- Base-2 logarithm of floating elements (R74). -/
  | vflog2 (f : VWord)
  /-- Clamps elements between bounds from two register groups (R121). -/
  | vfclamp (f : VWord)
  /-- Reciprocal square root of floating elements (R74). -/
  | vfrsq (f : VWord)
  /-- Compares elements and writes a mask (R122). -/
  | vcmp (f : VWord)
  /-- ANDs two masks (R122). -/
  | vmand (f : VWord)
  /-- ORs two masks (R122). -/
  | vmor (f : VWord)
  /-- XORs two masks (R122). -/
  | vmxor (f : VWord)
  /-- Inverts a mask (R122). -/
  | vmnot (f : VWord)
  /-- Counts set mask bits into a return slot (R123). -/
  | vmpop (f : VWord)
  /-- Writes the index of the first set mask bit into a return slot (R123). -/
  | vmfirst (f : VWord)
  /-- Selects elements from two operands by mask (R124). -/
  | vmsel (f : VWord)
  /-- Converts elements between types (R125). -/
  | vcvt (f : VWord)
  /-- Packs wide values into a block-scaled layout (R126). -/
  | vqpack (f : VWord)
  /-- Expands a block-scaled layout into wide values (R126). -/
  | vqunpack (f : VWord)
  /-- Transposes elements into bit planes (R127). -/
  | vbpl (f : VWord)
  /-- Transposes bit planes back into elements (R127). -/
  | vbunpl (f : VWord)
  /-- Adds bit-plane operands (R128). -/
  | vpadd (f : VWord)
  /-- Multiplies bit-plane operands (R128). -/
  | vpmul (f : VWord)
  /-- Multiply-accumulates bit-plane operands (R128). -/
  | vpmac (f : VWord)
  /-- Permutes elements by index (R129). -/
  | vperm (f : VWord)
  /-- Slides elements up with a carry source (R129). -/
  | vslup (f : VWord)
  /-- Slides elements down with a carry source (R129). -/
  | vsldn (f : VWord)
  /-- Packs selected elements to the front (R130). -/
  | vcompress (f : VWord)
  /-- Spreads leading elements to selected positions (R130). -/
  | vexpand (f : VWord)
  /-- Copies or broadcasts elements (R131). -/
  | vmv (f : VWord)
  /-- Writes the global element index (R131). -/
  | vid (f : VWord)
  /-- Integer tree-sum reduction into element 0 (R132). -/
  | vredsum (f : VWord)
  /-- Floating tree-sum reduction into element 0 (R132). -/
  | vfredsum (f : VWord)
  /-- Minimum reduction into element 0 (R132). -/
  | vredmin (f : VWord)
  /-- Maximum reduction into element 0 (R132). -/
  | vredmax (f : VWord)
  /-- Sequential inclusive prefix sum (R133). -/
  | vscan (f : VWord)
  /-- Draws counter-based random values per element (R134). -/
  | vrand (f : VWord)
  /-- Adds Gaussian-shaped noise scaled per element (R135). -/
  | vnoise (f : VWord)
  /-- Unit-stride vector load, all-or-nothing (R142). -/
  | vld (f : VWord)
  /-- Unit-stride vector store, all-or-nothing (R142). -/
  | vst (f : VWord)
  /-- Strided vector load (R142). -/
  | vlds (f : VWord)
  /-- Strided vector store (R142). -/
  | vsts (f : VWord)
  /-- Indexed vector load (R142). -/
  | vldx (f : VWord)
  /-- Indexed vector store (R142). -/
  | vstx (f : VWord)
  /-- Performs an atomic per element in index order (R143). -/
  | vamo (f : VWord)
  /-- Loads elements from the lane-local scratchpad, optionally following a stream (R144). -/
  | vlsp (f : VWord)
  /-- Stores elements to the lane-local scratchpad (R144). -/
  | vssp (f : VWord)
  /-- Starts an engine gather of rows into the scratchpad (R148). -/
  | vgath (f : VWord)
  /-- Starts an engine copy between memory ranges (R149). -/
  | vcopy (f : VWord)
  /-- Starts an engine reducing copy applied element by element (R149). -/
  | vrcopy (f : VWord)
  /-- Writes a stream's available count into a return slot (R150). -/
  | vavail (f : VWord)
  /-- Holds the vector stream until a stream's transfer completes (R150). -/
  | vcwait (f : VWord)
  /-- Adds an outer product into the hart's tile rows (R176). -/
  | mop (f : VWord)
  /-- Zeroes selected tile rows (R178). -/
  | mzero (f : VWord)
  /-- Loads a tile row from a vector register (R179). -/
  | mrowld (f : VWord)
  /-- Reads a tile row into a vector register (R180). -/
  | mrowrd (f : VWord)
  /-- Reads a tile column into a vector register (R180). -/
  | mcolrd (f : VWord)
  /-- Streams a tile row into v28–v31, optionally clearing it (R181). -/
  | mdrain (f : VWord)
  /-- Loads the fp4 row and column scale latches (R177). -/
  | mscale (f : VWord)
  /-- Opens a block; its flags take effect when it enters the queue (R154). -/
  | vhead (f : VWord)
  /-- Ends the loop at the first element whose mask bit is set (R158). -/
  | vexit (f : VWord)
  /-- Uniform branch taken if any tested bit is set (R156). -/
  | vbany (f : VWord)
  /-- Uniform branch taken if every tested bit is set (R156). -/
  | vball (f : VWord)
  /-- Uniform branch taken if no tested bit is set (R156). -/
  | vbnone (f : VWord)
  /-- Unconditional branch within a block (R156). -/
  | vjmp (f : VWord)
  /-- Starts an element thread per active element (R161). -/
  | vsplit (f : VWord)
  /-- Per-element branch inside a lane-threading region (R161). -/
  | lbr (f : VWord)
  /-- Moves one element into a return slot (R160). -/
  | vtoq (f : VWord)
  /-- Bisects each lane's bracket to invert the following routine (R167). -/
  | inv (f : VWord)
  /-- Writes the bracket registers blo and bhi (R164). -/
  | vbrk (f : VWord)
  /-- Reads blo or bhi into a vector register (R164). -/
  | vbrkrd (f : VWord)
  /-- Turns expert ids into routing words and counts load (R253). -/
  | xroute (f : VWord)
  /-- Multiplies inputs by a weight set in the cellar weight arrays (R207). -/
  | wmv (f : VWord)
  /-- Sends one bank add request per performed element (R198). -/
  | vnbadd (f : VWord)
  /-- A channel accepts a broadcast command, checks it and runs its bank program over the rectangle (R197). -/
  | broadcastCommand (h : Nat)
  /-- A bank unit applies an accepted non-deterministic add request to the settled word (R198). -/
  | bankAddApply (n : Nat)
  /-- A queued block reaches the head of the vector queue, is fetched and checked, and starts (R98). -/
  | blockAtQueueHead (h : Nat)
  /-- The vector loop context starts the next strip of a loop (R20). -/
  | vloopStrip (h : Nat)
  /-- A vsetl, mxon, mxoff or ordered state write takes effect at its queue position (R19). -/
  | queuePositionEffect (h : Nat)
  /-- The block-transfer engine performs an element of a transfer and the stream's avail advances (R145). -/
  | engineElementPerformed (h k e : Nat)
  /-- An engine transfer completes, freeing its interlock entry and clearing estart (R145). -/
  | engineTransferComplete (h k : Nat)
  /-- Every word of a page is in the array and the page's settle count advances (R191). -/
  | pageSettleComplete (frame : Nat)
  /-- A dirty line is evicted and written to the arrays with byte enables (R190). -/
  | eviction (line : Nat) (toCellar : Bool)
  /-- Hardware migrates a page between HBM4 and LPDDR6 with both images and its count (R201). -/
  | pageMigration (pte frame : Nat)
  /-- A macro's calibration window starts and recalibrates its ADC gain and offset (R209). -/
  | macroCalibration (die m : Nat) (ok : Bool)
  /-- The start of a calibration window is announced at least 1 ms ahead (R209). -/
  | calibrationAnnounce (die m start : Nat)
  /-- A failing macro is retired between wmv instructions (R347). -/
  | macroRetire (die m : Nat)
  /-- An uncorrectable array error with no reader poisons the line in place (R338). -/
  | arrayScrubError (line : Nat)
  /-- A bank unit fails its self-check and is marked in BFAIL (R343). -/
  | bankUnitFail (die ch bank : Nat)
  /-- A non-zero final byte reaches a free launch slot and the record is read and checked (R271). -/
  | launchLatch (die : Through) (q k : Nat)
  /-- A host write of other bytes of a launch window slot (R271). -/
  | launchSlotWrite (die : Through) (q k off : Nat) (bytes : List Byte)
  /-- The dispatcher admits the highest-ranked fitting gang onto cores (R277). -/
  | gangAdmit (die : Nat)
  /-- The dispatcher stages the next-ranked record's preload and program lines (R280). -/
  | preloadStage (die : Nat)
  /-- A gang's charge exceeds its cycle budget and the gang is pre-empted (R281). -/
  | budgetOverrun (die gid cycles : Nat)
  /-- A hart is killed, its queue drained and it continues at kexit or retires (R319). -/
  | kill (h : Nat) (cause : BitVec 8)
  /-- A trap is taken at a scalar boundary and the handler starts (R302). -/
  | trapEntry (h : Nat) (cause : BitVec 8) (tval epc : Word) (vec : Bool)
  /-- 10 µs of time pass and an idle ends (R111). -/
  | idleTimeout (h : Nat)
  /-- A lane group executes one program counter's word for its threads standing there (R161). -/
  | elementThreadIssue (h g idx : Nat)
  /-- 200 µs after draining, the replica's entry becomes retired and its range is freed (R259). -/
  | gracePeriodEnd (x r : Nat)
  /-- A request packet at a channel head is delivered once its stamp is covered (R240). -/
  | packetDelivery (src dst : Nat)
  /-- A response arrives and merges into the hart clock (R239). -/
  | responseReceive (src dst : Nat)
  /-- A die sends a watermark on each outgoing channel within 64 cycles of the last (R241). -/
  | watermarkSend (src dst : Nat)
  /-- A watermark arrives and raises covered and echo values (R241). -/
  | watermarkReceive (src dst : Nat)
  /-- A die probes a source whose coverage holds a channel head (R241). -/
  | probeSend (src dst : Nat)
  /-- A probe arrives and a watermark is sent at once (R241). -/
  | probeReceive (src dst : Nat)
  /-- A flit fails its CRC, is dropped and a replay is requested (R357). -/
  | flitCrcFail (src dst : Nat)
  /-- No flit arrives from a die for 50 µs and it is treated as a failed link (R358). -/
  | dieSilent (a b : Nat)
  /-- A die reports a fatal error of its own (R358). -/
  | dieFatalError (die : Nat)
  /-- A repaired die rejoins the fabric under a new generation (R361). -/
  | dieRejoin (die : Nat)
  /-- A host or peer reads device memory over CXL.mem (R285). -/
  | hostMemRead (pa n : Nat)
  /-- A host or peer writes device memory over CXL.mem (R285). -/
  | hostMemWrite (pa : Nat) (bytes : List Byte) (poison hold : Bool)
  /-- A peer's system-scope atomic is performed as a .sc atomic at the home slice (R287). -/
  | peerAtomic (op : BitVec 4) (dw : Bool) (pa : Nat) (v cmp : Word)
  /-- The PF answers an SPDM request over the DOE mailbox (R298). -/
  | spdmRequest (index : Nat)
  /-- The boot ROM checks and accepts a signed firmware image (R298). -/
  | firmwareBoot (key sig version : Nat) (digest : BitVec 512)
  /-- Host command 0x04 copies host memory into device memory over CXL.cache (R292). -/
  | hcCopy (bytes : List Byte)
  /-- A write to a queue register binds or unbinds a queue, refused while busy (R290). -/
  | queueBind (die j : Nat) (v : Word)
  /-- LOAD installs a key pair in a slot on every die (R290). -/
  | keyLoad (slot : Nat)
  /-- DROP discards a key slot and every cellar line under it (R290). -/
  | keyDrop (slot : Nat)
  /-- Clearing a VF's EN pre-empts every gang of that function (R317). -/
  | vfDisable (vf : Nat)
  /-- Writing GO starts a translation shootdown (R291). -/
  | shootdownGo (v : Word)
  /-- Writing CLR resets a monitor's capture (R299). -/
  | monitorClear (die i : Nat)
  /-- A monitor takes a sample into its extremes, sums and bins (R299). -/
  | monitorSample (die i v : Nat)
  /-- A write to a device register that has no row of its own (R4). -/
  | registerWrite (pa : Through) (n : Nat) (v : Word)
  /-- A fabric link retraining ends, and traffic continues from the first unacknowledged flit or the attempt counts as failed (R357). -/
  | linkRetrainEnd (src dst : Nat) (ok : Bool)
  /-- Holds the scalar stream until earlier vector work and transfers complete (R100). -/
  | vwait
  /-- Releases the granted matrix rows and discards the tile (R103). -/
  | mxdet
  /-- Queues the switch into matrix mode (R104). -/
  | mxon
  /-- Queues the switch out of matrix mode (R104). -/
  | mxoff
  /-- Orders earlier scalar accesses before later vector accesses (R105). -/
  | ordSv
  /-- Orders earlier vector accesses before later scalar accesses (R105). -/
  | ordVs
  /-- Orders both streams in both directions (R105). -/
  | ordAll
  /-- Completes as vwait and arrives at the gang barrier (R106). -/
  | gbar
  /-- Applies the launch's waiting deterministic bank add requests in order (R199). -/
  | nbflush
  /-- Returns from a trap, restoring the mode and any held image (R309). -/
  | tret
  /-- Holds the hart until its watched line is written, an event arrives or 10 µs pass (R111). -/
  | idle
  /-- Lets other harts of the core issue first (R112). -/
  | yield
  /-- Waits for an empty vector queue and discards fetched instruction words (R113). -/
  | syncins
  /-- Retires the hart once its vector work is done (R114). -/
  | halt
  /-- Ends the current strip or block (R154). -/
  | vstop
  /-- Waits for every element thread and re-forms the vector (R161). -/
  | vjoin
  /-- After its settle, a renew drops every cached copy of the page (R194). -/
  | renewDrop
  /-- A full host-line directory recalls its oldest entry with BISnpInv (R286). -/
  | hostDirectoryRecall
  /-- An unanswered back-invalidation snoop expires after 2 ms and the line is poisoned (R345). -/
  | bisnpTimeout
  /-- A base reduction engine runs an accepted reduction and completes its four steps (R202). -/
  | bredReduction
  /-- The engine copies, settles and sums replica buffers in replica order into the master (R264). -/
  | xmergeReduction
  /-- A record's dependency becomes met and the record may become ready (R273). -/
  | dependencyMet
  /-- A gang retires when all its harts have retired (R26). -/
  | gangRetire
  /-- A launch retires, flushes its bank add requests, journals and writes its completion flag (R26). -/
  | launchRetire
  /-- A gang is pre-empted at boundaries and saved by context walks (R29). -/
  | preemption
  /-- A context walk that faulted retries after a shootdown or every 1 ms (R316). -/
  | contextWalkRetry
  /-- A pre-empted gang is restored by restore walks and continues (R313). -/
  | gangResume
  /-- The last hart arrives at the gang barrier and all harts leave (R106). -/
  | barrierRelease
  /-- A page count reaches the target and a waiting swait returns (R196). -/
  | swaitSatisfied
  /-- A write to the watched line ends an idle (R111). -/
  | idleWake
  /-- At each 1 ms boundary counters are copied and reset and the policy replicates or retires (R256). -/
  | policyInterval
  /-- The engine allocates, copies and settles a new replica's range (R258). -/
  | replicaCopy
  /-- The placement engine writes a new bank and version words on every die (R257). -/
  | versionPublish
  /-- A held tail store's newly covered slots are examined, served or redirected (R263). -/
  | tailExamination
  /-- A direction needing 32 replays in 1 ms retrains (R357). -/
  | linkRetrain
  /-- Four failed retrainings leave a link failed (R357). -/
  | linkFail
  /-- The control island removes a die and raises the generation (R359). -/
  | dieRemoval
  /-- Loss of CD0, its HBM4 or the control island stops the module (R369). -/
  | moduleFailure
  /-- The CXL link retrains within 100 ms with no effect on values (R367). -/
  | hostLinkRetrain
  /-- The link has not retrained after 100 ms and the host-line directories are cleared (R367). -/
  | hostLinkDown
  /-- Host command 0x01 settles a physical range (R292). -/
  | hcSettle
  /-- Host command 0x02 renews a physical range (R292). -/
  | hcRenew
  /-- Host command 0x03 submits a bred in a VF's address space (R292). -/
  | hcBred
  /-- Host command 0x10 defines an expert with its first replica (R383). -/
  | hcDefineExpert
  /-- Host command 0x11 retires every replica on a die (R292). -/
  | hcDrainDie
  /-- Host command 0x12 assigns placement target space on a die (R292). -/
  | hcAssignTarget
  /-- Host command 0x13 registers a die's token inbox (R292). -/
  | hcRegisterInbox
  /-- Host command 0x20 resumes a waiting gang (R372). -/
  | hcResume
  /-- Host command 0x21 kills a gang's harts (R372). -/
  | hcKill
  /-- Host command 0x30 starts entry into Shuttered (R295). -/
  | hcEnterShuttered
  /-- An unlisted, malformed or poisoned host command is reported and skipped (R383). -/
  | hcMalformed
  /-- Every TLB has dropped the entries and old accesses have performed; GO reads 0 (R291). -/
  | shootdownComplete
  /-- Writing ENTER starts entry into Shuttered (R295). -/
  | shutterEnterWrite
  /-- The brown-out pin is asserted and entry into Shuttered starts (R295). -/
  | brownoutPinAssert
  /-- The module saves state, writes dirty bytes and enters Shuttered (R295). -/
  | shutteredEntry
  /-- The brown-out pin is deasserted (R296). -/
  | brownoutPinDeassert
  /-- After 1 ms deasserted or a host retrain, the module restores state and resumes (R296). -/
  | shutteredExit
  /-- A supply that cannot hold Shuttered drops the module to reduced retention (R375). -/
  | reducedRetentionDrop
  /-- All power is lost and the module starts cold (R376). -/
  | totalPowerLoss
  /-- A conventional reset of the module clears every content (R369). -/
  | moduleReset
  /-- A macro's calibration window of at most 40 µs ends, and a wmv waiting on the macro may proceed (R209). -/
  | calibrationWindowEnd
  /-- A CXL link that was down trains again, and host requests, latches and MSI-X delivery resume in Run (R367). -/
  | hostLinkTrainsAgain
  /-- The host answers a BISnpData or BISnpInv snoop, returning its copy of the line to the home die (R191). -/
  | backInvalidationResponse
  /-- Power returns after a total loss and the module starts cold, as at reset (R376). -/
  | coldStart
  deriving DecidableEq, Repr

end Sys2Proof
end

