-- ==== Sys2Proof/Machine/State.lean ====
section
/-!
DEFINITION. The state of the ZH8 as plain data: the hart in focus and every other admitted hart, the two images of memory,
the scratchpads, the bank units and weight arrays, the causal fabric, the dispatchers, the placement engine, the host port
and the power control; the moves the environment has chosen, and the machine right after module reset.
-/

namespace Sys2Proof.Machine

/-- Why the machine stops. -/
inductive Fault where
  /-- Raised by `step` when all power is lost (R376) and no input is waiting: nothing runs until COLD_START. Safe: the
  manual says that the module keeps nothing and starts cold. -/
  | powerOff
  deriving DecidableEq, Repr

/-- Why the model gives no meaning. -/
inductive Refusal where
  /-- Raised by an arm of `exec` whose instruction has no meaning in this model. Safe: it stops where the hardware runs. -/
  | notModelled (mnemonic : String)
  deriving DecidableEq, Repr

/-! ## Sparse data -/

/-- The arrays of every die, by physical address: strictly rising addresses, no entry equal to 0, which is what an
unlisted byte reads as. -/
abbrev Memory := List Host.Cell

/-- The least address of a memory is above a bound and the rest follows in rising order with no zero byte. -/
def Memory.wfFrom : Nat → Memory → Bool
  | _, [] => true
  | lo, (a, b) :: m => decide (lo ≤ a) && b != 0#8 && Memory.wfFrom (a + 1) m

/-- The canonical form of a memory. -/
def Memory.wf (m : Memory) : Bool := Memory.wfFrom 0 m

/-! ## Harts -/

/-- The grouping `vgrp` (R17). -/
inductive Grp where
  | g1 | g2 | g4 | g8
  deriving DecidableEq, Repr

/-- The element width `sew` (R17). -/
inductive Sew where
  | w8 | w16 | w32 | w64
  deriving DecidableEq, Repr

/-- The layout of `status` (R301). -/
structure Status where
  sv : Bool
  psv : Bool
  vs : Bool
  blk : Bool
  spl : Bool
  xf : Bool
  walk : Bool
  deriving DecidableEq, Repr

/-- The state registers of a hart that hold state of their own (R50). -/
structure SRegs where
  vl : Word
  vgrp : Grp
  sew : Sew
  sb : Word
  estart : Word
  xstop : Word
  vown : Word
  mgrant : Word
  mmode : Bool
  seed : Word
  stag : BitVec 16
  cause : BitVec 8
  epc : Word
  tval : Word
  status : Status
  tvec : Word
  kexit : Word
  savep : Word
  saveidx : BitVec 19
  vclk : Clock
  nbdet : Bool
  deriving DecidableEq, Repr

/-- The vector state of a hart slot (R314), the scratchpad apart. -/
structure VecState where
  v : Vector VReg 32
  /-- m0 to m7; m0 is never read (R7 register families) -/
  m : Vector Mask 8
  vq : Vector Word 8
  blo : Bracket
  bhi : Bracket
  deriving DecidableEq, Repr

/-- What a hart is (R50): its slot on the die, its gang and its launch. -/
structure Ident where
  did : Nat
  hid : Nat
  gid : Nat
  gsize : Nat
  gidx : Nat
  /-- the gang's grouping cap (R14) -/
  cap : Nat
  tenant : Nat
  vf : Nat
  /-- matrix rows reserved for the hart by its launch record (R277) -/
  rows : Nat
  /-- the scalar L1s of its quad are fused into one (R9, R277) -/
  fused : Bool
  deriving DecidableEq, Repr

/-- Life of a hart slot. -/
inductive Phase where
  /-- no hart admitted -/
  | free
  /-- admitted and running -/
  | run
  /-- retired by `halt`, a kill or a lost context (R26, R114, R316, R319) -/
  | halted
  /-- pre-empted; its context stays in the slot (R312, R313) -/
  | parked
  /-- its context walk stopped at a record (R316) -/
  | saving (r : Nat)
  deriving DecidableEq, Repr

/-- A scalar request to another die in flight (R239). -/
structure Remote where
  tag : Nat
  /-- destination register -/
  d : Reg
  /-- width in bytes, and whether the value is sign-extended -/
  n : Nat
  signed : Bool
  /-- address of the access and physical address -/
  va : Word
  pa : Nat
  /-- a load, which `idle` watches (R111) -/
  load : Bool
  deriving DecidableEq, Repr

/-- What holds the scalar stream of a hart between two steps. -/
inductive Wait where
  | none
  /-- a request to another die is in flight (R239) -/
  | response (r : Remote)
  /-- arrived at the gang barrier (R106) -/
  | barrier
  /-- in `idle` (R111) -/
  | idle
  /-- in `swait` on the page of a frame (R196) -/
  | swait (frame : Nat) (target : BitVec 32)
  /-- in `renew` until these frames have completed (R195) -/
  | renew (frames : List Nat)
  /-- in `nbx`: the command block, the number of commands and the next command (R197) -/
  | nbx (blk : Word) (n c : Nat)
  deriving DecidableEq, Repr

/-- What a place of the vector queue holds (R98). -/
inductive QKind where
  /-- a block: target, and the loop count of `vloop` (none for `vfb`) -/
  | block (target : Word) (count : Option Word)
  /-- `vsetl`: granted length, width, grouping -/
  | setl (vl : Word) (sew : Sew) (grp : Grp)
  | mxon
  | mxoff
  /-- a `setsr` or `swapsr` of a register of R19: its number and the value -/
  | write (num : Nat) (v : Word)
  deriving DecidableEq, Repr

/-- One place of the vector queue. -/
structure QEntry where
  kind : QKind
  /-- the snapshot of the scalar registers (R98) -/
  snap : Vector Word 32
  /-- program-order number of the entry in its hart -/
  seq : Nat
  /-- present at the last trap entry (R303) -/
  mark : Bool
  /-- queued in supervisor mode (R314) -/
  sup : Bool
  /-- the scalar word's address and the word, for a trap at the position (R331) -/
  pc : Word
  word : BitVec 32
  deriving DecidableEq, Repr

/-- One element thread (R161): its element, its word index, and whether it waits at `vjoin`. -/
structure Thread where
  e : Nat
  idx : Nat
  joined : Bool
  deriving DecidableEq, Repr

/-- The ranges of an engine transfer (R151), each as first byte and end: memory read, memory written, scratchpad written. -/
structure Hulls where
  rd : Nat × Nat
  wr : Nat × Nat
  sp : Nat × Nat
  deriving DecidableEq, Repr

/-- The fields of a leaf entry that an access uses (R186). -/
structure Leaf where
  /-- base PA of the page and its size in bytes -/
  base : Nat
  size : Nat
  home : Nat
  ww : Bool
  wset : Nat
  tkey : Nat
  sh : Bool
  pin : Bool
  cc : Bool
  wb : Bool
  x : Bool
  w : Bool
  r : Bool
  /-- PA of the (first) entry -/
  pte : Nat
  deriving DecidableEq, Repr

/-- A store of one element that is held until the exit of its strip has resolved (R24): a memory store with its address and its page's
leaf, or a scratchpad store with its key. -/
structure HeldStore where
  e : Nat
  va : Nat
  leaf : Option Leaf
  bytes : List Byte
  deriving DecidableEq, Repr

/-- What a strip holds while a word before its `vexit` is to trap with the exit unresolved (R24, R307): the vector state at the start of the
strip, the stores of the words performed since, and the words that wait for the exit (R159, R380). -/
structure Pass where
  undo : VecState
  stores : List HeldStore
  /-- experts counted by an `xroute`: element and expert (R253) -/
  counts : List (Nat × Nat)
  owed : List Nat
  /-- the words ahead have been looked at since the last trap -/
  looked : Bool
  deriving DecidableEq, Repr

/-- A strip of an `indep` block that waits while another runs (R21): its strip counter, word index, `sb`, `vl`, its own vector registers, and
the trap it has met (R332): cause, trap value and address. -/
structure Strip where
  k : Nat
  idx : Nat
  sb : Word
  vl : Word
  vec : VecState
  fail : Option (BitVec 8 × Word × Word)
  deriving DecidableEq, Repr

/-- The vector loop context: the block at the head of the queue once it has started (R15, R20). -/
structure LoopCtx where
  entry : QEntry
  /-- address of the `vhead` -/
  base : Word
  /-- the words of the block, `vhead` to `vstop`: the lane instruction buffer (R22) -/
  words : List (BitVec 64)
  /-- index of the next word; 0 at a strip boundary -/
  idx : Nat
  /-- strip counter k, G, b0 and s_n of R20 -/
  k : Nat
  g : Word
  b0 : Word
  n : Word
  /-- the stop element of the strip when its `vexit` fires (R24) -/
  stop : Option Nat
  /-- the `vexit` of the strip has fired (XF) -/
  fired : Bool
  /-- the exit of the strip is resolved: `stop` is its answer -/
  resolved : Bool
  /-- how the uniform branches before the `vexit` went when it was resolved: word index and taken -/
  taken : List (Nat × Bool)
  /-- ranges of the transfers that stand before a `vexit` that has not fired, with their word index (R159) -/
  kept : List (Nat × Hulls)
  /-- only while an exit is being resolved: the failing check met, cause, trap value and element (R307) -/
  fail : Option (BitVec 8 × Word × Nat)
  /-- stopped at the target of a taken backward branch for a pre-emption (R157) -/
  paused : Bool
  /-- the element threads of a lane-threading region and the index of its `vsplit` (R161) -/
  threads : Option (Nat × List Thread)
  /-- the program counter that each lane group picked last, the latest pick first (R161) -/
  picked : List (Nat × Nat)
  /-- the values that words before the `vexit` read from outside the hart when the exit was resolved: word index, element and value -/
  seen : List (Nat × List (Nat × Nat))
  /-- the strip runs towards a trap before its exit has resolved (R307) -/
  pass : Option Pass
  /-- words before the `vexit` that were held until it resolved and are still to run, in order (R159, R380) -/
  owed : List Nat
  /-- element groups that the executing `.follow` load has performed (R146) -/
  part : Nat
  /-- old values of the `vamo` words performed while a transfer was in flight: word index, element and value; and those that a trap of the
  transfer makes the block pass again, which are not applied again (R152, R348) -/
  once : List (Nat × List (Nat × Nat))
  redo : List (Nat × List (Nat × Nat))
  /-- strips of an `indep` block that wait, and strips above k that have ended (R21, R332) -/
  parked : List Strip
  ran : List Nat
  /-- the strip that wrote each return slot last, of an `indep` block (R21) -/
  slotBy : List (Nat × Nat)
  deriving DecidableEq, Repr

/-- A loop context that stands at word i of a block. -/
def LoopCtx.start (entry : QEntry) (base : Word) (words : List (BitVec 64)) (i : Nat) (g b0 n : Word) : LoopCtx :=
  { entry := entry, base := base, words := words, idx := i, k := 0, g := g, b0 := b0, n := n, stop := none, fired := false,
    resolved := false, taken := [], kept := [], fail := none, paused := false, threads := none, picked := [], seen := [],
    pass := none, owed := [], part := 0, once := [], redo := [], parked := [], ran := [], slotBy := [] }

/-- The context at the first word of a strip: nothing of the strip before is left. -/
def LoopCtx.fresh (c : LoopCtx) (i : Nat) : LoopCtx :=
  { c with
    idx := i, stop := none, fired := false, resolved := false, taken := [], kept := [], fail := none, seen := [], pass := none,
    owed := [], part := 0, once := [], redo := [] }

/-- The context that a trap keeps: a load under a modifier starts again, and the exit is to be looked at again (R146, R306, R307). -/
def LoopCtx.stopped (c : LoopCtx) : LoopCtx :=
  { c with part := 0, seen := if c.pass.isSome then [] else c.seen, pass := c.pass.map fun p => { p with looked := false } }

/-- The held image (R303): the stopped block or queue operation, the entries behind it, the scalar resume point. -/
structure Held where
  ctx : Option LoopCtx
  behind : List QEntry
  resume : Word
  deriving DecidableEq, Repr

/-- A trap of a marked block, set aside until the handler's `tret` (R303, R309). -/
structure Aside where
  cause : BitVec 8
  tval : Word
  epc : Word
  ctx : Option LoopCtx
  behind : List QEntry
  spl : Bool
  xf : Bool
  deriving DecidableEq, Repr

/-- The three engine transfers (R147). -/
inductive TransferKind where
  | gath | copy | rcopy
  deriving DecidableEq, Repr

/-- An engine transfer in flight: one entry of the interlock table (R151). -/
structure Transfer where
  kind : TransferKind
  /-- operation of `vrcopy`: 0 add, 1 min, 2 max -/
  op : Nat
  ty : BitVec 4
  /-- elements still to be performed, in index order: element, source address, destination address or scratchpad key -/
  todo : List (Nat × Word × Word)
  /-- bytes of one element: the type's width, or the row size -/
  size : Nat
  sb : Word
  /-- word index of the instruction in its block -/
  pos : Nat
  /-- number in the order of issue among the transfers in flight -/
  order : Nat
  hulls : Hulls
  /-- the loop context at its word, and `vl`: where the block goes back to when the transfer traps (R147, R303) -/
  at_ : Option LoopCtx
  vl : Word
  /-- the hart's clock when it began (R239) -/
  clk : Clock
  /-- source and destination overlap: what is written is not defined (R149) -/
  clash : Bool
  /-- elements written so far into lines that hold poison, by physical address (R337) -/
  wrote : List Nat
  /-- the lowest failing element met, its cause and trap value (R147) -/
  fail : Option (Nat × BitVec 8 × Word)
  deriving DecidableEq, Repr

/-- A copy stream (R145). -/
structure Stream where
  avail : Word
  fin : Word
  xfer : Option Transfer
  deriving DecidableEq, Repr

/-- The matrix side of a hart (R170 to R177). -/
structure Tile where
  /-- rows 0 to 255 of 128 columns of 32 bits; column j in bits 32j + 31 : 32j -/
  z : Vector (BitVec 4096) 256
  /-- row scale latches, byte i in bits 8i + 7 : 8i -/
  sr : BitVec 2048
  /-- column scale latches -/
  sc : BitVec 1024
  /-- `vl`, `vgrp`, `sew` saved by `mxon` -/
  svl : Word
  sgrp : Grp
  ssew : Sew
  deriving DecidableEq, Repr

/-- A read that a hart has made ahead of its turn, for a later load (R217, R218): whether it belongs to the vector stream, its address and bytes,
and the home die's clock at service. `hits` are the writes that have since performed over its bytes, each by die and number: a load that
knows one of them reads again. `stale`: another party has written the line since (R111). -/
structure Early where
  vec : Bool
  pa : Nat
  bytes : List Byte
  clk : Clock
  hits : List (Nat × BitVec 16)
  stale : Bool
  deriving DecidableEq, Repr

/-- One hart slot. -/
structure Hart where
  id : Ident
  phase : Phase
  pc : Word
  /-- s0 to s31; s0 is held at 0 -/
  x : Vector Word 32
  sr : SRegs
  vec : VecState
  tile : Tile
  queue : List QEntry
  ctx : Option LoopCtx
  held : Option Held
  aside : Option Aside
  streams : Vector Stream 8
  wait : Wait
  /-- number of queue entries issued so far -/
  seq : Nat
  /-- queue entries below this number precede the last `ord.vs` (R105) -/
  vsBound : Nat
  /-- queue entries at or above this number wait for the packets before the last `ord.sv` (R105) -/
  svBound : Option Nat
  /-- number of the last write of the hart's die at the last `ord.sv` (R105, R238) -/
  svNum : BitVec 16
  /-- line of the most recent completed scalar load, and whether it has been written since (R111) -/
  watch : Option Nat
  watchHit : Bool
  /-- `time` at the start of the last `idle` (R111) -/
  idleAt : Nat
  /-- the record before which its vector walk is to stop, for a pre-emption to come between (R317) -/
  walkStop : Option Nat
  /-- instruction words fetched and buffered (R113): address and word -/
  ibuf : List (Word × BitVec 32)
  /-- next number of a deterministic bank add request (R199) -/
  nbSeq : Nat
  /-- return slots whose last writer was `vavail` (R239) -/
  availSlots : BitVec 8
  /-- reads made ahead of their turn (the model's own field) -/
  early : List Early
  /-- what the vector stream has learned by its own accesses and by fences (the model's own field) -/
  vknown : Clock
  /-- how many turns the schedule has given the hart (the model's own field) -/
  turns : Nat
  deriving DecidableEq, Repr

/-! ## The two images (R11, R185 to R194) -/

/-- Where a cached copy of a line is held: the scalar L1 of a core of its home die (die × 96 + core), the L2 slice that its address names (R138), the
cellar L3, or a cache of the host (R9, R286). -/
inductive Level where
  | l1 (core : Nat)
  | l2 | l3 | host
  deriving DecidableEq, Repr

/-- A cached copy of the 64-byte line `addr` = PA[47:6]. (DEDUCED, log 16) -/
structure Line where
  addr : Nat
  data : BitVec 512
  /-- byte i is dirty -/
  dirty : BitVec 64
  poison : Bool
  level : Level
  /-- the tenant key index of the page through which it was last used; none for a line that the host wrote (R200, R285) -/
  key : Option Nat
  deriving DecidableEq, Repr

/-- A page settle or renew under way (R191, R194). -/
structure Settling where
  frame : Nat
  renew : Bool
  /-- lines dirty at its start, with their dirty masks -/
  lines : List (Nat × BitVec 64)
  /-- the settle part has completed; the drop of a renew is still to come -/
  down : Bool
  deriving DecidableEq, Repr

/-- A cached result of a walk (R187): the VF, VA[53:18] and what the walk gave (none for a fault). Parties may hold different results for one
page until a shootdown. -/
structure TlbEntry where
  vf : Nat
  page : Nat
  leaf : Option Leaf
  deriving DecidableEq, Repr

/-- The caches, the poison marks and the translation caches. -/
structure Images where
  cache : List Line
  /-- lines of the arrays that hold poison, ascending -/
  poison : List Nat
  settling : List Settling
  tlb : List TlbEntry
  /-- host-held lines, oldest first (R286) -/
  hostOrder : List Nat
  /-- frames no longer used for migration (R346) -/
  badFrames : List Nat
  /-- scratchpad words that hold poison (R338), by scratchpad key -/
  spPoison : List Nat
  /-- the weight arrays have lost their contents (R375), and the lines written and settled since -/
  weightsLost : Bool
  weightsBack : List Nat
  /-- the tenant key index of the leaf through which a frame was last reached (R200) -/
  keys : List (Nat × Nat)
  deriving DecidableEq, Repr

/-! ## Bank units, base reduction engines, weight arrays -/

/-- An add request accepted by a bank unit (R198). -/
structure BankReq where
  pa : Nat
  f32 : Bool
  v : BitVec 32
  /-- mode at issue -/
  det : Bool
  launch : Nat
  die : Nat
  hid : Nat
  seq : Nat
  deriving DecidableEq, Repr

/-- A physical piece of a range with the attributes of its page that a copy applies: write-back and weight width (R147, R186). -/
structure Span where
  pa : Nat
  len : Nat
  wb : Bool
  ww : Bool
  deriving DecidableEq, Repr

/-- A reduction accepted by a base reduction engine (R202, R264). -/
structure Reduction where
  /-- 0 sum, 1 max, 2 min -/
  op : Nat
  /-- 0 f32, 1 bf16, 2 i32 -/
  fmt : Nat
  n : Nat
  /-- physical ranges of each source: list of (PA, bytes) pieces in order -/
  srcs : List (List (Nat × Nat))
  dst : List (Nat × Nat)
  /-- frame of the destination address (for N = 0) -/
  dst0 : Nat
  flagPa : Option Nat
  flagV : Word
  presettle : Bool
  /-- frames whose settles it has started and waits for -/
  waits : List Nat
  /-- copies of an `xmerge` still to make first: source pieces and staging pieces -/
  copies : List (List Span × List Span)
  /-- write the "bred done" entry -/
  journal : Bool
  vf : Nat
  deriving DecidableEq, Repr

/-- A macro whose state is not the default (R209, R347). -/
structure MacroState where
  retired : Bool
  /-- calibrations in a row that failed -/
  fails : Nat
  /-- start of the next announced window -/
  announced : Option Nat
  /-- a window is running -/
  window : Bool
  /-- calibrations done -/
  cal : Nat
  deriving DecidableEq, Repr

/-- What the error model of a die's macros depends on (R209): the 10 °C band of its temperature, and its age in thousands of hours. -/
structure Climate where
  band : BitVec 8
  age : BitVec 16
  deriving DecidableEq, Repr

/-- The in-place engines. -/
structure InPlace where
  reqs : List BankReq
  /-- failed bank units, as die × 1,024 + channel × 32 + bank (R343) -/
  bfail : List Nat
  /-- queues of the base reduction engines, by die -/
  bred : List (Nat × Reduction)
  /-- queues of `xmerge` requests, by die -/
  xmerge : List (Nat × Reduction)
  /-- macros with a state of their own, by die × 8,192 + macro -/
  macros : List (Nat × MacroState)
  climate : Vector Climate 8
  deriving DecidableEq, Repr

/-! ## The causal fabric (R236 to R247, R357 to R361) -/

/-- What a request packet asks. -/
inductive PacketOp where
  /-- store: the bytes, and whether the line may be allocated -/
  | store (bytes : List Byte) (alloc : Bool)
  /-- load of n bytes -/
  | load (n : Nat) (alloc : Bool)
  /-- atomic: operation, width in bytes, operand and compare value -/
  | atomic (op : Nat) (n : Nat) (v cmp : Word) (sc : Bool)
  deriving DecidableEq, Repr

/-- A request packet in flight (R237). -/
structure Packet where
  op : PacketOp
  pa : Nat
  stamp : Clock
  gen : BitVec 4
  /-- link sequence number (R245) -/
  seq : BitVec 12
  num : Option (BitVec 16)
  /-- key of the issuing hart -/
  hart : Nat
  /-- tag of the response that the hart waits for -/
  tag : Option Nat
  /-- the page's weight width, where it is a weight page -/
  ww : Bool
  deriving DecidableEq, Repr

/-- A response in flight: the hart, the tag, the value (none for an error), and the home die's clock and generation at service (R237, R239,
R244). -/
structure Response where
  gen : BitVec 4
  seq : BitVec 12
  hart : Nat
  tag : Nat
  value : Option Word
  poison : Bool
  clk : Clock
  deriving DecidableEq, Repr

/-- A watermark flit (R241). -/
structure Watermark where
  w : BitVec 16
  echo : BitVec 16
  gen : BitVec 4
  deriving DecidableEq, Repr

/-- One directed channel between two dies. -/
structure Channel where
  src : Nat
  dst : Nat
  /-- request packets not yet delivered, in channel order -/
  reqs : List Packet
  /-- how many of them, from the first, wait in the holding buffers of the destination (R243) -/
  held : Nat
  /-- next sequence number to send, and the one behind the last that was accepted (R245); responses are numbered by themselves -/
  next : BitVec 12
  got : BitVec 12
  answers : BitVec 12
  /-- packets kept until they are acknowledged (R245, R357) -/
  retry : List Packet
  resps : List Response
  marks : List Watermark
  probes : Nat
  /-- the times of the last replays, and failed retrainings in a row (R357) -/
  replays : List Nat
  retrains : Nat
  retraining : Bool
  deriving DecidableEq, Repr

/-- The fabric side of one die. -/
structure DieFab where
  alive : Bool
  clock : Clock
  /-- covered_d[s] (R240) -/
  covered : Clock
  /-- echo of covered_s[d] last received from each die (R241) -/
  echo : Clock
  gen : BitVec 4
  deriving DecidableEq, Repr

/-- The fabric. -/
structure Fabric where
  dies : Vector DieFab 8
  chans : List Channel
  tag : Nat
  /-- what the `.sc` atomics so far have known (R95, R219) -/
  sc : Clock
  /-- a die left by a failed link or found silent and not yet removed, with the detection code (R356) -/
  failing : List (Nat × Nat)
  deriving DecidableEq, Repr

/-! ## Dispatchers (R269 to R282) -/

/-- A queue that is not in its reset condition. -/
structure Queue where
  /-- module queue number -/
  q : Nat
  /-- the virtual function it is bound to -/
  vf : Option Nat
  /-- the field VF of its register, as written last (R290) -/
  field : Nat
  next : Nat
  /-- slots whose latch has fired and that wait for their turn -/
  latched : List Nat
  busy : List Nat
  /-- D_q in gang-nanoseconds -/
  deficit : Int
  deriving DecidableEq, Repr

/-- A dependency of an accepted record (R273). -/
inductive Dep where
  | met
  | launch (id : Nat)
  | count (frame : Nat) (c : BitVec 32)
  deriving DecidableEq, Repr

/-- An accepted launch. -/
structure Launch where
  id : Nat
  die : Nat
  /-- record number (R270) -/
  num : Nat
  /-- module queue number -/
  q : Nat
  /-- the 128 bytes of the record -/
  record : BitVec 1024
  deps : List Dep
  /-- gangs admitted and retired so far -/
  admitted : Nat
  retired : Nat
  /-- no further gang is admitted (R381) -/
  stopped : Bool
  cycles : Nat
  status : Nat
  /-- "launch retired" has been written; the completion flag is still to come (R26, R282) -/
  journaled : Bool
  /-- what happens-before the first instruction of its harts (R108, R273) -/
  clk : Clock
  /-- charge of other queues of its priority since it came to the front of its queue, in gang-nanoseconds (R276) -/
  waited : Nat
  deriving DecidableEq, Repr

/-- Why a gang is off the cores. -/
inductive GangPhase where
  | run
  /-- a pre-emption is pending: scalar streams stop, vector streams run to their boundary -/
  | stopping (why : Nat)
  /-- saved; waits: 0 overrun, 1 VF disabled, 2 Shuttered -/
  | saved (why : Nat)
  /-- resumed by system software and ready again (R372) -/
  | ready
  deriving DecidableEq, Repr

/-- A gang on a die. -/
structure Gang where
  die : Nat
  gid : Nat
  launch : Nat
  index : Nat
  size : Nat
  phase : GangPhase
  /-- arrivals at the barrier, bit `gidx` -/
  barrier : BitVec 64
  /-- cycles for which it has been admitted, up to `since` (R281) -/
  charge : Nat
  /-- the hart slots it was placed on, in `gidx` order (R14) -/
  hids : List Nat
  /-- hart keys of its members that hold a slot, in `gidx` order -/
  harts : List Nat
  /-- save areas of members without a slot: `gidx`, `savep` -/
  areas : List (Nat × Word)
  /-- members that have halted -/
  halted : Nat
  /-- hart slots that stay reserved (R312, R313) -/
  reserved : Bool
  /-- `time` up to which its charge and the deficits of R275 have been counted -/
  since : Nat
  /-- `cycle` at that moment (R281) -/
  cycleAt : Nat
  /-- killed while off the cores: its harts are killed when they are back (R319, R372) -/
  killed : Bool
  /-- the stopped loop contexts of members without a slot, by `gidx`: what the save area does not hold of them (R307) -/
  stops : List (Nat × LoopCtx)
  deriving DecidableEq, Repr

/-- A record of a die's pool (R107). -/
structure PoolRec where
  record : BitVec 1024
  armed : Bool
  deriving DecidableEq, Repr

/-- The dispatchers of the module. -/
structure Dispatch where
  queues : List Queue
  /-- bytes of launch window slots that have been written, by slot key (queue × 64 + slot) -/
  slots : List (Nat × BitVec 1024)
  /-- pool records that are not all zero, by die × 4,096 + number -/
  pool : List (Nat × PoolRec)
  launches : List Launch
  gangs : List Gang
  nextId : Nat
  /-- last queue chosen by the round-robin, by die and priority (R275) -/
  last : List (Nat × Nat)
  /-- staged launches, by die (R280) -/
  staged : List (Nat × Nat)
  /-- next sequence of the journal, JHEAD (R282) -/
  jhead : Word
  deriving DecidableEq, Repr

/-! ## Placement (R248 to R264) -/

/-- A replica entry (R251). -/
structure Replica where
  base : Word
  die : Nat
  /-- true for weight arrays -/
  weights : Bool
  /-- 0 empty, 1 active, 2 draining, 3 retired -/
  state : Nat
  len : Nat
  vf : Nat
  deriving DecidableEq, Repr

/-- One version of the table: the entries that are not empty, by expert × 8 + replica index. -/
structure Bank where
  version : BitVec 32
  experts : Nat
  seedTable : Word
  entries : List (Nat × Replica)
  deriving DecidableEq, Repr

/-- The table copy of one die (R250). -/
structure DieTable where
  version : BitVec 32
  grace : Word
  redirect : Word
  bank0 : Bank
  bank1 : Bank
  /-- load counters of the current and of the last interval, by expert -/
  cur : List (Nat × BitVec 32)
  prev : List (Nat × BitVec 32)
  /-- registered inbox base (R261) -/
  inbox : Option Nat
  deriving DecidableEq, Repr

/-- The policy block (R255). -/
structure Policy where
  hot : Nat
  cold : Nat
  hyst : Nat
  idle : Nat
  kinds : Nat
  maxRep : Nat
  seedTable : Word
  deriving DecidableEq, Repr

/-- A replica being made (R258): expert, index, target die, kind, source and target ranges. -/
structure Copying where
  expert : Nat
  idx : Nat
  die : Nat
  weights : Bool
  vf : Nat
  src : Word
  dst : Word
  len : Nat
  /-- bytes copied so far; once all are, the settle of the target range has started -/
  at_ : Nat
  deriving DecidableEq, Repr

/-- A target range assigned to the engine (R292 command 0x12). -/
structure Target where
  die : Nat
  weights : Bool
  vf : Nat
  base : Word
  len : Nat
  /-- allocated pieces: base and length -/
  used : List (Word × Nat)
  deriving DecidableEq, Repr

/-- A store to a registered tail word, held while its slots are examined (R263). -/
structure TailStore where
  die : Nat
  /-- source die: the lane -/
  src : Nat
  /-- the bytes stored and where they lie in the word; none for an atomic that wrote nothing behind other held stores -/
  off : Nat
  bytes : List Byte
  /-- newly covered slots examined so far -/
  done : Nat
  writer : Option Nat
  /-- die and number of the write -/
  num : Option (Nat × BitVec 16)
  /-- the inbox die and lane whose examination posted it: that tail waits for it (R263) -/
  post : Option (Nat × Nat)
  deriving DecidableEq, Repr

/-- The placement engine. -/
structure Placement where
  tables : Vector DieTable 8
  policy : Option Policy
  /-- the policy of the next interval (R255) -/
  nextPolicy : Option Policy
  targets : List Target
  copying : List Copying
  /-- hot and cold intervals in a row, by expert (R256) -/
  streaks : List (Nat × Nat × Nat)
  /-- dies passed over after a failed copy: expert, die, intervals left (R363) -/
  passed : List (Nat × Nat × Nat)
  /-- changes waiting for the next publication: expert × 8 + index and the new entry; new expert count -/
  pending : List (Nat × Replica)
  pendingX : Nat
  /-- a publication under way (R257): the writes made so far, 0 to 15, and the new bank -/
  publishing : Option (Nat × Bank)
  /-- draining entries and the `time` at which their version was published (R259): expert × 8 + index -/
  draining : List (Nat × Nat)
  /-- tail stores held for examination, in order -/
  tails : List TailStore
  /-- counters that have reported saturation this interval: die × 8,192 + expert -/
  saturated : List Nat
  /-- intervals completed (R256) -/
  interval : Nat
  /-- admitted hart-nanoseconds of this interval by die, and the `time` up to which it began -/
  occ : List (Nat × Nat)
  occSince : Nat
  deriving DecidableEq, Repr

/-! ## Host port, power, monitors (R284 to R299, R340, R367 to R378) -/

/-- A virtual function (R290). -/
structure Vf where
  en : Bool
  root : Nat
  tkey : Nat
  deriving DecidableEq, Repr

/-- A key slot: the key bytes as written, and the key that LOAD installed (R290). -/
structure KeySlot where
  key : BitVec 512
  loaded : Option (BitVec 512)
  deriving DecidableEq, Repr

/-- A monitor (R299, R378). -/
structure Monitor where
  ctl : Word
  min : Word
  max : Word
  count : Word
  sum : Word
  bins : Vector Word 16
  thresh : Word
  fired : Bool
  aen : Bool
  deriving DecidableEq, Repr

/-- The error registers of a die (R340). -/
structure ErrRegs where
  cecnt : Word
  uecnt : Word
  uev : Bool
  uelvl : Nat
  uepa : Nat
  deriving DecidableEq, Repr

/-- STATE of R291 and what lies beyond it (R369, R375, R376). -/
inductive Power where
  | run | entering | shuttered | leaving | reduced | leavingReduced | off | failed
  deriving DecidableEq, Repr

/-- The host port and the control registers. -/
structure HostPort where
  vfs : Vector Vf 64
  keys : Vector KeySlot 64
  /-- the shootdown register at offset 0x00, GO in bit 0 -/
  shoot : Word
  jbase : Nat
  hcbase : Nat
  hctail : Nat
  hchead : Nat
  linkUp : Bool
  /-- MSI-X vectors raised since the link last trained: VF numbers, 64 for the PF -/
  msix : List Nat
  monitors : List (Nat × Monitor)
  errs : Vector ErrRegs 8
  /-- fuses and firmware (R298): rollback counter, digest of the signing key, running version and digest -/
  rollback : Nat
  fuseKey : BitVec 512
  fwVersion : Nat
  fwDigest : BitVec 512
  /-- the last SPDM measurement answered, and its signature -/
  spdm : BitVec 512
  spdmSig : BitVec 1056
  /-- data of the last host read, of memory, of a register or of configuration space, and whether it carried poison -/
  hostData : List Byte
  hostPoison : Bool
  /-- lines the host must answer for: a back-invalidation is out -/
  snoops : List Nat
  /-- an uncorrectable internal error has been signalled through AER -/
  aer : Bool
  /-- the command at HCHEAD has started, and the frames that it settles (R292) -/
  hcBusy : Option (List Nat)
  /-- the brown-out pin, and the `time` at which it was last deasserted -/
  pin : Bool
  pinAt : Nat
  power : Power
  /-- the module went to Shuttered by command with the pin deasserted: it leaves when the host retrains the link (R296) -/
  exitOnLink : Bool
  /-- what the host has learned by its reads and writes of device memory (R224) -/
  clk : Clock
  /-- an exit has written its entry, and no hart has resumed yet (R296, R297) -/
  exiting : Bool
  /-- islands that have gated (R293, R294): those of each die, and those of the module -/
  gated : Vector (BitVec 18) 8
  gatedModule : BitVec 16
  deriving DecidableEq, Repr

/-! ## The machine -/

/-- One move of the environment: an event of the opcode table, one step of a hart's scalar stream or of its vector stream, or a choice that
the manual leaves to the device. (DESIGN CHOICE, log 3) -/
inductive Move where
  | event (i : Instr)
  | scalar (h : Nat)
  | vector (h : Nat)
  /-- another strip of the `indep` block of a hart runs next (R21) -/
  | strip (h k : Nat)
  /-- a hart reads n bytes ahead of the load that will use them, for its vector stream or its scalar stream (R217, R218) -/
  | early (h : Nat) (va : Word) (n : Nat) (vec : Bool)
  /-- the temperature band and the age of a die change (R209) -/
  | climate (die : Nat) (c : Climate)
  /-- a settle under way writes word i of a line, or the macro of a weight line (R191, R205) -/
  | settleWord (frame line i : Nat)
  /-- ECC corrects an error on a die (R340) -/
  | corrected (die : Nat)
  /-- an uncorrectable error arises in a line, where its newest copy lies, or in a scratchpad word (R337, R338) -/
  | lineError (line : Nat)
  | scratchError (word : Nat)
  /-- an uncorrectable error arises in a vector register of a hart (R338) -/
  | registerError (h : Nat)
  /-- the vector walk of a hart stops before record r (R316, R317) -/
  | walkStop (h r : Nat)
  /-- idle islands of a die, and of the module, gate (R293) -/
  | gate (die : Nat)
  /-- the host reads registers through the BAR of a function, or configuration space (R284, R289) -/
  | barRead (fn off n : Nat)
  | configRead (fn off n : Nat)
  deriving DecidableEq, Repr

/-- The state of the module. -/
structure State where
  /-- the hart in focus: the one whose streams step next -/
  hart : Hart
  /-- every other hart slot that is in use or owned -/
  others : List Hart
  /-- the settled image: the arrays -/
  cells : Memory
  /-- the scratchpads, by ((die × 96 + core) × 32 + lane) × 8,192 + offset -/
  scratch : Memory
  /-- settle counts by frame PA[47:18]; a frame without an entry has count 0 (R189) -/
  counts : List (Nat × BitVec 32)
  img : Images
  bank : InPlace
  fab : Fabric
  disp : Dispatch
  place : Placement
  host : HostPort
  /-- `time` in nanoseconds and `cycle` (R50) -/
  time : Word
  cycle : Word
  /-- how many free values have been drawn (the model's own field) -/
  fresh : Nat
  /-- how many steps have been taken (the model's own field) -/
  rounds : Nat
  /-- the moves chosen by the environment, the next one first (the model's own field) -/
  inputs : List Move
  /-- background steps that have been started and will be taken (the model's own field) -/
  work : List Instr
  deriving DecidableEq, Repr

/-! ## Reset -/

/-- `status` at entry: SV set, all else 0 (R301). -/
def Status.reset : Status :=
  { sv := true, psv := false, vs := false, blk := false, spl := false, xf := false, walk := false }

/-- A clock of zeros. -/
def Clock.zero : Clock := Vector.replicate 8 0#16

/-- The state registers at a hart's entry (R28, R50). (DEDUCED, log 33) -/
def SRegs.reset : SRegs :=
  { vl := 0, vgrp := .g1, sew := .w64, sb := 0, estart := 0, xstop := 0, vown := 0, mgrant := 0, mmode := false, seed := 0,
    stag := 0, cause := 0, epc := 0, tval := 0, status := .reset, tvec := 0, kexit := 0, savep := 0, saveidx := 0,
    vclk := Clock.zero, nbdet := false }

/-- Vector state of zeros (R28). -/
def VecState.zero : VecState :=
  { v := Vector.replicate 32 0, m := Vector.replicate 8 0, vq := Vector.replicate 8 0, blo := 0, bhi := 0 }

/-- A detached tile; the scale latches at 127 (R177). -/
def Tile.reset : Tile :=
  { z := Vector.replicate 256 0, sr := BitVec.ofNat 2048 ((2 ^ 2048 - 1) / 255 * 127),
    sc := BitVec.ofNat 1024 ((2 ^ 1024 - 1) / 255 * 127), svl := 0, sgrp := .g1, ssew := .w64 }

/-- A stream on which nothing was issued. -/
def Stream.reset : Stream := { avail := 0, fin := 0, xfer := none }

/-- The identity of a hart slot without a hart. -/
def Ident.free (did hid : Nat) : Ident :=
  { did := did, hid := hid, gid := 0, gsize := 1, gidx := 0, cap := 8, tenant := 0, vf := 0, rows := 0, fused := false }

/-- A hart slot in which no hart is admitted. (DESIGN CHOICE, log 7) -/
def Hart.free (did hid : Nat) : Hart :=
  { id := .free did hid, phase := .free, pc := 0, x := Vector.replicate 32 0, sr := .reset, vec := .zero, tile := .reset,
    queue := [], ctx := none, held := none, aside := none, streams := Vector.replicate 8 .reset, wait := .none, seq := 0,
    vsBound := 0, svBound := none, svNum := 0, watch := none, watchHit := false, idleAt := 0, walkStop := none, ibuf := [], nbSeq := 0,
    availSlots := 0,
    early := [], vknown := Clock.zero, turns := 0 }

/-- An empty version of the table. -/
def Bank.empty : Bank := { version := 0, experts := 0, seedTable := 0, entries := [] }

/-- The table copy at module reset (R250). -/
def DieTable.reset : DieTable :=
  { version := 0, grace := 0, redirect := 0, bank0 := .empty, bank1 := .empty, cur := [], prev := [], inbox := none }

/-- The error registers at reset (R340). -/
def ErrRegs.reset : ErrRegs := { cecnt := 0, uecnt := 0, uev := false, uelvl := 0, uepa := 0 }

/-- A monitor at reset (R299, R378). -/
def Monitor.reset : Monitor :=
  { ctl := 0, min := BitVec.allOnes 64, max := 0, count := 0, sum := 0, bins := Vector.replicate 16 0,
    thresh := BitVec.allOnes 64, fired := false, aen := false }

/-- The fabric at reset: every die alive, every clock 0, generation 0 (R244). -/
def Fabric.reset : Fabric :=
  { dies := Vector.replicate 8 { alive := true, clock := Clock.zero, covered := Clock.zero, echo := Clock.zero, gen := 0 },
    chans := [], tag := 0, sc := Clock.zero, failing := [] }

/-- The dispatchers at reset: every queue unbound, every slot free, no record armed. -/
def Dispatch.reset : Dispatch :=
  { queues := [], slots := [], pool := [], launches := [], gangs := [], nextId := 0, last := [], staged := [], jhead := 0 }

/-- The placement engine at reset (R250). -/
def Placement.reset : Placement :=
  { tables := Vector.replicate 8 .reset, policy := none, nextPolicy := none, targets := [], copying := [], streaks := [],
    passed := [], pending := [], pendingX := 0, publishing := none, draining := [], tails := [], saturated := [], interval := 0,
    occ := [], occSince := 0 }

/-- The host port at reset (R290, R291). (DESIGN CHOICE, log 8) -/
def HostPort.reset : HostPort :=
  { vfs := Vector.replicate 64 { en := false, root := 0, tkey := 0 },
    keys := Vector.replicate 64 { key := 0, loaded := none }, shoot := 0, jbase := 0, hcbase := 0, hctail := 0, hchead := 0,
    linkUp := true, msix := [], monitors := [], errs := Vector.replicate 8 .reset, rollback := 0, fuseKey := 0,
    fwVersion := 0, fwDigest := 0, spdm := 0, spdmSig := 0, hostData := [], hostPoison := false, snoops := [], aer := false, hcBusy := none, pin := false, pinAt := 0,
    power := .run, exitOnLink := false, clk := Clock.zero, exiting := false, gated := Vector.replicate 8 0, gatedModule := 0 }

/-- The in-place engines at reset. (DESIGN CHOICE, log 14) -/
def InPlace.reset : InPlace :=
  { reqs := [], bfail := [], bred := [], xmerge := [], macros := [], climate := Vector.replicate 8 { band := 0, age := 0 } }

/-- The caches at reset. -/
def Images.reset : Images :=
  { cache := [], poison := [], settling := [], tlb := [], hostOrder := [], badFrames := [], spPoison := [], weightsLost := false,
    weightsBack := [], keys := [] }

/-- The module right after reset: no hart admitted, nothing in memory, every register at the value its table gives. (DEDUCED, log 1) (DESIGN CHOICE, log 10) -/
def State.reset : State :=
  { hart := .free 0 0, others := [], cells := [], scratch := [], counts := [], img := .reset, bank := .reset, fab := .reset,
    disp := .reset, place := .reset, host := .reset, time := 0, cycle := 0, fresh := 0, rounds := 0, inputs := [], work := [] }

end Sys2Proof.Machine
end

