-- ==== Sys2Proof/Machine/Update.lean ====
section
/-!
DEFINITION. The primitive updates of the state, the runs that are made of them, and the monad in which the meanings are
written. Everything a step does is a sequence of these updates, and a `Run` carries that fact, so that whatever every
update keeps, every step keeps.
-/

namespace Sys2Proof.Machine

/-! ## Sparse data -/

/-- The byte of a sparse memory at an address; an unlisted byte is 0. (DESIGN CHOICE, log 6) -/
def Memory.read : Memory → Nat → Byte
  | [], _ => 0
  | (a, b) :: m, k => if k = a then b else Memory.read m k

/-- Write one byte and keep the canonical form. -/
def Memory.write : Memory → Nat → Byte → Memory
  | [], k, v => if v = 0 then [] else [(k, v)]
  | (a, b) :: m, k, v =>
    if k < a then (if v = 0 then (a, b) :: m else (k, v) :: (a, b) :: m)
    else if k = a then (if v = 0 then m else (a, v) :: m)
    else (a, b) :: Memory.write m k v

/-- Write consecutive bytes, the first at the lowest address. -/
def Memory.writes : Memory → Nat → List Byte → Memory
  | m, _, [] => m
  | m, k, v :: vs => Memory.writes (Memory.write m k v) (k + 1) vs

/-- Read n consecutive bytes. -/
def Memory.reads (m : Memory) (k n : Nat) : List Byte := (List.range n).map fun i => m.read (k + i)

/-- The entry of a key in an association list. -/
def aget {α : Type} : List (Nat × α) → Nat → Option α
  | [], _ => none
  | (a, b) :: l, k => if k = a then some b else aget l k

/-- Put an entry into an association list kept in rising order of its keys. -/
def aput {α : Type} : List (Nat × α) → Nat → α → List (Nat × α)
  | [], k, v => [(k, v)]
  | (a, b) :: l, k, v =>
    if k < a then (k, v) :: (a, b) :: l else if k = a then (a, v) :: l else (a, b) :: aput l k v

/-- Drop the entry of a key. -/
def adel {α : Type} (l : List (Nat × α)) (k : Nat) : List (Nat × α) := l.filter fun p => p.1 ≠ k

/-! ## Harts in the state -/

/-- The key of a hart slot: 384 × die + `hid`. -/
def Hart.key (h : Hart) : Nat := 384 * h.id.did + h.id.hid

/-- s0 held at zero (R7 register families, R84). -/
def zeroFirst (x : Vector Word 32) : Vector Word 32 := x.set 0 0

/-- The harts apart from the one in focus, with one of them replaced or added. -/
def putHart : List Hart → Hart → List Hart
  | [], h => [h]
  | g :: gs, h => if g.key = h.key then h :: gs else g :: putHart gs h

/-- The hart of a key among a list. -/
def findHart : List Hart → Nat → Option Hart
  | [], _ => none
  | g :: gs, k => if g.key = k then some g else findHart gs k

/-! ## Primitive updates -/

/-- One primitive update of the state. -/
inductive Upd where
  /-- write a scalar register; a write to s0 is discarded (R84) -/
  | reg (d : Reg) (v : Word)
  | pc (v : Word)
  /-- replace the hart in focus but for its scalar registers -/
  | hart (h : Hart)
  /-- bring the hart of a key into focus -/
  | focus (key : Nat)
  /-- put a hart into its slot, in focus or not; s0 is held at 0 -/
  | place (h : Hart)
  /-- write consecutive bytes of the arrays -/
  | cells (pa : Nat) (bs : List Byte)
  /-- write consecutive bytes of a scratchpad -/
  | scratch (a : Nat) (bs : List Byte)
  | counts (c : List (Nat × BitVec 32))
  | img (m : Images)
  | bank (b : InPlace)
  | fab (f : Fabric)
  | disp (d : Dispatch)
  | placement (p : Placement)
  | port (p : HostPort)
  | clocks (time cycle : Word)
  | fresh (n : Nat)
  | rounds (n : Nat)
  | inputs (l : List Move)
  | work (l : List Instr)
  /-- module reset: everything at its reset value; the environment's moves and the count of free values drawn are kept -/
  | reset
  /-- every hart slot emptied and every scratchpad zeroed (R375) -/
  | dropHarts

/-- Apply one update. -/
def Upd.apply (s : State) : Upd → State
  | .reg d v => if d = 0 then s else { s with hart := { s.hart with x := s.hart.x.set d.toNat v d.isLt } }
  | .pc v => { s with hart := { s.hart with pc := v } }
  | .hart h => { s with hart := { h with x := s.hart.x } }
  | .focus key =>
    if s.hart.key = key then s
    else match findHart s.others key with
      | none => s
      | some h => { s with hart := h, others := putHart (s.others.filter fun g => g.key ≠ key) s.hart }
  | .place h =>
    let h' := { h with x := zeroFirst h.x }
    if s.hart.key = h.key then { s with hart := h' } else { s with others := putHart s.others h' }
  | .cells pa bs => { s with cells := s.cells.writes pa bs }
  | .scratch a bs => { s with scratch := s.scratch.writes a bs }
  | .counts c => { s with counts := c }
  | .img m => { s with img := m }
  | .bank b => { s with bank := b }
  | .fab f => { s with fab := f }
  | .disp d => { s with disp := d }
  | .placement p => { s with place := p }
  | .port p => { s with host := p }
  | .clocks t c => { s with time := t, cycle := c }
  | .fresh n => { s with fresh := n }
  | .rounds n => { s with rounds := n }
  | .inputs l => { s with inputs := l }
  | .work l => { s with work := l }
  | .reset => { State.reset with inputs := s.inputs, fresh := s.fresh, rounds := s.rounds }
  | .dropHarts => { s with hart := .free 0 0, others := [], scratch := [] }

/-- `Reach s t`: t comes from s by primitive updates alone. -/
inductive Reach (s : State) : State → Prop where
  | refl : Reach s s
  | step {t : State} (u : Upd) : Reach s t → Reach s (u.apply t)

/-! ## Runs and the monad of meanings -/

/-- A state on the way of a step that began at s0. -/
structure Run (s0 : State) where
  s : State
  reach : Reach s0 s

/-- The beginning of a step. -/
def Run.start (s0 : State) : Run s0 := ⟨s0, .refl⟩

/-- One more update. -/
def Run.emit {s0 : State} (u : Upd) (r : Run s0) : Run s0 := ⟨u.apply r.s, .step u r.reach⟩

/-- The monad of meanings: a run goes through, and a trap or a stall ends the step early, in a state all the same. -/
abbrev M (s0 : State) : Type → Type := StateT (Run s0) (Except (Run s0))

namespace M

variable {s0 : State} {α : Type}

/-- The current state. -/
def st : M s0 State := fun r => .ok (r.s, r)

/-- Perform one update. -/
def emit (u : Upd) : M s0 PUnit := fun r => .ok (⟨⟩, r.emit u)

/-- End the step here, with what has been done so far. -/
def done : M s0 α := fun r => .error r

/-- End the step at the state it began from: a stall, or a step that is not enabled. -/
def stall : M s0 α := fun _ => .error (Run.start s0)

/-- Run to the state in which the step ends. -/
def run (m : M s0 PUnit) : Run s0 :=
  match m (Run.start s0) with
  | .ok (_, r) => r
  | .error r => r

/-- Run a part of a step, whatever way it ends, and go on from where it ended. -/
def attempt (m : M s0 PUnit) : M s0 Bool := fun r =>
  match m r with
  | .ok (_, r') => .ok (true, r')
  | .error r' => .ok (false, r')

/-- What a part of a step would give, with nothing done: none when it ends early. -/
def peek (m : M s0 α) : M s0 (Option α) := fun r =>
  match m r with
  | .ok (a, _) => .ok (some a, r)
  | .error _ => .ok (none, r)

/-- The state that a part of a step would reach, whatever way it ends, with nothing done. -/
def explore (m : M s0 α) : M s0 State := fun r =>
  match m r with
  | .ok (_, r') => .ok (r'.s, r)
  | .error r' => .ok (r'.s, r)

/-- Perform a part of a step whole: where it has to wait, only the background steps that it asks for are started. -/
def whole (m : M s0 α) : M s0 α := do
  match ← peek m with
  | some _ => m
  | none =>
    let t ← explore m
    emit (.work t.work)
    done

/-- Perform an action for each member of a list, in order. -/
def each {β : Type} : List β → (β → M s0 PUnit) → M s0 PUnit
  | [], _ => pure ⟨⟩
  | b :: bs, f => do f b; each bs f

/-- Map an action over a list, in order. -/
def collect {β γ : Type} : List β → (β → M s0 γ) → M s0 (List γ)
  | [], _ => pure []
  | b :: bs, f => do let c ← f b; let cs ← collect bs f; pure (c :: cs)

/-- The first member of a list for which an action answers a value. -/
def firstSome {β γ : Type} : List β → (β → M s0 (Option γ)) → M s0 (Option γ)
  | [], _ => pure none
  | b :: bs, f => do
    match ← f b with
    | some c => pure (some c)
    | none => firstSome bs f

/-- Stutter unless a condition holds. -/
def need (p : Bool) : M s0 PUnit := if p then pure ⟨⟩ else stall

end M

/-- The outcome of an instruction whose meaning is m. -/
def exec1 (s : State) (m : M s PUnit) : Host.Outcome State Fault Refusal := .next m.run.s

end Sys2Proof.Machine
end

