-- ==== Sys2Proof/Machine/Bits.lean ====
section
/-!
DEFINITION. Bit, byte and list helpers: byte order, sign extension, the trees and the counter-based generator of
05_numbers, clocks compared modulo 2^16, and cached lines by byte.
-/

namespace Sys2Proof.Machine

/-! ## Bytes (R1) -/

/-- The n low bytes of a value, the least significant first. -/
def toBytes : Nat → Nat → List Byte
  | 0, _ => []
  | n + 1, v => BitVec.ofNat 8 v :: toBytes n (v / 256)

/-- The value of bytes, the least significant first. -/
def ofBytes : List Byte → Nat
  | [] => 0
  | b :: bs => b.toNat + 256 * ofBytes bs

/-- Sign extension of the w-bit value v to 64 bits. -/
def sext64 (v w : Nat) : Word := (BitVec.ofNat w v).signExtend 64

/-- The signed value of a w-bit pattern. -/
def toSigned (w v : Nat) : Int := (BitVec.ofNat w v).toInt

/-- The w-bit pattern of an integer, modulo 2^w. -/
def wrapInt (w : Nat) (i : Int) : Nat := (BitVec.ofInt w i).toNat

/-- Bits hi..lo of a value. -/
def bits (v hi lo : Nat) : Nat := v / 2 ^ lo % 2 ^ (hi + 1 - lo)

/-- Bit i of a value. -/
def bitAt (v i : Nat) : Bool := v / 2 ^ i % 2 = 1

/-- The least i with p i below n. -/
def firstBelow (n : Nat) (p : Nat → Bool) : Option Nat := (List.range n).find? p

/-- Integers a to a + n − 1. -/
def rangeFrom (a n : Nat) : List Nat := (List.range n).map (a + ·)

/-- Ceiling division. -/
def ceilDiv (a b : Nat) : Nat := (a + b - 1) / b

/-- Floor of the base-2 logarithm, 0 for 0. -/
def log2 (n : Nat) : Nat := Nat.log2 n

/-- A value at index i of a list, or d. -/
def nth {α : Type} (l : List α) (i : Nat) (d : α) : α := l.getD i d

/-! ## Widths -/

/-- Registers of a grouping. -/
def Grp.n : Grp → Nat
  | .g1 => 1
  | .g2 => 2
  | .g4 => 4
  | .g8 => 8

/-- Bits of an element width. -/
def Sew.bits : Sew → Nat
  | .w8 => 8
  | .w16 => 16
  | .w32 => 32
  | .w64 => 64

/-- The grouping of a number of R50, none outside the set. -/
def grpOfNat : Nat → Option Grp
  | 1 => some .g1
  | 2 => some .g2
  | 4 => some .g4
  | 8 => some .g8
  | _ => none

/-- The element width of a number of R50, none outside the set. -/
def sewOfNat : Nat → Option Sew
  | 8 => some .w8
  | 16 => some .w16
  | 32 => some .w32
  | 64 => some .w64
  | _ => none

/-- The grouping of an encoded field (R36). -/
def grpOfField (b : BitVec 2) : Grp :=
  if b = 0#2 then .g1 else if b = 1#2 then .g2 else if b = 2#2 then .g4 else .g8

/-- The element width of an encoded field (R36). -/
def sewOfField (b : BitVec 2) : Sew :=
  if b = 0#2 then .w8 else if b = 1#2 then .w16 else if b = 2#2 then .w32 else .w64

/-- The largest length of a grant (R17). -/
def vlmax (sew : Sew) (grp : Grp) (cap : Nat) : Nat := 1024 * min grp.n cap / (sew.bits / 8)

/-! ## The generator (R80) -/

/-- The counter-based hash: 32 bits. -/
def chash (seed ctr : Word) : BitVec 32 :=
  let x := ctr ^^^ seed
  let x := x * 0x8F3C2B6D11E5A9C7#64
  let x := x ^^^ (x >>> 29)
  let x := x + seed.rotateLeft 23
  let x := x * 0xC2D47A19E06B35F5#64
  let x := x ^^^ (x >>> 32)
  let x := x * 0x3B910E87D4A65C2B#64
  let x := x ^^^ (x >>> 29)
  x.extractLsb' 32 32

/-- The counter of an element (R81): tag and generator index modulo 2^48. -/
def genCtr (tag : BitVec 16) (index : Nat) : Word := tag ++ BitVec.ofNat 48 index

/-! ## The pairwise tree (R83) -/

/-- One level of the tree: neighbours are joined, an odd leftover is carried up. -/
def treeLevel {α : Type} (f : α → α → α) : List α → List α
  | a :: b :: l => f a b :: treeLevel f l
  | l => l

/-- The tree over a list of at most 2^fuel values. -/
def treeFuel {α : Type} (f : α → α → α) (z : α) : Nat → List α → α
  | _, [] => z
  | _, [a] => a
  | 0, a :: _ => a
  | n + 1, l => treeFuel f z n (treeLevel f l)

/-- `tree_sum` of R83 with any operation; z is the answer for no value. -/
def tree {α : Type} (f : α → α → α) (z : α) (l : List α) : α := treeFuel f z (log2 l.length + 1) l

/-! ## Clocks (R239) -/

/-- a ≥ b modulo 2^16. -/
def geClk (a b : BitVec 16) : Bool := (a - b).toNat < 2 ^ 15

/-- The larger of two entries. -/
def maxClk (a b : BitVec 16) : BitVec 16 := if geClk a b then a else b

/-- The entry of a die. -/
def clkAt (c : Clock) (d : Nat) : BitVec 16 := c.toList.getD d 0

/-- A clock with one entry replaced. -/
def clkPut (c : Clock) (d : Nat) (v : BitVec 16) : Clock := c.setIfInBounds d v

/-- Merge two clocks entry by entry. -/
def clkMerge (a b : Clock) : Clock := Vector.zipWith maxClk a b

/-- Every entry of `need` but the skipped ones is met by `have_`. -/
def clkMeets (have_ need : Clock) (skip : Nat → Bool) : Bool :=
  (List.range 8).all fun s => skip s || geClk (clkAt have_ s) (clkAt need s)

/-- A clock as 128 bits: entry s in bits 16s + 15 : 16s (R237). -/
def clkNat (c : Clock) : Nat := c.toList.foldr (fun e n => e.toNat + 65536 * n) 0

/-! ## Lines -/

/-- Byte i of a 64-byte line. -/
def Line.byte (l : Line) (i : Nat) : Byte := l.data.extractLsb' (8 * i) 8

/-- 512 bits from 64 bytes. -/
def lineOfBytes (bs : List Byte) : BitVec 512 := BitVec.ofNat 512 (ofBytes bs)

/-- The 64 bytes of 512 bits. -/
def bytesOfLine (d : BitVec 512) : List Byte := toBytes 64 d.toNat

/-- Merge bytes at an offset of a line into it and mark them dirty. -/
def Line.merge (l : Line) (off : Nat) (bs : List Byte) : Line :=
  let old := bytesOfLine l.data
  let new := old.take off ++ bs ++ old.drop (off + bs.length)
  { l with data := lineOfBytes new, dirty := l.dirty ||| BitVec.ofNat 64 ((2 ^ bs.length - 1) * 2 ^ off) }

/-- The line of an address in a cache. -/
def findLine : List Line → Nat → Option Line
  | [], _ => none
  | l :: ls, a => if l.addr = a then some l else findLine ls a

/-- Put a line into a cache kept in rising order of addresses. -/
def putLine : List Line → Line → List Line
  | [], l => [l]
  | k :: ks, l => if l.addr < k.addr then l :: k :: ks else if l.addr = k.addr then l :: ks else k :: putLine ks l

/-- Drop a line. -/
def delLine (ls : List Line) (a : Nat) : List Line := ls.filter fun l => l.addr ≠ a

/-- Insert into a rising list of numbers without repeats. -/
def insertNat : List Nat → Nat → List Nat
  | [], a => [a]
  | b :: l, a => if a < b then a :: b :: l else if a = b then b :: l else b :: insertNat l a

/-- Bytes of an address range, cut at the 64-byte lines: line, offset, bytes. -/
def cutLines (pa : Nat) (bs : List Byte) : List (Nat × Nat × List Byte) :=
  if bs.isEmpty then [] else
  (rangeFrom (pa / 64) ((pa + bs.length - 1) / 64 + 1 - pa / 64)).map fun la =>
    let lo := max pa (64 * la)
    let hi := min (pa + bs.length) (64 * la + 64)
    (la, lo - 64 * la, (bs.drop (lo - pa)).take (hi - lo))

/-! ## Queues -/

/-- Drop the first member that a test accepts. -/
def dropFirst {α : Type} (p : α → Bool) : List α → List α
  | [] => []
  | a :: l => if p a then l else a :: dropFirst p l

/-- Replace the first member that a test accepts. -/
def changeFirst {α : Type} (p : α → Bool) (f : α → α) : List α → List α
  | [] => []
  | a :: l => if p a then f a :: l else a :: changeFirst p f l

end Sys2Proof.Machine
end

