-- ==== Sys2Proof/Machine/Float.lean ====
section
/-!
DEFINITION. Floating-point formats and arithmetic (R66 to R75, R83): a finite value is a sign, a natural magnitude and a power
of two; every operation forms its exact result, or the exact result up to a fraction of one unit far below the rounding
position with a sticky mark, and one function rounds it to the destination.
-/

namespace Sys2Proof.Machine

/-! ## Formats (R66) -/

/-- How the top exponent is used. -/
inductive FmtKind where
  /-- infinities and NaNs -/
  | ieee
  /-- no infinity; one NaN encoding per sign -/
  | e4m3
  /-- neither -/
  | fp4
  deriving DecidableEq, Repr

/-- A floating format. -/
structure Fmt where
  ebits : Nat
  fbits : Nat
  bias : Nat
  kind : FmtKind
  deriving DecidableEq, Repr

/-- binary64 -/
def fmtF64 : Fmt := { ebits := 11, fbits := 52, bias := 1023, kind := .ieee }
/-- binary32 -/
def fmtF32 : Fmt := { ebits := 8, fbits := 23, bias := 127, kind := .ieee }
/-- binary16 -/
def fmtF16 : Fmt := { ebits := 5, fbits := 10, bias := 15, kind := .ieee }
/-- bfloat16 -/
def fmtBf16 : Fmt := { ebits := 8, fbits := 7, bias := 127, kind := .ieee }
/-- E5M2 -/
def fmtE5m2 : Fmt := { ebits := 5, fbits := 2, bias := 15, kind := .ieee }
/-- E4M3 -/
def fmtE4m3 : Fmt := { ebits := 4, fbits := 3, bias := 7, kind := .e4m3 }
/-- E2M1 -/
def fmtFp4 : Fmt := { ebits := 2, fbits := 1, bias := 1, kind := .fp4 }

/-- The format of a floating type code (R42). -/
def fmtOf (ty : BitVec 4) : Fmt :=
  if ty = 8 then fmtBf16 else if ty = 9 then fmtF16 else if ty = 10 then fmtF32 else if ty = 11 then fmtF64
  else if ty = 12 then fmtE4m3 else if ty = 13 then fmtE5m2 else fmtFp4

/-- Bits of a value of the format. -/
def Fmt.width (f : Fmt) : Nat := 1 + f.ebits + f.fbits

/-- The canonical NaN (R68); fp4 has none and gives +0 (R72). -/
def Fmt.nan (f : Fmt) : Nat :=
  match f.kind with
  | .ieee => (2 ^ f.ebits - 1) * 2 ^ f.fbits + 2 ^ (f.fbits - 1)
  | .e4m3 => 0x7F
  | .fp4 => 0

/-- The encoding of the largest finite value, without its sign. -/
def Fmt.maxFinite (f : Fmt) : Nat :=
  match f.kind with
  | .ieee => (2 ^ f.ebits - 1) * 2 ^ f.fbits - 1
  | .e4m3 => 0x7E
  | .fp4 => 7

/-- The encoding of infinity, without its sign. -/
def Fmt.inf (f : Fmt) : Nat := (2 ^ f.ebits - 1) * 2 ^ f.fbits

/-- The sign bit. -/
def Fmt.sign (f : Fmt) (s : Bool) : Nat := if s then 2 ^ (f.ebits + f.fbits) else 0

/-! ## Values -/

/-- A value read from a register: (−1)^s × m × 2^e. -/
inductive FVal where
  | nan
  | inf (s : Bool)
  | fin (s : Bool) (m : Nat) (e : Int)
  deriving DecidableEq, Repr

/-- Read an encoding. -/
def Fmt.decode (f : Fmt) (b : Nat) : FVal :=
  let s := bitAt b (f.ebits + f.fbits)
  let e := bits b (f.ebits + f.fbits - 1) f.fbits
  let m := b % 2 ^ f.fbits
  let special := e = 2 ^ f.ebits - 1
  if f.kind = .ieee && special then (if m = 0 then .inf s else .nan)
  else if f.kind = .e4m3 && special && m = 2 ^ f.fbits - 1 then .nan
  else if e = 0 then .fin s m (1 - f.bias - f.fbits)
  else .fin s (m + 2 ^ f.fbits) ((e : Int) - f.bias - f.fbits)

/-- A result before rounding: NaN, infinity, or a magnitude in [m, m + 1) × 2^e, exact without the sticky mark. -/
inductive FRes where
  | nan
  | inf (s : Bool)
  | num (s : Bool) (m : Nat) (e : Int) (sticky : Bool)
  deriving DecidableEq, Repr

/-- A value is a result. -/
def FVal.res : FVal → FRes
  | .nan => .nan
  | .inf s => .inf s
  | .fin s m e => .num s m e false

/-! ## Rounding (R70 to R72) -/

/-- How a result is rounded: the mode of R43, `sat`, `zero`, the count k of R71 (none: every discarded bit, at most 32)
and the 32 random bits. -/
structure Rnd where
  mode : Nat
  sat : Bool
  zero : Bool
  k : Option Nat
  rho : Nat
  deriving DecidableEq, Repr

/-- Round to nearest even, no saturation. -/
def Rnd.rne : Rnd := { mode := 0, sat := false, zero := false, k := none, rho := 0 }

/-- Whether the kept magnitude goes up: the sign, the kept part, the discarded part of sh bits and its sticky mark. -/
def Rnd.up (r : Rnd) (s : Bool) (kept rem sh : Nat) (sticky : Bool) : Bool :=
  let inexact := rem ≠ 0 || sticky
  if r.mode = 0 then
    let h := 2 ^ sh
    2 * rem > h || (2 * rem = h && sh > 0 && (sticky || kept % 2 = 1))
  else if r.mode = 1 then false
  else if r.mode = 2 then s && inexact
  else if r.mode = 3 then !s && inexact
  else
    let k := r.k.getD (min sh 32)
    let d := if sh ≥ k then rem / 2 ^ (sh - k) else rem * 2 ^ (k - sh)
    d + r.rho % 2 ^ k ≥ 2 ^ k

/-- m × 2^e, cut at the position q: kept part, discarded part and its length. -/
def cutAt (m : Nat) (e q : Int) : Nat × Nat × Nat :=
  if e ≥ q then (m * 2 ^ (e - q).toNat, 0, 0)
  else
    let sh := (q - e).toNat
    (m / 2 ^ sh, m % 2 ^ sh, sh)

/-- The NaN that is written (R72). -/
def Fmt.writeNan (f : Fmt) (r : Rnd) : Nat := if r.zero then 0 else f.nan

/-- What is written for an infinite value (R72): an infinity stays one under `sat` too, the quotient of a finite value by zero among them,
which is a division by zero and no overflow. (DEDUCED, log 103) -/
def Fmt.writeInf (f : Fmt) (r : Rnd) (s : Bool) : Nat :=
  match f.kind with
  | .ieee => f.sign s + f.inf
  | .e4m3 => if r.sat then f.sign s + f.maxFinite else f.writeNan r
  | .fp4 => f.sign s + f.maxFinite

/-- What is written for an overflow (R70, R72). -/
def Fmt.overflow (f : Fmt) (r : Rnd) (s : Bool) : Nat :=
  match f.kind with
  | .ieee =>
    if r.sat || r.mode = 1 || (r.mode = 2 && !s) || (r.mode = 3 && s) then f.sign s + f.maxFinite
    else f.sign s + f.inf
  | .e4m3 => if r.sat then f.sign s + f.maxFinite else f.writeNan r
  | .fp4 => f.sign s + f.maxFinite

/-- Round a result to the format. -/
def Fmt.round (f : Fmt) (r : Rnd) : FRes → Nat
  | .nan => f.writeNan r
  | .inf s => f.writeInf r s
  | .num s m e sticky =>
    if m = 0 && !sticky then f.sign s
    else
      let qmin : Int := 1 - f.bias - f.fbits
      let q := max ((log2 m : Int) + e - f.fbits) qmin
      let (kept, rem, sh) := cutAt m e q
      let kept := if r.up s kept rem sh sticky then kept + 1 else kept
      let (kept, q) := if kept ≥ 2 ^ (f.fbits + 1) then (kept / 2, q + 1) else (kept, q)
      let code := if kept < 2 ^ f.fbits then kept else ((q - qmin).toNat + 1) * 2 ^ f.fbits + (kept - 2 ^ f.fbits)
      if code > f.maxFinite then f.overflow r s else f.sign s + code

/-! ## Exact operations -/

/-- The sign of an exact zero sum of operands of opposite sign (R71, IEEE 754-2019). -/
def Rnd.zeroSign (r : Rnd) : Bool := r.mode = 2

/-- The sum of two finite values. -/
def addFin (r : Rnd) (s1 : Bool) (m1 : Nat) (e1 : Int) (s2 : Bool) (m2 : Nat) (e2 : Int) : FRes :=
  let e := min e1 e2
  let a : Int := (if s1 then -1 else 1) * (m1 * 2 ^ (e1 - e).toNat : Nat)
  let b : Int := (if s2 then -1 else 1) * (m2 * 2 ^ (e2 - e).toNat : Nat)
  let t := a + b
  if t = 0 then (if s1 = s2 then .num s1 0 e false else .num r.zeroSign 0 e false)
  else .num (t < 0) t.natAbs e false

/-- The sum of two values. -/
def fadd (r : Rnd) : FVal → FVal → FRes
  | .nan, _ => .nan
  | _, .nan => .nan
  | .inf a, .inf b => if a = b then .inf a else .nan
  | .inf a, _ => .inf a
  | _, .inf b => .inf b
  | .fin s1 m1 e1, .fin s2 m2 e2 => addFin r s1 m1 e1 s2 m2 e2

/-- A value with its sign inverted. -/
def FVal.neg : FVal → FVal
  | .nan => .nan
  | .inf s => .inf !s
  | .fin s m e => .fin (!s) m e

/-- The exact product. -/
def fmul : FVal → FVal → FVal
  | .nan, _ => .nan
  | _, .nan => .nan
  | .inf a, .inf b => .inf (a ^^ b)
  | .inf a, .fin s m _ => if m = 0 then .nan else .inf (a ^^ s)
  | .fin s m _, .inf a => if m = 0 then .nan else .inf (a ^^ s)
  | .fin s1 m1 e1, .fin s2 m2 e2 => .fin (s1 ^^ s2) (m1 * m2) (e1 + e2)

/-- Bits computed below the leading bit of a quotient or root: enough for every format, 32 bits of R71 and a margin. -/
def extraBits : Nat := 160

/-- The quotient. -/
def fdiv : FVal → FVal → FRes
  | .nan, _ => .nan
  | _, .nan => .nan
  | .inf _, .inf _ => .nan
  | .inf a, .fin s _ _ => .inf (a ^^ s)
  | .fin s _ e, .inf a => .num (a ^^ s) 0 e false
  | .fin s1 m1 e1, .fin s2 m2 e2 =>
    let s := s1 ^^ s2
    if m2 = 0 then (if m1 = 0 then .nan else .inf s)
    else if m1 = 0 then .num s 0 e1 false
    else
      let sh := extraBits + log2 m2
      let n := m1 * 2 ^ sh
      .num s (n / m2) (e1 - e2 - sh) (n % m2 ≠ 0)

/-- Integer square root by bits: the largest r of at most the given number of bits with r² ≤ n. -/
def isqrtBits (n : Nat) : Nat → Nat → Nat
  | 0, r => r
  | i + 1, r =>
    let c := r + 2 ^ i
    isqrtBits n i (if c * c ≤ n then c else r)

/-- Integer square root. -/
def isqrt (n : Nat) : Nat := isqrtBits n (log2 n / 2 + 1) 0

/-- The square root: NaN below zero, −0 for −0. -/
def fsqrt : FVal → FRes
  | .nan => .nan
  | .inf s => if s then .nan else .inf false
  | .fin s m e =>
    if m = 0 then .num s 0 e false
    else if s then .nan
    else
      let sh := 2 * extraBits + (e % 2).toNat
      let n := m * 2 ^ sh
      let r := isqrt n
      .num false r ((e - sh) / 2) (r * r ≠ n)

/-- The reciprocal (R74). -/
def frcp : FVal → FRes
  | .fin s m e => if m = 0 then .inf s else fdiv (.fin false 1 0) (.fin s m e)
  | v => fdiv (.fin false 1 0) v

/-- The reciprocal square root (R74): both zeros as the reciprocal, NaN below zero, +0 for +∞. -/
def frsq : FVal → FRes
  | .nan => .nan
  | .inf s => if s then .nan else .num false 0 0 false
  | .fin s m e =>
    if m = 0 then .inf s
    else if s then .nan
    else
      let (m, e) := if e % 2 = 0 then (m, e) else (2 * m, e - 1)
      let k := extraBits + log2 m
      let r := isqrt (2 ^ (2 * k) / m)
      .num false r (-(e / 2) - k) (r * r * m ≠ 2 ^ (2 * k))

/-! ## Powers and logarithms, in fixed point with 320 fraction bits of which 288 are kept (R74) -/

/-- Fraction bits of the working precision. -/
def fixBits : Nat := 320
/-- Fraction bits that are kept. -/
def keptBits : Nat := 288

/-- Terms r^(2i+1)/(2i+1) of atanh, from the odd number j on; p is the running power. -/
def atanhTerms (r2 : Nat) : Nat → Nat → Nat → Nat
  | 0, _, _ => 0
  | n + 1, p, j => p / j + atanhTerms r2 n (p * r2 / 2 ^ fixBits) (j + 2)

/-- ln (a / b) in fixed point, for 1 ≤ a / b ≤ 2. -/
def lnFix (a b : Nat) : Nat :=
  let r := (a - b) * 2 ^ fixBits / (a + b)
  2 * atanhTerms (r * r / 2 ^ fixBits) 110 r 1

/-- ln 2 in fixed point. -/
def ln2Fix : Nat := lnFix 2 1

/-- Terms y^i/i! of the exponential from term i on; t is the running term. -/
def expTerms (y : Nat) : Nat → Nat → Nat → Nat
  | 0, _, _ => 0
  | n + 1, t, i => t + expTerms y n (t * y / 2 ^ fixBits / i) (i + 1)

/-- 2^x. (DEDUCED, log 12) -/
def fexp2 : FVal → FRes
  | .nan => .nan
  | .inf s => if s then .num false 0 0 false else .inf false
  | .fin s m e =>
    if m = 0 then .num false 1 0 false
    else if (log2 m : Int) + e ≥ 12 then (if s then .num false 1 (-8192) false else .num false 1 8192 false)
    else
      let x : Int := (if s then -1 else 1) * (m : Int)
      -- floor and fraction of x × 2^e
      let n : Int := if e ≥ 0 then x * 2 ^ e.toNat else x / 2 ^ (-e).toNat
      let d : Nat := if e ≥ 0 then 0 else (x % 2 ^ (-e).toNat).toNat
      if d = 0 then .num false 1 n false
      else
        let f := d * 2 ^ fixBits / 2 ^ (-e).toNat
        let v := expTerms (f * ln2Fix / 2 ^ fixBits) 90 (2 ^ fixBits) 1
        .num false (v / 2 ^ (fixBits - keptBits)) (n - keptBits) true

/-- log2 x: −∞ for both zeros, NaN below zero (R74). -/
def flog2 : FVal → FRes
  | .nan => .nan
  | .inf s => if s then .nan else .inf false
  | .fin s m e =>
    if m = 0 then .inf true
    else if s then .nan
    else
      let l := log2 m
      let n : Int := (l : Int) + e
      if m = 2 ^ l then .num (n < 0) n.natAbs 0 false
      else
        let frac := lnFix m (2 ^ l) * 2 ^ fixBits / ln2Fix / 2 ^ (fixBits - keptBits)
        let v : Int := n * 2 ^ keptBits + frac
        if v ≥ 0 then .num false v.natAbs (-keptBits) true else .num true ((-v).toNat - 1) (-keptBits) true

/-! ## Comparisons, minimum and maximum (R69, R122) -/

/-- A value as a signed integer scaled to 2^e0. -/
def FVal.scaled (v : FVal) (e0 : Int) : Int :=
  match v with
  | .fin s m e => (if s then -1 else 1) * ((m * 2 ^ (e - e0).toNat : Nat) : Int)
  | _ => 0

/-- a < b for values that are not NaN. -/
def flt : FVal → FVal → Bool
  | .nan, _ => false
  | _, .nan => false
  | .inf a, .inf b => a && !b
  | .inf a, .fin .. => a
  | .fin .., .inf b => !b
  | .fin s1 m1 e1, .fin s2 m2 e2 =>
    let e0 := min e1 e2
    (FVal.fin s1 m1 e1).scaled e0 < (FVal.fin s2 m2 e2).scaled e0

/-- a = b for values that are not NaN; −0 equals +0. -/
def feq (a b : FVal) : Bool := a ≠ .nan && b ≠ .nan && !flt a b && !flt b a

/-- A value is NaN. -/
def FVal.isNan : FVal → Bool
  | .nan => true
  | _ => false

/-- A value is −0 or negative by its sign. -/
def FVal.signBit : FVal → Bool
  | .nan => false
  | .inf s => s
  | .fin s _ _ => s

/-- Minimum of two encodings under R69. -/
def Fmt.min (f : Fmt) (a b : Nat) : Nat :=
  let x := f.decode a
  let y := f.decode b
  if x.isNan && y.isNan then f.nan else if x.isNan then b else if y.isNan then a
  else if flt x y then a else if flt y x then b else if x.signBit then a else b

/-- Maximum of two encodings under R69. -/
def Fmt.max (f : Fmt) (a b : Nat) : Nat :=
  let x := f.decode a
  let y := f.decode b
  if x.isNan && y.isNan then f.nan else if x.isNan then b else if y.isNan then a
  else if flt x y then b else if flt y x then a else if x.signBit then b else a

/-! ## Conversions (R73) -/

/-- An integer as a result. -/
def intRes (v : Int) : FRes := .num (v < 0) v.natAbs 0 false

/-- Clamp an integer into the range of a w-bit type. -/
def clampInt (signed : Bool) (w : Nat) (v : Int) : Int :=
  let lo : Int := if signed then -(2 ^ (w - 1)) else 0
  let hi : Int := if signed then 2 ^ (w - 1) - 1 else 2 ^ w - 1
  if v < lo then lo else if v > hi then hi else v

/-- The integer that a floating value rounds to. -/
def roundToInt (r : Rnd) (s : Bool) (m : Nat) (e : Int) : Int :=
  let (kept, rem, sh) := cutAt m e 0
  let k := if r.up s kept rem sh false then kept + 1 else kept
  if s then -(k : Int) else k

/-- A floating value as a w-bit integer pattern: bounds for what lies outside the range, 0 for NaN. -/
def toIntType (r : Rnd) (signed : Bool) (w : Nat) : FVal → Nat
  | .nan => 0
  | .inf s => wrapInt w (clampInt signed w (if s then -(2 ^ 70) else 2 ^ 70))
  | .fin s m e => wrapInt w (clampInt signed w (roundToInt r s m e))

/-- A BF16 immediate converted to the operation's type (R40): exact, or rounded rne without `sat` and `zero`. (DEDUCED, log 104) -/
def bf16Imm (f : Fmt) (x : Nat) : Nat := f.round .rne (fmtBf16.decode x).res

/-- Convert an encoding between formats, one rounding (R125). -/
def Fmt.convert (src dst : Fmt) (r : Rnd) (b : Nat) : Nat := dst.round r (src.decode b).res

/-- The sum of two encodings, rounded RNE with subnormals kept (R149, R202). -/
def Fmt.addRne (f : Fmt) (a b : Nat) : Nat := f.round .rne (fadd .rne (f.decode a) (f.decode b))

/-! ## Scales (R75) -/

/-- 2^(s − 127) as an exact factor; NaN for 255. -/
def e8m0 (s : Nat) : FVal := if s = 255 then .nan else .fin false 1 ((s : Int) - 127)

end Sys2Proof.Machine
end

