-- ==== Sys2Proof/WellFormed.lean ====
section
/-!
DEFINITION. Which instructions an encoding can hold: the reserved values of R36 and R37 for scalar words, and the static
limits of R323 with the tables of the instruction chapters for vector words. An event is well formed when its die, hart
key and similar names lie in the ranges of R14 and R12.
-/

namespace Sys2Proof

namespace VWord

/-- The replicate fields are zero (R41). -/
def noRep (f : VWord) : Bool := !f.rep && f.rsz == 0#2 && f.ridx == 0#6

/-- The replicate modifier may stand: only in the vv form, and rsz and ridx are zero without it (R41, R323). (DEDUCED, log 28) -/
def repOk (f : VWord) : Bool :=
  if f.rep then f.form == 0#2 else f.rsz == 0#2 && f.ridx == 0#6

/-- The type field names a floating type with a BF16 immediate: bf16 to e5m2, and fp4 (R40, R42). -/
def floatTy (f : VWord) : Bool := f.ty ≥ 8#4 && f.ty ≤ 14#4

/-- The vv form without a use of x (R40). -/
def vvForm (f : VWord) : Bool := f.form == 0#2 && f.x == 0#18

/-- The vs form: vb zero, x[17:5] zero (R40, R323). -/
def vsForm (f : VWord) : Bool := f.form == 1#2 && f.vb == 0#5 && f.x < 32#18

/-- The vi form: vb zero, and x[17:16] zero for a floating type (R40, R323). -/
def viForm (f : VWord) : Bool := f.form == 2#2 && f.vb == 0#5 && (!f.floatTy || f.x < 65536#18)

/-- The second operand of an instruction with the forms vv, vs and vi. -/
def anyForm (f : VWord) : Bool := f.repOk && (f.vvForm || f.vsForm || f.viForm)

/-- The second operand of an instruction with the forms vv and vs. -/
def vvOrVs (f : VWord) : Bool := f.repOk && (f.vvForm || f.vsForm)

/-- The vv form with vb = 0 and rep = 0. -/
def unary (f : VWord) : Bool := f.vvForm && f.noRep && f.vb == 0#5

/-- The rounding layout of ctl (R43): modes 0 to 4, saturate, zero. -/
def rounding (f : VWord) : Bool := f.ctl.extractLsb' 0 3 ≤ 4#3

/-- The rounding layout where `rsto` is reserved (R132, R133, R135). -/
def roundingNoRsto (f : VWord) : Bool := f.ctl.extractLsb' 0 3 ≤ 3#3

/-- ctl of `vscan`: rounding for floating types, none for integer types (R133). -/
def scanCtl (f : VWord) : Bool := if f.ty ≥ 8#4 then f.roundingNoRsto else f.ctl == 0#5

/-- The condition layout of ctl (R43): 110 and 111 only for floating types. -/
def condition (f : VWord) : Bool := f.ctl < 8#5 && (f.ctl < 6#5 || f.ty ≥ 8#4)

/-- A field that names a mask register or a return slot (R44, R323). -/
def small (r : Reg) : Bool := r < 8#5

/-- A special-form word whose vd, va, vb and replicate fields the caller checks: form 11, no replicate. -/
def special (f : VWord) : Bool := f.form == 3#2 && f.noRep

/-- The mask logic instructions `vmand` to `vmxor`: vv with the replicate modifier, three mask operands, no type (R41, R323). -/
def maskLogic (f : VWord) : Bool :=
  f.vvForm && f.repOk && small f.vd && small f.va && small f.vb && f.ty == 0#4 && f.ctl == 0#5

/-- `vmnot`, `vmpop`, `vmfirst`: one mask source. -/
def maskUnary (f : VWord) : Bool :=
  f.unary && small f.vd && small f.va && f.ty == 0#4 && f.ctl == 0#5

/-- The source type of a two-width instruction, named by vb[3:0] (R117). -/
def srcTy (f : VWord) : BitVec 4 := f.vb.extractLsb' 0 4

/-- The fields every two-width instruction shares: vv, rep zero, vb[4] zero (R117). -/
def twoWidth (f : VWord) : Bool := f.form == 0#2 && f.noRep && f.vb < 16#5

/-- The width of the destination of `vclip`: types 0, 4 are 8 bits, 1, 5 are 16, 2, 6 are 32. -/
def clipWidth (f : VWord) : Nat := 8 * 2 ^ (f.ty.toNat % 4)

/-- `vclip` (R119): destination i8 to i32 or ui8 to ui32, source of the double width, shift below 2w. -/
def clip (f : VWord) : Bool :=
  f.twoWidth && (f.ty == 0#4 || f.ty == 1#4 || f.ty == 2#4 || f.ty == 4#4 || f.ty == 5#4 || f.ty == 6#4)
    && f.srcTy == f.ty + 1#4 && f.rounding && f.ctl < 16#5 && f.x.toNat < 2 * f.clipWidth

/-- A bp operand of w planes at register n ends at or below v31 (R78). -/
def bpFits (n : Reg) (w : Nat) : Bool := n.toNat + w ≤ 32

/-- The plane count in ctl[3:0]. -/
def planes (f : VWord) : Nat := (f.ctl.extractLsb' 0 4).toNat + 1

/-- The widen bit, ctl[4]. -/
def widen (f : VWord) : Bool := f.ctl.getLsbD 4

/-- The number of planes written: one more when widened (R78). -/
def planesOut (f : VWord) : Nat := if f.widen then f.planes + 1 else f.planes

/-- The wide integer types of R42. -/
def wide32 (t : BitVec 4) : Bool := t == 2#4 || t == 6#4

/-- The types of the brackets and of `inv` (R164). -/
def bracketTy (t : BitVec 4) : Bool := t == 2#4 || t == 6#4 || t == 8#4 || t == 10#4

/-- The types of the tile row moves (R179, R180). -/
def tileTy (t : BitVec 4) : Bool := t == 2#4 || t == 8#4 || t == 9#4 || t == 10#4

/-- The types of `mop` (R175) with their `alt` bit. -/
def mopTyCtl (f : VWord) : Bool :=
  (f.ty == 12#4 || f.ty == 13#4) && f.ctl < 2#5
    || (f.ty == 0#4 || f.ty == 8#4 || f.ty == 9#4 || f.ty == 14#4) && f.ctl == 0#5

/-- The index field of a tile word: x below the limit in the vi form, a scalar register in the vs form. -/
def tileIndex (f : VWord) (lim : BitVec 18) : Bool :=
  f.vb == 0#5 && f.noRep && (f.form == 2#2 && f.x < lim || f.form == 1#2 && f.x < 32#18)

/-- The rounding field of a tile read: a mode with saturate for types 8 and 9, zero otherwise; ctl[4] is the caller's. -/
def tileRound (f : VWord) : Bool :=
  if f.ty == 8#4 || f.ty == 9#4 then f.rounding else f.ctl.extractLsb' 0 4 == 0#4

/-- A unit-stride memory word: form 01, base in x[4:0] (R139). -/
def unitMem (f : VWord) : Bool :=
  f.form == 1#2 && f.noRep && f.va == 0#5 && f.vb == 0#5 && f.x < 32#18 && f.ctl == 0#5 && f.ty ≤ 13#4

/-- A strided memory word. -/
def stridedMem (f : VWord) : Bool :=
  f.special && f.va == 0#5 && f.vb == 0#5 && f.x < 1024#18 && f.ctl == 0#5 && f.ty ≤ 13#4

/-- An indexed memory word. -/
def indexedMem (f : VWord) : Bool :=
  f.special && f.va == 0#5 && f.x < 128#18 && f.ctl == 0#5 && f.ty ≤ 13#4

/-- The stream layout of ctl (R43): modifier 11 reserved, and modifier 00 with k zero. -/
def stream (f : VWord) : Bool := f.ctl == 0#5 || f.ctl ≥ 8#5 && f.ctl < 24#5

/-- A branch offset field: x[17:9] zero (R45). -/
def branchX (f : VWord) : Bool := f.x < 512#18

/-- The fields zero in every block-control word but its own: vd, vb, type, ctl, replicate. -/
def control (f : VWord) : Bool := f.special && f.vd == 0#5 && f.vb == 0#5 && f.ty == 0#4 && f.ctl == 0#5

/-- `vbany`, `vball`, `vbnone` (R156). -/
def uniform (f : VWord) : Bool := f.control && small f.va && f.branchX

/-- A control word with every field zero but those the caller allows: va, m and x zero too. -/
def bare (f : VWord) : Bool := f.control && f.va == 0#5 && f.m == 0#3 && f.x == 0#18

/-- A slide (R129, R323): an immediate offset in x[12:0], or a scalar register under x[17]. -/
def slide (f : VWord) : Bool :=
  f.special && f.ty ≤ 14#4 && f.ctl == 0#5
    && (if f.x.getLsbD 17 then f.x.extractLsb' 5 12 == 0#12 else f.x.extractLsb' 13 4 == 0#4)

end VWord

namespace Instr

/-- A die number (R8). -/
def dieOk (d : Nat) : Bool := d < 8

/-- A hart key, 384 × die + `hid` (R50). -/
def hartOk (h : Nat) : Bool := h < 3072

/-- A gang slot of a die (R50). -/
def gangOk (d g : Nat) : Bool := d < 8 && g < 384

/-- A directed channel between two dies (R236). -/
def chanOk (a b : Nat) : Bool := a < 8 && b < 8 && a ≠ b

/-- A launch window slot: 4,096 queues of 64 slots on each die (R269, R271). -/
def slotOk (d q k : Nat) : Bool := d < 8 && q < 4096 && k < 64

/-- A macro of a die's weight arrays (R203). -/
def macroOk (d m : Nat) : Bool := d < 8 && m < 8192

/-- The static checks of every instruction. For a scalar or vector word: some word of the encoding holds it. -/
def wf : Instr → Bool
  | .add _ _ _ _ => true
  | .sub _ _ _ _ => true
  | .and _ _ _ _ => true
  | .or _ _ _ _ => true
  | .xor _ _ _ _ => true
  | .shl _ _ _ _ => true
  | .shr _ _ _ _ => true
  | .sra _ _ _ _ => true
  | .slt _ _ _ _ => true
  | .sltu _ _ _ _ => true
  | .min _ _ _ _ => true
  | .max _ _ _ _ => true
  | .minu _ _ _ _ => true
  | .maxu _ _ _ _ => true
  | .mul _ _ _ _ => true
  | .mulh _ _ _ _ => true
  | .mulhu _ _ _ _ => true
  | .div _ _ _ _ => true
  | .divu _ _ _ _ => true
  | .rem _ _ _ _ => true
  | .remu _ _ _ _ => true
  | .clz _ _ _ => true
  | .popc _ _ _ => true
  | .addi _ _ _ => true
  | .andi _ _ _ => true
  | .ori _ _ _ => true
  | .xori _ _ _ => true
  | .slti _ _ _ => true
  | .sltiu _ _ _ => true
  | .shli _ _ _ _ => true
  | .shri _ _ _ _ => true
  | .srai _ _ _ _ => true
  | .ldhi _ _ _ => true
  | .addpc _ _ => true
  | .ldb _ _ _ => true
  | .ldbu _ _ _ => true
  | .ldh _ _ _ => true
  | .ldhu _ _ _ => true
  | .ldw _ _ _ => true
  | .ldwu _ _ _ => true
  | .ldd _ _ _ => true
  | .ldx wd _ _ _ _ _ _ => wd ≠ 7#3
  | .stb _ _ _ => true
  | .sth _ _ _ => true
  | .stw _ _ _ => true
  | .std _ _ _ => true
  | .stx _ _ _ _ _ _ _ => true
  | .aadd _ _ _ _ _ => true
  | .aswap _ _ _ _ _ => true
  | .aand _ _ _ _ _ => true
  | .aor _ _ _ _ _ => true
  | .axor _ _ _ _ _ => true
  | .amin _ _ _ _ _ => true
  | .amax _ _ _ _ _ => true
  | .aminu _ _ _ _ _ => true
  | .amaxu _ _ _ _ _ => true
  | .acas _ _ _ _ _ => true
  | .beq _ _ _ => true
  | .bne _ _ _ => true
  | .blt _ _ _ => true
  | .bge _ _ _ => true
  | .bltu _ _ _ => true
  | .bgeu _ _ _ => true
  | .jmp _ => true
  | .jal _ _ => true
  | .jalr _ _ _ => true
  | .vfb _ => true
  | .vloop _ _ => true
  | .vsetl _ _ _ _ => true
  | .qget _ _ => true
  | .mxatt _ _ => true
  | .settle _ _ => true
  | .renew _ _ => true
  | .scnt _ _ => true
  | .swait _ _ => true
  | .nbx _ _ => true
  | .nbadd _ _ _ => true
  | .bred _ => true
  | .wcalModel _ _ => true
  | .wcalEarly _ => true
  | .xver _ => true
  | .xcount _ _ => true
  | .xmerge _ => true
  | .xpol _ => true
  | .lpatch _ _ _ => true
  | .larm _ _ => true
  | .trap _ => true
  | .getsr _ _ => true
  | .setsr _ n => n ≠ 0x016#12 && n ≠ 0x046#12
  | .setsrVown _ => true
  | .setsrSavep _ => true
  | .swapsr _ _ _ => true
  | .vadd f => f.anyForm && f.ty < 8#4 && f.ctl == 0#5
  | .vsub f => f.anyForm && f.ty < 8#4 && f.ctl == 0#5
  | .vmul f => f.anyForm && f.ty < 8#4 && f.ctl == 0#5
  | .vmulh f => f.anyForm && f.ty < 8#4 && f.ctl == 0#5
  | .vmadd f => f.anyForm && f.ty < 8#4 && f.ctl == 0#5
  | .vdiv f => f.anyForm && f.ty < 8#4 && f.ctl == 0#5
  | .vrem f => f.anyForm && f.ty < 8#4 && f.ctl == 0#5
  | .vmin f => f.anyForm && f.ty < 8#4 && f.ctl == 0#5
  | .vmax f => f.anyForm && f.ty < 8#4 && f.ctl == 0#5
  | .vand f => f.anyForm && f.ty < 8#4 && f.ctl == 0#5
  | .vor f => f.anyForm && f.ty < 8#4 && f.ctl == 0#5
  | .vxor f => f.anyForm && f.ty < 8#4 && f.ctl == 0#5
  | .vshl f => f.anyForm && f.ty < 8#4 && f.ctl == 0#5
  | .vshr f => f.anyForm && f.ty < 8#4 && f.ctl == 0#5
  | .vsra f => f.anyForm && f.ty < 8#4 && f.ctl == 0#5
  | .vsadd f => f.anyForm && f.ty < 8#4 && f.ctl == 0#5
  | .vssub f => f.anyForm && f.ty < 8#4 && f.ctl == 0#5
  | .vabs f => f.unary && f.ty < 8#4 && f.ctl == 0#5
  | .vclip f => f.clip
  | .vfadd f => f.anyForm && f.ty ≥ 8#4 && f.ty ≤ 11#4 && f.rounding
  | .vfsub f => f.anyForm && f.ty ≥ 8#4 && f.ty ≤ 11#4 && f.rounding
  | .vfmul f => f.anyForm && f.ty ≥ 8#4 && f.ty ≤ 11#4 && f.rounding
  | .vfma f => f.anyForm && f.ty ≥ 8#4 && f.ty ≤ 11#4 && f.rounding
  | .vfms f => f.anyForm && f.ty ≥ 8#4 && f.ty ≤ 11#4 && f.rounding
  | .vfnma f => f.anyForm && f.ty ≥ 8#4 && f.ty ≤ 11#4 && f.rounding
  | .vfdiv f => f.anyForm && f.ty ≥ 8#4 && f.ty ≤ 11#4 && f.rounding
  | .vfsqrt f => f.unary && f.ty ≥ 8#4 && f.ty ≤ 11#4 && f.rounding
  | .vfmin f => f.anyForm && f.ty ≥ 8#4 && f.ty ≤ 11#4 && f.ctl == 0#5
  | .vfmax f => f.anyForm && f.ty ≥ 8#4 && f.ty ≤ 11#4 && f.ctl == 0#5
  | .vfabs f => f.unary && f.ty ≥ 8#4 && f.ty ≤ 11#4 && f.ctl == 0#5
  | .vfneg f => f.unary && f.ty ≥ 8#4 && f.ty ≤ 11#4 && f.ctl == 0#5
  | .vfrcp f => f.unary && f.ty ≥ 8#4 && f.ty ≤ 11#4 && f.rounding
  | .vfexp2 f => f.unary && f.ty ≥ 8#4 && f.ty ≤ 11#4 && f.rounding
  | .vflog2 f => f.unary && f.ty ≥ 8#4 && f.ty ≤ 11#4 && f.rounding
  | .vfclamp f => f.repOk && f.vvForm && f.ty ≥ 8#4 && f.ty ≤ 11#4 && f.ctl == 0#5
  | .vfrsq f => f.unary && f.ty ≥ 8#4 && f.ty ≤ 11#4 && f.rounding
  | .vcmp f => f.anyForm && VWord.small f.vd && f.ty ≤ 11#4 && f.condition
  | .vmand f => f.maskLogic
  | .vmor f => f.maskLogic
  | .vmxor f => f.maskLogic
  | .vmnot f => f.maskUnary
  | .vmpop f => f.maskUnary
  | .vmfirst f => f.maskUnary
  | .vmsel f => f.anyForm && f.ty ≤ 11#4 && f.ctl == 0#5
  | .vcvt f => f.twoWidth && f.x == 0#18 && f.ty ≤ 13#4 && f.srcTy ≤ 13#4 && f.rounding
  | .vqpack f => f.twoWidth && f.x == 0#18 && f.ty ≥ 12#4 && f.ty ≤ 14#4 && f.srcTy ≥ 8#4 && f.srcTy ≤ 10#4 && f.rounding
  | .vqunpack f => f.twoWidth && f.x == 0#18 && f.ty ≥ 8#4 && f.ty ≤ 10#4 && f.srcTy ≥ 12#4 && f.srcTy ≤ 14#4 && f.rounding
  | .vbpl f => f.twoWidth && f.x == 0#18 && f.ty == 15#4 && f.srcTy < 8#4 && f.ctl < 16#5 && VWord.bpFits f.vd f.planes
  | .vbunpl f => f.twoWidth && f.x == 0#18 && f.ty < 8#4 && f.srcTy == 15#4 && f.ctl < 16#5 && VWord.bpFits f.va f.planes
  | .vpadd f => f.repOk && f.vvForm && f.ty == 15#4 && VWord.bpFits f.vd f.planesOut && VWord.bpFits f.va f.planes && VWord.bpFits f.vb f.planes
  | .vpmul f => f.special && f.ty == 15#4 && f.x < 256#18 && VWord.bpFits f.vd f.planesOut
      && VWord.bpFits f.va ((f.x.extractLsb' 0 4).toNat + 1) && VWord.bpFits f.vb ((f.x.extractLsb' 4 4).toNat + 1)
  | .vpmac f => f.special && f.ty == 15#4 && f.x < 256#18 && VWord.bpFits f.vd f.planesOut
      && VWord.bpFits f.va ((f.x.extractLsb' 0 4).toNat + 1) && VWord.bpFits f.vb ((f.x.extractLsb' 4 4).toNat + 1)
  | .vperm f => f.anyForm && f.ty ≤ 14#4 && f.ctl == 0#5
  | .vslup f => f.slide
  | .vsldn f => f.slide
  | .vcompress f => f.unary && f.ty ≤ 14#4 && f.ctl == 0#5
  | .vexpand f => f.unary && f.ty ≤ 14#4 && f.ctl == 0#5
  | .vmv f => f.anyForm && f.va == 0#5 && f.ty ≤ 13#4 && f.ctl == 0#5
  | .vid f => f.unary && f.va == 0#5 && f.ty < 8#4 && f.ctl == 0#5
  | .vredsum f => f.vvOrVs && f.ty < 8#4 && f.ctl == 0#5
  | .vfredsum f => f.vvOrVs && f.ty ≥ 8#4 && f.ty ≤ 11#4 && f.roundingNoRsto
  | .vredmin f => f.vvOrVs && f.ty ≤ 11#4 && f.ctl == 0#5
  | .vredmax f => f.vvOrVs && f.ty ≤ 11#4 && f.ctl == 0#5
  | .vscan f => f.vvOrVs && f.ty ≤ 11#4 && f.scanCtl
  | .vrand f => f.noRep && f.va == 0#5 && (f.form == 2#2 && f.vb == 0#5 && f.x < 65536#18 || f.vsForm)
      && (f.ty == 4#4 || f.ty == 5#4 || f.ty == 6#4 || f.ty == 8#4 || f.ty == 10#4) && f.ctl == 0#5
  | .vnoise f => f.repOk && f.vvForm && (f.ty == 8#4 || f.ty == 10#4) && f.roundingNoRsto
  | .vld f => f.unitMem
  | .vst f => f.unitMem
  | .vlds f => f.stridedMem
  | .vsts f => f.stridedMem
  | .vldx f => f.indexedMem
  | .vstx f => f.indexedMem
  | .vamo f => f.special && f.x < 128#18 && f.ctl ≤ 9#5 && (f.ty == 2#4 || f.ty == 3#4 || f.ty == 6#4 || f.ty == 7#4)
  | .vlsp f => f.special && f.va == 0#5 && f.x < 32#18 && f.ty ≤ 13#4 && f.stream
  | .vssp f => f.special && f.va == 0#5 && f.x < 32#18 && f.ty ≤ 13#4 && f.ctl == 0#5
  | .vgath f => f.special && f.vd == 0#5 && f.va == 0#5 && f.x.extractLsb' 5 4 ≤ 8#4 && f.ctl < 8#5 && f.ty ≥ 4#4 && f.ty < 8#4
  | .vcopy f => f.special && f.vd == 0#5 && f.va == 0#5 && f.vb == 0#5 && f.x < 1024#18 && f.ctl < 8#5 && f.ty ≤ 13#4
  | .vrcopy f => f.special && f.vd == 0#5 && f.va == 0#5 && f.vb == 0#5 && f.x < 1024#18 && f.ctl < 24#5
      && (f.ty == 2#4 || f.ty == 3#4 || f.ty == 6#4 || f.ty == 7#4 || f.ty == 8#4 || f.ty == 10#4 || f.ty == 11#4)
  | .vavail f => f.special && VWord.small f.vd && f.va == 0#5 && f.vb == 0#5 && f.m == 0#3 && f.ty == 0#4 && f.ctl < 8#5 && f.x == 0#18
  | .vcwait f => f.special && f.vd == 0#5 && f.va == 0#5 && f.vb == 0#5 && f.m == 0#3 && f.ty == 0#4 && f.ctl < 8#5 && f.x == 0#18
  | .mop f => f.vvForm && f.noRep && f.vd == 0#5 && f.mopTyCtl
  | .mzero f => f.control && f.va == 0#5 && f.x == 0#18
  | .mrowld f => f.tileIndex 256#18 && f.vd == 0#5 && VWord.tileTy f.ty && f.ctl == 0#5
  | .mrowrd f => f.tileIndex 256#18 && f.va == 0#5 && VWord.tileTy f.ty && f.tileRound && f.ctl < 16#5
  | .mcolrd f => f.tileIndex 128#18 && f.va == 0#5 && VWord.tileTy f.ty && f.tileRound && f.ctl < 16#5
  | .mdrain f => f.tileIndex 256#18 && f.va == 0#5 && VWord.tileTy f.ty && f.tileRound && f.vd ≥ 28#5
  | .mscale f => f.vvForm && f.noRep && f.vd == 0#5 && f.m == 0#3 && f.ty == 0#4 && f.ctl == 0#5
  | .vhead f => f.special && f.va == 0#5 && f.vb == 0#5 && f.m == 0#3 && f.ty == 0#4 && f.ctl < 4#5 && f.x == 0#18
  | .vexit f => f.control && VWord.small f.va && f.m == 0#3 && f.x == 0#18
  | .vbany f => f.uniform
  | .vball f => f.uniform
  | .vbnone f => f.uniform
  | .vjmp f => f.control && f.va == 0#5 && f.m == 0#3 && f.branchX
  | .vsplit f => f.control && f.va == 0#5 && f.x == 0#18
  | .lbr f => f.uniform && f.m == 0#3
  | .vtoq f => f.noRep && f.vb == 0#5 && VWord.small f.vd && f.ty ≤ 11#4 && f.ctl == 0#5
      && (f.form == 2#2 && f.x < 8192#18 || f.form == 1#2 && f.x < 32#18)
  | .inv f => f.special && VWord.bracketTy f.ty && f.ctl < 4#5 && (f.ty ≠ 8#4 || f.x.extractLsb' 10 5 < 16#5)
  | .vbrk f => f.vvForm && f.noRep && f.vd == 0#5 && VWord.bracketTy f.ty && f.ctl == 0#5
  | .vbrkrd f => f.special && f.va == 0#5 && f.vb == 0#5 && f.x == 0#18 && VWord.bracketTy f.ty && f.ctl < 2#5
  | .xroute f => f.vvForm && f.noRep && f.vb == 0#5 && f.ty == 6#4 && f.ctl == 0#5
  | .wmv f => f.vsForm && f.noRep && (f.ty == 0#4 || f.ty == 4#4) && f.ctl == 0#5
  | .vnbadd f => f.special && f.vd == 0#5 && f.x < 128#18 && (f.ty == 2#4 || f.ty == 10#4) && f.ctl == 0#5
  | .broadcastCommand h => hartOk h
  | .bankAddApply _ => true
  | .blockAtQueueHead h => hartOk h
  | .vloopStrip h => hartOk h
  | .queuePositionEffect h => hartOk h
  | .engineElementPerformed h k _ => hartOk h && k < 8
  | .engineTransferComplete h k => hartOk h && k < 8
  | .pageSettleComplete _ => true
  | .eviction _ _ => true
  | .pageMigration _ _ => true
  | .macroCalibration die m _ => macroOk die m
  | .calibrationAnnounce die m _ => macroOk die m
  | .macroRetire die m => macroOk die m
  | .arrayScrubError _ => true
  | .bankUnitFail die _ _ => dieOk die
  | .launchLatch p q k => p.fn ≤ 64 && slotOk p.at_ q k
  | .launchSlotWrite p q k _ _ => p.fn ≤ 64 && slotOk p.at_ q k
  | .gangAdmit die => dieOk die
  | .preloadStage die => dieOk die
  | .budgetOverrun die gid _ => gangOk die gid
  | .kill h _ => hartOk h
  | .trapEntry h _ _ _ _ => hartOk h
  | .idleTimeout h => hartOk h
  | .elementThreadIssue h g idx => hartOk h && g < 4 && idx < 256
  | .gracePeriodEnd x r => x < 8192 && r < 8
  | .packetDelivery src dst => chanOk src dst
  | .responseReceive src dst => chanOk src dst
  | .watermarkSend src dst => chanOk src dst
  | .watermarkReceive src dst => chanOk src dst
  | .probeSend src dst => chanOk src dst
  | .probeReceive src dst => chanOk src dst
  | .flitCrcFail src dst => chanOk src dst
  | .dieSilent a b => chanOk a b
  | .dieFatalError die => dieOk die
  | .dieRejoin die => dieOk die
  | .hostMemRead _ _ => true
  | .hostMemWrite _ _ _ _ => true
  | .peerAtomic _ _ _ _ _ => true
  | .spdmRequest _ => true
  | .firmwareBoot _ _ _ _ => true
  | .hcCopy _ => true
  | .queueBind die _ _ => dieOk die
  | .keyLoad slot => slot < 64
  | .keyDrop slot => slot < 64
  | .vfDisable vf => vf < 64
  | .shootdownGo _ => true
  | .monitorClear die _ => dieOk die
  | .monitorSample die _ _ => dieOk die
  | .registerWrite p _ _ => p.fn ≤ 65
  | .linkRetrainEnd src dst _ => chanOk src dst
  | .vwait => true
  | .mxdet => true
  | .mxon => true
  | .mxoff => true
  | .ordSv => true
  | .ordVs => true
  | .ordAll => true
  | .gbar => true
  | .nbflush => true
  | .tret => true
  | .idle => true
  | .yield => true
  | .syncins => true
  | .halt => true
  | .vstop => true
  | .vjoin => true
  | .renewDrop => true
  | .hostDirectoryRecall => true
  | .bisnpTimeout => true
  | .bredReduction => true
  | .xmergeReduction => true
  | .dependencyMet => true
  | .gangRetire => true
  | .launchRetire => true
  | .preemption => true
  | .contextWalkRetry => true
  | .gangResume => true
  | .barrierRelease => true
  | .swaitSatisfied => true
  | .idleWake => true
  | .policyInterval => true
  | .replicaCopy => true
  | .versionPublish => true
  | .tailExamination => true
  | .linkRetrain => true
  | .linkFail => true
  | .dieRemoval => true
  | .moduleFailure => true
  | .hostLinkRetrain => true
  | .hostLinkDown => true
  | .hcSettle => true
  | .hcRenew => true
  | .hcBred => true
  | .hcDefineExpert => true
  | .hcDrainDie => true
  | .hcAssignTarget => true
  | .hcRegisterInbox => true
  | .hcResume => true
  | .hcKill => true
  | .hcEnterShuttered => true
  | .hcMalformed => true
  | .shootdownComplete => true
  | .shutterEnterWrite => true
  | .brownoutPinAssert => true
  | .shutteredEntry => true
  | .brownoutPinDeassert => true
  | .shutteredExit => true
  | .reducedRetentionDrop => true
  | .totalPowerLoss => true
  | .moduleReset => true
  | .calibrationWindowEnd => true
  | .hostLinkTrainsAgain => true
  | .backInvalidationResponse => true
  | .coldStart => true

end Instr

end Sys2Proof
end

