-- ==== Sys2Proof/Decode.lean ====
section
/-!
DEFINITION. The decoder of scalar and vector words (R33 to R46), total on any bits and rejecting by name, and the encoder
written from the same encoding tables. A reserved word is one that the decoder refuses (R37, R322, R323).
-/

namespace Sys2Proof

/-- Why a word is reserved (R37). -/
inductive DecodeError where
  /-- a dot of the scalar major-opcode map (R35) -/
  | reservedMajor
  /-- a selector value that R36 marks reserved -/
  | reservedSelector
  /-- a field that R35 or R36 gives as zero is not zero -/
  | nonzeroField
  /-- a dot of the vector opcode map (R44) -/
  | reservedOpcode
  /-- a form, type, ctl, replicate, mask or static limit of R323 -/
  | reservedField
  deriving DecidableEq, Repr

/-! ## Scalar fields (R33) -/

/-- Bits 31:26, the major opcode. -/
def fOp (w : BitVec 32) : BitVec 6 := w.extractLsb' 26 6
/-- Bits 25:21. -/
def fD (w : BitVec 32) : Reg := w.extractLsb' 21 5
/-- Bits 20:16. -/
def fA (w : BitVec 32) : Reg := w.extractLsb' 16 5
/-- Bits 15:11. -/
def fB (w : BitVec 32) : Reg := w.extractLsb' 11 5
/-- Bits 10:0 of the SR format. -/
def fFn (w : BitVec 32) : BitVec 11 := w.extractLsb' 0 11
/-- Bits 15:0 of the SI, SM and SB formats. -/
def fImm (w : BitVec 32) : BitVec 16 := w.extractLsb' 0 16
/-- Bits 20:0 of the SJ format. -/
def fOff21 (w : BitVec 32) : BitVec 21 := w.extractLsb' 0 21
/-- Bits 15:12 of the SS format. -/
def fSel (w : BitVec 32) : BitVec 4 := w.extractLsb' 12 4
/-- Bits 11:0 of the SS format. -/
def fNum (w : BitVec 32) : BitVec 12 := w.extractLsb' 0 12

/-- An SR word. -/
def srWord (op : BitVec 6) (d a b : Reg) (fn : BitVec 11) : BitVec 32 := op ++ d ++ a ++ b ++ fn
/-- An SI, SM or SB word. -/
def siWord (op : BitVec 6) (d a : Reg) (imm : BitVec 16) : BitVec 32 := op ++ d ++ a ++ imm
/-- An SJ word. -/
def sjWord (op : BitVec 6) (d : Reg) (off : BitVec 21) : BitVec 32 := op ++ d ++ off
/-- An SS word of the system opcode 0x3C. -/
def ssWord (d a : Reg) (sel : BitVec 4) (num : BitVec 12) : BitVec 32 := 0x3C#6 ++ d ++ a ++ sel ++ num

/-- Accept i when the fields that must be zero are. -/
def zeroThen (z : Bool) (i : Instr) : Except DecodeError Instr := if z then .ok i else .error .nonzeroField

/-! ## Opcodes with selectors (R36) -/

/-- Opcode 0x01: fn[4:0] selects, fn[10] is the 32-bit form, fn[9:5] is zero. -/
def decodeAlu (d a b : Reg) (fn : BitVec 11) : Except DecodeError Instr :=
  let w := fn.getLsbD 10
  let z := fn.extractLsb' 5 5 == 0#5
  match (fn.extractLsb' 0 5).toNat with
  | 0x00 => zeroThen z (.add w d a b)
  | 0x01 => zeroThen z (.sub w d a b)
  | 0x02 => zeroThen z (.and w d a b)
  | 0x03 => zeroThen z (.or w d a b)
  | 0x04 => zeroThen z (.xor w d a b)
  | 0x05 => zeroThen z (.shl w d a b)
  | 0x06 => zeroThen z (.shr w d a b)
  | 0x07 => zeroThen z (.sra w d a b)
  | 0x08 => zeroThen z (.slt w d a b)
  | 0x09 => zeroThen z (.sltu w d a b)
  | 0x0A => zeroThen z (.min w d a b)
  | 0x0B => zeroThen z (.max w d a b)
  | 0x0C => zeroThen z (.minu w d a b)
  | 0x0D => zeroThen z (.maxu w d a b)
  | 0x0E => zeroThen z (.mul w d a b)
  | 0x0F => zeroThen z (.mulh w d a b)
  | 0x10 => zeroThen z (.mulhu w d a b)
  | 0x11 => zeroThen z (.div w d a b)
  | 0x12 => zeroThen z (.divu w d a b)
  | 0x13 => zeroThen z (.rem w d a b)
  | 0x14 => zeroThen z (.remu w d a b)
  | 0x15 => zeroThen (z && b == 0#5) (.clz w d a)
  | 0x16 => zeroThen (z && b == 0#5) (.popc w d a)
  | _ => .error .reservedSelector

/-- Opcode 0x08: imm[7:6] selects, imm[5:0] is the amount, imm[8] the 32-bit form, imm[15:9] zero (R35). -/
def decodeShift (d a : Reg) (imm : BitVec 16) : Except DecodeError Instr :=
  let w := imm.getLsbD 8
  let n := imm.extractLsb' 0 6
  let z := imm.extractLsb' 9 7 == 0#7
  match (imm.extractLsb' 6 2).toNat with
  | 0 => zeroThen z (.shli w d a n)
  | 1 => zeroThen z (.shri w d a n)
  | 2 => zeroThen z (.srai w d a n)
  | _ => .error .reservedSelector

/-- Opcode 0x17. -/
def decodeLdx (d a b : Reg) (fn : BitVec 11) : Except DecodeError Instr :=
  if fn.extractLsb' 0 3 == 7#3 then .error .reservedSelector
  else zeroThen (fn.extractLsb' 7 4 == 0#4)
    (.ldx (fn.extractLsb' 0 3) (fn.getLsbD 3) (fn.getLsbD 4) (fn.extractLsb' 5 2) d a b)

/-- Opcode 0x1F. -/
def decodeStx (d a b : Reg) (fn : BitVec 11) : Except DecodeError Instr :=
  zeroThen (fn.extractLsb' 7 4 == 0#4 && !fn.getLsbD 2)
    (.stx (fn.extractLsb' 0 2) (fn.getLsbD 3) (fn.getLsbD 4) (fn.extractLsb' 5 2) d a b)

/-- Opcode 0x1C: fn[3:0] selects, fn[4] is the 64-bit width, fn[5] is `.sc`, fn[10:6] zero. -/
def decodeAtomic (d a b : Reg) (fn : BitVec 11) : Except DecodeError Instr :=
  let dw := fn.getLsbD 4
  let sc := fn.getLsbD 5
  let z := fn.extractLsb' 6 5 == 0#5
  match (fn.extractLsb' 0 4).toNat with
  | 0 => zeroThen z (.aadd dw sc d a b)
  | 1 => zeroThen z (.aswap dw sc d a b)
  | 2 => zeroThen z (.aand dw sc d a b)
  | 3 => zeroThen z (.aor dw sc d a b)
  | 4 => zeroThen z (.axor dw sc d a b)
  | 5 => zeroThen z (.amin dw sc d a b)
  | 6 => zeroThen z (.amax dw sc d a b)
  | 7 => zeroThen z (.aminu dw sc d a b)
  | 8 => zeroThen z (.amaxu dw sc d a b)
  | 9 => zeroThen z (.acas dw sc d a b)
  | _ => .error .reservedSelector

/-- Opcode 0x35, matrix control. -/
def decodeMatrixControl (d a b : Reg) (fn : BitVec 11) : Except DecodeError Instr :=
  let z := fn.extractLsb' 2 9 == 0#9 && b == 0#5
  match (fn.extractLsb' 0 2).toNat with
  | 0 => zeroThen z (.mxatt d a)
  | 1 => zeroThen (z && d == 0#5 && a == 0#5) .mxdet
  | 2 => zeroThen (z && d == 0#5 && a == 0#5) .mxon
  | _ => zeroThen (z && d == 0#5 && a == 0#5) .mxoff

/-- Opcode 0x36, order: every other field zero. -/
def decodeOrder (d a b : Reg) (fn : BitVec 11) : Except DecodeError Instr :=
  let z := fn.extractLsb' 2 9 == 0#9 && d == 0#5 && a == 0#5 && b == 0#5
  match (fn.extractLsb' 0 2).toNat with
  | 0 => zeroThen z .ordSv
  | 1 => zeroThen z .ordVs
  | 2 => zeroThen z .ordAll
  | _ => zeroThen z .gbar

/-- Opcode 0x37, images. -/
def decodeImages (d a b : Reg) (fn : BitVec 11) : Except DecodeError Instr :=
  let z := fn.extractLsb' 2 9 == 0#9
  match (fn.extractLsb' 0 2).toNat with
  | 0 => zeroThen (z && d == 0#5) (.settle a b)
  | 1 => zeroThen (z && d == 0#5) (.renew a b)
  | 2 => zeroThen (z && b == 0#5) (.scnt d a)
  | _ => zeroThen (z && d == 0#5) (.swait a b)

/-- Opcode 0x38, in-place: fn[2:0] selects, fn[4:3] refines `nbadd` and `wcal`. (DEDUCED, log 106) -/
def decodeInPlace (d a b : Reg) (fn : BitVec 11) : Except DecodeError Instr :=
  let sub := fn.extractLsb' 3 2
  let z := fn.extractLsb' 5 6 == 0#6 && d == 0#5
  match (fn.extractLsb' 0 3).toNat with
  | 0 => zeroThen (z && sub == 0#2) (.nbx a b)
  | 1 => if sub ≥ 2#2 then .error .reservedSelector else zeroThen z (.nbadd (sub == 1#2) a b)
  | 2 => zeroThen (z && sub == 0#2 && a == 0#5 && b == 0#5) .nbflush
  | 3 => zeroThen (z && sub == 0#2 && b == 0#5) (.bred a)
  | 4 => if sub ≥ 2#2 then .error .reservedSelector
         else if sub == 0#2 then zeroThen z (.wcalModel a b) else zeroThen (z && b == 0#5) (.wcalEarly a)
  | _ => .error .reservedSelector

/-- Opcode 0x39, placement. -/
def decodePlacement (d a b : Reg) (fn : BitVec 11) : Except DecodeError Instr :=
  let z := fn.extractLsb' 2 9 == 0#9
  match (fn.extractLsb' 0 2).toNat with
  | 0 => zeroThen (z && a == 0#5 && b == 0#5) (.xver d)
  | 1 => zeroThen (z && d == 0#5) (.xcount a b)
  | 2 => zeroThen (z && d == 0#5 && b == 0#5) (.xmerge a)
  | _ => zeroThen (z && d == 0#5 && b == 0#5) (.xpol a)

/-- Opcode 0x3A, launch: fn[0] selects. -/
def decodeLaunch (d a b : Reg) (fn : BitVec 11) : Except DecodeError Instr :=
  let z := fn.extractLsb' 1 10 == 0#10
  if fn.getLsbD 0 then zeroThen (z && d == 0#5) (.larm a b) else zeroThen z (.lpatch d a b)

/-- Opcode 0x3C, system: sel selects. Two register numbers have rows of their own in the opcode table. -/
def decodeSystem (d a : Reg) (sel : BitVec 4) (num : BitVec 12) : Except DecodeError Instr :=
  let none := d == 0#5 && a == 0#5 && num == 0#12
  match sel.toNat with
  | 0 => zeroThen (d == 0#5 && a == 0#5) (.trap num)
  | 1 => zeroThen none .tret
  | 2 => zeroThen (a == 0#5) (.getsr d num)
  | 3 => zeroThen (d == 0#5)
      (if num == 0x016#12 then .setsrVown a else if num == 0x046#12 then .setsrSavep a else .setsr a num)
  | 4 => zeroThen true (.swapsr d a num)
  | 5 => zeroThen none .idle
  | 6 => zeroThen none .yield
  | 7 => zeroThen none .syncins
  | 8 => zeroThen none .halt
  | _ => .error .reservedSelector

/-- The scalar decoder by major opcode (R35). -/
def decodeFields (op : Nat) (w : BitVec 32) : Except DecodeError Instr :=
  let d := fD w
  let a := fA w
  let b := fB w
  let imm := fImm w
  let fn := fFn w
  match op with
  | 0x01 => decodeAlu d a b fn
  | 0x02 => .ok (.addi d a imm)
  | 0x03 => .ok (.andi d a imm)
  | 0x04 => .ok (.ori d a imm)
  | 0x05 => .ok (.xori d a imm)
  | 0x06 => .ok (.slti d a imm)
  | 0x07 => .ok (.sltiu d a imm)
  | 0x08 => decodeShift d a imm
  | 0x09 => .ok (.ldhi d a imm)
  | 0x0A => zeroThen (a == 0#5) (.addpc d imm)
  | 0x10 => .ok (.ldb d a imm)
  | 0x11 => .ok (.ldbu d a imm)
  | 0x12 => .ok (.ldh d a imm)
  | 0x13 => .ok (.ldhu d a imm)
  | 0x14 => .ok (.ldw d a imm)
  | 0x15 => .ok (.ldwu d a imm)
  | 0x16 => .ok (.ldd d a imm)
  | 0x17 => decodeLdx d a b fn
  | 0x18 => .ok (.stb d a imm)
  | 0x19 => .ok (.sth d a imm)
  | 0x1A => .ok (.stw d a imm)
  | 0x1B => .ok (.std d a imm)
  | 0x1C => decodeAtomic d a b fn
  | 0x1F => decodeStx d a b fn
  | 0x20 => .ok (.beq d a imm)
  | 0x21 => .ok (.bne d a imm)
  | 0x22 => .ok (.blt d a imm)
  | 0x23 => .ok (.bge d a imm)
  | 0x24 => .ok (.bltu d a imm)
  | 0x25 => .ok (.bgeu d a imm)
  | 0x26 => zeroThen (d == 0#5) (.jmp (fOff21 w))
  | 0x27 => .ok (.jal d (fOff21 w))
  | 0x28 => .ok (.jalr d a imm)
  | 0x30 => zeroThen (d == 0#5) (.vfb (fOff21 w))
  | 0x31 => .ok (.vloop d (fOff21 w))
  | 0x32 => zeroThen (b == 0#5 && fn.extractLsb' 4 7 == 0#7) (.vsetl (fn.extractLsb' 0 2) (fn.extractLsb' 2 2) d a)
  | 0x33 => zeroThen (d == 0#5 && a == 0#5 && b == 0#5 && fn == 0#11) .vwait
  | 0x34 => zeroThen (a == 0#5 && b == 0#5 && fn.extractLsb' 3 8 == 0#8) (.qget d (fn.extractLsb' 0 3))
  | 0x35 => decodeMatrixControl d a b fn
  | 0x36 => decodeOrder d a b fn
  | 0x37 => decodeImages d a b fn
  | 0x38 => decodeInPlace d a b fn
  | 0x39 => decodePlacement d a b fn
  | 0x3A => decodeLaunch d a b fn
  | 0x3C => decodeSystem d a (fSel w) (fNum w)
  | _ => .error .reservedMajor

/-- The scalar decoder (R33 to R37). (DESIGN CHOICE, log 98) -/
def decodeScalar (w : BitVec 32) : Except DecodeError Instr := decodeFields (fOp w).toNat w

/-! ## Vector words (R39) -/

/-- The fields of a vector word. -/
def VWord.ofBits (w : BitVec 64) : VWord where
  form := w.extractLsb' 54 2
  vd := w.extractLsb' 49 5
  va := w.extractLsb' 44 5
  vb := w.extractLsb' 39 5
  m := w.extractLsb' 36 3
  rep := w.getLsbD 35
  rsz := w.extractLsb' 33 2
  ridx := w.extractLsb' 27 6
  ty := w.extractLsb' 23 4
  ctl := w.extractLsb' 18 5
  x := w.extractLsb' 0 18

/-- The fields of `vstop` and `vjoin`: form 11, every other field zero (R46, R161). -/
def VWord.ofControl : VWord :=
  { form := 3, vd := 0, va := 0, vb := 0, m := 0, rep := false, rsz := 0, ridx := 0, ty := 0, ctl := 0, x := 0 }

/-- The word of an opcode and its fields. -/
def VWord.toBits (op : BitVec 8) (f : VWord) : BitVec 64 :=
  op ++ f.form ++ f.vd ++ f.va ++ f.vb ++ f.m ++ BitVec.ofBool f.rep ++ f.rsz ++ f.ridx ++ f.ty ++ f.ctl ++ f.x

/-- The constructor of each opcode of R44; `vstop` and `vjoin` admit no field but the form. -/
def vectorOp (op : Nat) (f : VWord) : Except DecodeError Instr :=
  match op with
  | 0x01 => .ok (.vadd f)
  | 0x02 => .ok (.vsub f)
  | 0x03 => .ok (.vmul f)
  | 0x04 => .ok (.vmulh f)
  | 0x05 => .ok (.vmadd f)
  | 0x06 => .ok (.vdiv f)
  | 0x07 => .ok (.vrem f)
  | 0x08 => .ok (.vmin f)
  | 0x09 => .ok (.vmax f)
  | 0x0A => .ok (.vand f)
  | 0x0B => .ok (.vor f)
  | 0x0C => .ok (.vxor f)
  | 0x0D => .ok (.vshl f)
  | 0x0E => .ok (.vshr f)
  | 0x0F => .ok (.vsra f)
  | 0x10 => .ok (.vsadd f)
  | 0x11 => .ok (.vssub f)
  | 0x12 => .ok (.vabs f)
  | 0x13 => .ok (.vclip f)
  | 0x20 => .ok (.vfadd f)
  | 0x21 => .ok (.vfsub f)
  | 0x22 => .ok (.vfmul f)
  | 0x23 => .ok (.vfma f)
  | 0x24 => .ok (.vfms f)
  | 0x25 => .ok (.vfnma f)
  | 0x26 => .ok (.vfdiv f)
  | 0x27 => .ok (.vfsqrt f)
  | 0x28 => .ok (.vfmin f)
  | 0x29 => .ok (.vfmax f)
  | 0x2A => .ok (.vfabs f)
  | 0x2B => .ok (.vfneg f)
  | 0x2C => .ok (.vfrcp f)
  | 0x2D => .ok (.vfexp2 f)
  | 0x2E => .ok (.vflog2 f)
  | 0x2F => .ok (.vfclamp f)
  | 0x30 => .ok (.vfrsq f)
  | 0x40 => .ok (.vcmp f)
  | 0x41 => .ok (.vmand f)
  | 0x42 => .ok (.vmor f)
  | 0x43 => .ok (.vmxor f)
  | 0x44 => .ok (.vmnot f)
  | 0x45 => .ok (.vmpop f)
  | 0x46 => .ok (.vmfirst f)
  | 0x47 => .ok (.vmsel f)
  | 0x50 => .ok (.vcvt f)
  | 0x51 => .ok (.vqpack f)
  | 0x52 => .ok (.vqunpack f)
  | 0x53 => .ok (.vbpl f)
  | 0x54 => .ok (.vbunpl f)
  | 0x55 => .ok (.vpadd f)
  | 0x56 => .ok (.vpmul f)
  | 0x57 => .ok (.vpmac f)
  | 0x60 => .ok (.vperm f)
  | 0x61 => .ok (.vslup f)
  | 0x62 => .ok (.vsldn f)
  | 0x63 => .ok (.vcompress f)
  | 0x64 => .ok (.vexpand f)
  | 0x65 => .ok (.vredsum f)
  | 0x66 => .ok (.vfredsum f)
  | 0x67 => .ok (.vredmin f)
  | 0x68 => .ok (.vredmax f)
  | 0x69 => .ok (.vscan f)
  | 0x6A => .ok (.vmv f)
  | 0x6B => .ok (.vid f)
  | 0x70 => .ok (.vld f)
  | 0x71 => .ok (.vst f)
  | 0x72 => .ok (.vlds f)
  | 0x73 => .ok (.vsts f)
  | 0x74 => .ok (.vldx f)
  | 0x75 => .ok (.vstx f)
  | 0x76 => .ok (.vamo f)
  | 0x77 => .ok (.vlsp f)
  | 0x78 => .ok (.vssp f)
  | 0x79 => .ok (.vgath f)
  | 0x7A => .ok (.vcopy f)
  | 0x7B => .ok (.vrcopy f)
  | 0x7C => .ok (.vavail f)
  | 0x7D => .ok (.vcwait f)
  | 0x90 => .ok (.mop f)
  | 0x91 => .ok (.mzero f)
  | 0x92 => .ok (.mrowld f)
  | 0x93 => .ok (.mrowrd f)
  | 0x94 => .ok (.mcolrd f)
  | 0x95 => .ok (.mdrain f)
  | 0x96 => .ok (.mscale f)
  | 0xA0 => if f.bare then .ok .vstop else .error .reservedField
  | 0xA1 => .ok (.vexit f)
  | 0xA2 => .ok (.vbany f)
  | 0xA3 => .ok (.vball f)
  | 0xA4 => .ok (.vbnone f)
  | 0xA5 => .ok (.vjmp f)
  | 0xA6 => .ok (.vsplit f)
  | 0xA7 => if f.bare then .ok .vjoin else .error .reservedField
  | 0xA8 => .ok (.lbr f)
  | 0xA9 => .ok (.vtoq f)
  | 0xAA => .ok (.inv f)
  | 0xAB => .ok (.vbrk f)
  | 0xAC => .ok (.vbrkrd f)
  | 0xAD => .ok (.vhead f)
  | 0xB0 => .ok (.vrand f)
  | 0xB1 => .ok (.vnoise f)
  | 0xB2 => .ok (.xroute f)
  | 0xB3 => .ok (.wmv f)
  | 0xB4 => .ok (.vnbadd f)
  | _ => .error .reservedOpcode

/-- The vector decoder: opcode map, then the static checks of R323. -/
def decodeVector (w : BitVec 64) : Except DecodeError Instr :=
  match vectorOp (w.extractLsb' 56 8).toNat (VWord.ofBits w) with
  | .error e => .error e
  | .ok i => if i.wf then .ok i else .error .reservedField

/-! ## The encoder -/

/-- A Bool as one bit of a selector. -/
def bit (b : Bool) : BitVec 1 := BitVec.ofBool b

/-- fn of an ALU word. -/
def aluFn (w : Bool) (sel : BitVec 5) : BitVec 11 := bit w ++ 0#5 ++ sel

/-- imm of a shift-immediate word. -/
def shiftImm (w : Bool) (sel : BitVec 2) (n : BitVec 6) : BitVec 16 := 0#7 ++ bit w ++ sel ++ n

/-- fn of an atomic word. -/
def atomicFn (dw sc : Bool) (sel : BitVec 4) : BitVec 11 := 0#5 ++ bit sc ++ bit dw ++ sel

/-- fn of `ldx`. -/
def ldxFn (wd : BitVec 3) (na by_ : Bool) (sc : BitVec 2) : BitVec 11 := 0#4 ++ sc ++ bit by_ ++ bit na ++ wd

/-- fn of `stx`. -/
def stxFn (wd : BitVec 2) (na by_ : Bool) (sc : BitVec 2) : BitVec 11 := 0#4 ++ sc ++ bit by_ ++ bit na ++ 0#1 ++ wd

/-- The word of a scalar instruction; none for the other constructors. -/
def encodeScalar : Instr → Option (BitVec 32)
  | .add w d a b => some (srWord 0x01#6 d a b (aluFn w 0x00#5))
  | .sub w d a b => some (srWord 0x01#6 d a b (aluFn w 0x01#5))
  | .and w d a b => some (srWord 0x01#6 d a b (aluFn w 0x02#5))
  | .or w d a b => some (srWord 0x01#6 d a b (aluFn w 0x03#5))
  | .xor w d a b => some (srWord 0x01#6 d a b (aluFn w 0x04#5))
  | .shl w d a b => some (srWord 0x01#6 d a b (aluFn w 0x05#5))
  | .shr w d a b => some (srWord 0x01#6 d a b (aluFn w 0x06#5))
  | .sra w d a b => some (srWord 0x01#6 d a b (aluFn w 0x07#5))
  | .slt w d a b => some (srWord 0x01#6 d a b (aluFn w 0x08#5))
  | .sltu w d a b => some (srWord 0x01#6 d a b (aluFn w 0x09#5))
  | .min w d a b => some (srWord 0x01#6 d a b (aluFn w 0x0A#5))
  | .max w d a b => some (srWord 0x01#6 d a b (aluFn w 0x0B#5))
  | .minu w d a b => some (srWord 0x01#6 d a b (aluFn w 0x0C#5))
  | .maxu w d a b => some (srWord 0x01#6 d a b (aluFn w 0x0D#5))
  | .mul w d a b => some (srWord 0x01#6 d a b (aluFn w 0x0E#5))
  | .mulh w d a b => some (srWord 0x01#6 d a b (aluFn w 0x0F#5))
  | .mulhu w d a b => some (srWord 0x01#6 d a b (aluFn w 0x10#5))
  | .div w d a b => some (srWord 0x01#6 d a b (aluFn w 0x11#5))
  | .divu w d a b => some (srWord 0x01#6 d a b (aluFn w 0x12#5))
  | .rem w d a b => some (srWord 0x01#6 d a b (aluFn w 0x13#5))
  | .remu w d a b => some (srWord 0x01#6 d a b (aluFn w 0x14#5))
  | .clz w d a => some (srWord 0x01#6 d a 0#5 (aluFn w 0x15#5))
  | .popc w d a => some (srWord 0x01#6 d a 0#5 (aluFn w 0x16#5))
  | .addi d a imm => some (siWord 0x02#6 d a imm)
  | .andi d a imm => some (siWord 0x03#6 d a imm)
  | .ori d a imm => some (siWord 0x04#6 d a imm)
  | .xori d a imm => some (siWord 0x05#6 d a imm)
  | .slti d a imm => some (siWord 0x06#6 d a imm)
  | .sltiu d a imm => some (siWord 0x07#6 d a imm)
  | .shli w d a n => some (siWord 0x08#6 d a (shiftImm w 0#2 n))
  | .shri w d a n => some (siWord 0x08#6 d a (shiftImm w 1#2 n))
  | .srai w d a n => some (siWord 0x08#6 d a (shiftImm w 2#2 n))
  | .ldhi d a imm => some (siWord 0x09#6 d a imm)
  | .addpc d imm => some (siWord 0x0A#6 d 0#5 imm)
  | .ldb d a imm => some (siWord 0x10#6 d a imm)
  | .ldbu d a imm => some (siWord 0x11#6 d a imm)
  | .ldh d a imm => some (siWord 0x12#6 d a imm)
  | .ldhu d a imm => some (siWord 0x13#6 d a imm)
  | .ldw d a imm => some (siWord 0x14#6 d a imm)
  | .ldwu d a imm => some (siWord 0x15#6 d a imm)
  | .ldd d a imm => some (siWord 0x16#6 d a imm)
  | .ldx wd na by_ sc d a b => some (srWord 0x17#6 d a b (ldxFn wd na by_ sc))
  | .stb d a imm => some (siWord 0x18#6 d a imm)
  | .sth d a imm => some (siWord 0x19#6 d a imm)
  | .stw d a imm => some (siWord 0x1A#6 d a imm)
  | .std d a imm => some (siWord 0x1B#6 d a imm)
  | .stx wd na by_ sc d a b => some (srWord 0x1F#6 d a b (stxFn wd na by_ sc))
  | .aadd dw sc d a b => some (srWord 0x1C#6 d a b (atomicFn dw sc 0#4))
  | .aswap dw sc d a b => some (srWord 0x1C#6 d a b (atomicFn dw sc 1#4))
  | .aand dw sc d a b => some (srWord 0x1C#6 d a b (atomicFn dw sc 2#4))
  | .aor dw sc d a b => some (srWord 0x1C#6 d a b (atomicFn dw sc 3#4))
  | .axor dw sc d a b => some (srWord 0x1C#6 d a b (atomicFn dw sc 4#4))
  | .amin dw sc d a b => some (srWord 0x1C#6 d a b (atomicFn dw sc 5#4))
  | .amax dw sc d a b => some (srWord 0x1C#6 d a b (atomicFn dw sc 6#4))
  | .aminu dw sc d a b => some (srWord 0x1C#6 d a b (atomicFn dw sc 7#4))
  | .amaxu dw sc d a b => some (srWord 0x1C#6 d a b (atomicFn dw sc 8#4))
  | .acas dw sc d a b => some (srWord 0x1C#6 d a b (atomicFn dw sc 9#4))
  | .beq a b off => some (siWord 0x20#6 a b off)
  | .bne a b off => some (siWord 0x21#6 a b off)
  | .blt a b off => some (siWord 0x22#6 a b off)
  | .bge a b off => some (siWord 0x23#6 a b off)
  | .bltu a b off => some (siWord 0x24#6 a b off)
  | .bgeu a b off => some (siWord 0x25#6 a b off)
  | .jmp off => some (sjWord 0x26#6 0#5 off)
  | .jal d off => some (sjWord 0x27#6 d off)
  | .jalr d a imm => some (siWord 0x28#6 d a imm)
  | .vfb off => some (sjWord 0x30#6 0#5 off)
  | .vloop n off => some (sjWord 0x31#6 n off)
  | .vsetl sew grp d a => some (srWord 0x32#6 d a 0#5 (0#7 ++ grp ++ sew))
  | .vwait => some (srWord 0x33#6 0#5 0#5 0#5 0#11)
  | .qget d slot => some (srWord 0x34#6 d 0#5 0#5 (0#8 ++ slot))
  | .mxatt d a => some (srWord 0x35#6 d a 0#5 0#11)
  | .mxdet => some (srWord 0x35#6 0#5 0#5 0#5 1#11)
  | .mxon => some (srWord 0x35#6 0#5 0#5 0#5 2#11)
  | .mxoff => some (srWord 0x35#6 0#5 0#5 0#5 3#11)
  | .ordSv => some (srWord 0x36#6 0#5 0#5 0#5 0#11)
  | .ordVs => some (srWord 0x36#6 0#5 0#5 0#5 1#11)
  | .ordAll => some (srWord 0x36#6 0#5 0#5 0#5 2#11)
  | .gbar => some (srWord 0x36#6 0#5 0#5 0#5 3#11)
  | .settle a b => some (srWord 0x37#6 0#5 a b 0#11)
  | .renew a b => some (srWord 0x37#6 0#5 a b 1#11)
  | .scnt d a => some (srWord 0x37#6 d a 0#5 2#11)
  | .swait a b => some (srWord 0x37#6 0#5 a b 3#11)
  | .nbx a b => some (srWord 0x38#6 0#5 a b 0#11)
  | .nbadd f32 a b => some (srWord 0x38#6 0#5 a b (0#7 ++ bit f32 ++ 1#3))
  | .nbflush => some (srWord 0x38#6 0#5 0#5 0#5 2#11)
  | .bred a => some (srWord 0x38#6 0#5 a 0#5 3#11)
  | .wcalModel a b => some (srWord 0x38#6 0#5 a b 4#11)
  | .wcalEarly a => some (srWord 0x38#6 0#5 a 0#5 12#11)
  | .xver d => some (srWord 0x39#6 d 0#5 0#5 0#11)
  | .xcount a b => some (srWord 0x39#6 0#5 a b 1#11)
  | .xmerge a => some (srWord 0x39#6 0#5 a 0#5 2#11)
  | .xpol a => some (srWord 0x39#6 0#5 a 0#5 3#11)
  | .lpatch d a b => some (srWord 0x3A#6 d a b 0#11)
  | .larm a b => some (srWord 0x3A#6 0#5 a b 1#11)
  | .trap code => some (ssWord 0#5 0#5 0#4 code)
  | .tret => some (ssWord 0#5 0#5 1#4 0#12)
  | .getsr d n => some (ssWord d 0#5 2#4 n)
  | .setsr a n => some (ssWord 0#5 a 3#4 n)
  | .setsrVown a => some (ssWord 0#5 a 3#4 0x016#12)
  | .setsrSavep a => some (ssWord 0#5 a 3#4 0x046#12)
  | .swapsr d a n => some (ssWord d a 4#4 n)
  | .idle => some (ssWord 0#5 0#5 5#4 0#12)
  | .yield => some (ssWord 0#5 0#5 6#4 0#12)
  | .syncins => some (ssWord 0#5 0#5 7#4 0#12)
  | .halt => some (ssWord 0#5 0#5 8#4 0#12)
  | _ => none

/-- The opcode (R44) and the fields of a vector instruction; none for the other constructors. -/
def vectorFields : Instr → Option (BitVec 8 × VWord)
  | .vadd f => some (0x01#8, f)
  | .vsub f => some (0x02#8, f)
  | .vmul f => some (0x03#8, f)
  | .vmulh f => some (0x04#8, f)
  | .vmadd f => some (0x05#8, f)
  | .vdiv f => some (0x06#8, f)
  | .vrem f => some (0x07#8, f)
  | .vmin f => some (0x08#8, f)
  | .vmax f => some (0x09#8, f)
  | .vand f => some (0x0A#8, f)
  | .vor f => some (0x0B#8, f)
  | .vxor f => some (0x0C#8, f)
  | .vshl f => some (0x0D#8, f)
  | .vshr f => some (0x0E#8, f)
  | .vsra f => some (0x0F#8, f)
  | .vsadd f => some (0x10#8, f)
  | .vssub f => some (0x11#8, f)
  | .vabs f => some (0x12#8, f)
  | .vclip f => some (0x13#8, f)
  | .vfadd f => some (0x20#8, f)
  | .vfsub f => some (0x21#8, f)
  | .vfmul f => some (0x22#8, f)
  | .vfma f => some (0x23#8, f)
  | .vfms f => some (0x24#8, f)
  | .vfnma f => some (0x25#8, f)
  | .vfdiv f => some (0x26#8, f)
  | .vfsqrt f => some (0x27#8, f)
  | .vfmin f => some (0x28#8, f)
  | .vfmax f => some (0x29#8, f)
  | .vfabs f => some (0x2A#8, f)
  | .vfneg f => some (0x2B#8, f)
  | .vfrcp f => some (0x2C#8, f)
  | .vfexp2 f => some (0x2D#8, f)
  | .vflog2 f => some (0x2E#8, f)
  | .vfclamp f => some (0x2F#8, f)
  | .vfrsq f => some (0x30#8, f)
  | .vcmp f => some (0x40#8, f)
  | .vmand f => some (0x41#8, f)
  | .vmor f => some (0x42#8, f)
  | .vmxor f => some (0x43#8, f)
  | .vmnot f => some (0x44#8, f)
  | .vmpop f => some (0x45#8, f)
  | .vmfirst f => some (0x46#8, f)
  | .vmsel f => some (0x47#8, f)
  | .vcvt f => some (0x50#8, f)
  | .vqpack f => some (0x51#8, f)
  | .vqunpack f => some (0x52#8, f)
  | .vbpl f => some (0x53#8, f)
  | .vbunpl f => some (0x54#8, f)
  | .vpadd f => some (0x55#8, f)
  | .vpmul f => some (0x56#8, f)
  | .vpmac f => some (0x57#8, f)
  | .vperm f => some (0x60#8, f)
  | .vslup f => some (0x61#8, f)
  | .vsldn f => some (0x62#8, f)
  | .vcompress f => some (0x63#8, f)
  | .vexpand f => some (0x64#8, f)
  | .vmv f => some (0x6A#8, f)
  | .vid f => some (0x6B#8, f)
  | .vredsum f => some (0x65#8, f)
  | .vfredsum f => some (0x66#8, f)
  | .vredmin f => some (0x67#8, f)
  | .vredmax f => some (0x68#8, f)
  | .vscan f => some (0x69#8, f)
  | .vrand f => some (0xB0#8, f)
  | .vnoise f => some (0xB1#8, f)
  | .vld f => some (0x70#8, f)
  | .vst f => some (0x71#8, f)
  | .vlds f => some (0x72#8, f)
  | .vsts f => some (0x73#8, f)
  | .vldx f => some (0x74#8, f)
  | .vstx f => some (0x75#8, f)
  | .vamo f => some (0x76#8, f)
  | .vlsp f => some (0x77#8, f)
  | .vssp f => some (0x78#8, f)
  | .vgath f => some (0x79#8, f)
  | .vcopy f => some (0x7A#8, f)
  | .vrcopy f => some (0x7B#8, f)
  | .vavail f => some (0x7C#8, f)
  | .vcwait f => some (0x7D#8, f)
  | .mop f => some (0x90#8, f)
  | .mzero f => some (0x91#8, f)
  | .mrowld f => some (0x92#8, f)
  | .mrowrd f => some (0x93#8, f)
  | .mcolrd f => some (0x94#8, f)
  | .mdrain f => some (0x95#8, f)
  | .mscale f => some (0x96#8, f)
  | .vhead f => some (0xAD#8, f)
  | .vexit f => some (0xA1#8, f)
  | .vbany f => some (0xA2#8, f)
  | .vball f => some (0xA3#8, f)
  | .vbnone f => some (0xA4#8, f)
  | .vjmp f => some (0xA5#8, f)
  | .vsplit f => some (0xA6#8, f)
  | .lbr f => some (0xA8#8, f)
  | .vtoq f => some (0xA9#8, f)
  | .inv f => some (0xAA#8, f)
  | .vbrk f => some (0xAB#8, f)
  | .vbrkrd f => some (0xAC#8, f)
  | .xroute f => some (0xB2#8, f)
  | .wmv f => some (0xB3#8, f)
  | .vnbadd f => some (0xB4#8, f)
  | .vstop => some (0xA0#8, VWord.ofControl)
  | .vjoin => some (0xA7#8, VWord.ofControl)
  | _ => none

/-- The word of a vector instruction; none for the other constructors. -/
def encodeVector (i : Instr) : Option (BitVec 64) := (vectorFields i).map fun p => VWord.toBits p.1 p.2

/-- The words of an instruction as the hardware stores them: one 32-bit word, or the two halves of a vector word, the low
half first (R1, R39). An event has no words. -/
def encode (i : Instr) : List (BitVec 32) :=
  match encodeScalar i with
  | some w => [w]
  | none =>
    match encodeVector i with
    | some w => [w.extractLsb' 0 32, w.extractLsb' 32 32]
    | none => []

/-- The instruction that the decoder reads from a word of the opcode table: a 32-bit row is a scalar word, a 64-bit row a
vector word. -/
def decodeTableWord (nbits w : Nat) : Option Instr :=
  if nbits = 32 then (decodeScalar (BitVec.ofNat 32 w)).toOption
  else if nbits = 64 then (decodeVector (BitVec.ofNat 64 w)).toOption
  else none

end Sys2Proof
end

