-- ==== Sys2Proof/Machine/Ops.lean ====
section
/-!
DEFINITION. The named operations over registers and memory: reading and writing the hart in focus, drawing a value the manual
leaves open, bytes of the live and the settled image, journal entries and error registers, taking a trap and returning
from one, killing and retiring a hart.
-/

namespace Sys2Proof.Machine

/-! ## Scalar registers -/

/-- A scalar register; s0 reads as zero. -/
def Hart.reg (h : Hart) (r : Reg) : Word := if r = 0 then 0 else h.x[r.toNat]'r.isLt

/-- The hart runs in supervisor mode (R85, R301). -/
def Hart.sup (h : Hart) : Bool := h.sr.status.sv

/-- A hart of the module by its key. -/
def State.hartOf (s : State) (key : Nat) : Option Hart :=
  if s.hart.key = key then some s.hart else findHart s.others key

/-- Every hart slot of the module. -/
def State.harts (s : State) : List Hart := s.hart :: s.others

namespace M

variable {s0 : State}

/-- The hart in focus. -/
def hart : M s0 Hart := do return (← st).hart

/-- Read a scalar register. -/
def rd (r : Reg) : M s0 Word := do return (← hart).reg r

/-- Write a scalar register; a write to s0 is discarded (R84). -/
def setReg (d : Reg) (v : Word) : M s0 PUnit := emit (.reg d v)

/-- The address of the executing word. -/
def pc : M s0 Word := do return (← hart).pc

/-- Set the program counter. -/
def setPc (v : Word) : M s0 PUnit := emit (.pc v)

/-- Go on at the next scalar word. -/
def advance : M s0 PUnit := do setPc ((← pc) + 4)

/-- Change the hart in focus, its scalar registers apart. -/
def modHart (f : Hart → Hart) : M s0 PUnit := do emit (.hart (f (← hart)))

/-- Change the state registers of the hart in focus. -/
def modSr (f : SRegs → SRegs) : M s0 PUnit := modHart fun h => { h with sr := f h.sr }

/-- Change the vector state of the hart in focus. -/
def modVec (f : VecState → VecState) : M s0 PUnit := modHart fun h => { h with vec := f h.vec }

/-- Change the tile of the hart in focus. -/
def modTile (f : Tile → Tile) : M s0 PUnit := modHart fun h => { h with tile := f h.tile }

/-- Change the vector state of a hart slot other than the one in focus, or of the one in focus. -/
def modOther (key : Nat) (f : Hart → Hart) : M s0 PUnit := do
  match (← st).hartOf key with
  | none => pure ⟨⟩
  | some h => emit (.place (f h))

/-- Bring a hart into focus; stutter when it has no slot. -/
def focus (key : Nat) : M s0 PUnit := do
  match (← st).hartOf key with
  | none => stall
  | some _ => emit (.focus key)

/-! ## Values the manual leaves open -/

/-- The number of the next free value. -/
def draw : M s0 Nat := do
  let n := (← st).fresh
  emit (.fresh (n + 1))
  return n

/-- A word that the manual does not define (R5). -/
def freeWord : M s0 Word := do return Config.freeWord (← draw)

/-- The content of a vector register that the manual does not define (R5). -/
def freeVReg : M s0 VReg := do return Config.freeVReg (← draw)

/-- A choice that the manual leaves to the device. -/
def freeBool : M s0 Bool := do return Config.freeBool (← draw)

/-- Time passes: `time` and `cycle` only ever rise (R50). (DESIGN CHOICE, log 4) (DESIGN CHOICE, log 99) -/
def tick : M s0 PUnit := do
  let s ← st
  let n ← draw
  -- `cycle` does not count in Shuttered (R295)
  let held := match s.host.power with
    | .shuttered | .reduced | .off => true
    | _ => false
  emit (.clocks (s.time + BitVec.ofNat 64 (Config.ticks n)) (if held then s.cycle else s.cycle + BitVec.ofNat 64 (Config.cycles n)))

/-! ## Background work -/

/-- Start a background step: it is taken before the harts step again. -/
def push (i : Instr) : M s0 PUnit := do emit (.work ((← st).work ++ [i]))

/-- Change one part of the state. -/
def modImg (f : Images → Images) : M s0 PUnit := do emit (.img (f (← st).img))
/-- Change the in-place engines. -/
def modBank (f : InPlace → InPlace) : M s0 PUnit := do emit (.bank (f (← st).bank))
/-- Change the fabric. -/
def modFab (f : Fabric → Fabric) : M s0 PUnit := do emit (.fab (f (← st).fab))
/-- Change the dispatchers. -/
def modDisp (f : Dispatch → Dispatch) : M s0 PUnit := do emit (.disp (f (← st).disp))
/-- Change the placement engine. -/
def modPlace (f : Placement → Placement) : M s0 PUnit := do emit (.placement (f (← st).place))
/-- Change the host port. -/
def modPort (f : HostPort → HostPort) : M s0 PUnit := do emit (.port (f (← st).host))

end M

/-! ## Physical addresses (R185) -/

/-- The regions of a die's offsets. -/
inductive Region where
  | hbm | linear | lpddr | weights | device | reserved
  deriving DecidableEq, Repr

/-- The home die of a physical address. -/
def homeOf (pa : Nat) : Nat := pa / 2 ^ 45

/-- The region of a physical address. -/
def regionOf (pa : Nat) : Region :=
  let o := pa % 2 ^ 45
  if pa ≥ 2 ^ 48 then .reserved
  else if o < 0x800000000 then .hbm
  else if o < 0x1000000000 then .linear
  else if o < 0x5000000000 then .lpddr
  else if o < 0x5010000000 then .weights
  else if o < 0x6000000000 then .reserved
  else .device

/-- HBM4, on either map. -/
def isHbm (pa : Nat) : Bool := regionOf pa == .hbm || regionOf pa == .linear

/-- Memory that the host reaches (R285). -/
def isHostMem (pa : Nat) : Bool := isHbm pa || regionOf pa == .lpddr

/-- The macro of an address of the weight window, as die × 8,192 + macro (R185). -/
def macroOf (pa : Nat) : Nat := homeOf pa * 8192 + (pa % 2 ^ 45 - 0x5000000000) / 32768

/-- The bank unit of a channel-linear address, as die × 1,024 + channel × 32 + bank (R188). -/
def bankOf (pa : Nat) : Nat :=
  homeOf pa * 1024 + (pa % 2 ^ 45 - 0x800000000) / 2 ^ 30 * 32 + pa / 32 % 32

/-- The state of a macro. -/
def State.macroAt (s : State) (k : Nat) : MacroState :=
  (aget s.bank.macros k).getD
    { retired := false, fails := 0, announced := none, window := false, cal := 0 }

/-! ## The dies of the fabric (R238 to R240) -/

/-- A die has not been removed. -/
def State.alive (s : State) (d : Nat) : Bool :=
  match s.fab.dies.toList[d]? with
  | some f => f.alive
  | none => false

/-- The fabric side of a die. -/
def State.die (s : State) (d : Nat) : DieFab :=
  s.fab.dies.toList.getD d { alive := false, clock := Clock.zero, covered := Clock.zero, echo := Clock.zero, gen := 0 }

/-- An entry that is about to fall 2^15 behind the number n is raised to the oldest number that may not be performed everywhere yet (R242). -/
def clkFresh (c : Clock) (d : Nat) (n : BitVec 16) : Clock :=
  if (n - clkAt c d).toNat ≥ 32767 then clkPut c d (n - 32767#16) else c

/-- A write with number n of die d has not performed over the bytes long enough ago for its number to be misread. -/
def Early.fresh (e : Early) (d : Nat) (n : BitVec 16) : Bool :=
  e.hits.all fun h => h.1 ≠ d || decide ((n - h.2).toNat < 32767)

namespace M

variable {s0 : State}

/-- Change the fabric side of a die. -/
def modDie (d : Nat) (f : DieFab → DieFab) : M s0 PUnit := do
  let x := f ((← st).die d)
  modFab fun fb => { fb with dies := fb.dies.setIfInBounds d x }

/-- A die delivers a request: its clock merges the stamp; its own entry stays the last number it issued (R239, R240). -/
def learnAt (d : Nat) (stamp : Clock) : M s0 PUnit :=
  modDie d fun f => { f with clock := clkPut (clkMerge f.clock stamp) d (clkAt f.clock d) }

/-- What a die knows happens-before what another party of it does next. -/
def learnDie (d from_ : Nat) : M s0 PUnit := do learnAt d ((← st).die from_).clock

/-- Take the next write number of a die; its own covered entry follows, since a write to its own die performs at once or is held
(`State.coveredAt`). -/
def number (d : Nat) : M s0 (BitVec 16) := do
  let n := clkAt ((← st).die d).clock d + 1
  modDie d fun f => { f with clock := clkPut f.clock d n, covered := clkPut f.covered d n }
  modFab fun f => { f with sc := clkFresh f.sc d n }
  modPort fun p => { p with clk := clkFresh p.clk d n }
  each ((← st).harts.filter fun h => h.early.any fun e => !e.fresh d n) fun h =>
    modOther h.key fun h => { h with early := h.early.filter (Early.fresh · d n) }
  return n

end M

/-! ## The caches (R9, R138) -/

/-- The L2 slice that serves an address (R138). -/
def sliceOf (pa : Nat) : Nat := 4 * (pa / 256 % 96) + pa / 64 % 4

/-- The place of a line among caches of its kind: the die for the cellar and the host-line directory, the slice of the die for L2. -/
def cachePlace (la : Nat) : Level → Nat
  | .l1 c => c
  | .l2 => homeOf (64 * la) * 384 + sliceOf (64 * la)
  | .l3 | .host => homeOf (64 * la)

/-- Lines that one cache of a level holds: 64 KiB of L1, 256 KiB of a slice, 512 MiB of cellar (R9); the host-line directory of a die (R286). -/
def cacheLines : Level → Nat
  | .l1 _ => 1024
  | .l2 => 4096
  | .l3 => 8388608
  | .host => 1048576

/-- The cache of a level in which a line would lie has room. -/
def State.cacheRoom (s : State) (la : Nat) (lvl : Level) : Bool :=
  decide ((s.img.cache.filter fun l => l.level == lvl && cachePlace l.addr lvl == cachePlace la lvl).length < cacheLines lvl)

/-- The scalar L1 of a hart: its core, as die × 96 + core, and whether the L1s of the quad are fused (R9, R277). -/
def Hart.l1 (h : Hart) : Nat × Bool := (h.id.did * 96 + h.id.hid / 4, h.id.fused)

/-- The core in whose part of an L1 a line lies: a fused one spreads over its four cores. -/
def l1Core (l1 : Nat × Bool) (la : Nat) : Nat := if l1.2 then l1.1 / 4 * 4 + la % 4 else l1.1

/-- The way of an access through the caches: the scalar L1s that it goes through, the level at which a miss allocates, and whether the host
makes it. -/
structure Path where
  l1 : Option (Nat × Bool)
  alloc : Option Level
  host : Bool
  deriving DecidableEq, Repr

/-- By the home slice, without allocation: an uncached page, an engine, a die. -/
def Path.engine : Path := { l1 := none, alloc := none, host := false }
/-- By the home slice, which allocates. -/
def Path.slice : Path := { l1 := none, alloc := some .l2, host := false }
/-- By the home slice for the host (R285). -/
def Path.ofHost : Path := { l1 := none, alloc := some .l2, host := true }

/-- A way that goes through the L1 in which a line lies leaves it there. -/
def Path.through (p : Path) (la core : Nat) : Bool := p.l1.any fun k => l1Core k la == core

/-- The level at which a line is allocated: where the first choice has no room, the home slice; none without room. -/
def State.allocAt (s : State) (la : Nat) (lvl : Level) : Option Level :=
  if s.cacheRoom la lvl then some lvl else if lvl != .host && s.cacheRoom la .l2 then some .l2 else none

/-! ## The live image -/

/-- A byte of a weight row that holds no weight: bytes 43 to 63 of a row at INT4, 46 to 63 at INT8 (R203). -/
def weightByte (ww : Bool) (i : Nat) (b : Byte) : Byte :=
  if ww then (if i ≥ 46 then 0 else b)
  else if i = 42 then b &&& 0x0F else if i ≥ 43 then 0 else b

/-- The 64 bytes that the arrays give for a line; unused bytes of a weight row come back as zero (R204). -/
def State.arrayLine (s : State) (la : Nat) (ww : Bool) : List Byte :=
  let bs := s.cells.reads (64 * la) 64
  if regionOf (64 * la) == .weights then bs.mapIdx fun i b => weightByte ww i b else bs

/-- A line of the weight window whose content is lost and not yet written again (R375). (DESIGN CHOICE, log 15) -/
def State.weightLost (s : State) (la : Nat) : Bool :=
  s.img.weightsLost && regionOf (64 * la) == .weights && !s.img.weightsBack.contains la

/-- The arrays give poison for a line (R337, R343, R347). -/
def State.arrayPoison (s : State) (la : Nat) : Bool :=
  let pa := 64 * la
  s.img.poison.contains la || s.weightLost la
    || (regionOf pa == .weights && (s.macroAt (macroOf pa)).retired)
    || (regionOf pa == .linear && (s.bank.bfail.contains (bankOf pa) || s.bank.bfail.contains (bankOf (pa + 32))))

/-- A line of the live image as it stands: the cached copy, or what the arrays give. -/
def State.liveLine (s : State) (la : Nat) (ww : Bool) : List Byte :=
  match findLine s.img.cache la with
  | some l => bytesOfLine l.data
  | none => s.arrayLine la ww

/-- A line of the live image holds poison. -/
def State.livePoison (s : State) (la : Nat) : Bool :=
  match findLine s.img.cache la with
  | some l => l.poison || (s.arrayPoison la && !s.img.poison.contains la)
  | none => s.arrayPoison la

/-- n bytes of the live image at a physical address. -/
def State.liveBytes (s : State) (pa n : Nat) (ww : Bool) : List Byte :=
  if n = 0 then [] else
  let las := rangeFrom (pa / 64) ((pa + n - 1) / 64 + 1 - pa / 64)
  ((las.flatMap fun la => s.liveLine la ww).drop (pa % 64)).take n

/-- The value of n bytes of the live image. -/
def State.liveVal (s : State) (pa n : Nat) : Nat := ofBytes (s.liveBytes pa n true)

/-- Some line of a range of the live image holds poison: the first such line. -/
def State.firstPoison (s : State) (pa n : Nat) : Option Nat :=
  if n = 0 then none else
  (rangeFrom (pa / 64) ((pa + n - 1) / 64 + 1 - pa / 64)).find? fun la => s.livePoison la

namespace M

variable {s0 : State}

/-- Bring a clean copy of a line into a cache, unless a copy is held or no cache has room. (DEDUCED, log 17) -/
def fillLine (la : Nat) (lvl : Level) (ww : Bool) : M s0 PUnit := do
  let s ← st
  match findLine s.img.cache la, s.allocAt la lvl with
  | none, some lvl => do
    let l : Line := { addr := la, data := lineOfBytes (s.arrayLine la ww), dirty := 0, poison := s.arrayPoison la, level := lvl,
                      key := aget s.img.keys (la / 4096) }
    modImg fun m => { m with cache := putLine m.cache l }
  | _, _ => pure ⟨⟩

/-- A write has performed over bytes of the live image: reads made ahead of their turn know its number; without one, the last number of the
home die stands for it. (DEDUCED, log 110) -/
def noteHit (pa n : Nat) (num : Option (Nat × BitVec 16)) : M s0 PUnit := do
  let s ← st
  let meets (e : Early) : Bool := decide (e.pa < pa + n) && decide (pa < e.pa + e.bytes.length)
  let hit := num.getD (homeOf pa, clkAt (s.die (homeOf pa)).clock (homeOf pa))
  each (s.harts.filter fun h => h.early.any meets) fun h =>
    modOther h.key fun h => { h with early := h.early.map fun e => if meets e then { e with hits := e.hits ++ [hit] } else e }

/-- No read made ahead of its turn is used any more. -/
def forgetEarly : M s0 PUnit := do
  each ((← st).harts.filter fun h => !h.early.isEmpty) fun h => modOther h.key fun h => { h with early := [] }

/-- Mark a line of the arrays as poison, or clear the mark. -/
def setArrayPoison (la : Nat) (p : Bool) : M s0 PUnit :=
  modImg fun m => { m with
    poison := if p then insertNat m.poison la else m.poison.filter (· ≠ la),
    weightsBack := if !p && m.weightsLost && regionOf (64 * la) == .weights then insertNat m.weightsBack la else m.weightsBack }

/-- Put a line that lies in another cache at its home slice; where the slice has no room it goes down to the arrays, dirty bytes first. -/
def toSlice (la : Nat) : M s0 PUnit := do
  let s ← st
  if s.cacheRoom la .l2 || (regionOf (64 * la) == .weights && (s.macroAt (macroOf (64 * la))).retired) then
    modImg fun m => { m with cache := m.cache.map fun l => if l.addr = la then { l with level := .l2 } else l }
  else
    match findLine s.img.cache la with
    | none => pure ⟨⟩
    | some l => do
      each ((List.range 64).filter fun i => l.dirty.getLsbD i) fun i => emit (.cells (64 * la + i) [l.byte i])
      if l.poison then setArrayPoison la true else if l.dirty = BitVec.allOnes 64 then setArrayPoison la false else pure ⟨⟩
      modImg fun m => { m with cache := delLine m.cache la }
      noteHit (64 * la) 64 none

/-- The home slice recalls a line from a scalar L1 through which the access does not go, dirty bytes included (R94, R138); a line of the cellar
that the host uses comes back to the slice (R285). -/
def recallLine (la : Nat) (p : Path) : M s0 PUnit := do
  match findLine (← st).img.cache la with
  | none => pure ⟨⟩
  | some l => match l.level with
    | .l1 c => if p.through la c then pure ⟨⟩ else toSlice la
    | .l3 => if p.host then toSlice la else pure ⟨⟩
    | _ => pure ⟨⟩

/-- What an access does to the copies of a line before it is served. -/
def openLine (la : Nat) (p : Path) (ww : Bool) : M s0 PUnit := do
  recallLine la p
  match p.alloc with
  | some l => fillLine la l ww
  | none => pure ⟨⟩

/-- Write bytes of one line into the live image: into the copy that is held, into a new copy at the given level, or into the
arrays (R90, R93). A write of all 64 bytes clears poison (R337). -/
def storeLine (la off : Nat) (bs : List Byte) (p : Path) (ww : Bool) : M s0 PUnit := do
  openLine la p ww
  match findLine (← st).img.cache la with
  | some l =>
    let l := l.merge off bs
    let l := if bs.length = 64 then { l with poison := false } else l
    -- a line that the host held is the home slice's once it is written
    let l := if l.level == .host then { l with level := .l2 } else l
    let key := aget (← st).img.keys (la / 4096)
    let l := { l with key := if p.host then none else l.key.orElse fun _ => key }
    modImg fun m => { m with cache := putLine m.cache l, hostOrder := m.hostOrder.filter (· ≠ la) }
    modPort fun p => { p with snoops := p.snoops.filter (· ≠ la) }
  | none =>
    emit (.cells (64 * la + off) bs)
    if bs.length = 64 then setArrayPoison la false else pure ⟨⟩

/-- Another party writes a line: a hart that watches it sees the write (R111). -/
def noteWatch (la : Nat) (writer : Option Nat) : M s0 PUnit := do
  let read (e : Early) : Bool := e.pa / 64 == la && !e.stale
  each ((← st).harts.filter fun h => some h.key != writer && h.early.any read) fun h =>
    modOther h.key fun h => { h with early := h.early.map fun e => if read e then { e with stale := true } else e }
  each ((← st).harts.filter fun h => h.watch == some la && some h.key != writer && !h.watchHit) fun h => do
    modOther h.key fun g => { g with watchHit := true }
    if h.wait == .idle then push .idleWake else pure ⟨⟩

/-- Write bytes of the live image: the hart that writes, and the die and number of the write where it has them. -/
def storeLive (pa : Nat) (bs : List Byte) (p : Path) (ww : Bool) (writer : Option Nat) (num : Option (Nat × BitVec 16)) : M s0 PUnit :=
  each (cutLines pa bs) fun (la, off, b) => do
    storeLine la off b p ww
    noteHit (64 * la + off) b.length num
    noteWatch la writer

/-- Put poison on a line, in the arrays and in every cached copy. -/
def poisonLine (la : Nat) : M s0 PUnit := do
  setArrayPoison la true
  match findLine (← st).img.cache la with
  | some l => modImg fun m => { m with cache := putLine m.cache { l with poison := true } }
  | none => pure ⟨⟩

/-! ## From the live image down to the arrays (R190, R191) -/

/-- Write the masked dirty bytes of a held line to the arrays with byte enables; the copy stays and those bytes are clean.
Poison goes down with the line (R337). -/
def cleanLine (la : Nat) (mask : BitVec 64) : M s0 PUnit := do
  match findLine (← st).img.cache la with
  | none => pure ⟨⟩
  | some l =>
    let todo := l.dirty &&& mask
    each ((List.range 64).filter fun i => todo.getLsbD i) fun i => emit (.cells (64 * la + i) [l.byte i])
    if l.poison then setArrayPoison la true
    else if todo = BitVec.allOnes 64 then setArrayPoison la false else pure ⟨⟩
    modImg fun m => { m with cache := putLine m.cache { l with dirty := l.dirty &&& ~~~mask } }

/-- Write every dirty byte of a line to the arrays and drop the copy (R190, R194). -/
def dropLine (la : Nat) : M s0 PUnit := do
  cleanLine la (BitVec.allOnes 64)
  modImg fun m => { m with cache := delLine m.cache la, hostOrder := m.hostOrder.filter (· ≠ la) }
  noteHit (64 * la) 64 none

/-- Advance the settle count of a frame (R189). -/
def bumpCount (frame : Nat) : M s0 PUnit := do
  let c := (← st).counts
  emit (.counts (aput c frame ((aget c frame).getD 0 + 1)))

/-! ## Error registers and the command journal (R282, R340) -/

/-- An uncorrectable error or a poisoning on a die: UECNT, and UEPA unless it still holds an error. -/
def noteError (die lvl pa : Nat) : M s0 PUnit :=
  modPort fun p =>
    let e := p.errs.toList.getD die .reset
    let e := { e with uecnt := if e.uecnt = BitVec.allOnes 64 then e.uecnt else e.uecnt + 1 }
    let e := if e.uev then e else { e with uev := true, uelvl := lvl, uepa := pa }
    { p with errs := p.errs.setIfInBounds die e }

/-- The level of R340 at which an error of an address lies when the arrays give it. -/
def levelOf (pa : Nat) : Nat :=
  match regionOf pa with
  | .lpddr => 5
  | .weights => 6
  | _ => 4

/-- Write one journal entry: kind, die, VF, queue, record, status and the 48 bits of payload. (DEDUCED, log 96) -/
def journal (kind die vf queue record status payload : Nat) : M s0 PUnit := do
  let s ← st
  let n := s.disp.jhead
  let e := toBytes 8 n.toNat ++ toBytes 2 kind ++ toBytes 1 die ++ toBytes 1 vf ++ toBytes 2 queue ++ toBytes 2 record
    ++ toBytes 2 status ++ toBytes 8 s.time.toNat ++ toBytes 6 payload
  let pa := s.host.jbase + 32 * (n.toNat % 65536)
  -- the entry is a write of CD0 to its own memory: it takes the next number and performs at once (R238, R282)
  let k ← number 0
  if isHbm pa && homeOf pa == 0 then storeLive pa e .engine true none (some (0, k)) else pure ⟨⟩
  modDisp fun d => { d with jhead := n + 1 }
  modPort fun p => if p.linkUp then { p with msix := p.msix ++ [vf, 64] } else p

/-- A report: an entry of kind 0x000B of no queue, of a virtual function or 0. -/
def report (die vf status payload : Nat) : M s0 PUnit := journal 0x000B die vf 0xFFFF 0 status payload

/-- A report that a hart raised: status is the cause, the payload holds `hid` and the low 32 bits of `tval` (R305). -/
def hartReport (h : Hart) (cause : Nat) (tval : Word) : M s0 PUnit :=
  journal 0x000B h.id.did h.id.vf 0xFFFF 0 cause (h.id.hid + 65536 * (tval.toNat % 2 ^ 32))

/-! ## Launch status (R371) -/

end M

/-- Rank of a "launch retired" status: the lower is kept (R371). -/
def statusRank (v : Nat) : Nat :=
  if v = 0x10 then 0 else if v = 0x0E then 1 else if v = 0x13 then 2 else if v = 0 then 9 else 3

/-- Every member of a gang has arrived. -/
def Gang.full (g : Gang) : Bool := (List.range g.size).all fun i => g.barrier.getLsbD i

/-- Every member that has not halted stands at the barrier: none of them is off the cores, or in a handler before it executes its `gbar`
again (R29, R106). -/
def Gang.gathered (g : Gang) (s : State) : Bool :=
  g.areas.isEmpty && g.harts.all fun k => match s.hartOf k with
    | some h => h.phase == .run && h.wait == .barrier
    | none => true

namespace M

variable {s0 : State}

/-- Give a launch a status, unless it has one that comes first. -/
def launchStatus (id v : Nat) : M s0 PUnit :=
  modDisp fun d => { d with launches := d.launches.map fun l =>
    if l.id = id && statusRank v < statusRank l.status then { l with status := v } else l }

/-- The gang of a hart. -/
def gangOf (h : Hart) : M s0 (Option Gang) := do
  return (← st).disp.gangs.find? fun g => g.die == h.id.did && g.gid == h.id.gid

/-- Change a gang. -/
def modGang (die gid : Nat) (f : Gang → Gang) : M s0 PUnit :=
  modDisp fun d => { d with gangs := d.gangs.map fun g => if g.die = die && g.gid = gid then f g else g }

/-- Every member of a gang has arrived at its barrier and waits there: let it be released (R106). -/
def checkBarrier (g : Gang) : M s0 PUnit := do
  match (← st).disp.gangs.find? fun k => k.die == g.die && k.gid == g.gid with
  | none => pure ⟨⟩
  | some g => if g.full && g.gathered (← st) then push .barrierRelease else pure ⟨⟩

/-! ## Retiring and killing a hart (R26, R114, R319) -/

/-- The hart in focus retires: its matrix unit is detached, it counts as arrived at every later barrier, and its gang
retires with its last hart. What it has learned happens-before the launch's completion flag (R219). -/
def retireHart : M s0 PUnit := do
  let h ← hart
  learnAt h.id.did h.sr.vclk
  modHart fun h => { h with
    phase := .halted, wait := .none, queue := [], ctx := none, held := none, aside := none, tile := .reset,
    early := [], sr := { h.sr with mgrant := 0, mmode := false } }
  match ← gangOf h with
  | none => pure ⟨⟩
  | some g =>
    modGang g.die g.gid fun g => { g with
      halted := g.halted + 1, harts := g.harts.filter (· ≠ h.key), barrier := g.barrier ||| BitVec.ofNat 64 (2 ^ h.id.gidx) }
    if g.halted + 1 ≥ g.size then push .gangRetire
    else if g.barrier.toNat ≠ 0 then checkBarrier g else pure ⟨⟩

/-- Vector state that nothing defines (R5). -/
def freeVec : M s0 VecState := do
  let vs ← collect (List.range 32) fun _ => freeVReg
  let ms ← collect (List.range 8) fun _ => freeVReg
  let qs ← collect (List.range 8) fun _ => freeWord
  let b0 ← collect (List.range 8) fun _ => freeVReg
  let b1 ← collect (List.range 8) fun _ => freeVReg
  let group (l : List VReg) : Bracket := BitVec.ofNat 65536 (l.foldr (fun r n => r.toNat + 2 ^ 8192 * n) 0)
  return { v := Vector.ofFn fun i => vs.getD i.val 0, m := Vector.ofFn fun i => ms.getD i.val 0,
           vq := Vector.ofFn fun i => qs.getD i.val 0, blo := group b0, bhi := group b1 }

/-- Kill the hart in focus (R32, R319): the cause that led to it, 0 for none. (DEDUCED, log 34) (DESIGN CHOICE, log 108) -/
def killHart (led : BitVec 8) : M s0 PUnit := do
  let v ← freeVec
  modHart fun h => { h with
    wait := .none, queue := [], ctx := none, held := none, aside := none, tile := .reset, vec := v,
    streams := h.streams.map fun k => { k with xfer := none },
    svBound := none,
    sr := { h.sr with
      vl := 0, vown := 0, mgrant := 0, mmode := false, cause := 0x13, tval := led.setWidth 64,
      status := { h.sr.status with sv := true, blk := false, spl := false, xf := false, walk := false } } }
  let h ← hart
  match ← gangOf h with
  | some g => launchStatus g.launch 0x13
  | none => pure ⟨⟩
  if h.sr.kexit = 0 then retireHart else setPc h.sr.kexit

/-! ## Taking a trap (R302, R303) -/

end M

/-- Mark or unmark the entry of a loop context (R303). -/
def LoopCtx.setMark (b : Bool) (c : LoopCtx) : LoopCtx := { c with entry := { c.entry with mark := b } }

/-- Mark or unmark the block to which a transfer in flight belongs (R303). -/
def Stream.setMark (b : Bool) (k : Stream) : Stream :=
  { k with xfer := k.xfer.map fun t => { t with at_ := t.at_.map (LoopCtx.setMark b) } }

namespace M

variable {s0 : State}

/-- Enter the handler with cause c, trap value v and address a: every queue entry present is marked (R303). -/
def enterHandler (c : BitVec 8) (v a : Word) (vec : Bool) : M s0 PUnit := do
  modHart fun h => { h with
    queue := h.queue.map fun e => { e with mark := true },
    ctx := h.ctx.map (LoopCtx.setMark true),
    streams := h.streams.map (Stream.setMark true),
    sr := { h.sr with
      cause := c, tval := v, epc := a,
      status := { h.sr.status with psv := h.sr.status.sv, sv := true, vs := vec } } }
  setPc (← hart).sr.tvec

/-- The hart in focus takes a trap at a scalar instruction boundary (R302): with `tvec` = 0 it is killed. -/
def takeTrap (c : BitVec 8) (v a : Word) (vec : Bool) : M s0 PUnit := do
  if (← hart).sr.tvec = 0 then killHart c else enterHandler c v a vec

/-- The executing scalar word traps: nothing of it takes effect, what the hart's clock has merged on the way among it (R84). -/
def trap {α : Type} (c : BitVec 8) (v : Word) : M s0 α := do
  let h ← hart
  modSr fun r => { r with vclk := ((s0.hartOf h.key).getD h).sr.vclk }
  takeTrap c v (← pc) false
  done

/-! ## Returning from a trap (R309) -/

/-- `tret`: the mode from PSV; then the set-aside trap, the held image, or `epc`. (DEDUCED, log 30) (DEDUCED, log 92) -/
def returnFromTrap : M s0 PUnit := do
  let h ← hart
  let mode := h.sr.status.psv
  modSr fun r => { r with status := { r.status with sv := mode, psv := false } }
  match h.aside with
  | some a =>
    let back := match h.held with
      | some k => k.resume
      | none => h.sr.epc
    modHart fun h => { h with
      aside := none, held := some { ctx := a.ctx, behind := a.behind, resume := back },
      sr := { h.sr with status := { h.sr.status with blk := true, spl := a.spl, xf := a.xf } } }
    takeTrap a.cause a.tval a.epc true
  | none =>
    let clear (l : List QEntry) : List QEntry := l.map fun e => { e with mark := false }
    match h.held with
    | some k => do
      -- the block may go on with the words that were fetched for it, or be fetched again (R113)
      let again ← if (k.ctx.map fun c => c.words.isEmpty).getD true then pure true else freeBool
      modHart fun h => { h with
        held := none,
        ctx := k.ctx.map (fun c => { c.setMark false with words := if again then [] else c.words }),
        streams := h.streams.map (Stream.setMark false),
        queue := clear k.behind ++ clear h.queue,
        sr := { h.sr with status := { h.sr.status with blk := false, spl := false, xf := false } } }
      setPc k.resume
    | none =>
      modHart fun h => { h with
        queue := clear h.queue, ctx := h.ctx.map (LoopCtx.setMark false), streams := h.streams.map (Stream.setMark false) }
      setPc h.sr.epc

end M

end Sys2Proof.Machine
end

