-- ==== Sys2Proof/Machine/Access.lean ====
section
/-!
DEFINITION. How an access reaches memory: the three-level walk and the translation caches, the checks of R91 in their order,
device registers by address, write numbers and coverage, and the access itself, on the hart's own die or across the
fabric.
-/

namespace Sys2Proof.Machine

/-! ## Walks (R186, R334) -/

/-- What a walk gives. -/
inductive WalkRes where
  | leaf (l : Leaf)
  | fault
  /-- the page table entry at pa holds poison -/
  | poison (pa : Nat)
  deriving DecidableEq, Repr

/-- Fields of a page table entry: HOME and PFN. -/
def pteHome (e : Nat) : Nat := bits e 63 61
/-- The next table of a table pointer: PA[47:15]. -/
def pteNext (e : Nat) : Nat := bits e 47 15 * 2 ^ 15
/-- The frame of a leaf: PA[47:18]. -/
def pteFrame (e : Nat) : Nat := bits e 47 18 * 2 ^ 18
/-- SZ. -/
def pteSz (e : Nat) : Nat := bits e 9 8
/-- V. -/
def pteValid (e : Nat) : Bool := bitAt e 0

/-- The leaf of an entry of the given size, or a fault where R186 and R188 refuse it. -/
def leafOf (e size pte : Nat) : WalkRes :=
  let base := pteFrame e
  let region := regionOf base
  let wset := bits e 59 48
  let cc := bitAt e 5
  let pin := bitAt e 6
  if pteHome e ≠ homeOf base || region == .reserved then .fault
  else if (region == .weights) ≠ (wset ≠ 0) then .fault
  else if base % size ≠ 0 then .fault
  else if cc && !(pin && pteSz e = 1 && region == .linear) then .fault
  else .leaf
    { base := base, size := size, home := pteHome e, ww := bitAt e 60, wset := wset, tkey := bits e 17 12, sh := bitAt e 7,
      pin := pin, cc := cc, wb := bitAt e 4, x := bitAt e 3, w := bitAt e 2, r := bitAt e 1, pte := pte }

/-- Read one entry of a table: none where the table does not lie in memory. -/
def State.pte (s : State) (table i : Nat) : Option Nat :=
  let pa := table + 8 * i
  if isHostMem pa then some (s.liveVal pa 8) else none

/-- Follow a table pointer to the next table, or none. -/
def tablePointer (e : Nat) : Option Nat :=
  if pteValid e && pteSz e = 3 && pteHome e = homeOf (pteNext e) then some (pteNext e) else none

/-- The eight level-3 entries of a 2 MiB page hold identical fields (the reserved bits 11:10 apart). -/
def State.agree (s : State) (table i e : Nat) : Bool :=
  let f (v : Nat) := (v / 2 ^ 12, v % 2 ^ 10)
  (rangeFrom (i / 8 * 8) 8).all fun j =>
    match s.pte table j with
    | some v => f v == f e
    | none => false

/-- The walk of a virtual address from a root (R186). -/
def State.walkFrom (s : State) (root va : Nat) : WalkRes :=
  let i1 := bits va 53 42
  let i2 := bits va 41 30
  let i3 := bits va 29 18
  if va ≥ 2 ^ 54 then .fault else
  if s.livePoison ((root + 8 * i1) / 64) then .poison (root + 8 * i1) else
  match (s.pte root i1).bind tablePointer with
  | none => .fault
  | some t2 =>
    if s.livePoison ((t2 + 8 * i2) / 64) then .poison (t2 + 8 * i2) else
    match s.pte t2 i2 with
    | none => .fault
    | some e2 =>
      if !pteValid e2 then .fault
      else if pteSz e2 = 2 then leafOf e2 (2 ^ 30) (t2 + 8 * i2)
      else match tablePointer e2 with
        | none => .fault
        | some t3 =>
          if s.livePoison ((t3 + 8 * i3) / 64) then .poison (t3 + 8 * i3) else
          match s.pte t3 i3 with
          | none => .fault
          | some e3 =>
            if !pteValid e3 then .fault
            else if pteSz e3 = 0 then leafOf e3 (2 ^ 18) (t3 + 8 * i3)
            else if pteSz e3 = 1 then
              if s.agree t3 i3 e3 then leafOf e3 (2 ^ 21) (t3 + 8 * (i3 / 8 * 8)) else .fault
            else .fault

/-- The walk of an address in the space of a virtual function (R186, R290). -/
def State.walk (s : State) (vf va : Nat) : WalkRes :=
  s.walkFrom ((s.host.vfs.toList.getD vf { en := false, root := 0, tkey := 0 }).root) va

/-- The cached walks of a page (R187). -/
def State.tlbOf (s : State) (vf va : Nat) : List (Option Leaf) :=
  (s.img.tlb.filter fun t => t.vf == vf && t.page == va / 2 ^ 18).map (·.leaf)

/-- The physical address of va under a leaf. -/
def Leaf.pa (l : Leaf) (va : Nat) : Nat := l.base + va % l.size

/-- What a walk leaves in a translation cache: nothing where an entry holds poison. -/
def WalkRes.cached : WalkRes → Option (Option Leaf)
  | .leaf l => some (some l)
  | .fault => some none
  | .poison _ => none

/-- What a cached walk gives. -/
def walkOfCached : Option Leaf → WalkRes
  | some l => .leaf l
  | none => .fault

/-! ## Checks (R91) -/

/-- Kinds of access. -/
inductive Kind where
  | load | store | atomic | fetch
  deriving DecidableEq, Repr

/-- The permission a kind needs: an atomic needs both (R94). -/
def Leaf.allows (l : Leaf) : Kind → Bool
  | .load => l.r
  | .store => l.w
  | .atomic => l.r && l.w
  | .fetch => l.x

/-- An access whose checks have passed. -/
structure Acc where
  va : Nat
  pa : Nat
  leaf : Leaf
  deriving DecidableEq, Repr

/-- The tenant key index of a virtual function (R288). -/
def State.tenantOf (s : State) (vf : Nat) : Nat :=
  (s.host.vfs.toList.getD vf { en := false, root := 0, tkey := 0 }).tkey

/-- A key slot holds a key (R200). (DEDUCED, log 94) -/
def State.hasKey (s : State) (t : Nat) : Bool :=
  ((s.host.keys.toList.getD t { key := 0, loaded := none }).loaded).isSome

/-- The first 8 TiB window of each die that holds its table (R250). -/
def inTable (pa : Nat) : Bool := decide (pa % 2 ^ 45 ≥ 0x6010000000) && decide (pa % 2 ^ 45 < 0x6020000000)

/-- The checks of R91 after alignment, given the result of the translation: the cause that the access takes. -/
def State.checkLeaf (s : State) (tenant : Nat) (va n : Nat) (k : Kind) (w : WalkRes) : Except (BitVec 8) Acc :=
  match w with
  | .fault => .error 0x04
  | .poison _ => .error 0x0E
  | .leaf l =>
    let pa := l.pa va
    if regionOf pa == .reserved || homeOf (pa + n - 1) ≠ l.home then .error 0x04
    else if !l.allows k || (inTable pa && k ≠ .load && k ≠ .fetch) then .error 0x05
    else if (l.tkey ≠ tenant && !l.sh) || !s.hasKey l.tkey then .error 0x06
    else if !s.alive l.home then .error 0x10
    else .ok { va := va, pa := pa, leaf := l }

namespace M

variable {s0 : State}

/-- One of the cached walks of a page, or the walk as the tables stand: the device chooses. -/
def pickWalk (now : WalkRes) : List (Option Leaf) → M s0 WalkRes
  | [] => return now
  | old :: l => do
    if some old = now.cached then pickWalk now l
    else if ← freeBool then return walkOfCached old
    else pickWalk now l

/-- Translate an address: until a shootdown every access may use an old entry or the page tables, whatever another access used (R187). What
was used stays cached beside what was cached before. An uncorrectable error in an entry is noted (R334, R340). (DEDUCED, log 18) (DEDUCED, log 91) -/
def translate (vf va : Nat) : M s0 WalkRes := do
  let s ← st
  let used ← pickWalk (s.walk vf va) (s.tlbOf vf va)
  match used.cached with
  | none => pure ⟨⟩
  | some l =>
    let e : TlbEntry := { vf := vf, page := va / 2 ^ 18, leaf := l }
    modImg fun m => { m with tlb := if m.tlb.contains e then m.tlb else e :: m.tlb }
  match used with
    | .poison pa => noteError (homeOf pa) (levelOf pa) pa
    | _ => pure ⟨⟩
  return used

/-- The checks of R91 in the space of a virtual function and for a tenant: the cause, or the access. -/
def checkAs (vf tenant : Nat) (va : Word) (n : Nat) (k : Kind) : M s0 (Except (BitVec 8) Acc) := do
  if va.toNat % n ≠ 0 then return .error 0x03
  let w ← translate vf va.toNat
  let r := (← st).checkLeaf tenant va.toNat n k w
  match r with
  | .ok a => modImg fun m => { m with keys := aput m.keys (a.pa / 2 ^ 18) a.leaf.tkey }
  | .error _ => pure ⟨⟩
  return r

/-- The checks of R91 for the hart in focus. -/
def check (va : Word) (n : Nat) (k : Kind) : M s0 (Except (BitVec 8) Acc) := do
  let h ← hart
  checkAs h.id.vf h.id.tenant va n k

/-- Check, and trap with `tval` := the address where a check fails. -/
def checkOr (va : Word) (n : Nat) (k : Kind) : M s0 Acc := do
  match ← check va n k with
  | .ok a => return a
  | .error c => trap c va

/-! ## Write numbers and coverage (R238 to R242) -/

/-- The four watermark steps that refresh what two dies know of each other. -/
def pushMarks (i j : Nat) : M s0 PUnit := do
  push (.watermarkSend i j)
  push (.watermarkReceive i j)
  push (.watermarkSend j i)
  push (.watermarkReceive j i)

end M

/-- covered_d[i]. The own entry is the performed-watermark: it stays below the first write of the die that is held at a tail word (R240,
R263). -/
def State.coveredAt (s : State) (d i : Nat) : BitVec 16 :=
  let c := clkAt (s.die d).covered i
  if i ≠ d then c
  else s.place.tails.foldl (fun c t => match t.num with
    | some (k, m) => if t.die = d && k = d && geClk c m then m - 1 else c
    | none => c) c

/-- Dies whose coverage at d falls short of a stamp (R240). -/
def State.uncovered (s : State) (d : Nat) (stamp : Clock) (skip : Nat → Bool) : List Nat :=
  (List.range 8).filter fun i =>
    !skip i && (s.alive i || i == d) && !geClk (s.coveredAt d i) (clkAt stamp i)

/-- Dies whose echo holds the next k numbers of die d back (R242). -/
def State.windowShut (s : State) (d k : Nat) : List Nat :=
  (List.range 8).filter fun i =>
    i ≠ d && s.alive i && decide ((clkAt (s.die d).clock d - clkAt (s.die d).echo i).toNat + k > 32767)

namespace M

variable {s0 : State}

/-- The next k numbers of a die lie in the window of R242; otherwise the step ends and watermarks are exchanged. -/
def needWindow (d k : Nat) : M s0 PUnit := do
  match (← st).windowShut d k with
  | j :: _ => do
    pushMarks d j
    done
  | [] => pure ⟨⟩

/-- Start what supplies missing coverage at a die (R241, R243): the packets of the source are delivered, the die probes the
source, and the source answers with a watermark. (DEDUCED, log 43) -/
def pushCoverage (home j : Nat) : M s0 PUnit := do
  let n := (((← st).fab.chans.filter fun c => c.src == j && c.dst == home).map fun c => c.reqs.length).sum
  each (List.range n) fun _ => push (.packetDelivery j home)
  push (.probeSend home j)
  push (.probeReceive home j)
  push (.watermarkReceive j home)

/-- An access of the hart to its own die waits until a clock is covered (R240): the die probes what is missing. -/
def needCoveredBy (c : Clock) : M s0 PUnit := do
  let d := (← hart).id.did
  match (← st).uncovered d c (fun _ => false) with
  | [] => pure ⟨⟩
  | j :: _ => do
    if j = d then push .tailExamination else pushCoverage d j
    done

/-- The hart's own clock is covered at its die. -/
def needCovered : M s0 PUnit := do needCoveredBy (← hart).sr.vclk

/-- Merge a clock into the hart's clock (R239). -/
def mergeClk (c : Clock) : M s0 PUnit := modSr fun r => { r with vclk := clkMerge r.vclk c }

/-- Merge the clock of the hart's own die into the hart's clock (R239). -/
def mergeDie : M s0 PUnit := do mergeClk ((← st).die (← hart).id.did).clock

/-- A numbered packet of the hart: its own entry becomes the number (R239). -/
def hartNumber : M s0 (BitVec 16) := do
  let d := (← hart).id.did
  let n ← number d
  modSr fun r => { r with vclk := clkPut r.vclk d n }
  return n

/-- The writes of the hart's vector stream up to a clock are known to it. -/
def learnVec (c : Clock) : M s0 PUnit := modHart fun h => { h with vknown := clkMerge h.vknown c }

end M

/-! ## Channels (R236, R243, R245) -/

/-- A channel on which nothing has been sent. -/
def Channel.empty (src dst : Nat) : Channel :=
  { src := src, dst := dst, reqs := [], held := 0, next := 0, got := 0, answers := 0, retry := [], resps := [], marks := [], probes := 0, replays := [],
    retrains := 0, retraining := false }

/-- The channel from one die to another. -/
def State.chan (s : State) (src dst : Nat) : Channel :=
  (s.fab.chans.find? fun c => c.src == src && c.dst == dst).getD (.empty src dst)

/-- The receiver has accepted the flit with a sequence number already (R245). -/
def Channel.accepted (c : Channel) (q : BitVec 12) : Bool :=
  decide (1 ≤ (c.got - q).toNat) && decide ((c.got - q).toNat ≤ 2048)

/-- A packet is sent: it takes the next sequence number and is kept for a replay (R245). -/
def Channel.send (c : Channel) (p : Packet) : Channel :=
  let p := { p with seq := c.next }
  { c with reqs := c.reqs ++ [p], retry := c.retry ++ [p], next := c.next + 1 }

/-- A response is sent. -/
def Channel.answer (c : Channel) (r : Response) : Channel :=
  { c with resps := c.resps ++ [{ r with seq := c.answers }], answers := c.answers + 1 }

/-- The next flit of the channel arrives while the packet at its head cannot be delivered: it takes one of the 16 holding buffers, and a
flit that was accepted before is discarded (R243, R245). -/
def Channel.takeIn (c : Channel) : Channel :=
  match c.reqs[c.held]? with
  | none => c
  | some p =>
    if c.held ≥ 16 then c
    else if c.accepted p.seq then { c with reqs := c.reqs.eraseIdx c.held }
    else { c with held := c.held + 1, got := p.seq + 1 }

/-- A flit of the other direction has arrived: it acknowledges every packet that was accepted until then (R245, R357). -/
def Channel.acked (c : Channel) : Channel := { c with retry := c.retry.filter fun p => !c.accepted p.seq }

/-- The packet at the head is delivered. -/
def Channel.deliver (c : Channel) (p : Packet) : Channel :=
  { c with reqs := c.reqs.drop 1, held := c.held - 1, got := if c.held = 0 then p.seq + 1 else c.got }

namespace M

variable {s0 : State}

/-- Change the channel from one die to another. -/
def modChan (src dst : Nat) (f : Channel → Channel) : M s0 PUnit :=
  modFab fun b =>
    if b.chans.any fun c => c.src == src && c.dst == dst then
      { b with chans := b.chans.map fun c => if c.src = src && c.dst = dst then f c else c }
    else { b with chans := b.chans ++ [f (.empty src dst)] }

/-- A flit from a die arrives at another one and acknowledges what that one has sent to it. -/
def acknowledge (src dst : Nat) : M s0 PUnit :=
  modFab fun b => { b with chans := b.chans.map fun c => if c.src = dst && c.dst = src then c.acked else c }

/-- Put a request packet on the channel from one die to another. -/
def sendPacket (src dst : Nat) (p : Packet) : M s0 PUnit := do
  modChan src dst (Channel.send · p)
  push (.packetDelivery src dst)

/-- The channel from a die to a home takes k request packets: the shutter is open, and no more than 2,048 flits are unacknowledged (R243, R357).
Otherwise the step ends and its packets are taken up. -/
def needOpen (d home k : Nat) : M s0 PUnit := do
  let c := (← st).chan d home
  if d ≠ home && (c.held ≥ 16 || c.retry.length + k > 2048) then
    push (.packetDelivery d home)
    if c.reqs.isEmpty then
      push (.watermarkSend home d)
      push (.watermarkReceive home d)
    done
  else pure ⟨⟩

/-! ## Registered tails (R261, R263) -/

end M

/-- The inbox die and source die whose tail word an address is. -/
def State.tailAt (s : State) (pa : Nat) : Option (Nat × Nat) :=
  let d := homeOf pa
  match (s.place.tables.toList.getD d .reset).inbox with
  | none => none
  | some b => if b ≤ pa && pa < b + 512 && (pa - b) % 64 = 0 then some (d, (pa - b) / 64) else none

namespace M

variable {s0 : State}

/-- A store to the device area writes registers (R289): each aligned 8 bytes as one register write, of the virtual function of the hart that
stores, before anything else happens. -/
def deviceStore (pa : Nat) (bs : List Byte) (writer : Option Nat) : M s0 PUnit := do
  let s ← st
  let fn := (writer.bind s.hartOf).elim 65 fun h => h.id.vf
  each (rangeFrom (pa / 8) ((pa + bs.length + 7) / 8 - pa / 8)) fun w => do
    let lo := max pa (8 * w)
    let hi := min (pa + bs.length) (8 * w + 8)
    push (.registerWrite ⟨fn, lo⟩ (hi - lo) (BitVec.ofNat 64 (ofBytes ((bs.drop (lo - pa)).take (hi - lo)))))

/-- Hold a store to a tail word. -/
def holdTail (t : TailStore) : M s0 PUnit := do
  modPlace fun p => { p with tails := p.tails ++ [t] }
  push .tailExamination

end M

/-- Bytes of a store, cut at the aligned 8-byte words: word, offset, bytes. -/
def cutWords (pa : Nat) (bs : List Byte) : List (Nat × Nat × List Byte) :=
  (rangeFrom (pa / 8) ((pa + bs.length + 7) / 8 - pa / 8)).map fun w =>
    let lo := max pa (8 * w)
    let hi := min (pa + bs.length) (8 * w + 8)
    (w, lo - 8 * w, (bs.drop (lo - pa)).take (hi - lo))

namespace M

variable {s0 : State}

/-- A store performs at the home of its bytes; the bytes that it stores to a registered tail word are held for examination (R263). -/
def performStore (pa : Nat) (bs : List Byte) (p : Path) (ww : Bool) (writer : Option Nat) (num : Option (Nat × BitVec 16)) :
    M s0 PUnit := do
  if regionOf pa == .device then deviceStore pa bs writer
  else
    let s ← st
    if (cutWords pa bs).any fun c => (s.tailAt (8 * c.1)).isSome then
      each (cutWords pa bs) fun (w, off, b) =>
        match s.tailAt (8 * w) with
        | some (d, src) => holdTail { die := d, src := src, off := off, bytes := b, done := 0, writer := writer, num := num, post := none }
        | none => storeLive (8 * w + off) b p ww writer num
    else storeLive pa bs p ww writer num

end M

/-- The 8 bytes of a tail word once a held store has performed. -/
def TailStore.onto (t : TailStore) (old : List Byte) : List Byte := old.take t.off ++ t.bytes ++ old.drop (t.off + t.bytes.length)

/-- The held stores of a lane, in order. -/
def State.heldTails (s : State) (die lane : Nat) : List TailStore := s.place.tails.filter fun t => t.die == die && t.src == lane

/-- The 8 bytes of a tail word behind all its held stores. -/
def State.tailBytes (s : State) (die lane pa : Nat) : List Byte :=
  (s.heldTails die lane).foldl (fun bs t => t.onto bs) (s.liveBytes pa 8 false)

/-- A store of a hart to a tail word that has not performed: in a channel, or held (none). -/
def State.tailPending (s : State) (key : Nat) : Option (Option (Nat × Nat)) :=
  let isTail (pa n : Nat) : Bool := (cutWords pa (List.replicate n 0)).any fun c => (s.tailAt (8 * c.1)).isSome
  let meets (p : Packet) : Bool := p.hart == key && (match p.op with
    | .store bs _ => isTail p.pa bs.length
    | .atomic _ n _ _ _ => isTail p.pa n
    | .load _ _ => false)
  match s.fab.chans.find? fun c => c.reqs.any meets with
  | some c => some (some (c.src, c.dst))
  | none => if s.place.tails.any fun t => t.writer == some key then some none else none

namespace M

variable {s0 : State}

/-- A store of the hart to a tail word performs before anything that the hart orders behind it (R217, R263). (DEDUCED, log 111) -/
def needTails : M s0 PUnit := do
  match (← st).tailPending (← hart).key with
  | none => pure ⟨⟩
  | some none => do
    push .tailExamination
    done
  | some (some (i, j)) => do
    push (.packetDelivery i j)
    done

end M

/-! ## Device registers by address (R250, R271, R289 to R291, R294, R299, R340, R378) -/

/-- A replica entry as 16 bytes (R251). -/
def Replica.bytes (r : Replica) : List Byte :=
  toBytes 8 r.base.toNat ++ toBytes 4 (r.die + (if r.weights then 8 else 0) + 16 * r.state) ++ toBytes 4 r.len

/-- 8 bytes of a bank at an offset (R250). -/
def Bank.word (b : Bank) (o : Nat) : Nat :=
  if o = 0 then b.version.toNat + 2 ^ 32 * b.experts
  else if o = 8 then b.seedTable.toNat
  else if o < 64 then 0
  else match aget b.entries ((o - 64) / 16) with
    | none => 0
    | some r => ofBytes ((r.bytes.drop (o % 16)).take 8)

/-- A pair of 32-bit counters (R250). -/
def counterWord (l : List (Nat × BitVec 32)) (i : Nat) : Nat :=
  ((aget l i).getD 0).toNat + 2 ^ 32 * ((aget l (i + 1)).getD 0).toNat

/-- 8 bytes of the table window of a die (R250). -/
def DieTable.word (t : DieTable) (o : Nat) : Nat :=
  if o = 0 then t.version.toNat
  else if o = 8 then t.grace.toNat
  else if o = 16 then t.redirect.toNat
  else if 0x200000 ≤ o && o < 0x300040 then t.bank0.word (o - 0x200000)
  else if 0x400000 ≤ o && o < 0x500040 then t.bank1.word (o - 0x400000)
  else if 0x800000 ≤ o && o < 0x808000 then counterWord t.cur ((o - 0x800000) / 4)
  else if 0x808000 ≤ o && o < 0x810000 then counterWord t.prev ((o - 0x808000) / 4)
  else 0

/-- The queue register of local queue j of a die (R290). -/
def State.queueReg (s : State) (d j : Nat) : Nat :=
  match s.disp.queues.find? fun q => q.q == 4096 * d + j with
  | none => 0
  | some q =>
    (if q.vf.isSome then 2 ^ 63 else 0) + q.next * 2 ^ 16 + q.busy.length * 2 ^ 8 + q.field

/-- A VF register (R290). (DEDUCED, log 88) -/
def State.vfReg (s : State) (v o : Nat) : Nat :=
  match s.host.vfs.toList[v]? with
  | none => 0
  | some f => if o = 0 then (if f.en then 2 ^ 63 else 0) + f.root + f.tkey else 0

/-- The state of the module as STATE shows it (R291). -/
def Power.code : Power → Nat
  | .run => 0
  | .entering => 1
  | .shuttered => 2
  | .leaving => 3
  | .reduced => 2
  | .leavingReduced => 3
  | .off => 0
  | .failed => 0

/-- A module control register (R291, R369). -/
def State.controlReg (s : State) (o : Nat) : Nat :=
  if o = 0x00 then s.host.shoot.toNat
  else if o = 0x08 then s.host.power.code + (if s.host.pin then 256 else 0)
  else if o = 0x10 then s.host.jbase
  else if o = 0x18 then (if s.host.power == .failed then 2 ^ 64 - 1 else s.disp.jhead.toNat)
  else if o = 0x20 then s.host.hcbase
  else if o = 0x28 then s.host.hctail
  else if o = 0x30 then s.host.hchead
  else 0

/-- A monitor register (R299, R378). -/
def Monitor.reg (m : Monitor) (o : Nat) : Nat :=
  if o = 0 then m.ctl.toNat
  else if o = 0x08 then m.min.toNat
  else if o = 0x10 then m.max.toNat
  else if o = 0x18 then m.count.toNat
  else if o = 0x20 then m.sum.toNat
  else if o = 0x28 then m.thresh.toNat
  else if o = 0x30 then (if m.fired then 1 else 0) + (if m.aen then 2 else 0)
  else if 0x40 ≤ o && o < 0xC0 then (m.bins.toList.getD ((o - 0x40) / 8) 0).toNat
  else 0

/-- A gang is admitted on a die, or on core island i of it: quads 4i to 4i + 3 (R293). -/
def State.gangOn (s : State) (d : Nat) (i : Option Nat) : Bool :=
  s.disp.gangs.any fun g => g.die == d && (match g.phase with | .run | .stopping _ => true | _ => false)
    && (i.all fun i => g.hids.any fun h => h / 64 == i)

/-- Work is pending on a die for addresses that a test accepts: settles, requests that come over the fabric, bank requests and
reductions. -/
def State.pendingAt (s : State) (d : Nat) (p : Nat → Bool) : Bool :=
  (s.img.settling.any fun g => homeOf (g.frame * 2 ^ 18) == d && p (g.frame * 2 ^ 18))
    || (s.fab.chans.any fun c => c.dst == d && c.reqs.any fun q => p q.pa)
    || (s.bank.reqs.any fun r => homeOf r.pa == d && p r.pa)
    || ((s.bank.bred ++ s.bank.xmerge).any fun r => r.1 == d && p (d * 2 ^ 45))

/-- Flits are under way on a channel that a test accepts. -/
def State.traffic (s : State) (p : Channel → Bool) : Bool :=
  s.fab.chans.any fun c => p c && !(c.reqs.isEmpty && c.resps.isEmpty && c.marks.isEmpty && c.probes == 0)

/-- An island of a die, in the order of R294, has no admitted gang and no pending work. (DEDUCED, log 45) -/
def State.islandIdle (s : State) (d i : Nat) : Bool :=
  if i < 6 then !s.gangOn d (some i)
  else !s.gangOn d none && !(
    if i < 10 then (s.pendingAt d fun pa => regionOf pa == .device) || (s.img.settling.any fun g => homeOf (g.frame * 2 ^ 18) == d)
      || (s.fab.chans.any fun c => c.dst == d && c.reqs.any fun q => q.pa / 64 % 4 == i - 6)
    else if i < 12 then s.img.settling.any fun g => homeOf (g.frame * 2 ^ 18) == d
    else if i < 14 then (s.pendingAt d fun pa => regionOf pa == .weights)
      || (s.bank.macros.any fun p => p.2.window && p.1 / 8192 == d && p.1 % 8192 / 4096 == i - 12)
    else if i = 14 then (s.disp.launches.any fun l => l.die == d) || (s.disp.queues.any fun q => q.q / 4096 == d && !q.latched.isEmpty)
    else if i = 15 then s.traffic fun c => c.src == d || c.dst == d
    else if i = 16 then s.pendingAt d isHbm
    else s.pendingAt d fun pa => regionOf pa == .lpddr)

/-- An island of the module, in the order of R294, has no admitted gang and no pending work; the control island never gates. (DEDUCED, log 45) -/
def State.moduleIdle (s : State) (i : Nat) : Bool :=
  if i < 8 then !s.gangOn i none && !s.pendingAt i isHbm
  else if i < 12 then (rangeFrom (2 * (i - 8)) 2).all fun d => !s.gangOn d none && !s.pendingAt d fun pa => regionOf pa == .lpddr
  else if i < 14 then !(s.traffic fun c => (c.src + c.dst) % 2 == i - 12)
  else if i = 14 then s.host.hchead == s.host.hctail && s.host.snoops.isEmpty && s.host.hcBusy.isNone
  else false

/-- The island status registers (R294): a bit is 1 while its island has gated and stays idle. -/
def State.islandReg (s : State) (d o : Nat) : Nat :=
  let shown (n : Nat) (bit idle : Nat → Bool) : Nat := ((List.range n).map fun i => if bit i && idle i then 2 ^ i else 0).sum
  if o = 0x0100 then shown 18 ((s.host.gated.toList.getD d 0).getLsbD ·) (s.islandIdle d)
  else if o = 0x0108 && d = 0 then shown 16 (s.host.gatedModule.getLsbD ·) s.moduleIdle
  else 0

/-- The error registers and BFAIL of a die (R340). -/
def State.errReg (s : State) (d o : Nat) : Nat :=
  let e := s.host.errs.toList.getD d .reset
  if o = 0x8000 then e.cecnt.toNat
  else if o = 0x8008 then e.uecnt.toNat
  else if o = 0x8010 then (if e.uev then 2 ^ 63 else 0) + e.uelvl * 2 ^ 56 + e.uepa
  else if 0x8100 ≤ o && o < 0x8200 then
    let ch := (o - 0x8100) / 8
    ((List.range 32).map fun b => if s.bank.bfail.contains (d * 1024 + ch * 32 + b) then 2 ^ b else 0).sum
  else 0

/-- The register of 8 bytes at an aligned physical address of the device area. -/
def State.devWord (s : State) (pa : Nat) : Nat :=
  let d := homeOf pa
  let o := pa % 2 ^ 45 - 0x6000000000
  if o < 0x10000 then
    if 0x4000 ≤ o && o < 0x8000 then
      ((aget s.host.monitors (d * 64 + (o - 0x4000) / 256)).getD .reset).reg (o % 256)
    else if 0x8000 ≤ o then s.errReg d o else s.islandReg d o
  else if o < 0x20000 then (if o < 0x18000 then s.queueReg d ((o - 0x10000) / 8) else 0)
  else if o < 0x30000 then (if d = 0 && o < 0x21000 then s.vfReg ((o - 0x20000) / 64) (o % 64) else 0)
  else if o < 0x40000 then
    (if d = 0 && o < 0x32000 && o % 128 = 64 && s.hasKey ((o - 0x30000) / 128) then 2 ^ 8 else 0)
  else if o < 0x50000 then (if d = 0 then s.controlReg (o - 0x40000) else 0)
  else if 0x10000000 ≤ o && o < 0x20000000 then (s.place.tables.toList.getD d .reset).word (o - 0x10000000)
  else if 0x20000000 ≤ o && o < 0x22000000 then
    let k := (4096 * d + (o - 0x20000000) / 8192) * 64 + (o - 0x20000000) / 128 % 64
    bits ((aget s.disp.slots k).getD 0).toNat (8 * (o % 128) + 63) (8 * (o % 128))
  else 0

/-- n bytes of the device area. -/
def State.devBytes (s : State) (pa n : Nat) : List Byte :=
  (List.range n).map fun i => (toBytes 8 (s.devWord ((pa + i) / 8 * 8))).getD ((pa + i) % 8) 0

/-! ## The accesses -/

/-- The channel on which a `.sc` atomic is on its way. -/
def State.scFlying (s : State) : Option Channel :=
  s.fab.chans.find? fun c => c.reqs.any fun p => match p.op with
    | .atomic _ _ _ _ sc => sc
    | _ => false

namespace M

variable {s0 : State}

/-- The way of an access at the home slice: without allocation on an uncached page (R90, R138). -/
def slicePath (a : Acc) : Path := if !a.leaf.wb || regionOf a.pa == .device then .engine else .slice

/-- The way of a scalar access on a page of the hart's own die: through its L1, where it allocates but for the hints `by` and `na` (R90, R93). -/
def scalarPath (a : Acc) (by_ na : Bool) : M s0 Path := do
  let h ← hart
  if a.leaf.home ≠ h.id.did || !a.leaf.wb || regionOf a.pa == .device then return slicePath a
  return { l1 := some h.l1, alloc := if na then none else if by_ then some .l2 else some (.l1 (l1Core h.l1 (a.pa / 64))), host := false }

/-- Read n bytes at their home: none for poison. A copy may be left in a cache. -/
def readHome (pa n : Nat) (p : Path) (ww : Bool) : M s0 (Option (List Byte)) := do
  if regionOf pa == .device then return some ((← st).devBytes pa n)
  match (← st).firstPoison pa n with
  | some _ => return none
  | none =>
    each (rangeFrom (pa / 64) ((pa + n - 1) / 64 + 1 - pa / 64)) fun la => openLine la p ww
    return some ((← st).liveBytes pa n ww)

/-- A write that a clock names is still to perform over a range: in a channel, or held at a tail word. -/
def writePending (pa n : Nat) (known : Clock) : M s0 Bool := do
  let s ← st
  let meets (q m : Nat) : Bool := decide (q < pa + n) && decide (pa < q + m)
  let stores (p : Packet) : Bool := match p.op with
    | .store bs _ => meets p.pa bs.length
    | .atomic _ m _ _ _ => meets p.pa m
    | .load _ _ => false
  let named (i : Nat) (m : BitVec 16) : Bool := geClk (clkAt known i) m
  return (s.fab.chans.any fun c => c.reqs.any fun p => stores p && p.num.any (named c.src))
    || (match s.tailAt (pa / 8 * 8) with
      | some (d, src) => (s.heldTails d src).any fun t => t.num.any fun k => named k.1 k.2
      | none => false)

/-- A load may take a value that its hart has read ahead (R217, R218): no write over it that the load knows has performed since or is
still to perform. What the read told is learned with it. Whether a read ahead is used is the device's choice. (DEDUCED, log 110) -/
def earlyRead (vec : Bool) (pa n : Nat) : M s0 (Option Early) := do
  let h ← hart
  let known := if vec then h.vknown else h.sr.vclk
  match h.early.find? fun e => e.vec == vec && e.pa == pa && e.bytes.length == n
      && e.hits.all fun k => !geClk (clkAt known k.1) k.2 with
  | none => return none
  | some e =>
    if ← writePending pa n known then return none
    if ← freeBool then
      modHart fun h => { h with early := h.early.erase e }
      mergeClk e.clk
      if vec then learnVec e.clk
      return some e
    else return none

/-- An uncorrectable error or poison met by the hart in focus: the report of R338 and the error registers. -/
def notePoison (va : Word) (pa : Nat) (rep : Bool) : M s0 PUnit := do
  noteError (homeOf pa) (levelOf pa) pa
  if rep then hartReport (← hart) 0x0E va else pure ⟨⟩

/-- A packet of the hart in focus with its clock as the stamp. -/
def hartPacket (op : PacketOp) (a : Acc) (num : Option (BitVec 16)) (tag : Option Nat) : M s0 Packet := do
  let h ← hart
  return { op := op, pa := a.pa, stamp := h.sr.vclk, gen := ((← st).die h.id.did).gen, seq := 0, num := num, hart := h.key,
           tag := tag, ww := a.leaf.ww }

/-- The clock that a `.sc` atomic carries: what the `.sc` atomics before it have known is added (R95, R219). -/
def scClock (sc : Bool) (c : Clock) (s : State) : Clock := if sc then clkMerge c s.fab.sc else c

/-- The `.sc` atomics of the module perform one after another: a later one goes out when the one before it has performed (R95). (DEDUCED, log 114) -/
def needSc (sc : Bool) : M s0 PUnit := do
  let flying := (← st).scFlying
  match if sc then flying else none with
  | none => pure ⟨⟩
  | some c => do
    push (.packetDelivery c.src c.dst)
    done

/-- A `.sc` atomic has performed with a clock. -/
def noteSc (sc : Bool) (c : Clock) : M s0 PUnit := if sc then modFab fun f => { f with sc := clkMerge f.sc c } else pure ⟨⟩

/-- A store of a hart goes out: at once on its own die, whose clock learns what the hart knows, and as a packet to another (R90, R238). -/
def putStore (a : Acc) (bs : List Byte) (by_ na : Bool) : M s0 PUnit := do
  let h ← hart
  let n ← hartNumber
  if a.leaf.home = h.id.did then
    learnAt h.id.did h.sr.vclk
    performStore a.pa bs (← scalarPath a by_ na) a.leaf.ww (some h.key) (some (h.id.did, n))
  else
    let p ← hartPacket (.store bs (a.leaf.wb && !na)) a (some n) none
    sendPacket h.id.did a.leaf.home p

/-- k stores of a hart to a home may go out: their numbers lie in the window, and the own die is covered or the channel takes them (R240, R242,
R243). -/
def needStore (home k : Nat) : M s0 PUnit := do
  let h ← hart
  needWindow h.id.did k
  if home = h.id.did then needCovered else needOpen h.id.did home k

/-- A store of a hart. -/
def storeAcc (a : Acc) (bs : List Byte) (by_ na : Bool) : M s0 PUnit := do
  needStore a.leaf.home 1
  putStore a bs by_ na

/-- The packets on the way to a die are delivered first: a vector access or an engine of the hart's die is
served across the fabric in one step once the channel is empty and its clock is covered there (R236, R240). (DEDUCED, log 42) -/
def needChannel (home : Nat) (c : Clock) : M s0 PUnit := do
  let d := (← hart).id.did
  match (← st).fab.chans.find? fun c => c.src == d && c.dst == home && !c.reqs.isEmpty with
  | some _ => do
    push (.packetDelivery d home)
    done
  | none =>
    match (← st).uncovered home c (fun i => i == d) with
    | [] => pure ⟨⟩
    | j :: _ => do
      if j = home then pure ⟨⟩ else pushCoverage home j
      done

/-- Wait until an access with a clock may be served at its home in this step. -/
def needServedBy (c : Clock) (home : Nat) : M s0 PUnit := do
  needTails
  if home = (← hart).id.did then needCoveredBy c
  else do
    needOpen (← hart).id.did home 1
    needChannel home c

/-- Wait until an access of the hart may be served at its home in this step. -/
def needServed (home : Nat) : M s0 PUnit := do needServedBy (← hart).sr.vclk home

/-- A packet of the hart is delivered at its home in this step: with a write number the home has it covered, and its clock merges the
stamp. -/
def arrive (home : Nat) (n : Option (BitVec 16)) (stamp : Clock) : M s0 PUnit := do
  let d := (← hart).id.did
  match n with
  | some n => if home ≠ d then
      modDie home fun f => { f with covered := clkPut f.covered d (maxClk (clkAt f.covered d) n) } else pure ⟨⟩
  | none => pure ⟨⟩
  learnAt home stamp

/-- Serve a load of the hart in focus at its home: none for poison. The home's clock merges (R239). -/
def serveLoad (a : Acc) (n : Nat) (p : Path) : M s0 (Option (List Byte)) := do
  let h ← hart
  if a.leaf.home ≠ h.id.did then arrive a.leaf.home none h.sr.vclk else pure ⟨⟩
  let v ← readHome a.pa n p a.leaf.ww
  mergeClk ((← st).die a.leaf.home).clock
  return v

/-- A load of the hart in focus that is served in this step, of its vector stream or of its scalar stream, or that was made ahead of its turn:
none for poison. -/
def loadNow (a : Acc) (n : Nat) (vec : Bool) : M s0 (Option (List Byte)) := do
  match ← earlyRead vec a.pa n with
  | some e => return some e.bytes
  | none =>
    if vec then
      learnVec ((← st).die a.leaf.home).clock
      serveLoad a n (slicePath a)
    else serveLoad a n (← scalarPath a false false)

/-- Serve a store of the vector stream or of an engine of the hart in focus, which carries a clock, at its home. -/
def storeNowBy (c : Clock) (a : Acc) (bs : List Byte) : M s0 PUnit := do
  let h ← hart
  let n ← hartNumber
  arrive a.leaf.home (some n) (clkPut c h.id.did n)
  performStore a.pa bs (slicePath a) a.leaf.ww (some h.key) (some (h.id.did, n))
  modHart fun h => { h with vknown := clkPut h.vknown h.id.did n }

/-- Serve a vector store of the hart in focus at its home. -/
def storeNow (a : Acc) (bs : List Byte) : M s0 PUnit := do storeNowBy (← hart).sr.vclk a bs

end M

end Sys2Proof.Machine
end

