-- ==== Sys2Proof/Machine/Atomic.lean ====
section
/-!
DEFINITION. What the scalar stream of a hart waits for, and atomics at the home of a word (R94, R95).
-/

namespace Sys2Proof.Machine

/-! ## Waiting for the vector stream (R98, R100, R105) -/

/-- No queue entry is queued or running, and no engine transfer is in flight (R100). -/
def Hart.vectorDone (h : Hart) : Bool :=
  h.queue.isEmpty && h.ctx.isNone && h.streams.toList.all fun k => k.xfer.isNone

/-- Every queue entry below a number, and every transfer, has completed (R105). -/
def Hart.vectorDoneBelow (h : Hart) (bound : Nat) : Bool :=
  h.queue.all (fun e => decide (e.seq ≥ bound))
    && (match h.ctx with | some c => decide (c.entry.seq ≥ bound) | none => true)
    && (bound == 0 || h.streams.toList.all fun k => k.xfer.isNone)

/-- A request packet of the die with a number at most n is still in a channel. -/
def State.inFlight (s : State) (d : Nat) (n : BitVec 16) : Option Nat :=
  (s.fab.chans.find? fun c => c.src == d && c.reqs.any fun p =>
    match p.num with
    | some m => geClk n m
    | none => false).map (·.dst)

namespace M

variable {s0 : State}

/-- Complete as `vwait`: wait until the vector stream is done; held entries are not waited for (R100, R303). At the completion
the die's clock merges (R239). -/
def needVwait : M s0 PUnit := do
  if !(← hart).vectorDone then stall
  needTails
  mergeDie

/-- A scalar memory instruction waits for the entries before the last `ord.vs` (R105), and for an earlier store to a tail word (R263). -/
def needVs : M s0 PUnit := do
  let h ← hart
  if !h.vectorDoneBelow h.vsBound then stall
  needTails

/-- The writes of the hart that are on their way are delivered first (R95). (DEDUCED, log 38) -/
def needDrained : M s0 PUnit := do
  let h ← hart
  match (← st).inFlight h.id.did (clkAt h.sr.vclk h.id.did) with
  | none => pure ⟨⟩
  | some j => do
    push (.packetDelivery h.id.did j)
    done

end M

/-! ## Atomics (R94) -/

/-- The new value of an n-byte word: operation, old value, B and D. None where `acas` writes nothing. -/
def atomicNew (op n old b d : Nat) : Option Nat :=
  let w := 8 * n
  let lo (x : Nat) := x % 2 ^ w
  match op with
  | 0 => some (lo (old + b))
  | 1 => some (lo b)
  | 2 => some (old &&& lo b)
  | 3 => some (old ||| lo b)
  | 4 => some (old ^^^ lo b)
  | 5 => some (if toSigned w b < toSigned w old then lo b else old)
  | 6 => some (if toSigned w old < toSigned w b then lo b else old)
  | 7 => some (min old (lo b))
  | 8 => some (max old (lo b))
  | _ => if old = lo d then some (lo b) else none

/-- The value that an atomic or a load of n bytes returns to a scalar register. -/
def loadValue (n : Nat) (signed : Bool) (v : Nat) : Word := if signed then sext64 v (8 * n) else BitVec.ofNat 64 v

namespace M

variable {s0 : State}

/-- Perform an atomic at the home of its word: the old value, or none for poison. At a tail word the stores that are held there come before
it: it reads behind them, and takes its place behind them even where it writes nothing (R94, R220, R263). -/
def atomicHome (pa op n b d : Nat) (p : Path) (ww : Bool) (writer : Option Nat) (num : Option (Nat × BitVec 16)) :
    M s0 (Option Nat) := do
  match ← readHome pa n p ww with
  | none => return none
  | some bs =>
    let s ← st
    let tail := s.tailAt (pa / 8 * 8)
    let old := ofBytes (match tail with
      | some (i, j) => ((s.tailBytes i j (pa / 8 * 8)).drop (pa % 8)).take n
      | none => bs)
    match atomicNew op n old b d, tail with
    | some v, _ => performStore pa (toBytes n v) p ww writer num
    | none, some (i, j) =>
      if (s.heldTails i j).isEmpty then pure ⟨⟩
      else holdTail { die := i, src := j, off := pa % 8, bytes := [], done := 0, writer := writer, num := num, post := none }
    | none, none => pure ⟨⟩
    return some old

end M

end Sys2Proof.Machine
end

