-- ==== Sys2Proof/Machine/Scalar.lean ====
section
/-!
DEFINITION. Scalar arithmetic, immediate forms, branches and jumps (R84 to R89, R96, R97).
-/

namespace Sys2Proof.Machine

/-! ## Operations of R86 at any width w; the shift amount is taken modulo w (R87) -/

/-- Shift amount modulo the width. -/
def shAmt {w : Nat} (b : BitVec w) : Nat := b.toNat % w
/-- Left shift. -/
def opShl {w : Nat} (a b : BitVec w) : BitVec w := a <<< shAmt b
/-- Logical right shift. -/
def opShr {w : Nat} (a b : BitVec w) : BitVec w := a >>> shAmt b
/-- Arithmetic right shift. -/
def opSra {w : Nat} (a b : BitVec w) : BitVec w := a.sshiftRight (shAmt b)
/-- 1 or 0. -/
def opBool {w : Nat} (p : Bool) : BitVec w := if p then 1 else 0
/-- Signed less than. -/
def opSlt {w : Nat} (a b : BitVec w) : BitVec w := opBool (a.slt b)
/-- Unsigned less than. -/
def opSltu {w : Nat} (a b : BitVec w) : BitVec w := opBool (a.ult b)
/-- Signed minimum. -/
def opMin {w : Nat} (a b : BitVec w) : BitVec w := if b.slt a then b else a
/-- Signed maximum. -/
def opMax {w : Nat} (a b : BitVec w) : BitVec w := if a.slt b then b else a
/-- Unsigned minimum. -/
def opMinu {w : Nat} (a b : BitVec w) : BitVec w := if b.ult a then b else a
/-- Unsigned maximum. -/
def opMaxu {w : Nat} (a b : BitVec w) : BitVec w := if a.ult b then b else a
/-- High half of the signed product. -/
def opMulh {w : Nat} (a b : BitVec w) : BitVec w := BitVec.ofInt w (a.toInt * b.toInt / 2 ^ w)
/-- High half of the unsigned product. -/
def opMulhu {w : Nat} (a b : BitVec w) : BitVec w := BitVec.ofNat w (a.toNat * b.toNat / 2 ^ w)
/-- Signed quotient toward zero; all ones for a zero divisor (R88). -/
def opDiv {w : Nat} (a b : BitVec w) : BitVec w :=
  if b = 0 then BitVec.allOnes w else BitVec.ofInt w (a.toInt.tdiv b.toInt)
/-- Unsigned quotient; all ones for a zero divisor (R88). -/
def opDivu {w : Nat} (a b : BitVec w) : BitVec w :=
  if b = 0 then BitVec.allOnes w else BitVec.ofNat w (a.toNat / b.toNat)
/-- A − B × signed quotient; A for a zero divisor (R88). -/
def opRem {w : Nat} (a b : BitVec w) : BitVec w := if b = 0 then a else a - b * opDiv a b
/-- A − B × unsigned quotient; A for a zero divisor (R88). -/
def opRemu {w : Nat} (a b : BitVec w) : BitVec w := if b = 0 then a else a - b * opDivu a b
/-- Number of leading zero bits. -/
def opClz {w : Nat} (a : BitVec w) : BitVec w :=
  BitVec.ofNat w (if a = 0 then w else w - 1 - log2 a.toNat)
/-- Number of one bits. -/
def opPopc {w : Nat} (a : BitVec w) : BitVec w :=
  BitVec.ofNat w ((List.range w).countP fun i => a.getLsbD i)

/-- The 64-bit operation, or the 32-bit form with its sign-extended result (R87). -/
def aluOp (w : Bool) (f64 : Word → Word → Word) (f32 : BitVec 32 → BitVec 32 → BitVec 32) (a b : Word) : Word :=
  if w then (f32 (a.setWidth 32) (b.setWidth 32)).signExtend 64 else f64 a b

/-- Write d from a register-register operation and go on. -/
def alu {s0 : State} (w : Bool) (f64 : Word → Word → Word) (f32 : BitVec 32 → BitVec 32 → BitVec 32) (d a b : Reg) :
    M s0 PUnit := do
  M.setReg d (aluOp w f64 f32 (← M.rd a) (← M.rd b))
  M.advance

/-- Write d from one register and a constant and go on. -/
def aluImm {s0 : State} (f : Word → Word) (d a : Reg) : M s0 PUnit := do
  M.setReg d (f (← M.rd a))
  M.advance

/-! ## The 23 operations (R86 to R88) -/

/-- `add` (R86): A + B. -/
def execAdd (w : Bool) (d a b : Reg) (s : State) : Host.Outcome State Fault Refusal :=
  exec1 s (alu w (· + ·) (· + ·) d a b)

/-- `sub` (R86): A − B. -/
def execSub (w : Bool) (d a b : Reg) (s : State) : Host.Outcome State Fault Refusal :=
  exec1 s (alu w (· - ·) (· - ·) d a b)

/-- `and` (R86): A and B. -/
def execAnd (w : Bool) (d a b : Reg) (s : State) : Host.Outcome State Fault Refusal :=
  exec1 s (alu w (· &&& ·) (· &&& ·) d a b)

/-- `or` (R86): A or B. -/
def execOr (w : Bool) (d a b : Reg) (s : State) : Host.Outcome State Fault Refusal :=
  exec1 s (alu w (· ||| ·) (· ||| ·) d a b)

/-- `xor` (R86): A xor B. -/
def execXor (w : Bool) (d a b : Reg) (s : State) : Host.Outcome State Fault Refusal :=
  exec1 s (alu w (· ^^^ ·) (· ^^^ ·) d a b)

/-- `shl` (R86): A shifted left. -/
def execShl (w : Bool) (d a b : Reg) (s : State) : Host.Outcome State Fault Refusal :=
  exec1 s (alu w opShl opShl d a b)

/-- `shr` (R86): A shifted right, zeros in. -/
def execShr (w : Bool) (d a b : Reg) (s : State) : Host.Outcome State Fault Refusal :=
  exec1 s (alu w opShr opShr d a b)

/-- `sra` (R86): A shifted right, sign bits in. -/
def execSra (w : Bool) (d a b : Reg) (s : State) : Host.Outcome State Fault Refusal :=
  exec1 s (alu w opSra opSra d a b)

/-- `slt` (R86): signed less than. -/
def execSlt (w : Bool) (d a b : Reg) (s : State) : Host.Outcome State Fault Refusal :=
  exec1 s (alu w opSlt opSlt d a b)

/-- `sltu` (R86): unsigned less than. -/
def execSltu (w : Bool) (d a b : Reg) (s : State) : Host.Outcome State Fault Refusal :=
  exec1 s (alu w opSltu opSltu d a b)

/-- `min` (R86): the smaller, signed. -/
def execMin (w : Bool) (d a b : Reg) (s : State) : Host.Outcome State Fault Refusal :=
  exec1 s (alu w opMin opMin d a b)

/-- `max` (R86): the larger, signed. -/
def execMax (w : Bool) (d a b : Reg) (s : State) : Host.Outcome State Fault Refusal :=
  exec1 s (alu w opMax opMax d a b)

/-- `minu` (R86): the smaller, unsigned. -/
def execMinu (w : Bool) (d a b : Reg) (s : State) : Host.Outcome State Fault Refusal :=
  exec1 s (alu w opMinu opMinu d a b)

/-- `maxu` (R86): the larger, unsigned. -/
def execMaxu (w : Bool) (d a b : Reg) (s : State) : Host.Outcome State Fault Refusal :=
  exec1 s (alu w opMaxu opMaxu d a b)

/-- `mul` (R86): low half of the product. -/
def execMul (w : Bool) (d a b : Reg) (s : State) : Host.Outcome State Fault Refusal :=
  exec1 s (alu w (· * ·) (· * ·) d a b)

/-- `mulh` (R86): high half of the signed product. -/
def execMulh (w : Bool) (d a b : Reg) (s : State) : Host.Outcome State Fault Refusal :=
  exec1 s (alu w opMulh opMulh d a b)

/-- `mulhu` (R86): high half of the unsigned product. -/
def execMulhu (w : Bool) (d a b : Reg) (s : State) : Host.Outcome State Fault Refusal :=
  exec1 s (alu w opMulhu opMulhu d a b)

/-- `div` (R86): signed quotient (R88). -/
def execDiv (w : Bool) (d a b : Reg) (s : State) : Host.Outcome State Fault Refusal :=
  exec1 s (alu w opDiv opDiv d a b)

/-- `divu` (R86): unsigned quotient (R88). -/
def execDivu (w : Bool) (d a b : Reg) (s : State) : Host.Outcome State Fault Refusal :=
  exec1 s (alu w opDivu opDivu d a b)

/-- `rem` (R86): signed remainder (R88). -/
def execRem (w : Bool) (d a b : Reg) (s : State) : Host.Outcome State Fault Refusal :=
  exec1 s (alu w opRem opRem d a b)

/-- `remu` (R86): unsigned remainder (R88). -/
def execRemu (w : Bool) (d a b : Reg) (s : State) : Host.Outcome State Fault Refusal :=
  exec1 s (alu w opRemu opRemu d a b)

/-- `clz` (R86): leading zero bits. -/
def execClz (w : Bool) (d a : Reg) (s : State) : Host.Outcome State Fault Refusal :=
  exec1 s (alu w (fun x _ => opClz x) (fun x _ => opClz x) d a 0)

/-- `popc` (R86): one bits. -/
def execPopc (w : Bool) (d a : Reg) (s : State) : Host.Outcome State Fault Refusal :=
  exec1 s (alu w (fun x _ => opPopc x) (fun x _ => opPopc x) d a 0)

/-! ## Immediate forms (R89) -/

/-- I of R89. -/
def immS (imm : BitVec 16) : Word := imm.signExtend 64
/-- U of R89. -/
def immU (imm : BitVec 16) : Word := imm.setWidth 64

/-- `addi` (R89): s_a + I. -/
def execAddi (d a : Reg) (imm : BitVec 16) (s : State) : Host.Outcome State Fault Refusal :=
  exec1 s (aluImm (· + immS imm) d a)

/-- `andi` (R89): s_a and U. -/
def execAndi (d a : Reg) (imm : BitVec 16) (s : State) : Host.Outcome State Fault Refusal :=
  exec1 s (aluImm (· &&& immU imm) d a)

/-- `ori` (R89): s_a or U. -/
def execOri (d a : Reg) (imm : BitVec 16) (s : State) : Host.Outcome State Fault Refusal :=
  exec1 s (aluImm (· ||| immU imm) d a)

/-- `xori` (R89): s_a xor U. -/
def execXori (d a : Reg) (imm : BitVec 16) (s : State) : Host.Outcome State Fault Refusal :=
  exec1 s (aluImm (· ^^^ immU imm) d a)

/-- `slti` (R89): signed s_a < I. -/
def execSlti (d a : Reg) (imm : BitVec 16) (s : State) : Host.Outcome State Fault Refusal :=
  exec1 s (aluImm (fun x => opSlt x (immS imm)) d a)

/-- `sltiu` (R89): unsigned s_a < I. -/
def execSltiu (d a : Reg) (imm : BitVec 16) (s : State) : Host.Outcome State Fault Refusal :=
  exec1 s (aluImm (fun x => opSltu x (immS imm)) d a)

/-- `ldhi` (R89): (s_a << 16) or U. -/
def execLdhi (d a : Reg) (imm : BitVec 16) (s : State) : Host.Outcome State Fault Refusal :=
  exec1 s (aluImm (fun x => x <<< 16 ||| immU imm) d a)

/-- `shli` (R89): as `shl` by the amount. -/
def execShli (w : Bool) (d a : Reg) (n : BitVec 6) (s : State) : Host.Outcome State Fault Refusal :=
  exec1 s (aluImm (fun x => aluOp w opShl opShl x (n.setWidth 64)) d a)

/-- `shri` (R89): as `shr` by the amount. -/
def execShri (w : Bool) (d a : Reg) (n : BitVec 6) (s : State) : Host.Outcome State Fault Refusal :=
  exec1 s (aluImm (fun x => aluOp w opShr opShr x (n.setWidth 64)) d a)

/-- `srai` (R89): as `sra` by the amount. -/
def execSrai (w : Bool) (d a : Reg) (n : BitVec 6) (s : State) : Host.Outcome State Fault Refusal :=
  exec1 s (aluImm (fun x => aluOp w opSra opSra x (n.setWidth 64)) d a)

/-- `addpc` (R89): pc + I × 4. -/
def execAddpc (d : Reg) (imm : BitVec 16) (s : State) : Host.Outcome State Fault Refusal :=
  exec1 s (do
    M.setReg d ((← M.pc) + immS imm * 4)
    M.advance)

/-! ## Branches and jumps (R96, R97) -/

/-- A conditional branch: pc + sext(off16) × 4 when the condition holds, else pc + 4. -/
def branch {s0 : State} (c : Word → Word → Bool) (a b : Reg) (off : BitVec 16) : M s0 PUnit := do
  if c (← M.rd a) (← M.rd b) then M.setPc ((← M.pc) + immS off * 4) else M.advance

/-- Target of an SJ word (R34). -/
def jumpTarget (pc : Word) (off : BitVec 21) : Word := pc + off.signExtend 64 * 4

/-- `beq` (R96): taken when equal. -/
def execBeq (a b : Reg) (off : BitVec 16) (s : State) : Host.Outcome State Fault Refusal :=
  exec1 s (branch (· == ·) a b off)

/-- `bne` (R96): taken when not equal. -/
def execBne (a b : Reg) (off : BitVec 16) (s : State) : Host.Outcome State Fault Refusal :=
  exec1 s (branch (· != ·) a b off)

/-- `blt` (R96): taken when signed less. -/
def execBlt (a b : Reg) (off : BitVec 16) (s : State) : Host.Outcome State Fault Refusal :=
  exec1 s (branch BitVec.slt a b off)

/-- `bge` (R96): taken when signed not less. -/
def execBge (a b : Reg) (off : BitVec 16) (s : State) : Host.Outcome State Fault Refusal :=
  exec1 s (branch (fun x y => !BitVec.slt x y) a b off)

/-- `bltu` (R96): taken when unsigned less. -/
def execBltu (a b : Reg) (off : BitVec 16) (s : State) : Host.Outcome State Fault Refusal :=
  exec1 s (branch BitVec.ult a b off)

/-- `bgeu` (R96): taken when unsigned not less. -/
def execBgeu (a b : Reg) (off : BitVec 16) (s : State) : Host.Outcome State Fault Refusal :=
  exec1 s (branch (fun x y => !BitVec.ult x y) a b off)

/-- `jmp` (R96). -/
def execJmp (off : BitVec 21) (s : State) : Host.Outcome State Fault Refusal :=
  exec1 s (do M.setPc (jumpTarget (← M.pc) off))

/-- `jal` (R97): the return address into d, then the jump. -/
def execJal (d : Reg) (off : BitVec 21) (s : State) : Host.Outcome State Fault Refusal :=
  exec1 s (do
    let p ← M.pc
    M.setReg d (p + 4)
    M.setPc (jumpTarget p off))

/-- `jalr` (R97): the target is formed before d is written; a target that is not a multiple of 4 traps with cause 0x03. -/
def execJalr (d a : Reg) (imm : BitVec 16) (s : State) : Host.Outcome State Fault Refusal :=
  exec1 s (do
    let p ← M.pc
    let t := (← M.rd a) + immS imm
    if t.extractLsb' 0 2 ≠ 0 then M.trap 0x03 t
    M.setReg d (p + 4)
    M.setPc t)

end Sys2Proof.Machine
end

