-- ==== Sys2Proof/Machine/Control.lean ====
section
/-!
DEFINITION. Issuing vector work, return slots, matrix control, fences and the gang barrier (R98 to R106).
-/

namespace Sys2Proof.Machine

/-- The word of a scalar instruction. -/
def scalarWord (i : Instr) : BitVec 32 := (encodeScalar i).getD 0

/-- The word of a scalar instruction as a trap value (R321). -/
def tvalOf (i : Instr) : Word := (scalarWord i).setWidth 64

/-! ## The vector queue (R98) -/

/-- An entry is a block. -/
def QEntry.isBlock (e : QEntry) : Bool :=
  match e.kind with
  | .block _ _ => true
  | _ => false

/-- Entries of a context that may be absent. -/
def ctxEntry : Option LoopCtx → List QEntry
  | some c => [c.entry]
  | none => []

/-- Every entry that counts against the limits of the queue: queued, running, held and set aside (R98, R303). -/
def Hart.entries (h : Hart) : List QEntry :=
  h.queue ++ ctxEntry h.ctx
    ++ (match h.held with | some k => ctxEntry k.ctx ++ k.behind | none => [])
    ++ (match h.aside with | some a => ctxEntry a.ctx ++ a.behind | none => [])

/-- Place one entry at the tail of the queue and go on; a full queue holds the scalar stream (R98). -/
def enqueue {s0 : State} (kind : QKind) (word : BitVec 32) : M s0 PUnit := do
  let h ← M.hart
  let e : QEntry :=
    { kind := kind, snap := zeroFirst h.x, seq := h.seq, mark := false, sup := h.sup, pc := h.pc, word := word }
  if (h.entries.filter fun k => k.isBlock == e.isBlock).length ≥ 64 then M.stall
  M.modHart fun h => { h with queue := h.queue ++ [e], seq := h.seq + 1 }
  M.advance

/-- Queue a block: its target must be a multiple of 8 (R98). -/
def enqueueBlock {s0 : State} (off : BitVec 21) (count : Option Word) (word : BitVec 32) : M s0 PUnit := do
  let t := jumpTarget (← M.pc) off
  if t.extractLsb' 0 3 ≠ 0 then M.trap 0x03 t
  enqueue (.block t count) word

/-- `vfb` (R98). -/
def execVfb (off : BitVec 21) (s : State) : Host.Outcome State Fault Refusal :=
  exec1 s (enqueueBlock off none (scalarWord (.vfb off)))

/-- `vloop` (R98): s_n elements. -/
def execVloop (n : Reg) (off : BitVec 21) (s : State) : Host.Outcome State Fault Refusal :=
  exec1 s (do enqueueBlock off (some (← M.rd n)) (scalarWord (.vloop n off)))

/-- `vsetl` (R17, R18, R99): the grant into d at once; `vl`, `vgrp` and `sew` at the queue position. -/
def execVsetl (sew grp : BitVec 2) (d a : Reg) (s : State) : Host.Outcome State Fault Refusal :=
  exec1 s (do
    let h ← M.hart
    let w := sewOfField sew
    let g := grpOfField grp
    let vl := BitVec.ofNat 64 (min (h.reg a).toNat (vlmax w g h.id.cap))
    enqueue (.setl vl w g) (scalarWord (.vsetl sew grp d a))
    M.setReg d vl)

/-- `vwait` (R100). -/
def execVwait (s : State) : Host.Outcome State Fault Refusal :=
  exec1 s (do
    M.needVwait
    M.advance)

/-! ## Return slots (R101) -/

/-- The word `vstop` (R46). -/
def vstopWord : BitVec 64 := 0xA0C0000000000000#64

/-- The words of the block at a target as the live image shows them now, `vhead` to `vstop`; none where they cannot be read. -/
def State.blockWordsFrom (s : State) (vf : Nat) : Nat → Word → Option (List (BitVec 64))
  | 0, _ => none
  | fuel + 1, t =>
    match s.walk vf t.toNat with
    | .leaf l =>
      let w := BitVec.ofNat 64 (s.liveVal (l.pa t.toNat) 8)
      if w = vstopWord then some [w] else (s.blockWordsFrom vf fuel (t + 8)).map (w :: ·)
    | _ => none

/-- The words of a queued block, at most 256. -/
def State.blockWords (s : State) (vf : Nat) (t : Word) : Option (List (BitVec 64)) := s.blockWordsFrom vf 256 t

/-- A vector instruction writes a return slot. -/
def writesSlot (k : Nat) : Instr → Bool
  | .vmpop f => f.vd.toNat == k
  | .vmfirst f => f.vd.toNat == k
  | .vavail f => f.vd.toNat == k
  | .vtoq f => f.vd.toNat == k
  | _ => false

/-- A block writes a return slot. -/
def wordsWriteSlot (k : Nat) (ws : List (BitVec 64)) : Bool :=
  ws.any fun w =>
    match decodeVector w with
    | .ok i => writesSlot k i
    | .error _ => false

/-- An earlier entry that writes a slot has not completed: a running block by its words, a queued one by its words in memory;
a block that cannot be read counts as one that may write it. -/
def State.slotPending (s : State) (k : Nat) : Bool :=
  let h := s.hart
  let atTarget (t : Word) : Bool := match s.blockWords h.id.vf t with
    | some ws => wordsWriteSlot k ws
    | none => true
  (match h.ctx with | some c => if c.words.isEmpty then atTarget c.base else wordsWriteSlot k c.words | none => false)
    || h.queue.any fun e =>
      match e.kind with
      | .block t _ => atTarget t
      | _ => false

/-- `qget` (R101): wait for the earlier entries that write the slot, then read it. A slot that `vavail` wrote merges the die's
clock (R239). -/
def execQget (d : Reg) (slot : BitVec 3) (s : State) : Host.Outcome State Fault Refusal :=
  exec1 s (do
    if (← M.st).slotPending slot.toNat then M.stall
    let h ← M.hart
    if h.availSlots.getLsbD slot.toNat then M.mergeDie
    M.setReg d (h.vec.vq.toList.getD slot.toNat 0)
    M.advance)

/-! ## Matrix control (R102 to R104, R170) -/

/-- A hart that keeps its rows: it runs, or its tile has not been saved yet (R31). -/
def Hart.attached (h : Hart) : Bool :=
  match h.phase with
  | .run | .saving _ => true
  | _ => false

/-- Rows of the matrix unit of a quad that the other running harts hold or have reserved (R170, R277); the quad of a hart is
`hid` div 16. -/
def State.rowsTaken (s : State) (did quad : Nat) (but : Option Nat) : Nat :=
  ((s.harts.filter fun h => h.id.did == did && h.id.hid / 16 == quad && h.attached && some h.key != but).map
    fun h => max h.sr.mgrant.toNat h.id.rows).sum

/-- Rows that a hart may be granted now, of the 512 of its quad's unit. -/
def State.freeRows (s : State) (h : Hart) : Nat := 512 - s.rowsTaken h.id.did (h.id.hid / 16) (some h.key)

/-- `mxatt` (R102): never waits for rows; the granted rows are +0 and the scale latches 127 (R177). -/
def execMxatt (d a : Reg) (s : State) : Host.Outcome State Fault Refusal :=
  exec1 s (do
    if !(← M.hart).vectorDone then M.stall
    let h ← M.hart
    if h.sr.mgrant ≠ 0 then M.trap 0x02 (tvalOf (.mxatt d a))
    let req := (min (h.reg a).toNat 256 + 31) / 32 * 32
    let g := min req ((← M.st).freeRows h / 32 * 32)
    if g > 0 then M.modTile fun _ => .reset
    M.modSr fun r => { r with mgrant := BitVec.ofNat 64 g }
    M.setReg d (BitVec.ofNat 64 g)
    M.advance)

/-- What `mxoff` restores (R104). -/
def leaveMatrix (h : Hart) : Hart :=
  if h.sr.mmode then
    { h with sr := { h.sr with vl := h.tile.svl, vgrp := h.tile.sgrp, sew := h.tile.ssew, mmode := false } }
  else h

/-- `mxdet` (R103): waits for the queue, leaves matrix mode, releases the rows and discards the tile. -/
def execMxdet (s : State) : Host.Outcome State Fault Refusal :=
  exec1 s (do
    if !(← M.hart).vectorDone then M.stall
    if (← M.hart).sr.mgrant ≠ 0 then
      M.modHart leaveMatrix
      M.modHart fun h => { h with tile := .reset, sr := { h.sr with mgrant := 0, mmode := false } }
    M.advance)

/-- `mxon` (R104): without granted rows it traps with cause 0x08; it takes effect at its queue position. -/
def execMxon (s : State) : Host.Outcome State Fault Refusal :=
  exec1 s (do
    if (← M.hart).sr.mgrant = 0 then M.trap 0x08 0
    enqueue .mxon (scalarWord .mxon))

/-- `mxoff` (R104): takes effect at its queue position. -/
def execMxoff (s : State) : Host.Outcome State Fault Refusal :=
  exec1 s (enqueue .mxoff (scalarWord .mxoff))

/-! ## Fences and the barrier (R105, R106) -/

/-- Later queue entries wait for the scalar accesses so far. -/
def fenceSv {s0 : State} : M s0 PUnit := do
  let h ← M.hart
  let out := ((← M.st).inFlight h.id.did h.svNum).isSome
  let first := if out then h.svBound.getD h.seq else h.seq
  -- the vector stream knows what the scalar stream has learned so far
  M.modHart fun h => { h with svBound := some first, svNum := clkAt h.sr.vclk h.id.did, vknown := clkMerge h.vknown h.sr.vclk }

/-- Later scalar memory instructions wait for the queue entries so far. -/
def fenceVs {s0 : State} : M s0 PUnit := M.modHart fun h => { h with vsBound := h.seq }

/-- `ord.sv` (R105). -/
def execOrdSv (s : State) : Host.Outcome State Fault Refusal :=
  exec1 s (do
    fenceSv
    M.advance)

/-- `ord.vs` (R105). -/
def execOrdVs (s : State) : Host.Outcome State Fault Refusal :=
  exec1 s (do
    fenceVs
    M.advance)

/-- `ord.all` (R105). -/
def execOrdAll (s : State) : Host.Outcome State Fault Refusal :=
  exec1 s (do
    fenceSv
    fenceVs
    M.advance)

/-- `gbar` (R106): completes as `vwait`, then arrives at the gang's barrier; in a gang of one hart it only completes. -/
def execGbar (s : State) : Host.Outcome State Fault Refusal :=
  exec1 s (do
    M.needVwait
    let h ← M.hart
    match ← M.gangOf h with
    | none => M.advance
    | some g => do
      if g.size ≤ 1 then
        M.advance
      else do
        M.modGang g.die g.gid fun g => { g with barrier := g.barrier ||| BitVec.ofNat 64 (2 ^ h.id.gidx) }
        M.modHart fun h => { h with wait := .barrier }
        M.checkBarrier g)

end Sys2Proof.Machine
end

