-- ==== Sys2Proof/Machine/Images.lean ====
section
/-!
DEFINITION. The two images (R189 to R196): `settle`, `renew`, `scnt` and `swait`; page settles and their completion, the drop
of a renew, and reads of the settled image while a settle runs.
-/

namespace Sys2Proof.Machine

/-- Bytes of a page frame as a power of two. -/
def frameBytes : Nat := 2 ^ 18

/-- The frame of a physical address: PA[47:18]. -/
def frameOf (pa : Nat) : Nat := pa / 2 ^ 18

/-- The frame of a line. -/
def frameOfLine (la : Nat) : Nat := la / 4096

/-- The cached lines of a frame. -/
def State.linesOf (s : State) (frame : Nat) : List Line := s.img.cache.filter fun l => frameOfLine l.addr == frame

/-- A line lies in the range of a retired macro, which a settle does not write (R347). -/
def State.retiredLine (s : State) (la : Nat) : Bool :=
  regionOf (64 * la) == .weights && (s.macroAt (macroOf (64 * la))).retired

/-- The settle count of a frame (R189). -/
def State.countOf (s : State) (frame : Nat) : BitVec 32 := (aget s.counts frame).getD 0

/-- A count has reached a target (R196). -/
def countReached (c target : BitVec 32) : Bool := (c - target).toNat < 2 ^ 31

namespace M

variable {s0 : State}

/-- Ask the host for its copies of lines (R191): a back-invalidation snoop to each host-held line. -/
def snoopLines (ls : List Line) : M s0 PUnit :=
  modPort fun p => { p with snoops :=
    (ls.filter fun l => l.level == .host).foldl (fun acc l => insertNat acc l.addr) p.snoops }

/-- Start a settle or renew of a frame: every store that happens-before it is in the lines dirty now (R191). -/
def startSettle (frame : Nat) (renew : Bool) : M s0 PUnit := do
  let ls := (← st).linesOf frame
  let todo := (ls.filter fun l => l.dirty ≠ 0 || l.poison).map fun l => (l.addr, l.dirty)
  snoopLines ls
  modImg fun m => { m with settling := m.settling ++ [{ frame := frame, renew := renew, lines := todo, down := false }] }
  push (.pageSettleComplete frame)

/-! ## Reading the settled image (R192) -/

/-- The settle that may write an aligned 4-byte word at any time: its line and the byte mask of the word. -/
def wordUnderSettle (pa : Nat) : M s0 Bool := do
  let s ← st
  let la := pa / 64
  let mask := BitVec.ofNat 64 (15 * 2 ^ (pa % 64 / 4 * 4))
  return s.img.settling.any fun g => !g.down && g.lines.any fun (a, m) => a == la && (m &&& mask) ≠ 0

/-- Before an in-place engine uses an aligned word under a settle, that settle may write the word, as a whole (R192). A weight
page is converted by macros (R205). (DEDUCED, log 20) -/
def meetSettle (pa : Nat) : M s0 PUnit := do
  if regionOf pa == .weights then pure ⟨⟩
  else if ← wordUnderSettle pa then
    if ← freeBool then cleanLine (pa / 64) (BitVec.ofNat 64 (15 * 2 ^ (pa % 64 / 4 * 4))) else pure ⟨⟩
  else pure ⟨⟩

/-- n bytes of the settled image, word by word under R192. -/
def settledBytes (pa n : Nat) : M s0 (List Byte) := do
  each (rangeFrom (pa / 4) ((pa + n + 3) / 4 - pa / 4)) fun w => meetSettle (4 * w)
  return (← st).cells.reads pa n

/-- A byte range of the settled image holds poison. -/
def settledPoison (pa n : Nat) : M s0 Bool := do
  let s ← st
  return (rangeFrom (pa / 64) ((pa + n + 63) / 64 - pa / 64)).any fun la => s.arrayPoison la

/-- An engine writes bytes of the settled image for a hart, or for none; cached copies stay (R190). A write of all 64 bytes clears poison
(R337). The hart's own requests do not end its `idle` (R111). -/
def settledWrite (pa : Nat) (bs : List Byte) (writer : Option Nat) : M s0 PUnit := do
  emit (.cells pa bs)
  noteHit pa bs.length none
  each (cutLines pa bs) fun (la, _, b) => do
    if b.length = 64 then setArrayPoison la false else pure ⟨⟩
    noteWatch la writer

/-- A count has advanced: waiting `swait`s may return. -/
def advanceCount (frame : Nat) : M s0 PUnit := do
  bumpCount frame
  if (← st).harts.any fun h => (match h.wait with | .swait f _ => f == frame | _ => false) then push .swaitSatisfied
  else pure ⟨⟩
  if (← st).disp.launches.any fun l => l.deps.any fun d => (match d with | .count f _ => f == frame | _ => false) then
    push .dependencyMet
  else pure ⟨⟩

/-- Drop every cached copy of the lines of a frame, dirty bytes written down first (R194). -/
def dropFrame (frame : Nat) : M s0 PUnit := do each ((← st).linesOf frame) fun l => dropLine l.addr

/-! ## Checks of the image instructions (R195, R196) -/

/-- The check of one page; `tval` is the page's address. -/
def checkPage (va : Word) : M s0 Acc := do
  let p := va &&& ~~~(BitVec.ofNat 64 (2 ^ 18 - 1))
  match ← check p 1 .load with
  | .ok a => return a
  | .error c => trap c p

/-- The checks of n pages in order, before any is acted on. -/
def checkPages : Nat → Word → M s0 (List Acc)
  | 0, _ => return []
  | n + 1, va => do
    let a ← checkPage va
    let rest ← checkPages n (va + BitVec.ofNat 64 (2 ^ 18))
    return a :: rest

/-- The frames of a range, every page checked and every home reached. (DEDUCED, log 21) -/
def rangeFrames (base len : Word) : M s0 (List Nat) := do
  if len = 0 then return []
  if base.toNat + len.toNat > 2 ^ 64 then trap 0x05 base
  let first := base.toNat / 2 ^ 18
  let last := (base.toNat + len.toNat - 1) / 2 ^ 18
  let accs ← checkPages (last + 1 - first) (BitVec.ofNat 64 (first * 2 ^ 18))
  each accs fun a => needServed a.leaf.home
  return (accs.map fun a => frameOf a.pa).eraseDups

end M

/-- `settle` (R195): the scalar stream goes on once the page settles have started. -/
def execSettle (a b : Reg) (s : State) : Host.Outcome State Fault Refusal :=
  exec1 s (do
    M.needVwait
    let frames ← M.rangeFrames (← M.rd a) (← M.rd b)
    M.each frames fun f => M.startSettle f false
    M.advance)

/-- `renew` (R195): the scalar stream waits until every page has completed R194. -/
def execRenew (a b : Reg) (s : State) : Host.Outcome State Fault Refusal :=
  exec1 s (do
    M.needVwait
    let frames ← M.rangeFrames (← M.rd a) (← M.rd b)
    M.each frames fun f => M.startSettle f true
    if frames.isEmpty then M.advance
    else M.modHart fun h => { h with wait := .renew frames })

/-- `scnt` (R196): the count, zero-extended. -/
def execScnt (d a : Reg) (s : State) : Host.Outcome State Fault Refusal :=
  exec1 s (do
    M.needVs
    let acc ← M.checkPage (← M.rd a)
    M.needServed acc.leaf.home
    M.mergeClk ((← M.st).die acc.leaf.home).clock
    M.setReg d (((← M.st).countOf (frameOf acc.pa)).setWidth 64)
    M.advance)

/-- `swait` (R196): holds the scalar stream until the count has reached the target. -/
def execSwait (a b : Reg) (s : State) : Host.Outcome State Fault Refusal :=
  exec1 s (do
    M.needVs
    let acc ← M.checkPage (← M.rd a)
    M.needServed acc.leaf.home
    let target := (← M.rd b).setWidth 32
    if countReached ((← M.st).countOf (frameOf acc.pa)) target then
      M.mergeClk ((← M.st).die acc.leaf.home).clock
      M.mergeDie
      M.advance
    else M.modHart fun h => { h with wait := .swait (frameOf acc.pa) target })

end Sys2Proof.Machine
end

