-- ==== Sys2Proof/Machine/BankUnit.lean ====
section
/-!
DEFINITION. Bank units (R47 to R49, R197 to R199, R324, R339, R341, R343): bank words, broadcast commands and add requests.
-/

namespace Sys2Proof.Machine

/-! ## Bank words (R47) -/

/-- The fields of a bank word. -/
structure BankWord where
  fop : Nat
  fs : Nat
  fd : Nat
  aop : Nat
  aty : Nat
  ad : Nat
  aa : Nat
  ab : Nat
  ac : Nat
  cty : Nat
  wop : Nat
  ws : Nat
  wst : Nat
  deriving DecidableEq, Repr

/-- The fields of 64 bits. -/
def BankWord.ofBits (w : Nat) : BankWord :=
  { fop := bits w 63 61, fs := bits w 60 59, fd := bits w 58 57, aop := bits w 43 40, aty := bits w 39 38, ad := bits w 37 36,
    aa := bits w 35 34, ab := bits w 33 32, ac := bits w 31 30, cty := bits w 29 28, wop := bits w 19 18,
    ws := bits w 17 16, wst := bits w 15 14 }

/-- A bank word that R324 does not reserve. -/
def bankWordOk (w : Nat) : Bool :=
  let b := BankWord.ofBits w
  let fetch := if b.fop = 0 then bits w 63 44 == 0 else b.fop == 1 && b.fs ≠ 3 && bits w 56 44 == 0
  let arith :=
    if b.aop = 0 then bits w 43 20 == 0
    else decide (b.aop ≤ 0xB) && b.aty ≠ 3 && b.cty ≠ 3 && (b.aop == 4 || b.ac == 0) && (b.aop == 0xA || b.cty == 0)
      && bits w 27 20 == 0
  let write := if b.wop = 0 then bits w 19 0 == 0 else b.wop ≠ 3 && b.wst ≠ 3 && bits w 13 0 == 0
  fetch && arith && write

/-- The format of a bank type: 1 f32, 2 bf16. -/
def bankFmt (t : Nat) : Fmt := if t = 2 then fmtBf16 else fmtF32

/-- Width in bits of an element of a bank type. -/
def bankWidth (t : Nat) : Nat := if t = 2 then 16 else 32

/-- One element of the arithmetic slot (R47, R197). -/
def bankElem (aop aty a b c : Nat) : Nat :=
  if aty = 0 then
    let x := toSigned 32 a
    let y := toSigned 32 b
    match aop with
    | 1 => wrapInt 32 (x + y)
    | 2 => wrapInt 32 (x - y)
    | 3 => wrapInt 32 (x * y)
    | 4 => wrapInt 32 (x * y + toSigned 32 c)
    | 5 => wrapInt 32 (min x y)
    | _ => wrapInt 32 (max x y)
  else
    let f := bankFmt aty
    let x := f.decode a
    let y := f.decode b
    match aop with
    | 1 => f.round .rne (fadd .rne x y)
    | 2 => f.round .rne (fadd .rne x y.neg)
    | 3 => f.round .rne (fmul x y).res
    | 4 => f.round .rne (fadd .rne (fmul x y) (f.decode c))
    | 5 => f.min a b
    | _ => f.max a b

/-- Join elements of w bits, the first lowest. -/
def joinElems (w : Nat) (es : List Nat) : Nat := es.foldr (fun e n => e % 2 ^ w + 2 ^ w * n) 0

/-- Element i at width w of a 32-byte register. -/
def bankAt (w r i : Nat) : Nat := r / 2 ^ (w * i) % 2 ^ w

/-- A conversion of the arithmetic slot: 8 elements; bf16 stands in bytes 0 to 15 (R197). -/
def bankCvt (aty cty a : Nat) : Nat :=
  joinElems (bankWidth cty) ((List.range 8).map fun i =>
    let v := bankAt (bankWidth aty) a i
    if aty = 0 then (if cty = 0 then v else (bankFmt cty).round .rne (intRes (toSigned 32 v)))
    else
      let x := (bankFmt aty).decode v
      if cty = 0 then toIntType .rne true 32 x else (bankFmt cty).round .rne x.res)

/-- The arithmetic slot on whole registers. -/
def bankAlu (aop aty cty a b c : Nat) : Nat :=
  if aop = 0xB then a
  else if aop = 7 then a &&& b
  else if aop = 8 then a ||| b
  else if aop = 9 then a ^^^ b
  else if aop = 0xA then bankCvt aty cty a
  else
    let w := bankWidth aty
    joinElems w ((List.range (256 / w)).map fun i => bankElem aop aty (bankAt w a i) (bankAt w b i) (bankAt w c i))

/-! ## Broadcast commands (R48, R49) -/

/-- A broadcast command. -/
structure Command where
  channel : Nat
  plen : Nat
  row0 : Nat
  row1 : Nat
  col0 : Nat
  col1 : Nat
  disp : List Nat
  mask : Nat
  prog : Word
  mapping : Word
  deriving DecidableEq, Repr

/-- A 32-byte command as a value. -/
def Command.ofBits (v : Nat) : Command :=
  let b (hi lo : Nat) := bits v (8 * hi + 7) (8 * lo)
  { channel := b 0 0, plen := b 1 1, row0 := b 2 2, row1 := b 3 3, col0 := b 4 4, col1 := b 5 5,
    disp := [b 7 6, b 13 12, b 15 14], mask := b 11 8, prog := BitVec.ofNat 64 (b 23 16), mapping := BitVec.ofNat 64 (b 31 24) }

/-- Words of the program. -/
def Command.len (c : Command) : Nat := c.plen % 8 + 1

/-- The command's own bytes are not reserved (R324). -/
def Command.ok (c : Command) : Bool :=
  c.channel < 32 && c.plen < 8 && c.row0 ≤ c.row1 && c.row1 ≤ 63 && c.col0 ≤ c.col1 && c.col1 ≤ 31
    && c.disp.all (· < 2048) && c.mask ≠ 0 && c.prog.toNat % 8 = 0
    && c.prog.toNat % 2 ^ 18 + 8 * c.len ≤ 2 ^ 18 && c.mapping.toNat % 2 ^ 21 = 0

/-- Streams that the words of a program use (R49). -/
def usedStreams (ws : List BankWord) : List Nat :=
  (ws.filter (·.fop ≠ 0)).map (·.fs) ++ (ws.filter (·.wop ≠ 0)).map (·.wst)

/-- Displacement of a stream: rows and columns. -/
def Command.shift (c : Command) (s : Nat) : Nat × Nat :=
  let d := c.disp.getD s 0
  (bits d 10 5, bits d 4 0)

/-- Every used stream stays within the mapping (R49). -/
def Command.inside (c : Command) (ws : List BankWord) : Bool :=
  (usedStreams ws).all fun s => c.row1 + (c.shift s).1 ≤ 63 && c.col1 + (c.shift s).2 ≤ 31

/-- Address of a stream at a row, a column and a bank (R49). -/
def Command.at (c : Command) (base s row col bank : Nat) : Nat :=
  base + (row + (c.shift s).1) * 2 ^ 15 + (col + (c.shift s).2) * 2 ^ 10 + bank * 32

/-- Channel of a channel-linear physical address (R185). -/
def channelOf (pa : Nat) : Nat := (pa % 2 ^ 45 - 0x800000000) / 2 ^ 30

/-- The bank registers of one bank: values and poison, and the first line poisoned so far. -/
structure BankRun where
  r : Nat → Nat
  p : Nat → Bool
  bad : Option Nat

namespace M

variable {s0 : State}

/-- An engine or a scrub reports an uncorrectable error or a poisoning (R338, R339). -/
def engineReport (pa : Nat) : M s0 PUnit := do
  noteError (homeOf pa) (levelOf pa) pa
  report (homeOf pa) 0 0x010E (pa / 64 * 64)

/-- Read one 32-byte column of the settled image with its poison. -/
def bankColumn (pa : Nat) : M s0 (Nat × Bool) := do
  let bs ← settledBytes pa 32
  return (ofBytes bs, ← settledPoison pa 32)

/-- Write one column; poison marks its line (R339). -/
def bankWrite (writer : Option Nat) (pa v : Nat) (p : Bool) : M s0 PUnit := do
  each (rangeFrom (pa / 4) 8) fun w => meetSettle (4 * w)
  settledWrite pa (toBytes 32 v) writer
  if p then setArrayPoison (pa / 64) true else pure ⟨⟩

/-- One bank word of a program in one bank (R197). -/
def bankStep (writer : Option Nat) (c : Command) (base row col bank : Nat) (q : BankRun) (w : BankWord) : M s0 BankRun := do
  let upd {α : Type} (f : Nat → α) (k : Nat) (v : α) : Nat → α := fun i => if i = k then v else f i
  let q ← if w.fop = 0 then pure q else do
    let (v, p) ← bankColumn (c.at base w.fs row col bank)
    pure { q with r := upd q.r w.fd v, p := upd q.p w.fd p }
  let q :=
    if w.aop = 0 then q
    else
      let unary := w.aop == 0xA || w.aop == 0xB
      let v := bankAlu w.aop w.aty w.cty (q.r w.aa) (q.r w.ab) (q.r w.ac)
      let p := q.p w.aa || (!unary && q.p w.ab) || (w.aop == 4 && q.p w.ac)
      { q with r := upd q.r w.ad v, p := upd q.p w.ad p }
  if w.wop = 0 then return q
  let pa := c.at base w.wst row col bank
  let failed := (← st).bank.bfail.contains (bankOf pa)
  let (v, p) ← if w.wop = 1 then pure (q.r w.ws, q.p w.ws) else do
    let (old, po) ← bankColumn pa
    pure (bankAlu 1 w.aty 0 old (q.r w.ws) 0, po || q.p w.ws)
  bankWrite writer pa v (p || failed)
  return if p || failed then { q with bad := some (q.bad.getD pa) } else q

/-- Apply a request to the settled word as one read-modify-write (R198); poison stays, and a failed bank poisons (R339, R343). -/
def applyAdd (r : BankReq) : M s0 PUnit := do
  if (← settledPoison r.pa 4) || (← st).bank.bfail.contains (bankOf r.pa) then
    setArrayPoison (r.pa / 64) true
    engineReport r.pa
    noteWatch (r.pa / 64) none
  else
    let old := ofBytes (← settledBytes r.pa 4)
    let new := if r.f32 then fmtF32.addRne old r.v.toNat else wrapInt 32 ((old : Int) + r.v.toNat)
    settledWrite r.pa (toBytes 4 new) (some (384 * r.die + r.hid))

/-- Between two column cycles of a running command, a waiting add request may be applied (R198). -/
def addBetween : M s0 PUnit := do
  let free := (← st).bank.reqs.filter fun r => !r.det
  if free.isEmpty then pure ⟨⟩
  else if ← freeBool then
    match free[(← freeWord).toNat % free.length]? with
    | none => pure ⟨⟩
    | some r => do
      modBank fun b => { b with reqs := b.reqs.erase r }
      applyAdd r
  else pure ⟨⟩

/-- Run a command over its rectangle in every selected bank: the first line it poisoned. -/
def runCommand (c : Command) (ws : List BankWord) (base : Nat) : M s0 (Option Nat) := do
  let banks := (List.range 32).filter fun b => bitAt c.mask b
  let writer := some (← hart).key
  banks.foldlM (init := none) fun bad b => do
    let q : BankRun := { r := fun _ => 0, p := fun _ => false, bad := bad }
    let q ← (rangeFrom c.row0 (c.row1 + 1 - c.row0)).foldlM (init := q) fun q row =>
      (rangeFrom c.col0 (c.col1 + 1 - c.col0)).foldlM (init := q) fun q col => do
        addBetween
        ws.foldlM (init := q) fun q w => bankStep writer c base row col b q w
    return q.bad

/-- `nbx` stops at command c (R341): nothing of the command takes effect. -/
def stopNbx {α : Type} (cause : BitVec 8) (v : Word) : M s0 α := do
  modHart fun h => { h with wait := .none }
  trap cause v

/-- A check of a command's bytes, program or mapping: 0x0D for the causes of translation, permission and tenant (R341); an
uncorrectable error and a lost die keep their own. -/
def commandCheck (c : Nat) (va : Word) (n : Nat) (k : Kind) : M s0 Acc := do
  match ← check va n k with
  | .ok a => return a
  | .error e =>
    if e = 0x04 || e = 0x05 || e = 0x06 then stopNbx 0x0D (BitVec.ofNat 64 c) else stopNbx e va

/-- Read 8 bytes of a command block or a program as a scalar load. -/
def commandLoad (c : Nat) (va : Word) : M s0 Nat := do
  let a ← commandCheck c va 8 .load
  needServed a.leaf.home
  match ← loadNow a 8 false with
  | some bs => return ofBytes bs
  | none => do
    notePoison va a.pa true
    stopNbx 0x0E va

/-- Take a write number for a command served at a home in this step (R238). -/
def numberAt (home : Nat) : M s0 PUnit := do
  let h ← hart
  let n ← hartNumber
  arrive home (some n) (clkPut h.sr.vclk h.id.did n)

end M

/-- `nbx` (R197): holds the scalar stream until its last command has completed; the commands run one by one. (DEDUCED, log 37) -/
def execNbx (a b : Reg) (s : State) : Host.Outcome State Fault Refusal :=
  exec1 s (do
    M.needVs
    let n := (← M.rd b).toNat
    if n = 0 then do
      M.mergeDie
      M.advance
    else do
      let blk ← M.rd a
      M.modHart fun h => { h with wait := .nbx blk n 0 })

/-- BROADCAST_COMMAND: the next command of a hart's `nbx` is checked in the order of R341 and runs (R197). -/
def execBroadcastCommand (h : Nat) (s : State) : Host.Outcome State Fault Refusal :=
  exec1 s (do
    M.focus h
    match (← M.hart).wait with
    | .nbx blk n c => do
      M.needWindow (← M.hart).id.did 1
      let va := blk + BitVec.ofNat 64 (32 * c)
      let ds ← M.collect [0, 1, 2, 3] fun i => M.commandLoad c (va + BitVec.ofNat 64 (8 * i))
      let cmd := Command.ofBits (joinElems 64 ds)
      let at_ := BitVec.ofNat 64 c
      if !cmd.ok then M.stopNbx 0x01 at_
      let ws ← M.collect (List.range cmd.len) fun i => M.commandLoad c (cmd.prog + BitVec.ofNat 64 (8 * i))
      let acc ← M.commandCheck c cmd.mapping 1 .atomic
      if !ws.all bankWordOk then M.stopNbx 0x01 at_
      let words := ws.map BankWord.ofBits
      if !acc.leaf.cc || channelOf acc.pa ≠ cmd.channel || !cmd.inside words then M.stopNbx 0x0C at_
      M.needServed acc.leaf.home
      M.numberAt acc.leaf.home
      match ← M.runCommand cmd words acc.pa with
      | some pa => M.engineReport pa
      | none => pure ⟨⟩
      if c + 1 < n then M.modHart fun h => { h with wait := .nbx blk n (c + 1) }
      else do
        M.modHart fun h => { h with wait := .none }
        M.mergeClk ((← M.st).die acc.leaf.home).clock
        M.mergeDie
        M.advance
    | _ => M.stall)

/-! ## Add requests (R198, R199) -/

/-- The launch of a hart that belongs to none. -/
def noLaunch : Nat := 2 ^ 64

namespace M

variable {s0 : State}

/-- The launch of the hart in focus. -/
def launchOf : M s0 Nat := do
  match ← gangOf (← hart) with
  | some g => return g.launch
  | none => return noLaunch

/-- The checks of an add request (R198): alignment, translation, read and write permission, tenant, then a CC mapping. -/
def checkAdd (va : Word) : M s0 (Except (BitVec 8) Acc) := do
  match ← check va 4 .atomic with
  | .error c => return .error c
  | .ok a => return if a.leaf.cc then .ok a else .error 0x0C

/-- The bank unit of a word has its 4,096 places for waiting requests taken. -/
def bankFull (pa : Nat) : M s0 Bool := do
  return ((← st).bank.reqs.filter fun r => r.det && bankOf r.pa == bankOf pa).length ≥ 4096

/-- A bank unit accepts a request of the hart in focus (R198); the mode is that of `nbdet`. -/
def acceptAdd (pa : Nat) (f32 : Bool) (v : BitVec 32) : M s0 PUnit := do
  let h ← hart
  let l ← launchOf
  let det := h.sr.nbdet
  modBank fun b => { b with reqs := b.reqs ++ [{
    pa := pa, f32 := f32, v := v, det := det, launch := l, die := h.id.did, hid := h.id.hid, seq := h.nbSeq }] }
  if det then modHart fun h => { h with nbSeq := h.nbSeq + 1 }
  else push (.bankAddApply 0)

end M

/-- The order of a flush: ascending (die, `hid`, sequence) (R199). -/
def BankReq.before (a b : BankReq) : Bool :=
  decide (a.die < b.die) || (a.die == b.die && (decide (a.hid < b.hid) || (a.hid == b.hid && decide (a.seq ≤ b.seq))))

/-- Insert a request into a list in the order of a flush. -/
def insertReq : List BankReq → BankReq → List BankReq
  | [], r => [r]
  | q :: qs, r => if q.before r then q :: insertReq qs r else r :: q :: qs

/-- Requests in the order of a flush. -/
def sortReqs (l : List BankReq) : List BankReq := l.foldl insertReq []

/-- Apply the waiting deterministic requests of a launch, in order (R199). -/
def M.flushLaunch {s0 : State} (launch : Nat) : M s0 PUnit := do
  let mine := (← M.st).bank.reqs.filter fun r => r.det && r.launch == launch
  M.modBank fun b => { b with reqs := b.reqs.filter fun r => !(r.det && r.launch == launch) }
  M.each (sortReqs mine) M.applyAdd

/-- `nbadd` (R198). -/
def execNbadd (f32 : Bool) (a b : Reg) (s : State) : Host.Outcome State Fault Refusal :=
  exec1 s (do
    M.needVs
    let va ← M.rd a
    match ← M.checkAdd va with
    | .error c => M.trap c va
    | .ok acc => do
      let h ← M.hart
      M.needWindow h.id.did 1
      if h.sr.nbdet && (← M.bankFull acc.pa) then M.stall
      M.needServed acc.leaf.home
      M.numberAt acc.leaf.home
      M.acceptAdd acc.pa f32 ((← M.rd b).setWidth 32)
      M.advance)

/-- BANK_ADD_APPLY: the n-th waiting request with `nbdet` = 0 is applied (R198). (DEDUCED, log 22) -/
def execBankAddApply (n : Nat) (s : State) : Host.Outcome State Fault Refusal :=
  exec1 s (do
    match ((← M.st).bank.reqs.filter fun r => !r.det)[n]? with
    | none => M.stall
    | some r => do
      M.modBank fun b => { b with reqs := b.reqs.erase r }
      M.applyAdd r)

/-- `nbflush` (R199): waits for the hart's requests with `nbdet` = 0, then applies the waiting requests of its launch. -/
def execNbflush (s : State) : Host.Outcome State Fault Refusal :=
  exec1 s (do
    M.needVs
    let h ← M.hart
    let free := (← M.st).bank.reqs.filter fun r => !r.det
    match free.findIdx? fun r => r.die == h.id.did && r.hid == h.id.hid with
    | some i => do
      M.push (.bankAddApply i)
      M.done
    | none => do
      M.flushLaunch (← M.launchOf)
      M.mergeDie
      M.advance)

end Sys2Proof.Machine
end

