-- ==== Sys2Proof/Machine/Reduction.lean ====
section
/-!
DEFINITION. Stores by a die itself, physical ranges, and the base reduction engines (R202, R264, R339).
-/

namespace Sys2Proof.Machine

namespace M

variable {s0 : State}

/-! ## Writes of a die (R238, R239) -/

/-- k writes of a die may be delivered at their home in this step: the channel is empty, the die's clock is covered there and the numbers lie in
the window; for an examination the tail stores that are held at the home itself count as performed (R263). Otherwise what is missing is
started, the event is put behind it and the step ends. -/
def dieMayWrite (k d home : Nat) (examining : Bool) (again : Instr) : M s0 PUnit := do
  match (← st).windowShut d k with
  | j :: _ => do
    pushMarks d j
    push again
    done
  | [] => pure ⟨⟩
  match (← st).fab.chans.find? fun c => c.src == d && c.dst == home && !c.reqs.isEmpty with
  | some c => do
    each c.reqs fun _ => push (.packetDelivery d home)
    push again
    done
  | none => pure ⟨⟩
  match (← st).uncovered home ((← st).die d).clock (fun i => i == d || (examining && i == home)) with
  | [] => pure ⟨⟩
  | j :: _ => do
    if j = home then push .tailExamination else pushCoverage home j
    push again
    done

/-- k writes of a die may perform at their home in this step. -/
def dieReadyFor (k d home : Nat) (again : Instr) : M s0 PUnit := dieMayWrite k d home false again

/-- One write of a die may perform at its home in this step. -/
def dieReady (d home : Nat) (again : Instr) : M s0 PUnit := dieReadyFor 1 d home again

/-- A write number of a die whose write performs at a home in this step: the home has it covered and learns what the die knows. -/
def dieNumber (d home : Nat) : M s0 (BitVec 16) := do
  let n ← number d
  if home ≠ d then
    modDie home fun f => { f with covered := clkPut f.covered d (maxClk (clkAt f.covered d) n) }
    learnDie home d
  return n

/-- A store of a die through the live image. -/
def dieStore (d pa : Nat) (bs : List Byte) : M s0 PUnit := do
  let n ← dieNumber d (homeOf pa)
  performStore pa bs .engine true none (some (d, n))

/-! ## Ranges -/

/-- The physical pieces of a virtual range, page by page, in the space of a virtual function; a page that is not pinned HBM4
gives 0x05. n bounds the number of pages. -/
def pinnedPieces (vf tenant : Nat) (k : Kind) (bad : BitVec 8 × Word) :
    Nat → Nat → Nat → M s0 (Except (BitVec 8 × Word) (List Span))
  | 0, _, _ => return .ok []
  | n + 1, va, len => do
    if len = 0 then return .ok []
    let here := min len (2 ^ 18 - va % 2 ^ 18)
    match ← checkAs vf tenant (BitVec.ofNat 64 va) 1 k with
    | .error c => return .error (c, BitVec.ofNat 64 va)
    | .ok a =>
      if !(a.leaf.pin && isHbm a.pa) then return .error bad
      match ← pinnedPieces vf tenant k bad n (va + here) (len - here) with
      | .error e => return .error e
      | .ok l => return .ok ({ pa := a.pa, len := here, wb := a.leaf.wb, ww := a.leaf.ww } :: l)

/-- The pieces of a range of len bytes with their attributes. -/
def pinnedSpans (vf tenant : Nat) (k : Kind) (bad : BitVec 8 × Word) (va : Word) (len : Nat) :
    M s0 (Except (BitVec 8 × Word) (List Span)) :=
  pinnedPieces vf tenant k bad (len / 2 ^ 18 + 2) va.toNat len

/-- The pieces of a range of len bytes: address and length. -/
def pinnedRange (vf tenant : Nat) (k : Kind) (bad : BitVec 8 × Word) (va : Word) (len : Nat) :
    M s0 (Except (BitVec 8 × Word) (List (Nat × Nat))) := do
  match ← pinnedSpans vf tenant k bad va len with
  | .error e => return .error e
  | .ok l => return .ok (l.map fun s => (s.pa, s.len))

end M

/-! ## Copies of an engine (R147, R238, R258, R264) -/

/-- The way of an engine's access to a piece: uncached pages are not allocated. -/
def Span.path (s : Span) : Path := if s.wb then .slice else .engine

/-- The rest of a list of pieces behind n bytes. -/
def dropSpans : Nat → List Span → List Span
  | 0, l => l
  | _, [] => []
  | n, s :: l => if n < s.len then { s with pa := s.pa + n, len := s.len - n } :: l else dropSpans (n - s.len) l

/-- The first bytes of two lists of pieces that lie within one piece of each. -/
def firstChunk : List Span → List Span → Option (Span × Span)
  | a :: _, b :: _ => let k := min a.len b.len
                      if k = 0 then none else some ({ a with len := k }, { b with len := k })
  | _, _ => none

/-- The bytes of a list of pieces. -/
def spanBytes (l : List Span) : Nat := (l.map (·.len)).sum

/-- Lines that a piece meets. -/
def Span.lines (s : Span) : Nat := s.len / 64 + 2

namespace M

variable {s0 : State}

/-- The engine of die d copies a piece onto another of the same length through the live image, each line with a write number of its
own; a poisoned source line poisons the lines it goes to (R337). -/
def copyChunk (d : Nat) (a b : Span) : M s0 PUnit := do
  let s ← st
  each (rangeFrom (a.pa / 64) ((a.pa + a.len - 1) / 64 + 1 - a.pa / 64)) fun la => openLine la a.path a.ww
  each (cutLines b.pa (s.liveBytes a.pa a.len a.ww)) fun (la, off, bs) => do
    let n ← dieNumber d (homeOf (64 * la))
    storeLive (64 * la + off) bs b.path b.ww none (some (d, n))
    if (s.firstPoison (a.pa + (64 * la + off - b.pa)) bs.length).isSome then poisonLine la else pure ⟨⟩

end M

/-- The physical address at an offset of a list of pieces. -/
def pieceAt : List (Nat × Nat) → Nat → Nat
  | [], _ => 0
  | (pa, n) :: l, off => if off < n then pa + off else pieceAt l (off - n)

/-- The frames that pieces meet. -/
def pieceFrames (l : List (Nat × Nat)) : List Nat :=
  (l.flatMap fun (pa, n) => if n = 0 then [] else rangeFrom (frameOf pa) (frameOf (pa + n - 1) + 1 - frameOf pa)).eraseDups

/-- The lines that pieces meet. -/
def pieceLines (l : List (Nat × Nat)) : List Nat :=
  (l.flatMap fun (pa, n) => if n = 0 then [] else rangeFrom (pa / 64) ((pa + n - 1) / 64 + 1 - pa / 64)).eraseDups

/-- Two lists of pieces share a byte. -/
def piecesMeet (a b : List (Nat × Nat)) : Bool :=
  a.any fun (p, n) => b.any fun (q, m) => decide (p < q + m) && decide (q < p + n)

/-- Bytes of an element of a reduction: f32 4, bf16 2, i32 4 (R202). -/
def redWidth (fmt : Nat) : Nat := if fmt = 1 then 2 else 4

/-- One step of the tree of a reduction (R202): sums rounded RNE or wrapping, minimum and maximum by R69 or signed. -/
def redJoin (op fmt a b : Nat) : Nat :=
  if fmt = 2 then
    let x := toSigned 32 a
    let y := toSigned 32 b
    wrapInt 32 (if op = 0 then x + y else if op = 1 then max x y else min x y)
  else
    let f := if fmt = 1 then fmtBf16 else fmtF32
    if op = 0 then f.addRne a b else if op = 1 then f.max a b else f.min a b

/-- The destination overlaps a source otherwise than by being source 0, or for an `xmerge` any one of them: its content is then not defined
(R202, R264). (DEDUCED, log 112) -/
def Reduction.clash (r : Reduction) (merge : Bool) : Bool :=
  r.srcs.zipIdx.any fun (s, i) => piecesMeet r.dst s && !(s == r.dst && (merge || i == 0))

namespace M

variable {s0 : State}

/-- One element: its value and whether a source was poisoned. -/
def redElement (r : Reduction) (merge : Bool) (w e : Nat) : M s0 (Nat × Bool) := do
  let vs ← collect r.srcs fun s => do return ofBytes (← settledBytes (pieceAt s (e * w)) w)
  let bad ← collect r.srcs fun s => settledPoison (pieceAt s (e * w)) w
  let v := tree (redJoin r.op r.fmt) 0 vs
  if r.clash merge then return ((← freeWord).toNat % 2 ^ (8 * w), bad.any id)
  return (v, bad.any id)

/-- Write a list of bytes over pieces of the settled image. -/
def writePieces : List (Nat × Nat) → List Byte → M s0 PUnit
  | [], _ => pure ⟨⟩
  | (pa, n) :: l, bs => do
    let here := bs.take n
    each (rangeFrom (pa / 4) ((pa + here.length + 3) / 4 - pa / 4)) fun w => meetSettle (4 * w)
    settledWrite pa here none
    writePieces l (bs.drop n)

/-- The four completion steps of a reduction on its die (R202); the flag store has been made ready. -/
def completeReduction (d : Nat) (r : Reduction) : M s0 PUnit := do
  each (pieceLines r.dst) dropLine
  let frames := if r.n = 0 then [r.dst0] else pieceFrames r.dst
  each frames advanceCount
  if r.journal then journal 0x0006 d r.vf 0xFFFF 0 0 (r.n % 2 ^ 32) else pure ⟨⟩
  match r.flagPa with
  | some pa => dieStore d pa (toBytes 8 r.flagV.toNat)
  | none => pure ⟨⟩

/-- Run a reduction on a die: every element, then completion (R202, R339). -/
def runReduction (d : Nat) (r : Reduction) (merge : Bool) : M s0 PUnit := do
  let w := redWidth r.fmt
  let es ← collect (List.range r.n) fun e => redElement r merge w e
  writePieces r.dst (es.flatMap fun p => toBytes w p.1)
  let bad := ((List.range r.n).zip es).filterMap fun (e, p) => if p.2 then some (pieceAt r.dst (e * w)) else none
  each bad fun pa => setArrayPoison (pa / 64) true
  match bad with
  | [] => pure ⟨⟩
  | pa :: _ => engineReport pa
  completeReduction d r

/-- The frames of the sources of a reduction. -/
def sourceFrames (r : Reduction) : List Nat := (r.srcs.flatMap pieceFrames).eraseDups

/-- A settle of one of the frames is under way. -/
def settlingAny (fs : List Nat) : M s0 Bool := do
  return (← st).img.settling.any fun g => fs.contains g.frame && !g.down

end M

/-- The head of an engine's queue, of the requests of every die. -/
def heads : List (Nat × Reduction) → List (Nat × Reduction)
  | [] => []
  | p :: l => p :: (heads l).filter fun q => q.1 ≠ p.1

/-- A reduction waits for a settle that it has started. -/
def Reduction.waiting (r : Reduction) (s : State) : Bool := s.img.settling.any fun g => r.waits.contains g.frame && !g.down

namespace M

variable {s0 : State}

/-- The request that runs next, of the heads that wait for nothing: each engine runs its own, in any order among the engines. -/
def pickHead : List (Nat × Reduction) → M s0 (Option (Nat × Reduction))
  | [] => return none
  | [p] => return some p
  | p :: l => do if ← freeBool then pickHead l else return some p

/-- What must hold before a reduction can complete: no host cache holds a line of its destination, and its flag store may perform
(R194, R202). -/
def completionReady (d : Nat) (r : Reduction) (again : Instr) : M s0 PUnit := do
  let s ← st
  let held := (pieceLines r.dst).filterMap (findLine s.img.cache) |>.filter fun l => l.level == .host
  if !held.isEmpty then
    snoopLines held
    push again
    done
  match r.flagPa with
  | some pa => dieReady d (homeOf pa) again
  | none => pure ⟨⟩

end M

/-- A parameter block of `bred` (R202). -/
structure RedBlock where
  op : Nat
  fmt : Nat
  count : Nat
  flags : Nat
  n : Nat
  dst : Word
  flag : Word
  flagV : Word
  table : Word
  rest : Nat
  deriving DecidableEq, Repr

/-- The fields of 64 bytes. -/
def RedBlock.ofBits (v : Nat) : RedBlock :=
  let b (hi lo : Nat) := bits v (8 * hi + 7) (8 * lo)
  { op := b 0 0, fmt := b 1 1, count := b 2 2, flags := b 3 3, n := b 7 4, dst := BitVec.ofNat 64 (b 15 8),
    flag := BitVec.ofNat 64 (b 23 16), flagV := BitVec.ofNat 64 (b 31 24), table := BitVec.ofNat 64 (b 39 32), rest := b 63 40 }

/-- The limits of the block itself. -/
def RedBlock.ok (b : RedBlock) : Bool :=
  b.op ≤ 2 && b.fmt ≤ 2 && 2 ≤ b.count && b.count ≤ 16 && b.flags < 2 && b.rest = 0
    && b.dst.toNat % redWidth b.fmt = 0 && b.flag.toNat % 8 = 0 && b.table.toNat % 8 = 0

namespace M

variable {s0 : State}

/-- A scalar load of 8 bytes of a parameter block; a failing check traps as a load's. -/
def blockLoad (va : Word) : M s0 Nat := do
  let a ← checkOr va 8 .load
  needServed a.leaf.home
  match ← loadNow a 8 false with
  | some bs => return ofBytes bs
  | none => do
    notePoison va a.pa true
    trap 0x0E va

/-- 64 bytes of a parameter block. -/
def blockLoad64 (va : Word) : M s0 Nat := do
  let ds ← collect (List.range 8) fun i => blockLoad (va + BitVec.ofNat 64 (8 * i))
  return joinElems 64 ds

/-- The flag address of a request: none for 0. -/
def flagAccess (vf tenant : Nat) (flag : Word) : M s0 (Except (BitVec 8 × Word) (Option Nat)) := do
  if flag = 0 then return .ok none
  match ← checkAs vf tenant flag 8 .store with
  | .ok a => return .ok (some a.pa)
  | .error c => return .error (c, flag)

/-- The ranges of a reduction in an address space: the die and the request. `bad` answers a range outside pinned HBM4 or homed on
several dies. -/
def reductionOf (vf tenant : Nat) (bad : BitVec 8 × Word) (b : RedBlock) (srcs : List Word) (journal : Bool) :
    M s0 (Except (BitVec 8 × Word) (Nat × Reduction)) := do
  let w := redWidth b.fmt
  if srcs.any fun a => a.toNat % w ≠ 0 then return .error bad
  match ← pinnedRange vf tenant .store bad b.dst (max b.n 1 * w) with
  | .error e => return .error e
  | .ok dst =>
    let ss ← collect srcs fun a => pinnedRange vf tenant .load bad a (b.n * w)
    match ss.find? fun r => match r with | .error _ => true | .ok _ => false with
    | some (.error e) => return .error e
    | _ =>
      let ranges := ss.map fun r => match r with | .ok l => l | .error _ => []
      let d := homeOf (pieceAt dst 0)
      if (dst :: ranges).any fun l => l.any fun p => homeOf p.1 ≠ d then return .error bad
      match ← flagAccess vf tenant b.flag with
      | .error e => return .error e
      | .ok fpa =>
        let dst' := if b.n = 0 then [] else dst
        let pre := b.flags % 2 == 1
        return .ok (d, Reduction.mk b.op b.fmt b.n ranges dst' (frameOf (pieceAt dst 0)) fpa b.flagV pre [] [] journal vf)

/-- An engine accepts a reduction. -/
def acceptReduction (d : Nat) (r : Reduction) : M s0 PUnit := do
  modBank fun b => { b with bred := b.bred ++ [(d, r)] }
  push .bredReduction

end M

/-- `bred` (R202): returns once the engine has accepted the request. -/
def execBred (a : Reg) (s : State) : Host.Outcome State Fault Refusal :=
  exec1 s (do
    M.needVs
    let sa ← M.rd a
    let h ← M.hart
    let b := RedBlock.ofBits (← M.blockLoad64 sa)
    if !b.ok then M.trap 0x05 sa
    let srcs ← M.collect (List.range b.count) fun i => M.blockLoad (b.table + BitVec.ofNat 64 (8 * i))
    match ← M.reductionOf h.id.vf h.id.tenant (0x05, sa) b (srcs.map (BitVec.ofNat 64 ·)) false with
    | .error (c, v) => M.trap c v
    | .ok (d, r) => do
      M.needWindow h.id.did 1
      M.needServed d
      M.numberAt d
      M.acceptReduction d r
      M.advance)

/-- BRED_REDUCTION: the first accepted reduction of an engine runs (R202): its presettles first, and then, in the words of the settled image
as they stand (R192), every element and the four steps. -/
def execBredReduction (s : State) : Host.Outcome State Fault Refusal :=
  exec1 s (do
    match ← M.pickHead ((heads s.bank.bred).filter fun p => !p.2.waiting s) with
    | none => M.stall
    | some (d, r) => do
      let mine (p : Nat × Reduction) : Bool := p.1 == d
      if r.presettle then
        let fs := M.sourceFrames r
        M.modBank fun b => { b with bred := changeFirst mine (fun p => (d, { p.2 with presettle := false, waits := fs })) b.bred }
        M.each fs fun f => M.startSettle f false
        M.push .bredReduction
      else do
        M.completionReady d r .bredReduction
        M.modBank fun b => { b with bred := dropFirst mine b.bred }
        M.runReduction d r false
        if (← M.st).bank.bred.isEmpty then pure ⟨⟩ else M.push .bredReduction)

end Sys2Proof.Machine
end

