-- ==== Sys2Proof/Machine/PlaceScalar.lean ====
section
/-!
DEFINITION. The scalar instructions of the placement engine (R248, R249, R254, R255, R264, R366), and the merge of replica
gradients on the master's die.
-/

namespace Sys2Proof.Machine

/-- The table copy of a die. -/
def State.tableOf (s : State) (d : Nat) : DieTable := s.place.tables.toList.getD d .reset

namespace M

variable {s0 : State}

/-- Change the table copy of a die. -/
def modTable (d : Nat) (f : DieTable → DieTable) : M s0 PUnit :=
  modPlace fun p => { p with tables := p.tables.setIfInBounds d (f (p.tables.toList.getD d .reset)) }

/-- Add to the load counter of an expert on a die: it saturates, and the first saturation of an interval is reported (R248,
R366). -/
def addLoad (d x n : Nat) : M s0 PUnit := do
  let old := ((aget ((← st).tableOf d).cur x).getD 0).toNat
  let new := min (old + n) (2 ^ 32 - 1)
  modTable d fun t => { t with cur := aput t.cur x (BitVec.ofNat 32 new) }
  let key := d * 8192 + x
  if old + n > 2 ^ 32 - 1 && !((← st).place.saturated.contains key) then
    modPlace fun p => { p with saturated := key :: p.saturated }
    report d 0 0x0311 x
  else pure ⟨⟩

end M

/-- `xver` (R254): the die's version word; the die's clock merges. -/
def execXver (d : Reg) (s : State) : Host.Outcome State Fault Refusal :=
  exec1 s (do
    M.needVs
    M.mergeDie
    let h ← M.hart
    M.setReg d ((((← M.st).tableOf h.id.did).version).setWidth 64)
    M.advance)

/-- `xcount` (R249). -/
def execXcount (a b : Reg) (s : State) : Host.Outcome State Fault Refusal :=
  exec1 s (do
    let x ← M.rd a
    if x.toNat ≥ 8192 then M.trap 0x05 x
    let n := ((← M.rd b).setWidth 32).toNat
    M.addLoad (← M.hart).id.did x.toNat n
    M.advance)

/-- A policy from 64 bytes, none where it breaks a limit (R255). -/
def policyOf (v : Nat) : Option Policy :=
  let b (hi lo : Nat) := bits v (8 * hi + 7) (8 * lo)
  let p : Policy := { hot := b 3 0, cold := b 7 4, hyst := b 8 8, idle := b 9 9, kinds := b 10 10, maxRep := b 11 11,
                      seedTable := BitVec.ofNat 64 (b 23 16) }
  if p.hot ≠ 0 && p.cold < p.hot && 1 ≤ p.hyst && p.idle ≤ 100 && 1 ≤ p.kinds && p.kinds < 4 && 1 ≤ p.maxRep
      && p.maxRep ≤ 8 && b 15 12 = 0 && b 63 24 = 0 then some p
  else none

/-- `xpol` (R255): legal in supervisor mode; the policy takes effect at the next interval boundary. -/
def execXpol (a : Reg) (s : State) : Host.Outcome State Fault Refusal :=
  exec1 s (do
    if !(← M.hart).sup then M.trap 0x05 (tvalOf (.xpol a))
    M.needVs
    let sa ← M.rd a
    match policyOf (← M.blockLoad64 sa) with
    | none => M.trap 0x05 sa
    | some p => do
      M.modPlace fun q => { q with nextPolicy := some p }
      M.advance)

/-! ## `xmerge` (R264) -/

/-- A parameter block of `xmerge`. -/
structure MergeBlock where
  expert : Nat
  fmt : Nat
  flags : Nat
  n : Nat
  master : Word
  flag : Word
  flagV : Word
  table : Word
  staging : Word
  rest : Nat
  deriving DecidableEq, Repr

/-- The fields of 64 bytes. -/
def MergeBlock.ofBits (v : Nat) : MergeBlock :=
  let b (hi lo : Nat) := bits v (8 * hi + 7) (8 * lo)
  { expert := b 1 0, fmt := b 2 2, flags := b 3 3, n := b 7 4, master := BitVec.ofNat 64 (b 15 8),
    flag := BitVec.ofNat 64 (b 23 16), flagV := BitVec.ofNat 64 (b 31 24), table := BitVec.ofNat 64 (b 39 32),
    staging := BitVec.ofNat 64 (b 47 40), rest := b 63 48 }

/-- The limits of the block itself; addresses are aligned as in R202. -/
def MergeBlock.ok (b : MergeBlock) : Bool :=
  b.expert < 8192 && b.fmt ≤ 1 && b.flags = 0 && b.rest = 0 && b.master.toNat % redWidth b.fmt = 0
    && b.flag.toNat % 8 = 0 && b.table.toNat % 8 = 0

namespace M

variable {s0 : State}

/-- The physical pieces of a range of memory that loads reach, of any kind of page, and whether it is pinned HBM4. -/
def readPieces (vf tenant : Nat) : Nat → Nat → Nat → M s0 (Except (BitVec 8 × Word) (List Span × Bool))
  | 0, _, _ => return .ok ([], true)
  | n + 1, va, len => do
    if len = 0 then return .ok ([], true)
    let here := min len (2 ^ 18 - va % 2 ^ 18)
    match ← checkAs vf tenant (BitVec.ofNat 64 va) 1 .load with
    | .error c => return .error (c, BitVec.ofNat 64 va)
    | .ok a =>
      match ← readPieces vf tenant n (va + here) (len - here) with
      | .error e => return .error e
      | .ok (l, p) =>
        return .ok ({ pa := a.pa, len := here, wb := a.leaf.wb, ww := a.leaf.ww } :: l, p && a.leaf.pin && isHbm a.pa)

/-- One buffer of a merge: in place on the master's die, or copied into its part of the staging area (R264). -/
def mergeBuffer (h : Hart) (d : Nat) (b : MergeBlock) (sa : Word) (r : Nat) (buf : Word) :
    M s0 (Except (BitVec 8 × Word) (List Span × Option (List Span))) := do
  let len := b.n * redWidth b.fmt
  if buf.toNat % redWidth b.fmt ≠ 0 then return .error (0x05, sa)
  match ← readPieces h.id.vf h.id.tenant (len / 2 ^ 18 + 2) buf.toNat len with
  | .error e => return .error e
  | .ok (ps, pinned) =>
    if pinned && ps.all fun p => homeOf p.pa == d then return .ok (ps, none)
    let at_ := b.staging + BitVec.ofNat 64 (r * len)
    if at_.toNat % redWidth b.fmt ≠ 0 then return .error (0x05, sa)
    match ← pinnedSpans h.id.vf h.id.tenant .store (0x05, sa) at_ len with
    | .error e => return .error e
    | .ok st => if st.all fun p => homeOf p.pa == d then return .ok (st, some ps) else return .error (0x05, sa)

/-- The buffers of a merge in ascending replica index. -/
def mergeBuffers (h : Hart) (d : Nat) (b : MergeBlock) (sa : Word) :
    List (Nat × Word) → M s0 (Except (BitVec 8 × Word) (List (List Span × Option (List Span))))
  | [] => return .ok []
  | (r, buf) :: l => do
    match ← mergeBuffer h d b sa r buf with
    | .error e => return .error e
    | .ok x =>
      match ← mergeBuffers h d b sa l with
      | .error e => return .error e
      | .ok xs => return .ok (x :: xs)

end M

/-- `xmerge` (R264): completes as `vwait`, checks the block and returns once the engine on the master's die has accepted it. -/
def execXmerge (a : Reg) (s : State) : Host.Outcome State Fault Refusal :=
  exec1 s (do
    M.needVwait
    let sa ← M.rd a
    let h ← M.hart
    let b := MergeBlock.ofBits (← M.blockLoad64 sa)
    if !b.ok then M.trap 0x05 sa
    let bufs ← M.collect (List.range 8) fun i => M.blockLoad (b.table + BitVec.ofNat 64 (8 * i))
    let live := ((List.range 8).zip (bufs.map (BitVec.ofNat 64 ·))).filter fun p => p.2 ≠ (0 : Word)
    if live.isEmpty then M.trap 0x05 sa
    match ← M.pinnedRange h.id.vf h.id.tenant .store (0x05, sa) b.master (max b.n 1 * redWidth b.fmt) with
    | .error (c, v) => M.trap c v
    | .ok dst => do
      let d := homeOf (pieceAt dst 0)
      if dst.any fun p => homeOf p.1 ≠ d then M.trap 0x05 sa
      match ← M.mergeBuffers h d b sa live with
      | .error (c, v) => M.trap c v
      | .ok xs => do
        match ← M.flagAccess h.id.vf h.id.tenant b.flag with
        | .error (c, v) => M.trap c v
        | .ok fpa => do
          M.needWindow h.id.did 1
          M.needServed d
          M.numberAt d
          let copies := xs.filterMap fun x => x.2.map fun src => (src, x.1)
          let dst' := if b.n = 0 then [] else dst
          let srcs := xs.map fun x => x.1.map fun p => (p.pa, p.len)
          let r := Reduction.mk 0 b.fmt b.n srcs dst' (frameOf (pieceAt dst 0)) fpa b.flagV true [] copies true h.id.vf
          M.modBank fun k => { k with xmerge := k.xmerge ++ [(d, r)] }
          M.push .xmergeReduction
          M.advance)

/-- The next bytes of the copies of a merge, and the copies that are left behind them. -/
def nextCopy : List (List Span × List Span) → Option (Span × Span × List (List Span × List Span))
  | [] => none
  | (src, dst) :: l =>
    match firstChunk src dst with
    | none => nextCopy l
    | some (a, b) => some (a, b, (dropSpans a.len src, dropSpans b.len dst) :: l)

/-- XMERGE_REDUCTION: the first accepted merge of an engine copies its remote buffers, piece by piece, settles every buffer and sums in replica
order into the master, then completes as a `bred` (R264). The copies read what the merge's die has learned (R240). -/
def execXmergeReduction (s : State) : Host.Outcome State Fault Refusal :=
  exec1 s (do
    match ← M.pickHead ((heads s.bank.xmerge).filter fun p => !p.2.waiting s) with
    | none => M.stall
    | some (d, r) => do
      let mine (p : Nat × Reduction) : Bool := p.1 == d
      let change (f : Reduction → Reduction) : M s PUnit :=
        M.modBank fun b => { b with xmerge := changeFirst mine (fun p => (p.1, f p.2)) b.xmerge }
      match nextCopy r.copies with
      | some (a, b, rest) => do
        M.dieReady d (homeOf a.pa) .xmergeReduction
        M.dieReadyFor b.lines d d .xmergeReduction
        M.learnDie d (homeOf a.pa)
        M.copyChunk d a b
        change fun r => { r with copies := rest }
        M.push .xmergeReduction
      | none =>
        if r.presettle then
          let fs := M.sourceFrames r
          change fun r => { r with presettle := false, waits := fs, copies := [] }
          M.each fs fun f => M.startSettle f false
          M.push .xmergeReduction
        else do
          M.completionReady d r .xmergeReduction
          M.modBank fun b => { b with xmerge := dropFirst mine b.xmerge }
          M.runReduction d r true
          if (← M.st).bank.xmerge.isEmpty then pure ⟨⟩ else M.push .xmergeReduction)

end Sys2Proof.Machine
end

