-- ==== Sys2Proof/Machine/Operands.lean ====
section
/-!
DEFINITION. Vector operands (R16, R39 to R42, R115 to R117): where an element lies in a register group, which elements are
performed, and the second operand in each of its forms.
-/

namespace Sys2Proof.Machine

/-! ## Elements in registers (R16) -/

/-- A vector register by number; a number past v31 holds nothing. -/
def VecState.reg (vs : VecState) (n : Nat) : VReg := vs.v.toList.getD n 0

/-- w bits at a bit offset of the register group that starts at register n. An element never crosses a register. -/
def VecState.bitsAt (vs : VecState) (n off w : Nat) : Nat := ((vs.reg (n + off / 8192)).extractLsb' (off % 8192) w).toNat

/-- A register with w bits at an offset replaced. -/
def putField (r : VReg) (off w v : Nat) : VReg :=
  (r &&& ~~~(BitVec.ofNat 8192 (2 ^ w - 1) <<< off)) ||| (BitVec.ofNat 8192 (v % 2 ^ w) <<< off)

/-- Write w bits at a bit offset of the register group that starts at register n. -/
def VecState.putBits (vs : VecState) (n off w v : Nat) : VecState :=
  let k := n + off / 8192
  { vs with v := vs.v.setIfInBounds k (putField (vs.reg k) (off % 8192) w v) }

/-- Element e at width w. -/
def VecState.elem (vs : VecState) (n w e : Nat) : Nat := vs.bitsAt n (e * w) w

/-- Write element e at width w. -/
def VecState.setElem (vs : VecState) (n w e v : Nat) : VecState := vs.putBits n (e * w) w v

/-- A byte of a register group: bytes count through the group. -/
def VecState.byteAt (vs : VecState) (n i : Nat) : Nat := vs.bitsAt n (8 * i) 8

/-- A mask register; m0 reads as all ones. -/
def VecState.mask (vs : VecState) (k : Nat) : Mask := if k = 0 then BitVec.allOnes 8192 else vs.m.toList.getD k 0

/-- Write one bit of a mask register; m0 ignores writes (R122). -/
def VecState.setMaskBit (vs : VecState) (k e : Nat) (b : Bool) : VecState :=
  if k = 0 then vs else { vs with m := vs.m.setIfInBounds k (putField (vs.m.toList.getD k 0) e 1 (if b then 1 else 0)) }

/-- The lane group and the lane of an element (`lane_of`, R16). -/
def laneOf (w e : Nat) : Nat × Nat :=
  let n := 512 / w
  (e / n % 4, e % n / (n / 8))

/-- The ordinal of an element in its lane (`ordinal_of`, R148). -/
def ordinalOf (w e : Nat) : Nat :=
  let n := 512 / w
  e / n / 4 * (n / 8) + e % (n / 8)

/-! ## Which elements are performed (R116) -/

/-- The frame in which a vector word runs: elements below `lim`, in a lane-threading region or an invert routine only the
active ones; whether the word runs in a region, and whether it only looks ahead for a `vexit`. -/
structure VEnv where
  lim : Nat
  act : Option Mask
  region : Bool
  probe : Bool
  deriving DecidableEq, Repr

/-- An element is active in the frame. -/
def VEnv.active (env : VEnv) (e : Nat) : Bool :=
  match env.act with
  | none => true
  | some a => a.getLsbD e

/-- An element is performed: below the limit, active, and its mask bit set. -/
def VEnv.performed (env : VEnv) (m : Mask) (e : Nat) : Bool := decide (e < env.lim) && env.active e && m.getLsbD e

/-- The performed elements in index order. -/
def VEnv.elems (env : VEnv) (m : Mask) : List Nat := (List.range env.lim).filter fun e => env.active e && m.getLsbD e

/-- Write f e into each listed element at width w; f reads the state from before. -/
def VecState.putElems (vs : VecState) (vd w : Nat) (es : List Nat) (f : Nat → Nat) : VecState :=
  es.foldl (fun acc e => acc.setElem vd w e (f e)) vs

/-- Write f e into the mask bit of each listed element. -/
def VecState.putMaskBits (vs : VecState) (k : Nat) (es : List Nat) (f : Nat → Bool) : VecState :=
  es.foldl (fun acc e => acc.setMaskBit k e (f e)) vs

/-! ## Types (R42) -/

/-- The width in bits of a type: fp4 counts as its byte, bp as one bit. -/
def tyBits (t : BitVec 4) : Nat :=
  if t = 0 || t = 4 || t = 12 || t = 13 || t = 14 then 8
  else if t = 1 || t = 5 || t = 8 || t = 9 then 16
  else if t = 2 || t = 6 || t = 10 then 32
  else if t = 15 then 1 else 64

/-- A signed integer type. -/
def tySigned (t : BitVec 4) : Bool := t < 4#4

/-- A floating type. -/
def tyFloat (t : BitVec 4) : Bool := t ≥ 8#4

/-- The value of a w-bit pattern under a type's signedness. -/
def tyInt (t : BitVec 4) (w v : Nat) : Int := if tySigned t then toSigned w v else (v % 2 ^ w : Nat)

/-- The replicated unit of a word (R41): 1, 4, 16 or 64 elements. -/
def repUnit (f : VWord) : Nat := 4 ^ f.rsz.toNat

/-- The position of vb that element e reads (R41). -/
def vbPos (f : VWord) (e : Nat) : Nat := if f.rep then f.ridx.toNat * repUnit f + e % repUnit f else e

/-- The vi operand at width w (R40). (DESIGN CHOICE, log 105) -/
def immOf (f : VWord) (w : Nat) : Nat :=
  if f.ty = 14 then f.x.toNat % 65536
  else if tyFloat f.ty then bf16Imm (fmtOf f.ty) (f.x.toNat % 65536)
  else if tySigned f.ty then wrapInt w f.x.toInt
  else f.x.toNat % 2 ^ w

namespace M

variable {s0 : State}

/-- The vector state of the hart in focus. -/
def vec : M s0 VecState := do return (← hart).vec

/-- A snapshotted scalar register (R98): the block's snapshot, or the register itself when no block runs. -/
def snap (r : Nat) : M s0 Word := do
  let h ← hart
  match h.ctx with
  | some c => return c.entry.snap.toList.getD r 0
  | none => return h.reg (BitVec.ofNat 5 r)

/-- The second operand of element e (`b_eff`) at width w. -/
def operandB (f : VWord) (w : Nat) : M s0 (Nat → Nat) := do
  let vs ← vec
  if f.form = 0 then return fun e => vs.elem f.vb.toNat w (vbPos f e)
  else if f.form = 1 then
    let v ← snap (f.x.toNat % 32)
    return fun _ => v.toNat % 2 ^ w
  else return fun _ => immOf f w

/-- The rounding of a word (R43) for a generator index: the random bits are those of R81 under `stag`. -/
def rounding (f : VWord) (k : Option Nat) : M s0 (Nat → Rnd) := do
  let r := (← hart).sr
  let mode := (f.ctl.extractLsb' 0 3).toNat
  return fun index => {
    mode := mode, sat := f.ctl.getLsbD 3, zero := f.ctl.getLsbD 4, k := k,
    rho := if mode = 4 then (chash r.seed (genCtr r.stag index)).toNat else 0 }

end M

end Sys2Proof.Machine
end

