-- ==== Sys2Proof/Machine/Context.lean ====
section
/-!
DEFINITION. The save area of a hart (R310, R311) and the vector walk (R314 to R316): the records of the vector frame, written
to and read from memory record by record.
-/

namespace Sys2Proof.Machine

/-! ## `saveidx` (R311) -/

/-- The value of `saveidx` for record r, direction and kind of walk (1 context, 2 vector). -/
def saveidxOf (r : Nat) (restore : Bool) (what : Nat) : BitVec 19 :=
  BitVec.ofNat 19 (r + (if restore then 65536 else 0) + what * 131072)

/-- IDX. -/
def idxOf (x : BitVec 19) : Nat := (x.extractLsb' 0 16).toNat
/-- DIR. -/
def dirOf (x : BitVec 19) : Bool := x.getLsbD 16
/-- WHAT. -/
def whatOf (x : BitVec 19) : Nat := (x.extractLsb' 17 2).toNat

/-- Address of record r of an area. -/
def recAddr (area : Word) (r : Nat) : Word := area + BitVec.ofNat 64 (64 * r)

/-! ## The vector frame (R315) -/

/-- The hart slot carries the core's scratchpad (R314). -/
def Hart.carries (h : Hart) : Bool := h.id.hid % 4 == 0

/-- Key of a byte of a scratchpad: die, core, lane, offset. -/
def scratchKey (did hid lane off : Nat) : Nat := ((did * 96 + hid / 4) * 32 + lane) * 8192 + off

/-- The first record after the vector frame of a slot. -/
def Hart.frameEnd (h : Hart) : Nat := if h.carries then 9073 else 4977

/-- The 64 bytes of a vector frame record of a slot. -/
def State.vecRecord (s : State) (h : Hart) (r : Nat) : List Byte :=
  if r < 4608 then toBytes 64 ((h.vec.reg ((r - 4096) / 16)).extractLsb' ((r - 4096) % 16 * 512) 512).toNat
  else if r < 4720 then
    toBytes 64 ((h.vec.m.toList.getD ((r - 4608) / 16 + 1) 0).extractLsb' ((r - 4608) % 16 * 512) 512).toNat
  else if r = 4720 then h.vec.vq.toList.flatMap fun q => toBytes 8 q.toNat
  else if r < 4849 then toBytes 64 (h.vec.blo.extractLsb' ((r - 4721) * 512) 512).toNat
  else if r < 4977 then toBytes 64 (h.vec.bhi.extractLsb' ((r - 4849) * 512) 512).toNat
  else s.scratch.reads (scratchKey h.id.did h.id.hid ((r - 4977) / 128) ((r - 4977) % 128 * 64)) 64

/-- A bracket with 512 bits at record k replaced. -/
def putBracket (b : Bracket) (k v : Nat) : Bracket :=
  (b &&& ~~~(BitVec.ofNat 65536 (2 ^ 512 - 1) <<< (512 * k))) ||| (BitVec.ofNat 65536 (v % 2 ^ 512) <<< (512 * k))

/-- Put a vector frame record into a vector state; the scratchpad records apart. -/
def VecState.putRecord (vs : VecState) (r : Nat) (bs : List Byte) : VecState :=
  let v := ofBytes bs
  if r < 4608 then
    { vs with v := vs.v.setIfInBounds ((r - 4096) / 16)
                (putField (vs.reg ((r - 4096) / 16)) ((r - 4096) % 16 * 512) 512 v) }
  else if r < 4720 then
    let k := (r - 4608) / 16 + 1
    { vs with m := vs.m.setIfInBounds k (putField (vs.m.toList.getD k 0) ((r - 4608) % 16 * 512) 512 v) }
  else if r = 4720 then
    { vs with vq := Vector.ofFn fun i => BitVec.ofNat 64 (ofBytes ((bs.drop (8 * i.val)).take 8)) }
  else if r < 4849 then { vs with blo := putBracket vs.blo (r - 4721) v }
  else { vs with bhi := putBracket vs.bhi (r - 4849) v }

namespace M

variable {s0 : State}

/-- Zero the vector state of the slot in focus, and the scratchpad where the slot carries it (R315). -/
def zeroSlot : M s0 PUnit := do
  modVec fun _ => .zero
  let h ← hart
  if h.carries then
    emit (.scratch (scratchKey h.id.did h.id.hid 0 0) (List.replicate 262144 0))

/-- Write 64 bytes of a record for the hart in focus: false where a check of the page fails. -/
def putRec (va : Word) (bs : List Byte) : M s0 Bool := do
  match ← check va 64 .store with
  | .ok a => do
    storeNow a bs
    return true
  | .error _ => return false

/-- What the read of a record gives. -/
inductive RecRead where
  | data (bs : List Byte)
  | fault
  | poison

/-- Read 64 bytes of a record. -/
def getRec (va : Word) : M s0 RecRead := do
  match ← check va 64 .load with
  | .ok a =>
    match ← serveLoad a 64 (slicePath a) with
    | some bs => return .data bs
    | none => do
      notePoison va a.pa false
      return .poison
  | .error 0x0E => return .poison
  | .error _ => return .fault

/-- The context of the hart in focus is lost to an uncorrectable error on a record (R316). -/
def loseContext (va : Word) : M s0 PUnit := do
  let h ← hart
  hartReport h 0x0E va
  match ← gangOf h with
  | some g => launchStatus g.launch 0x0E
  | none => pure ⟨⟩
  retireHart

/-- A vector walk stops at a record of the area: `saveidx` names it, and the `setsr` traps with cause 0x0F. -/
def walkFault (area : Word) (r : Nat) (restore : Bool) : M s0 PUnit := do
  modSr fun x => { x with saveidx := saveidxOf r restore 2, status := { x.status with walk := true } }
  trap 0x0F (recAddr area r)

/-- A vector walk that is to stop before a record stops there: `saveidx` names it, and the `setsr` goes on from it when it executes again (R313,
R317). (DEDUCED, log 32) -/
def walkPause (r : Nat) (restore : Bool) : M s0 PUnit := do
  if (← hart).walkStop == some r then
    modHart fun h => { h with
      walkStop := none, sr := { h.sr with saveidx := saveidxOf r restore 2, status := { h.sr.status with walk := true } } }
    done
  else pure ⟨⟩

/-- Write the vector frame of a slot, from record r on, into an area of the hart in focus. -/
def saveFrame (slot : Hart) (area : Word) (r : Nat) : M s0 PUnit :=
  each (rangeFrom r (slot.frameEnd - r)) fun i => do
    walkPause i false
    if !(← putRec (recAddr area i) ((← st).vecRecord slot i)) then walkFault area i false

/-- Restore the vector frame of the slot in focus, from record r on. -/
def restoreFrame (area : Word) (r : Nat) : M s0 PUnit := do
  let e := (← hart).frameEnd
  each (rangeFrom r (e - r)) fun i => do
    walkPause i true
    match ← getRec (recAddr area i) with
    | .fault => walkFault area i true
    | .poison => do
      loseContext (recAddr area i)
      done
    | .data bs =>
      if i < 4977 then modVec fun v => v.putRecord i bs
      else do
        let h ← hart
        emit (.scratch (scratchKey h.id.did h.id.hid ((i - 4977) / 128) ((i - 4977) % 128 * 64)) bs)

/-- Step 1 of the walk: every other slot of the address space whose `vown` is the new owner is written into its area; the
slot then names no owner (R315). (DEDUCED, log 35) -/
def saveOwners (owner : Word) (r : Nat) : M s0 PUnit := do
  let h ← hart
  let slots := (← st).others.filter fun g => g.id.vf == h.id.vf && g.sr.vown == owner
  match slots with
  | [] => pure ⟨⟩
  | g :: gs => do
    saveFrame g owner (max r 4096)
    modOther g.key fun g => { g with sr := { g.sr with vown := 0 } }
    each gs fun g => do
      saveFrame g owner 4096
      modOther g.key fun g => { g with sr := { g.sr with vown := 0 } }
    modSr fun x => { x with saveidx := saveidxOf 4096 false 2 }

/-- The homes of the four pages of an area serve the hart before a walk begins (R310, R312). -/
def areaReady (area : Word) : M s0 PUnit := do
  if area = 0 then pure ⟨⟩
  else each [0, 1, 2, 3] fun i => do
    match ← check (area + BitVec.ofNat 64 (i * 2 ^ 18)) 64 .load with
    | .ok a => needServed a.leaf.home
    | .error _ => pure ⟨⟩

/-- The vector walk of a supervisor write of `vown` (R315): it goes on from `saveidx` where it stopped (R316, R317). -/
def vectorWalk (owner : Word) : M s0 PUnit := do
  let h ← hart
  if h.sr.vown = owner then pure ⟨⟩
  else do
    needWindow h.id.did 30000
    areaReady owner
    areaReady h.sr.vown
    let going := h.sr.status.walk && whatOf h.sr.saveidx == 2
    if !going then modSr fun x => { x with saveidx := saveidxOf 4096 false 2 }
    if owner ≠ 0 && !dirOf (← hart).sr.saveidx then saveOwners owner (idxOf (← hart).sr.saveidx)
    let x := (← hart).sr.saveidx
    if !dirOf x && h.sr.vown ≠ 0 then saveFrame (← hart) h.sr.vown (max 4096 (idxOf x))
    if owner = 0 then zeroSlot
    else restoreFrame owner (if dirOf x then max 4096 (idxOf x) else 4096)
    modSr fun x => { x with vown := owner, saveidx := 0, status := { x.status with walk := false } }

/-! ## `savep` (R310) -/

/-- A page of a save area: mapped, resident memory, pinned, writable, of the hart's tenant. -/
def areaPageOk (va : Word) : M s0 Bool := do
  let h ← hart
  match ← translate h.id.vf va.toNat with
  | .leaf l => return isHostMem (l.pa va.toNat) && l.pin && l.w && l.tkey == h.id.tenant
  | _ => return false

/-- A new value of `savep` passes its checks. -/
def areaOk (v : Word) : M s0 Bool := do
  if v = 0 then return true
  if v.extractLsb' 0 20 ≠ 0 then return false
  let oks ← collect [0, 1, 2, 3] fun i => areaPageOk (v + BitVec.ofNat 64 (i * 2 ^ 18))
  return oks.all id

end M

end Sys2Proof.Machine
end

