-- ==== Sys2Proof/Machine/RegUse.lean ====
section
/-!
DEFINITION. Which registers a vector word reads and writes: for the reads between a `vamo` and a `vexit` (R380) and for the
registers that an uncorrectable error leaves not defined (R338).
-/

namespace Sys2Proof.Machine

/-- Registers read and written, each vector operand as first register and count; mask registers; return slots written. -/
structure RegUse where
  rd : List (Nat × Nat)
  wr : List (Nat × Nat)
  mrd : List Nat
  mwr : List Nat
  qwr : List Nat

/-- A group operand. -/
def grpAt (g : Nat) (r : Reg) : Nat × Nat := (r.toNat, g)

/-- The second operand in the vv form. -/
def bGrp (f : VWord) (g : Nat) : List (Nat × Nat) := if f.form = 0 then [grpAt g f.vb] else []

/-- Use of a word that writes a vector group from these operands. -/
def useV (f : VWord) (g : Nat) (rd : List (Nat × Nat)) : RegUse :=
  { rd := rd, wr := [grpAt g f.vd], mrd := [f.m.toNat], mwr := [], qwr := [] }

/-- Use of a word that writes nothing but memory or other state. -/
def useM (f : VWord) (rd : List (Nat × Nat)) : RegUse := { rd := rd, wr := [], mrd := [f.m.toNat], mwr := [], qwr := [] }

/-- Use of a mask logic word. -/
def useMask (f : VWord) (ms : List Reg) : RegUse :=
  { rd := [], wr := [], mrd := f.m.toNat :: ms.map (fun r => r.toNat % 8), mwr := [f.vd.toNat % 8], qwr := [] }

/-- Use of a word that writes a return slot from a mask or a vector group. -/
def useSlot (f : VWord) (rd : List (Nat × Nat)) (ms : List Nat) : RegUse :=
  { rd := rd, wr := [], mrd := f.m.toNat :: ms, mwr := [], qwr := [f.vd.toNat % 8] }

/-- Use of a word that names no register. -/
def useNone : RegUse := { rd := [], wr := [], mrd := [], mwr := [], qwr := [] }

/-- The registers that an operand of n elements at width w spans (R117). -/
def spanAt (r : Reg) (n w : Nat) : Nat × Nat := (r.toNat, max 1 (ceilDiv (n * w) 8192))

/-- Registers that a vector word reads and writes at a grouping and a length. The routine of an `inv` is not part of its own
use. -/
def regUse (g n : Nat) : Instr → RegUse
  | .vadd f | .vsub f | .vmul f | .vmulh f | .vdiv f | .vrem f | .vmin f | .vmax f | .vand f | .vor f | .vxor f | .vshl f
  | .vshr f | .vsra f | .vsadd f | .vssub f | .vfadd f | .vfsub f | .vfmul f | .vfdiv f | .vfmin f | .vfmax f | .vmsel f
  | .vperm f | .vredsum f | .vfredsum f | .vredmin f | .vredmax f | .vscan f | .vnoise f =>
    useV f g (grpAt g f.va :: bGrp f g)
  | .vmadd f | .vfma f | .vfms f | .vfnma f => useV f g (grpAt g f.vd :: grpAt g f.va :: bGrp f g)
  | .vabs f | .vfsqrt f | .vfabs f | .vfneg f | .vfrcp f | .vfexp2 f | .vflog2 f | .vfrsq f | .vcompress f | .vexpand f
  | .xroute f => useV f g [grpAt g f.va]
  | .vclip f => { useV f g [spanAt f.va n (2 * tyBits f.ty)] with wr := [spanAt f.vd n (tyBits f.ty)] }
  | .vcvt f => { useV f g [spanAt f.va n (tyBits f.srcTy)] with wr := [spanAt f.vd n (tyBits f.ty)] }
  | .vqpack f => useV f g [spanAt f.va (2 * n) (tyBits f.srcTy)]
  | .vqunpack f => { useV f g [grpAt g f.va] with wr := [spanAt f.vd (2 * n) (tyBits f.ty)] }
  | .vbpl f => { useV f g [spanAt f.va n (tyBits f.srcTy)] with wr := [(f.vd.toNat, f.planes)] }
  | .vbunpl f => { useV f g [(f.va.toNat, f.planes)] with wr := [spanAt f.vd n (tyBits f.ty)] }
  | .vpadd f => { useV f g [(f.va.toNat, f.planes), (f.vb.toNat, f.planes)] with wr := [(f.vd.toNat, f.planesOut)] }
  | .vpmul f =>
    { useV f g [(f.va.toNat, f.x.toNat % 16 + 1), (f.vb.toNat, f.x.toNat / 16 % 16 + 1)] with
      wr := [(f.vd.toNat, f.planesOut)] }
  | .vpmac f =>
    { useV f g [(f.vd.toNat, f.planes), (f.va.toNat, f.x.toNat % 16 + 1), (f.vb.toNat, f.x.toNat / 16 % 16 + 1)] with
      wr := [(f.vd.toNat, f.planesOut)] }
  | .vfclamp f => useV f g [grpAt g f.va, (f.vb.toNat, 2 * g)]
  | .vslup f | .vsldn f => useV f g [grpAt g f.va, grpAt g f.vb]
  | .vmv f => useV f g (bGrp f g)
  | .vid f | .vrand f | .vld f | .vlds f | .vbrkrd f => useV f g []
  | .vldx f | .vlsp f => useV f g [grpAt g f.vb]
  | .wmv f => { useV f g [spanAt f.va n 8] with wr := [spanAt f.vd 64 32] }
  | .vcmp f => { useM f (grpAt g f.va :: bGrp f g) with mwr := [f.vd.toNat % 8] }
  | .vmand f | .vmor f | .vmxor f => useMask f [f.va, f.vb]
  | .vmnot f => useMask f [f.va]
  | .vmpop f | .vmfirst f => useSlot f [] [f.va.toNat % 8]
  | .vtoq f => useSlot f [grpAt g f.va] []
  | .vavail f => { useNone with qwr := [f.vd.toNat % 8] }
  | .vst f | .vsts f => useM f [grpAt g f.vd]
  | .vstx f | .vssp f => useM f [grpAt g f.vd, grpAt g f.vb]
  | .vamo f => useV f g [grpAt g f.vd, grpAt g f.va, grpAt g f.vb]
  | .vgath f => useM f [grpAt g f.vb]
  | .vcopy f | .vrcopy f => useM f []
  | .vnbadd f => useM f [grpAt g f.va, grpAt g f.vb]
  | .vbrk f => useM f [grpAt g f.va, grpAt g f.vb]
  | .inv f =>
    { useV f g [grpAt g f.vd, grpAt g f.va, grpAt g f.vb] with
      wr := [grpAt g f.va, grpAt g f.vd], mwr := [(f.x.extractLsb' 15 3).toNat] }
  | .vbany f | .vball f | .vbnone f | .vexit f | .lbr f =>
    { useNone with mrd := [f.m.toNat, f.va.toNat % 8] }
  | _ => useNone

/-- Two register ranges share a register. -/
def spansMeet (a b : List (Nat × Nat)) : Bool :=
  a.any fun (r, n) => b.any fun (q, k) => decide (r < q + k) && decide (q < r + n)

/-- The registers and masks that hold values not defined after a load into `wr` has met an error (R338): its destination and
what the later words computed from it. Answers vector ranges, masks and return slots. -/
def tainted (g n : Nat) : List (BitVec 64) → List (Nat × Nat) → List Nat → List Nat → List (Nat × Nat) × List Nat × List Nat
  | [], v, m, q => (v, m, q)
  | w :: ws, v, m, q =>
    match decodeVector w with
    | .error _ => tainted g n ws v m q
    | .ok i =>
      let u := regUse g n i
      if spansMeet u.rd v || u.mrd.any (fun k => k ≠ 0 && m.contains k) then
        tainted g n ws (v ++ u.wr) (m ++ u.mwr) (q ++ u.qwr)
      else tainted g n ws v m q

end Sys2Proof.Machine
end

