-- ==== Sys2Proof/Machine/VectorIssue.lean ====
section
/-!
DEFINITION. Issuing a vector word: the frame it runs in, its address, the trap of the vector stream (R303, R307, R308, R331),
and the checks of R320 that depend on the state: matrix mode, a lane-threading region, widths and register groups.
-/

namespace Sys2Proof.Machine

/-! ## Where the vector stream stands -/

/-- Word index of the executing word; in a region that of the `vsplit` (R162). -/
def LoopCtx.at (c : LoopCtx) : Nat :=
  match c.threads with
  | some (i, _) => i
  | none => c.idx

/-- Address of a word of the block. -/
def LoopCtx.addr (c : LoopCtx) (i : Nat) : Word := c.base + BitVec.ofNat 64 (8 * i)

/-- The limit of the strip: vl, or after the exit is resolved the elements that may still be performed (R24). -/
def LoopCtx.limit (c : LoopCtx) (vl : Nat) : Nat :=
  match c.stop with
  | none => vl
  | some s => min vl (if c.fired then s else s + 1)

/-- An opcode stands in the block between the executing word and a later `vexit` that has not fired. -/
def LoopCtx.exitAhead (c : LoopCtx) : Bool :=
  !c.fired && (c.words.drop (c.idx + 1)).any fun w => w.extractLsb' 56 8 == 0xA1#8

/-- The words before the `vexit` run towards a trap with the exit unresolved: what cannot be taken back is held (R24, R307). -/
def LoopCtx.holding (c : LoopCtx) : Bool := c.pass.isSome && c.exitAhead && !c.resolved

/-- The block sets `indep` (R154). -/
def LoopCtx.indep (c : LoopCtx) : Bool := (c.words.headD 0).getLsbD 18

/-- What the executing word read when the exit of its strip was resolved. -/
def LoopCtx.known (c : LoopCtx) : Option (List (Nat × Nat)) := if c.exitAhead then aget c.seen c.idx else none

/-! ## Strips of an `indep` block (R21, R332) -/

/-- Strips of a loop of n elements in strips of g. -/
def LoopCtx.strips (c : LoopCtx) : Nat := ceilDiv c.n.toNat c.g.toNat

/-- The lowest strip that has not been started. -/
def LoopCtx.nextStrip (c : LoopCtx) : Nat := (c.parked.map (·.k) ++ c.ran).foldl max c.k + 1

/-- Set the running strip aside. -/
def Hart.parkStrip (h : Hart) (c : LoopCtx) (fail : Option (BitVec 8 × Word × Word)) : List Strip :=
  c.parked ++ [{ k := c.k, idx := c.idx, sb := h.sr.sb, vl := h.sr.vl, vec := h.vec, fail := fail }]

/-- Go on with a strip that was set aside; return slots are shared. -/
def Hart.takeStrip (h : Hart) (c : LoopCtx) (p : Strip) : Hart :=
  { h with
    ctx := some { c.fresh p.idx with k := p.k, parked := c.parked.filter fun q => q.k ≠ p.k },
    sr := { h.sr with sb := p.sb, vl := p.vl }, vec := { p.vec with vq := h.vec.vq } }

/-- Another strip of an `indep` block runs next, if it may: one that was set aside, or one that has not been started, on a free lane group and
with no trap met (R21, R332). -/
def Hart.toStrip (h : Hart) (k : Nat) : Option Hart :=
  match h.ctx with
  | none => none
  | some c =>
    if !c.indep || c.idx = 0 || c.threads.isSome || c.paused || c.k = k then none
    else match c.parked.find? fun p => p.k == k && p.fail.isNone with
      | some p => some (h.takeStrip { c with parked := h.parkStrip c none } p)
      | none =>
        if k = c.nextStrip && k < c.strips && c.parked.length < 3 && c.parked.all (·.fail.isNone) then
          some { h with ctx := some { c.fresh 0 with k := k, parked := h.parkStrip c none } }
        else none

/-- The running strip traps while others run: they go on first (R332). Answers the hart and the trap to be taken now, if any: that of the
failing strip with the lowest `sb`, whose strips above run again from their start. -/
def Hart.failStrip (h : Hart) (c : LoopCtx) (fail : BitVec 8 × Word × Word) : Hart × Option (BitVec 8 × Word × Word) :=
  match c.parked.find? fun p => p.fail.isNone with
  | some p => (h.takeStrip { c with parked := h.parkStrip c (some fail) } p, none)
  | none =>
    let all := h.parkStrip c (some fail)
    match all.find? fun p => all.all fun q => decide (p.k ≤ q.k) with
    | some p => (h.takeStrip { c with parked := [], ran := [] } p, p.fail)
    | none => (h, some fail)

namespace M

variable {s0 : State}

/-- The frame of a word issued for the whole strip. -/
def frame : M s0 VEnv := do
  let h ← hart
  let lim := match h.ctx with
    | none => h.sr.vl.toNat
    | some c => c.limit h.sr.vl.toNat
  return { lim := min lim 8192, act := none, region := false, probe := false }

/-- The address of the executing vector word. -/
def vecAddr : M s0 Word := do
  match (← hart).ctx with
  | none => return 0
  | some c => return c.addr c.at

/-- The executing vector word. -/
def vecWord : M s0 Word := do
  match (← hart).ctx with
  | none => return 0
  | some c => return c.words.getD c.idx 0

/-- Go on at the next word of the block. -/
def vecAdvance : M s0 PUnit := modHart fun h => { h with ctx := h.ctx.map fun c => { c with idx := c.idx + 1 } }

/-! ## The trap of the vector stream (R303) -/

/-- The scalar stream has reached an instruction boundary; otherwise what is to trap waits. -/
def atBoundary : M s0 PUnit := do
  match (← hart).wait with
  | .response _ => stall
  | .renew _ => stall
  | .nbx _ _ _ => stall
  | _ => pure ⟨⟩

/-- No engine transfer of the hart is in flight; otherwise the step waits. -/
def needTransfers : M s0 PUnit := do
  if (← hart).streams.toList.any fun k => k.xfer.isSome then stall

/-- Form the held image from a stopped context or a failing operation and take the trap: a second held image kills, and a
marked block of a hart whose handler runs is set aside (R303). -/
def vecTrapWith (c : BitVec 8) (v a : Word) (ctx : Option LoopCtx) (mark : Bool) (behind rest : List QEntry) : M s0 PUnit := do
  let h ← hart
  let spl := match ctx with
    | some k => k.threads.isSome
    | none => false
  let xf := match ctx with
    | some k => k.stop.isSome
    | none => false
  let ctx := ctx.map LoopCtx.stopped
  if h.sr.status.blk then killHart c
  else if mark then
    modHart fun h => { h with
      ctx := none, queue := rest.filter (fun e => !e.mark),
      aside := some { cause := c, tval := v, epc := a, ctx := ctx, behind := behind ++ rest.filter (·.mark), spl := spl, xf := xf } }
  else
    -- an `idle` returns when a trap becomes pending (R111); every other wait starts again
    let resume := if h.wait == .idle then h.pc + 4 else h.pc
    modHart fun h => { h with
      ctx := none, queue := [], held := some { ctx := ctx, behind := behind ++ rest, resume := resume }, wait := .none,
      sr := { h.sr with status := { h.sr.status with blk := true, spl := spl, xf := xf } } }
    takeTrap c v a true

/-- A vector word traps at its issue: cause and trap value. Every earlier transfer of the block completes or traps first
(R115). In an `indep` block the strips that run beside it go on first (R332). -/
def vecTrapNow (c : BitVec 8) (v : Word) : M s0 PUnit := do
  needTransfers
  atBoundary
  let a ← vecAddr
  let h ← hart
  match h.ctx with
  | none => vecTrapWith c v a none false [] h.queue
  | some k =>
    if k.parked.isEmpty then vecTrapWith c v a (some k) k.entry.mark [] h.queue
    else
      let (g, take) := h.failStrip k (c, v, a)
      modHart fun _ => g
      match take with
      | some (c, v, a) => vecTrapWith c v a g.ctx k.entry.mark [] h.queue
      | none => pure ⟨⟩

/-- A vector word traps. In a region the trap value of every cause but the memory causes is sb + e of the lowest active
element; while an exit is being resolved the failure is noted with its element (R307). -/
def vecTrap {α : Type} (env : VEnv) (c : BitVec 8) (v : Word) (e : Option Nat) : M s0 α := do
  if env.probe then
    modHart fun h => { h with ctx := h.ctx.map fun k => { k with fail := some (c, v, e.getD 0) } }
    done
  let mem := c = 0x03 || c = 0x04 || c = 0x05 || c = 0x06 || c = 0x0E
  if env.region && !mem then
    let low := e.getD ((env.elems (BitVec.allOnes 8192)).headD 0)
    vecTrapNow c ((← hart).sr.sb + BitVec.ofNat 64 low)
  else vecTrapNow c v
  done

/-- The word is not legal in the current mode: cause 0x02, the word itself as the trap value. -/
def illegal {α : Type} (env : VEnv) : M s0 α := do vecTrap env 0x02 (← vecWord) none

/-! ## Checks that depend on the state (R320 item 3, R115, R162, R172) -/

/-- What a word is allowed in: matrix mode and a lane-threading region. -/
structure Legal where
  matrix : Bool
  region : Bool

/-- Legal everywhere outside matrix mode and regions. -/
def plain : Legal := { matrix := false, region := false }
/-- Legal in a region. -/
def threaded : Legal := { matrix := false, region := true }
/-- Legal in a region and in matrix mode. -/
def anywhere : Legal := { matrix := true, region := true }

/-- In matrix mode no word but `mdrain` writes v28 to v31: n elements of width w from register d (R172, R329). -/
def needBelow28 (env : VEnv) (d : Reg) (n w : Nat) : M s0 PUnit := do
  if (← hart).sr.mmode && decide (d.toNat + max 1 (ceilDiv (n * w) 8192) > 28) then illegal env

/-- The mode checks of an ordinary vector word; dest is a vector register that it writes, at the granted width. -/
def modeCheck (env : VEnv) (l : Legal) (dest : Option Reg) : M s0 PUnit := do
  let r := (← hart).sr
  if r.mmode && !l.matrix then illegal env
  match dest with
  | some d => needBelow28 env d (min r.vl.toNat 8192) r.sew.bits
  | none => pure ⟨⟩
  if env.region && !l.region then illegal env

/-- The width of the operation equals the granted `sew` (R115). -/
def needSew (env : VEnv) (w : Nat) : M s0 PUnit := do
  if (← hart).sr.sew.bits ≠ w then illegal env

/-- Every named register group starts at a multiple of `vgrp` (R115). -/
def needGroups (env : VEnv) (rs : List Reg) : M s0 PUnit := do
  let g := (← hart).sr.vgrp.n
  if rs.any fun r => r.toNat % g ≠ 0 then illegal env

/-- `vlmax` of the hart (R17). -/
def hartVlmax : M s0 Nat := do
  let h ← hart
  return vlmax h.sr.sew h.sr.vgrp h.id.cap

/-- The replicated unit lies within vlmax (R41). -/
def needUnit (env : VEnv) (f : VWord) : M s0 PUnit := do
  if f.rep && decide (f.ridx.toNat * repUnit f + repUnit f > (← hartVlmax)) then illegal env

/-- The registers of the second operand: vb in the vv form, none otherwise. -/
def bRegs (f : VWord) : List Reg := if f.form = 0 then [f.vb] else []

/-- The checks of an arithmetic word with destination, first source and second operand at the type's width. -/
def arithCheck (env : VEnv) (l : Legal) (f : VWord) (dest : Option Reg) (srcs : List Reg) : M s0 PUnit := do
  modeCheck env l dest
  needSew env (tyBits f.ty)
  needGroups env (dest.toList ++ srcs ++ bRegs f)
  needUnit env f

/-- The span of an operand of n elements at width w from register r: it starts at a multiple of `vgrp` and ends at or
below v31 (R117). -/
def needSpan (env : VEnv) (r : Reg) (n w : Nat) : M s0 PUnit := do
  needGroups env [r]
  if r.toNat + max 1 (ceilDiv (n * w) 8192) > 32 then illegal env

/-- Write the vector state. -/
def putVec (v : VecState) : M s0 PUnit := modVec fun _ => v

/-- Write a return slot. -/
def putSlot (k : Nat) (v : Word) : M s0 PUnit := do
  -- of the strips of an `indep` block the one with the highest `sb` leaves its value (R21)
  let later := match (← hart).ctx with
    | some c => c.indep && decide ((aget c.slotBy k).getD 0 > c.k)
    | none => false
  if later then pure ⟨⟩
  else do
    modVec fun vs => { vs with vq := vs.vq.setIfInBounds k v }
    modHart fun h => { h with
      availSlots := h.availSlots &&& ~~~(BitVec.ofNat 8 (2 ^ k)),
      ctx := h.ctx.map fun c => if c.indep then { c with slotBy := aput c.slotBy k c.k } else c }

/-- The global element index base, sb, as a number. -/
def sbase : M s0 Nat := do return (← hart).sr.sb.toNat

/-- The mask operand of a word. -/
def maskOf (f : VWord) : M s0 Mask := do return (← vec).mask f.m.toNat

end M

namespace M

variable {s0 : State}

/-- The registers that the executing word reads, with the routine of an `inv`. -/
def readsAt (c : LoopCtx) (g n : Nat) : List (Nat × Nat) :=
  match decodeVector (c.words.getD c.idx 0) with
  | .error _ => []
  | .ok (.inv f) => (regUse g n (.inv f)).rd ++ ((c.words.drop (c.idx + 1)).take (f.x.toNat % 16 + 1)).flatMap fun w =>
      match decodeVector w with
      | .error _ => []
      | .ok i => (regUse g n i).rd
  | .ok i => (regUse g n i).rd

/-- Destination groups of the `vamo` words before a word. -/
def vamoDests (c : LoopCtx) (g : Nat) : List (Nat × Nat) :=
  (c.words.take c.idx).flatMap fun w =>
    match decodeVector w with
    | .ok (.vamo f) => [grpAt g f.vd]
    | _ => []

/-- A word between a `vamo` and a `vexit` that reads the destination of the `vamo` traps (R380); with vl = 0 nothing is read (R116, R139). -/
def vamoGuard (env : VEnv) : M s0 PUnit := do
  let h ← hart
  match h.ctx with
  | none => pure ⟨⟩
  | some c =>
    let g := h.sr.vgrp.n
    if h.sr.vl ≠ 0 && c.exitAhead && spansMeet (readsAt c g h.sr.vl.toNat) (vamoDests c g) then illegal env

end M

/-- A vector instruction issued for the whole strip: run its core in the frame of the strip, then go on. -/
def vexec (s : State) (core : VEnv → M s PUnit) : Host.Outcome State Fault Refusal :=
  exec1 s (do
    let env ← M.frame
    M.vamoGuard env
    core env
    M.vecAdvance)

/-- A word that sets the next word itself. -/
def vexecJump (s : State) (core : VEnv → M s PUnit) : Host.Outcome State Fault Refusal :=
  exec1 s (do
    let env ← M.frame
    M.vamoGuard env
    core env)

/-- A word of the block that the decoder refuses traps with cause 0x01 at its issue (R321). -/
def vecReserved (s : State) : Host.Outcome State Fault Refusal :=
  exec1 s (do M.vecTrapNow 0x01 (← M.vecWord))

end Sys2Proof.Machine
end

