-- ==== Sys2Proof/Machine/VMem.lean ====
section
/-!
DEFINITION. Vector loads, stores and atomics (R138 to R143), the scratchpad (R144, R146), and the interlock against engine
transfers (R151, R152, R159).
-/

namespace Sys2Proof.Machine

/-! ## Fields of x -/

/-- The base register, x[4:0]. -/
def xBase (f : VWord) : Nat := f.x.toNat % 32
/-- The stride or source register, x[9:5]. -/
def xSecond (f : VWord) : Nat := f.x.toNat / 32 % 32
/-- The scale, x[6:5]. -/
def xScale (f : VWord) : Nat := f.x.toNat / 32 % 4

/-! ## The interlock (R151, R152) -/

/-- A range shares a byte with a hull. -/
def meetsHull (l : List (Nat × Nat)) (h : Nat × Nat) : Bool :=
  l.any fun (a, n) => decide (a < h.2) && decide (h.1 < a + n)

/-- An access that reads rd and writes wr waits on a transfer with these ranges; sp: the ranges are scratchpad offsets. -/
def Hulls.holds (h : Hulls) (sp : Bool) (rd wr : List (Nat × Nat)) : Bool :=
  if sp then meetsHull rd h.sp || meetsHull wr h.sp
  else meetsHull rd h.wr || meetsHull wr h.wr || meetsHull wr h.rd

/-- The scratchpad words, of 8 bytes, that ranges of a scratchpad fill; ranges are key and length. -/
def fullWords (size : Nat) (ws : List (Nat × Nat)) (k : Nat) : Bool :=
  (List.range size).all fun i => ws.any fun (a, n) => decide (a ≤ k * size + i) && decide (k * size + i < a + n)

namespace M

variable {s0 : State}

/-- An access between a transfer and a later unfired `vexit` that overlaps the ranges of the transfer traps; both ranges are those over all
of vl (R159). -/
def keptGuard (env : VEnv) (sp : Bool) (ranges : M s0 (List (Nat × Nat) × List (Nat × Nat))) : M s0 PUnit := do
  match (← hart).ctx with
  | none => pure ⟨⟩
  | some c =>
    let before := c.kept.filter fun p => decide (p.1 < c.idx)
    if c.exitAhead && !before.isEmpty then do
      let (rd, wr) ← ranges
      if before.any fun p => p.2.holds sp rd wr then illegal env

/-- The interlock of the executing word: an overlap with a transfer in flight waits; the stream a modifier names does not hold it (R146,
R152). A transfer that is about to trap holds nothing (R350). -/
def interlock (sp : Bool) (rd wr : List (Nat × Nat)) (skip : Option Nat) : M s0 PUnit := do
  if (← hart).streams.toList.zipIdx.any fun (k, i) =>
      some i != skip && (match k.xfer with
        | some t => t.fail.isNone && t.hulls.holds sp rd wr
        | none => false) then stall

/-- A list of ranges of n bytes. -/
def rangesOf (n : Nat) (es : List (Nat × Word)) : List (Nat × Nat) := es.map fun (_, a) => (a.toNat, n)

/-- Check every listed element in index order; the first that fails traps with its address (R141). -/
def checkElems (env : VEnv) (n : Nat) (k : Kind) : List (Nat × Word) → M s0 (List (Nat × Acc))
  | [] => pure []
  | (e, a) :: l => do
    match ← check a n k with
    | .error c => vecTrap env c a (some e)
    | .ok acc => return (e, acc) :: (← checkElems env n k l)

/-- Every home that the accesses touch serves the hart in this step, and their numbers lie in the window. (DEDUCED, log 93) -/
def readyFor (env : VEnv) (accs : List (Nat × Acc)) (numbered : Bool) : M s0 PUnit := do
  if numbered && !env.probe && !accs.isEmpty then needWindow (← hart).id.did accs.length
  each ((accs.map fun a => a.2.leaf.home).eraseDups) needServed

/-- What a word before an unresolved `vexit` read from outside the hart is noted, for the word itself to take when it is performed. -/
def noteSeen (env : VEnv) (vals : List (Nat × Nat)) : M s0 PUnit := do
  if env.probe then modHart fun h => { h with ctx := h.ctx.map fun c => { c with seen := c.seen ++ [(c.idx, vals)] } }

/-- Hold the executing word until the exit of its strip has resolved (R159, R380). -/
def owe : M s0 PUnit := modHart fun h => { h with ctx := h.ctx.map fun c =>
  { c with pass := c.pass.map fun p => { p with owed := p.owed ++ [c.idx] } } }

/-- The executing word runs while the exit of its strip is unresolved and a trap lies ahead: what it does outside the hart's registers is
held. -/
def holding : M s0 Bool := do return ((← hart).ctx.map LoopCtx.holding).getD false

/-- Hold what the executing word counts. -/
def holdCounts (l : List (Nat × Nat)) : M s0 PUnit := modHart fun h => { h with ctx := h.ctx.map fun c =>
  { c with pass := c.pass.map fun p => { p with counts := p.counts ++ l } } }

/-- Hold stores of the executing word. -/
def holdStores (l : List HeldStore) : M s0 PUnit := modHart fun h => { h with ctx := h.ctx.map fun c =>
  { c with pass := c.pass.map fun p => { p with stores := p.stores ++ l } } }

/-- Registers, masks and return slots take values that nothing defines. -/
def freeRegs (v : List (Nat × Nat)) (m q : List Nat) : M s0 PUnit := do
  each (v.flatMap fun (r, n) => rangeFrom r n).eraseDups fun r => do
    let x ← freeVReg
    modVec fun vs => { vs with v := vs.v.setIfInBounds r x }
  each m.eraseDups fun k => do
    let x ← freeVReg
    if k = 0 then pure ⟨⟩ else modVec fun vs => { vs with m := vs.m.setIfInBounds k x }
  each q.eraseDups fun k => do putSlot k (← freeWord)

/-- A load meets an uncorrectable error at element e past its checks (R338): its destination and what was chained on it are not
defined. (DEDUCED, log 27) -/
def loadPoison {α : Type} (env : VEnv) (f : VWord) (e : Nat) (va : Word) (pa : Option Nat) : M s0 α := do
  if env.probe then vecTrap env 0x0E va (some e)
  let h ← hart
  let words := match h.ctx with
    | some c => c.words.drop (c.idx + 1)
    | none => []
  let g := h.sr.vgrp.n
  let (v, m, q) := tainted g h.sr.vl.toNat words [grpAt g f.vd] [] []
  freeRegs v m q
  match pa with
  | some p => notePoison va p true
  | none => do
    noteError h.id.did 7 0
    hartReport h 0x0E va
  vecTrap env 0x0E va (some e)

/-- Lines that a vector store has written in full lose their poison (R337). -/
def clearCovered (ws : List (Nat × Nat)) : M s0 PUnit := do
  let s ← st
  let las := ((ws.flatMap fun (pa, n) => [pa / 64, (pa + n - 1) / 64]).eraseDups).filter fun la => s.livePoison la
  each (las.filter fun la => fullWords 64 ws la) fun la => do
    match findLine (← st).img.cache la with
    | some l => modImg fun m => { m with cache := putLine m.cache { l with poison := false } }
    | none => setArrayPoison la false

/-! ## Loads and stores (R139 to R142) -/

/-- The checks of a memory word: with vl = 0 it accesses nothing and raises no trap (R139). Answers the performed elements. -/
def memElems (env : VEnv) (f : VWord) (l : Legal) (dest : Option Reg) (rs : List Reg) : M s0 (List Nat) := do
  if (← hart).sr.vl = 0 then return []
  modeCheck env l dest
  needSew env (tyBits f.ty)
  needGroups env rs
  return env.elems (← maskOf f)

/-- Every performed element over all of vl, whatever the exit says (R159). -/
def allElems (f : VWord) : M s0 (List Nat) := do
  let vl := (← hart).sr.vl.toNat
  let m ← maskOf f
  return (List.range (min vl 8192)).filter fun e => m.getLsbD e

/-- A list of values by element goes into vd. -/
def putLoaded (f : VWord) (n : Nat) (vals : List (Nat × Nat)) : M s0 PUnit :=
  modVec fun vs => vals.foldl (fun acc (e, v) => acc.setElem f.vd.toNat (8 * n) e v) vs

/-- A vector load of n-byte elements at the addresses that addr gives. -/
def loadElems (env : VEnv) (f : VWord) (n : Nat) (addr : List Nat → M s0 (List (Nat × Word))) (es : List Nat) : M s0 PUnit := do
  keptGuard env false (do return (rangesOf n (← addr (← allElems f)), []))
  match ((← hart).ctx.bind LoopCtx.known) with
  | some vals => putLoaded f n (vals.filter fun p => es.contains p.1)
  | none => do
    let es ← addr es
    interlock false (rangesOf n es) [] none
    let accs ← checkElems env n .load es
    readyFor env accs false
    let vals ← collect accs fun (e, a) => do
      match ← loadNow a n true with
      | some bs => return (e, ofBytes bs)
      | none => loadPoison env f e (BitVec.ofNat 64 a.va) (some a.pa)
    noteSeen env vals
    putLoaded f n vals

/-- A vector store of n-byte elements, in index order. -/
def storeElems (env : VEnv) (f : VWord) (n : Nat) (addr : List Nat → M s0 (List (Nat × Word))) (es : List Nat) : M s0 PUnit := do
  keptGuard env false (do return ([], rangesOf n (← addr (← allElems f))))
  let es ← addr es
  interlock false [] (rangesOf n es) none
  let accs ← checkElems env n .store es
  readyFor env accs true
  let vs ← vec
  let data (e : Nat) : List Byte := toBytes n (vs.elem f.vd.toNat (8 * n) e)
  if (← holding) && !env.probe then holdStores (accs.map fun (e, a) => { e := e, va := a.va, leaf := some a.leaf, bytes := data e })
  else do
    each accs fun (e, a) => storeNow a (data e)
    clearCovered (accs.map fun (_, a) => (a.pa, n))

/-! ## Addresses (R142) -/

/-- Unit-stride addresses. -/
def unitAddrs (f : VWord) (n : Nat) (es : List Nat) : M s0 (List (Nat × Word)) := do
  let base ← snap (xBase f)
  let sb := (← hart).sr.sb
  return es.map fun e => (e, base + (sb + BitVec.ofNat 64 e) * BitVec.ofNat 64 n)

/-- Strided addresses. -/
def strideAddrs (f : VWord) (es : List Nat) : M s0 (List (Nat × Word)) := do
  let base ← snap (xBase f)
  let stride ← snap (xSecond f)
  let sb := (← hart).sr.sb
  return es.map fun e => (e, base + (sb + BitVec.ofNat 64 e) * stride)

/-- Indexed addresses. -/
def indexAddrs (f : VWord) (n : Nat) (es : List Nat) : M s0 (List (Nat × Word)) := do
  let base ← snap (xBase f)
  let vs ← vec
  return es.map fun e => (e, base + BitVec.ofNat 64 (vs.elem f.vb.toNat (8 * n) e) <<< xScale f)

end M

/-- `vld`: unit-stride load (R142). -/
def vldCore {s0 : State} (f : VWord) (env : VEnv) : M s0 PUnit :=
  do
  let es ← M.memElems env f M.anywhere (some f.vd) [f.vd]
  let n := tyBits f.ty / 8
  M.loadElems env f n (M.unitAddrs f n) es

/-- `vld` for the whole strip. -/
def execVld (f : VWord) (s : State) : Host.Outcome State Fault Refusal := vexec s (vldCore f)

/-- `vst`: unit-stride store (R142). -/
def vstCore {s0 : State} (f : VWord) (env : VEnv) : M s0 PUnit :=
  do
  let es ← M.memElems env f M.anywhere none [f.vd]
  let n := tyBits f.ty / 8
  M.storeElems env f n (M.unitAddrs f n) es

/-- `vst` for the whole strip. -/
def execVst (f : VWord) (s : State) : Host.Outcome State Fault Refusal := vexec s (vstCore f)

/-- `vlds`: strided load (R142). -/
def vldsCore {s0 : State} (f : VWord) (env : VEnv) : M s0 PUnit :=
  do
  let es ← M.memElems env f M.threaded (some f.vd) [f.vd]
  let n := tyBits f.ty / 8
  M.loadElems env f n (M.strideAddrs f) es

/-- `vlds` for the whole strip. -/
def execVlds (f : VWord) (s : State) : Host.Outcome State Fault Refusal := vexec s (vldsCore f)

/-- `vsts`: strided store (R142). -/
def vstsCore {s0 : State} (f : VWord) (env : VEnv) : M s0 PUnit :=
  do
  let es ← M.memElems env f M.threaded none [f.vd]
  let n := tyBits f.ty / 8
  M.storeElems env f n (M.strideAddrs f) es

/-- `vsts` for the whole strip. -/
def execVsts (f : VWord) (s : State) : Host.Outcome State Fault Refusal := vexec s (vstsCore f)

/-- `vldx`: indexed load (R142). -/
def vldxCore {s0 : State} (f : VWord) (env : VEnv) : M s0 PUnit :=
  do
  let es ← M.memElems env f M.threaded (some f.vd) [f.vd, f.vb]
  let n := tyBits f.ty / 8
  M.loadElems env f n (M.indexAddrs f n) es

/-- `vldx` for the whole strip. -/
def execVldx (f : VWord) (s : State) : Host.Outcome State Fault Refusal := vexec s (vldxCore f)

/-- `vstx`: indexed store (R142). -/
def vstxCore {s0 : State} (f : VWord) (env : VEnv) : M s0 PUnit :=
  do
  let es ← M.memElems env f M.threaded none [f.vd, f.vb]
  let n := tyBits f.ty / 8
  M.storeElems env f n (M.indexAddrs f n) es

/-- `vstx` for the whole strip. -/
def execVstx (f : VWord) (s : State) : Host.Outcome State Fault Refusal := vexec s (vstxCore f)

/-! ## Vector atomics (R143) -/

namespace M

variable {s0 : State}

/-- The atomics of the elements in index order. At an uncorrectable error the elements below stay applied, `estart` names the
element, and the positions from it on are not defined. -/
def amoElems (env : VEnv) (f : VWord) (n : Nat) (vs : VecState) : List (Nat × Acc) → M s0 PUnit
  | [] => modSr fun r => { r with estart := 0 }
  | (e, a) :: l => do
    let w := 8 * n
    let h ← hart
    let num ← hartNumber
    let clk := clkPut h.sr.vclk h.id.did num
    arrive a.leaf.home (some num) clk
    let old ← atomicHome a.pa (f.ctl.toNat % 16) n (vs.elem f.va.toNat w e) (vs.elem f.vd.toNat w e) (slicePath a) a.leaf.ww
      (some h.key) (some (h.id.did, num))
    match old with
    | some v => do
      let c := ((← st).die a.leaf.home).clock
      mergeClk c
      learnVec (clkPut c h.id.did num)
      modVec fun x => x.setElem f.vd.toNat w e v
      amoElems env f n vs l
    | none => do
      let va := BitVec.ofNat 64 a.va
      each (e :: l.map (·.1)) fun i => do
        let x ← freeWord
        modVec fun y => y.setElem f.vd.toNat w i x.toNat
      modSr fun r => { r with estart := r.sb + BitVec.ofNat 64 e }
      notePoison va a.pa true
      vecTrap env 0x0E va (some e)

/-- A word that acts exactly once (R348) runs beside transfers of its own block that may still trap: what it has given is noted, and when the
block passes it again it gives that and does not act (R152, R350). A transfer of an earlier block completes or traps first. -/
def exactlyOnce (again : List (Nat × Nat) → M s0 PUnit) (act : M s0 (List (Nat × Nat))) : M s0 PUnit := do
  let h ← hart
  let busy := h.streams.toList.filterMap (·.xfer)
  match h.ctx with
  | none => do
    let _ ← act
  | some c =>
    if busy.any fun t => (t.at_.map (·.entry.seq)) != some c.entry.seq then stall
    match c.redo with
    | (i, vals) :: rest =>
      if i = c.idx then do
        modHart fun h => { h with ctx := h.ctx.map fun c => { c with redo := rest, once := if busy.isEmpty then [] else c.once ++ [(i, vals)] } }
        again vals
      else stall
    | [] => do
      let vals ← act
      modHart fun h => { h with ctx := h.ctx.map fun c => { c with once := if busy.isEmpty then [] else c.once ++ [(c.idx, vals)] } }

end M

/-- `vamo`: an atomic of R94 for each performed element in index order (R143). -/
def vamoCore {s0 : State} (f : VWord) (env : VEnv) : M s0 PUnit :=
  do
  let es ← M.memElems env f M.threaded (some f.vd) [f.vd, f.va, f.vb]
  let n := tyBits f.ty / 8
  let r := (← M.hart).sr
  M.keptGuard env false (do
    let all := M.rangesOf n (← M.indexAddrs f n (← M.allElems f))
    return (all, all))
  let as ← M.indexAddrs f n es
  let rs := M.rangesOf n as
  M.interlock false rs rs none
  let accs ← M.checkElems env n .atomic as
  -- before an unresolved exit it is held (R380)
  if env.probe || r.vl = 0 then pure ⟨⟩
  else if ← M.holding then M.owe
  else M.exactlyOnce (M.putLoaded f n) (do
    let todo := accs.filter fun (e, _) => decide (r.sb + BitVec.ofNat 64 e ≥ r.estart)
    M.readyFor env todo true
    M.amoElems env f n (← M.vec) todo
    let vs ← M.vec
    return todo.map fun (e, _) => (e, vs.elem f.vd.toNat (8 * n) e))

/-- `vamo` for the whole strip. -/
def execVamo (f : VWord) (s : State) : Host.Outcome State Fault Refusal := vexec s (vamoCore f)

/-! ## The scratchpad (R144, R146) -/

namespace M

variable {s0 : State}

/-- The offset of each element in the slice of its lane. -/
def spElems (f : VWord) (n : Nat) (es : List Nat) : M s0 (List (Nat × Nat)) := do
  let base ← snap (xBase f)
  let vs ← vec
  return es.map fun e => (e, (base + BitVec.ofNat 64 (vs.elem f.vb.toNat (8 * n) e)).toNat)

/-- The lowest element that is misaligned or outside the slice traps with its index. -/
def spCheck (env : VEnv) (n : Nat) (as : List (Nat × Nat)) : M s0 PUnit :=
  each as fun (e, a) => do
    if a % n ≠ 0 then vecTrap env 0x03 (BitVec.ofNat 64 e) (some e)
    if a + n > 8192 then vecTrap env 0x05 (BitVec.ofNat 64 e) (some e)

/-- The key of the first scratchpad byte of an element. -/
def spKey (n : Nat) (ea : Nat × Nat) : M s0 Nat := do
  let h ← hart
  let (g, l) := laneOf (8 * n) ea.1
  return scratchKey h.id.did h.id.hid (8 * g + l) ea.2

/-- avail[k] − sb, at least 0. -/
def prefixOf (k : Nat) : M s0 Nat := do
  let h ← hart
  return ((h.streams.toList.getD k .reset).avail - h.sr.sb).toInt.toNat

/-- The elements that a load may perform now under its modifier (R146): `.trim` cuts at avail; under `.follow` element group j is ready once
avail has reached its end. -/
def underModifier (f : VWord) (n : Nat) (es : List Nat) : M s0 (List Nat) := do
  let k := f.ctl.toNat % 8
  let h ← hart
  let p ← prefixOf k
  match f.ctl.toNat / 8 with
  | 1 => return es.filter fun e => decide (e < min h.sr.vl.toNat p)
  | 2 =>
    let grp := 64 / n
    let flying := match (h.streams.toList.getD k .reset).xfer with
      | some t => t.fail.isNone
      | none => false
    return es.filter fun e => !flying || decide (p ≥ min h.sr.vl.toNat ((e / grp + 1) * grp))
  | _ => return es

/-- Element groups of n-byte elements that a `.follow` load has performed before this step. -/
def partDone : M s0 Nat := do return ((← hart).ctx.map (·.part)).getD 0

/-- A `.follow` load has performed these elements of all it is to perform: with some left it goes on in a later step. -/
def notePart (n : Nat) (all ready : List Nat) : M s0 PUnit := do
  match all.find? fun e => !ready.contains e with
  | none => modHart fun h => { h with ctx := h.ctx.map fun c => { c with part := 0 } }
  | some e => do
    let j := e / (64 / n)
    if j ≤ (← partDone) then stall
    modHart fun h => { h with ctx := h.ctx.map fun c => { c with part := j } }
    done

end M

/-- `vlsp`: loads from the scratchpad slice of each element's lane (R144, R146). -/
def vlspCore {s0 : State} (f : VWord) (env : VEnv) : M s0 PUnit :=
  do
  let all ← M.memElems env f M.threaded (some f.vd) [f.vd, f.vb]
  let n := tyBits f.ty / 8
  M.keptGuard env true (do return ((← M.spElems f n (← M.allElems f)).map fun (_, a) => (a, n), []))
  match ((← M.hart).ctx.bind LoopCtx.known) with
  | some vals => M.putLoaded f n (vals.filter fun p => all.contains p.1)
  | none => do
    let es ← M.underModifier f n all
    let follow := f.ctl.toNat / 8 = 2
    let as ← M.spElems f n (if follow then all else es)
    M.interlock true (as.map fun (_, a) => (a, n)) [] (if f.ctl.toNat / 8 = 0 then none else some (f.ctl.toNat % 8))
    M.spCheck env n as
    -- the groups before `part` were performed in an earlier step
    let part ← M.partDone
    let now := as.filter fun (e, _) => es.contains e && !(follow && decide (e / (64 / n) < part))
    let bad := (← M.st).img.spPoison
    let vals ← M.collect now fun ea => do
      let k ← M.spKey n ea
      if bad.contains (k / 8) then M.loadPoison env f ea.1 (BitVec.ofNat 64 ea.1) none
      return (ea.1, ofBytes ((← M.st).scratch.reads k n))
    -- while the exit is being resolved, and in a region, the groups are performed together
    let whole := env.probe || env.region
    if whole && follow && es.length < all.length then M.stall
    M.noteSeen env vals
    M.putLoaded f n vals
    if follow && !whole then M.notePart n all es

/-- `vlsp` for the whole strip. -/
def execVlsp (f : VWord) (s : State) : Host.Outcome State Fault Refusal := vexec s (vlspCore f)

/-- `vssp`: stores into the scratchpad slice of each element's lane, in index order (R144). -/
def vsspCore {s0 : State} (f : VWord) (env : VEnv) : M s0 PUnit :=
  do
  let es ← M.memElems env f M.threaded none [f.vd, f.vb]
  let n := tyBits f.ty / 8
  M.keptGuard env true (do return ([], (← M.spElems f n (← M.allElems f)).map fun (_, a) => (a, n)))
  let as ← M.spElems f n es
  M.interlock true [] (as.map fun (_, a) => (a, n)) none
  M.spCheck env n as
  let vs ← M.vec
  let data (e : Nat) : List Byte := toBytes n (vs.elem f.vd.toNat (8 * n) e)
  let ks ← M.collect as fun ea => do return (ea.1, ← M.spKey n ea)
  if (← M.holding) && !env.probe then M.holdStores (ks.map fun (e, k) => { e := e, va := k, leaf := none, bytes := data e })
  else do
    M.each ks fun (e, k) => M.emit (.scratch k (data e))
    M.modImg fun m => { m with spPoison := m.spPoison.filter fun k => !fullWords 8 (ks.map fun (_, k) => (k, n)) k }

/-- `vssp` for the whole strip. -/
def execVssp (f : VWord) (s : State) : Host.Outcome State Fault Refusal := vexec s (vsspCore f)

end Sys2Proof.Machine
end

