-- ==== Sys2Proof/Machine/VPlace.lean ====
section
/-!
DEFINITION. Vector words of the in-place engines and the placement engine: `xroute` (R253), `vnbadd` (R198), `wmv` (R207) and its
calibration words `wcal` (R210, R211).
-/

namespace Sys2Proof.Machine

/-! ## Routing (R252, R253) -/

/-- The active replicas of an expert in a bank, in ascending replica index. -/
def Bank.active (b : Bank) (x : Nat) : List (Nat × Replica) :=
  (List.range 8).filterMap fun r => match aget b.entries (8 * x + r) with
    | some e => if e.state = 1 then some (r, e) else none
    | none => none

/-- The bank that holds a version. -/
def DieTable.bankOf (t : DieTable) (v : BitVec 32) : Bank := if v.getLsbD 0 then t.bank1 else t.bank0

/-- The routing word of a token for an expert under a bank and the low 24 bits of its version (R253). -/
def Bank.route (b : Bank) (v24 x : Nat) (token : Word) : Nat :=
  let v := v24 * 256
  let a := b.active x
  if x ≥ b.experts then v + 0x80
  else match a[(chash b.seedTable token).toNat % a.length]? with
    | none => v + 0x80
    | some (r, e) => v + (if e.weights then 64 else 0) + 8 * r + e.die

/-- The routing word of a token for an expert under the die's version. -/
def DieTable.route (t : DieTable) (x : Nat) (token : Word) : Nat :=
  (t.bankOf t.version).route (t.version.toNat % 2 ^ 24) x token

/-- `xroute`: routing words and load counters (R253). -/
def xrouteCore {s0 : State} (f : VWord) (env : VEnv) : M s0 PUnit :=
  do
  M.modeCheck env M.plain (some f.vd)
  M.needSew env 32
  M.needGroups env [f.vd, f.va]
  let vs ← M.vec
  let es := env.elems (vs.mask f.m.toNat)
  let sb := (← M.hart).sr.sb
  match es.find? fun e => decide (vs.elem f.va.toNat 32 e ≥ 8192) with
  | some e => M.vecTrap env 0x05 (sb + BitVec.ofNat 64 e) (some e)
  | none => pure ⟨⟩
  if (← M.hart).sr.vl = 0 then pure ⟨⟩
  else M.exactlyOnce (M.putLoaded f 4) (do
    let d := (← M.hart).id.did
    -- the version word is read once: before a `vexit` when the exit is resolved
    let vals ← match ((← M.hart).ctx.bind LoopCtx.known) with
      | some vals => pure (vals.filter fun p => es.contains p.1)
      | none => do
        M.mergeDie
        M.learnVec ((← M.st).die d).clock
        let t := (← M.st).tableOf d
        pure (es.map fun e => (e, t.route (vs.elem f.va.toNat 32 e) (sb + BitVec.ofNat 64 e)))
    M.noteSeen env vals
    M.putLoaded f 4 vals
    let counts := es.map fun e => (e, vs.elem f.va.toNat 32 e)
    if (← M.holding) && !env.probe then M.holdCounts counts
    else M.each counts fun (_, x) => M.addLoad d x 1
    return vals)

/-- `xroute` for the whole strip. -/
def execXroute (f : VWord) (s : State) : Host.Outcome State Fault Refusal := vexec s (xrouteCore f)

/-! ## Bank add requests (R198) -/

namespace M

variable {s0 : State}

/-- Check every listed word for an add request; the first that fails traps with its address. -/
def checkAdds (env : VEnv) : List (Nat × Word) → M s0 (List (Nat × Acc))
  | [] => pure []
  | (e, a) :: l => do
    match ← checkAdd a with
    | .error c => vecTrap env c a (some e)
    | .ok acc => return (e, acc) :: (← checkAdds env l)

end M

/-- `vnbadd`: one add request per performed element, in index order (R198). -/
def vnbaddCore {s0 : State} (f : VWord) (env : VEnv) : M s0 PUnit :=
  do
  let es ← M.memElems env f M.plain none [f.va, f.vb]
  M.keptGuard env false (do return ([], M.rangesOf 4 (← M.indexAddrs f 4 (← M.allElems f))))
  let as ← M.indexAddrs f 4 es
  M.interlock false [] (M.rangesOf 4 as) none
  let accs ← M.checkAdds env as
  if env.probe then pure ⟨⟩
  else if ← M.holding then M.owe
  else M.exactlyOnce (fun _ => pure ⟨⟩) (do
    M.readyFor env accs true
    let vs ← M.vec
    M.each accs fun (e, a) => do
      if (← M.hart).sr.nbdet && (← M.bankFull a.pa) then M.stall
      M.numberAt a.leaf.home
      M.acceptAdd a.pa (f.ty == 10#4) (BitVec.ofNat 32 (vs.elem f.va.toNat 32 e))
    return [])

/-- `vnbadd` for the whole strip. -/
def execVnbadd (f : VWord) (s : State) : Host.Outcome State Fault Refusal := vexec s (vnbaddCore f)

/-! ## Weight arrays (R203, R207) -/

/-- Weights of a row. -/
def weightsPerRow (ww : Bool) : Nat := if ww then 46 else 85

/-- The bits of weight n of a row of 64 bytes (R203). -/
def weightBits (ww : Bool) (row : List Byte) (n : Nat) : Nat :=
  if ww then (row.getD n 0).toNat else (row.getD (n / 2) 0).toNat / 16 ^ (n % 2) % 16

/-- The bits of a weight that its bit columns hold, from the first column (R203). -/
def cellBits (ww : Bool) : List Nat := if ww then [7, 7, 6, 6, 5, 5, 4, 3, 2, 1, 0] else [3, 3, 2, 2, 1, 0]

/-- The cells of a row, by bit column: a doubled bit is written to both of its cells, and the columns behind the last weight are unused (R203). -/
def rowCells (ww : Bool) (row : List Byte) : List Bool :=
  let used := (List.range (weightsPerRow ww)).flatMap fun n => (cellBits ww).map (weightBits ww row n).testBit
  used ++ List.replicate (512 - used.length) false

/-- What the cells of a weight give: a doubled bit is read as the average of its cells, and the highest bit counts negative (R203). -/
def cellsValue (ww : Bool) (cells : List Bool) : Int :=
  let top := if ww then 7 else 3
  ((List.range (top + 1)).map fun b =>
    let mine := (((cellBits ww).zip cells).filter fun p => p.1 == b).map (·.2)
    let avg : Int := (2 ^ b * (mine.filter id).length : Nat) / (mine.length : Nat)
    if b = top then -avg else avg).sum

/-- Weight n of a row of 64 bytes, as the conversions meet it. -/
def weightOf (ww : Bool) (row : List Byte) (n : Nat) : Int :=
  let k := (cellBits ww).length
  cellsValue ww (((rowCells ww row).drop (k * n)).take k)

/-- What the error model of a macro depends on. -/
def State.climateOf (s : State) (key : Nat) : Climate := s.bank.climate.toList.getD (key / 8192) { band := 0, age := 0 }

/-- The error-model entries of a macro at its die's temperature band and age: gain error, offset, sigma (R209). -/
def State.macroEntry (s : State) (key : Nat) : BitVec 32 × BitVec 32 × BitVec 32 :=
  let c := s.climateOf key
  (Config.macroGain key c.band c.age, Config.macroOffset key c.band c.age, Config.macroSigma key c.band c.age)

/-- A finite f32 scaled by 2^213; a value that is not finite counts as 0. -/
def f32Scaled (b : BitVec 32) : Int :=
  match fmtF32.decode b.toNat with
  | .fin s m e => (if s then -1 else 1) * ((m * 2 ^ (e + 213).toNat : Nat) : Int)
  | _ => 0

/-- An estimate of a macro, scaled by 2^213: somewhere within (1 + g) exact + o ± 6 σ; p is its place, a fraction of 2^64. (DESIGN CHOICE, log 13) -/
def estimate (exact g o sigma : Int) (p : Nat) : Int :=
  let mid := exact * 2 ^ 213 + g * exact + o
  let w : Int := 6 * (sigma.natAbs : Int)
  mid - w + 2 * w * p / 2 ^ 64

/-- Round a value scaled by 2^213 to the nearest integer, ties to even. -/
def roundScaled (v : Int) : Int :=
  let q := v / 2 ^ 213
  let r := v % 2 ^ 213
  if 2 * r > 2 ^ 213 || (2 * r = 2 ^ 213 && q % 2 ≠ 0) then q + 1 else q

/-- The 64 bytes of a row of the weight arrays. -/
def State.weightRow (s : State) (pa : Nat) : List Byte :=
  if s.weightLost (pa / 64) then toBytes 64 (Config.lostRow (pa / 64)).toNat else s.cells.reads pa 64

namespace M

variable {s0 : State}

/-- The macros that an instruction uses: the physical address of each; a page that is not a weight page, or pages with differing WSET or WW, give
0x05. -/
def setMacros (env : VEnv) (set : Word) : List Nat → Option (Nat × Bool) → M s0 (List Acc)
  | [], _ => return []
  | q :: qs, same => do
    let va := set + BitVec.ofNat 64 (32768 * q)
    match ← check va 64 .load with
    | .error c => vecTrap env c va none
    | .ok a =>
      let key := (a.leaf.wset, a.leaf.ww)
      if a.leaf.wset = 0 || (same.any fun k => k ≠ key) then vecTrap env 0x05 set none
      return a :: (← setMacros env set qs (some key))

/-- A macro that is in a calibration window holds the instruction until the window ends. -/
def needNoWindow (macros : List Nat) : M s0 PUnit := do
  let s ← st
  if macros.any fun m => (s.macroAt m).window then
    push .calibrationWindowEnd
    done

end M

/-- `wmv`: multiplies the inputs by a weight set held in the arrays (R207). -/
def wmvCore {s0 : State} (f : VWord) (env : VEnv) : M s0 PUnit :=
  do
  M.modeCheck env M.plain (some f.vd)
  M.needSew env 8
  M.needGroups env [f.vd, f.va]
  let h ← M.hart
  let set ← M.snap (xBase f)
  match h.ctx.bind LoopCtx.known with
  | some vals => M.putLoaded f 4 vals
  | none =>
  if h.sr.vl = 0 then pure ⟨⟩
  else do
    if set.toNat % 32768 ≠ 0 then M.vecTrap env 0x03 set none
    let n := ceilDiv (min h.sr.vl.toNat 8192) 512
    let accs ← M.setMacros env set (List.range n) none
    let macros := accs.map fun a => macroOf a.pa
    match macros.find? fun m => ((s0.macroAt m).retired) with
    | some m => M.vecTrap env 0x15 (BitVec.ofNat 64 (m % 8192)) none
    | none => pure ⟨⟩
    M.needNoWindow macros
    M.each (accs.map fun a => a.leaf.home).eraseDups M.needServed
    let vs ← M.vec
    let ww := (accs.map fun a => a.leaf.ww).headD false
    let m := vs.mask f.m.toNat
    let x (k : Nat) : Int := if env.performed m k then tyInt f.ty 8 (vs.elem f.va.toNat 8 k) else 0
    let draw ← M.draw
    let s ← M.st
    let est (c : Nat) : Int := ((List.range n).map fun q =>
      let pa := (accs.map fun a => a.pa).getD q 0
      let key := macroOf pa
      let ks := (rangeFrom (512 * q) 512).filter fun k => x k ≠ 0
      if ks.isEmpty then 0
      else
        let exact := (ks.map fun k => x k * weightOf ww (s.weightRow (pa + 64 * (k % 512))) c).sum
        let (gain, offset, sigma) := s.macroEntry key
        estimate exact (f32Scaled gain) (f32Scaled offset) (f32Scaled sigma) (Config.wmvPoint draw (128 * q + c)).toNat).sum
    let vals := (List.range (weightsPerRow ww)).map fun c => (c, wrapInt 32 (clampInt true 32 (roundScaled (est c))))
    M.noteSeen env vals
    M.putLoaded f 4 vals

/-- `wmv` for the whole strip. -/
def execWmv (f : VWord) (s : State) : Host.Outcome State Fault Refusal := vexec s (wmvCore f)

/-! ## Calibration words (R210, R211) -/

namespace M

variable {s0 : State}

/-- The check of s_a: alignment, translation, and a weight page. -/
def checkSet (sa : Word) : M s0 Acc := do
  if sa.toNat % 32768 ≠ 0 then trap 0x03 sa
  let a ← checkOr sa 64 .load
  if a.leaf.wset = 0 then trap 0x05 sa
  return a

/-- The macros of the set whose first macro is a, from a page on: page after page carries the same WSET and WW (R204). The first argument
bounds the number of macros. (DEDUCED, log 113) -/
def setFrom (a : Acc) : Nat → Word → M s0 (List Nat)
  | 0, _ => return []
  | k + 1, va => do
    match ← check va 64 .load with
    | .error _ => return []
    | .ok b =>
      if b.leaf.wset == a.leaf.wset && b.leaf.ww == a.leaf.ww then
        return macroOf b.pa :: (← setFrom a k (va + 32768))
      else return []

/-- The macros of the set of an address. -/
def setOf (sa : Word) (a : Acc) : M s0 (List Nat) := setFrom a 65536 sa

end M

/-- The 32 bytes of a record of `wcal.model`. -/
def State.macroRecord (s : State) (key : Nat) (valid : Bool) : List Byte :=
  let m := s.macroAt key
  let tail := toBytes 8 (key % 8192)
  let (gain, offset, sigma) := s.macroEntry key
  if valid then
    toBytes 4 gain.toNat ++ toBytes 4 offset.toNat ++ toBytes 4 sigma.toNat ++ [(s.climateOf key).band]
      ++ toBytes 1 (1 + (if m.retired then 2 else 0) + (if m.announced.isSome then 4 else 0))
      ++ toBytes 2 (s.climateOf key).age.toNat ++ toBytes 8 (m.announced.getD 0) ++ tail
  else List.replicate 24 0 ++ tail

/-- `wcal.model`: 16 records of 32 bytes at s_b, as stores of the hart (R210). -/
def execWcalModel (a b : Reg) (s : State) : Host.Outcome State Fault Refusal :=
  exec1 s (do
    M.needVs
    let sa ← M.rd a
    let sb ← M.rd b
    let acc ← M.checkSet sa
    if sb.toNat % 64 ≠ 0 then M.trap 0x03 sb
    let accs ← M.collect (List.range 16) fun i => M.checkOr (sb + BitVec.ofNat 64 (32 * i)) 32 .store
    M.each ((accs.map fun x => x.leaf.home).eraseDups) fun home => M.needStore home 16
    let own ← M.setOf sa acc
    M.each accs.zipIdx fun (x, i) => do
      let key := macroOf acc.pa + i
      M.putStore x ((← M.st).macroRecord key (own.contains key)) false false
    M.advance)

/-- `wcal.early`: every macro of the set that is not retired announces a calibration window between 1 ms and 2 ms ahead (R211). -/
def execWcalEarly (a : Reg) (s : State) : Host.Outcome State Fault Refusal :=
  exec1 s (do
    M.needVs
    let sa ← M.rd a
    let acc ← M.checkSet sa
    M.each (← M.setOf sa acc).eraseDups fun key => do
      let late := (← M.freeWord).toNat % 1000001
      let st ← M.st
      let m := st.macroAt key
      if m.retired then pure ⟨⟩
      else M.modBank fun b => { b with
        macros := aput b.macros key { m with announced := some (st.time.toNat + 1000000 + late) } }
    M.advance)

end Sys2Proof.Machine
end

