-- ==== Sys2Proof/Machine/Exit.lean ====
section
/-!
DEFINITION. How the exit of a strip resolves once words before it have run towards a trap (R24, R307).
-/

namespace Sys2Proof.Machine

/-- A register with the bits from n on taken from another. -/
def keepBelow {w : Nat} (now undo : BitVec w) (n : Nat) : BitVec w :=
  let low := BitVec.ofNat w (2 ^ n - 1)
  (now &&& low) ||| (undo &&& ~~~low)

/-- The vector registers, masks and brackets with every element beyond e as it was before; the elements lie under R16 at the granted width
and grouping. -/
def VecState.cutBack (now undo : VecState) (grp w e : Nat) : VecState :=
  { now with
    v := Vector.ofFn fun i => keepBelow (now.reg i.val) (undo.reg i.val) ((e + 1) * w - i.val % grp * 8192),
    m := Vector.ofFn fun i => keepBelow (now.m[i.val]) (undo.m[i.val]) (e + 1),
    blo := keepBelow now.blo undo.blo ((e + 1) * w), bhi := keepBelow now.bhi undo.bhi ((e + 1) * w) }

namespace M

variable {s0 : State}

/-- Perform a held store. -/
def releaseStore (q : HeldStore) : M s0 PUnit :=
  match q.leaf with
  | some l => storeNow { va := q.va, pa := l.pa q.va, leaf := l } q.bytes
  | none => emit (.scratch q.va q.bytes)

/-- The exit of a strip that ran towards a trap resolves with this stop element, if any: the elements of the words before it that lie beyond
the stop element are taken back, the held stores and counts at or below it are performed, and the held words are to run. -/
def closePass (stop : Option Nat) : M s0 PUnit := do
  let h ← hart
  match h.ctx.bind (·.pass) with
  | none => pure ⟨⟩
  | some p => do
    let stores := p.stores.filter fun q => match stop with
      | some e => decide (q.e ≤ e)
      | none => true
    let counts := p.counts.filter fun q => match stop with
      | some e => decide (q.1 ≤ e)
      | none => true
    each ((stores.filterMap fun q => q.leaf.map (·.home)).eraseDups) needServed
    needWindow h.id.did stores.length
    each stores releaseStore
    each counts fun (_, x) => addLoad h.id.did x 1
    modHart fun h => { h with
      vec := match stop with
        | some e => h.vec.cutBack p.undo h.sr.vgrp.n h.sr.sew.bits e
        | none => h.vec,
      ctx := h.ctx.map fun c => { c with pass := none, owed := p.owed } }

end M

end Sys2Proof.Machine
end

