-- ==== Sys2Proof/Machine/Flags.lean ====
section
/-!
DEFINITION. Conditions. The ZH8 keeps no arithmetic flags: a compare writes its condition into a mask bit (R43, R122), and
the status bits of a hart are those of R301.
-/

namespace Sys2Proof.Machine

/-- An integer condition of R43: 0 eq, 1 ne, 2 lt, 3 le, 4 gt, 5 ge. -/
def intCond (c : Nat) (a b : Int) : Bool :=
  if c = 0 then a = b else if c = 1 then a ≠ b else if c = 2 then a < b else if c = 3 then a ≤ b
  else if c = 4 then a > b else a ≥ b

/-- A floating condition (R122): 6 ord, 7 unord. -/
def floatCond (c : Nat) (a b : FVal) : Bool :=
  let un := a.isNan || b.isNan
  if c = 0 then feq a b
  else if c = 1 then un || !feq a b
  else if c = 2 then flt a b
  else if c = 3 then !un && !flt b a
  else if c = 4 then flt b a
  else if c = 5 then !un && !flt a b
  else if c = 6 then !un else un

/-- The condition of a `vcmp` on two encodings, by type. -/
def condOf (t : BitVec 4) (c a b : Nat) : Bool :=
  if tyFloat t then floatCond c ((fmtOf t).decode a) ((fmtOf t).decode b)
  else intCond c (tyInt t (tyBits t) a) (tyInt t (tyBits t) b)

end Sys2Proof.Machine
end

