-- ==== Sys2Proof/Machine/VMask.lean ====
section
/-!
DEFINITION. Compare and mask instructions (R122 to R124). Mask operands stand in the low three bits of their fields; m0 reads
as all ones and ignores writes.
-/

namespace Sys2Proof.Machine

/-- The number of a mask operand. -/
def maskNo (r : Reg) : Nat := r.toNat % 8

/-- A mask logic instruction; with the replicate modifier the second mask is read at the positions of R41. -/
def maskOp {s0 : State} (f : VWord) (env : VEnv) (g : Bool → Bool → Bool) : M s0 PUnit := do
  M.modeCheck env M.threaded none
  M.needUnit env f
  let vs ← M.vec
  let a := vs.mask (maskNo f.va)
  let b := vs.mask (maskNo f.vb)
  M.putVec (vs.putMaskBits (maskNo f.vd) (env.elems (vs.mask f.m.toNat)) fun e => g (a.getLsbD e) (b.getLsbD (vbPos f e)))

/-- The performed elements whose bit in the mask va is set; nothing is written for vl = 0 (R116). -/
def slotOp {s0 : State} (f : VWord) (env : VEnv) (g : Nat → List Nat → Word) : M s0 PUnit := do
  M.modeCheck env M.plain none
  let vs ← M.vec
  let a := vs.mask (maskNo f.va)
  let es := (env.elems (vs.mask f.m.toNat)).filter fun e => a.getLsbD e
  if (← M.hart).sr.vl = 0 then pure ⟨⟩ else M.putSlot (f.vd.toNat % 8) (g (← M.sbase) es)

/-- `vcmp`: the condition of R43 into a mask bit (R122). -/
def vcmpCore {s0 : State} (f : VWord) (env : VEnv) : M s0 PUnit :=
  do
  M.arithCheck env M.threaded f none [f.va]
  let w := tyBits f.ty
  let b ← M.operandB f w
  let vs ← M.vec
  M.putVec (vs.putMaskBits (maskNo f.vd) (env.elems (vs.mask f.m.toNat)) fun e =>
    condOf f.ty (f.ctl.toNat % 8) (vs.elem f.va.toNat w e) (b e))

/-- `vcmp` for the whole strip. -/
def execVcmp (f : VWord) (s : State) : Host.Outcome State Fault Refusal := vexec s (vcmpCore f)

/-- `vmand`: and of two masks (R44). -/
def vmandCore {s0 : State} (f : VWord) (env : VEnv) : M s0 PUnit :=
  maskOp f env fun a b => a && b

/-- `vmand` for the whole strip. -/
def execVmand (f : VWord) (s : State) : Host.Outcome State Fault Refusal := vexec s (vmandCore f)

/-- `vmor`: or of two masks (R44). -/
def vmorCore {s0 : State} (f : VWord) (env : VEnv) : M s0 PUnit :=
  maskOp f env fun a b => a || b

/-- `vmor` for the whole strip. -/
def execVmor (f : VWord) (s : State) : Host.Outcome State Fault Refusal := vexec s (vmorCore f)

/-- `vmxor`: exclusive or of two masks (R44). -/
def vmxorCore {s0 : State} (f : VWord) (env : VEnv) : M s0 PUnit :=
  maskOp f env fun a b => a != b

/-- `vmxor` for the whole strip. -/
def execVmxor (f : VWord) (s : State) : Host.Outcome State Fault Refusal := vexec s (vmxorCore f)

/-- `vmnot`: the complement of a mask (R44). -/
def vmnotCore {s0 : State} (f : VWord) (env : VEnv) : M s0 PUnit :=
  maskOp f env fun a _ => !a

/-- `vmnot` for the whole strip. -/
def execVmnot (f : VWord) (s : State) : Host.Outcome State Fault Refusal := vexec s (vmnotCore f)

/-- `vmpop`: the number of performed elements whose bit is set (R123). -/
def vmpopCore {s0 : State} (f : VWord) (env : VEnv) : M s0 PUnit :=
  slotOp f env fun _ es => BitVec.ofNat 64 es.length

/-- `vmpop` for the whole strip. -/
def execVmpop (f : VWord) (s : State) : Host.Outcome State Fault Refusal := vexec s (vmpopCore f)

/-- `vmfirst`: sb + e of the lowest such element, or all ones (R123). -/
def vmfirstCore {s0 : State} (f : VWord) (env : VEnv) : M s0 PUnit :=
  slotOp f env fun sb es => match es with
    | [] => BitVec.allOnes 64
    | e :: _ => BitVec.ofNat 64 (sb + e)

/-- `vmfirst` for the whole strip. -/
def execVmfirst (f : VWord) (s : State) : Host.Outcome State Fault Refusal := vexec s (vmfirstCore f)

/-- `vmsel`: va where the mask bit is set, the second operand elsewhere (R124). -/
def vmselCore {s0 : State} (f : VWord) (env : VEnv) : M s0 PUnit :=
  do
  M.arithCheck env M.anywhere f (some f.vd) [f.va]
  let w := tyBits f.ty
  let b ← M.operandB f w
  let vs ← M.vec
  let m := vs.mask f.m.toNat
  M.putVec (vs.putElems f.vd.toNat w (env.elems (vs.mask 0)) fun e => if m.getLsbD e then vs.elem f.va.toNat w e else b e)

/-- `vmsel` for the whole strip. -/
def execVmsel (f : VWord) (s : State) : Host.Outcome State Fault Refusal := vexec s (vmselCore f)

end Sys2Proof.Machine
end

