-- ==== Sys2Proof/Machine/Block.lean ====
section
/-!
DEFINITION. Block control (R154 to R162): the words that change the order of a block, the end of a strip, and `vtoq`.
-/

namespace Sys2Proof.Machine

/-- Go on at a word of the block. -/
def M.goTo {s0 : State} (i : Nat) : M s0 PUnit := M.modHart fun h => { h with ctx := h.ctx.map fun c => { c with idx := i } }

/-- The target of a branch at word i (R45). -/
def branchTarget (f : VWord) (i : Nat) : Nat := ((i : Int) + toSigned 9 (f.x.toNat % 512)).toNat

/-- `vhead`: performs nothing when its block runs (R154). -/
def vheadCore {s0 : State} (_ : VWord) (env : VEnv) : M s0 PUnit :=
  if env.region then M.illegal env else pure ⟨⟩

/-- `vhead` for the whole strip. -/
def execVhead (f : VWord) (s : State) : Host.Outcome State Fault Refusal := vexec s (vheadCore f)

/-! ## The end of a strip (R20, R24, R154) -/

/-- The strip of the block in the loop context ends: the next strip, the end of the loop, or the end of the block. (DESIGN CHOICE, log 107) -/
def endStrip (h : Hart) : Hart :=
  match h.ctx with
  | none => h
  | some c =>
    match c.entry.kind with
    | .block _ (some n) =>
      let ran := if c.parked.isEmpty then [] else c.ran ++ [c.k]
      if c.fired then
        { h with ctx := none, sr := { h.sr with vl := c.g, sb := h.sr.xstop } }
      else match c.parked.find? fun p => p.fail.isNone with
      | some p => h.takeStrip { c with ran := ran } p
      | none =>
      if c.nextStrip * c.g.toNat < n.toNat && c.parked.isEmpty then
        { h with ctx := some { c.fresh 0 with k := c.nextStrip, ran := ran } }
      else { h with ctx := none, sr := { h.sr with vl := c.g, sb := c.b0 + n, xstop := c.b0 + n } }
    | _ => { h with ctx := none }

/-- `vstop`: ends the strip (R154); its engine transfers go on beside what follows (R147). Behind the last running strip of an `indep` block
the trap of the lowest strip that failed is taken (R332). Reached by an element thread it traps (R162). (DEDUCED, log 23) (DEDUCED, log 40) -/
def execVstop (s : State) : Host.Outcome State Fault Refusal :=
  exec1 s (do
    let h ← M.hart
    let inRegion := match h.ctx with
      | some c => c.threads.isSome
      | none => false
    if inRegion then M.illegal { (← M.frame) with region := true }
    match h.ctx with
    | some c =>
      if !c.parked.isEmpty && c.parked.all (·.fail.isSome) then do
        M.needTransfers
        M.atBoundary
        match c.parked.find? fun p => c.parked.all fun q => decide (p.k ≤ q.k) with
        | some p => do
          M.modHart fun h => h.takeStrip { c with parked := [], ran := [] } p
          match p.fail with
          | some (cause, v, a) => M.vecTrapWith cause v a (← M.hart).ctx c.entry.mark [] h.queue
          | none => pure ⟨⟩
        | none => pure ⟨⟩
        M.done
    | none => pure ⟨⟩
    M.modHart endStrip)

/-! ## Data-dependent exit (R24, R158) -/

/-- The lowest element below a limit whose bit is set. -/
def lowest (m : Mask) (lim : Nat) : Option Nat := firstBelow lim fun e => m.getLsbD e

/-- `vexit`: ends the loop at the first element whose bit is set (R24); it fires at most once per strip (R158). Once the exit of the strip is
resolved it answers as resolved; while the exit is being resolved the answer is noted. -/
def vexitCore {s0 : State} (f : VWord) (env : VEnv) : M s0 PUnit :=
  do
  M.modeCheck env M.plain none
  let h ← M.hart
  let now := lowest (h.vec.mask (maskNo f.va)) env.lim
  match h.ctx with
  | none => pure ⟨⟩
  | some c =>
    if c.fired then pure ⟨⟩
    else if env.probe then
      M.modHart fun h => { h with ctx := some { c with stop := now, taken := c.taken ++ [(c.idx, now.isSome)] } }
    else
      let answer := match c.resolved, c.taken.find? fun (t : Nat × Bool) => t.1 == c.idx with
        | true, some (_, fires) => if fires then c.stop else none
        | _, _ => now
      if answer.isSome || !c.exitAhead then M.closePass answer
      match answer with
      | none => if c.exitAhead then pure ⟨⟩ else M.modHart fun h => { h with ctx := h.ctx.map fun c => { c with kept := [] } }
      | some e =>
        M.modHart fun h => { h with
          ctx := h.ctx.map fun c => { c with kept := [], resolved := true, stop := some e, fired := true },
          sr := { h.sr with xstop := h.sr.sb + BitVec.ofNat 64 e } }

/-- `vexit` for the whole strip. -/
def execVexit (f : VWord) (s : State) : Host.Outcome State Fault Refusal := vexec s (vexitCore f)

/-! ## Uniform branches (R23, R156, R157) -/

/-- Take a branch: at a taken backward branch a pending pre-emption stops the strip before the target (R157). -/
def takeBranch {s0 : State} (f : VWord) : M s0 PUnit := do
  let h ← M.hart
  match h.ctx with
  | none => pure ⟨⟩
  | some c => do
    let t := branchTarget f c.idx
    M.goTo t
    if t < c.idx && c.parked.isEmpty then
      match ← M.gangOf h with
      | some g => match g.phase with
        | .stopping _ => M.modHart fun h => { h with ctx := h.ctx.map fun c => { c with paused := true } }
        | _ => pure ⟨⟩
      | none => pure ⟨⟩

/-- The answer of a uniform branch: as resolved with the exit of the strip, or from the tested bits below the strip's limit. -/
def uniform {s0 : State} (f : VWord) (env : VEnv) (g : Bool → Bool → Bool) : M s0 PUnit := do
  M.modeCheck env M.plain none
  let h ← M.hart
  let vs ← M.vec
  let lim := match h.ctx with
    | some c => if c.fired then min h.sr.vl.toNat (c.stop.getD 8192) else h.sr.vl.toNat
    | none => h.sr.vl.toNat
  let p := vs.mask f.m.toNat
  let m := vs.mask (maskNo f.va)
  let tested := (List.range (min lim 8192)).filter fun e => p.getLsbD e
  let now := g (tested.any fun e => m.getLsbD e) (tested.all fun e => m.getLsbD e)
  let kept := match h.ctx with
    | some c => if c.exitAhead then c.taken.find? (fun (t : Nat × Bool) => t.1 == c.idx) else none
    | none => none
  let take := match kept with
    | some t => t.2
    | none => now
  if env.probe then
    M.modHart fun h => { h with ctx := h.ctx.map fun c => { c with taken := c.taken ++ [(c.idx, take)] } }
  if take then takeBranch f else M.vecAdvance

/-- `vbany`: taken if any tested bit is 1 (R23). -/
def vbanyCore {s0 : State} (f : VWord) (env : VEnv) : M s0 PUnit :=
  uniform f env fun any _ => any

/-- `vbany` for the whole strip. -/
def execVbany (f : VWord) (s : State) : Host.Outcome State Fault Refusal := vexecJump s (vbanyCore f)

/-- `vball`: taken if every tested bit is 1 (R23). -/
def vballCore {s0 : State} (f : VWord) (env : VEnv) : M s0 PUnit :=
  uniform f env fun _ all => all

/-- `vball` for the whole strip. -/
def execVball (f : VWord) (s : State) : Host.Outcome State Fault Refusal := vexecJump s (vballCore f)

/-- `vbnone`: taken if no tested bit is 1 (R23). -/
def vbnoneCore {s0 : State} (f : VWord) (env : VEnv) : M s0 PUnit :=
  uniform f env fun any _ => !any

/-- `vbnone` for the whole strip. -/
def execVbnone (f : VWord) (s : State) : Host.Outcome State Fault Refusal := vexecJump s (vbnoneCore f)

/-- `vjmp`: always taken (R156). -/
def vjmpCore {s0 : State} (f : VWord) (env : VEnv) : M s0 PUnit :=
  do
  M.modeCheck env M.plain none
  takeBranch f

/-- `vjmp` for the whole strip. -/
def execVjmp (f : VWord) (s : State) : Host.Outcome State Fault Refusal := vexecJump s (vjmpCore f)

/-- `vtoq`: one element of the strip into a return slot (R160). -/
def vtoqCore {s0 : State} (f : VWord) (env : VEnv) : M s0 PUnit :=
  do
  M.modeCheck env M.plain none
  let w := tyBits f.ty
  M.needSew env w
  M.needGroups env [f.va]
  let i ← if f.form = 1 then pure (← M.snap (f.x.toNat % 32)).toNat else pure (f.x.toNat % 8192)
  let vs ← M.vec
  if env.performed (vs.mask f.m.toNat) i then
    M.putSlot (f.vd.toNat % 8) (loadValue (w / 8) (tySigned f.ty) (vs.elem f.va.toNat w i))

/-- `vtoq` for the whole strip. -/
def execVtoq (f : VWord) (s : State) : Host.Outcome State Fault Refusal := vexec s (vtoqCore f)

/-! ## Lane threading (R22, R161, R162) -/

/-- Index of the first word at or after i with an opcode. -/
def LoopCtx.findOp (c : LoopCtx) (op : BitVec 8) (i : Nat) : Nat :=
  (firstBelow (c.words.length - i) fun k => (c.words.getD (i + k) 0).extractLsb' 56 8 == op).getD 0 + i

/-- `vsplit`: starts an element thread for each active element (R161). -/
def vsplitCore {s0 : State} (f : VWord) (env : VEnv) : M s0 PUnit :=
  do
  M.modeCheck env M.plain none
  let es := env.elems (← M.maskOf f)
  M.modHart fun h => { h with ctx := h.ctx.map fun c =>
    if es.isEmpty then { c with idx := c.findOp 0xA7#8 c.idx + 1 }
    else { c with picked := [], threads := some (c.idx, es.map fun e => { e := e, idx := c.idx + 1, joined := false }) } }

/-- `vsplit` for the whole strip. -/
def execVsplit (f : VWord) (s : State) : Host.Outcome State Fault Refusal := vexecJump s (vsplitCore f)

/-- A thread waits to execute in a lane group, at an element width. -/
def Thread.waits (t : Thread) (w g : Nat) : Bool := !t.joined && (laneOf w t.e).1 == g

/-- The first of some numbers, in rising order, that lies above the last one taken; behind the highest the lowest. -/
def roundRobin (ns : List Nat) (last : Option Nat) : Option Nat :=
  let least (l : List Nat) : Option Nat := l.foldl (fun m n => some (match m with
    | some k => min k n
    | none => n)) none
  match last with
  | none => least ns
  | some k => (least (ns.filter fun n => decide (k < n))).or (least ns)

/-- The program counter that a lane group picks next: round-robin among those of its waiting threads (R161). -/
def LoopCtx.nextPc (c : LoopCtx) (w g : Nat) : Option Nat :=
  match c.threads with
  | none => none
  | some (_, ts) => roundRobin ((ts.filter fun t => t.waits w g).map (·.idx)) (aget c.picked g)

/-- A lane group picks a program counter. -/
def LoopCtx.pick (c : LoopCtx) (g idx : Nat) : LoopCtx := { c with picked := (g, idx) :: adel c.picked g }

/-- The lane group that issues next when they take turns. -/
def LoopCtx.nextGroup (c : LoopCtx) (w : Nat) : Option Nat :=
  match c.threads with
  | none => none
  | some (_, ts) => roundRobin ((ts.filter fun t => !t.joined).map fun t => (laneOf w t.e).1) ((c.picked.head?).map (·.1))

/-- The threads that wait to execute, at the lowest word index where some stand. -/
def LoopCtx.lowestPc (c : LoopCtx) : Option (Nat × List Nat) :=
  match c.threads with
  | none => none
  | some (_, ts) =>
    match (ts.filter fun t => !t.joined).map (·.idx) with
    | [] => none
    | i :: is =>
      let p := is.foldl min i
      some (p, (ts.filter fun t => !t.joined && t.idx == p).map (·.e))

/-- Change the threads of some elements. -/
def M.modThreads {s0 : State} (es : List Nat) (f : Thread → Thread) : M s0 PUnit :=
  M.modHart fun h => { h with ctx := h.ctx.map fun c => { c with
    threads := c.threads.map fun (i, ts) => (i, ts.map fun t => if es.contains t.e then f t else t) } }

/-- Every thread has arrived at `vjoin`: the vector re-forms and the block goes on behind it. -/
def M.rejoin {s0 : State} : M s0 PUnit :=
  M.modHart fun h => { h with ctx := h.ctx.map fun c =>
    match c.threads with
    | none => c
    | some (i, ts) => if ts.all (·.joined) then { c with threads := none, idx := c.findOp 0xA7#8 i + 1 } else c }

/-- Threads of some elements reach `vjoin` and wait there. -/
def joinThreads {s0 : State} (es : List Nat) : M s0 PUnit := do
  M.modThreads es fun t => { t with joined := true }
  M.rejoin

/-- Threads of some elements execute `lbr`: each goes to the target when its bit of the tested mask is set. -/
def branchThreads {s0 : State} (f : VWord) (es : List Nat) : M s0 PUnit := do
  let m := (← M.vec).mask (maskNo f.va)
  M.modThreads es fun t => { t with idx := if m.getLsbD t.e then branchTarget f t.idx else t.idx + 1 }

/-- The elements that a control word of a region is executed for when it is issued by itself; outside a region the word is illegal. -/
def standing {s0 : State} : M s0 (List Nat) := do
  match (← M.hart).ctx.bind (·.lowestPc) with
  | some (_, es) => return es
  | none => M.illegal (← M.frame)

/-- `lbr` for the threads that stand at it (R161). -/
def execLbr (f : VWord) (s : State) : Host.Outcome State Fault Refusal :=
  exec1 s (do branchThreads f (← standing))

/-- `vjoin` for the threads that stand at it (R161). -/
def execVjoin (s : State) : Host.Outcome State Fault Refusal :=
  exec1 s (do joinThreads (← standing))

end Sys2Proof.Machine
end

