-- ==== Sys2Proof/Machine/Dispatcher.lean ====
section
/-!
DEFINITION. Launch records, their limits, the placement of gangs on cores, and the acceptance of a record (R269 to R277, R370).
-/

namespace Sys2Proof.Machine

/-! ## The launch record (R272) -/

/-- Bytes lo to hi of a record. -/
def recB (r : BitVec 1024) (hi lo : Nat) : Nat := bits r.toNat (8 * hi + 7) (8 * lo)

/-- Entry address. -/
def recEntry (r : BitVec 1024) : Nat := recB r 7 0
/-- Completion flag address. -/
def recFlag (r : BitVec 1024) : Nat := recB r 23 16
/-- Gang count. -/
def recGangs (r : BitVec 1024) : Nat := recB r 33 32
/-- Harts per gang. -/
def recHarts (r : BitVec 1024) : Nat := recB r 34 34
/-- Grouping cap. -/
def recCap (r : BitVec 1024) : Nat := recB r 35 35
/-- Priority. -/
def recPriority (r : BitVec 1024) : Nat := recB r 36 36
/-- Co-resident. -/
def recCo (r : BitVec 1024) : Bool := bitAt (recB r 37 37) 0
/-- Spread. -/
def recSpread (r : BitVec 1024) : Bool := bitAt (recB r 37 37) 1
/-- Fused L1. -/
def recFused (r : BitVec 1024) : Bool := bitAt (recB r 37 37) 2
/-- Matrix rows wanted. -/
def recRows (r : BitVec 1024) : Nat := recB r 37 37 / 8 * 32
/-- Virtual function. -/
def recVf (r : BitVec 1024) : Nat := recB r 39 38
/-- Cycle budget. -/
def recBudget (r : BitVec 1024) : Nat := recB r 47 40
/-- Preload source. -/
def recSource (r : BitVec 1024) : Nat := recB r 63 56
/-- Preload bytes. -/
def recPreload (r : BitVec 1024) : Nat := recB r 67 64
/-- Dependency k. -/
def recDep (r : BitVec 1024) (k : Nat) : Nat := recB r (75 + 8 * k) (68 + 8 * k)
/-- Stack base. -/
def recStack (r : BitVec 1024) : Nat := recB r 107 100

/-- A dependency that R273 does not make malformed. -/
def depOk (d : Nat) : Bool :=
  match bits d 63 62 with
  | 0 => d == 0
  | 1 => bits d 61 35 == 0 && bits d 31 19 == 0
  | 2 => true
  | _ => false

/-- The limits of R272 and R273 for a record of a virtual function. -/
def recordOk (r : BitVec 1024) (vf : Nat) : Bool :=
  recEntry r % 4 == 0 && recFlag r % 8 == 0 && recGangs r ≠ 0 && 1 ≤ recHarts r && recHarts r ≤ 64
    && [1, 2, 4, 8].contains (recCap r) && recPriority r ≤ 7 && recRows r ≤ 256 && recVf r == vf && recBudget r ≠ 0
    && (recPreload r == 0 || recSource r % 64 == 0) && recPreload r ≤ 262144 && recPreload r % 64 == 0
    && (List.range 4).all (fun k => depOk (recDep r k)) && recStack r % 65536 == 0 && recB r 126 108 == 0
    && recB r 127 127 ≠ 0

/-! ## Placement on cores (R277) -/

/-- A core as admission sees it: slots in use, the tenant of its harts, whether a gang has it alone. -/
structure CoreOcc where
  used : List Nat
  tenant : Option Nat
  alone : Bool
  deriving DecidableEq, Repr

/-- A die as admission sees it: 96 cores, and the matrix rows taken in each of 24 quads. -/
structure DieOcc where
  cores : List CoreOcc
  rows : List Nat
  deriving DecidableEq, Repr

/-- A die without any hart. -/
def DieOcc.empty : DieOcc :=
  { cores := List.replicate 96 { used := [], tenant := none, alone := false }, rows := List.replicate 24 0 }

/-- A slot can take no new hart: a hart runs in it, or a pre-empted context stays there (R312, R313). -/
def slotTaken (h : Hart) : Bool :=
  match h.phase with
  | .run | .parked | .saving _ => true
  | .free | .halted => false

/-- A gang is admitted: it is on the cores until it has been saved. -/
def Gang.onCores (g : Gang) : Bool :=
  match g.phase with
  | .run | .stopping _ => true
  | .saved _ | .ready => false

/-- The launch of a gang. -/
def State.launchOf (s : State) (g : Gang) : Option Launch := s.disp.launches.find? fun l => l.id == g.launch

/-- Cores that a gang has to itself while it runs or its slots are reserved: with a preload its cores, with fused L1 its quads (R277). -/
def State.aloneCores (s : State) (d : Nat) : List Nat :=
  (s.disp.gangs.filter fun g => g.die == d && (g.onCores || g.reserved)).flatMap fun g =>
    match s.launchOf g with
    | none => []
    | some l =>
      let cores := (g.hids.map (· / 4)).eraseDups
      if recFused l.record then cores.flatMap fun c => rangeFrom (c / 4 * 4) 4
      else if recPreload l.record ≠ 0 then cores else []

/-- Slots of a die that stay reserved for members of a gang that have been saved, each with the tenant (R312, R313). -/
def State.reservedSlots (s : State) (d : Nat) : List (Nat × Nat) :=
  (s.disp.gangs.filter fun g => g.die == d && g.reserved).flatMap fun g =>
    g.areas.map fun p => (g.hids.getD p.1 0, (s.launchOf g).elim 0 fun l => s.tenantOf (recVf l.record))

/-- A die as it stands. (DEDUCED, log 56) -/
def State.dieOcc (s : State) (d : Nat) : DieOcc :=
  let hs := ((s.harts.filter fun h => h.id.did == d && slotTaken h).map fun h => (h.id.hid, h.id.tenant)) ++ s.reservedSlots d
  let alone := s.aloneCores d
  { cores := (List.range 96).map fun c =>
      let on := hs.filter fun p => p.1 / 4 == c
      { used := on.map fun p => p.1 % 4, tenant := (on.head?).map (·.2), alone := alone.contains c },
    rows := (List.range 24).map fun q => s.rowsTaken d q none }

/-- Free slots of a core. -/
def CoreOcc.free (c : CoreOcc) : List Nat := (List.range 4).filter fun i => !c.used.contains i

/-- A core can take k harts of a tenant. -/
def CoreOcc.takes (c : CoreOcc) (k tenant : Nat) (whole : Bool) : Bool :=
  !c.alone && decide (k ≤ c.free.length) && (c.tenant.all (· == tenant)) && (!whole || c.used.isEmpty)

/-- The core of a die. -/
def DieOcc.core (o : DieOcc) (c : Nat) : CoreOcc := o.cores.getD c { used := [0, 1, 2, 3], tenant := none, alone := true }

/-- Put k harts of a tenant on a core with n rows reserved for each: the slots taken. -/
def DieOcc.put (o : DieOcc) (c k tenant n : Nat) (alone : Bool) : DieOcc × List Nat :=
  let slots := (o.core c).free.take k
  ({ cores := o.cores.modify c fun x => { x with used := x.used ++ slots, tenant := some tenant, alone := alone },
     rows := o.rows.modify (c / 4) (· + k * n) },
   slots.map fun i => 4 * c + i)

/-- Harts of a gang of h harts by core: four each, the rest on the last. -/
def coreLoads (h : Nat) : List Nat := (List.range (ceilDiv h 4)).map fun c => min 4 (h - 4 * c)

/-- Choose cores in ascending number for the loads of a gang: the `hid`s in `gidx` order. -/
def DieOcc.choose (o : DieOcc) (tenant n : Nat) (whole alone : Bool) : List Nat → List Nat → Option (List Nat × DieOcc)
  | _, [] => some ([], o)
  | [], _ :: _ => none
  | c :: cs, k :: ks =>
    if (o.core c).takes k tenant whole && decide (o.rows.getD (c / 4) 512 + k * n ≤ 512) then
      let (o', hs) := o.put c k tenant n alone
      (o'.choose tenant n whole alone cs ks).map fun (l, o2) => (hs ++ l, o2)
    else o.choose tenant n whole alone cs (k :: ks)

/-- A quad is free of harts. -/
def DieOcc.quadFree (o : DieOcc) (q : Nat) : Bool :=
  (rangeFrom (4 * q) 4).all fun c => (o.core c).used.isEmpty && !(o.core c).alone

/-- Place the harts of a gang of a record, given how many each of its cores takes: the `hid`s in `gidx` order and the die afterwards (R277). -/
def DieOcc.placeLoads (o : DieOcc) (r : BitVec 1024) (tenant : Nat) (loads : List Nat) : Option (List Nat × DieOcc) :=
  if recFused r then
    let quads := ((List.range 24).filter o.quadFree).take (ceilDiv loads.length 4)
    if quads.length < ceilDiv loads.length 4 then none
    else
      let cores := quads.flatMap fun q => rangeFrom (4 * q) 4
      (o.choose tenant (recRows r) true true cores loads).map fun (l, o2) =>
        (l, { o2 with cores := o2.cores.mapIdx fun c x => if cores.contains c then { x with alone := true } else x })
  else o.choose tenant (recRows r) (recPreload r ≠ 0) (recPreload r ≠ 0) (List.range 96) loads

/-- Place one gang of a record for a tenant. -/
def DieOcc.place (o : DieOcc) (r : BitVec 1024) (tenant : Nat) : Option (List Nat × DieOcc) := o.placeLoads r tenant (coreLoads (recHarts r))

/-- Free hart contexts of a die. -/
def DieOcc.contexts (o : DieOcc) : Nat := (o.cores.map fun c => if c.alone then 0 else c.free.length).sum

/-- The die with the most free contexts among those where a gang fits, the lower number on ties (R278). (DEDUCED, log 46) -/
def bestDie (os : List (Nat × DieOcc)) (r : BitVec 1024) (tenant : Nat) : Option (Nat × List Nat × DieOcc) :=
  os.foldl (fun best (d, o) =>
    match o.place r tenant with
    | none => best
    | some (hs, o2) =>
      match best with
      | none => some (d, hs, o2)
      | some (bd, bhs, bo) =>
        let room (x : Nat) := (os.find? fun p => p.1 == x).elim 0 fun p => p.2.contexts
        if room d > room bd then some (d, hs, o2) else some (bd, bhs, bo)) none

/-- n gangs fit at once. -/
def gangsFit (r : BitVec 1024) (tenant : Nat) : Nat → List (Nat × DieOcc) → Bool
  | 0, _ => true
  | n + 1, os =>
    match bestDie os r tenant with
    | none => false
    | some (d, _, o2) => gangsFit r tenant n (os.map fun p => if p.1 = d then (d, o2) else p)

/-- The dies bound to a virtual function: a queue of theirs is bound to it. -/
def State.boundDies (s : State) (vf : Nat) : List Nat :=
  (List.range 8).filter fun d => s.disp.queues.any fun q => q.vf == some vf && q.q / 4096 == d

/-- The dies on which a launch may place gangs (R25, R278). -/
def State.launchDies (s : State) (die : Nat) (r : BitVec 1024) : List Nat :=
  (if recSpread r then s.boundDies (recVf r) else [die]).filter s.alive

/-- Gangs that must fit at once before the first is admitted. -/
def gangsAtOnce (r : BitVec 1024) : Nat := if recCo r then recGangs r else 1

/-- The record could be admitted on empty dies (R274). -/
def State.everFits (s : State) (die : Nat) (r : BitVec 1024) : Bool :=
  gangsFit r (s.tenantOf (recVf r)) (gangsAtOnce r) ((s.launchDies die r).map fun d => (d, DieOcc.empty))

/-! ## Acceptance (R270, R273, R274) -/

/-- A virtual function is enabled (R288, R290). -/
def State.vfEnabled (s : State) (vf : Nat) : Bool := (s.host.vfs.toList.getD vf { en := false, root := 0, tkey := 0 }).en

/-- Journal name of a record number: a slot, or a pool record with bit 15 set (R282). -/
def recordName (num : Nat) : Nat := if num < 4096 then 32768 + num else (num - 4096) % 64

/-- The state of a queue; a queue without an entry is unbound and empty. -/
def State.queueOf (s : State) (q : Nat) : Queue :=
  (s.disp.queues.find? fun k => k.q == q).getD
    { q := q, vf := none, field := 0, next := 0, latched := [], busy := [], deficit := 0 }

/-- A dependency as it stands at acceptance (R273). (DEDUCED, log 68) -/
def State.depOf (s : State) (d : Nat) : Dep :=
  match bits d 63 62 with
  | 1 =>
    match s.disp.launches.reverse.find? fun l => l.die == bits d 34 32 && l.num == bits d 18 0 with
    | some l => .launch l.id
    | none => .met
  | 2 => if countReached (s.countOf (bits d 61 32)) (BitVec.ofNat 32 (bits d 31 0)) then .met
         else .count (bits d 61 32) (BitVec.ofNat 32 (bits d 31 0))
  | _ => .met

/-- The dies whose clock a dependency stands for when it is met: that of the named record or page (R273). -/
def State.depDies (s : State) (d : Nat) : List Nat :=
  match s.depOf d, bits d 63 62 with
  | .met, 1 => [bits d 34 32]
  | .met, 2 => [homeOf (bits d 61 32 * 2 ^ 18)]
  | _, _ => []

/-- A dependency names a record of a removed die or a settle count of its memory (R360). -/
def State.depLost (s : State) (d : Nat) : Bool :=
  match bits d 63 62 with
  | 1 => !s.alive (bits d 34 32)
  | 2 => !s.alive (homeOf (bits d 61 32 * 2 ^ 18))
  | _ => false

namespace M

variable {s0 : State}

/-- Change a queue. -/
def modQueue (q : Nat) (f : Queue → Queue) : M s0 PUnit := do
  let x := f ((← st).queueOf q)
  modDisp fun d => { d with queues := (d.queues.filter fun k => k.q ≠ q) ++ [x] }

/-- Change a launch. -/
def modLaunch (id : Nat) (f : Launch → Launch) : M s0 PUnit :=
  modDisp fun d => { d with launches := d.launches.map fun l => if l.id = id then f l else l }

end M

/-! ## Charges (R275, R276, R281) -/

/-- A launch with a gang that may be admitted now. (DEDUCED, log 48) -/
def State.ready (s : State) (l : Launch) : Bool :=
  !l.stopped && !l.journaled && decide (l.admitted < recGangs l.record) && l.deps.all (· == .met)
    && s.vfEnabled (recVf l.record) && s.alive l.die

/-- The record of a launch stands at the front of its queue among the ready records of its priority. -/
def State.isFront (s : State) (l : Launch) : Bool :=
  s.ready l && ((s.disp.launches.find? fun k => k.q == l.q && recPriority k.record == recPriority l.record && s.ready k).any fun k => k.id == l.id)

/-- Cycles for which a gang has been admitted (R281). -/
def State.charged (s : State) (g : Gang) : Nat := g.charge + (if g.onCores then s.cycle.toNat - g.cycleAt else 0)

/-- Count the time that admitted gangs have run: to their charge, to the deficit of their queue and to the wait of the front records of the
other queues of the priority (R275, R276, R281). (DEDUCED, log 50) -/
def M.chargeQueues {s0 : State} : M s0 PUnit := do
  let s ← M.st
  let now := s.time.toNat
  M.each (s.disp.gangs.filter Gang.onCores) fun g =>
    match s.launchOf g with
    | none => pure ⟨⟩
    | some l => do
      let dt := now - g.since
      let waits (k : Launch) : Bool := k.q ≠ l.q && k.die == l.die && recPriority k.record == recPriority l.record && s.isFront k
      M.modQueue l.q fun x => { x with deficit := x.deficit - dt }
      M.modDisp fun d => { d with launches := d.launches.map fun k => if waits k then { k with waited := k.waited + dt } else k }
      M.modGang g.die g.gid fun x => { x with since := now, cycleAt := s.cycle.toNat, charge := s.charged g }
      -- the occupancy of R256
      M.modPlace fun p => { p with occ := aput p.occ g.die ((aget p.occ g.die).getD 0 + dt * g.harts.length) }

/-- A queue holds a ready record until the record's launch has retired (R275, R283). -/
def State.holdsReady (s : State) (q : Nat) : Bool := s.disp.launches.any fun l => l.q == q && l.deps.all (· == .met) && !l.journaled

/-- The deficit of a queue that holds no ready record is 0 (R275). -/
def M.settleDeficits {s0 : State} : M s0 PUnit := do
  let s ← M.st
  M.modDisp fun d => { d with queues := d.queues.map fun x => if s.holdsReady x.q then x else { x with deficit := 0 } }

namespace M

variable {s0 : State}

/-- A pool record returns to unarmed, or a slot becomes free with its byte 127 at 0 (R271, R274). -/
def freeRecord (die num : Nat) : M s0 PUnit := do
  if num < 4096 then
    modDisp fun d => { d with pool := d.pool.map fun p =>
      if p.1 = die * 4096 + num then (p.1, { p.2 with armed := false }) else p }
  else do
    let q := 4096 * die + (num - 4096) / 64
    let k := (num - 4096) % 64
    modQueue q fun x => { x with busy := x.busy.filter (· ≠ k) }
    modDisp fun d => { d with slots := d.slots.map fun p =>
      if p.1 = q * 64 + k then (p.1, p.2 &&& BitVec.ofNat 1024 (2 ^ 1016 - 1)) else p }

/-- A launch is admitted, or never will be: its slot becomes free; a pool record stays armed until the launch retires (R108, R271). (DEDUCED, log 69) -/
def freeSlot (die num : Nat) : M s0 PUnit := if num < 4096 then pure ⟨⟩ else freeRecord die num

/-- A launch takes a clock: what it stands for happens-before the first instruction of every hart of the launch (R108, R273). -/
def learnLaunch (id : Nat) (c : Clock) : M s0 PUnit := modLaunch id fun l => { l with clk := clkMerge l.clk c }

/-- The dispatcher accepts a record of a queue, or finds it malformed (R271, R274, R288). clk is what the arming hart has learned (R108). -/
def acceptRecord (die num q : Nat) (r : BitVec 1024) (clk : Clock) : M s0 PUnit := do
  chargeQueues
  let s ← st
  let vf := ((s.queueOf q).vf).getD 64
  let status := if !s.vfEnabled vf then 2 else if !recordOk r vf then 1 else if !s.everFits die r then 2 else 0
  -- a record whose dependency names a removed die retires without running, with status 0x0010 (R360)
  let lost := (List.range 4).any fun k => s.depLost (recDep r k)
  if status ≠ 0 then freeRecord die num
  else if lost then freeSlot die num
  if status = 0 then
    modDisp fun d => { d with nextId := d.nextId + 1, launches := d.launches ++ [{
      id := d.nextId, die := die, num := num, q := q, record := r,
      deps := (List.range 4).map fun k => s.depOf (recDep r k),
      clk := ((List.range 4).flatMap fun k => s.depDies (recDep r k)).foldl (fun c d => clkMerge c (s.die d).clock)
        (clkMerge clk (s.die die).clock),
      admitted := 0, retired := 0, stopped := lost, cycles := 0, status := if lost then 0x10 else 0, journaled := false, waited := 0 }] }
  journal 0x0001 die (vf % 256) q (recordName num) status (recGangs r)
  if status = 0 then push (if lost then .launchRetire else .gangAdmit die)

end M

end Sys2Proof.Machine
end

