-- ==== Sys2Proof/Machine/LaunchScalar.lean ====
section
/-!
DEFINITION. Device launches: `lpatch` and `larm` (R107, R108).
-/

namespace Sys2Proof.Machine

/-- The first byte, the width in bytes and the limit of a patchable field (R107). -/
def patchField (k v : Nat) : Option (Nat × Nat × Bool) :=
  match k with
  | 0 => some (8, 8, true)
  | 1 => some (16, 8, v % 8 == 0)
  | 2 => some (24, 8, true)
  | 3 => some (32, 2, 1 ≤ v && v ≤ 65535)
  | 4 => some (36, 1, v ≤ 7)
  | 5 => some (40, 8, v ≠ 0)
  | 6 => some (48, 8, true)
  | 7 => some (56, 8, true)
  | 8 => some (64, 4, v ≤ 262144)
  | 9 => some (68, 8, depOk v)
  | 10 => some (76, 8, depOk v)
  | 11 => some (84, 8, depOk v)
  | 12 => some (92, 8, depOk v)
  | _ => none

/-- A record with w bytes at a place replaced. -/
def putRecordField (r : BitVec 1024) (at_ w v : Nat) : BitVec 1024 :=
  (r &&& ~~~(BitVec.ofNat 1024 (2 ^ (8 * w) - 1) <<< (8 * at_))) ||| (BitVec.ofNat 1024 (v % 2 ^ (8 * w)) <<< (8 * at_))

/-- A record of a die's pool; a record without an entry is all zero. (DEDUCED, log 36) -/
def State.poolOf (s : State) (d n : Nat) : PoolRec :=
  (aget s.disp.pool (d * 4096 + n)).getD { record := 0, armed := false }

/-- The trap value of `lpatch` and `larm`. -/
def launchTval (a b : Word) : Word := (a <<< 16) ||| (b &&& 0xFFFF)

/-- `lpatch` (R107): writes one field of a pool record of the hart's die. It is a scalar memory instruction (R216), which `ord.vs` holds. -/
def execLpatch (d a b : Reg) (s : State) : Host.Outcome State Fault Refusal :=
  exec1 s (do
    M.needVs
    let rec_ ← M.rd a
    let fld ← M.rd b
    let v ← M.rd d
    let h ← M.hart
    let tv := launchTval rec_ fld
    if rec_.toNat ≥ 4096 then M.trap 0x05 tv
    match patchField fld.toNat v.toNat with
    | none => M.trap 0x05 tv
    | some (at_, w, ok) => do
      if !ok then M.trap 0x05 tv
      let p := (← M.st).poolOf h.id.did rec_.toNat
      if p.armed then M.trap 0x05 tv
      if recVf p.record ≠ h.id.vf then M.trap 0x06 tv
      let p' := { p with record := putRecordField p.record at_ w v.toNat }
      M.modDisp fun x => { x with pool := aput x.pool (h.id.did * 4096 + rec_.toNat) p' }
      M.advance)

/-- Records that hold a place of a queue: busy slots and armed pool records that wait for their first gang (R108, R269). -/
def State.queueLoad (s : State) (q : Nat) : Nat :=
  (s.disp.launches.filter fun l => l.q == q && l.admitted == 0 && !l.stopped).length

/-- `larm` (R108): completes as `vwait`, checks, waits for a place in the queue, then the record is armed and accepted. -/
def execLarm (a b : Reg) (s : State) : Host.Outcome State Fault Refusal :=
  exec1 s (do
    M.needVwait
    let rec_ ← M.rd a
    let q ← M.rd b
    let h ← M.hart
    let tv := launchTval rec_ q
    if rec_.toNat ≥ 4096 || q.toNat ≥ 32768 then M.trap 0x05 tv
    let queue := (← M.st).queueOf q.toNat
    if q.toNat / 4096 ≠ h.id.did || queue.vf.isNone then M.trap 0x05 tv
    let p := (← M.st).poolOf h.id.did rec_.toNat
    if p.armed then M.trap 0x05 tv
    if recVf p.record ≠ h.id.vf || queue.vf ≠ some h.id.vf then M.trap 0x06 tv
    if (← M.st).queueLoad q.toNat ≥ 64 then M.stall
    M.modDisp fun x => { x with pool := aput x.pool (h.id.did * 4096 + rec_.toNat) { p with armed := true } }
    -- what the hart did happens-before the launch: the die's clock takes the hart's (R108)
    M.modDie h.id.did fun f => { f with clock := clkMerge f.clock h.sr.vclk }
    M.acceptRecord h.id.did rec_.toNat q.toNat p.record h.sr.vclk
    M.advance)

end Sys2Proof.Machine
end

