-- ==== Sys2Proof/Machine/System.lean ====
section
/-!
DEFINITION. System instructions: state registers (R50, R51, R110), `trap`, `tret`, `idle`, `yield`, `syncins`, `halt`
(R109 to R114, R301 to R315).
-/

namespace Sys2Proof.Machine

/-! ## State registers (R50) -/

/-- Access of a state register: readable by the user, writable by the user, writable by the supervisor. None where the number
is unassigned. -/
def srAccess (n : Nat) : Option (Bool × Bool × Bool) :=
  if n ≤ 0x004 then some (true, false, false)
  else if 0x010 ≤ n && n ≤ 0x015 then some (true, true, true)
  else if n = 0x016 || n = 0x020 || n = 0x021 then some (true, false, true)
  else if n = 0x030 || n = 0x031 then some (true, true, true)
  else if 0x040 ≤ n && n ≤ 0x047 then some (false, false, true)
  else if n = 0x050 then some (true, false, false)
  else if 0x051 ≤ n && n ≤ 0x058 then some (true, false, true)
  else if n = 0x060 then some (true, true, true)
  else if n = 0x070 || n = 0x071 || n = 0x080 || n = 0x081 then some (true, false, false)
  else none

/-- The registers whose accesses are ordered with the vector queue (R19). -/
def srQueued (n : Nat) : Bool := (0x010 ≤ n && n ≤ 0x015) || n = 0x030 || n = 0x031

/-- `status` as a word (R301). -/
def Status.word (t : Status) : Word :=
  let b (p : Bool) (i : Nat) : Nat := if p then 2 ^ i else 0
  BitVec.ofNat 64 (b t.sv 0 + b t.psv 1 + b t.vs 2 + b t.blk 3 + b t.spl 4 + b t.xf 5 + b t.walk 6)

/-- A word as `status`. -/
def Status.ofWord (w : Word) : Status :=
  { sv := w.getLsbD 0, psv := w.getLsbD 1, vs := w.getLsbD 2, blk := w.getLsbD 3, spl := w.getLsbD 4, xf := w.getLsbD 5,
    walk := w.getLsbD 6 }

/-- The value of a state register of the hart in focus (R50). -/
def State.srRead (s : State) (n : Nat) : Word :=
  let h := s.hart
  let r := h.sr
  let num (k : Nat) : Word := BitVec.ofNat 64 k
  match n with
  | 0x000 => num h.id.hid
  | 0x001 => num h.id.did
  | 0x002 => num h.id.gid
  | 0x003 => num h.id.gsize
  | 0x004 => num h.id.gidx
  | 0x010 => r.vl
  | 0x011 => num r.vgrp.n
  | 0x012 => num r.sew.bits
  | 0x013 => r.sb
  | 0x014 => r.estart
  | 0x015 => r.xstop
  | 0x016 => r.vown
  | 0x020 => r.mgrant
  | 0x021 => num (if r.mmode then 1 else 0)
  | 0x030 => r.seed
  | 0x031 => r.stag.setWidth 64
  | 0x040 => r.cause.setWidth 64
  | 0x041 => r.epc
  | 0x042 => r.tval
  | 0x043 => r.status.word
  | 0x044 => r.tvec
  | 0x045 => r.kexit
  | 0x046 => r.savep
  | 0x047 => r.saveidx.setWidth 64
  | 0x050 => ((s.place.tables.toList.getD h.id.did .reset).version).setWidth 64
  | 0x060 => num (if r.nbdet then 1 else 0)
  | 0x070 => num h.id.tenant
  | 0x071 => num h.id.vf
  | 0x080 => s.cycle
  | 0x081 => s.time
  | _ => (clkAt r.vclk (n - 0x051)).setWidth 64

/-- A write of a register that is not ordered with the queue and has no action of its own (R50, R301, R311). (DEDUCED, log 31) (DEDUCED, log 32) -/
def SRegs.write (r : SRegs) (n : Nat) (v : Word) : SRegs :=
  match n with
  | 0x020 => { r with mgrant := BitVec.ofNat 64 (min (v.toNat % 512) 256 / 32 * 32) }
  | 0x021 => { r with mmode := v.getLsbD 0 }
  | 0x040 => { r with cause := v.setWidth 8 }
  | 0x041 => { r with epc := v }
  | 0x042 => { r with tval := v }
  | 0x043 => { r with status := { r.status with psv := v.getLsbD 1, vs := v.getLsbD 2 } }
  | 0x044 => { r with tvec := v }
  | 0x045 => { r with kexit := v }
  | 0x047 => if r.status.walk then r else { r with saveidx := v.setWidth 19 }
  | 0x060 => { r with nbdet := v.getLsbD 0 }
  | _ => { r with vclk := clkPut r.vclk (n - 0x051) (v.setWidth 16) }

/-- A queued write at its position (R19, R51): `vl` is cut to vlmax; the values of `vgrp` and `sew` were checked. -/
def SRegs.writeQueued (r : SRegs) (cap n : Nat) (v : Word) : SRegs :=
  match n with
  | 0x010 => { r with vl := BitVec.ofNat 64 (min v.toNat (vlmax r.sew r.vgrp cap)) }
  | 0x011 => { r with vgrp := (grpOfNat v.toNat).getD r.vgrp }
  | 0x012 => { r with sew := (sewOfNat v.toNat).getD r.sew }
  | 0x013 => { r with sb := v }
  | 0x014 => { r with estart := v }
  | 0x015 => { r with xstop := v }
  | 0x030 => { r with seed := v }
  | _ => { r with stag := v.setWidth 16 }

/-- The checks of an access to a state register (R51, R320): unassigned, then privilege, then the value of `vgrp` or `sew`. -/
def srCheck {s0 : State} (n : Nat) (write : Bool) (v : Word) (word : Word) : M s0 PUnit := do
  match srAccess n with
  | none => M.trap 0x01 word
  | some (ur, uw, _) => do
    if !(← M.hart).sup && (!ur || (write && !uw)) then M.trap 0x05 word
    if write && ((n = 0x011 && (grpOfNat v.toNat).isNone) || (n = 0x012 && (sewOfNat v.toNat).isNone)) then
      M.trap 0x01 word

/-- A read waits until every earlier queue entry has completed (R19). -/
def srWait {s0 : State} (n : Nat) : M s0 PUnit := do
  let h ← M.hart
  if srQueued n && !(h.queue.isEmpty && h.ctx.isNone) then M.stall

/-- A write of `savep` (R310). -/
def writeSavep {s0 : State} (v : Word) : M s0 PUnit := do
  M.needVwait
  let t := (← M.hart).sr.status
  if t.blk || t.walk then M.trap 0x05 v
  if !(← M.areaOk v) then M.trap 0x05 v
  M.modSr fun r => { r with savep := v }

/-- The effect of a write that has passed its checks; the program counter goes on. -/
def srWrite {s0 : State} (n : Nat) (v : Word) (word : BitVec 32) : M s0 PUnit := do
  match srAccess n with
  | none => M.advance
  | some (_, _, w) =>
    if !w then M.advance
    else if srQueued n then enqueue (.write n v) word
    else if n = 0x016 then do
      M.vectorWalk v
      M.advance
    else if n = 0x046 then do
      writeSavep v
      M.advance
    else do
      M.modSr fun r => r.write n v
      M.advance

/-- `getsr` (R110). -/
def execGetsr (d : Reg) (n : BitVec 12) (s : State) : Host.Outcome State Fault Refusal :=
  exec1 s (do
    srCheck n.toNat false 0 (tvalOf (.getsr d n))
    srWait n.toNat
    M.setReg d ((← M.st).srRead n.toNat)
    M.advance)

/-- `setsr` of a register other than `vown` and `savep` (R110). -/
def execSetsr (a : Reg) (n : BitVec 12) (s : State) : Host.Outcome State Fault Refusal :=
  exec1 s (do
    let v ← M.rd a
    srCheck n.toNat true v (tvalOf (.setsr a n))
    srWrite n.toNat v (scalarWord (.setsr a n)))

/-- `setsr vown` (R315): the vector walk. -/
def execSetsrVown (a : Reg) (s : State) : Host.Outcome State Fault Refusal :=
  exec1 s (do
    let v ← M.rd a
    srCheck 0x016 true v (tvalOf (.setsrVown a))
    M.vectorWalk v
    M.advance)

/-- `setsr savep` (R310). -/
def execSetsrSavep (a : Reg) (s : State) : Host.Outcome State Fault Refusal :=
  exec1 s (do
    let v ← M.rd a
    srCheck 0x046 true v (tvalOf (.setsrSavep a))
    writeSavep v
    M.advance)

/-- `swapsr` (R110): the old value into d and the new one into the register, as one step. -/
def execSwapsr (d a : Reg) (n : BitVec 12) (s : State) : Host.Outcome State Fault Refusal :=
  exec1 s (do
    let v ← M.rd a
    srCheck n.toNat true v (tvalOf (.swapsr d a n))
    srWait n.toNat
    let old := (← M.st).srRead n.toNat
    srWrite n.toNat v (scalarWord (.swapsr d a n))
    M.setReg d old)

/-! ## Traps and returns (R109, R309) -/

/-- `trap` (R109). -/
def execTrap (code : BitVec 12) (s : State) : Host.Outcome State Fault Refusal :=
  exec1 s (M.trap 0x40 (code.setWidth 64))

/-- An entry that a handler queued since the trap entry is queued or running (R309). -/
def Hart.unmarked (h : Hart) : Bool :=
  h.queue.any (fun e => !e.mark) || (match h.ctx with | some c => !c.entry.mark | none => false)

/-- `tret` (R309). -/
def execTret (s : State) : Host.Outcome State Fault Refusal :=
  exec1 s (do
    let h ← M.hart
    if !h.sup then M.trap 0x05 (tvalOf .tret)
    if h.unmarked || (h.held.isSome && h.ctx.isSome) then M.stall
    M.returnFromTrap)

/-! ## Waiting and ending (R111 to R114) -/

/-- `idle` (R111): returns at once when the watched line has been written since its load. -/
def execIdle (s : State) : Host.Outcome State Fault Refusal :=
  exec1 s (do
    let h ← M.hart
    if h.watch.isSome && h.watchHit then M.advance
    else do
      let t := (← M.st).time.toNat
      M.modHart fun h => { h with wait := .idle, idleAt := t })

/-- `yield` (R112): no architectural effect. -/
def execYield (s : State) : Host.Outcome State Fault Refusal := exec1 s M.advance

/-- `syncins` (R113): waits for an empty queue and discards every buffered instruction word, those of a held block among them. -/
def execSyncins (s : State) : Host.Outcome State Fault Refusal :=
  exec1 s (do
    let h ← M.hart
    if !(h.queue.isEmpty && h.ctx.isNone) then M.stall
    let drop (c : Option LoopCtx) : Option LoopCtx := c.map fun c => { c with words := [] }
    M.modHart fun h => { h with
      ibuf := [], held := h.held.map fun k => { k with ctx := drop k.ctx }, aside := h.aside.map fun k => { k with ctx := drop k.ctx } }
    M.advance)

/-- `halt` (R114): waits for the vector stream and the transfers, then retires the hart. -/
def execHalt (s : State) : Host.Outcome State Fault Refusal :=
  exec1 s (do
    if !(← M.hart).vectorDone then M.stall
    M.retireHart)

end Sys2Proof.Machine
end

