-- ==== Sys2Proof/Machine/Walk.lean ====
section
/-!
DEFINITION. The context walks of pre-emption and resumption (R29, R31, R312, R313, R316): a hart's records 0 to 4,095 as they are
written to its save area, and how they are read back.
-/

namespace Sys2Proof.Machine

/-! ## Records as words -/

/-- A record of up to eight words; missing words are zero. -/
def recordOf (ws : List Nat) : List Byte := (List.range 8).flatMap fun i => toBytes 8 (ws.getD i 0)

/-- The eight words of a record. -/
def wordsOf (bs : List Byte) : List Nat := (List.range 8).map fun i => ofBytes ((bs.drop (8 * i)).take 8)

/-- Words over consecutive records from r. -/
def recordsFrom (r : Nat) (ws : List Nat) : List (Nat × List Byte) :=
  (List.range (ceilDiv ws.length 8)).map fun i => (r + i, recordOf ((ws.drop (8 * i)).take 8))

/-- 512-bit pieces of a value over n consecutive records from r. -/
def piecesFrom (r n v : Nat) : List (Nat × List Byte) := (List.range n).map fun i => (r + i, toBytes 64 (v / 2 ^ (512 * i)))

/-- The bitmap of a snapshot: s1 to s31 are held. -/
def snapBitmap : Nat := 0xFFFFFFFE

/-- A bit of a flag word. -/
def flagBit (p : Bool) (i : Nat) : Nat := if p then 2 ^ i else 0

/-! ## What a context walk writes (R312) -/

/-- The words of record 10 or 25 for a loop context: address of the next word, k, G, b0, s_n, flags, barrier, bitmap. Flag bit 3 is the
mark of R303, bit 4 says that the block precedes the last `ord.vs`. (DEDUCED, log 52) -/
def ctxWords (c : Option LoopCtx) (blk : Bool) (barrier vsBound : Nat) : List Nat :=
  match c with
  | none => [0, 0, 0, 0, 0, flagBit blk 2, barrier, 0]
  | some c =>
    let flags := flagBit c.threads.isSome 0 + flagBit c.stop.isSome 1 + flagBit blk 2 + flagBit c.entry.mark 3
      + flagBit (c.entry.seq < vsBound) 4 + flagBit c.entry.sup 5 + c.stop.getD 0 * 2 ^ 16
    [(c.addr c.at).toNat, c.k, c.g.toNat, c.b0.toNat, c.n.toNat, flags, barrier, snapBitmap]

/-- A snapshot as words. -/
def snapWords (v : Vector Word 32) : List Nat := v.toList.map (·.toNat)

/-- The words of the first record of a queue entry: target or value, kind, count or number, bitmap, and the scalar word with its flags.
The kinds are 0 `vfb`, 1 `vloop`, 2 `vsetl`, 3 `mxon`, 4 `mxoff`, 5 a state write. -/
def entryWords (h : Hart) (e : QEntry) : List Nat :=
  let flags := flagBit e.sup 0 + flagBit e.mark 1 + flagBit (e.seq < h.vsBound) 2
    + flagBit (match h.svBound with | some b => decide (b ≤ e.seq) | none => false) 3
  let (t, k, n) : Nat × Nat × Nat := match e.kind with
    | .block t none => (t.toNat, 0, 0)
    | .block t (some n) => (t.toNat, 1, n.toNat)
    | .setl vl sew grp => (vl.toNat, 2, sew.bits + 256 * grp.n)
    | .mxon => (0, 3, 0)
    | .mxoff => (0, 4, 0)
    | .write num v => (v.toNat, 5, num)
  [t, k, n, snapBitmap, e.pc.toNat, e.word.toNat, flags, 0]

/-- The lane counter of an element: word index, live, at `vjoin`. -/
def laneCounter (ts : List Thread) (e : Nat) : Nat :=
  match ts.find? fun t => t.e == e with
  | none => 0
  | some t => t.idx % 256 + 256 + flagBit t.joined 9

/-- The records of the lane counters of a block, from r. -/
def laneRecords (r : Nat) (c : Option LoopCtx) : List (Nat × List Byte) :=
  match c.bind (·.threads) with
  | none => []
  | some (_, ts) => (List.range 256).map fun j => (r + j, (rangeFrom (32 * j) 32).flatMap fun e => toBytes 2 (laneCounter ts e))

/-- The loop context of the held block. -/
def Hart.heldCtx (h : Hart) : Option LoopCtx := h.held.bind (·.ctx)

/-- Entries behind the held block. -/
def Hart.heldBehind (h : Hart) : List QEntry :=
  match h.held with
  | some k => k.behind
  | none => []

/-- The queue image: the handler's entries, then those behind the held block. -/
def Hart.queueImage (h : Hart) : List QEntry := h.queue ++ h.heldBehind

/-- Every record that a context walk of a hart writes, in ascending order (R312). -/
def Hart.contextRecords (h : Hart) (barrier : Nat) : List (Nat × List Byte) :=
  let r := h.sr
  let w (x : Word) : Nat := x.toNat
  let blk := h.held.isSome
  let resume := match h.held with
    | some k => w k.resume
    | none => 0
  let saved := h.tile.svl.toNat % 65536 + h.tile.sgrp.n * 65536 + h.tile.ssew.bits * 2 ^ 24
  [(0, recordOf [w r.status.word, r.cause.toNat, w r.epc, w r.tval, w r.tvec, w r.kexit, r.saveidx.toNat, w r.vown])]
    ++ recordsFrom 1 (w h.pc :: (h.x.toList.drop 1).map (·.toNat))
    ++ [(5, recordOf [w r.vl, r.vgrp.n, r.sew.bits, w r.sb, w r.estart, w r.xstop, w r.seed, r.stag.toNat])]
    ++ [(6, recordOf (r.vclk.toList.map (·.toNat)))]
    ++ [(7, recordOf [w r.mgrant, flagBit r.mmode 0, flagBit r.nbdet 0, saved, resume, w r.savep])]
    ++ recordsFrom 8 (h.streams.toList.map (fun s => w s.avail) ++ h.streams.toList.map fun s => w s.fin)
    ++ [(10, recordOf (ctxWords h.ctx blk (if h.id.gidx = 0 then barrier else 0) h.vsBound))]
    ++ (match h.ctx with | some c => recordsFrom 11 (snapWords c.entry.snap) | none => [])
    ++ (match h.heldCtx with | some c => recordsFrom 15 (snapWords c.entry.snap) | none => [])
    ++ (if r.mgrant = 0 then [] else piecesFrom 19 4 h.tile.sr.toNat ++ piecesFrom 23 2 h.tile.sc.toNat)
    ++ (if blk then [(25, recordOf (ctxWords h.heldCtx blk 0 h.vsBound)), (26, recordOf [h.heldBehind.length])] else [])
    ++ [(31, recordOf [h.queueImage.length])]
    ++ (h.queueImage.zipIdx.flatMap fun (e, i) =>
        (32 + 5 * i, recordOf (entryWords h e)) :: recordsFrom (33 + 5 * i) (snapWords e.snap))
    ++ (if r.mgrant = 0 then [] else
        (List.range r.mgrant.toNat).flatMap fun i => piecesFrom (1024 + 8 * i) 8 ((h.tile.z.toList.getD i 0).toNat))
    ++ laneRecords 3072 h.ctx ++ laneRecords 3328 h.heldCtx

/-! ## The save walk -/

/-- The hart is saved by a context walk: it has an area, and no trap of a set-aside block is pending, for which the area has no
record (R303, R312). (DEDUCED, log 51) -/
def Hart.walks (h : Hart) : Bool := h.sr.savep ≠ 0 && h.aside.isNone

/-- The scalar stream of a hart ends its wait for a pre-emption: `idle` returns, `swait` and `gbar` start again (R106, R111, R196). -/
def endWait (h : Hart) : Hart :=
  match h.wait with
  | .idle => { h with wait := .none, pc := h.pc + 4 }
  | .swait _ _ => { h with wait := .none }
  | .barrier => { h with wait := .none }
  | _ => h

/-- A slot whose context has been saved: the vector state stays and stays owned (R30). -/
def Hart.vacated (h : Hart) : Hart :=
  { Hart.free h.id.did h.id.hid with
    id := h.id, phase := .halted, vec := h.vec, sr := { SRegs.reset with vown := h.sr.vown } }

namespace M

variable {s0 : State}

/-- Run a part of a step that may have to wait for the fabric; where it does, the event is taken up again behind what it waits for. -/
def orAgain (again : Instr) (m : M s0 PUnit) : M s0 PUnit := do
  if ← attempt m then pure ⟨⟩
  else
    push again
    done

/-- Write records in order; the first record whose page fails a check, none when all are written. -/
def writeRecords (area : Word) : List (Nat × List Byte) → M s0 (Option Nat)
  | [] => return none
  | (r, bs) :: l => do
    if ← putRec (recAddr area r) bs then writeRecords area l
    else return some r

/-- The context walk of the hart in focus from record r (R312, R316): true when the hart is saved. A page fault stops it at its record,
with a report. -/
def saveContext (r barrier : Nat) : M s0 Bool := do
  let h ← hart
  let area := h.sr.savep
  match ← writeRecords area ((h.contextRecords barrier).filter fun p => decide (r ≤ p.1)) with
  | some bad => do
    modHart fun h => { h with phase := .saving bad }
    hartReport h 0x0F (recAddr area bad)
    return false
  | none => do
    if h.sr.status.walk then modHart fun h => { h with phase := .parked }
    else emit (.place h.vacated)
    return true

end M

/-! ## Reading a context back (R313) -/

/-- The words of the block around an address and its base: the nearest `vhead` at or before it. Words that cannot be read are missing. -/
def State.blockAround (s : State) (vf : Nat) (a : Word) : Word × List (BitVec 64) :=
  let word (p : Word) : Nat := match s.walk vf p.toNat with
    | .leaf l => s.liveVal (l.pa p.toNat) 8
    | _ => 0
  let back := (firstBelow 256 fun i => word (a - BitVec.ofNat 64 (8 * i)) / 2 ^ 56 == 0xAD).getD 0
  let base := a - BitVec.ofNat 64 (8 * back)
  (base, (s.blockWords vf base).getD [])

/-- A snapshot from words. -/
def snapOf (ws : List Nat) : Vector Word 32 := Vector.ofFn fun i => BitVec.ofNat 64 (ws.getD i.val 0)

/-- The element threads that lane counters describe. -/
def threadsOf (bytes : List Byte) : List Thread :=
  (List.range 8192).filterMap fun e =>
    let v := ofBytes ((bytes.drop (2 * e)).take 2)
    if bitAt v 8 then some { e := e, idx := v % 256, joined := bitAt v 9 } else none

/-- A loop context from its words, its snapshot and its lane counters: none when no block is recorded. (DEDUCED, log 53) -/
def State.ctxOf (s : State) (vf : Nat) (ws snap : List Nat) (lanes : List Byte) : Option LoopCtx :=
  let a : Word := BitVec.ofNat 64 (ws.getD 0 0)
  if a = 0 then none else
  let (base, words) := s.blockAround vf a
  let idx := (a - base).toNat / 8
  let n : Word := BitVec.ofNat 64 (ws.getD 4 0)
  let flags := ws.getD 5 0
  let xf := bitAt flags 1
  let ahead := (words.drop idx).any fun w => w.extractLsb' 56 8 == 0xA1#8
  let entry : QEntry :=
    { kind := .block base (if n = 0 then none else some n), snap := snapOf snap, seq := 0, mark := bitAt flags 3,
      sup := bitAt flags 5, pc := 0, word := 0 }
  -- the words are fetched again, and checked against the owner of the vector state, before the block goes on (R30, R113)
  some { LoopCtx.start entry base [] idx (BitVec.ofNat 64 (ws.getD 2 0)) (BitVec.ofNat 64 (ws.getD 3 0)) n with
    k := ws.getD 1 0, stop := if xf then some (flags / 2 ^ 16 % 2 ^ 16) else none, fired := xf && !ahead, resolved := xf,
    threads := if bitAt flags 0 then some (idx, threadsOf lanes) else none }

/-- A queue entry from its words and snapshot. -/
def entryOf (ws snap : List Nat) (seq : Nat) : QEntry :=
  let v : Word := BitVec.ofNat 64 (ws.getD 0 0)
  let n := ws.getD 2 0
  { kind := match ws.getD 1 0 with
      | 0 => .block v none
      | 1 => .block v (some (BitVec.ofNat 64 n))
      | 2 => .setl v ((sewOfNat (n % 256)).getD .w64) ((grpOfNat (n / 256)).getD .g1)
      | 3 => .mxon
      | 4 => .mxoff
      | _ => .write n v,
    snap := snapOf snap, seq := seq, mark := bitAt (ws.getD 6 0) 1, sup := bitAt (ws.getD 6 0) 0,
    pc := BitVec.ofNat 64 (ws.getD 4 0), word := BitVec.ofNat 32 (ws.getD 5 0) }

namespace M

variable {s0 : State}

/-- Read one record of a context: a page fault ends the walk here, an uncorrectable error loses the context (R316). -/
def readRecord (area : Word) (r : Nat) : M s0 (List Byte) := do
  match ← getRec (recAddr area r) with
  | .data bs => return bs
  | .fault => done
  | .poison => do
    loseContext (recAddr area r)
    done

/-- The words of n consecutive records. -/
def readWords (area : Word) (r n : Nat) : M s0 (List Nat) := do
  return (← collect (rangeFrom r n) (readRecord area)).flatMap wordsOf

/-- The lane counters of a block, where its flags record a region. -/
def readLanes (area : Word) (ws : List Nat) (r : Nat) : M s0 (List Byte) := do
  if bitAt (ws.getD 5 0) 0 && ws.getD 0 0 ≠ 0 then return (← collect (rangeFrom r 256) (readRecord area)).flatMap id
  else return []

/-- The loop context that a record describes. -/
def readCtx (area : Word) (r snap lanes : Nat) : M s0 (Option LoopCtx × List Nat) := do
  let ws ← readWords area r 1
  let sn ← if ws.getD 0 0 = 0 then pure [] else readWords area snap 4
  let ls ← readLanes area ws lanes
  return ((← st).ctxOf (← hart).id.vf ws sn ls, ws)

/-- A tile from its records. -/
def readTile (area : Word) (rows : Nat) (saved : Nat) : M s0 Tile := do
  let sr ← collect (rangeFrom 19 4) (readRecord area)
  let sc ← collect (rangeFrom 23 2) (readRecord area)
  let zs ← collect (List.range rows) fun i => do
    let bs ← collect (rangeFrom (1024 + 8 * i) 8) (readRecord area)
    return BitVec.ofNat 4096 (ofBytes (bs.flatMap id))
  return { z := Vector.ofFn fun i => zs.getD i.val 0, sr := BitVec.ofNat 2048 (ofBytes (sr.flatMap id)),
           sc := BitVec.ofNat 1024 (ofBytes (sc.flatMap id)), svl := BitVec.ofNat 64 (saved % 65536),
           sgrp := (grpOfNat (saved / 65536 % 256)).getD .g1, ssew := (sewOfNat (saved / 2 ^ 24 % 256)).getD .w64 }

/-- The restore walk of the hart in focus from an area (R313): every register but `vown`, which belongs to the slot (R30). (DEDUCED, log 57) -/
def restoreContext (area : Word) : M s0 PUnit := do
  let h ← hart
  let r0 ← readWords area 0 1
  let xs ← readWords area 1 4
  let r5 ← readWords area 5 1
  let r6 ← readWords area 6 1
  let r7 ← readWords area 7 1
  let av ← readWords area 8 2
  let (ctx, w10) ← readCtx area 10 11 3072
  let w (l : List Nat) (i : Nat) : Word := BitVec.ofNat 64 (l.getD i 0)
  let status := Status.ofWord (w r0 0)
  let (hctx, behindN) ← if status.blk then do
      let (c, _) ← readCtx area 25 15 3328
      let n ← readWords area 26 1
      pure (c, n.getD 0 0)
    else pure (none, 0)
  let mgrant := w r7 0
  let tile ← if mgrant = 0 then pure Tile.reset else readTile area mgrant.toNat (r7.getD 3 0)
  let n := (← readWords area 31 1).getD 0 0
  let es ← collect (List.range (min n 128)) fun i => do
    let a ← readWords area (32 + 5 * i) 1
    let b ← readWords area (33 + 5 * i) 4
    return (entryOf a b (i + 1), a.getD 6 0)
  let queue := (es.map (·.1)).take (es.length - behindN)
  let behind := (es.map (·.1)).drop (es.length - behindN)
  let before := (es.filter fun p => bitAt p.2 2).length
  let sv := es.find? fun p => bitAt p.2 3
  emit (.place { h with
    phase := .run, pc := w xs 0, x := snapOf (0 :: xs.drop 1), tile := tile, queue := queue, ctx := ctx,
    held := if status.blk then some { ctx := hctx, behind := behind, resume := w r7 4 } else none, aside := none,
    streams := Vector.ofFn fun i => { avail := w av i.val, fin := w av (8 + i.val), xfer := none },
    wait := .none, seq := es.length + 1, vsBound := if before ≠ 0 || bitAt (w10.getD 5 0) 4 then before + 1 else 0,
    svBound := sv.map fun p => p.1.seq, svNum := BitVec.ofNat 16 (r6.getD h.id.did 0), watch := none, watchHit := false, idleAt := 0,
    walkStop := none, ibuf := [],
    nbSeq := (((← st).bank.reqs.filter fun q => q.det && q.die == h.id.did && q.hid == h.id.hid).map (·.seq + 1)).foldl max 0,
    availSlots := 0, early := [], vknown := Vector.ofFn fun i => BitVec.ofNat 16 (r6.getD i.val 0),
    sr := { h.sr with
      status := status, cause := BitVec.ofNat 8 (r0.getD 1 0), epc := w r0 2, tval := w r0 3, tvec := w r0 4, kexit := w r0 5,
      saveidx := BitVec.ofNat 19 (r0.getD 6 0), vl := w r5 0, vgrp := (grpOfNat (r5.getD 1 0)).getD .g1,
      sew := (sewOfNat (r5.getD 2 0)).getD .w64, sb := w r5 3, estart := w r5 4, xstop := w r5 5, seed := w r5 6,
      stag := BitVec.ofNat 16 (r5.getD 7 0), vclk := Vector.ofFn fun i => BitVec.ofNat 16 (r6.getD i.val 0), mgrant := mgrant,
      mmode := r7.getD 1 0 % 2 == 1, nbdet := r7.getD 2 0 % 2 == 1, savep := w r7 5 } })

end M

end Sys2Proof.Machine
end

