-- ==== Sys2Proof/Machine/EvDispatch.lean ====
section
/-!
DEFINITION. The events of the dispatchers: launch slots and latches, dependencies, ranking and admission, preloads, budgets, the
retirement of gangs and launches, pre-emption and resumption (R25 to R32, R269 to R281, R312 to R319, R370 to R372, R381, R382).
-/

namespace Sys2Proof.Machine

/-! ## Launch window (R271) -/

/-- Argument block. -/
def recArg (r : BitVec 1024) : Nat := recB r 15 8
/-- Completion flag value. -/
def recFlagV (r : BitVec 1024) : Nat := recB r 31 24
/-- Seed. -/
def recSeed (r : BitVec 1024) : Nat := recB r 55 48

/-- The host reaches the module: the link is up and the module runs (R295, R367). -/
def State.hostServed (s : State) : Bool := s.host.linkUp && s.host.power == .run

/-- The host's writes of launch slots arrive: in Run, and during an entry into Shuttered, where a latch that fires waits for the exit (R295). -/
def State.hostReaches (s : State) : Bool := s.host.linkUp && (s.host.power == .run || s.host.power == .entering)

/-- A function may write a slot of a queue: the PF, 64, or the virtual function to which the queue is bound (R289). -/
def Queue.openTo (x : Queue) (fn : Nat) : Bool := fn == 64 || x.vf == some fn

/-- A slot of a local queue of a die exists. -/
def slotExists (die q k : Nat) : Bool := decide (die < 8) && decide (q < 4096) && decide (k < 64)

/-- A slot takes no bytes: its queue is unbound, or its record has been accepted or waits for its turn (R271). (DEDUCED, log 109) -/
def Queue.locked (x : Queue) (k : Nat) : Bool := x.vf.isNone || x.busy.contains k || x.latched.contains k

/-- Bytes written to a slot; a locked slot discards them. -/
def M.writeSlot {s0 : State} (die q k off : Nat) (bytes : List Byte) : M s0 PUnit := do
  let s ← M.st
  let queue := s.queueOf (4096 * die + q)
  if queue.locked k then pure ⟨⟩
  else
    let key := (4096 * die + q) * 64 + k
    let old := (aget s.disp.slots key).getD 0
    M.modDisp fun d => { d with slots := aput d.slots key (putRecordField old off bytes.length (ofBytes bytes)) }

/-- LAUNCH_SLOT_WRITE: the host writes bytes of a slot other than byte 127 through a function; a write to a queue of another virtual function
is discarded (R271, R289). -/
def execLaunchSlotWrite (p : Through) (q k off : Nat) (bytes : List Byte) (s : State) : Host.Outcome State Fault Refusal :=
  exec1 s (do
    let die := p.at_
    M.need (s.hostReaches && slotExists die q k && decide (off + bytes.length ≤ 127))
    if (s.queueOf (4096 * die + q)).openTo p.fn then M.writeSlot die q k off bytes)

/-- Accept the latched slots of a queue in ascending slot order from the next one (R271); in Run alone (R295). -/
def M.acceptLatched {s0 : State} (q : Nat) : Nat → M s0 PUnit
  | 0 => pure ⟨⟩
  | n + 1 => do
    let queue := (← M.st).queueOf q
    let k := queue.next
    if queue.latched.contains k && (← M.st).host.power == .run then
      M.modQueue q fun x => { x with next := (k + 1) % 64, latched := x.latched.filter (· ≠ k), busy := x.busy ++ [k] }
      let r := (aget (← M.st).disp.slots (q * 64 + k)).getD 0
      M.acceptRecord (q / 4096) (4096 + 64 * (q % 4096) + k) q r ((← M.st).die (q / 4096)).clock
      M.acceptLatched q n
    else pure ⟨⟩

/-- LAUNCH_LATCH: a non-zero byte 127 reaches a free slot: the latch fires, and records are accepted in slot order (R271). Which
non-zero value arrives is open. (DESIGN CHOICE, log 47) -/
def execLaunchLatch (p : Through) (q k : Nat) (s : State) : Host.Outcome State Fault Refusal :=
  exec1 s (do
    let die := p.at_
    M.need (s.hostReaches && slotExists die q k)
    let queue := s.queueOf (4096 * die + q)
    M.need (!(queue.locked k) && queue.openTo p.fn)
    let v := (← M.freeWord).toNat % 256
    M.writeSlot die q k 127 [BitVec.ofNat 8 (if v = 0 then 1 else v)]
    M.modQueue (4096 * die + q) fun x => { x with latched := x.latched ++ [k] }
    M.acceptLatched (4096 * die + q) 64)

/-! ## Dependencies (R273) -/

/-- A dependency is met now: a settle count has reached its target, or the named launch has retired. -/
def State.depMet (s : State) : Dep → Bool
  | .met => true
  | .launch id => !s.disp.launches.any fun l => l.id == id
  | .count f c => countReached (s.countOf f) c

/-- DEPENDENCY_MET: a dependency of the first record that has one newly met is met; what it names happens-before the launch (R273). -/
def execDependencyMet (s : State) : Host.Outcome State Fault Refusal :=
  exec1 s (do
    match s.disp.launches.find? fun l => l.deps.any fun d => d != .met && s.depMet d with
    | none => M.stall
    | some l => do
      M.chargeQueues
      M.each (l.deps.filter fun d => s.depMet d) fun d =>
        match d with
        | .count f _ => do
          let c := ((← M.st).die (homeOf (f * 2 ^ 18))).clock
          M.learnAt l.die c
          M.learnLaunch l.id c
        | _ => pure ⟨⟩
      M.modDisp fun d => { d with launches := d.launches.map fun k =>
        if k.id = l.id then { k with deps := k.deps.map fun x => if s.depMet x then .met else x } else k }
      if (s.disp.launches.filter fun k => k.id ≠ l.id).any fun k => k.deps.any fun d => d != .met && s.depMet d then
        M.push .dependencyMet
      M.push (.gangAdmit l.die))

/-! ## Ranking (R275, R276) -/

/-- One quantum in gang-nanoseconds: 1,024 gang-µs. -/
def quantum : Nat := 1024000

/-- What a die's dispatcher chooses: the launch, and the quanta that each queue of the priority gains first. -/
structure Choice where
  launch : Launch
  quanta : Nat

/-- The oldest launch of each queue, in acceptance order. -/
def queueFronts (ls : List Launch) : List Launch :=
  ls.foldl (fun acc l => if acc.any fun k => k.q == l.q then acc else acc ++ [l]) []

/-- Insert a launch in ascending queue number. -/
def insertByQueue (l : Launch) : List Launch → List Launch
  | [] => [l]
  | k :: ks => if l.q < k.q then l :: k :: ks else k :: insertByQueue l ks

/-- The dies on which a launch may place gangs, as they stand. -/
def State.rooms (s : State) (l : Launch) : List (Nat × DieOcc) := (s.launchDies l.die l.record).map fun d => (d, s.dieOcc d)

/-- Where the next gang of a launch goes: the die and the `hid`s. -/
def State.nextPlace (s : State) (l : Launch) : Option (Nat × List Nat × DieOcc) := bestDie (s.rooms l) l.record (s.tenantOf (recVf l.record))

/-- A die ranks the launches of its own queues, and a spread launch of another die whose next gang goes to it; where that gang fits on no die,
each ranks it (R278). (DEDUCED, log 46) -/
def State.ranksOn (s : State) (die : Nat) (l : Launch) : Bool :=
  if recSpread l.record then
    (s.launchDies l.die l.record).contains die && (match s.nextPlace l with
      | some (d, _, _) => d == die
      | none => true)
  else l.die == die

/-- The highest-ranked launch of a die. -/
def State.choose (s : State) (die : Nat) : Option Choice :=
  let cands := s.disp.launches.filter fun l => s.ready l && s.ranksOn die l
  match cands with
  | [] => none
  | _ =>
    let p := (cands.map fun l => recPriority l.record).foldl max 0
    let fronts := queueFronts (cands.filter fun l => recPriority l.record == p)
    match fronts.find? fun l => decide (l.waited ≥ 8 * quantum) with
    | some l => some { launch := l, quanta := 0 }
    | none =>
      let sorted := fronts.foldl (fun acc l => insertByQueue l acc) []
      let last := (aget s.disp.last (die * 8 + p)).getD 0
      let order := sorted.filter (fun l => decide (l.q > last)) ++ sorted.filter fun l => decide (l.q ≤ last)
      let need (l : Launch) : Nat := ceilDiv (-(s.queueOf l.q).deficit).toNat quantum
      let n := match order.map need with
        | [] => 0
        | a :: as => as.foldl min a
      (order.find? fun l => decide (need l ≤ n)).map fun l => { launch := l, quanta := n }

/-- Cores of a die have become free, or a gang has been placed: gangs that are ready again and records are considered. -/
def M.coresFreed {s0 : State} (die : Nat) : M s0 PUnit := do
  if (← M.st).disp.gangs.any fun g => g.die == die && g.phase == .ready then M.push .gangResume else pure ⟨⟩
  M.push (.gangAdmit die)

/-! ## Preload (R279, R381) -/

/-- The lines of a preload source in the space of a virtual function: the bytes, or the cause and the first failing address. -/
def M.preloadBytes {s0 : State} (die vf : Nat) (again : Instr) : Nat → Nat → M s0 (Except (BitVec 8 × Nat) (List Byte))
  | 0, _ => return .ok []
  | n + 1, va => do
    match ← M.checkAs vf ((← M.st).tenantOf vf) (BitVec.ofNat 64 va) 64 .load with
    | .error c => return .error (c, va)
    | .ok a => do
      M.dieReady die a.leaf.home again
      match ← M.readHome a.pa 64 .engine a.leaf.ww with
      | none => return .error (0x0E, va)
      | some bs =>
        match ← M.preloadBytes die vf again n (va + 64) with
        | .error e => return .error e
        | .ok l => return .ok (bs ++ l)

/-! ## Admission (R28, R277, R314) -/

/-- Another admitted hart is on the core of a slot, or a context that stays in its slot: the scratchpad is theirs (R279, R314). -/
def State.coreShared (s : State) (did hid : Nat) : Bool :=
  s.harts.any fun h => h.id.did == did && h.id.hid / 4 == hid / 4 && h.id.hid ≠ hid && slotTaken h

/-- The state of a hart at its first instruction (R28): its clock is its die's, which has taken what happens-before the launch (R108, R273). -/
def State.entryHart (s : State) (l : Launch) (die gid hid index gidx tenant : Nat) : Hart :=
  let r := l.record
  let w (n : Nat) : Word := BitVec.ofNat 64 n
  let size := recHarts r
  let stack := recStack r + (index * size + gidx + 1) * 65536
  let x (i : Nat) : Word :=
    match i with
    | 1 => w (recArg r)
    | 2 => w index
    | 3 => w (recGangs r)
    | 4 => w gidx
    | 5 => w l.num
    | 30 => w stack
    | _ => 0
  { Hart.free die hid with
    id := { did := die, hid := hid, gid := gid, gsize := size, gidx := gidx, cap := recCap r, tenant := tenant, vf := recVf r,
            rows := recRows r, fused := recFused r },
    phase := .run, pc := w (recEntry r), x := Vector.ofFn fun i => x i.val,
    vknown := (s.die die).clock, sr := { SRegs.reset with seed := w (recSeed r), vclk := (s.die die).clock } }

namespace M

variable {s0 : State}

/-- Zero the scratchpad of a core. -/
def zeroScratch (did hid : Nat) : M s0 PUnit := do
  let k := scratchKey did hid 0 0
  emit (.scratch k (List.replicate 262144 0))
  modImg fun m => { m with spPoison := m.spPoison.filter fun a => !(decide (k ≤ a) && decide (a < k + 262144)) }

/-- The vector state of a slot goes to its owner's area before another context takes the slot (R314); the scratchpad only when no other
hart runs on the core. A record whose page fails is reported and skipped. (DEDUCED, log 55) -/
def saveSlot (did hid : Nat) (again : Instr) : M s0 PUnit := do
  let s ← st
  match s.hartOf (384 * did + hid) with
  | none => pure ⟨⟩
  | some old =>
    let area := old.sr.vown
    if area = 0 then pure ⟨⟩
    else do
      emit (.focus old.key)
      orAgain again (do
        needWindow did 5000
        areaReady area)
      let last := if old.carries && !s.coreShared did hid then 9073 else 4977
      each (rangeFrom 4096 (last - 4096)) fun r => do
        if ← putRec (recAddr area r) ((← st).vecRecord old r) then pure ⟨⟩
        else if r = 4096 then hartReport old 0x0F (recAddr area r) else pure ⟨⟩

/-- Put a new hart into its slot: the slot's state is saved and zeroed (R28, R314). -/
def admitHart (h : Hart) (again : Instr) : M s0 PUnit := do
  saveSlot h.id.did h.id.hid again
  let shared := (← st).coreShared h.id.did h.id.hid
  emit (.place h)
  if h.carries && !shared then zeroScratch h.id.did h.id.hid else pure ⟨⟩

/-- Write the preload into the scratchpad of every core of a gang; bytes beyond it are zero (R279). -/
def writePreload (die : Nat) (hids : List Nat) (bs : List Byte) : M s0 PUnit :=
  each ((hids.map fun h => h / 4 * 4).eraseDups) fun h => do
    zeroScratch die h
    emit (.scratch (scratchKey die h 0 0) bs)

end M

/-- The lowest gang slot of a die that no gang holds. (DESIGN CHOICE, log 49) -/
def State.freeGid (s : State) (die : Nat) : Nat :=
  (firstBelow 384 fun i => !s.disp.gangs.any fun g => g.die == die && g.gid == i).getD 0

/-- A gang that has been made ready again ranks ahead of the records of its priority (R280). -/
def State.rerunAhead (s : State) (die p : Nat) : Bool :=
  s.disp.gangs.any fun g => g.die == die && g.phase == .ready
    && s.disp.launches.any fun l => l.id == g.launch && decide (recPriority l.record ≥ p)

/-- A preload cannot be read: no further gang of the launch is admitted (R381). -/
def M.failPreload {s0 : State} (l : Launch) (c : BitVec 8) (va : Nat) : M s0 PUnit := do
  M.report l.die (recVf l.record) c.toNat (va % 2 ^ 48)
  M.launchStatus l.id c.toNat
  M.modLaunch l.id fun k => { k with stopped := true }
  if l.admitted = 0 then M.freeRecord l.die l.num
  M.push .launchRetire
  M.push (.gangAdmit l.die)

/-- The first gang of a launch is admitted: the slot or record is free again, and the entry is written (R271, R282). -/
def M.firstGang {s0 : State} (l : Launch) (gid : Nat) : M s0 PUnit := do
  M.freeSlot l.die l.num
  M.journal 0x0002 l.die (recVf l.record) l.q (recordName l.num) 0 gid

/-- Admit one gang of a launch on a die, on the chosen hart slots. -/
def M.admitGang {s0 : State} (l : Launch) (die : Nat) (hids : List Nat) (again : Instr) : M s0 PUnit := do
  let r := l.record
  let n := recPreload r
  match ← M.preloadBytes die (recVf r) again (n / 64) (recSource r) with
  | .error (c, va) => M.failPreload l c va
  | .ok bs => do
    -- what happens-before the launch happens-before the first instruction of each of its harts, on whatever die (R108, R273)
    M.learnAt die l.clk
    let s ← M.st
    let gid := s.freeGid die
    let tenant := s.tenantOf (recVf r)
    M.each hids.zipIdx fun (hid, i) => M.admitHart (s.entryHart l die gid hid l.admitted i tenant) again
    if n ≠ 0 then M.writePreload die hids bs
    M.modDisp fun d => { d with
      gangs := d.gangs ++ [{
        die := die, gid := gid, launch := l.id, index := l.admitted, size := recHarts r, phase := .run, barrier := 0, charge := 0,
        hids := hids, harts := hids.map fun h => 384 * die + h, areas := [], halted := 0, reserved := false, since := s.time.toNat,
        cycleAt := s.cycle.toNat, killed := false, stops := [] }],
      launches := d.launches.map fun k => if k.id = l.id then { k with admitted := k.admitted + 1 } else k,
      last := aput d.last (die * 8 + recPriority r) l.q }
    if l.admitted = 0 then M.firstGang l gid
    M.coresFreed die

/-- Admit up to n gangs of a launch, each where it goes. -/
def M.admitGangs {s0 : State} (id : Nat) (again : Instr) : Nat → M s0 PUnit
  | 0 => pure ⟨⟩
  | n + 1 => do
    let s ← M.st
    match s.disp.launches.find? fun l => l.id == id && !l.stopped && decide (l.admitted < recGangs l.record) with
    | none => pure ⟨⟩
    | some l =>
      match s.nextPlace l with
      | none => pure ⟨⟩
      | some (d, hids, _) => do
        M.admitGang l d hids again
        M.admitGangs id again n

/-- GANG_ADMIT: the dispatcher of a die admits one gang of its highest-ranked launch, or every gang of a co-resident one at once; while that
gang does not fit, none of a lower-ranked launch is admitted (R25, R275 to R279). -/
def execGangAdmit (die : Nat) (s : State) : Host.Outcome State Fault Refusal :=
  exec1 s (do
    M.need (s.host.power == .run)
    M.chargeQueues
    M.settleDeficits
    let s ← M.st
    match s.choose die with
    | none => M.stall
    | some c => do
      let l := c.launch
      let r := l.record
      let p := recPriority r
      let ready := s.disp.launches.filter fun k => recPriority k.record == p && s.ready k && s.ranksOn die k
      M.each (ready.map (·.q)).eraseDups fun q => M.modQueue q fun x => { x with deficit := x.deficit + c.quanta * quantum }
      M.need !(s.rerunAhead die p)
      M.need (l.admitted ≠ 0 || gangsFit r (s.tenantOf (recVf r)) (gangsAtOnce r) (s.rooms l))
      M.need ((s.nextPlace l).any fun p => p.1 == die)
      M.whole (M.admitGangs l.id (.gangAdmit die) (gangsAtOnce r)))

/-- PRELOAD_STAGE: the dispatcher stages the preload and the first program lines of the next-ranked record; nothing of it is visible (R280). -/
def execPreloadStage (die : Nat) (s : State) : Host.Outcome State Fault Refusal :=
  exec1 s (do
    match s.choose die with
    | none => M.stall
    | some c => M.modDisp fun d => { d with staged := aput d.staged die c.launch.id })

/-! ## Budgets, kills, traps (R281, R302, R319) -/

/-- Ask for the pre-emption of a gang. -/
def M.preemptGang {s0 : State} (die gid why : Nat) : M s0 PUnit := do
  M.chargeQueues
  M.modGang die gid fun g => if g.phase == .run then { g with phase := .stopping why } else g
  M.push .preemption

/-- A running gang whose charge exceeds its cycle budget (R281). -/
def State.overBudget (s : State) (g : Gang) : Bool :=
  g.phase == .run && (s.launchOf g).any fun l => decide (s.charged g > recBudget l.record)

/-- BUDGET_OVERRUN: the charge of a running gang, which counts the cycles for which it has been admitted, exceeds its cycle budget, and the gang
is pre-empted (R281). -/
def execBudgetOverrun (die gid cycles : Nat) (s : State) : Host.Outcome State Fault Refusal :=
  exec1 s (do
    match s.disp.gangs.find? fun g => g.die == die && g.gid == gid with
    | none => M.stall
    | some g =>
      match s.disp.launches.find? fun l => l.id == g.launch with
      | none => M.stall
      | some l => do
        M.need (s.overBudget g && cycles == s.charged g)
        M.journal 0x000B die (recVf l.record) 0xFFFF 0 0x12 gid
        M.preemptGang die gid 0)

/-- A hart runs or its context is kept in its slot. -/
def Hart.live (h : Hart) : Bool := slotTaken h

/-- KILL: a hart is killed and goes on at `kexit` or retires (R32, R319); cause 0 when no trap led to it. -/
def execKill (h : Nat) (cause : BitVec 8) (s : State) : Host.Outcome State Fault Refusal :=
  exec1 s (do
    M.focus h
    M.need (← M.hart).live
    M.killHart cause)

/-- TRAP_ENTRY: the hart takes a trap at a scalar instruction boundary (R302). -/
def execTrapEntry (h : Nat) (cause : BitVec 8) (tval epc : Word) (vec : Bool) (s : State) : Host.Outcome State Fault Refusal :=
  exec1 s (do
    M.focus h
    M.need ((← M.hart).phase == .run)
    M.atBoundary
    M.modHart fun h => { h with wait := .none }
    M.takeTrap cause tval epc vec)

/-! ## Waiting (R106, R111) -/

/-- IDLE_TIMEOUT: 10 µs have passed and an `idle` returns (R111). -/
def execIdleTimeout (h : Nat) (s : State) : Host.Outcome State Fault Refusal :=
  exec1 s (do
    M.focus h
    let x ← M.hart
    M.need (x.wait == .idle && x.phase == .run && decide (s.time.toNat ≥ x.idleAt + 10000))
    M.modHart fun h => { h with wait := .none }
    M.advance)

/-- IDLE_WAKE: the line that an idle hart watches has been written (R111). -/
def execIdleWake (s : State) : Host.Outcome State Fault Refusal :=
  exec1 s (do
    match s.harts.filter fun h => h.phase == .run && h.wait == .idle && h.watchHit with
    | [] => M.stall
    | h :: others => do
      M.focus h.key
      M.modHart fun h => { h with wait := .none }
      M.advance
      if !others.isEmpty then M.push .idleWake)

/-- Members of a gang that have halted, as bits of its barrier: they count as arrived (R106). -/
def State.haltedBits (s : State) (g : Gang) : BitVec 64 :=
  let here := (g.harts.filterMap s.hartOf).map (·.id.gidx)
  let there := g.areas.map (·.1)
  BitVec.ofNat 64 (((List.range g.size).filter fun i => !here.contains i && !there.contains i).map fun i => 2 ^ i).sum

/-- BARRIER_RELEASE: every hart of a gang has arrived and stands at the barrier: all leave, and what any did before happens-before what any does after (R106,
R239). -/
def execBarrierRelease (s : State) : Host.Outcome State Fault Refusal :=
  exec1 s (do
    match s.disp.gangs.find? fun g => g.full && g.gathered s && (g.harts.filterMap s.hartOf).any fun h => h.wait == .barrier with
    | none => M.stall
    | some g => do
      let hs := (g.harts.filterMap s.hartOf).filter fun h => h.wait == .barrier && h.phase == .run
      let clk := hs.foldl (fun c h => clkMerge c h.sr.vclk) (s.die g.die).clock
      M.each hs fun h => M.modOther h.key fun h => { h with wait := .none, pc := h.pc + 4, vknown := clk, sr := { h.sr with vclk := clk } }
      M.modGang g.die g.gid fun x => { x with barrier := s.haltedBits g })

/-! ## Retirement (R26, R199, R371, R382) -/

/-- GANG_RETIRE: a gang whose harts have all retired retires, and its launch with its last gang (R26). -/
def execGangRetire (s : State) : Host.Outcome State Fault Refusal :=
  exec1 s (do
    M.chargeQueues
    match (← M.st).disp.gangs.find? fun g => decide (g.halted ≥ g.size) with
    | none => M.stall
    | some g => do
      M.modDisp fun d => { d with
        gangs := d.gangs.filter fun k => !(k.die == g.die && k.gid == g.gid),
        launches := d.launches.map fun l =>
          if l.id = g.launch then { l with retired := l.retired + 1, cycles := l.cycles + g.charge } else l }
      match (← M.st).disp.launches.find? fun l => l.id == g.launch with
      | none => pure ⟨⟩
      | some l => do
        if l.retired ≥ l.admitted && (l.stopped || l.admitted ≥ recGangs l.record) then M.push .launchRetire
        if l.die ≠ g.die then M.push (.gangAdmit l.die)
      M.coresFreed g.die)

/-- A launch has nothing more to run. -/
def Launch.over (l : Launch) : Bool := l.retired == l.admitted && (l.stopped || decide (l.admitted ≥ recGangs l.record))

/-- A launch leaves the dispatcher: records that name it are met, or retire with its status without running (R273, R371). -/
def M.dropLaunch {s0 : State} (l : Launch) : M s0 PUnit := do
  let waiting := (← M.st).disp.launches.filter fun k => k.deps.contains (.launch l.id)
  let clk := ((← M.st).die l.die).clock
  -- a pool record that has been armed anew stays so (R381)
  if l.num < 4096 && !((← M.st).disp.launches.any fun k => k.id ≠ l.id && k.die == l.die && k.num == l.num) then M.freeRecord l.die l.num
  M.each (waiting.map (·.die)).eraseDups fun d => M.learnAt d clk
  M.each waiting fun k => M.learnLaunch k.id clk
  M.modDisp fun d => { d with launches := (d.launches.filter fun k => k.id ≠ l.id).map fun k =>
    if l.status ≠ 0 && k.deps.contains (.launch l.id) && k.admitted = 0 then { k with status := l.status, stopped := true } else k }
  if l.status ≠ 0 then M.each waiting fun k => M.freeSlot k.die k.num
  M.settleDeficits
  if waiting.isEmpty then pure ⟨⟩
  else if l.status ≠ 0 then M.push .launchRetire
  else M.push .dependencyMet

/-- LAUNCH_RETIRE: the waiting deterministic bank add requests of a finished launch are applied, the entry is written, and then the
completion flag (R26, R199, R282, R371, R382). -/
def execLaunchRetire (s : State) : Host.Outcome State Fault Refusal :=
  exec1 s (do
    M.chargeQueues
    match (← M.st).disp.launches.find? (·.over) with
    | none => M.stall
    | some l => do
      let r := l.record
      if !l.journaled then do
        M.flushLaunch l.id
        -- the writes of gangs on other dies come before the flag (R26)
        M.each (s.launchDies l.die r) fun d => M.learnDie l.die d
        M.journal 0x0003 l.die (recVf r) l.q (recordName l.num) l.status (l.cycles % 2 ^ 48)
        M.learnDie l.die 0
        if l.status = 0 && recFlag r ≠ 0 then do
          M.modDisp fun d => { d with launches := d.launches.map fun k => if k.id = l.id then { k with journaled := true } else k }
          M.push .launchRetire
        else M.dropLaunch l
      else do
        let vf := recVf r
        match ← M.checkAs vf (s.tenantOf vf) (BitVec.ofNat 64 (recFlag r)) 8 .store with
        | .error c => M.report l.die vf c.toNat (recFlag r % 2 ^ 48)
        | .ok a => do
          M.dieReady l.die a.leaf.home .launchRetire
          M.dieStore l.die a.pa (toBytes 8 (recFlagV r))
        M.dropLaunch l
      if (← M.st).disp.launches.any (fun k => k.over && k.id ≠ l.id) then M.push .launchRetire)

/-! ## Pre-emption and resumption (R29 to R31, R312, R313, R316, R317) -/

/-- The vector stream of a hart stands at a boundary of R29: between blocks, between strips, at a taken backward branch, or between
instructions of its element threads; no transfer is in flight. -/
def Hart.vecBoundary (h : Hart) : Bool :=
  (h.streams.toList.all fun k => k.xfer.isNone)
    && match h.ctx with
      | none => true
      | some c => c.parked.isEmpty && (c.idx == 0 && c.owed.isEmpty || c.paused || c.threads.isSome)

/-- Both streams of a hart stand at a boundary. -/
def Hart.atStop (h : Hart) : Bool :=
  h.vecBoundary
    && match h.wait with
      | .response _ | .renew _ | .nbx _ _ _ => false
      | _ => true

/-- The members of a gang that hold a slot. -/
def State.members (s : State) (g : Gang) : List Hart := g.harts.filterMap s.hartOf

/-- A gang in `stopping` whose running harts all stand at a boundary. -/
def State.canSave (s : State) (g : Gang) : Bool :=
  (match g.phase with | .stopping _ => true | _ => false) && (s.members g).all fun h => h.phase != .run || h.atStop

/-- A hart has left the cores: its area or its slot is noted in the gang; with its last hart the gang is saved. -/
def M.noteSaved {s0 : State} (g : Gang) (h : Hart) (parked : Bool) : M s0 PUnit := do
  M.modGang g.die g.gid fun x =>
    if parked then { x with reserved := true }
    else { x with
      harts := x.harts.filter (· ≠ h.key), areas := x.areas ++ [(h.id.gidx, h.sr.savep)],
      stops := match h.held.bind (·.ctx) with
        | some c => (h.id.gidx, c) :: adel x.stops h.id.gidx
        | none => adel x.stops h.id.gidx }
  let s ← M.st
  match s.disp.gangs.find? fun k => k.die == g.die && k.gid == g.gid with
  | none => pure ⟨⟩
  | some x =>
    if (s.members x).all fun h => h.phase == .parked then do
      M.chargeQueues
      let why := match x.phase with
        | .stopping w => w
        | _ => 0
      -- a gang that is to be killed goes back to be killed (R319)
      M.modGang g.die g.gid fun k => { k with phase := if k.killed then .ready else .saved why }
      M.coresFreed g.die
    else M.push .preemption

/-- Save the hart in focus from record r: without an area it stays in its slot (R312). -/
def M.saveMember {s0 : State} (g : Gang) (r : Nat) (again : Instr) : M s0 PUnit := do
  let h ← M.hart
  if h.walks then do
    M.orAgain again (do
      M.needWindow h.id.did 4096
      M.areaReady h.sr.savep)
    let stays := h.sr.status.walk
    if ← M.saveContext r g.barrier.toNat then
      -- a context lost on the way has retired
      if (← M.hart).phase == .halted || stays then M.noteSaved g h stays else pure ⟨⟩
    else pure ⟨⟩
  else do
    M.modHart fun h => { h with phase := .parked }
    M.noteSaved g h true

/-- PREEMPTION: the next hart of a gang that stands at its boundaries is saved by a context walk (R29, R312). -/
def execPreemption (s : State) : Host.Outcome State Fault Refusal :=
  exec1 s (do
    match s.disp.gangs.find? fun g => s.canSave g && (s.members g).any fun h => h.phase == .run with
    | none => M.stall
    | some g =>
      match (s.members g).find? fun h => h.phase == .run with
      | none => M.stall
      | some h => do
        M.focus h.key
        M.modHart endWait
        M.saveMember g 0 .preemption)

/-- CONTEXT_WALK_RETRY: a context walk that a page fault stopped goes on from its record (R316). -/
def execContextWalkRetry (s : State) : Host.Outcome State Fault Refusal :=
  exec1 s (do
    let at_ (h : Hart) : Option Nat := match h.phase with
      | .saving r => some r
      | _ => none
    match s.harts.find? fun h => (at_ h).isSome with
    | none => M.stall
    | some h => do
      M.focus h.key
      match ← M.gangOf h with
      | none => M.stall
      | some g => M.saveMember g ((at_ h).getD 0) .contextWalkRetry)

/-- A stopped context that was saved and restored: what its strip held towards its exit goes on with it (R306, R307). -/
def LoopCtx.rejoin (c old : LoopCtx) : LoopCtx :=
  if c.base = old.base && c.idx = old.idx then
    { old with entry := c.entry, words := [], k := c.k, g := c.g, b0 := c.b0, n := c.n, stop := c.stop, fired := c.fired, threads := c.threads }
  else c

namespace M

variable {s0 : State}

/-- Put a saved context back into a slot: state of another virtual function is saved and zeroed first, otherwise the slot's vector
state stays and stays owned (R30, R313, R314). (DEDUCED, log 54) -/
def restoreMember (g : Gang) (l : Launch) (hid gidx : Nat) (area : Word) (again : Instr) : M s0 Bool := do
  let s ← st
  let fresh := s.entryHart l g.die g.gid hid g.index gidx (s.tenantOf (recVf l.record))
  let slot := (s.hartOf (384 * g.die + hid)).getD (.free g.die hid)
  let foreign := slot.sr.vown ≠ 0 && slot.id.vf ≠ fresh.id.vf
  if foreign then admitHart fresh again
  else emit (.place { fresh with vec := slot.vec, sr := { fresh.sr with vown := slot.sr.vown } })
  emit (.focus (384 * g.die + hid))
  modGang g.die g.gid fun x => { x with
    harts := x.harts ++ [384 * g.die + hid], hids := x.hids.set gidx hid, areas := x.areas.filter fun p => p.1 ≠ gidx }
  if ← attempt (restoreContext area) then
    match aget g.stops gidx with
    | some c => modHart fun h => { h with held := h.held.map fun k => { k with ctx := k.ctx.map fun d => d.rejoin c } }
    | none => pure ⟨⟩
    return true
  else return (← hart).phase == .halted

/-- Put every saved member of a gang back, in `gidx` order; false when a record's page fails. -/
def restoreMembers (g : Gang) (l : Launch) (again : Instr) : List (Nat × Nat × Word) → M s0 Bool
  | [] => return true
  | (hid, gidx, area) :: rest => do
    if ← restoreMember g l hid gidx area again then restoreMembers g l again rest
    else return false

/-- The homes of the pages of an area can be reached from a die. -/
def dieArea (die vf tenant : Nat) (area : Word) (again : Instr) : M s0 PUnit :=
  each [0, 1, 2, 3] fun i => do
    match ← checkAs vf tenant (area + BitVec.ofNat 64 (i * 2 ^ 18)) 64 .load with
    | .ok a => dieReady die a.leaf.home again
    | .error _ => pure ⟨⟩

/-- Each quad of a die has rows for what its harts hold (R31). -/
def rowsFit (die : Nat) : M s0 Bool := do
  let s ← st
  return (List.range 24).all fun q => decide (s.rowsTaken die q none ≤ 512)

/-- A gang is back on the cores: it runs, or is killed as asked for meanwhile. -/
def gangBack (g : Gang) : M s0 PUnit := do
  let s ← st
  modGang g.die g.gid fun x => { x with
    phase := .run, reserved := false, since := s.time.toNat, cycleAt := s.cycle.toNat, killed := false }
  match (← st).disp.gangs.find? fun k => k.die == g.die && k.gid == g.gid with
  | none => pure ⟨⟩
  | some x => do
    each x.harts fun k => modOther k fun h => if h.phase == .parked then
      { h with phase := .run, ctx := h.ctx.map fun c => { c with paused := false } } else h
    if g.killed then each x.harts fun k => do
      emit (.focus k)
      killHart 0
    else pure ⟨⟩

end M

/-- The saved members of a gang in `gidx` order. -/
def Gang.saved (g : Gang) : List (Nat × Word) := (List.range g.size).filterMap fun i => g.areas.find? fun p => p.1 == i

/-- The slots for the saved members of a gang: their own where they stay reserved, otherwise cores that fit, the members with `gidx` 4c to 4c + 3
on one of them (R14, R313). -/
def State.slotsFor (s : State) (g : Gang) (r : BitVec 1024) : Option (List (Nat × Nat × Word)) :=
  let on (c : Nat) : Nat := (g.saved.filter fun p => p.1 / 4 == c).length
  if g.reserved then some (g.saved.map fun p => (g.hids.getD p.1 0, p))
  else ((s.dieOcc g.die).placeLoads r (s.tenantOf (recVf r)) (((List.range 16).map on).filter (· ≠ 0))).map fun (hids, _) =>
    hids.zip g.saved

/-- The highest-ranked gang that is ready again, where it fits, with its launch and its slots (R31, R372). -/
def State.nextBack (s : State) : Option (Gang × Launch × List (Nat × Nat × Word)) :=
  let cands := s.disp.gangs.filterMap fun g =>
    if g.phase == .ready && s.alive g.die then (s.launchOf g).map fun l => (g, l) else none
  let rank (p : Gang × Launch) : Nat := recPriority p.2.record
  let top := (cands.map rank).foldl max 0
  (cands.find? fun p => rank p == top).bind fun (g, l) => (s.slotsFor g l.record).map fun ps => (g, l, ps)

/-- After an exit from Shuttered the module runs again: records and gangs are considered on every die, and the latches that fired during the
entry are accepted (R295, R296). -/
def M.backToRun {s0 : State} : M s0 PUnit := do
  if (← M.st).host.power == .leaving then
    M.modPort fun p => { p with power := .run, exiting := false }
    M.each ((← M.st).disp.queues.filter fun q => !q.latched.isEmpty) fun q => M.acceptLatched q.q 64
    M.each ((List.range 8).filter (← M.st).alive) fun d => M.push (.gangAdmit d)
  else pure ⟨⟩

/-- GANG_RESUME: the highest-ranked gang that is ready again returns to its slots, or to new cores where it fits, and its harts are
restored (R31, R313, R372). -/
def execGangResume (s : State) : Host.Outcome State Fault Refusal :=
  exec1 s (do
    M.need (s.host.power == .run || (s.host.power == .leaving && s.host.exiting))
    M.chargeQueues
    match s.nextBack with
    | none => M.stall
    | some (g, l, places) =>
      if s.host.power == .run && (s.choose g.die).any fun c => decide (recPriority c.launch.record > recPriority l.record) then
        -- a ready record of a higher priority ranks ahead (R275, R280)
        M.push (.gangAdmit g.die)
        M.done
      else do
        let tenant := s.tenantOf (recVf l.record)
        M.each g.areas fun (_, area) => M.dieArea g.die (recVf l.record) tenant area .gangResume
        match ← M.peek (M.restoreMembers g l .gangResume places) with
        | some true => do
          let _ ← M.restoreMembers g l .gangResume places
          M.gangBack g
          if !(← M.rowsFit g.die) then M.stall
          M.coresFreed g.die
          M.backToRun
        | _ => do
          M.backToRun
          M.report g.die (recVf l.record) 0x0F ((g.areas.head?.elim 0 fun p => p.2.toNat) % 2 ^ 48))

end Sys2Proof.Machine
end

