-- ==== Sys2Proof/Machine/EvImages.lean ====
section
/-!
DEFINITION. The events of the two images: a settle completes, a renew drops, a line is evicted or recalled from the host, a page
migrates, a `swait` returns (R190 to R196, R201, R286, R344 to R346); calibration, retirement and failure of the in-place units
(R209, R343, R347); an error that no reader met (R338).
-/

namespace Sys2Proof.Machine

namespace M

variable {s0 : State}

/-- A settle or renew that follows in the order of the frames is taken up again, and with it the reductions that wait. -/
def resumeEngines : M s0 PUnit := do
  let b := (← st).bank
  if b.bred.isEmpty then pure ⟨⟩ else push .bredReduction
  if b.xmerge.isEmpty then pure ⟨⟩ else push .xmergeReduction
  if (← st).place.copying.isEmpty then pure ⟨⟩ else push .replicaCopy

/-- What a settle or renew of a frame does next, once a snoop of its lines is answered. -/
def resumeSettles (frame : Nat) : M s0 PUnit := do
  let g := ((← st).img.settling.filter fun g => g.frame == frame)
  each g fun g => push (if g.down then .renewDrop else .pageSettleComplete frame)

/-- A line that lies in the arrays as poison after a settle is reported (R344). -/
def settleReport (la : Nat) : M s0 PUnit := do
  let pa := 64 * la
  noteError (homeOf pa) (levelOf pa) pa
  report (homeOf pa) 0 0x010E pa

/-- A host copy of some line of a frame has been asked for and not returned. -/
def snoopedFrame (frame : Nat) : M s0 Bool := do
  return (← st).host.snoops.any fun la => frameOfLine la == frame

end M

/-- The bytes of aligned 4-byte word i of a line. -/
def wordMask (i : Nat) : BitVec 64 := BitVec.ofNat 64 (15 * 2 ^ (4 * (i % 16)))

/-- The dirty lines of a frame that a settle writes, by what it writes as one: the macro of the weight window (R205), or each line by itself;
a retired macro's range is not written (R347). -/
def State.settleGroups (s : State) (frame : Nat) : List (List Line) :=
  let ls := (s.linesOf frame).filter fun l => l.dirty ≠ 0 && !s.retiredLine l.addr
  if regionOf (frame * 2 ^ 18) == .weights then
    ((ls.map fun l => macroOf (64 * l.addr)).eraseDups).map fun m => ls.filter fun l => macroOf (64 * l.addr) == m
  else ls.map fun l => [l]

namespace M

variable {s0 : State}

/-- A part of a settle under way is written: aligned word i of a line, or the whole macro of a weight line (R191, R205). The settle no longer
waits for those bytes, and a byte stored there later may stay dirty. -/
def settlePart (frame la i : Nat) : M s0 PUnit := do
  let s ← st
  let weights := regionOf (64 * la) == .weights
  let part (k : Nat) : Bool := if weights then macroOf (64 * k) == macroOf (64 * la) else k == la
  let mask := if weights then BitVec.allOnes 64 else wordMask i
  need (s.img.settling.any fun g => g.frame == frame && !g.down)
  let ls := (s.linesOf frame).filter fun l => part l.addr
  need (ls.all fun l => l.level != .host && !s.retiredLine l.addr)
  each ls fun l => cleanLine l.addr mask
  modImg fun m => { m with settling := m.settling.map fun g =>
    if g.frame = frame && !g.down then
      { g with lines := g.lines.map fun (k, d) => if part k then (k, d &&& ~~~mask) else (k, d) }
    else g }

/-- A settle completes: the bytes it includes that are not down yet are written, and of those stored since its start it may have written any
word, or any macro as a whole (R191, R205). -/
def settleRest (g : Settling) : M s0 PUnit := do
  each g.lines fun (la, mask) => do
    if !(← st).retiredLine la then cleanLine la mask else pure ⟨⟩
  each ((← st).settleGroups g.frame) fun ls =>
    match ls with
    | [l] =>
      if regionOf (64 * l.addr) == .weights then do
        if ← freeBool then cleanLine l.addr (BitVec.allOnes 64) else pure ⟨⟩
      else each ((List.range 16).filter fun i => (l.dirty &&& wordMask i) ≠ 0) fun i => do
        if ← freeBool then cleanLine l.addr (wordMask i) else pure ⟨⟩
    | _ => do if ← freeBool then each ls fun l => cleanLine l.addr (BitVec.allOnes 64) else pure ⟨⟩

end M

/-- PAGE_SETTLE_COMPLETE: every dirty byte that the settle includes is in the arrays, and the count advances (R191). A byte stored since
its start may have been written too. A retired macro's range is not written (R347). -/
def execPageSettleComplete (frame : Nat) (s : State) : Host.Outcome State Fault Refusal :=
  exec1 s (do
    match s.img.settling.find? fun g => g.frame == frame && !g.down with
    | none => M.stall
    | some g => do
      M.need !(← M.snoopedFrame frame)
      M.settleRest g
      let now ← M.st
      M.each (g.lines.filter fun p => now.img.poison.contains p.1) fun p => M.settleReport p.1
      let same (k : Settling) : Bool := k.frame == frame && !k.down
      M.modImg fun m => { m with settling :=
        if g.renew then changeFirst same (fun k => { k with down := true, lines := [] }) m.settling else dropFirst same m.settling }
      M.advanceCount frame
      if g.renew then M.push .renewDrop
      M.resumeEngines)

/-- Harts that wait for a renew of a frame: the frame is done for them; a hart whose last frame is done goes on (R195). -/
def M.finishRenew {s0 : State} (frame : Nat) : M s0 PUnit := do
  M.each (← M.st).harts fun h =>
    match h.wait with
    | .renew fs =>
      if fs.contains frame then
        let rest := fs.erase frame
        M.modOther h.key fun h =>
          if rest.isEmpty then { h with wait := .none, pc := h.pc + 4 } else { h with wait := .renew rest }
      else pure ⟨⟩
    | _ => pure ⟨⟩

/-- RENEW_DROP: after its settle, a renew drops every cached copy of the page; dirty bytes stored meanwhile are written down
without a count (R194). -/
def execRenewDrop (s : State) : Host.Outcome State Fault Refusal :=
  exec1 s (do
    match s.img.settling.find? (·.down) with
    | none => M.stall
    | some g => do
      let held := (s.linesOf g.frame).filter fun l => l.level == .host
      if !held.isEmpty then
        M.snoopLines held
        M.done
      M.need !(← M.snoopedFrame g.frame)
      M.dropFrame g.frame
      M.modImg fun m => { m with settling := dropFirst (fun k => k.down && k.frame == g.frame) m.settling }
      -- another renew of the page may still be under way
      if !((← M.st).img.settling.any fun k => k.frame == g.frame && k.renew) then M.finishRenew g.frame
      else pure ⟨⟩
      if (← M.st).img.settling.any (·.down) then M.push .renewDrop
      M.resumeEngines)

/-- EVICTION: a line leaves its cache, for the cellar, encrypted under the key of its page (R200), or for the arrays, its dirty bytes with byte
enables (R190). A line that the host wrote is never placed in the cellar (R285). -/
def execEviction (line : Nat) (toCellar : Bool) (s : State) : Host.Outcome State Fault Refusal :=
  exec1 s (do
    match findLine s.img.cache line with
    | none => M.stall
    | some l => do
      M.need (l.level != .host)
      if toCellar then do
        M.need (isHostMem (64 * line) && l.key.isSome && l.level != .l3 && s.cacheRoom line .l3)
        M.modImg fun m => { m with cache := putLine m.cache { l with level := .l3 } }
      else do
        M.need (l.dirty = 0 || !s.retiredLine line)
        M.dropLine line)

/-- HOST_DIRECTORY_RECALL: a die whose host-line directory is full recalls its oldest entry (R286). -/
def execHostDirectoryRecall (s : State) : Host.Outcome State Fault Refusal :=
  exec1 s (do
    let on (d : Nat) := s.img.hostOrder.filter fun la => homeOf (64 * la) == d
    match (List.range 8).find? fun d => decide ((on d).length ≥ 1048576) with
    | none => M.stall
    | some d =>
      match (on d).find? fun la => !s.host.snoops.contains la with
      | none => M.stall
      | some la => M.modPort fun p => { p with snoops := insertNat p.snoops la })

/-- BACK_INVALIDATION_RESPONSE: the host answers the lowest snoop with its copy, which lies at the home slice from then on, and keeps
none (R191, R194, R286). (DEDUCED, log 64) -/
def execBackInvalidationResponse (s : State) : Host.Outcome State Fault Refusal :=
  exec1 s (do
    M.need s.host.linkUp
    match s.host.snoops with
    | [] => M.stall
    | la :: rest => do
      M.modPort fun p => { p with snoops := rest }
      M.modImg fun m => { m with hostOrder := m.hostOrder.filter (· ≠ la) }
      if ((findLine s.img.cache la).map (·.level)) == some .host then M.toSlice la else pure ⟨⟩
      M.resumeSettles (frameOfLine la))

/-- BISNP_TIMEOUT: a snoop that the host has not answered within 2 ms expires: the copy is lost and the line is poisoned (R345). -/
def execBisnpTimeout (s : State) : Host.Outcome State Fault Refusal :=
  exec1 s (do
    match s.host.snoops with
    | [] => M.stall
    | la :: rest => do
      M.modPort fun p => { p with snoops := rest }
      M.modImg fun m => { m with
        hostOrder := m.hostOrder.filter (· ≠ la),
        cache := m.cache.filter fun l => !(l.addr == la && l.level == .host) }
      M.poisonLine la
      M.noteError (homeOf (64 * la)) (M.levelOf (64 * la)) (64 * la)
      M.report (homeOf (64 * la)) 0 0x0101 (64 * la)
      M.resumeSettles (frameOfLine la))

/-- SWAIT_SATISFIED: a waiting `swait` whose page count has reached its target returns (R196). -/
def execSwaitSatisfied (s : State) : Host.Outcome State Fault Refusal :=
  exec1 s (do
    let ready (h : Hart) : Bool := match h.wait with
      | .swait f t => h.phase == .run && countReached (s.countOf f) t
      | _ => false
    match s.harts.filter ready with
    | [] => M.stall
    | h :: others => do
      M.focus h.key
      match h.wait with
      | .swait f _ => M.mergeClk (s.die (homeOf (f * 2 ^ 18))).clock
      | _ => pure ⟨⟩
      M.mergeDie
      M.modHart fun h => { h with wait := .none }
      M.advance
      if !others.isEmpty then M.push .swaitSatisfied)

/-! ## Migration (R201, R346) -/

/-- The line of a frame at the same place in another frame. -/
def moveLine (src dst la : Nat) : Nat := if frameOfLine la = src then dst * 4096 + la % 4096 else la

/-- The valid entries of a table; only a listed or a cached byte is not zero. -/
def State.entriesOf (s : State) (table : Nat) : List (Nat × Nat) :=
  let listed := (s.cells.filter fun c => decide (table ≤ c.1) && decide (c.1 < table + 32768)).map fun c => (c.1 - table) / 8
  let cached := (s.img.cache.filter fun l => decide (table ≤ 64 * l.addr) && decide (64 * l.addr < table + 32768)).flatMap fun l =>
    rangeFrom ((64 * l.addr - table) / 8) 8
  (listed ++ cached).eraseDups.filterMap fun i => (s.pte table i).bind fun e => if pteValid e then some (table + 8 * i, e) else none

/-- What the page tables of a virtual function use: their tables, and the leaves (R186). -/
def State.mapped (s : State) (vf : Nat) : List Nat × List Leaf :=
  let root := (s.host.vfs.toList.getD vf { en := false, root := 0, tkey := 0 }).root
  let leaf (w : WalkRes) : List Leaf := match w with
    | .leaf l => [l]
    | _ => []
  let t2s := (s.entriesOf root).filterMap fun p => tablePointer p.2
  let e2s := t2s.flatMap s.entriesOf
  let t3s := e2s.filterMap fun p => tablePointer p.2
  let e3s := t3s.flatMap s.entriesOf
  let large := e2s.flatMap fun (pa, e) => if pteSz e = 2 then leaf (leafOf e (2 ^ 30) pa) else []
  let small := e3s.flatMap fun (pa, e) =>
    if pteSz e = 0 then leaf (leafOf e (2 ^ 18) pa) else if pteSz e = 1 then leaf (leafOf e (2 ^ 21) pa) else []
  (root :: t2s ++ t3s, large ++ small)

/-- Every leaf that names a frame. -/
def State.leavesOn (s : State) (frame : Nat) : List Leaf :=
  ((List.range 64).flatMap fun v => (s.mapped v).2).filter fun l =>
    decide (l.base < (frame + 1) * 2 ^ 18) && decide (frame * 2 ^ 18 < l.base + l.size)

/-- A frame holds what the device reaches by its physical address: a page table, the journal, the command ring or an inbox. -/
def State.fixedFrame (s : State) (frame : Nat) : Bool :=
  let meets (pa n : Nat) : Bool := decide (pa < (frame + 1) * 2 ^ 18) && decide (frame * 2 ^ 18 < pa + n)
  ((List.range 64).any fun v => (s.mapped v).1.any fun t => meets t 32768)
    || meets s.host.jbase 2097152 || meets s.host.hcbase 65536
    || s.place.tables.toList.any fun t => t.inbox.any fun b => meets b (2 ^ 20 + 4096)

/-- A hart holds a store for a frame. -/
def Hart.holdsFor (h : Hart) (frame : Nat) : Bool :=
  (h.ctx.bind (·.pass)).any fun p => p.stores.any fun q => q.leaf.any fun l => frameOf (l.pa q.va) == frame

/-- The 256 KiB leaf that an entry holds now. -/
def State.leafAt (s : State) (pte : Nat) : Option Leaf :=
  let e := s.liveVal pte 8
  if pteValid e && pteSz e = 0 then
    match leafOf e (2 ^ 18) pte with
    | .leaf l => some l
    | _ => none
  else none

/-- An unpinned page may move to a frame: the page is of 256 KiB, every leaf that names its frame moves with it, the new frame is of the other
kind of memory on the same die and unused, and nothing is under way on either (R201, R346). -/
def State.mayMove (s : State) (l : Leaf) (src frame : Nat) : Bool :=
  let dstPa := frame * 2 ^ 18
  isHostMem l.base && isHostMem dstPa && homeOf dstPa == l.home && isHbm l.base != isHbm dstPa && !s.img.badFrames.contains frame
    && (s.leavesOn src).all (fun k => k.size == 2 ^ 18 && !k.pin) && (s.leavesOn frame).isEmpty
    && !s.fixedFrame src && !s.fixedFrame frame
    && !(s.img.settling.any fun g => g.frame == src || g.frame == frame)
    && !(s.linesOf src ++ s.linesOf frame).any (·.level == .host)
    && !(s.fab.chans.any fun c => c.reqs.any fun p => frameOf p.pa == src || frameOf p.pa == frame)
    && !(s.harts.any fun h => h.holdsFor src)

/-- PAGE_MIGRATION: hardware moves the page of a leaf entry to a frame of the other kind of memory on the same die, with both images and
its count; a write to the new frame may fail, and then the page stays (R201, R346). (DEDUCED, log 95) -/
def execPageMigration (pte frame : Nat) (s : State) : Host.Outcome State Fault Refusal :=
  exec1 s (do
    match s.leafAt pte with
    | none => M.stall
    | some l => do
      let src := frameOf l.base
      let dstPa := frame * 2 ^ 18
      M.need ((s.leavesOn src).contains l && s.mayMove l src frame)
      if ← M.freeBool then do
        -- the write to the destination fails: the frame is used no more
        M.modImg fun m => { m with badFrames := insertNat m.badFrames frame }
        M.report (homeOf dstPa) 0 0x010E dstPa
      else do
        M.emit (.cells dstPa (s.cells.reads l.base (2 ^ 18)))
        let bad := s.img.poison.filter fun la => frameOfLine la == src
        let cached := (s.linesOf src).map fun k => { k with addr := moveLine src frame k.addr }
        let ptes := (s.leavesOn src).map (·.pte)
        M.modImg fun m => { m with
          cache := cached.foldl putLine (m.cache.filter fun k => frameOfLine k.addr ≠ src && frameOfLine k.addr ≠ frame),
          poison := bad.foldl (fun acc la => insertNat acc (moveLine src frame la))
            (m.poison.filter fun la => frameOfLine la ≠ src && frameOfLine la ≠ frame),
          keys := match aget m.keys src with
            | some k => aput (adel m.keys src) frame k
            | none => adel m.keys frame,
          tlb := m.tlb.filter fun t => match t.leaf with
            | some k => !ptes.contains k.pte
            | none => true }
        M.emit (.counts (aput (adel (← M.st).counts src) frame (s.countOf src)))
        M.each s.harts fun h => M.modOther h.key fun h => { h with
          watch := h.watch.map (moveLine src frame),
          wait := match h.wait with
            | .swait f t => if f = src then .swait frame t else .swait f t
            | w => w }
        M.forgetEarly
        -- the leaves name the new frame
        M.each ptes fun pte => do
          let e := s.liveVal pte 8
          let new := e - bits e 47 18 * 2 ^ 18 + frame % 2 ^ 30 * 2 ^ 18
          M.storeLive pte (toBytes 8 new) .engine true none none
        M.each bad fun la => M.settleReport (moveLine src frame la))

/-! ## Calibration and failures of the in-place units -/

/-- Change the state of a macro. -/
def M.modMacro {s0 : State} (k : Nat) (f : MacroState → MacroState) : M s0 PUnit := do
  let x := f ((← M.st).macroAt k)
  M.modBank fun b => { b with macros := aput b.macros k x }

/-- A die and a macro of it exist. -/
def macroExists (die m : Nat) : Bool := decide (die < 8) && decide (m < 8192)

/-- CALIBRATION_ANNOUNCE: the start of a macro's next window is announced, at least 1 ms ahead (R209). -/
def execCalibrationAnnounce (die m start : Nat) (s : State) : Host.Outcome State Fault Refusal :=
  exec1 s (do
    let k := die * 8192 + m
    let x := s.macroAt k
    M.need (macroExists die m && !x.retired && x.announced.isNone && decide (start ≥ s.time.toNat + 1000000)
      && decide (start < 2 ^ 64))
    M.modMacro k fun x => { x with announced := some start })

/-- MACRO_CALIBRATION: an announced window has started and the macro is calibrated; a calibration that fails leaves the previous one,
and the third in a row retires the macro (R209, R347). -/
def execMacroCalibration (die m : Nat) (ok : Bool) (s : State) : Host.Outcome State Fault Refusal :=
  exec1 s (do
    let k := die * 8192 + m
    let x := s.macroAt k
    M.need (macroExists die m && !x.retired && !x.window && x.announced.any fun t => decide (t ≤ s.time.toNat))
    M.modMacro k fun x => { x with
      announced := none, window := true, fails := if ok then 0 else x.fails + 1, cal := if ok then x.cal + 1 else x.cal }
    if !ok && x.fails + 1 ≥ 3 then M.push (.macroRetire die m))

/-- CALIBRATION_WINDOW_END: a running window ends (R209). -/
def execCalibrationWindowEnd (s : State) : Host.Outcome State Fault Refusal :=
  exec1 s (do
    match s.bank.macros.find? fun p => p.2.window with
    | none => M.stall
    | some (k, _) => M.modMacro k fun x => { x with window := false })

/-- ARRAY_SCRUB_ERROR: an uncorrectable error in an array word that no reader has met poisons its line in place (R338). -/
def execArrayScrubError (line : Nat) (s : State) : Host.Outcome State Fault Refusal :=
  exec1 s (do
    M.need (isHostMem (64 * line))
    M.setArrayPoison line true
    M.engineReport (64 * line))

/-- BANK_UNIT_FAIL: a bank unit fails its self-check, is marked in BFAIL and reported with its first address (R343). -/
def execBankUnitFail (die ch bank : Nat) (s : State) : Host.Outcome State Fault Refusal :=
  exec1 s (do
    let k := die * 1024 + ch * 32 + bank
    M.need (die < 8 && ch < 32 && bank < 32 && !s.bank.bfail.contains k)
    let pa := die * 2 ^ 45 + 0x800000000 + ch * 2 ^ 30 + bank * 32
    M.modBank fun b => { b with bfail := insertNat b.bfail k }
    M.noteError die 9 pa
    M.report die 0 0x010E pa)

end Sys2Proof.Machine
end

