-- ==== Sys2Proof/Machine/Placement.lean ====
section
/-!
DEFINITION. The placement engine's own operations: the newest version of the table, changes that wait for a publication, target space,
and replicas leaving service (R251, R256, R258, R363, R364).
-/

namespace Sys2Proof.Machine

/-- Entries put into a bank. -/
def Bank.put (b : Bank) (l : List (Nat × Replica)) : Bank :=
  { b with entries := l.foldl (fun acc p => aput acc p.1 p.2) b.entries }

/-- The bank of the current version. -/
def State.current (s : State) : Bank := (s.tableOf 0).bankOf (s.tableOf 0).version

/-- The newest version: what is being published, with the changes that wait. -/
def State.latest (s : State) : Bank :=
  (match s.place.publishing with
    | some (_, b) => b
    | none => s.current).put s.place.pending

/-- The entry of a key; an entry that is not listed is empty. -/
def Bank.at (b : Bank) (key : Nat) : Replica :=
  (aget b.entries key).getD { base := 0, die := 0, weights := false, state := 0, len := 0, vf := 0 }

/-- An entry in service: active or draining. -/
def Replica.serves (e : Replica) : Bool := e.state == 1 || e.state == 2

/-- The replicas of an expert in service. -/
def Bank.serving (b : Bank) (x : Nat) : List (Nat × Replica) :=
  ((List.range 8).map fun r => (8 * x + r, b.at (8 * x + r))).filter fun p => p.2.serves

/-- The lowest replica index of an expert whose entry is empty or retired and that no copy is to take (R256, R383). -/
def State.freeIndex (s : State) (x : Nat) : Option Nat :=
  (List.range 8).find? fun r =>
    !(s.latest.at (8 * x + r)).serves && !s.place.copying.any fun c => c.expert == x && c.idx == r

/-- Two ranges of addresses share a byte. -/
def rangesMeet (a n b m : Nat) : Bool := decide (a < b + m) && decide (b < a + n)

/-- The lowest free piece of a target of a length. -/
def Target.fit (t : Target) (len : Nat) : Option Word :=
  let b := t.base.toNat
  let starts := b :: t.used.map fun p => p.1.toNat + p.2
  let good := starts.filter fun c => decide (c + len ≤ b + t.len) && !t.used.any fun p => rangesMeet c len p.1.toNat p.2
  match good with
  | [] => none
  | c :: cs => some (BitVec.ofNat 64 (cs.foldl min c))

/-- Take a piece of the first target of a die, kind and virtual function that has room (R258). -/
def takeTarget (die : Nat) (weights : Bool) (vf len : Nat) : List Target → Option (Word × List Target)
  | [] => none
  | t :: ts =>
    let here := if t.die = die && t.weights == weights && t.vf = vf then t.fit len else none
    match here with
    | some a => some (a, { t with used := t.used ++ [(a, len)] } :: ts)
    | none => (takeTarget die weights vf len ts).map fun (a, l) => (a, t :: l)

namespace M

variable {s0 : State}

/-- An entry changes with the next publication (R257). -/
def changeEntry (key : Nat) (e : Replica) : M s0 PUnit := do
  modPlace fun p => { p with pending := p.pending ++ [(key, e)] }
  push .versionPublish

/-- A piece of target space is free again. -/
def freeTarget (die vf : Nat) (base : Word) : M s0 PUnit :=
  modPlace fun p => { p with targets := p.targets.map fun t =>
    if t.die = die && t.vf = vf then { t with used := t.used.filter fun u => u.1 ≠ base } else t }

/-- A replica leaves service by a failure, without a grace period (R364). -/
def failReplica (key : Nat) (e : Replica) : M s0 PUnit := do
  changeEntry key { e with state := 3 }
  freeTarget e.die e.vf e.base
  report e.die e.vf 0x0111 (key / 8 + key % 8 * 2 ^ 16)

/-- A replica begins to drain (R259). -/
def drainReplica (key : Nat) (e : Replica) : M s0 PUnit := changeEntry key { e with state := 2 }

/-- A replica that was being made is given up (R363): the reason is a cause. (DEDUCED, log 74) -/
def rollback (c : Copying) (reason : Nat) : M s0 PUnit := do
  let h := (← st).place.policy.elim 1 fun q => q.hyst
  modPlace fun p => { p with
    copying := p.copying.filter fun k => !(k.expert == c.expert && k.idx == c.idx),
    passed := p.passed ++ [(c.expert, c.die, h)] }
  freeTarget c.die c.vf c.dst
  report c.die c.vf 0x0011 (c.expert + c.die * 2 ^ 16 + reason * 2 ^ 24)

/-- The physical pieces of a range in a space for one kind of access, with what a copy applies of their pages: the cause of the first page
whose check fails. -/
def rangePieces (vf tenant : Nat) (k : Kind) : Nat → Nat → Nat → M s0 (Except (BitVec 8) (List Span))
  | 0, _, _ => return .ok []
  | n + 1, va, len => do
    if len = 0 then return .ok []
    let here := min len (2 ^ 18 - va % 2 ^ 18)
    match ← checkAs vf tenant (BitVec.ofNat 64 va) 1 k with
    | .error c => return .error c
    | .ok a =>
      match ← rangePieces vf tenant k n (va + here) (len - here) with
      | .error e => return .error e
      | .ok l => return .ok ({ pa := a.pa, len := here, wb := a.leaf.wb, ww := a.leaf.ww } :: l)

/-- The pieces of a whole range. -/
def wholeRange (vf : Nat) (k : Kind) (va : Word) (len : Nat) : M s0 (Except (BitVec 8) (List Span)) := do
  rangePieces vf ((← st).tenantOf vf) k (len / 2 ^ 18 + 2) va.toNat len

/-- Bytes that nothing defines (R5). -/
def freeBytes (n : Nat) : M s0 (List Byte) := do
  let k := (← st).fresh
  emit (.fresh (k + n / 8 + 1))
  return ((List.range (n / 8 + 1)).flatMap fun i => toBytes 8 (Config.freeWord (k + i)).toNat).take n

end M

end Sys2Proof.Machine
end

