-- ==== Sys2Proof/Machine/EvFabric.lean ====
section
/-!
DEFINITION. The events of the causal fabric: packets, responses, watermarks and probes (R236 to R245), replays and link failures,
and the removal and return of a die (R357 to R365).
-/

namespace Sys2Proof.Machine

/-! ## Headers (R237) -/

/-- The 256 bits of a header: kind, whether it is numbered, the channel and its ends, and what the operation adds. -/
def headerOf (info : BitVec 48) (pa : Nat) (kind : BitVec 8) (seq : BitVec 12) (numbered response : Bool) (dst src : Nat) (gen : BitVec 4)
    (stamp : Clock) : BitVec 256 :=
  info ++ BitVec.ofNat 48 pa ++ kind ++ seq ++ BitVec.ofBool numbered ++ BitVec.ofBool response ++ BitVec.ofNat 3 dst
    ++ BitVec.ofNat 3 src ++ gen ++ BitVec.ofNat 128 (clkNat stamp)

/-- A number for each kind of request and its bytes. -/
def PacketOp.kind : PacketOp → Nat × Nat
  | .store bs _ => (0, bs.length)
  | .load n _ => (1, n)
  | .atomic op n _ _ sc => (2 + op + (if sc then 16 else 0), n)

/-- The header flit of a request packet on a channel. -/
def Packet.header (p : Packet) (src dst : Nat) : BitVec 256 :=
  headerOf (Config.packetInfo p.op.kind.1 p.op.kind.2 (p.tag.getD 0)) p.pa (Config.packetKind p.op.kind.1) p.seq p.num.isSome false
    dst src p.gen p.stamp

/-- The header flit of a response to an access of an address. -/
def Response.header (r : Response) (src dst pa : Nat) : BitVec 256 :=
  headerOf (Config.packetInfo 40 8 r.tag) pa (Config.packetKind 40) r.seq false true dst src r.gen r.clk

/-! ## Delivery and service (R90, R94, R237 to R240) -/

/-- A generation that is neither the current one of a die nor the one before it: what carries it is discarded (R359). -/
def State.staleGen (s : State) (dst : Nat) (g : BitVec 4) : Bool := g ≠ (s.die dst).gen && g ≠ (s.die dst).gen - 1

/-- The way of a request of another die through the caches of its home. -/
def remotePath (alloc : Bool) : Path := { l1 := none, alloc := if alloc then some .l2 else none, host := false }

namespace M

variable {s0 : State}

/-- A link between two dies carries flits: both are in operation and the direction is not retraining. -/
def needLink (src dst : Nat) : M s0 PUnit := do
  let s ← st
  need (src ≠ dst && decide (src < 8) && decide (dst < 8) && s.alive src && s.alive dst && !(s.chan src dst).retraining)

/-- Answer a request: the response carries the home die's clock at service. -/
def respond (src dst : Nat) (p : Packet) (v : Option Word) (poison : Bool) : M s0 PUnit := do
  match p.tag with
  | none => pure ⟨⟩
  | some t => do
    let f := (← st).die dst
    modChan dst src (Channel.answer · { gen := f.gen, seq := 0, hart := p.hart, tag := t, value := v, poison := poison, clk := f.clock })
    push (.responseReceive dst src)

/-- A scalar load of another die has been served: its hart watches the line from then on (R111). -/
def watchFrom (p : Packet) : M s0 PUnit :=
  modOther p.hart fun h => match h.wait with
    | .response r => if p.tag = some r.tag && r.load then { h with watch := some (p.pa / 64), watchHit := false } else h
    | _ => h

/-- Perform a delivered packet at its home. -/
def serve (src dst : Nat) (p : Packet) : M s0 PUnit := do
  let num := p.num.map fun n => (src, n)
  match p.op with
  | .store bs alloc => performStore p.pa bs (remotePath alloc) p.ww (some p.hart) num
  | .load n alloc => do
    match ← readHome p.pa n (remotePath alloc) p.ww with
    | some bs => do
      watchFrom p
      respond src dst p (some (BitVec.ofNat 64 (ofBytes bs))) false
    | none => respond src dst p none true
  | .atomic op n v cmp sc => do
    match ← atomicHome p.pa op n v.toNat cmp.toNat (remotePath (regionOf p.pa != .device)) p.ww (some p.hart) num with
    | some old => do
      noteSc sc (clkMerge p.stamp ((← st).die dst).clock)
      respond src dst p (some (BitVec.ofNat 64 old)) false
    | none => respond src dst p none true

/-- A numbered packet is delivered: its number is covered, and the die clock learns its stamp (R239, R240). -/
def noteDelivered (src dst : Nat) (p : Packet) : M s0 PUnit := do
  learnAt dst p.stamp
  match p.num with
  | some n => modDie dst fun d => { d with covered := clkPut d.covered src (maxClk (clkAt d.covered src) n) }
  | none => pure ⟨⟩

end M

/-- PACKET_DELIVERY: the packet at the head of a channel is delivered once its stamp is covered; the stamp merges into the die clock and
the packet performs (R240). Otherwise what is missing is asked for, and the packets behind it arrive as the holding buffers take them (R243). A
flit that has been accepted before is discarded (R245). -/
def execPacketDelivery (src dst : Nat) (s : State) : Host.Outcome State Fault Refusal :=
  exec1 s (do
    M.needLink src dst
    let c := s.chan src dst
    match c.reqs with
    | [] => M.stall
    | p :: rest =>
      if c.held = 0 && c.accepted p.seq then M.modChan src dst fun c => { c with reqs := rest }
      else do
        M.acknowledge src dst
        if s.staleGen dst p.gen then M.modChan src dst (Channel.deliver · p)
        else match s.uncovered dst p.stamp (fun i => i == src) with
          | j :: _ => do
            M.modChan src dst Channel.takeIn
            if j = dst then M.push .tailExamination else M.pushCoverage dst j
            M.push (.packetDelivery src dst)
          | [] => do
            M.modChan src dst (Channel.deliver · p)
            M.noteDelivered src dst p
            M.serve src dst p)

/-- RESPONSE_RECEIVE: a response completes the access its hart waits for; an error response traps with cause 0x10, poison with 0x0E
(R239, R338, R359). -/
def execResponseReceive (src dst : Nat) (s : State) : Host.Outcome State Fault Refusal :=
  exec1 s (do
    M.need (s.alive dst)
    match (s.chan src dst).resps with
    | [] => M.stall
    | q :: rest => do
      M.modChan src dst fun c => { c with resps := rest }
      M.acknowledge src dst
      if s.staleGen dst q.gen then M.done
      match s.hartOf q.hart with
      | none => pure ⟨⟩
      | some h =>
        match h.wait with
        | .response r => do
          if r.tag ≠ q.tag then M.done
          M.focus q.hart
          M.modHart fun h => { h with wait := .none }
          match q.value with
          | some v => do
            M.mergeClk q.clk
            M.setReg r.d (loadValue r.n r.signed v.toNat)
            M.advance
          | none => do
            if q.poison then
              M.notePoison r.va r.pa true
              M.trap 0x0E r.va
            else M.trap 0x10 r.va
        | _ => pure ⟨⟩)

/-! ## Watermarks and probes (R241) -/

/-- Put a watermark on a channel: every write numbered so far has been sent ahead of it. -/
def M.sendMark {s0 : State} (src dst : Nat) : M s0 PUnit := do
  let s ← M.st
  let w : Watermark :=
    { w := clkAt (s.die src).clock src, echo := clkAt (s.die src).covered dst, gen := (s.die src).gen }
  M.modChan src dst fun c => { c with marks := c.marks ++ [w] }

/-- WATERMARK_SEND (R241). -/
def execWatermarkSend (src dst : Nat) (s : State) : Host.Outcome State Fault Refusal :=
  exec1 s (do
    M.needLink src dst
    M.sendMark src dst)

/-- The largest number that a watermark covers: the numbers below the first write still undelivered on its channel. -/
def coveredBy (reqs : List Packet) (w : BitVec 16) : BitVec 16 :=
  match reqs.find? fun p => p.num.any fun n => geClk w n with
  | some p => p.num.getD 0 - 1
  | none => w

/-- WATERMARK_RECEIVE: coverage and echo rise (R241, R242). A watermark of a generation that is neither the current one nor the one before
is discarded (R359). -/
def execWatermarkReceive (src dst : Nat) (s : State) : Host.Outcome State Fault Refusal :=
  exec1 s (do
    M.needLink src dst
    let c := s.chan src dst
    match c.marks with
    | [] => M.stall
    | w :: rest => do
      M.modChan src dst fun c => { c with marks := rest }
      M.acknowledge src dst
      if !s.staleGen dst w.gen then
        let n := coveredBy c.reqs w.w
        M.modDie dst fun d => { d with
          covered := clkPut d.covered src (maxClk (clkAt d.covered src) n),
          echo := clkPut d.echo src (maxClk (clkAt d.echo src) w.echo) })

/-- PROBE_SEND (R241). -/
def execProbeSend (src dst : Nat) (s : State) : Host.Outcome State Fault Refusal :=
  exec1 s (do
    M.needLink src dst
    M.modChan src dst fun c => { c with probes := c.probes + 1 })

/-- PROBE_RECEIVE: the probed die sends a watermark at once (R241). -/
def execProbeReceive (src dst : Nat) (s : State) : Host.Outcome State Fault Refusal :=
  exec1 s (do
    M.needLink src dst
    M.need (decide ((s.chan src dst).probes > 0))
    M.modChan src dst fun c => { c with probes := c.probes - 1 }
    M.acknowledge src dst
    M.sendMark dst src)

/-! ## Replays and links (R357, R358) -/

/-- The replays of a direction within the last millisecond (R357). -/
def recentReplays (now : Nat) (l : List Nat) : List Nat := l.filter fun t => decide (now < t + 1000000)

/-- FLIT_CRC_FAIL: a flit is dropped, and every packet that has not been acknowledged is sent again, in order (R357). (DEDUCED, log 97) -/
def execFlitCrcFail (src dst : Nat) (s : State) : Host.Outcome State Fault Refusal :=
  exec1 s (do
    M.needLink src dst
    let l := recentReplays s.time.toNat (s.chan src dst).replays ++ [s.time.toNat]
    M.modChan src dst fun c => { c with replays := l, reqs := c.reqs.take c.held ++ c.retry }
    if l.length ≥ 32 then M.push .linkRetrain)

/-- LINK_RETRAIN: a direction that has needed 32 replays within a millisecond retrains; its traffic is held (R357). -/
def execLinkRetrain (s : State) : Host.Outcome State Fault Refusal :=
  exec1 s (do
    match s.fab.chans.find? fun c => decide (c.replays.length ≥ 32) && !c.retraining with
    | none => M.stall
    | some c => M.modChan c.src c.dst fun c => { c with retraining := true, replays := [] })

/-- Traffic of a direction goes on: what waits on it is taken up again. -/
def M.resumeChannel {s0 : State} (src dst : Nat) : M s0 PUnit := do
  let c := (← M.st).chan src dst
  M.each c.reqs fun _ => M.push (.packetDelivery src dst)

/-- LINK_RETRAIN_END: the direction has trained, with a report, or the attempt has failed; four failures in a row fail the link (R356,
R357). -/
def execLinkRetrainEnd (src dst : Nat) (ok : Bool) (s : State) : Host.Outcome State Fault Refusal :=
  exec1 s (do
    let c := s.chan src dst
    M.need c.retraining
    if ok then
      M.modChan src dst fun c => { c with retraining := false, retrains := 0 }
      M.report src 0 0x0310 (dst + 256 * (c.retrains + 1))
      M.resumeChannel src dst
    else
      M.modChan src dst fun c => { c with retrains := c.retrains + 1 }
      if c.retrains + 1 ≥ 4 then M.push .linkFail)

/-- A die is to be removed, with the detection code of R356; the loss of CD0 is a module failure (R12, R358). -/
def M.failDie {s0 : State} (die code : Nat) : M s0 PUnit := do
  if die = 0 then M.push .moduleFailure
  else do
    M.modFab fun f => { f with failing := f.failing ++ [(die, code)] }
    M.push .dieRemoval

/-- LINK_FAIL: a link whose retraining has failed four times in a row has failed, and its higher-numbered die is removed (R357, R358). -/
def execLinkFail (s : State) : Host.Outcome State Fault Refusal :=
  exec1 s (do
    match s.fab.chans.find? fun c => decide (c.retrains ≥ 4) && s.alive c.src && s.alive c.dst
        && !s.fab.failing.any fun p => p.1 == max c.src c.dst with
    | none => M.stall
    | some c => M.failDie (max c.src c.dst) 1)

/-- DIE_SILENT: a die has received no flit from another for 50 µs; it is handled as a failed link (R358). -/
def execDieSilent (a b : Nat) (s : State) : Host.Outcome State Fault Refusal :=
  exec1 s (do
    M.need (a ≠ b && s.alive a && s.alive b)
    M.failDie (max a b) 2)

/-- DIE_FATAL_ERROR: a die reports a fatal error of its own (R358). -/
def execDieFatalError (die : Nat) (s : State) : Host.Outcome State Fault Refusal :=
  exec1 s (do
    M.need (s.alive die)
    M.failDie die 3)

/-! ## Removal (R359, R360, R363, R364) -/

/-- A request of a survivor is delivered although a die is lost: it depends on no write of the die that was not delivered. -/
def keepsAfterLoss (s : State) (lost : Nat) (c : Channel) (p : Packet) : Bool :=
  geClk (clkAt (s.die c.dst).covered lost) (clkAt p.stamp lost)

/-- A launch that depends on a record of a die or on a settle count of its memory. -/
def Launch.dependsOn (s : State) (lost : Nat) (l : Launch) : Bool :=
  l.deps.any fun d =>
    match d with
    | .met => false
    | .launch id => s.disp.launches.any fun k => k.id == id && k.die == lost
    | .count f _ => homeOf (f * 2 ^ 18) == lost

namespace M

variable {s0 : State}

/-- A survivor's hart that waits for the lost die gets an error response (R359). -/
def errorResponse (src : Nat) (h : Hart) (r : Remote) : M s0 PUnit := do
  let f := (← st).die h.id.did
  modChan src h.id.did (Channel.answer ·
    { gen := f.gen, seq := 0, hart := h.key, tag := r.tag, value := none, poison := false, clk := f.clock })
  push (.responseReceive src h.id.did)

/-- Steps 1 to 4 on the channels: what goes to or comes from the lost die is gone, and requests that depend on its undelivered writes
are discarded, with a report of each survivor. -/
def dropChannels (lost : Nat) : M s0 PUnit := do
  let s ← st
  let dropped (c : Channel) : List Packet := c.reqs.filter fun p => !keepsAfterLoss s lost c p
  let keep (c : Channel) (l : List Packet) : List Packet :=
    (l.filter (keepsAfterLoss s lost c)).map fun p => { p with gen := (s.die c.dst).gen }
  let rest := s.fab.chans.filter fun c => c.src ≠ lost && c.dst ≠ lost
  modFab fun f => { f with chans := rest.map fun c =>
    { c with reqs := keep c c.reqs, retry := keep c c.retry, held := (keep c (c.reqs.take c.held)).length } }
  each rest fun c =>
    each (dropped c) fun p =>
      match p.tag, s.hartOf p.hart with
      | some _, some h => match h.wait with
        | .response r => errorResponse c.dst h r
        | _ => pure ⟨⟩
      | _, _ => pure ⟨⟩
  -- accesses to the lost die, and answers of it that have not arrived
  each (s.harts.filter fun h => h.id.did ≠ lost && h.phase == .run) fun h =>
    match h.wait with
    | .response r => if homeOf r.pa = lost then errorResponse lost h r else pure ⟨⟩
    | _ => pure ⟨⟩
  each ((List.range 8).filter fun d => d ≠ lost && s.alive d) fun d => do
    let n := ((rest.filter fun c => c.dst == d).map fun c => (dropped c).length).sum
    report d 0 0x0110 (n % 2 ^ 32)

/-- What lies on the lost die is gone: its cached lines, its settles, its bank requests and reductions (R360). -/
def dropDieState (lost : Nat) : M s0 PUnit := do
  let on (la : Nat) : Bool := homeOf (64 * la) == lost
  modImg fun m => { m with
    cache := m.cache.filter fun l => !on l.addr, settling := m.settling.filter fun g => homeOf (g.frame * 2 ^ 18) ≠ lost,
    hostOrder := m.hostOrder.filter fun la => !on la }
  modPort fun p => { p with snoops := p.snoops.filter fun la => !on la }
  modBank fun b => { b with
    reqs := b.reqs.filter fun r => homeOf r.pa ≠ lost, bred := b.bred.filter fun r => r.1 ≠ lost,
    xmerge := b.xmerge.filter fun r => r.1 ≠ lost }
  -- waits on its pages start again, and then trap with cause 0x10
  each (← st).harts fun h =>
    match h.wait with
    | .swait f _ => if homeOf (f * 2 ^ 18) = lost then modOther h.key fun h => { h with wait := .none } else pure ⟨⟩
    | .renew fs =>
      if fs.any fun f => homeOf (f * 2 ^ 18) == lost then modOther h.key fun h => { h with wait := .none } else pure ⟨⟩
    | _ => pure ⟨⟩

/-- Harts of the lost die are lost; its launches and those that depend on it carry status 0x0010 (R360). -/
def dropHartsOf (lost : Nat) : M s0 PUnit := do
  let s ← st
  each (s.harts.filter fun h => h.id.did == lost) fun h => emit (.place (.free h.id.did h.id.hid))
  let gone (l : Launch) : Nat := (s.disp.gangs.filter fun g => g.die == lost && g.launch == l.id).length
  let stops (l : Launch) : Bool := l.die == lost || (l.admitted == 0 && l.dependsOn s lost)
  modDisp fun d => { d with
    gangs := d.gangs.filter fun g => g.die ≠ lost,
    launches := d.launches.map fun l => { l with retired := l.retired + gone l, stopped := l.stopped || stops l } }
  each (s.disp.launches.filter fun l => gone l ≠ 0 || stops l) fun l => launchStatus l.id 0x10
  each (s.disp.launches.filter fun l => l.die ≠ lost && stops l) fun l => freeSlot l.die l.num
  push .launchRetire

/-- Replicas on a die leave without a grace period, and replicas being made there or from there are rolled back (R363, R364). -/
def dropReplicas (lost : Nat) : M s0 PUnit := do
  let p := (← st).place
  let out := (← st).latest.entries.filter fun e => e.2.die == lost && e.2.serves
  each (p.copying.filter fun c => c.die == lost) fun c => rollback c 0x10
  modPlace fun p => { p with tails := p.tails.filter fun x => x.die ≠ lost }
  each out fun e => failReplica e.1 e.2

end M

/-- DIE_REMOVAL: the control island removes the first failing die from the fabric and raises the generation (R359, R360). (DEDUCED, log 67) -/
def execDieRemoval (s : State) : Host.Outcome State Fault Refusal :=
  exec1 s (do
    match s.fab.failing with
    | [] => M.stall
    | (lost, code) :: rest => do
      M.modFab fun f => { f with failing := rest }
      if !s.alive lost then M.done
      let gen := (s.die 0).gen + 1
      M.modDie lost fun d => { d with alive := false }
      M.modFab fun f => { f with dies := f.dies.map fun d => if d.alive then { d with gen := gen } else d }
      M.dropChannels lost
      M.report lost 0 0x0010 (gen.toNat + 256 * code)
      M.dropDieState lost
      M.dropHartsOf lost
      M.dropReplicas lost
      M.forgetEarly
      if !rest.isEmpty then M.push .dieRemoval)

namespace M

variable {s0 : State}

/-- What the memory, the settle counts and the scratchpads of a repaired die hold is not defined (R5, R361): what was there becomes free
values. (DEDUCED, log 66) -/
def loseContents (die : Nat) : M s0 PUnit := do
  let s ← st
  let on (la : Nat) : Bool := homeOf (64 * la) == die
  each (s.cells.filter fun c => homeOf c.1 == die) fun c => do emit (.cells c.1 [(← freeWord).setWidth 8])
  each (s.scratch.filter fun c => c.1 / (96 * 32 * 8192) == die) fun c => do emit (.scratch c.1 [(← freeWord).setWidth 8])
  each (s.counts.filter fun c => homeOf (c.1 * 2 ^ 18) == die) fun c => do
    let v ← freeWord
    emit (.counts (aput (← st).counts c.1 (v.setWidth 32)))
  modImg fun m => { m with
    poison := m.poison.filter fun la => !on la, spPoison := m.spPoison.filter fun w => w / (96 * 32 * 1024) ≠ die,
    badFrames := m.badFrames.filter fun f => homeOf (f * 2 ^ 18) ≠ die }

/-- The registers of a repaired die are at their reset values (R361). (DEDUCED, log 66) -/
def resetDie (die : Nat) : M s0 PUnit := do
  modDisp fun d => { d with
    queues := d.queues.filter fun q => q.q / 4096 ≠ die, slots := d.slots.filter fun p => p.1 / 64 / 4096 ≠ die,
    pool := d.pool.filter fun p => p.1 / 4096 ≠ die, last := d.last.filter fun p => p.1 / 8 ≠ die }
  modPort fun p => { p with
    monitors := p.monitors.filter fun m => m.1 / 64 ≠ die, errs := p.errs.setIfInBounds die .reset, gated := p.gated.setIfInBounds die 0 }
  modBank fun b => { b with
    bfail := b.bfail.filter fun k => k / 1024 ≠ die, macros := b.macros.filter fun m => m.1 / 8192 ≠ die }
  modTable die fun _ => .reset

end M

/-- DIE_REJOIN: a repaired die takes the entry-wise maximum of the survivors' clocks, the generation rises, and its entry takes part in
delivery again (R361). (DEDUCED, log 66) -/
def execDieRejoin (die : Nat) (s : State) : Host.Outcome State Fault Refusal :=
  exec1 s (do
    M.need (decide (die < 8) && !s.alive die && s.host.power != .failed)
    let alive := (List.range 8).filter s.alive
    let clk := alive.foldl (fun c d => clkMerge c (s.die d).clock) (s.die die).clock
    let gen := (s.die 0).gen + 1
    M.modDie die fun d => { d with
      alive := true, clock := clk,
      covered := Vector.ofFn fun i => if i.val = die then clkAt clk die else clkAt (s.die i.val).clock i.val,
      echo := Vector.ofFn fun i => clkAt (s.die i.val).covered die }
    M.modFab fun f => { f with dies := f.dies.map fun d => if d.alive then { d with gen := gen } else d }
    M.each alive fun d => M.modDie d fun x => { x with echo := clkPut x.echo die (clkAt (s.die d).clock d) }
    M.loseContents die
    M.resetDie die
    -- a publication under way starts its writes again, so that the die has its bank before its version word
    M.modPlace fun p => { p with publishing := p.publishing.map fun b => (0, b.2) }
    M.report die 0 0x0210 gen.toNat)

end Sys2Proof.Machine
end

