-- ==== Sys2Proof/Machine/EvPlace.lean ====
section
/-!
DEFINITION. The events of the placement engine: interval boundaries and the policy, new replicas, publications, the end of a grace period,
the examination of token tails (R248, R256 to R263, R363 to R366), and the retirement of a macro with its replicas (R347, R364).
-/

namespace Sys2Proof.Machine

/-! ## Interval boundaries (R248, R256) -/

/-- Harts and the placement engine run in Run, and on to their boundaries during an entry into Shuttered (R295). -/
def State.engineRuns (s : State) : Bool := s.host.power == .run || s.host.power == .entering

/-- Harts of a die admitted now. -/
def State.admittedNow (s : State) (die : Nat) : Nat :=
  (s.harts.filter fun h => h.id.did == die && h.phase == .run).length

/-- Insert a die in ascending occupancy, the lower number first on ties. -/
def insertByOcc (p : Nat × Nat) : List (Nat × Nat) → List (Nat × Nat)
  | [] => [p]
  | q :: qs => if p.2 < q.2 || (p.2 == q.2 && decide (p.1 < q.1)) then p :: q :: qs else q :: insertByOcc p qs

/-- The idle dies of the interval that ends, by occupancy: at most `idle` percent of the die's 384 harts were admitted on average. -/
def State.idleDies (s : State) (idle : Nat) : List Nat :=
  let span := s.time.toNat - s.place.occSince
  let occ (d : Nat) : Nat := if span = 0 then s.admittedNow d else (aget s.place.occ d).getD 0
  let w := if span = 0 then 1 else span
  let idleOnes := (List.range 8).filter fun d => s.alive d && decide (occ d * 100 ≤ idle * 384 * w)
  (idleOnes.foldl (fun acc d => insertByOcc (d, occ d) acc) []).map (·.1)

/-- The load of an expert over all dies in the interval that has ended. -/
def State.load (s : State) (x : Nat) : Nat := ((List.range 8).map fun d => ((aget (s.tableOf d).prev x).getD 0).toNat).sum

/-- The kind of a new replica: that of the lowest-indexed active one when it is allowed, the other allowed kind otherwise. -/
def Policy.kindFor (p : Policy) (weights : Bool) : Bool :=
  let allowed (w : Bool) : Bool := bitAt p.kinds (if w then 1 else 0)
  if allowed weights then weights else !weights

namespace M

variable {s0 : State}

/-- Start a replica of an expert on the first idle die that holds none and is not passed over, where target space is assigned. (DEDUCED, log 73) -/
def replicate (p : Policy) (x : Nat) (e : Replica) (idle : List Nat) : M s0 PUnit := do
  let s ← st
  let b := s.latest
  let holds (d : Nat) : Bool := (b.serving x).any (fun r => r.2.die == d) || s.place.copying.any fun c => c.expert == x && c.die == d
  let passed (d : Nat) : Bool := s.place.passed.any fun q => q.1 == x && q.2.1 == d
  let kind := p.kindFor e.weights
  match idle.find? fun d => !holds d && !passed d, s.freeIndex x with
  | some d, some r =>
    match takeTarget d kind e.vf e.len s.place.targets with
    | none => pure ⟨⟩
    | some (a, ts) => do
      modPlace fun q => { q with
        targets := ts,
        copying := q.copying ++ [{
          expert := x, idx := r, die := d, weights := kind, vf := e.vf, src := e.base, dst := a, len := e.len, at_ := 0 }] }
      push .replicaCopy
  | _, _ => pure ⟨⟩

/-- The policy's decision for one expert: at most one action (R256). -/
def decideExpert (p : Policy) (idle : List Nat) (x : Nat) : M s0 PUnit := do
  let s ← st
  let active := s.latest.active x
  let n := active.length
  let load := s.load x
  let old := (aget s.place.streaks x).getD (0, 0)
  let hot := if n ≠ 0 && load ≥ p.hot * n then min 255 (old.1 + 1) else 0
  let cold := if n ≠ 0 && load ≤ p.cold * n then min 255 (old.2 + 1) else 0
  modPlace fun q => { q with streaks :=
    if hot = 0 && cold = 0 then adel q.streaks x else aput q.streaks x (hot, cold) }
  match active.head?, active.getLast? with
  | some (_, first), some (r, last) =>
    if hot ≥ p.hyst && n < p.maxRep then replicate p x first idle
    else if cold ≥ p.hyst && n > 1 then drainReplica (8 * x + r) last
    else pure ⟨⟩
  | _, _ => pure ⟨⟩

end M

/-- POLICY_INTERVAL: at a 1 ms boundary the counters are copied and reset, a new policy takes effect, and the policy acts (R248, R255,
R256). (DEDUCED, log 72) -/
def execPolicyInterval (s : State) : Host.Outcome State Fault Refusal :=
  exec1 s (do
    M.need (decide (s.time.toNat / 1000000 > s.place.interval) && s.engineRuns)
    M.chargeQueues
    M.modPlace fun p => { p with
      interval := p.interval + 1, saturated := [], policy := p.nextPolicy.orElse fun _ => p.policy, nextPolicy := none,
      tables := p.tables.map fun t => { t with prev := t.cur, cur := [] } }
    let s ← M.st
    match if s.host.power == .run then s.place.policy else none with
    | none => pure ⟨⟩
    | some p => do
      let idle := s.idleDies p.idle
      M.each (List.range s.latest.experts) fun x => M.decideExpert p idle x
    M.modPlace fun p => { p with
      occ := [], occSince := s.time.toNat,
      passed := (p.passed.map fun q => (q.1, q.2.1, q.2.2 - 1)).filter fun q => decide (q.2.2 > 0) })

/-! ## New replicas (R258, R363) -/

/-- A physical piece as address and length. -/
def Span.range (s : Span) : Nat × Nat := (s.pa, s.len)

/-- The cause for which a target cannot hold the weights: a poisoned line, or a retired macro. -/
def State.targetBad (s : State) (ps : List Span) : Option Nat :=
  if ps.any fun p => regionOf p.pa == .weights && (pieceLines [p.range]).any fun la => s.retiredLine la then some 0x15
  else if (pieceLines (ps.map Span.range)).any fun la => s.livePoison la || s.arrayPoison la then some 0x0E
  else none

namespace M

variable {s0 : State}

/-- Give a replica up; what lies in its target is not defined (R363). -/
def giveUp (c : Copying) (ps : List Span) (reason : Nat) : M s0 PUnit := do
  each ps fun p => do storeLive p.pa (← freeBytes p.len) p.path p.ww none none
  rollback c reason

/-- Change a replica that is being made. -/
def modCopying (c : Copying) (f : Copying → Copying) : M s0 PUnit :=
  modPlace fun p => { p with copying := p.copying.map fun k => if k.expert = c.expert && k.idx = c.idx then f k else k }

/-- The copy of a replica has ended: the settle of its target starts (R258). -/
def settleReplica (c : Copying) (dst : List Span) : M s0 PUnit := do
  modCopying c fun k => { k with at_ := k.len }
  each (pieceFrames (dst.map Span.range)) fun f => startSettle f false

/-- Step 2 of R258, page by page, and the start of step 3: the engine of the source die copies the next piece. (DEDUCED, log 73) -/
def copyReplica (c : Copying) : M s0 PUnit := do
  match ← wholeRange c.vf .load c.src c.len, ← wholeRange c.vf .store c.dst c.len with
  | .error e, _ => rollback c e.toNat
  | _, .error e => rollback c e.toNat
  | .ok src, .ok dst => do
    let s ← st
    match s.targetBad dst with
    | some 0x15 => giveUp c dst 0x15
    | _ =>
      match firstChunk (dropSpans c.at_ src) (dropSpans c.at_ dst) with
      | none => settleReplica c dst
      | some (a, b) =>
        if (s.firstPoison a.pa a.len).isSome then giveUp c dst 0x0E
        else do
          dieReadyFor b.lines (homeOf a.pa) (homeOf b.pa) .replicaCopy
          copyChunk (homeOf a.pa) a b
          if c.at_ + a.len ≥ c.len then settleReplica c dst else modCopying c fun k => { k with at_ := k.at_ + a.len }

/-- Step 4 of R258: the settle of the target has ended. -/
def finishReplica (c : Copying) (dst : List Span) : M s0 PUnit := do
  match (← st).targetBad dst with
  | some r => giveUp c dst r
  | none => do
    modPlace fun p => { p with copying := p.copying.filter fun k => !(k.expert == c.expert && k.idx == c.idx) }
    modPlace fun p => { p with pendingX := max p.pendingX (c.expert + 1) }
    changeEntry (8 * c.expert + c.idx)
      { base := c.dst, die := c.die, weights := c.weights, state := 1, len := c.len, vf := c.vf }

/-- The first copied replica whose target has settled. -/
def settledReplica : List Copying → M s0 (Option (Copying × Except (BitVec 8) (List Span)))
  | [] => return none
  | c :: cs => do
    let dst ← wholeRange c.vf .store c.dst c.len
    match dst with
    | .error _ => return some (c, dst)
    | .ok ps => if ← settlingAny (pieceFrames (ps.map Span.range)) then settledReplica cs else return some (c, dst)

end M

/-- REPLICA_COPY: the first replica that is being made is copied to its target, or published once its target has settled (R258, R363). -/
def execReplicaCopy (s : State) : Host.Outcome State Fault Refusal :=
  exec1 s (do
    M.need s.engineRuns
    match s.place.copying.find? fun c => decide (c.at_ < c.len) with
    | some c => M.copyReplica c
    | none =>
      match ← M.settledReplica s.place.copying with
      | none => M.stall
      | some (c, .error e) => M.rollback c e.toNat
      | some (c, .ok dst) => M.finishReplica c dst
    if !(← M.st).place.copying.isEmpty then M.push .replicaCopy)

/-! ## Publication and the grace period (R257, R259) -/

/-- The bank of the next version. -/
def State.nextBank (s : State) : Bank :=
  let b := s.current
  let seed := s.place.policy.elim b.seedTable (·.seedTable)
  ({ b with version := b.version + 1, experts := max b.experts s.place.pendingX, seedTable := seed }).put s.place.pending

/-- The die of write n of a publication: banks on CD1 to CD7 and CD0, then version words on CD1 to CD7 and CD0. -/
def publishDie (n : Nat) : Nat := (n + 1) % 8

/-- Write n of a publication on a die. -/
def DieTable.publish (t : DieTable) (n : Nat) (b : Bank) : DieTable :=
  if n < 8 then (if b.version.getLsbD 0 then { t with bank1 := b } else { t with bank0 := b })
  else { t with version := b.version }

/-- The version word of CD0 has performed: the journal entry, and grace periods begin. -/
def M.published {s0 : State} (b : Bank) : M s0 PUnit := do
  M.journal 0x0007 0 0 0xFFFF 0 0 b.version.toNat
  let now := (← M.st).time.toNat
  M.modPlace fun p => { p with
    publishing := none,
    draining := (b.entries.filter fun e => e.2.state == 2).map fun e =>
      (e.1, (aget p.draining e.1).getD now) }
  if (← M.st).place.pending.isEmpty then pure ⟨⟩ else M.push .versionPublish

/-- VERSION_PUBLISH: the next write of a publication; a die that has been removed is skipped (R257, R363). (DEDUCED, log 75) -/
def execVersionPublish (s : State) : Host.Outcome State Fault Refusal :=
  exec1 s (do
    M.need s.engineRuns
    match s.place.publishing with
    | none => do
      M.need (!s.place.pending.isEmpty || decide (s.place.pendingX > s.current.experts))
      let b := s.nextBank
      M.modPlace fun p => { p with publishing := some (0, b), pending := [], pendingX := 0 }
      M.push .versionPublish
    | some (n, b) => do
      let d := publishDie n
      if s.alive d then do
        M.dieReady 0 d .versionPublish
        let _ ← M.dieNumber 0 d
        M.modTable d fun t => t.publish n b
      else pure ⟨⟩
      if n ≥ 15 then M.published b
      else do
        M.modPlace fun p => { p with publishing := some (n + 1, b) }
        M.push .versionPublish)

/-- The entry of a key, draining until now, is retired in a bank. -/
def Bank.retire (b : Bank) (key : Nat) : Bank :=
  let e := b.at key
  if e.state = 2 then b.put [(key, { e with state := 3 })] else b

/-- The entry of a key is retired in the current bank of a die. -/
def DieTable.retire (t : DieTable) (key : Nat) : DieTable :=
  if t.version.getLsbD 0 then { t with bank1 := t.bank1.retire key } else { t with bank0 := t.bank0.retire key }

/-- GRACE_PERIOD_END: 200 µs after its version was published, a draining replica is retired in the current bank of every die, without a new
version, and its range is free (R259). A publication under way ends first. (DEDUCED, log 76) -/
def execGracePeriodEnd (x r : Nat) (s : State) : Host.Outcome State Fault Refusal :=
  exec1 s (do
    let key := 8 * x + r
    match aget s.place.draining key with
    | none => M.stall
    | some t => do
      M.need (s.engineRuns && r < 8 && decide (s.time.toNat ≥ t + 200000) && s.place.publishing.isNone)
      let dies := (List.range 8).filter s.alive
      M.each dies fun d => M.dieReadyFor dies.length 0 d (.gracePeriodEnd x r)
      M.each dies fun d => do
        let _ ← M.dieNumber 0 d
        M.modTable d (DieTable.retire · key)
      let e := s.latest.at key
      M.modPlace fun p => { p with draining := adel p.draining key }
      M.freeTarget e.die e.vf e.base)

/-! ## Token tails (R261 to R263, R365) -/

/-- The slots that a tail store newly covers (R263). -/
def coveredSlots (old new : Word) : List Nat :=
  let d := (new - old).toNat
  if d ≥ 2 ^ 63 then []
  else
    let n := min d 512
    (List.range n).map fun i => (new - BitVec.ofNat 64 n + BitVec.ofNat 64 i).toNat % 512

/-- The tail of a lane with the stores that are held. -/
def State.laneTail (s : State) (die lane inbox : Nat) : Word := BitVec.ofNat 64 (ofBytes (s.tailBytes die lane (inbox + 64 * lane)))

/-- The held tail store that is taken up: the first of a lane whose own posts have all performed; where every lane waits, the first of all
(R263). (DEDUCED, log 79) -/
def State.nextTail (s : State) : Option TailStore :=
  let ts := s.place.tails
  let first (t : TailStore) : Bool := (s.heldTails t.die t.src).head? == some t
  let waits (t : TailStore) : Bool := ts.any fun k => k.post == some (t.die, t.src)
  (ts.find? fun t => first t && !waits t).orElse fun _ => ts.head?

/-- The address of a slot. -/
def slotPa (inbox lane i : Nat) : Nat := inbox + 4096 + 256 * (512 * lane + i)

/-- The later of two versions on their low 24 bits (R260). -/
def laterVersion (word own : Nat) : Nat := if (word + 2 ^ 24 - own) % 2 ^ 24 < 2 ^ 23 then word else own

/-- What a tail examination does with one slot. -/
inductive SlotCase where
  | skip
  | serve (draining : Bool)
  /-- served with this routing word -/
  | rewrite (word : Nat)
  /-- served with the none word, and reported -/
  | noReplica (word : Nat)
  | redirect (word target inbox : Nat)
  deriving DecidableEq, Repr

/-- The case of a slot of a die's inbox. (DEDUCED, log 78) -/
def State.slotCase (s : State) (die pa : Nat) : SlotCase :=
  let b (lo n : Nat) : Nat := s.liveVal (pa + lo) n
  if (s.firstPoison pa 256).isSome then .skip
  else if b 6 1 ≠ 1 && b 6 1 ≠ 3 then .skip
  else
    let w := b 0 4
    let x := b 4 2
    let t := s.tableOf die
    let u := laterVersion (w / 256) (t.version.toNat % 2 ^ 24)
    let bank := if u % 2 = 1 then t.bank1 else t.bank0
    let e := bank.at (8 * x + bits w 5 3)
    if !bitAt w 7 && e.serves && e.die = die then .serve (e.state == 2)
    else
      let new := bank.route u x (BitVec.ofNat 64 (b 8 8))
      let target := new % 8
      if bitAt new 7 then .noReplica new
      else if target = die then .rewrite new
      else match (s.tableOf target).inbox with
        | none => .noReplica (u * 256 + 0x80)
        | some inbox => if s.alive target then .redirect new target inbox else .noReplica (u * 256 + 0x80)

namespace M

variable {s0 : State}

/-- Tail stores of a lane go behind those of other lanes, in their order. (DEDUCED, log 79) -/
def rotateTails (die src : Nat) : M s0 PUnit :=
  modPlace fun p =>
    let mine (t : TailStore) : Bool := t.die == die && t.src == src
    { p with tails := (p.tails.filter fun t => !mine t) ++ p.tails.filter mine }

/-- Examine one slot (R263, R365): answers whether it was redirected. The step ends before it where a lane is full or a write of the die
cannot be delivered yet. -/
def examineSlot (t : TailStore) (pa : Nat) : M s0 Bool := do
  let die := t.die
  match (← st).slotCase die pa with
  | .skip => return false
  | .serve draining => do
    if draining then modTable die fun t => { t with grace := t.grace + 1 }
    return false
  | .rewrite w => do
    dieMayWrite 1 die die true .tailExamination
    dieStore die pa (toBytes 4 w)
    return false
  | .noReplica w => do
    dieMayWrite 1 die die true .tailExamination
    let x := (← st).liveVal (pa + 4) 2
    let tok := (← st).liveVal (pa + 8) 8
    dieStore die pa (toBytes 4 w)
    report die 0 0x0211 (x + tok % 2 ^ 32 * 2 ^ 16)
    return false
  | .redirect w target inbox => do
    dieMayWrite 3 die target true .tailExamination
    let s ← st
    let tail := s.laneTail target die inbox
    let head := BitVec.ofNat 64 (s.liveVal (inbox + 512 + 64 * die) 8)
    if (tail - head).toNat ≥ 512 then do
      rotateTails die t.src
      done
    let bs := s.liveBytes pa 256 true
    let copy := toBytes 4 w ++ (bs.drop 4).take 2 ++ [3] ++ bs.drop 7
    dieStore die (slotPa inbox die (tail.toNat % 512)) copy
    -- the post is a store to a registered tail word itself
    let n ← dieNumber die target
    holdTail { die := target, src := die, off := 0, bytes := toBytes 8 (tail + 1).toNat, done := 0, writer := none,
               num := some (die, n), post := some (die, t.src) }
    dieStore die (pa + 6) [2]
    modTable die fun t => { t with redirect := t.redirect + 1 }
    return true

/-- Examine the slots of a held tail store that remain, up to the first that is redirected: answers whether none remains. -/
def examineSlots (t : TailStore) (inbox : Nat) : List Nat → M s0 Bool
  | [] => return true
  | i :: is => do
    let moved ← examineSlot t (slotPa inbox t.src i)
    let mine (k : TailStore) : Bool := k.die == t.die && k.src == t.src
    let more (k : TailStore) : TailStore := { k with done := k.done + 1 }
    modPlace fun p => { p with tails := changeFirst mine more p.tails }
    if moved then return false else examineSlots t inbox is

end M

/-- TAIL_EXAMINATION: the slots that a held tail store newly covers are examined, served or redirected, and once every write of the examination
has performed the store itself performs (R263, R365). -/
def execTailExamination (s : State) : Host.Outcome State Fault Refusal :=
  exec1 s (do
    match s.nextTail with
    | none => M.stall
    | some t => do
      let mine (k : TailStore) : Bool := k.die == t.die && k.src == t.src
      match (s.tableOf t.die).inbox with
      | none => M.modPlace fun p => { p with tails := dropFirst mine p.tails }
      | some inbox => do
        let pa := inbox + 64 * t.src
        let bs := s.liveBytes pa 8 false
        let slots := if (s.firstPoison pa 8).isSome then []
          else coveredSlots (BitVec.ofNat 64 (ofBytes bs)) (BitVec.ofNat 64 (ofBytes (t.onto bs)))
        if ← M.examineSlots t inbox (slots.drop t.done) then
          M.modPlace fun p => { p with tails := dropFirst mine p.tails }
          M.storeLive (pa + t.off) t.bytes .engine true t.writer t.num
      if (← M.st).place.tails.isEmpty then pure ⟨⟩ else M.push .tailExamination)

/-! ## Retired macros (R347, R364) -/

/-- A weight replica in service whose range meets a macro. -/
def M.usesMacro {s0 : State} (die m : Nat) (e : Replica) : M s0 Bool := do
  if !(e.weights && e.die = die && e.serves) then return false
  match ← M.wholeRange e.vf .load e.base e.len with
  | .error _ => return false
  | .ok ps => return ps.any fun p => rangesMeet p.pa p.len (die * 2 ^ 45 + 0x5000000000 + m * 32768) 32768

/-- MACRO_RETIRE: a macro is retired and reported, and the replicas whose weights use it leave service (R347, R364). Unless its
calibrations failed, the reason may be an uncorrectable error, which the error registers count. (DEDUCED, log 71) -/
def execMacroRetire (die m : Nat) (s : State) : Host.Outcome State Fault Refusal :=
  exec1 s (do
    let k := die * 8192 + m
    let x := s.macroAt k
    M.need (macroExists die m && !x.retired)
    if x.fails < 3 then
      if ← M.freeBool then M.noteError die 6 (die * 2 ^ 45 + 0x5000000000 + m * 32768)
    M.modMacro k fun x => { x with retired := true, announced := none, window := false }
    M.report die 0 0x0015 m
    M.each s.latest.entries fun e => do
      if ← M.usesMacro die m e.2 then M.failReplica e.1 e.2 else pure ⟨⟩)

end Sys2Proof.Machine
end

