-- ==== Sys2Proof/Machine/EvHost.lean ====
section
/-!
DEFINITION. The events of the host port: CXL.mem accesses and peers' atomics (R285 to R287), SPDM and firmware (R298), device registers
(R288 to R291, R340, R378), monitors (R299), the CXL link (R367), and the host command ring (R292, R372, R383).
-/

namespace Sys2Proof.Machine

/-- One member of a vector changed. -/
def vmodify {α : Type} {n : Nat} (v : Vector α n) (i : Nat) (f : α → α) : Vector α n :=
  v.mapIdx fun j a => if j = i then f a else a

/-! ## CXL.mem (R284 to R287, R368) -/

/-- A range of 1 to 64 bytes inside one line of the 2^48 bytes that the decoder covers. -/
def hostRange (pa n : Nat) : Bool := decide (1 ≤ n) && decide (pa % 64 + n ≤ 64) && decide (pa + n ≤ 2 ^ 48)

namespace M

variable {s0 : State}

/-- The host-line directory of a line's die has no entry for it and no room (R286). -/
def directoryFull (la : Nat) : M s0 Bool := do
  let order := (← st).img.hostOrder
  return !order.contains la && decide ((order.filter fun a => homeOf (64 * a) == homeOf (64 * la)).length ≥ 1048576)

/-- The host keeps a copy of a line, and the directory of the line's die tracks it; a full directory recalls its oldest entry first (R286). -/
def hostHolds (la : Nat) : M s0 PUnit := do
  if ← directoryFull la then push .hostDirectoryRecall
  else do
    fillLine la .host true
    modImg fun m => { m with
      cache := m.cache.map fun l => if l.addr = la then { l with level := .host } else l,
      hostOrder := (m.hostOrder.filter (· ≠ la)) ++ [la] }

/-- An access of the host with a clock waits at its home until that is covered there (R224, R240). -/
def hostCovered (home : Nat) (c : Clock) (again : Instr) : M s0 PUnit := do
  match (← st).uncovered home c (fun _ => false) with
  | [] => pure ⟨⟩
  | j :: _ => do
    if j = home then push .tailExamination else pushCoverage home j
    push again
    done

/-- The host has learned what a home die knows (R224). -/
def hostLearns (home : Nat) : M s0 PUnit := do
  let c := ((← st).die home).clock
  modPort fun p => { p with clk := clkMerge p.clk c }

/-- What the host's read gives. -/
def hostAnswer (bs : List Byte) (poison : Bool) : M s0 PUnit := modPort fun p => { p with hostData := bs, hostPoison := poison }

end M

/-- HOST_MEM_READ: the host or a peer reads device memory at the home slice, after what the host knows (R224); any other offset reads as poison
(R285, R337). Whether the host's caches keep a copy of the line is the host's choice. (DEDUCED, log 65) -/
def execHostMemRead (pa n : Nat) (s : State) : Host.Outcome State Fault Refusal :=
  exec1 s (do
    M.need (s.hostServed && hostRange pa n)
    if !isHostMem pa || !s.alive (homeOf pa) then M.hostAnswer [] true
    else do
      M.hostCovered (homeOf pa) s.host.clk (.hostMemRead pa n)
      match ← M.readHome pa n .ofHost true with
      | none => M.hostAnswer [] true
      | some bs => do
        M.hostLearns (homeOf pa)
        if ← M.freeBool then M.hostHolds (pa / 64)
        M.hostAnswer bs false)

/-- HOST_MEM_WRITE: the host or a peer writes device memory at the home slice, or keeps the written line in its caches; the home learns what the
host knows (R224). Data marked as poison poisons its line, and a write to any other offset is discarded (R285, R286, R368). -/
def execHostMemWrite (pa : Nat) (bytes : List Byte) (poison hold : Bool) (s : State) : Host.Outcome State Fault Refusal :=
  exec1 s (do
    M.need (s.hostServed && hostRange pa bytes.length)
    if !isHostMem pa || !s.alive (homeOf pa) then pure ⟨⟩
    else do
      M.hostCovered (homeOf pa) s.host.clk (.hostMemWrite pa bytes poison hold)
      if hold && !poison then
        if ← M.directoryFull (pa / 64) then
          M.push .hostDirectoryRecall
          M.push (.hostMemWrite pa bytes poison hold)
          M.done
      M.learnAt (homeOf pa) s.host.clk
      if poison then do
        M.openLine (pa / 64) .ofHost true
        if (findLine (← M.st).img.cache (pa / 64)).isSome then
          M.modImg fun m => { m with cache := m.cache.map fun l => if l.addr = pa / 64 then { l with poison := true } else l }
        else M.setArrayPoison (pa / 64) true
      else do
        M.performStore pa bytes .ofHost true none none
        if hold then M.hostHolds (pa / 64))

/-- PEER_ATOMIC: a peer's system-scope atomic is performed at the home slice as a `.sc` atomic, in the total order of R95 (R287). -/
def execPeerAtomic (op : BitVec 4) (dw : Bool) (pa : Nat) (v cmp : Word) (s : State) : Host.Outcome State Fault Refusal :=
  exec1 s (do
    let n := if dw then 8 else 4
    M.need (s.hostServed && hostRange pa n && decide (pa % n = 0) && decide (op.toNat ≤ 9))
    if !isHostMem pa || !s.alive (homeOf pa) then M.hostAnswer [] true
    else do
      let home := homeOf pa
      match s.scFlying with
      | some c => do
        M.push (.packetDelivery c.src c.dst)
        M.push (.peerAtomic op dw pa v cmp)
        M.done
      | none => pure ⟨⟩
      let clk := M.scClock true s.host.clk s
      M.hostCovered home clk (.peerAtomic op dw pa v cmp)
      M.learnAt home clk
      match ← M.atomicHome pa op.toNat n v.toNat cmp.toNat .ofHost true none none with
      | none => M.hostAnswer [] true
      | some old => do
        M.hostLearns home
        M.noteSc true (clkMerge clk ((← M.st).die home).clock)
        M.hostAnswer (toBytes n old) false)

/-! ## SPDM and firmware (R298) -/

/-- The VF and queue registers as one number. -/
def State.registerFile (s : State) : Nat :=
  let vfs := (List.range 64).map fun v => s.vfReg v 0
  let queues := s.disp.queues.map fun q => s.queueReg (q.q / 4096) (q.q % 4096) + 2 ^ 64 * q.q
  (vfs ++ queues).foldl (fun acc v => acc * 2 ^ 80 + v) 1

/-- The fuse settings as one number: the rollback counter and the digest of the signing key. -/
def HostPort.fuses (p : HostPort) : Nat := p.fuseKey.toNat + 2 ^ 512 * p.rollback

/-- SPDM_REQUEST: the PF answers with the measurement of an index, signed (R298). -/
def execSpdmRequest (index : Nat) (s : State) : Host.Outcome State Fault Refusal :=
  exec1 s (do
    M.need (s.hostServed && decide (1 ≤ index) && decide (index ≤ 4))
    let v := match index with
      | 1 => Config.measurement 1 0
      | 2 => s.host.fwDigest
      | 3 => Config.measurement 3 s.registerFile
      | _ => Config.measurement 4 s.host.fuses
    M.modPort fun p => { p with spdm := v, spdmSig := Config.spdmSign index v })

/-- FIRMWARE_BOOT: the boot ROM accepts an image with a valid signature over its digest by a key whose digest is in the fuses, and a version that
is not below the rollback counter (R298). -/
def execFirmwareBoot (key sig version : Nat) (digest : BitVec 512) (s : State) : Host.Outcome State Fault Refusal :=
  exec1 s (do
    if Config.ecdsaOk key digest sig && Config.sha512 key == s.host.fuseKey && decide (version ≥ s.host.rollback) then
      M.modPort fun p => { p with fwVersion := version, fwDigest := digest })

/-! ## Device registers (R289 to R291, R340, R378) -/

/-- QUEUE_BIND: a write to a queue register binds or unbinds a queue; while the queue is busy it is ignored; both are reported (R290). -/
def execQueueBind (die j : Nat) (v : Word) (s : State) : Host.Outcome State Fault Refusal :=
  exec1 s (do
    M.need (decide (die < 8) && decide (j < 4096) && s.alive die && s.host.power != .failed)
    let q := 4096 * die + j
    let vf := v.toNat % 64
    let bound := v.getLsbD 63
    let shown := if bound then vf else 0xFFFF
    if (s.queueOf q).busy.isEmpty then do
      M.modQueue q fun x => { x with vf := if bound then some vf else none, field := vf }
      M.journal 0x000A die (if bound then vf else 0) q 0 0 shown
    else M.journal 0x000A die (if bound then vf else 0) q 0 3 shown)

namespace M

variable {s0 : State}

/-- Change a key slot. -/
def modKey (t : Nat) (f : KeySlot → KeySlot) : M s0 PUnit :=
  modPort fun p => { p with keys := p.keys.setIfInBounds t (f (p.keys.toList.getD t { key := 0, loaded := none })) }

/-- Change a monitor. -/
def modMonitor (k : Nat) (f : Monitor → Monitor) : M s0 PUnit :=
  modPort fun p => { p with monitors := aput p.monitors k (f ((aget p.monitors k).getD .reset)) }

end M

/-- KEY_LOAD: the key pair is installed on every die; a slot that holds a key keeps it (R290). -/
def execKeyLoad (slot : Nat) (s : State) : Host.Outcome State Fault Refusal :=
  exec1 s (do
    M.need (decide (slot < 64) && s.host.power != .failed)
    if s.hasKey slot then pure ⟨⟩ else M.modKey slot fun k => { k with loaded := some k.key })

/-- KEY_DROP: the slot is discarded with every cellar line under its key, dirty or not (R200, R290). (DEDUCED, log 86) -/
def execKeyDrop (slot : Nat) (s : State) : Host.Outcome State Fault Refusal :=
  exec1 s (do
    M.need (decide (slot < 64) && s.host.power != .failed)
    M.modKey slot fun k => { k with loaded := none }
    M.each (s.img.cache.filter fun l => l.level == .l3 && l.key == some slot) fun l => do
      M.modImg fun m => { m with cache := delLine m.cache l.addr }
      M.noteHit (64 * l.addr) 64 none)

/-- VF_DISABLE: EN is cleared, and every gang of the virtual function is pre-empted (R317). -/
def execVfDisable (vf : Nat) (s : State) : Host.Outcome State Fault Refusal :=
  exec1 s (do
    M.need (decide (vf < 64) && s.vfEnabled vf)
    M.chargeQueues
    M.modPort fun p => { p with vfs := vmodify p.vfs vf fun f => { f with en := false } }
    M.each (s.disp.gangs.filter fun g => g.phase == .run) fun g =>
      match s.disp.launches.find? fun l => l.id == g.launch with
      | none => pure ⟨⟩
      | some l => if recVf l.record = vf then M.preemptGang g.die g.gid 1 else pure ⟨⟩)

/-- The writable bits of the shootdown register. -/
def shootMask : Word := BitVec.ofNat 64 (2 ^ 62 + 63 * 2 ^ 56 + (2 ^ 36 - 1) * 2 ^ 18 + 3)

/-- SHOOTDOWN_GO: GO is written as 1 and reads 1 until the shootdown is complete (R291). -/
def execShootdownGo (v : Word) (s : State) : Host.Outcome State Fault Refusal :=
  exec1 s (do
    M.need (!s.host.shoot.getLsbD 0 && s.host.power != .failed)
    M.modPort fun p => { p with shoot := (v &&& shootMask) ||| 1 }
    M.push .shootdownComplete)

/-- A cached translation that a shootdown drops: of the page that holds the address, whatever its size. -/
def shotDown (w : Word) (t : TlbEntry) : Bool :=
  let pages := (t.leaf.elim (2 ^ 18) (·.size)) / 2 ^ 18
  (w.getLsbD 62 || decide (t.vf = bits w.toNat 61 56)) && (w.getLsbD 1 || decide (t.page / pages = bits w.toNat 53 18 / pages))

/-- A reduction has still to read or write an address that a test accepts. -/
def Reduction.touches (r : Reduction) (p : Nat → Bool) : Bool :=
  (r.dst :: r.srcs).any (fun l => l.any fun q => p q.1) || r.flagPa.any p
    || r.copies.any fun c => (c.1 ++ c.2).any fun q => p q.pa

/-- SHOOTDOWN_COMPLETE: every access that used a matching entry has performed; the entries are dropped, GO returns to 0, and context walks
that a page fault stopped are tried again (R291, R316, R335). -/
def execShootdownComplete (s : State) : Host.Outcome State Fault Refusal :=
  exec1 s (do
    let w := s.host.shoot
    M.need (w.getLsbD 0)
    let old := s.img.tlb.filter (shotDown w)
    let inside (pa : Nat) : Bool := old.any fun t => t.leaf.any fun l => decide (l.base ≤ pa) && decide (pa < l.base + l.size)
    M.need !(s.fab.chans.any fun c => c.reqs.any fun p => inside p.pa)
    M.need !(s.place.tails.any fun t => t.writer.isSome && (s.tableOf t.die).inbox.any fun b => inside (b + 64 * t.src))
    M.need !(s.bank.reqs.any fun r => !r.det && inside r.pa)
    M.need !((s.bank.bred ++ s.bank.xmerge).any fun r => r.2.touches inside)
    M.modImg fun m => { m with tlb := m.tlb.filter fun t => !shotDown w t }
    M.modPort fun p => { p with shoot := p.shoot &&& ~~~(1 : Word) }
    if s.harts.any fun h => (match h.phase with | .saving _ => true | _ => false) then M.push .contextWalkRetry)

/-! ## Monitors (R299, R378) -/

/-- MONITOR_CLEAR: CLR resets the capture (R299). -/
def execMonitorClear (die i : Nat) (s : State) : Host.Outcome State Fault Refusal :=
  exec1 s (do
    M.need (decide (die < 8) && decide (i < 64))
    M.modMonitor (die * 64 + i) fun m => { m with
      min := BitVec.allOnes 64, max := 0, count := 0, sum := 0, bins := Vector.replicate 16 0 })

/-- Saturating addition of 64-bit counters. -/
def satAdd (a : Word) (n : Nat) : Word := BitVec.ofNat 64 (min (a.toNat + n) (2 ^ 64 - 1))

/-- The bin of a sample: 0 below BASE, i from BASE × 2^(i − 1) up to BASE × 2^i, 15 beyond (R299). -/
def monitorBin (base v : Nat) : Nat :=
  let b := if base = 0 then 1 else base
  ((List.range 15).find? fun i => decide (v < b * 2 ^ i)).getD 15

/-- A sample in the capture of a monitor. -/
def Monitor.take (m : Monitor) (v : Nat) : Monitor :=
  let w := BitVec.ofNat 64 v
  let b := monitorBin (bits m.ctl.toNat 47 16) v
  { m with
    min := if v < m.min.toNat then w else m.min, max := if v > m.max.toNat then w else m.max,
    count := satAdd m.count 1, sum := satAdd m.sum v, bins := vmodify m.bins b (satAdd · 1) }

/-- MONITOR_SAMPLE: an enabled monitor takes a sample of its source, and fires its alarm where the sample exceeds THRESH (R299, R378). (DEDUCED, log 90) -/
def execMonitorSample (die i v : Nat) (s : State) : Host.Outcome State Fault Refusal :=
  exec1 s (do
    let k := die * 64 + i
    let m := (aget s.host.monitors k).getD .reset
    let src := bits m.ctl.toNat 7 0
    M.need (decide (die < 8) && decide (i < 64) && s.alive die && m.ctl.getLsbD 63 && decide (1 ≤ src) && decide (src ≤ 8)
      && decide (v < 2 ^ 64))
    M.modMonitor k fun m => m.take v
    if m.aen && !m.fired && decide (v > m.thresh.toNat) then do
      M.modMonitor k fun m => { m with fired := true }
      M.report die 0 0x0020 (i + 256 * src + 2 ^ 16 * (v % 2 ^ 32)))

/-! ## Writes to registers without a row of their own -/

/-- Bytes written over part of an 8-byte register. -/
def mergeReg (old : Word) (lo n : Nat) (v : Word) : Word :=
  let mask := BitVec.ofNat 64 ((2 ^ (8 * n) - 1) * 2 ^ (8 * lo))
  (old &&& ~~~mask) ||| ((v <<< (8 * lo)) &&& mask)

/-- The bits among some that are written as 1. -/
def writtenBit (lo n : Nat) (v : Word) (b : Nat) : Bool := (mergeReg 0 lo n v).getLsbD b

/-- Some bits of a word, the rest 0. -/
def keepBits (hi lo : Nat) (v : Word) : Nat := bits v.toNat hi lo * 2 ^ lo

namespace M

variable {s0 : State}

/-- Monitors and error registers of a die (R299, R340, R378): offset o of die control. -/
def writeDieControl (die o lo n : Nat) (v : Word) : M s0 PUnit := do
  if o = 0x8010 then
    if writtenBit lo n v 63 then modPort fun p => { p with errs := vmodify p.errs die fun e => { e with uev := false } } else pure ⟨⟩
  else if 0x4000 ≤ o && o < 0x8000 then
    let k := die * 64 + (o - 0x4000) / 256
    match o % 256 with
    | 0 => do
      modMonitor k fun m => { m with ctl := mergeReg m.ctl lo n v &&& 0x8FFFFFFFFFFF00FF }
      if writtenBit lo n v 62 then push (.monitorClear die ((o - 0x4000) / 256)) else pure ⟨⟩
    | 0x28 => modMonitor k fun m => { m with thresh := mergeReg m.thresh lo n v }
    | 0x30 =>
      if lo = 0 then modMonitor k fun m => { m with
        fired := m.fired && !writtenBit lo n v 0, aen := writtenBit lo n v 1 }
      else pure ⟨⟩
    | _ => pure ⟨⟩
  else pure ⟨⟩

/-- A VF register (R290). -/
def writeVf (vf lo n : Nat) (v : Word) : M s0 PUnit := do
  let s ← st
  let old := BitVec.ofNat 64 (s.vfReg vf 0)
  let new := mergeReg old lo n v
  modPort fun p => { p with vfs := vmodify p.vfs vf fun f => { f with
    en := f.en || new.getLsbD 63, root := keepBits 47 15 new, tkey := bits new.toNat 5 0 } }
  if old.getLsbD 63 && !new.getLsbD 63 then push (.vfDisable vf) else pure ⟨⟩

/-- A key slot (R290): DROP takes effect before LOAD. (DEDUCED, log 85) -/
def writeKey (t o lo n : Nat) (v : Word) : M s0 PUnit := do
  if o < 64 then
    let i := 8 * (o + lo)
    let mask := BitVec.ofNat 512 ((2 ^ (8 * n) - 1) * 2 ^ i)
    modKey t fun k => { k with key := (k.key &&& ~~~mask) ||| ((v.setWidth 512 <<< i) &&& mask) }
  else if o = 64 then do
    if writtenBit lo n v 1 then push (.keyDrop t) else pure ⟨⟩
    if writtenBit lo n v 0 then push (.keyLoad t) else pure ⟨⟩
  else pure ⟨⟩

/-- A module control register (R291). (DEDUCED, log 87) -/
def writeControl (o lo n : Nat) (v : Word) : M s0 PUnit := do
  let p := (← st).host
  let word (old : Nat) : Word := mergeReg (BitVec.ofNat 64 old) lo n v
  if o = 0x00 then
    if p.shoot.getLsbD 0 then pure ⟨⟩
    else
      let new := mergeReg p.shoot lo n v
      if new.getLsbD 0 then push (.shootdownGo new) else modPort fun p => { p with shoot := new &&& shootMask }
  else if o = 0x08 then (if writtenBit lo n v 4 then push .shutterEnterWrite else pure ⟨⟩)
  else if o = 0x10 then modPort fun p => { p with jbase := keepBits 47 21 (word p.jbase) }
  else if o = 0x20 then modPort fun p => { p with hcbase := keepBits 47 16 (word p.hcbase) }
  else if o = 0x28 then modPort fun p => { p with hctail := bits (word p.hctail).toNat 9 0 }
  else pure ⟨⟩

/-- Bytes of the launch window through a function (R271, R289): a non-zero byte 127 fires the latch of a free slot. -/
def writeWindow (fn die o : Nat) (bytes : List Byte) : M s0 PUnit := do
  let q := o / 8192
  let k := o / 128 % 64
  let off := o % 128
  let queue := (← st).queueOf (4096 * die + q)
  if queue.locked k || !queue.openTo fn then pure ⟨⟩
  else do
    writeSlot die q k off bytes
    if decide (off + bytes.length = 128) && (bytes.getLast? != some 0) then do
      modQueue (4096 * die + q) fun x => { x with latched := x.latched ++ [k] }
      acceptLatched (4096 * die + q) 64
    else pure ⟨⟩

end M

/-- REGISTER_WRITE: a function writes 1 to 8 bytes inside an aligned 8 bytes of the device area: 64 the PF, a virtual function or a hart of it, 65
an engine. Outside the launch window only the PF writes (R288); read-only bits, reserved offsets and the table window discard what is written (R3,
R250, R289 to R291). (DEDUCED, log 70) (DEDUCED, log 89) -/
def execRegisterWrite (p : Through) (n : Nat) (v : Word) (s : State) : Host.Outcome State Fault Refusal :=
  exec1 s (do
    let pa := p.at_
    let lo := pa % 8
    M.need (decide (1 ≤ n) && decide (lo + n ≤ 8) && regionOf pa == .device && s.alive (homeOf pa)
      && (s.host.power == .run || s.host.power == .entering))
    let d := homeOf pa
    let o := pa / 8 * 8 % 2 ^ 45 - 0x6000000000
    if 0x20000000 ≤ o && o < 0x22000000 then M.writeWindow p.fn d (o - 0x20000000 + lo) (toBytes n v.toNat)
    else if p.fn ≠ 64 then pure ⟨⟩
    else if o < 0x10000 then M.writeDieControl d o lo n v
    else if o < 0x18000 then
      let j := (o - 0x10000) / 8
      M.push (.queueBind d j (mergeReg (BitVec.ofNat 64 (s.queueReg d j)) lo n v))
    else if d = 0 && 0x20000 ≤ o && o < 0x21000 && o % 64 = 0 then M.writeVf ((o - 0x20000) / 64) lo n v
    else if d = 0 && 0x30000 ≤ o && o < 0x32000 then M.writeKey ((o - 0x30000) / 128) (o % 128) lo n v
    else if d = 0 && 0x40000 ≤ o && o < 0x50000 then M.writeControl (o - 0x40000) lo n v)

/-! ## BARs (R284, R289) -/

/-- The physical address at an offset of BAR0 of a function: 64 is the PF. -/
def barPa (fn off : Nat) : Option Nat :=
  if fn = 64 then (if off < 2 ^ 33 then some (off / 2 ^ 30 * 2 ^ 45 + 0x6000000000 + off % 2 ^ 30) else none)
  else if off < 2 ^ 28 then some (off / 2 ^ 25 * 2 ^ 45 + 0x6020000000 + off % 2 ^ 25)
  else none

/-- What a read through the BAR of a function gives: a virtual function reads 0 from a queue that is not bound to it. -/
def State.barBytes (s : State) (fn off n : Nat) : List Byte :=
  match barPa fn off with
  | none => List.replicate n 0
  | some pa => if fn ≠ 64 && !(s.queueOf (off / 8192)).openTo fn then List.replicate n 0 else s.devBytes pa n

/-! ## The host command ring (R292, R383) -/

/-- A host command. -/
structure HostCmd where
  op : Nat
  vf : Nat
  a : Nat
  b : Nat
  c : Nat
  /-- the bytes that must be zero are zero -/
  clean : Bool
  deriving DecidableEq, Repr

/-- The fields of 64 bytes. -/
def HostCmd.ofBits (v : Nat) : HostCmd :=
  { op := bits v 7 0, vf := bits v 15 8, a := bits v 127 64, b := bits v 191 128, c := bits v 255 192,
    clean := decide (bits v 63 16 = 0) && decide (bits v 511 256 = 0) }

/-- The address of the command at HCHEAD. -/
def State.hostCmdPa (s : State) : Nat := s.host.hcbase + 64 * s.host.hchead

/-- The command at HCHEAD, where the host has written one. -/
def State.hostCmd (s : State) : Option HostCmd :=
  if s.host.hchead = s.host.hctail then none else some (HostCmd.ofBits (s.liveVal s.hostCmdPa 64))

/-- The ring entry at HCHEAD cannot be read. -/
def State.hostCmdPoisoned (s : State) : Bool := (s.firstPoison s.hostCmdPa 64).isSome

/-- The opcodes of R292. -/
def hostOpcodes : List Nat := [0x01, 0x02, 0x03, 0x04, 0x10, 0x11, 0x12, 0x13, 0x20, 0x21, 0x30]

/-- The entry at HCHEAD is a command that can be carried out. -/
def State.hostCmdListed (s : State) (c : HostCmd) : Bool :=
  !s.hostCmdPoisoned && hostOpcodes.contains c.op && c.clean && decide (c.vf < 64)

namespace M

variable {s0 : State}

/-- The command at HCHEAD has the opcode of this event. A command starts in Run, and one that has started completes during an entry into
Shuttered. -/
def hostCmd (op : Nat) : M s0 HostCmd := do
  let s ← st
  need (s.host.power == .run || (s.host.power == .entering && s.host.hcBusy.isSome))
  match s.hostCmd with
  | none => stall
  | some c => do
    need (s.host.hcBusy.isSome || (s.hostCmdListed c && c.op == op))
    need (c.op == op)
    return c

/-- The command has completed: HCHEAD passes it. -/
def hostCmdDone : M s0 PUnit := modPort fun p => { p with hchead := (p.hchead + 1) % 1024, hcBusy := none }

/-- The command has started. -/
def hostCmdBusy (frames : List Nat) : M s0 PUnit := modPort fun p => { p with hcBusy := some frames }

/-- A command that breaks a limit has no effect (R383). -/
def hostCmdRefused (die vf : Nat) : M s0 PUnit := do
  journal 0x000B die vf 0xFFFF 0 1 0
  hostCmdDone

/-- An entry of kind 0x000B with status 0. -/
def hostCmdEntry (die vf : Nat) : M s0 PUnit := do
  journal 0x000B die vf 0xFFFF 0 0 0
  hostCmdDone

end M

/-- The frames of a physical range. -/
def physicalFrames (a len : Nat) : List Nat :=
  if len = 0 then [] else rangeFrom (frameOf a) (frameOf (a + len - 1) + 1 - frameOf a)

/-- The cause that the check of R195 gives for a frame in the space of a virtual function: by the leaves that name it there. -/
def State.frameCause (s : State) (vf f : Nat) : Option Nat :=
  let pa := f * 2 ^ 18
  let ls := (s.mapped vf).2.filter fun l => decide (l.base ≤ pa) && decide (pa < l.base + l.size)
  let rs := ls.map fun l => s.checkLeaf (s.tenantOf vf) (pa - l.base) 1 .load (.leaf l)
  if rs.any fun r => match r with | .ok _ => true | .error _ => false then none
  else match rs with
    | .error c :: _ => some c.toNat
    | _ => some 0x04

/-- The first cause of the checks of R195 that a physical range fails in the space of a virtual function: none where it may be settled.
(DEDUCED, log 81) -/
def State.physicalCause (s : State) (vf a len : Nat) : Option Nat :=
  if a + len > 2 ^ 64 then some 0x05
  else if a + len > 2 ^ 48 && len ≠ 0 then some 0x04
  else (physicalFrames a len).findSome? (s.frameCause vf)

/-- Commands 0x01 and 0x02: the settles start with an entry, and the command completes with another (R191, R194, R292). -/
def hcSettleOf (s : State) (op : Nat) : Host.Outcome State Fault Refusal :=
  exec1 s (do
    let c ← M.hostCmd op
    let die := homeOf c.a % 8
    let first := c.a / 2 ^ 18 % 2 ^ 30
    match s.host.hcBusy with
    | none =>
      match s.physicalCause c.vf c.a c.b with
      | some e => do
        M.journal 0x0005 die c.vf 0xFFFF 0 e first
        M.hostCmdDone
      | none => do
        let fs := physicalFrames c.a c.b
        M.journal 0x0004 die c.vf 0xFFFF 0 0 first
        M.hostCmdBusy fs
        M.each fs fun f => M.startSettle f (op = 2)
    | some fs => do
      M.need !(s.img.settling.any fun g => fs.contains g.frame)
      M.journal 0x0005 die c.vf 0xFFFF 0 0 first
      M.hostCmdDone)

/-- HC_SETTLE (R292). -/
def execHcSettle (s : State) : Host.Outcome State Fault Refusal := hcSettleOf s 1

/-- HC_RENEW (R292). -/
def execHcRenew (s : State) : Host.Outcome State Fault Refusal := hcSettleOf s 2

namespace M

variable {s0 : State}

/-- Read 8 bytes in the space of a virtual function for the command ring, or the cause. -/
def ringLoad (vf : Nat) (again : Instr) (va : Word) : M s0 (Except (BitVec 8) Nat) := do
  match ← checkAs vf ((← st).tenantOf vf) va 8 .load with
  | .error c => return .error c
  | .ok a => do
    dieReady 0 a.leaf.home again
    match ← readHome a.pa 8 .engine a.leaf.ww with
    | none => return .error 0x0E
    | some bs => return .ok (ofBytes bs)

/-- Read consecutive words of 8 bytes. -/
def ringLoads (vf : Nat) (again : Instr) : Nat → Word → M s0 (Except (BitVec 8) (List Nat))
  | 0, _ => return .ok []
  | n + 1, va => do
    match ← ringLoad vf again va with
    | .error c => return .error c
    | .ok v =>
      match ← ringLoads vf again n (va + 8) with
      | .error c => return .error c
      | .ok l => return .ok (v :: l)

/-- The reduction that a parameter block asks for in the space of a virtual function, or the cause (R202, R383). -/
def ringReduction (vf : Nat) (va : Word) : M s0 (Except (BitVec 8) (Nat × Reduction)) := do
  match ← ringLoads vf .hcBred 8 va with
  | .error c => return .error c
  | .ok ds =>
    let b := RedBlock.ofBits (joinElems 64 ds)
    if !b.ok then return .error 0x05
    match ← ringLoads vf .hcBred b.count b.table with
    | .error c => return .error c
    | .ok srcs =>
      match ← reductionOf vf ((← st).tenantOf vf) (0x05, va) b (srcs.map (BitVec.ofNat 64 ·)) true with
      | .error (c, _) => return .error c
      | .ok x => return .ok x

end M

/-- HC_BRED: command 0x03 submits a reduction in the space of its virtual function and completes with it (R202, R292, R383). -/
def execHcBred (s : State) : Host.Outcome State Fault Refusal :=
  exec1 s (do
    let c ← M.hostCmd 3
    match s.host.hcBusy with
    | none =>
      match ← M.ringReduction c.vf (BitVec.ofNat 64 c.a) with
      | .error e => do
        M.journal 0x0006 0 c.vf 0xFFFF 0 e.toNat 0
        M.hostCmdDone
      | .ok (d, r) => do
        M.dieReady 0 d .hcBred
        let _ ← M.dieNumber 0 d
        M.hostCmdBusy []
        M.acceptReduction d r
    | some _ => do
      M.need !(s.bank.bred.any fun p => p.2.journal)
      M.hostCmdDone)

/-- Bytes that command 0x04 has copied. -/
def HostPort.copied (p : HostPort) : Nat := (p.hcBusy.getD []).headD 0

/-- HC_COPY: command 0x04 copies host memory, whose content the host supplies in parts of at most 64 KiB, into device memory. When the link is
down it stops after the lines that have come, with a report of the first unwritten one (R292, R367, R383). (DEDUCED, log 82) -/
def execHcCopy (bytes : List Byte) (s : State) : Host.Outcome State Fault Refusal :=
  exec1 s (do
    let c ← M.hostCmd 4
    if c.c % 64 ≠ 0 then M.hostCmdRefused 0 c.vf
    else do
      let at_ := s.host.copied
      let next := at_ + bytes.length
      M.need (decide (bytes.length % 64 = 0) && decide (bytes.length ≤ 65536) && decide (next ≤ c.c)
        && (!s.host.linkUp || decide (bytes.length ≠ 0) || decide (next = c.c)))
      let parts := (cutLines (c.b + at_) bytes).filter fun p => isHostMem (64 * p.1) && s.alive (homeOf (64 * p.1))
      M.each ((parts.map fun p => homeOf (64 * p.1)).eraseDups) fun home => M.dieReadyFor parts.length 0 home (.hcCopy bytes)
      M.each parts fun (la, off, bs) => do
        let n ← M.dieNumber 0 (homeOf (64 * la))
        M.performStore (64 * la + off) bs .slice true none (some (0, n))
      if next = c.c then M.hostCmdEntry 0 c.vf
      else if s.host.linkUp then M.hostCmdBusy [next]
      else do
        M.report 0 c.vf 0x0104 ((c.b + next) % 2 ^ 48)
        M.hostCmdDone)

/-- A publication that a command asked for has performed. -/
def State.publishedAll (s : State) : Bool := s.place.pending.isEmpty && s.place.publishing.isNone

/-- HC_DEFINE_EXPERT: command 0x10 gives an expert a replica in the lowest free index: its range is settled, and then it is published as the next
version (R250, R258, R383). (DEDUCED, log 83) -/
def execHcDefineExpert (s : State) : Host.Outcome State Fault Refusal :=
  exec1 s (do
    let c ← M.hostCmd 0x10
    match s.host.hcBusy with
    | some key => do
      M.need (s.publishedAll && !s.place.copying.any fun k => key.contains (8 * k.expert + k.idx))
      M.hostCmdDone
    | none =>
      let len := bits c.c 63 32
      let base := BitVec.ofNat 64 c.b
      match s.freeIndex c.a, ← M.wholeRange c.vf .load base len with
      | some r, .ok spans =>
        if c.a ≥ 8192 || len % 262144 ≠ 0 then M.hostCmdRefused 0 c.vf
        else do
          let made : Copying :=
            { expert := c.a, idx := r, die := c.c % 8, weights := bitAt c.c 3, vf := c.vf, src := base, dst := base, len := len, at_ := len }
          M.modPlace fun p => { p with copying := p.copying ++ [made] }
          M.settleReplica made spans
          M.push .replicaCopy
          M.hostCmdBusy [8 * c.a + r]
      | _, _ => M.hostCmdRefused 0 c.vf)

/-- HC_DRAIN_DIE: command 0x11 retires every replica on a die (R259, R292). (DEDUCED, log 77) -/
def execHcDrainDie (s : State) : Host.Outcome State Fault Refusal :=
  exec1 s (do
    let c ← M.hostCmd 0x11
    match s.host.hcBusy with
    | some _ => do
      M.need s.publishedAll
      M.hostCmdDone
    | none =>
      if c.a ≥ 8 then M.hostCmdRefused 0 c.vf
      else do
        let out := s.latest.entries.filter fun e => e.2.die == c.a && e.2.state == 1
        M.each out fun e => M.drainReplica e.1 e.2
        -- with nothing to retire the next version repeats the table
        if out.isEmpty then M.changeEntry 0 (s.latest.at 0)
        M.hostCmdBusy [])

/-- Every page of a target range is mapped pinned on frames of the die, HBM4 or weight window by kind (R292, R383). -/
def M.targetOk {s0 : State} (vf die : Nat) (weights : Bool) : Nat → Nat → Nat → M s0 Bool
  | 0, _, _ => return true
  | n + 1, va, len => do
    if len = 0 then return true
    let here := min len (2 ^ 18 - va % 2 ^ 18)
    match ← M.translate vf va with
    | .leaf l =>
      let pa := l.pa va
      if l.pin && l.home = die && (if weights then regionOf pa == .weights else isHbm pa) then
        M.targetOk vf die weights n (va + here) (len - here)
      else return false
    | _ => return false

/-- HC_ASSIGN_TARGET: command 0x12 gives the placement engine target space (R256, R292, R383). -/
def execHcAssignTarget (s : State) : Host.Outcome State Fault Refusal :=
  exec1 s (do
    let c ← M.hostCmd 0x12
    let die := c.a % 8
    let weights := bitAt c.a 3
    if c.a ≥ 16 || c.c % 262144 ≠ 0 || c.b + c.c > 2 ^ 64 then M.hostCmdRefused die c.vf
    else if !(← M.targetOk c.vf die weights (c.c / 2 ^ 18 + 2) c.b c.c) then M.hostCmdRefused die c.vf
    else do
      M.modPlace fun p => { p with targets := p.targets ++ [{
        die := die, weights := weights, vf := c.vf, base := BitVec.ofNat 64 c.b, len := c.c, used := [] }] }
      M.hostCmdEntry die c.vf)

/-- HC_REGISTER_INBOX: command 0x13 registers the inbox of a die: a control page and 4,096 slots in HBM4 of the die (R261, R292). It waits for
the tail stores that are held. (DEDUCED, log 80) -/
def execHcRegisterInbox (s : State) : Host.Outcome State Fault Refusal :=
  exec1 s (do
    let c ← M.hostCmd 0x13
    let last := c.b + 4096 + 1048576 - 1
    if c.a ≥ 8 || c.b % 4096 ≠ 0 || !isHbm c.b || !isHbm last || homeOf c.b ≠ c.a || homeOf last ≠ c.a then
      M.hostCmdRefused (c.a % 8) c.vf
    else do
      M.need !(s.place.tails.any fun t => t.die == c.a)
      M.modTable c.a fun t => { t with inbox := some c.b }
      M.hostCmdEntry c.a c.vf)

/-- The gang that operands A and B name. -/
def State.gangNamed (s : State) (c : HostCmd) : Option Gang := s.disp.gangs.find? fun g => g.die == c.a && g.gid == c.b

/-- HC_RESUME: command 0x20 makes a gang that waits after an overrun or a VF disable ready again, with its charge at 0 (R372). -/
def execHcResume (s : State) : Host.Outcome State Fault Refusal :=
  exec1 s (do
    let c ← M.hostCmd 0x20
    match s.gangNamed c with
    | none => M.hostCmdRefused (c.a % 8) c.vf
    | some g =>
      if g.phase == .saved 0 || g.phase == .saved 1 then do
        -- the cycles charged so far stay part of the launch's total (R282)
        M.modLaunch g.launch fun l => { l with cycles := l.cycles + g.charge }
        M.modGang g.die g.gid fun g => { g with charge := 0, phase := .ready }
        M.hostCmdEntry g.die c.vf
        M.push .gangResume
      else M.hostCmdRefused g.die c.vf)

/-- HC_KILL: command 0x21 kills every hart of a gang; one that is off the cores is killed when it is back (R319, R372). A kill comes before a
pre-emption that no hart has begun (R304). (DEDUCED, log 84) -/
def execHcKill (s : State) : Host.Outcome State Fault Refusal :=
  exec1 s (do
    let c ← M.hostCmd 0x21
    match s.gangNamed c with
    | none => M.hostCmdRefused (c.a % 8) c.vf
    | some g => do
      let begun := !g.areas.isEmpty || g.reserved || (s.members g).any fun h => h.phase != .run
      let stopping := match g.phase with
        | .stopping _ => true
        | _ => false
      if g.phase == .run || (stopping && !begun) then do
        M.modGang g.die g.gid fun g => { g with phase := .run }
        M.each g.harts fun k => do
          M.emit (.focus k)
          if (← M.hart).key = k && (← M.hart).phase == .run then M.killHart 0 else pure ⟨⟩
      else do
        M.modGang g.die g.gid fun g => { g with killed := true, phase := if stopping then g.phase else .ready }
        if !stopping then M.push .gangResume
      M.hostCmdEntry g.die c.vf)

/-- HC_MALFORMED: an unlisted or malformed command is reported and skipped, and so is a ring entry that holds poison (R292, R383). -/
def execHcMalformed (s : State) : Host.Outcome State Fault Refusal :=
  exec1 s (do
    M.need (s.host.power == .run && s.host.hcBusy.isNone)
    match s.hostCmd with
    | none => M.stall
    | some c =>
      if s.hostCmdPoisoned then do
        M.report 0 0 0x010E (s.hostCmdPa % 2 ^ 48)
        M.hostCmdDone
      else do
        M.need !(s.hostCmdListed c)
        M.hostCmdRefused 0 (if c.vf < 64 then c.vf else 0))

/-! ## The CXL link (R296, R367) -/

/-- The host has retrained the link: an exit that waits for it starts (R296, R375). -/
def M.linkTrained {s0 : State} : M s0 PUnit := do
  let p := (← M.st).host
  if p.power == .shuttered && p.exitOnLink then do
    M.modPort fun p => { p with power := .leaving }
    M.push .shutteredExit
  else if p.power == .reduced && !p.pin then do
    M.modPort fun p => { p with power := .leavingReduced }
    M.push .shutteredExit
  else pure ⟨⟩

/-- HOST_LINK_RETRAIN: a retraining within 100 ms changes no value and no order (R367); in Shuttered it may start the exit (R296). -/
def execHostLinkRetrain (s : State) : Host.Outcome State Fault Refusal :=
  exec1 s (do
    M.need s.host.linkUp
    M.linkTrained)

/-- HOST_LINK_DOWN: the link has not trained within 100 ms: every die clears its host-line directory and poisons the lines that it tracked,
with one report per die (R367). Vectors not delivered are lost. -/
def execHostLinkDown (s : State) : Host.Outcome State Fault Refusal :=
  exec1 s (do
    M.need s.host.linkUp
    let lines := s.img.hostOrder
    M.modPort fun p => { p with linkUp := false, msix := [], snoops := [] }
    M.modImg fun m => { m with hostOrder := [], cache := m.cache.filter fun l => l.level != .host }
    M.each lines fun la => do
      M.poisonLine la
      M.noteError (homeOf (64 * la)) (M.levelOf (64 * la)) (64 * la)
    M.each ((List.range 8).filter s.alive) fun d =>
      M.report d 0 0x0201 ((lines.filter fun la => homeOf (64 * la) == d).length % 2 ^ 32)
    M.each (lines.map frameOfLine).eraseDups fun f => M.resumeSettles f)

/-- HOST_LINK_TRAINS_AGAIN: host requests, latches and MSI-X delivery resume in Run (R367). -/
def execHostLinkTrainsAgain (s : State) : Host.Outcome State Fault Refusal :=
  exec1 s (do
    M.need (!s.host.linkUp)
    M.modPort fun p => { p with linkUp := true }
    M.linkTrained)

end Sys2Proof.Machine
end

