-- ==== Sys2Proof/Machine/EvPower.lean ====
section
/-!
DEFINITION. The events of the power states: entry into Shuttered and exit (R295 to R297, R374), reduced retention (R375, R377), loss of
power (R376), module failure and reset (R369).
-/

namespace Sys2Proof.Machine

namespace M

variable {s0 : State}

/-- Change the power state. -/
def setPower (p : Power) : M s0 PUnit := modPort fun x => { x with power := p }

/-- Ask every running gang to stop for the entry into Shuttered. -/
def stopGangs : M s0 PUnit := do
  each ((← st).disp.gangs.filter fun g => g.phase == .run) fun g => preemptGang g.die g.gid 2

/-- Entry into Shuttered starts (R295): one entry, whatever starts it (R297). -/
def startEntry (byPin : Bool) : M s0 PUnit := do
  let p := (← st).host
  match p.power with
  | .run => do
    modPort fun x => { x with power := .entering, exitOnLink := !byPin && !x.pin }
    stopGangs
    push .shutteredEntry
  | _ => pure ⟨⟩

end M

/-- SHUTTER_ENTER_WRITE: ENTER is written (R291, R295). -/
def execShutterEnterWrite (s : State) : Host.Outcome State Fault Refusal :=
  exec1 s (do
    M.need (s.host.power == .run || s.host.power == .entering)
    M.startEntry false)

/-- HC_ENTER_SHUTTERED: command 0x30 (R292, R295). -/
def execHcEnterShuttered (s : State) : Host.Outcome State Fault Refusal :=
  exec1 s (do
    let _ ← M.hostCmd 0x30
    M.hostCmdDone
    M.startEntry false)

/-- The module is back in Shuttered before any hart has resumed (R297). -/
def M.backToShuttered {s0 : State} : M s0 PUnit := do
  M.modPort fun p => { p with power := .shuttered, exiting := false }
  M.modDisp fun d => { d with gangs := d.gangs.map fun g => if g.phase == .ready then { g with phase := .saved 2 } else g }

/-- BROWNOUT_PIN_ASSERT: in Run an entry starts; during an exit, before any hart resumes, the module is back where it was with no journal
entry (R295, R297, R377). -/
def execBrownoutPinAssert (s : State) : Host.Outcome State Fault Refusal :=
  exec1 s (do
    M.need (!s.host.pin)
    M.modPort fun p => { p with pin := true, exitOnLink := false }
    match s.host.power with
    | .run => M.startEntry true
    | .leaving => M.backToShuttered
    | .leavingReduced => M.setPower .reduced
    | _ => pure ⟨⟩)

/-- BROWNOUT_PIN_DEASSERT (R296). -/
def execBrownoutPinDeassert (s : State) : Host.Outcome State Fault Refusal :=
  exec1 s (do
    M.need s.host.pin
    M.modPort fun p => { p with pin := false, pinAt := s.time.toNat })

/-- What was started before the entry has completed: gangs are saved, settles, reductions, bank requests, replicas and commands are done, and
the fabric has delivered every packet. -/
def State.quiet (s : State) : Bool :=
  s.disp.gangs.all (fun g => match g.phase with | .run | .stopping _ => false | _ => true)
    && s.work.isEmpty && s.img.settling.isEmpty && s.bank.bred.isEmpty && s.bank.xmerge.isEmpty
    && s.bank.reqs.all (·.det) && s.place.tails.isEmpty && s.place.copying.isEmpty && s.publishedAll && s.host.hcBusy.isNone
    && s.host.snoops.isEmpty
    && s.fab.chans.all fun c => c.reqs.isEmpty && c.resps.isEmpty

/-- The frame of the lowest dirty line: the first page that an entry into Shuttered writes down. (DEDUCED, log 59) -/
def State.firstDirty (s : State) : Nat := ((s.img.cache.find? fun l => l.dirty ≠ 0).map fun l => frameOfLine l.addr).getD 0

/-- A cached line at an entry into Shuttered: the L1s and L2 are lost, and the cellar keeps clean lines outside the ways of its retention region
(R295, R296). (DEDUCED, log 60) -/
def M.shutLine {s0 : State} (l : Line) : M s0 PUnit := do
  let drop ← match l.level with
    | .l1 _ | .l2 => pure true
    | .l3 => M.freeBool
    | .host => pure false
  if drop then M.modImg fun m => { m with cache := delLine m.cache l.addr }
  else M.modImg fun m => { m with cache := m.cache.map fun k => if k.addr = l.addr then { k with dirty := 0 } else k }

/-- Every dirty byte goes to the arrays, but for those of a retired macro (R347), and what the caches lose is dropped (R295). -/
def M.writeDown {s0 : State} : M s0 PUnit := do
  let s ← M.st
  M.each s.img.cache fun l => if s.retiredLine l.addr then pure ⟨⟩ else M.cleanLine l.addr (BitVec.allOnes 64)
  M.each (← M.st).img.cache M.shutLine

/-- SHUTTERED_ENTRY: every gang is pre-empted and saved, what has started completes, every dirty byte goes to the arrays, and the entries are
written, which go to the arrays too before the memory enters self-refresh (R282, R295). -/
def execShutteredEntry (s : State) : Host.Outcome State Fault Refusal :=
  exec1 s (do
    M.need (s.host.power == .entering)
    M.stopGangs
    if !(← M.st).quiet then
      if (← M.st).disp.gangs.any fun g => g.phase == .run then M.done else M.stall
    let first := s.firstDirty
    M.journal 0x0004 (homeOf (2 ^ 18 * first)) 0 0xFFFF 0 0 first
    M.writeDown
    M.journal 0x0005 (homeOf (2 ^ 18 * first)) 0 0xFFFF 0 0 first
    M.journal 0x0008 0 0 0xFFFF 0 0 0
    M.writeDown
    M.setPower .shuttered)

/-- The condition on the pin under which an exit starts: deasserted for 1 ms (R296). -/
def State.pinReleased (s : State) : Bool := !s.host.pin && !s.host.exitOnLink && decide (s.time.toNat ≥ s.host.pinAt + 1000000)

/-- SHUTTERED_EXIT: the exit starts, and then, unless the pin is asserted meanwhile, the entry is written and the gangs that the entry
pre-empted are ready again; the module is in Run when the first of them is back, or when none can be (R296, R297, R372, R374). After reduced
retention nothing resumes, and the entry carries status 0x0001 (R375). (DEDUCED, log 58) -/
def execShutteredExit (s : State) : Host.Outcome State Fault Refusal :=
  exec1 s (do
    match s.host.power with
    | .shuttered => do
      M.need s.pinReleased
      M.setPower .leaving
      M.push .shutteredExit
    | .reduced => do
      M.need s.pinReleased
      M.setPower .leavingReduced
      M.push .shutteredExit
    | .leaving => do
      if s.host.exiting then M.need s.nextBack.isNone
      else do
        M.journal 0x0009 0 0 0xFFFF 0 0 0
        M.modPort fun p => { p with exiting := true }
        M.modDisp fun d => { d with gangs := d.gangs.map fun g => if g.phase == .saved 2 then { g with phase := .ready } else g }
      if (← M.st).nextBack.isNone then M.backToRun else M.push .gangResume
    | .leavingReduced => do
      M.modPort fun p => { p with linkUp := true }
      M.journal 0x0009 0 0 0xFFFF 0 1 0
      M.setPower .run
    | _ => M.stall)

/-- The fabric at its reset values; dies that have been removed stay so. -/
def Fabric.restart (f : Fabric) : Fabric :=
  { Fabric.reset with dies := f.dies.map fun d =>
      { alive := d.alive, clock := Clock.zero, covered := Clock.zero, echo := Clock.zero, gen := 0 } }

namespace M

variable {s0 : State}

/-- Bytes that were dirty in a cache are lost; what the arrays hold there is not defined for the program (R375). -/
def loseDirty (l : Line) : M s0 PUnit := do
  if isHostMem (64 * l.addr) then
    each ((List.range 64).filter fun i => l.dirty.getLsbD i) fun i => do
      let v ← freeWord
      emit (.cells (64 * l.addr + i) [v.setWidth 8])
  else pure ⟨⟩

end M

/-- REDUCED_RETENTION_DROP: the supply cannot hold Shuttered: only what has reached HBM4 and LPDDR6 and the control island are kept
(R375). (DEDUCED, log 61) -/
def execReducedRetentionDrop (s : State) : Host.Outcome State Fault Refusal :=
  exec1 s (do
    M.need (s.host.power == .entering || s.host.power == .shuttered)
    M.each s.img.cache M.loseDirty
    M.emit .dropHarts
    M.emit (.counts [])
    M.emit (.img { Images.reset with
      poison := s.img.poison.filter (fun la => isHostMem (64 * la)), badFrames := s.img.badFrames, weightsLost := true })
    M.emit (.bank .reset)
    M.emit (.fab s.fab.restart)
    M.emit (.disp { Dispatch.reset with jhead := s.disp.jhead })
    M.emit (.placement { Placement.reset with interval := s.time.toNat / 1000000, occSince := s.time.toNat })
    M.emit (.work [])
    M.modPort fun p => { p with
      vfs := HostPort.reset.vfs, keys := HostPort.reset.keys, shoot := 0, monitors := [], errs := HostPort.reset.errs, snoops := [],
      hcBusy := none, clk := Clock.zero, exiting := false, gated := HostPort.reset.gated, gatedModule := 0, power := .reduced })

/-- What a reset of the module keeps: the fuses and the level of the brown-out pin. (DEDUCED, log 62) -/
def M.resetModule {s0 : State} (p : Power) : M s0 PUnit := do
  let h := (← M.st).host
  M.emit .reset
  M.modPort fun x => { x with rollback := h.rollback, fuseKey := h.fuseKey, pin := h.pin, pinAt := h.pinAt, power := p }

/-- TOTAL_POWER_LOSS: nothing is kept (R376). -/
def execTotalPowerLoss (s : State) : Host.Outcome State Fault Refusal :=
  exec1 s (do
    M.need (s.host.power != .off)
    M.resetModule .off)

/-- COLD_START: power returns and the module starts as at reset (R376). -/
def execColdStart (s : State) : Host.Outcome State Fault Refusal :=
  exec1 s (do
    M.need (s.host.power == .off)
    M.resetModule .run)

/-- MODULE_RESET: a conventional reset loses every content (R369). -/
def execModuleReset (s : State) : Host.Outcome State Fault Refusal :=
  exec1 s (do
    M.need (s.host.power != .off)
    M.resetModule .run)

/-- MODULE_FAILURE: CD0, its HBM4 or the control island is lost: every latch is discarded, JHEAD reads all ones, an internal error is
signalled, and nothing more is accepted until a reset (R12, R369). (DEDUCED, log 63) -/
def execModuleFailure (s : State) : Host.Outcome State Fault Refusal :=
  exec1 s (do
    M.need (s.host.power != .off && s.host.power != .failed)
    M.modDisp fun d => { d with queues := d.queues.map fun q => { q with latched := [] } }
    M.modPort fun p => { p with aer := true, power := .failed })

end Sys2Proof.Machine
end

