-- ==== Sys2Proof/Machine/Matrix.lean ====
section
/-!
DEFINITION. The matrix instructions (R170 to R181).
-/

namespace Sys2Proof.Machine

/-! ## The tile -/

/-- Row r of the tile. -/
def Tile.row (t : Tile) (r : Nat) : BitVec 4096 := t.z.toList.getD r 0

/-- z[r][j]. -/
def Tile.at (t : Tile) (r j : Nat) : Nat := ((t.row r).extractLsb' (32 * j) 32).toNat

/-- A row from the values of its 128 columns. -/
def rowOf (f : Nat → Nat) : BitVec 4096 :=
  BitVec.ofNat 4096 ((List.range 128).foldr (fun j n => f j % 2 ^ 32 + 2 ^ 32 * n) 0)

/-- Write columns of row r: f answers the new value of column j, or none. -/
def Tile.putRow (t : Tile) (r : Nat) (f : Nat → Option Nat) : Tile :=
  { t with z := t.z.setIfInBounds r (rowOf fun j => (f j).getD (t.at r j)) }

/-- Row scale latch i. -/
def Tile.rowScale (t : Tile) (i : Nat) : Nat := (t.sr.extractLsb' (8 * i) 8).toNat
/-- Column scale latch j. -/
def Tile.colScale (t : Tile) (j : Nat) : Nat := (t.sc.extractLsb' (8 * j) 8).toNat

namespace M

variable {s0 : State}

/-- The tile of the hart in focus. -/
def tile : M s0 Tile := do return (← hart).tile

/-- A matrix word outside matrix mode, or one other than `mdrain` that writes v28 to v31, traps with 0x02; then one without granted rows
traps with 0x08 (R172, R320, R329). -/
def matrixCheck (env : VEnv) (dest : Option Reg) : M s0 PUnit := do
  let r := (← hart).sr
  if !r.mmode || env.region || (dest.any fun d => d ≥ 28#5) then illegal env
  if r.mgrant = 0 then vecTrap env 0x08 0 none

/-- The row or column index of a tile word; at or past the limit it traps with the index (R174). -/
def tileIndex (env : VEnv) (f : VWord) (lim : Nat) : M s0 Nat := do
  let i ← if f.form = 1 then snap (f.x.toNat % 32) else pure (BitVec.ofNat 64 (f.x.toNat % 256))
  if i.toNat ≥ lim then vecTrap env 0x05 i none
  return i.toNat

/-- R of R174. -/
def rowCount : M s0 Nat := do
  let r := (← hart).sr
  return min r.vl.toNat r.mgrant.toNat

end M

/-! ## Outer products (R175, R176) -/

/-- Round once to f32 with RNE. -/
def r32 (v : FRes) : Nat := fmtF32.round .rne v

/-- The f32 value of a column. -/
def f32Val (b : Nat) : FVal := fmtF32.decode b

/-- The other FP8 format. -/
def otherFp8 (t : BitVec 4) : BitVec 4 := if t = 12 then 13 else 12

/-- The new z[i][j] of a `mop` from the 16-bit elements a and b, the scales of the row and the column and the old value. -/
def mopElem (t : BitVec 4) (alt : Bool) (sr sc a b z : Nat) : Nat :=
  if t = 0 then
    wrapInt 32 (toSigned 32 z + toSigned 8 (a % 256) * toSigned 8 (b % 256) + toSigned 8 (a / 256) * toSigned 8 (b / 256))
  else if t = 12 || t = 13 then
    let fa := fmtOf t
    let fb := fmtOf (if alt then otherFp8 t else t)
    let p := r32 (fadd .rne (fmul (fa.decode (a % 256)) (fb.decode (b % 256)))
                            (fmul (fa.decode (a / 256)) (fb.decode (b / 256))))
    r32 (fadd .rne (f32Val z) (f32Val p))
  else if t = 14 then
    (List.range 4).foldl (fun z d =>
      let v (x : Nat) : FVal := fmtFp4.decode (x / 16 ^ d % 16)
      r32 (fadd .rne (f32Val z) (fmul (fmul (e8m0 sr) (e8m0 sc)) (fmul (v a) (v b))))) z
  else r32 (fadd .rne (f32Val z) (fmul ((fmtOf t).decode a) ((fmtOf t).decode b)))

/-- `mop`: adds the outer product of a column of A and a row of B to the rows of the tile (R175, R176). -/
def mopCore {s0 : State} (f : VWord) (env : VEnv) : M s0 PUnit :=
  do
  M.matrixCheck env none
  let vs ← M.vec
  let m := vs.mask f.m.toNat
  let rows := (List.range (← M.rowCount)).filter fun i => m.getLsbD i
  M.modTile fun t => rows.foldl (fun acc i => acc.putRow i fun j =>
    some (mopElem f.ty (f.ctl.getLsbD 0) (t.rowScale i) (t.colScale j) (vs.elem f.va.toNat 16 i) (vs.elem f.vb.toNat 16 j)
      (t.at i j))) t

/-- `mop` for the whole strip. -/
def execMop (f : VWord) (s : State) : Host.Outcome State Fault Refusal := vexec s (mopCore f)

/-- `mzero`: +0 into every column of the selected rows below mgrant (R178). -/
def mzeroCore {s0 : State} (f : VWord) (env : VEnv) : M s0 PUnit :=
  do
  M.matrixCheck env none
  let m := (← M.vec).mask f.m.toNat
  let n := (← M.hart).sr.mgrant.toNat
  M.modTile fun t => ((List.range n).filter fun i => m.getLsbD i).foldl (fun acc i => acc.putRow i fun _ => some 0) t

/-- `mzero` for the whole strip. -/
def execMzero (f : VWord) (s : State) : Host.Outcome State Fault Refusal := vexec s (mzeroCore f)

/-- `mscale`: loads the scale latches (R177). -/
def mscaleCore {s0 : State} (f : VWord) (env : VEnv) : M s0 PUnit :=
  do
  M.matrixCheck env none
  let vs ← M.vec
  M.modTile fun t => { t with sr := (vs.reg f.va.toNat).extractLsb' 0 2048, sc := (vs.reg f.vb.toNat).extractLsb' 0 1024 }

/-- `mscale` for the whole strip. -/
def execMscale (f : VWord) (s : State) : Host.Outcome State Fault Refusal := vexec s (mscaleCore f)

/-! ## Filling and reading the tile (R178 to R181) -/

/-- A column value from a register element: copied, or widened exactly to f32. -/
def tileIn (t : BitVec 4) (v : Nat) : Nat := if t = 8 || t = 9 then (fmtOf t).convert fmtF32 .rne v else v

/-- A register element from a column value: copied, or rounded in the ctl mode (R72). -/
def tileOut (t : BitVec 4) (r : Rnd) (v : Nat) : Nat := if t = 8 || t = 9 then fmtF32.convert (fmtOf t) r v else v

/-- `mrowld`: the selected columns of a row from a register (R179). -/
def mrowldCore {s0 : State} (f : VWord) (env : VEnv) : M s0 PUnit :=
  do
  M.matrixCheck env none
  let r ← M.tileIndex env f (← M.hart).sr.mgrant.toNat
  let vs ← M.vec
  let m := vs.mask f.m.toNat
  M.modTile fun t => t.putRow r fun j =>
    if m.getLsbD j then some (tileIn f.ty (vs.elem f.va.toNat (tyBits f.ty) j)) else none

/-- `mrowld` for the whole strip. -/
def execMrowld (f : VWord) (s : State) : Host.Outcome State Fault Refusal := vexec s (mrowldCore f)

namespace M

variable {s0 : State}

/-- The rounding of a tile read: ctl[4] is no part of it. -/
def tileRounding (f : VWord) : M s0 (Nat → Rnd) := rounding { f with ctl := f.ctl &&& 15#5 } none

/-- The selected columns of row r into vd (R180). -/
def readRow (f : VWord) (r : Nat) : M s0 PUnit := do
  let t ← tile
  let vs ← vec
  let sb ← sbase
  let rnd ← tileRounding f
  let m := vs.mask f.m.toNat
  putVec (vs.putElems f.vd.toNat (tyBits f.ty) ((List.range 128).filter fun j => m.getLsbD j) fun j =>
    tileOut f.ty (rnd (sb + j)) (t.at r j))

end M

/-- `mrowrd`: the selected columns of a row into a register (R180). -/
def mrowrdCore {s0 : State} (f : VWord) (env : VEnv) : M s0 PUnit :=
  do
  M.matrixCheck env (some f.vd)
  let r ← M.tileIndex env f (← M.hart).sr.mgrant.toNat
  M.readRow f r

/-- `mrowrd` for the whole strip. -/
def execMrowrd (f : VWord) (s : State) : Host.Outcome State Fault Refusal := vexec s (mrowrdCore f)

/-- `mcolrd`: the selected rows of a column into a register (R180). -/
def mcolrdCore {s0 : State} (f : VWord) (env : VEnv) : M s0 PUnit :=
  do
  M.matrixCheck env (some f.vd)
  let c ← M.tileIndex env f 128
  let t ← M.tile
  let vs ← M.vec
  let sb ← M.sbase
  let rnd ← M.tileRounding f
  let m := vs.mask f.m.toNat
  M.putVec (vs.putElems f.vd.toNat (tyBits f.ty) ((List.range (← M.rowCount)).filter fun i => m.getLsbD i) fun i =>
    tileOut f.ty (rnd (sb + i)) (t.at i c))

/-- `mcolrd` for the whole strip. -/
def execMcolrd (f : VWord) (s : State) : Host.Outcome State Fault Refusal := vexec s (mcolrdCore f)

/-- `mdrain`: a row into one of v28 to v31, cleared with `clr` (R181). -/
def mdrainCore {s0 : State} (f : VWord) (env : VEnv) : M s0 PUnit :=
  do
  M.matrixCheck env none
  let r ← M.tileIndex env f (← M.hart).sr.mgrant.toNat
  M.readRow f r
  let m := (← M.vec).mask f.m.toNat
  if f.ctl.getLsbD 4 then M.modTile fun t => t.putRow r fun j => if m.getLsbD j then some 0 else none

/-- `mdrain` for the whole strip. -/
def execMdrain (f : VWord) (s : State) : Host.Outcome State Fault Refusal := vexec s (mdrainCore f)

end Sys2Proof.Machine
end

