-- ==== Sys2Proof/Machine/VConvert.lean ====
section
/-!
DEFINITION. Conversion (R125) and the block-scaled layout with its packing (R75 to R77, R126).
-/

namespace Sys2Proof.Machine

/-! ## `vcvt` -/

/-- One element from type s to type t (R73, R125). Conversions from finite formats take k = the discarded bits (R71). -/
def convertElem (s t : BitVec 4) (r : Rnd) (v : Nat) : Nat :=
  let ws := tyBits s
  let wt := tyBits t
  if tyFloat s then
    if tyFloat t then (fmtOf s).convert (fmtOf t) r v
    else toIntType r (tySigned t) wt ((fmtOf s).decode v)
  else if tyFloat t then (fmtOf t).round r (intRes (tyInt s ws v))
  else
    let i := tyInt s ws v
    -- widening extends by the source type; the other cases wrap or saturate (R72, R125)
    if r.sat && decide (wt ≤ ws) then wrapInt wt (clampInt (tySigned t) wt i) else wrapInt wt i

/-- `vcvt`: each element from the source type to the destination type (R125). -/
def vcvtCore {s0 : State} (f : VWord) (env : VEnv) : M s0 PUnit :=
  do
  M.modeCheck env M.anywhere (some f.vd)
  let ws := tyBits f.srcTy
  let wt := tyBits f.ty
  M.needSew env (max ws wt)
  let n := (← M.hart).sr.vl.toNat
  M.needBelow28 env f.vd (min n 8192) wt
  M.needSpan env f.vd n wt
  M.needSpan env f.va n ws
  let vs ← M.vec
  let sb ← M.sbase
  let rnd ← M.rounding f none
  M.putVec (vs.putElems f.vd.toNat wt (env.elems (vs.mask f.m.toNat)) fun e =>
    convertElem f.srcTy f.ty (rnd (sb + e)) (vs.elem f.va.toNat ws e))

/-- `vcvt` for the whole strip. -/
def execVcvt (f : VWord) (s : State) : Host.Outcome State Fault Refusal := vexec s (vcvtCore f)

/-! ## The block-scaled layout (R76, R77) -/

/-- Blocks per share of 256 bytes, by whether the elements are fp4. -/
def blocksPerShare (fp4 : Bool) : Nat := if fp4 then 28 else 15

/-- Blocks per register. -/
def blocksPerReg (fp4 : Bool) : Nat := 4 * blocksPerShare fp4

/-- Register byte of an offset of a share. -/
def shareByte (g i : Nat) : Nat := 64 * (g + 4 * (i / 64)) + i % 64

/-- Byte of the operand at register n that holds the scale of block b. -/
def scaleByte (fp4 : Bool) (b : Nat) : Nat :=
  let k := b % blocksPerReg fp4
  1024 * (b / blocksPerReg fp4) + shareByte (k % 4) (k / 4)

/-- Byte of the operand that holds element i of block b. -/
def blockByte (fp4 : Bool) (b i : Nat) : Nat :=
  let k := b % blocksPerReg fp4
  let o := if fp4 then 28 + 8 * (k / 4) + i / 2 else 15 + 16 * (k / 4) + i
  1024 * (b / blocksPerReg fp4) + shareByte (k % 4) o

/-- Element i of block b. -/
def VecState.blockElem (vs : VecState) (fp4 : Bool) (n b i : Nat) : Nat :=
  let v := vs.byteAt n (blockByte fp4 b i)
  if fp4 then v / 16 ^ (i % 2) % 16 else v

/-- Scale of block b. -/
def VecState.blockScale (vs : VecState) (fp4 : Bool) (n b : Nat) : Nat := vs.byteAt n (scaleByte fp4 b)

/-- Write a block: its scale, its 16 elements, and zeros into the padding of its register (R76). -/
def VecState.putBlock (vs : VecState) (fp4 : Bool) (n b scale : Nat) (el : Nat → Nat) : VecState :=
  let vs := vs.putBits n (8 * scaleByte fp4 b) 8 scale
  let vs := (List.range 16).foldl (fun acc i =>
    if fp4 then acc.putBits n (8 * blockByte fp4 b i + 4 * (i % 2)) 4 (el i)
    else acc.putBits n (8 * blockByte fp4 b i) 8 (el i)) vs
  let pads := if fp4 then [252, 253, 254, 255] else [255]
  let base := 1024 * (b / blocksPerReg fp4)
  (List.range 4).foldl (fun acc g => pads.foldl (fun acc i => acc.putBits n (8 * (base + shareByte g i)) 8 0) acc) vs

/-- Elements of a block-scaled operand for a length (R77). -/
def blockCount (fp4 : Bool) (len : Nat) : Nat := if fp4 then 2 * len else len

/-- The performed blocks: every element below the limit, and bit 16b of mask k set; m0 selects every block (R77, R116). A mask register
holds 8,192 bits, so m1 to m7 have no bit for the blocks from 512 on, and these are not performed under them. (DESIGN CHOICE, log 101) -/
def VEnv.blocks (env : VEnv) (fp4 : Bool) (vs : VecState) (k : Nat) : List Nat :=
  (List.range (blockCount fp4 env.lim / 16)).filter fun b => k == 0 || (vs.mask k).getLsbD (16 * b)

namespace M

variable {s0 : State}

/-- The count of R77 is a multiple of 16 and fits the layout. -/
def needBlocks (env : VEnv) (fp4 : Bool) : M s0 PUnit := do
  let h ← hart
  let n := blockCount fp4 h.sr.vl.toNat
  if n % 16 ≠ 0 || decide (n > 16 * blocksPerReg fp4 * h.sr.vgrp.n) then illegal env

end M

/-! ## Packing (R75, R126) -/

/-- 2^(s − 127) times a finite value. -/
def scaleBy (v : FVal) (s : Int) : FVal :=
  match v with
  | .fin g m e => .fin g m (e + s)
  | v => v

/-- A value without its sign. -/
def FVal.mag : FVal → FVal
  | .nan => .nan
  | .inf _ => .inf false
  | .fin _ m e => .fin false m e

/-- The scale of a block of finite values in a format (R75): the smallest that holds every magnitude, if there is one. -/
def chooseScale (fmt : Fmt) (xs : List FVal) : Option Nat :=
  firstBelow 255 fun s => xs.all fun x => !flt (scaleBy (fmt.decode fmt.maxFinite) ((s : Int) - 127)) x.mag

/-- A block of 16 values packed: its scale and its elements; r i is the rounding of element i. -/
def packBlock (fmt : Fmt) (r : Nat → Rnd) (xs : List FVal) : Nat × List Nat :=
  let finite (x : FVal) : Bool := match x with
    | .fin .. => true
    | _ => false
  if !xs.all finite then (255, xs.map fun _ => 0)
  else match chooseScale fmt xs with
    | some s => (s, xs.mapIdx fun i x => fmt.round (r i) (scaleBy x (127 - (s : Int))).res)
    | none => (254, xs.mapIdx fun i x => fmt.round { r i with sat := true } (scaleBy x (127 - 254)).res)

/-- `vqpack`: forms the block-scaled layout from wide values (R126). Under `rsto` its rounding counts as a conversion: k is the number of
discarded bits (R71). (DEDUCED, log 102) -/
def vqpackCore {s0 : State} (f : VWord) (env : VEnv) : M s0 PUnit :=
  do
  M.modeCheck env M.plain (some f.vd)
  M.needSew env 8
  let fp4 := f.ty == 14#4
  let ws := tyBits f.srcTy
  M.needGroups env [f.vd]
  M.needSpan env f.va (blockCount fp4 (← M.hart).sr.vl.toNat) ws
  M.needBlocks env fp4
  let vs ← M.vec
  let sb ← M.sbase
  let rnd ← M.rounding f none
  M.putVec ((env.blocks fp4 vs f.m.toNat).foldl (fun acc b =>
    let xs := (List.range 16).map fun i => (fmtOf f.srcTy).decode (vs.elem f.va.toNat ws (16 * b + i))
    let (s, es) := packBlock (fmtOf f.ty) (fun i => rnd (blockCount fp4 sb + 16 * b + i)) xs
    acc.putBlock fp4 f.vd.toNat b s (fun i => es.getD i 0)) vs)

/-- `vqpack` for the whole strip. -/
def execVqpack (f : VWord) (s : State) : Host.Outcome State Fault Refusal := vexec s (vqpackCore f)

/-- `vqunpack`: expands the block-scaled layout (R126). Under `rsto` its rounding counts as a conversion: k is the number of
discarded bits (R71). (DEDUCED, log 102) -/
def vqunpackCore {s0 : State} (f : VWord) (env : VEnv) : M s0 PUnit :=
  do
  M.modeCheck env M.plain (some f.vd)
  M.needSew env 8
  let fp4 := f.srcTy == 14#4
  let wt := tyBits f.ty
  M.needGroups env [f.va]
  M.needSpan env f.vd (blockCount fp4 (← M.hart).sr.vl.toNat) wt
  M.needBlocks env fp4
  let vs ← M.vec
  let sb ← M.sbase
  let rnd ← M.rounding f none
  M.putVec ((env.blocks fp4 vs f.m.toNat).foldl (fun acc b =>
    acc.putElems f.vd.toNat wt (rangeFrom (16 * b) 16) fun e =>
      let v := fmul (e8m0 (vs.blockScale fp4 f.va.toNat b)) ((fmtOf f.srcTy).decode (vs.blockElem fp4 f.va.toNat b (e % 16)))
      (fmtOf f.ty).round (rnd (blockCount fp4 sb + e)) v.res) vs)

/-- `vqunpack` for the whole strip. -/
def execVqunpack (f : VWord) (s : State) : Host.Outcome State Fault Refusal := vexec s (vqunpackCore f)

end Sys2Proof.Machine
end

