-- ==== Sys2Proof/Machine/VFloat.lean ====
section
/-!
DEFINITION. Floating-point vector arithmetic (R120, R121): every result is exact and rounded once to the type.
-/

namespace Sys2Proof.Machine

/-- An operation that writes an encoding computed from the encodings of A and B. -/
def bitsOp {s0 : State} (f : VWord) (env : VEnv) (g : Fmt → Nat → Nat → Nat) : M s0 PUnit := do
  M.arithCheck env M.threaded f (some f.vd) [f.va]
  let w := tyBits f.ty
  let b ← M.operandB f w
  let vs ← M.vec
  M.putVec (vs.putElems f.vd.toNat w (env.elems (vs.mask f.m.toNat)) fun e => g (fmtOf f.ty) (vs.elem f.va.toNat w e) (b e))

/-- An arithmetic operation of A, B and the old destination C, rounded once in the mode of ctl; k of `rsto` is 32 (R71). -/
def floatOp {s0 : State} (f : VWord) (env : VEnv) (l : M.Legal) (g : Rnd → FVal → FVal → FVal → FRes) : M s0 PUnit := do
  M.arithCheck env l f (some f.vd) [f.va]
  let w := tyBits f.ty
  let b ← M.operandB f w
  let vs ← M.vec
  let sb ← M.sbase
  let rnd ← M.rounding f (some 32)
  let fmt := fmtOf f.ty
  M.putVec (vs.putElems f.vd.toNat w (env.elems (vs.mask f.m.toNat)) fun e =>
    let r := rnd (sb + e)
    fmt.round r (g r (fmt.decode (vs.elem f.va.toNat w e)) (fmt.decode (b e)) (fmt.decode (vs.elem f.vd.toNat w e))))

/-- The operand of the one-source forms, whose vb is zero and names nothing. -/
def oneSrc (f : VWord) : VWord := { f with form := 0, vb := f.va }

/-- The result of R74 in a format: correctly rounded, in f64 one of the two neighbours of an inexact result. Which one is
decided by the operation, the mode and the operand alone. -/
def roundR74 (op : Nat) (fmt : Fmt) (r : Rnd) (a : Nat) (v : FRes) : Nat :=
  match v with
  | .num s m e sticky =>
    if fmt.fbits = 52 && decide ((log2 m : Int) + e < 1024) then
      let away : Rnd := { r with mode := if s then 2 else 3 }
      if Config.faithfulUp op r.mode (BitVec.ofNat 64 a) then fmt.round away (.num s m e sticky)
      else fmt.round { r with mode := 1 } (.num s m e sticky)
    else fmt.round r v
  | _ => fmt.round r v

/-- A one-source operation of R74. -/
def unaryOp {s0 : State} (op : Nat) (f : VWord) (env : VEnv) (g : FVal → FRes) : M s0 PUnit := do
  M.arithCheck env M.threaded (oneSrc f) (some f.vd) [f.va]
  let w := tyBits f.ty
  let vs ← M.vec
  let sb ← M.sbase
  let rnd ← M.rounding f (some 32)
  let fmt := fmtOf f.ty
  M.putVec (vs.putElems f.vd.toNat w (env.elems (vs.mask f.m.toNat)) fun e =>
    let a := vs.elem f.va.toNat w e
    roundR74 op fmt (rnd (sb + e)) a (g (fmt.decode a)))

/-- `vfadd`: round(A + B) (R120). -/
def vfaddCore {s0 : State} (f : VWord) (env : VEnv) : M s0 PUnit :=
  floatOp f env M.anywhere fun r a b _ => fadd r a b

/-- `vfadd` for the whole strip. -/
def execVfadd (f : VWord) (s : State) : Host.Outcome State Fault Refusal := vexec s (vfaddCore f)

/-- `vfsub`: round(A − B) (R120). -/
def vfsubCore {s0 : State} (f : VWord) (env : VEnv) : M s0 PUnit :=
  floatOp f env M.threaded fun r a b _ => fadd r a b.neg

/-- `vfsub` for the whole strip. -/
def execVfsub (f : VWord) (s : State) : Host.Outcome State Fault Refusal := vexec s (vfsubCore f)

/-- `vfmul`: round(A × B) (R120). -/
def vfmulCore {s0 : State} (f : VWord) (env : VEnv) : M s0 PUnit :=
  floatOp f env M.anywhere fun _ a b _ => (fmul a b).res

/-- `vfmul` for the whole strip. -/
def execVfmul (f : VWord) (s : State) : Host.Outcome State Fault Refusal := vexec s (vfmulCore f)

/-- `vfma`: round(A × B + C), one rounding (R120). -/
def vfmaCore {s0 : State} (f : VWord) (env : VEnv) : M s0 PUnit :=
  floatOp f env M.anywhere fun r a b c => fadd r (fmul a b) c

/-- `vfma` for the whole strip. -/
def execVfma (f : VWord) (s : State) : Host.Outcome State Fault Refusal := vexec s (vfmaCore f)

/-- `vfms`: round(A × B − C), one rounding (R120). -/
def vfmsCore {s0 : State} (f : VWord) (env : VEnv) : M s0 PUnit :=
  floatOp f env M.threaded fun r a b c => fadd r (fmul a b) c.neg

/-- `vfms` for the whole strip. -/
def execVfms (f : VWord) (s : State) : Host.Outcome State Fault Refusal := vexec s (vfmsCore f)

/-- `vfnma`: round(C − A × B), one rounding (R120). -/
def vfnmaCore {s0 : State} (f : VWord) (env : VEnv) : M s0 PUnit :=
  floatOp f env M.threaded fun r a b c => fadd r c (fmul a b).neg

/-- `vfnma` for the whole strip. -/
def execVfnma (f : VWord) (s : State) : Host.Outcome State Fault Refusal := vexec s (vfnmaCore f)

/-- `vfdiv`: round(A ÷ B) (R120). -/
def vfdivCore {s0 : State} (f : VWord) (env : VEnv) : M s0 PUnit :=
  floatOp f env M.threaded fun _ a b _ => fdiv a b

/-- `vfdiv` for the whole strip. -/
def execVfdiv (f : VWord) (s : State) : Host.Outcome State Fault Refusal := vexec s (vfdivCore f)

/-- `vfsqrt`: round(√A); NaN below zero, −0 for −0 (R120). -/
def vfsqrtCore {s0 : State} (f : VWord) (env : VEnv) : M s0 PUnit :=
  floatOp (oneSrc f) env M.threaded fun _ a _ _ => fsqrt a

/-- `vfsqrt` for the whole strip. -/
def execVfsqrt (f : VWord) (s : State) : Host.Outcome State Fault Refusal := vexec s (vfsqrtCore f)

/-- `vfrcp`: the reciprocal (R74). -/
def vfrcpCore {s0 : State} (f : VWord) (env : VEnv) : M s0 PUnit :=
  unaryOp 0x2C f env frcp

/-- `vfrcp` for the whole strip. -/
def execVfrcp (f : VWord) (s : State) : Host.Outcome State Fault Refusal := vexec s (vfrcpCore f)

/-- `vfrsq`: the reciprocal square root (R74). -/
def vfrsqCore {s0 : State} (f : VWord) (env : VEnv) : M s0 PUnit :=
  unaryOp 0x30 f env frsq

/-- `vfrsq` for the whole strip. -/
def execVfrsq (f : VWord) (s : State) : Host.Outcome State Fault Refusal := vexec s (vfrsqCore f)

/-- `vfexp2`: 2 to the power A (R74). -/
def vfexp2Core {s0 : State} (f : VWord) (env : VEnv) : M s0 PUnit :=
  unaryOp 0x2D f env fexp2

/-- `vfexp2` for the whole strip. -/
def execVfexp2 (f : VWord) (s : State) : Host.Outcome State Fault Refusal := vexec s (vfexp2Core f)

/-- `vflog2`: the base-2 logarithm (R74). -/
def vflog2Core {s0 : State} (f : VWord) (env : VEnv) : M s0 PUnit :=
  unaryOp 0x2E f env flog2

/-- `vflog2` for the whole strip. -/
def execVflog2 (f : VWord) (s : State) : Host.Outcome State Fault Refusal := vexec s (vflog2Core f)

/-- `vfmin`: the minimum under R69. -/
def vfminCore {s0 : State} (f : VWord) (env : VEnv) : M s0 PUnit :=
  bitsOp f env fun fmt a b => fmt.min a b

/-- `vfmin` for the whole strip. -/
def execVfmin (f : VWord) (s : State) : Host.Outcome State Fault Refusal := vexec s (vfminCore f)

/-- `vfmax`: the maximum under R69. -/
def vfmaxCore {s0 : State} (f : VWord) (env : VEnv) : M s0 PUnit :=
  bitsOp f env fun fmt a b => fmt.max a b

/-- `vfmax` for the whole strip. -/
def execVfmax (f : VWord) (s : State) : Host.Outcome State Fault Refusal := vexec s (vfmaxCore f)

/-- `vfabs`: A with the sign bit cleared (R68, R120). -/
def vfabsCore {s0 : State} (f : VWord) (env : VEnv) : M s0 PUnit :=
  bitsOp (oneSrc f) env fun fmt a _ => a % 2 ^ (fmt.width - 1)

/-- `vfabs` for the whole strip. -/
def execVfabs (f : VWord) (s : State) : Host.Outcome State Fault Refusal := vexec s (vfabsCore f)

/-- `vfneg`: A with the sign bit inverted (R68, R120). -/
def vfnegCore {s0 : State} (f : VWord) (env : VEnv) : M s0 PUnit :=
  bitsOp (oneSrc f) env fun fmt a _ => a ^^^ 2 ^ (fmt.width - 1)

/-- `vfneg` for the whole strip. -/
def execVfneg (f : VWord) (s : State) : Host.Outcome State Fault Refusal := vexec s (vfnegCore f)

/-- `vfclamp`: the maximum with the lower bound, then the minimum with the upper bound (R121). -/
def vfclampCore {s0 : State} (f : VWord) (env : VEnv) : M s0 PUnit :=
  do
  M.arithCheck env M.threaded f (some f.vd) [f.va]
  let g := (← M.hart).sr.vgrp.n
  if f.vb.toNat + 2 * g > 32 then M.illegal env
  let w := tyBits f.ty
  let fmt := fmtOf f.ty
  let vs ← M.vec
  M.putVec (vs.putElems f.vd.toNat w (env.elems (vs.mask f.m.toNat)) fun e =>
    let lo := vs.elem f.vb.toNat w (vbPos f e)
    let hi := vs.elem (f.vb.toNat + g) w (vbPos f e)
    fmt.min (fmt.max (vs.elem f.va.toNat w e) lo) hi)

/-- `vfclamp` for the whole strip. -/
def execVfclamp (f : VWord) (s : State) : Host.Outcome State Fault Refusal := vexec s (vfclampCore f)

end Sys2Proof.Machine
end

