-- ==== Sys2Proof/Machine/VInt.lean ====
section
/-!
DEFINITION. Integer vector arithmetic (R118, R119) and the bit-plane forms (R78, R127, R128).
-/

namespace Sys2Proof.Machine

/-- An integer operation of two sources and the old destination, on w-bit patterns. -/
def intOp {s0 : State} (f : VWord) (env : VEnv) (g : (w : Nat) → BitVec w → BitVec w → BitVec w → BitVec w) :
    M s0 PUnit := do
  M.arithCheck env M.threaded f (some f.vd) [f.va]
  let w := tyBits f.ty
  let b ← M.operandB f w
  let vs ← M.vec
  M.putVec (vs.putElems f.vd.toNat w (env.elems (vs.mask f.m.toNat)) fun e =>
    (g w (BitVec.ofNat w (vs.elem f.va.toNat w e)) (BitVec.ofNat w (b e)) (BitVec.ofNat w (vs.elem f.vd.toNat w e))).toNat)

/-- An operation whose signedness follows the type. -/
def byType (t : BitVec 4) {α : Type} (signed unsigned : α) : α := if tySigned t then signed else unsigned

/-- The exact value of a pattern under a type, kept to the type's range. -/
def satOp (t : BitVec 4) (w : Nat) (v : Int) : BitVec w := BitVec.ofInt w (clampInt (tySigned t) w v)

/-- `vadd`: A + B modulo 2^w (R118). -/
def vaddCore {s0 : State} (f : VWord) (env : VEnv) : M s0 PUnit :=
  intOp f env fun _ a b _ => a + b

/-- `vadd` for the whole strip. -/
def execVadd (f : VWord) (s : State) : Host.Outcome State Fault Refusal := vexec s (vaddCore f)

/-- `vsub`: A − B modulo 2^w (R118). -/
def vsubCore {s0 : State} (f : VWord) (env : VEnv) : M s0 PUnit :=
  intOp f env fun _ a b _ => a - b

/-- `vsub` for the whole strip. -/
def execVsub (f : VWord) (s : State) : Host.Outcome State Fault Refusal := vexec s (vsubCore f)

/-- `vmul`: low w bits of A × B (R118). -/
def vmulCore {s0 : State} (f : VWord) (env : VEnv) : M s0 PUnit :=
  intOp f env fun _ a b _ => a * b

/-- `vmul` for the whole strip. -/
def execVmul (f : VWord) (s : State) : Host.Outcome State Fault Refusal := vexec s (vmulCore f)

/-- `vmulh`: bits 2w−1:w of A × B, signed or unsigned by type (R118). -/
def vmulhCore {s0 : State} (f : VWord) (env : VEnv) : M s0 PUnit :=
  intOp f env fun _ a b _ => byType f.ty (opMulh a b) (opMulhu a b)

/-- `vmulh` for the whole strip. -/
def execVmulh (f : VWord) (s : State) : Host.Outcome State Fault Refusal := vexec s (vmulhCore f)

/-- `vmadd`: A × B + vd[e] modulo 2^w (R118). -/
def vmaddCore {s0 : State} (f : VWord) (env : VEnv) : M s0 PUnit :=
  intOp f env fun _ a b c => a * b + c

/-- `vmadd` for the whole strip. -/
def execVmadd (f : VWord) (s : State) : Host.Outcome State Fault Refusal := vexec s (vmaddCore f)

/-- `vdiv`: quotient toward zero with the results of R88 (R118). -/
def vdivCore {s0 : State} (f : VWord) (env : VEnv) : M s0 PUnit :=
  intOp f env fun _ a b _ => byType f.ty (opDiv a b) (opDivu a b)

/-- `vdiv` for the whole strip. -/
def execVdiv (f : VWord) (s : State) : Host.Outcome State Fault Refusal := vexec s (vdivCore f)

/-- `vrem`: A − B × quotient (R118). -/
def vremCore {s0 : State} (f : VWord) (env : VEnv) : M s0 PUnit :=
  intOp f env fun _ a b _ => byType f.ty (opRem a b) (opRemu a b)

/-- `vrem` for the whole strip. -/
def execVrem (f : VWord) (s : State) : Host.Outcome State Fault Refusal := vexec s (vremCore f)

/-- `vmin`: the smaller by type (R118). -/
def vminCore {s0 : State} (f : VWord) (env : VEnv) : M s0 PUnit :=
  intOp f env fun _ a b _ => byType f.ty (opMin a b) (opMinu a b)

/-- `vmin` for the whole strip. -/
def execVmin (f : VWord) (s : State) : Host.Outcome State Fault Refusal := vexec s (vminCore f)

/-- `vmax`: the larger by type (R118). -/
def vmaxCore {s0 : State} (f : VWord) (env : VEnv) : M s0 PUnit :=
  intOp f env fun _ a b _ => byType f.ty (opMax a b) (opMaxu a b)

/-- `vmax` for the whole strip. -/
def execVmax (f : VWord) (s : State) : Host.Outcome State Fault Refusal := vexec s (vmaxCore f)

/-- `vand`: bitwise AND (R118). -/
def vandCore {s0 : State} (f : VWord) (env : VEnv) : M s0 PUnit :=
  intOp f env fun _ a b _ => a &&& b

/-- `vand` for the whole strip. -/
def execVand (f : VWord) (s : State) : Host.Outcome State Fault Refusal := vexec s (vandCore f)

/-- `vor`: bitwise OR (R118). -/
def vorCore {s0 : State} (f : VWord) (env : VEnv) : M s0 PUnit :=
  intOp f env fun _ a b _ => a ||| b

/-- `vor` for the whole strip. -/
def execVor (f : VWord) (s : State) : Host.Outcome State Fault Refusal := vexec s (vorCore f)

/-- `vxor`: bitwise XOR (R118). -/
def vxorCore {s0 : State} (f : VWord) (env : VEnv) : M s0 PUnit :=
  intOp f env fun _ a b _ => a ^^^ b

/-- `vxor` for the whole strip. -/
def execVxor (f : VWord) (s : State) : Host.Outcome State Fault Refusal := vexec s (vxorCore f)

/-- `vshl`: A << (B mod w) (R118). -/
def vshlCore {s0 : State} (f : VWord) (env : VEnv) : M s0 PUnit :=
  intOp f env fun _ a b _ => opShl a b

/-- `vshl` for the whole strip. -/
def execVshl (f : VWord) (s : State) : Host.Outcome State Fault Refusal := vexec s (vshlCore f)

/-- `vshr`: A >> (B mod w), zeros in (R118). -/
def vshrCore {s0 : State} (f : VWord) (env : VEnv) : M s0 PUnit :=
  intOp f env fun _ a b _ => opShr a b

/-- `vshr` for the whole strip. -/
def execVshr (f : VWord) (s : State) : Host.Outcome State Fault Refusal := vexec s (vshrCore f)

/-- `vsra`: A >> (B mod w), sign bits in (R118). -/
def vsraCore {s0 : State} (f : VWord) (env : VEnv) : M s0 PUnit :=
  intOp f env fun _ a b _ => opSra a b

/-- `vsra` for the whole strip. -/
def execVsra (f : VWord) (s : State) : Host.Outcome State Fault Refusal := vexec s (vsraCore f)

/-- `vsadd`: A + B saturated to the type's range (R118). -/
def vsaddCore {s0 : State} (f : VWord) (env : VEnv) : M s0 PUnit :=
  intOp f env fun w a b _ => satOp f.ty w (tyInt f.ty w a.toNat + tyInt f.ty w b.toNat)

/-- `vsadd` for the whole strip. -/
def execVsadd (f : VWord) (s : State) : Host.Outcome State Fault Refusal := vexec s (vsaddCore f)

/-- `vssub`: A − B saturated to the type's range (R118). -/
def vssubCore {s0 : State} (f : VWord) (env : VEnv) : M s0 PUnit :=
  intOp f env fun w a b _ => satOp f.ty w (tyInt f.ty w a.toNat - tyInt f.ty w b.toNat)

/-- `vssub` for the whole strip. -/
def execVssub (f : VWord) (s : State) : Host.Outcome State Fault Refusal := vexec s (vssubCore f)

/-- `vabs`: |A| modulo 2^w for signed types, A for unsigned types (R118). -/
def vabsCore {s0 : State} (f : VWord) (env : VEnv) : M s0 PUnit :=
  intOp { f with form := 0, vb := f.va } env fun _ a _ _ => if tySigned f.ty && a.msb then -a else a

/-- `vabs` for the whole strip. -/
def execVabs (f : VWord) (s : State) : Host.Outcome State Fault Refusal := vexec s (vabsCore f)

/-- A 2w-bit integer shifted right by n and rounded (R119): k of `rsto` is min(n, 32). -/
def clipRound (r : Rnd) (v : Int) (n : Nat) : Int :=
  let q := v / 2 ^ n
  let rem := (v % 2 ^ n).toNat
  if r.mode = 4 then
    -- stochastic rounding works on the magnitude
    let m := v.natAbs
    let k := if r.up (v < 0) (m / 2 ^ n) (m % 2 ^ n) n false then m / 2 ^ n + 1 else m / 2 ^ n
    if v < 0 then -(k : Int) else k
  else if rem = 0 then q
  else if r.mode = 0 then
    (if 2 * rem > 2 ^ n || (2 * rem = 2 ^ n && q % 2 ≠ 0) then q + 1 else q)
  else if r.mode = 1 then (if v < 0 then q + 1 else q)
  else if r.mode = 2 then q
  else q + 1

/-- `vclip`: narrows with a right shift and rounding (R119). -/
def vclipCore {s0 : State} (f : VWord) (env : VEnv) : M s0 PUnit :=
  do
  M.modeCheck env M.threaded (some f.vd)
  let w := tyBits f.ty
  M.needSew env (2 * w)
  let n := (← M.hart).sr.vl.toNat
  M.needSpan env f.vd n w
  M.needSpan env f.va n (2 * w)
  let sh := f.x.toNat % 64
  let vs ← M.vec
  let sb ← M.sbase
  let rnd ← M.rounding f (some (min sh 32))
  M.putVec (vs.putElems f.vd.toNat w (env.elems (vs.mask f.m.toNat)) fun e =>
    let v := clipRound (rnd (sb + e)) (tyInt f.ty (2 * w) (vs.elem f.va.toNat (2 * w) e)) sh
    wrapInt w (if f.ctl.getLsbD 3 then clampInt (tySigned f.ty) w v else v))

/-- `vclip` for the whole strip. -/
def execVclip (f : VWord) (s : State) : Host.Outcome State Fault Refusal := vexec s (vclipCore f)

/-! ## Bit planes (R78) -/

/-- Position e of a bp operand of n planes at register r. -/
def VecState.planes (vs : VecState) (r n e : Nat) : Nat :=
  ((List.range n).map fun p => if (vs.reg (r + p)).getLsbD e then 2 ^ p else 0).sum

/-- Write position e of a bp operand of n planes. -/
def VecState.putPlanes (vs : VecState) (r n e v : Nat) : VecState :=
  (List.range n).foldl (fun acc p => acc.putBits (r + p) e 1 (v / 2 ^ p % 2)) vs

/-- A bit-plane operation: `sew` is 8; every destination plane of a performed position is written (R128). -/
def planeOp {s0 : State} (f : VWord) (env : VEnv) (out : Nat) (g : VecState → Nat → Nat) : M s0 PUnit := do
  M.modeCheck env M.plain (some f.vd)
  M.needSew env 8
  let vs ← M.vec
  M.putVec ((env.elems (vs.mask f.m.toNat)).foldl (fun acc e => acc.putPlanes f.vd.toNat out e (g vs e)) vs)

/-- `vpadd`: va + vb on w planes, one plane more when widened (R128). -/
def vpaddCore {s0 : State} (f : VWord) (env : VEnv) : M s0 PUnit :=
  do
  M.needUnit env f
  planeOp f env f.planesOut fun vs e => vs.planes f.va.toNat f.planes e + vs.planes f.vb.toNat f.planes (vbPos f e)

/-- `vpadd` for the whole strip. -/
def execVpadd (f : VWord) (s : State) : Host.Outcome State Fault Refusal := vexec s (vpaddCore f)

/-- The product of `vpmul` and `vpmac`: wa planes of va by wb planes of vb. -/
def planeProduct (f : VWord) (vs : VecState) (e : Nat) : Nat :=
  vs.planes f.va.toNat (f.x.toNat % 16 + 1) e * vs.planes f.vb.toNat (f.x.toNat / 16 % 16 + 1) e

/-- `vpmul`: va × vb on wd planes, one more when widened (R128). -/
def vpmulCore {s0 : State} (f : VWord) (env : VEnv) : M s0 PUnit :=
  planeOp f env f.planesOut fun vs e => planeProduct f vs e

/-- `vpmul` for the whole strip. -/
def execVpmul (f : VWord) (s : State) : Host.Outcome State Fault Refusal := vexec s (vpmulCore f)

/-- `vpmac`: vd + va × vb on wd planes; the accumulator is read as wd planes (R128). -/
def vpmacCore {s0 : State} (f : VWord) (env : VEnv) : M s0 PUnit :=
  planeOp f env f.planesOut fun vs e => vs.planes f.vd.toNat f.planes e + planeProduct f vs e

/-- `vpmac` for the whole strip. -/
def execVpmac (f : VWord) (s : State) : Host.Outcome State Fault Refusal := vexec s (vpmacCore f)

/-- `vbpl`: transposes an ordinary operand into w planes (R127). -/
def vbplCore {s0 : State} (f : VWord) (env : VEnv) : M s0 PUnit :=
  do
  M.modeCheck env M.plain (some f.vd)
  let w := tyBits f.srcTy
  M.needSew env w
  M.needSpan env f.va (← M.hart).sr.vl.toNat w
  let vs ← M.vec
  M.putVec ((env.elems (vs.mask f.m.toNat)).foldl
    (fun acc e => acc.putPlanes f.vd.toNat f.planes e (vs.elem f.va.toNat w e)) vs)

/-- `vbpl` for the whole strip. -/
def execVbpl (f : VWord) (s : State) : Host.Outcome State Fault Refusal := vexec s (vbplCore f)

/-- `vbunpl`: expands w planes into an ordinary operand, zero-extended (R127). -/
def vbunplCore {s0 : State} (f : VWord) (env : VEnv) : M s0 PUnit :=
  do
  M.modeCheck env M.plain (some f.vd)
  let w := tyBits f.ty
  M.needSew env w
  M.needSpan env f.vd (← M.hart).sr.vl.toNat w
  let vs ← M.vec
  M.putVec (vs.putElems f.vd.toNat w (env.elems (vs.mask f.m.toNat)) fun e => vs.planes f.va.toNat f.planes e)

/-- `vbunpl` for the whole strip. -/
def execVbunpl (f : VWord) (s : State) : Host.Outcome State Fault Refusal := vexec s (vbunplCore f)

end Sys2Proof.Machine
end

