-- ==== Sys2Proof/Machine/VPermute.lean ====
section
/-!
DEFINITION. Permutes, moves and index generation (R129 to R131). With type fp4 the permutes move whole blocks with their
scales.
-/

namespace Sys2Proof.Machine

/-- The checks of a permute whose vector operands are these registers. -/
def permCheck {s0 : State} (f : VWord) (env : VEnv) (rs : List Reg) : M s0 PUnit := do
  M.modeCheck env M.plain (some f.vd)
  M.needSew env (tyBits f.ty)
  M.needGroups env rs
  M.needUnit env f
  if f.ty = 14 then M.needBlocks env true

/-- The moved units of a permute: elements, or blocks with type fp4. -/
def moved (f : VWord) (n : Nat) : Nat := if f.ty = 14 then blockCount true n / 16 else n

/-- The performed units under the word's mask. -/
def movedElems (f : VWord) (env : VEnv) (vs : VecState) : List Nat :=
  if f.ty = 14 then env.blocks true vs f.m.toNat else env.elems (vs.mask f.m.toNat)

/-- Write into each listed destination unit the unit of a register and an index, or zeros. -/
def VecState.putMoved (vs : VecState) (f : VWord) (ps : List (Nat × Option (Reg × Nat))) : VecState :=
  ps.foldl (fun acc (d, src) =>
    match src with
    | none => if f.ty = 14 then acc.putBlock true f.vd.toNat d 0 (fun _ => 0) else acc.setElem f.vd.toNat (tyBits f.ty) d 0
    | some (r, i) =>
      if f.ty = 14 then
        acc.putBlock true f.vd.toNat d (vs.blockScale true r.toNat i) (fun k => vs.blockElem true r.toNat i k)
      else acc.setElem f.vd.toNat (tyBits f.ty) d (vs.elem r.toNat (tyBits f.ty) i)) vs

/-- The offset of a slide (R129): the immediate, or a snapshotted scalar. -/
def slideOffset {s0 : State} (f : VWord) : M s0 Nat := do
  if f.x.getLsbD 17 then return (← M.snap (f.x.toNat % 32)).toNat else return f.x.toNat % 8192

/-- `vperm`: va[i] with i the second operand, 0 past vlmax (R129). -/
def vpermCore {s0 : State} (f : VWord) (env : VEnv) : M s0 PUnit :=
  do
  permCheck f env ([f.vd, f.va] ++ M.bRegs f)
  let w := tyBits f.ty
  let b ← M.operandB f w
  let vs ← M.vec
  let grp := (← M.hart).sr.vgrp.n
  let vm ← M.hartVlmax
  let lim := if f.ty = 14 then min (moved f vm) (blocksPerReg true * grp) else vm
  M.putVec (vs.putMoved f ((movedElems f env vs).map fun e =>
    let i := b e % 2 ^ w
    (e, if i < lim then some (f.va, i) else none)))

/-- `vperm` for the whole strip. -/
def execVperm (f : VWord) (s : State) : Host.Outcome State Fault Refusal := vexec s (vpermCore f)

/-- `vslup`: va moved up, the last elements of vc below it (R129). -/
def vslupCore {s0 : State} (f : VWord) (env : VEnv) : M s0 PUnit :=
  do
  permCheck f env [f.vd, f.va, f.vb]
  let n := moved f (← M.hart).sr.vl.toNat
  let o := min (← slideOffset f) n
  let vs ← M.vec
  M.putVec (vs.putMoved f ((movedElems f env vs).map fun e =>
    (e, some (if e ≥ o then (f.va, e - o) else (f.vb, n - o + e)))))

/-- `vslup` for the whole strip. -/
def execVslup (f : VWord) (s : State) : Host.Outcome State Fault Refusal := vexec s (vslupCore f)

/-- `vsldn`: va moved down, the first elements of vc behind it (R129). -/
def vsldnCore {s0 : State} (f : VWord) (env : VEnv) : M s0 PUnit :=
  do
  permCheck f env [f.vd, f.va, f.vb]
  let n := moved f (← M.hart).sr.vl.toNat
  let o := min (← slideOffset f) n
  let vs ← M.vec
  M.putVec (vs.putMoved f ((movedElems f env vs).map fun e =>
    (e, some (if e + o < n then (f.va, e + o) else (f.vb, e + o - n)))))

/-- `vsldn` for the whole strip. -/
def execVsldn (f : VWord) (s : State) : Host.Outcome State Fault Refusal := vexec s (vsldnCore f)

/-- `vcompress`: the selected elements of va packed from position 0 (R130). -/
def vcompressCore {s0 : State} (f : VWord) (env : VEnv) : M s0 PUnit :=
  do
  permCheck f env [f.vd, f.va]
  let vs ← M.vec
  M.putVec (vs.putMoved f ((movedElems f env vs).mapIdx fun i e => (i, some (f.va, e))))

/-- `vcompress` for the whole strip. -/
def execVcompress (f : VWord) (s : State) : Host.Outcome State Fault Refusal := vexec s (vcompressCore f)

/-- `vexpand`: the first elements of va spread over the selected positions (R130). -/
def vexpandCore {s0 : State} (f : VWord) (env : VEnv) : M s0 PUnit :=
  do
  permCheck f env [f.vd, f.va]
  let vs ← M.vec
  M.putVec (vs.putMoved f ((movedElems f env vs).mapIdx fun i e => (e, some (f.va, i))))

/-- `vexpand` for the whole strip. -/
def execVexpand (f : VWord) (s : State) : Host.Outcome State Fault Refusal := vexec s (vexpandCore f)

/-- `vmv`: copies or broadcasts the second operand (R131). -/
def vmvCore {s0 : State} (f : VWord) (env : VEnv) : M s0 PUnit :=
  do
  M.arithCheck env M.anywhere f (some f.vd) []
  let w := tyBits f.ty
  let b ← M.operandB f w
  let vs ← M.vec
  M.putVec (vs.putElems f.vd.toNat w (env.elems (vs.mask f.m.toNat)) b)

/-- `vmv` for the whole strip. -/
def execVmv (f : VWord) (s : State) : Host.Outcome State Fault Refusal := vexec s (vmvCore f)

/-- `vid`: sb + e modulo 2^SEW (R131). -/
def vidCore {s0 : State} (f : VWord) (env : VEnv) : M s0 PUnit :=
  do
  M.modeCheck env M.threaded (some f.vd)
  let w := tyBits f.ty
  M.needSew env w
  M.needGroups env [f.vd]
  let vs ← M.vec
  let sb ← M.sbase
  M.putVec (vs.putElems f.vd.toNat w (env.elems (vs.mask f.m.toNat)) fun e => (sb + e) % 2 ^ w)

/-- `vid` for the whole strip. -/
def execVid (f : VWord) (s : State) : Host.Outcome State Fault Refusal := vexec s (vidCore f)

end Sys2Proof.Machine
end

