-- ==== Sys2Proof/Machine/Invert.lean ====
section
/-!
DEFINITION. Brackets and the invert prefix (R164 to R169).
-/

namespace Sys2Proof.Machine

/-! ## Brackets (R164) -/

/-- Element e of a bracket at width w. -/
def bracketElem (b : Bracket) (w e : Nat) : Nat := (b.extractLsb' (e * w) w).toNat

/-- A bracket with element e replaced. -/
def setBracket (b : Bracket) (w e v : Nat) : Bracket :=
  (b &&& ~~~(BitVec.ofNat 65536 (2 ^ w - 1) <<< (e * w))) ||| (BitVec.ofNat 65536 (v % 2 ^ w) <<< (e * w))

/-- `vbrk`: blo and bhi from two vector groups (R164). -/
def vbrkCore {s0 : State} (f : VWord) (env : VEnv) : M s0 PUnit :=
  do
  M.modeCheck env M.plain none
  let w := tyBits f.ty
  M.needSew env w
  M.needGroups env [f.va, f.vb]
  let vs ← M.vec
  M.putVec ((env.elems (vs.mask f.m.toNat)).foldl (fun acc e =>
    { acc with blo := setBracket acc.blo w e (vs.elem f.va.toNat w e),
               bhi := setBracket acc.bhi w e (vs.elem f.vb.toNat w e) }) vs)

/-- `vbrk` for the whole strip. -/
def execVbrk (f : VWord) (s : State) : Host.Outcome State Fault Refusal := vexec s (vbrkCore f)

/-- `vbrkrd`: blo or bhi into a vector group (R164). -/
def vbrkrdCore {s0 : State} (f : VWord) (env : VEnv) : M s0 PUnit :=
  do
  M.modeCheck env M.plain (some f.vd)
  let w := tyBits f.ty
  M.needSew env w
  M.needGroups env [f.vd]
  let vs ← M.vec
  let b := if f.ctl.getLsbD 0 then vs.bhi else vs.blo
  M.putVec (vs.putElems f.vd.toNat w (env.elems (vs.mask f.m.toNat)) (bracketElem b w))

/-- `vbrkrd` for the whole strip. -/
def execVbrkrd (f : VWord) (s : State) : Host.Outcome State Fault Refusal := vexec s (vbrkrdCore f)

/-! ## The routine (R165) -/

/-- The meaning of a word that may stand in a routine: integer and floating arithmetic, `vcmp` and mask logic, `vmsel`, `vcvt`, `vmv`
and `vid`. -/
def routineCore {s0 : State} : Instr → Option (VEnv → M s0 PUnit)
  | .vadd f => some (vaddCore f)
  | .vsub f => some (vsubCore f)
  | .vmul f => some (vmulCore f)
  | .vmulh f => some (vmulhCore f)
  | .vmadd f => some (vmaddCore f)
  | .vdiv f => some (vdivCore f)
  | .vrem f => some (vremCore f)
  | .vmin f => some (vminCore f)
  | .vmax f => some (vmaxCore f)
  | .vand f => some (vandCore f)
  | .vor f => some (vorCore f)
  | .vxor f => some (vxorCore f)
  | .vshl f => some (vshlCore f)
  | .vshr f => some (vshrCore f)
  | .vsra f => some (vsraCore f)
  | .vsadd f => some (vsaddCore f)
  | .vssub f => some (vssubCore f)
  | .vabs f => some (vabsCore f)
  | .vclip f => some (vclipCore f)
  | .vfadd f => some (vfaddCore f)
  | .vfsub f => some (vfsubCore f)
  | .vfmul f => some (vfmulCore f)
  | .vfma f => some (vfmaCore f)
  | .vfms f => some (vfmsCore f)
  | .vfnma f => some (vfnmaCore f)
  | .vfdiv f => some (vfdivCore f)
  | .vfsqrt f => some (vfsqrtCore f)
  | .vfmin f => some (vfminCore f)
  | .vfmax f => some (vfmaxCore f)
  | .vfabs f => some (vfabsCore f)
  | .vfneg f => some (vfnegCore f)
  | .vfrcp f => some (vfrcpCore f)
  | .vfexp2 f => some (vfexp2Core f)
  | .vflog2 f => some (vflog2Core f)
  | .vfclamp f => some (vfclampCore f)
  | .vfrsq f => some (vfrsqCore f)
  | .vcmp f => some (vcmpCore f)
  | .vmand f => some (vmandCore f)
  | .vmor f => some (vmorCore f)
  | .vmxor f => some (vmxorCore f)
  | .vmnot f => some (vmnotCore f)
  | .vmsel f => some (vmselCore f)
  | .vcvt f => some (vcvtCore f)
  | .vmv f => some (vmvCore f)
  | .vid f => some (vidCore f)
  | _ => none

/-- The parameters of an `inv`. -/
structure InvArgs where
  n : Nat
  cap : Nat
  tol : Nat
  mu : Nat
  ge : Bool
  dec : Bool
  deriving DecidableEq, Repr

/-- The fields of x and ctl. -/
def invArgs (f : VWord) : InvArgs :=
  { n := f.x.toNat % 16 + 1, cap := f.x.toNat / 16 % 64 + 1, tol := f.x.toNat / 1024 % 32, mu := f.x.toNat / 32768,
    ge := f.ctl.getLsbD 0, dec := f.ctl.getLsbD 1 }

/-! ## Order (R166) -/

/-- The order-preserving map of a type to integers. -/
def invOrd (t : BitVec 4) (b : Nat) : Nat :=
  let w := tyBits t
  if t = 6 then b
  else if t = 2 then b ^^^ 2 ^ 31
  else if b < 2 ^ (w - 1) then b + 2 ^ (w - 1) else 2 ^ w - 1 - b

/-- Its inverse. -/
def invUnord (t : BitVec 4) (o : Nat) : Nat :=
  let w := tyBits t
  if t = 6 then o
  else if t = 2 then o ^^^ 2 ^ 31
  else if o ≥ 2 ^ (w - 1) then o - 2 ^ (w - 1) else 2 ^ w - 1 - o

/-- a ≤ b in the type's own order; a NaN compares false. -/
def invLe (t : BitVec 4) (a b : Nat) : Bool := condOf t 3 a b

/-- A value is a NaN of the type. -/
def invNan (t : BitVec 4) (b : Nat) : Bool := tyFloat t && ((fmtOf t).decode b).isNan

/-! ## Bisection (R167) -/

/-- The bracket of one element on the way: the ends and the routine's values there. -/
structure InvElem where
  e : Nat
  lo : Nat
  hi : Nat
  flo : Nat
  fhi : Nat
  deriving DecidableEq, Repr

/-- Width of the bracket. -/
def InvElem.width (t : BitVec 4) (x : InvElem) : Nat := invOrd t x.hi - invOrd t x.lo

/-- The good set lies at the low end. -/
def InvArgs.lower (a : InvArgs) : Bool := a.ge == a.dec

/-- good(v) for a target. -/
def InvArgs.good (a : InvArgs) (t : BitVec 4) (v target : Nat) : Bool := if a.ge then invLe t target v else invLe t v target

/-- The midpoint. -/
def InvElem.mid (t : BitVec 4) (x : InvElem) : Nat := invUnord t ((invOrd t x.lo + invOrd t x.hi) / 2)

/-- f(lo) and f(hi) do not enclose the target. -/
def InvArgs.outside (a : InvArgs) (t : BitVec 4) (x : InvElem) (target : Nat) : Bool :=
  if a.lower then !a.good t x.flo target else !a.good t x.fhi target

/-- The bracket after the first two evaluations. -/
def InvArgs.start (a : InvArgs) (t : BitVec 4) (x : InvElem) (target : Nat) : InvElem :=
  if a.lower then (if a.good t x.fhi target then { x with lo := x.hi, flo := x.fhi } else x)
  else if a.good t x.flo target then { x with hi := x.lo, fhi := x.flo } else x

/-- f(mid) lies outside the monotone range. -/
def InvArgs.broken (a : InvArgs) (t : BitVec 4) (x : InvElem) (fm : Nat) : Bool :=
  if a.dec then !(invLe t fm x.flo && invLe t x.fhi fm) else !(invLe t x.flo fm && invLe t fm x.fhi)

/-- One bisection. -/
def InvArgs.halve (a : InvArgs) (t : BitVec 4) (x : InvElem) (fm target : Nat) : InvElem :=
  if a.good t fm target == a.lower then { x with lo := x.mid t, flo := fm } else { x with hi := x.mid t, fhi := fm }

namespace M

variable {s0 : State}

/-- The decoded routine words after the `inv`, or none where R165 is broken: a word outside its list, or one that writes vx, vt, mu
or the `inv`'s own mask. -/
def invRoutine (f : VWord) : M s0 (Option (List Instr)) := do
  let h ← hart
  let a := invArgs f
  let words := match h.ctx with
    | some c => (c.words.drop (c.idx + 1)).take a.n
    | none => []
  let g := h.sr.vgrp.n
  let ok (i : Instr) : Bool :=
    let u := regUse g h.sr.vl.toNat i
    (routineCore (s0 := s0) i).isSome && !spansMeet u.wr [grpAt g f.va, grpAt g f.vb]
      && !u.mwr.any fun k => k ≠ 0 && (k == a.mu || k == f.m.toNat)
  let is := words.filterMap fun w => match decodeVector w with
    | .ok i => if ok i then some i else none
    | .error _ => none
  return if is.length = a.n then some is else none

/-- f(v) for every listed element together: the arguments go into vx, the routine runs for those elements, and the results are read
from vy. -/
def invEval (env : VEnv) (f : VWord) (routine : List Instr) (xs : List (Nat × Nat)) : M s0 (List (Nat × Nat)) := do
  let w := tyBits f.ty
  modVec fun vs => xs.foldl (fun acc (e, v) => acc.setElem f.va.toNat w e v) vs
  let act : Mask := xs.foldl (fun acc (e, _) => acc ||| (1#8192 <<< e)) 0
  each routine fun i => match routineCore i with
    | some c => c { env with act := some act }
    | none => pure ⟨⟩
  let vs ← vec
  return xs.map fun (e, _) => (e, vs.elem f.vd.toNat w e)

/-- An `inv` traps (R168): vx, vy and what the routine writes are not defined; the trap value is sb + e. -/
def invTrap {α : Type} (env : VEnv) (f : VWord) (routine : List Instr) (c : BitVec 8) (e : Nat) : M s0 α := do
  if env.probe then vecTrap env c 0 (some e)
  let h ← hart
  let g := h.sr.vgrp.n
  let uses := routine.map (regUse g h.sr.vl.toNat)
  freeRegs ([grpAt g f.va, grpAt g f.vd] ++ uses.flatMap (·.wr)) (uses.flatMap (·.mwr)) []
  vecTrap env c (h.sr.sb + BitVec.ofNat 64 e) (some e)

/-- The value of an element in a list of results. -/
def resultOf (l : List (Nat × Nat)) (e : Nat) : Nat := (aget l e).getD 0

/-- The loop of R167: at most n iterations on the elements whose bracket is still wider than 2^tol. -/
def invLoop (env : VEnv) (f : VWord) (routine : List Instr) (tgt : Nat → Nat) : Nat → List InvElem → M s0 (List InvElem)
  | 0, xs => pure xs
  | n + 1, xs => do
    let a := invArgs f
    let live := xs.filter fun x => decide (x.width f.ty > 2 ^ a.tol)
    if live.isEmpty then return xs
    let fm ← invEval env f routine (live.map fun x => (x.e, x.mid f.ty))
    match live.find? fun x => a.broken f.ty x (resultOf fm x.e) with
    | some x => invTrap env f routine 0x0A x.e
    | none =>
      invLoop env f routine tgt n (xs.map fun x =>
        if decide (x.width f.ty > 2 ^ a.tol) then a.halve f.ty x (resultOf fm x.e) (tgt x.e) else x)

/-- The results of the bisection: the final evaluation, then the brackets and mu. -/
def invFinish (env : VEnv) (f : VWord) (routine : List Instr) (xs : List InvElem) : M s0 PUnit := do
  let a := invArgs f
  let w := tyBits f.ty
  let _ ← invEval env f routine (xs.map fun x => (x.e, if a.lower then x.lo else x.hi))
  modVec fun vs => xs.foldl (fun acc x =>
    let acc := { acc with blo := setBracket acc.blo w x.e x.lo, bhi := setBracket acc.bhi w x.e x.hi }
    acc.setMaskBit a.mu x.e (decide (x.width f.ty > 2 ^ a.tol))) vs

/-- Go on at the word after the routine. -/
def invAdvance (f : VWord) : M s0 PUnit :=
  modHart fun h => { h with ctx := h.ctx.map fun c => { c with idx := c.idx + 1 + (invArgs f).n } }

end M

/-- `inv`: bisects the brackets of every performed element at once by running the routine that follows it (R165 to R169). -/
def invCore {s0 : State} (f : VWord) (env : VEnv) : M s0 PUnit := do
  M.modeCheck env M.plain (some f.vd)
  let a := invArgs f
  let w := tyBits f.ty
  M.needSew env w
  M.needGroups env [f.vd, f.va, f.vb]
  match ← M.invRoutine f with
  | none => M.illegal env
  | some routine => do
    let vs ← M.vec
    let es := env.elems (vs.mask f.m.toNat)
    let tgt (e : Nat) : Nat := vs.elem f.vb.toNat w e
    let all := es.map fun e =>
      ({ e := e, lo := bracketElem vs.blo w e, hi := bracketElem vs.bhi w e, flo := 0, fhi := 0 } : InvElem)
    match all.find? fun x => invNan f.ty x.lo || invNan f.ty x.hi with
    | some x => M.invTrap env f routine 0x0B x.e
    | none => pure ⟨⟩
    let right := all.filter fun x => decide (invOrd f.ty x.lo ≤ invOrd f.ty x.hi)
    let flo ← M.invEval env f routine (right.map fun x => (x.e, x.lo))
    let fhi ← M.invEval env f routine (right.map fun x => (x.e, x.hi))
    let all := all.map fun x => { x with flo := M.resultOf flo x.e, fhi := M.resultOf fhi x.e }
    match all.find? fun x => decide (invOrd f.ty x.lo > invOrd f.ty x.hi) || a.outside f.ty x (tgt x.e) with
    | some x => M.invTrap env f routine 0x09 x.e
    | none => pure ⟨⟩
    let xs ← M.invLoop env f routine tgt a.cap (all.map fun x => a.start f.ty x (tgt x.e))
    M.invFinish env f routine xs
    M.invAdvance f

/-- `inv` for the whole strip. -/
def execInv (f : VWord) (s : State) : Host.Outcome State Fault Refusal := vexecJump s (invCore f)

end Sys2Proof.Machine
end

