-- ==== Sys2Proof/Machine/RegionCore.lean ====
section
/-!
DEFINITION. The words that are legal in a lane-threading region, run for some elements of a strip (R161, R162).
-/

namespace Sys2Proof.Machine

/-- The meaning of a word that may stand in a region, the control words `lbr` and `vjoin` apart. -/
def regionCore {s0 : State} : Instr → Option (VEnv → M s0 PUnit)
  | .vld f => some (vldCore f)
  | .vst f => some (vstCore f)
  | .vlds f => some (vldsCore f)
  | .vsts f => some (vstsCore f)
  | .vldx f => some (vldxCore f)
  | .vstx f => some (vstxCore f)
  | .vamo f => some (vamoCore f)
  | .vlsp f => some (vlspCore f)
  | .vssp f => some (vsspCore f)
  | i => routineCore i

end Sys2Proof.Machine
end

