-- ==== Sys2Proof/Machine/VRandom.lean ====
section
/-!
DEFINITION. Generator draws (R134, R135).
-/

namespace Sys2Proof.Machine

/-- The value of a draw in a type (R134). -/
def drawValue (t : BitVec 4) (h : BitVec 32) : Nat :=
  if t = 10 then fmtF32.round .rne (.num false (h.toNat / 2 ^ 8) (-24) false)
  else if t = 8 then fmtBf16.round .rne (.num false (h.toNat / 2 ^ 24) (-8) false)
  else h.toNat % 2 ^ tyBits t

/-- c of R135: √3 × 2^−32 rounded to f64. -/
def noiseC : FVal := fmtF64.decode (fmtF64.round .rne (match fsqrt (.fin false 3 0) with
  | .num s m e k => .num s m (e - 32) k
  | v => v))

/-- The noise of a counter (R135): the sum of four draws, centred and scaled, rounded to f64. -/
def noiseOf (seed ctr : Word) : FVal :=
  let s := ((List.range 4).map fun k => (chash (seed ^^^ BitVec.ofNat 64 k) ctr).toNat).sum
  let d : Int := (s : Int) - 2 ^ 33
  fmtF64.decode (fmtF64.round .rne (fmul (.fin (d < 0) d.natAbs 0) noiseC).res)

/-- `vrand`: draws of the generator under a tag (R134). -/
def vrandCore {s0 : State} (f : VWord) (env : VEnv) : M s0 PUnit :=
  do
  M.modeCheck env M.plain (some f.vd)
  let w := tyBits f.ty
  M.needSew env w
  M.needGroups env [f.vd]
  let tag ← if f.form = 1 then M.snap (f.x.toNat % 32) else pure (BitVec.ofNat 64 (f.x.toNat % 65536))
  let vs ← M.vec
  let sb ← M.sbase
  let seed := (← M.hart).sr.seed
  M.putVec (vs.putElems f.vd.toNat w (env.elems (vs.mask f.m.toNat)) fun e =>
    drawValue f.ty (chash seed (genCtr (tag.setWidth 16) (sb + e))))

/-- `vrand` for the whole strip. -/
def execVrand (f : VWord) (s : State) : Host.Outcome State Fault Refusal := vexec s (vrandCore f)

/-- `vnoise`: adds noise of a given deviation to each element (R135). -/
def vnoiseCore {s0 : State} (f : VWord) (env : VEnv) : M s0 PUnit :=
  do
  M.arithCheck env M.plain f (some f.vd) [f.va]
  let w := tyBits f.ty
  let b ← M.operandB f w
  let vs ← M.vec
  let sb ← M.sbase
  let rnd ← M.rounding f (some 32)
  let r := (← M.hart).sr
  let fmt := fmtOf f.ty
  M.putVec (vs.putElems f.vd.toNat w (env.elems (vs.mask f.m.toNat)) fun e =>
    let n := noiseOf r.seed (genCtr (r.stag ^^^ 0x8000#16) (sb + e))
    let k := rnd (sb + e)
    fmt.round k (fadd k (fmt.decode (vs.elem f.va.toNat w e)) (fmul (fmt.decode (b e)) n)))

/-- `vnoise` for the whole strip. -/
def execVnoise (f : VWord) (s : State) : Host.Outcome State Fault Refusal := vexec s (vnoiseCore f)

end Sys2Proof.Machine
end

