-- ==== Sys2Proof/Machine/VReduce.lean ====
section
/-!
DEFINITION. Reductions and scans (R83, R132, R133).
-/

namespace Sys2Proof.Machine

/-- The sum of two encodings by type: wrapped, or rounded in the mode of ctl. -/
def addBits (t : BitVec 4) (r : Rnd) (a b : Nat) : Nat :=
  if tyFloat t then (fmtOf t).round r (fadd r ((fmtOf t).decode a) ((fmtOf t).decode b)) else (a + b) % 2 ^ tyBits t

/-- The identity that a masked-off position enters with: 0, or −0 for floating types (R83). -/
def addIdentity (t : BitVec 4) : Nat := if tyFloat t then 2 ^ (tyBits t - 1) else 0

/-- The smaller of two encodings by type. -/
def minBits (t : BitVec 4) (a b : Nat) : Nat :=
  if tyFloat t then (fmtOf t).min a b
  else if tyInt t (tyBits t) a ≤ tyInt t (tyBits t) b then a else b

/-- The larger of two encodings by type. -/
def maxBits (t : BitVec 4) (a b : Nat) : Nat :=
  if tyFloat t then (fmtOf t).max a b
  else if tyInt t (tyBits t) a ≤ tyInt t (tyBits t) b then b else a

/-- A reduction: g gives element 0 of vd from the start value, the encodings of va with their performed marks. -/
def reduceOp {s0 : State} (f : VWord) (env : VEnv) (g : Rnd → Nat → List (Bool × Nat) → Nat) : M s0 PUnit := do
  M.arithCheck env M.plain f (some f.vd) [f.va]
  let w := tyBits f.ty
  let b ← M.operandB f w
  let vs ← M.vec
  let rnd ← M.rounding f none
  let m := vs.mask f.m.toNat
  let vl := (← M.hart).sr.vl
  let xs := (List.range (min vl.toNat 8192)).map fun e => (env.performed m e, vs.elem f.va.toNat w e)
  if vl = 0 then pure ⟨⟩ else M.putVec (vs.setElem f.vd.toNat w 0 (g (rnd 0) (b 0) xs))

/-- The sum of R132: the start value plus the tree over every position. -/
def treeSum (t : BitVec 4) (r : Rnd) (b0 : Nat) (xs : List (Bool × Nat)) : Nat :=
  addBits t r b0 (tree (addBits t r) (addIdentity t) (xs.map fun (p, x) => if p then x else addIdentity t))

/-- `vredsum`: the wrapped sum in the tree order (R132). -/
def vredsumCore {s0 : State} (f : VWord) (env : VEnv) : M s0 PUnit :=
  reduceOp f env fun r b0 xs => treeSum f.ty r b0 xs

/-- `vredsum` for the whole strip. -/
def execVredsum (f : VWord) (s : State) : Host.Outcome State Fault Refusal := vexec s (vredsumCore f)

/-- `vfredsum`: the sum in the tree order, every addition rounded (R132). -/
def vfredsumCore {s0 : State} (f : VWord) (env : VEnv) : M s0 PUnit :=
  reduceOp f env fun r b0 xs => treeSum f.ty r b0 xs

/-- `vfredsum` for the whole strip. -/
def execVfredsum (f : VWord) (s : State) : Host.Outcome State Fault Refusal := vexec s (vfredsumCore f)

/-- `vredmin`: the minimum of the start value and every performed element (R132). -/
def vredminCore {s0 : State} (f : VWord) (env : VEnv) : M s0 PUnit :=
  reduceOp f env fun _ b0 xs => (xs.filter (·.1)).foldl (fun acc x => minBits f.ty acc x.2) b0

/-- `vredmin` for the whole strip. -/
def execVredmin (f : VWord) (s : State) : Host.Outcome State Fault Refusal := vexec s (vredminCore f)

/-- `vredmax`: the maximum of the start value and every performed element (R132). -/
def vredmaxCore {s0 : State} (f : VWord) (env : VEnv) : M s0 PUnit :=
  reduceOp f env fun _ b0 xs => (xs.filter (·.1)).foldl (fun acc x => maxBits f.ty acc x.2) b0

/-- `vredmax` for the whole strip. -/
def execVredmax (f : VWord) (s : State) : Host.Outcome State Fault Refusal := vexec s (vredmaxCore f)

/-- `vscan`: running sums in index order over the performed elements (R133). -/
def vscanCore {s0 : State} (f : VWord) (env : VEnv) : M s0 PUnit :=
  do
  M.arithCheck env M.plain f (some f.vd) [f.va]
  let w := tyBits f.ty
  let b ← M.operandB f w
  let vs ← M.vec
  let rnd ← M.rounding f none
  let out := (env.elems (vs.mask f.m.toNat)).foldl (fun (acc : Nat × VecState) e =>
    let v := addBits f.ty (rnd 0) acc.1 (vs.elem f.va.toNat w e)
    (v, acc.2.setElem f.vd.toNat w e v)) (b 0, vs)
  M.putVec out.2

/-- `vscan` for the whole strip. -/
def execVscan (f : VWord) (s : State) : Host.Outcome State Fault Refusal := vexec s (vscanCore f)

end Sys2Proof.Machine
end

