-- ==== Sys2Proof/Machine/VStream.lean ====
section
/-!
DEFINITION. Engine transfers and copy streams (R145, R147 to R152, R159, R350, R351), and the engine's own steps.
-/

namespace Sys2Proof.Machine

/-- avail of a transfer: sb plus the longest prefix of performed elements, those not performed counted (R145). -/
def Transfer.avail (t : Transfer) (fin : Word) : Word :=
  match t.todo, t.fail with
  | (e, _, _) :: _, _ => t.sb + BitVec.ofNat 64 e
  | [], some (e, _, _) => t.sb + BitVec.ofNat 64 e
  | [], none => fin

/-- The hull of addresses with n bytes each. -/
def hullOf (l : List Nat) (n : Nat) : Nat × Nat :=
  match l with
  | [] => (0, 0)
  | a :: l => (l.foldl min a, l.foldl max a + n)

/-- Two hulls share a byte. -/
def hullsMeet (a b : Nat × Nat) : Bool := decide (a.1 < b.2) && decide (b.1 < a.2)

/-- A transfer waits for an earlier one with which it shares a byte that either reads or writes (R152). -/
def Hulls.clashes (a b : Hulls) : Bool :=
  hullsMeet a.rd b.rd || hullsMeet a.rd b.wr || hullsMeet a.wr b.rd || hullsMeet a.wr b.wr || hullsMeet a.sp b.sp

namespace M

variable {s0 : State}

/-- Change a stream of the hart in focus. -/
def modStream (k : Nat) (f : Stream → Stream) : M s0 PUnit :=
  modHart fun h => { h with streams := h.streams.setIfInBounds k (f (h.streams.toList.getD k .reset)) }

/-- A transfer begins (R145, R147, R151, R351). es lists its performed elements with source and destination; rangesOf gives the
ranges of a list of elements, and all lists those over all of vl. Before an unfired `vexit` those ranges are kept for the words up to it; while
the exit is being resolved, and while it waits behind a trap, nothing else happens (R159). -/
def beginTransfer (env : VEnv) (f : VWord) (kind : TransferKind) (size : Nat) (ranges : List (Nat × Word × Word) → Hulls) (clash : Bool)
    (all es : List (Nat × Word × Word)) : M s0 PUnit := do
  let k := f.ctl.toNat % 8
  let h ← hart
  let pos := match h.ctx with
    | some c => c.idx
    | none => 0
  let live (l : List (Nat × Word × Word)) := l.filter fun (e, _, _) => decide (h.sr.sb + BitVec.ofNat 64 e ≥ h.sr.estart)
  let wide := ranges (live all)
  match h.ctx with
  | some c => if c.exitAhead && c.kept.any (fun p => decide (p.1 < c.idx) && p.2.clashes wide) then illegal env
  | none => pure ⟨⟩
  let keep : M s0 PUnit := modHart fun h => { h with ctx := h.ctx.map fun c =>
    if c.exitAhead then { c with kept := c.kept ++ [(pos, wide)] } else c }
  if env.probe then keep
  else if ← holding then do
    keep
    owe
  else do
    let todo := live es
    let hulls := ranges todo
    let busy := h.streams.toList.filterMap (·.xfer)
    if (h.streams.toList.getD k .reset).xfer.isSome then stall
    -- `estart` belongs to the transfer that resumes: later ones wait for it
    if !busy.isEmpty && h.sr.estart ≠ 0 then stall
    if busy.any (fun t => t.hulls.clashes hulls) then stall
    keep
    let fin := h.sr.sb + BitVec.ofNat 64 env.lim
    let t : Transfer :=
      { kind := kind, op := f.ctl.toNat / 8, ty := f.ty, todo := todo, size := size, sb := h.sr.sb, pos := pos,
        order := (busy.map fun t => t.order + 1).foldl max 0, hulls := hulls, at_ := h.ctx, vl := h.sr.vl, clk := h.sr.vclk,
        clash := clash, wrote := [], fail := none }
    modStream k fun s => { s with avail := t.avail fin, fin := fin, xfer := if todo.isEmpty then none else some t }
    if todo.isEmpty then modSr fun r => { r with estart := 0 } else pure ⟨⟩

/-- The checks of a transfer word. With vl = 0 it completes at once (R139): answers false. -/
def transferCheck (env : VEnv) (f : VWord) (rs : List Reg) : M s0 Bool := do
  let h ← hart
  if h.sr.vl = 0 then
    let k := f.ctl.toNat % 8
    if !env.probe then
      if (h.streams.toList.getD k .reset).xfer.isSome then stall
      modStream k fun s => { s with avail := h.sr.sb, fin := h.sr.sb }
      modSr fun r => { r with estart := 0 }
    return false
  modeCheck env plain none
  needSew env (tyBits f.ty)
  needGroups env rs
  return true

/-- Source and destination of the elements of a copy (R149). -/
def copyAddrs (f : VWord) (n : Nat) (es : List Nat) : M s0 (List (Nat × Word × Word)) := do
  let dst ← snap (xBase f)
  let src ← snap (xSecond f)
  let sb := (← hart).sr.sb
  return es.map fun e =>
    let o := (sb + BitVec.ofNat 64 e) * BitVec.ofNat 64 n
    (e, src + o, dst + o)

/-- `vcopy` and `vrcopy` (R149). -/
def copyOp (env : VEnv) (f : VWord) (kind : TransferKind) : M s0 PUnit := do
  if ← transferCheck env f [] then
    let n := tyBits f.ty / 8
    let all ← copyAddrs f n (← allElems f)
    let es ← copyAddrs f n (env.elems (← maskOf f))
    let ranges (l : List (Nat × Word × Word)) : Hulls :=
      let srcs := l.map fun (_, s, _) => s.toNat
      let dsts := l.map fun (_, _, d) => d.toNat
      { rd := if kind = .rcopy then hullOf (srcs ++ dsts) n else hullOf srcs n, wr := hullOf dsts n, sp := (0, 0) }
    let clash := hullsMeet (hullOf (es.map fun (_, s, _) => s.toNat) n) (hullOf (es.map fun (_, _, d) => d.toNat) n)
    beginTransfer env f kind n ranges clash all es
  else pure ⟨⟩

/-- Bytes of a row of `vgath`. -/
def rowBytes (f : VWord) : Nat := 16 * 2 ^ (f.x.toNat / 32 % 16)
/-- Scratchpad base of a `vgath`. -/
def rowBase (f : VWord) : Nat := f.x.toNat / 512 % 512 * 16

/-- Source and scratchpad key of the rows of a gather (R148). -/
def rowAddrs (f : VWord) (es : List Nat) : M s0 (List (Nat × Word × Word)) := do
  let base ← snap (xBase f)
  let vs ← vec
  let h ← hart
  let w := tyBits f.ty
  return es.map fun e =>
    let (g, l) := laneOf w e
    let off := rowBase f + ordinalOf w e * rowBytes f
    (e, base + BitVec.ofNat 64 (vs.elem f.vb.toNat w e * rowBytes f),
      BitVec.ofNat 64 (scratchKey h.id.did h.id.hid (8 * g + l) off))

/-- The end of the scratchpad range of a gather in every lane. -/
def rowEnd (f : VWord) (es : List Nat) : Nat :=
  if es.isEmpty then rowBase f
  else rowBase f + ((es.map fun e => ordinalOf (tyBits f.ty) e).foldl max 0 + 1) * rowBytes f

end M

/-- `vgath`: rows of memory into the scratchpad by the block-transfer engine (R148). -/
def vgathCore {s0 : State} (f : VWord) (env : VEnv) : M s0 PUnit :=
  do
  if ← M.transferCheck env f [f.vb] then
    let all ← M.allElems f
    let es := env.elems (← M.maskOf f)
    -- no row moves when the ordinals leave the slice; the trap value is the word
    if !env.probe && decide (M.rowEnd f es > 8192) then M.vecTrap env 0x05 (← M.vecWord) none
    let ranges (l : List (Nat × Word × Word)) : Hulls :=
      { rd := hullOf (l.map fun (_, s, _) => s.toNat) (M.rowBytes f), wr := (0, 0),
        sp := if l.isEmpty then (0, 0) else (M.rowBase f, M.rowEnd f (l.map (·.1))) }
    M.beginTransfer env f .gath (M.rowBytes f) ranges false (← M.rowAddrs f all) (← M.rowAddrs f es)
  else pure ⟨⟩

/-- `vgath` for the whole strip. -/
def execVgath (f : VWord) (s : State) : Host.Outcome State Fault Refusal := vexec s (vgathCore f)

/-- `vcopy`: a copy by the block-transfer engine (R149). -/
def vcopyCore {s0 : State} (f : VWord) (env : VEnv) : M s0 PUnit :=
  M.copyOp env f .copy

/-- `vcopy` for the whole strip. -/
def execVcopy (f : VWord) (s : State) : Host.Outcome State Fault Refusal := vexec s (vcopyCore f)

/-- `vrcopy`: a combining copy by the block-transfer engine (R149). -/
def vrcopyCore {s0 : State} (f : VWord) (env : VEnv) : M s0 PUnit :=
  M.copyOp env f .rcopy

/-- `vrcopy` for the whole strip. -/
def execVrcopy (f : VWord) (s : State) : Host.Outcome State Fault Refusal := vexec s (vrcopyCore f)

/-- `vavail`: avail[k] into a return slot, without waiting (R150). -/
def vavailCore {s0 : State} (f : VWord) (env : VEnv) : M s0 PUnit :=
  do
  M.modeCheck env M.plain none
  let h ← M.hart
  let q := f.vd.toNat % 8
  M.putSlot q (h.streams.toList.getD (f.ctl.toNat % 8) .reset).avail
  M.modHart fun h => { h with availSlots := h.availSlots ||| BitVec.ofNat 8 (2 ^ q) }

/-- `vavail` for the whole strip. -/
def execVavail (f : VWord) (s : State) : Host.Outcome State Fault Refusal := vexec s (vavailCore f)

/-- `vcwait`: holds the vector stream until the last transfer on k has completed (R150). -/
def vcwaitCore {s0 : State} (f : VWord) (env : VEnv) : M s0 PUnit :=
  do
  M.modeCheck env M.plain none
  let h ← M.hart
  if (h.streams.toList.getD (f.ctl.toNat % 8) .reset).xfer.isSome then M.stall
  if env.probe then pure ⟨⟩
  else do
    M.mergeDie
    M.learnVec ((← M.st).die h.id.did).clock

/-- `vcwait` for the whole strip. -/
def execVcwait (f : VWord) (s : State) : Host.Outcome State Fault Refusal := vexec s (vcwaitCore f)

/-! ## The engine (R147, R336, R350) -/

/-- The result of a combining copy (R149): add, minimum or maximum by type. -/
def combine (t : BitVec 4) (op a b : Nat) : Nat :=
  if op = 0 then addBits t .rne a b else if op = 1 then minBits t a b else maxBits t a b

namespace M

variable {s0 : State}

/-- The pieces of a row by page, each checked on its first 16 bytes. -/
def rowPieces : Nat → Nat → Nat → M s0 (Except (BitVec 8 × Word) (List (Acc × Nat)))
  | 0, _, _ => return .ok []
  | n + 1, va, len => do
    if len = 0 then return .ok []
    let here := min len (2 ^ 18 - va % 2 ^ 18)
    match ← check (BitVec.ofNat 64 va) 16 .load with
    | .error c => return .error (c, BitVec.ofNat 64 va)
    | .ok a =>
      match ← rowPieces n (va + here) (len - here) with
      | .error e => return .error e
      | .ok l => return .ok ((a, here) :: l)

/-- A read of the engine: it carries the clock that the hart held when the transfer began (R239). -/
def engineRead (t : Transfer) (a : Acc) (n : Nat) : M s0 (Option (List Byte)) := do
  if a.leaf.home ≠ (← hart).id.did then arrive a.leaf.home none t.clk else pure ⟨⟩
  readHome a.pa n (slicePath a) a.leaf.ww

/-- What one element of a transfer meets: done, or a cause and a trap value. (DEDUCED, log 39) -/
def performElement (t : Transfer) (src dst : Word) : M s0 (Option (BitVec 8 × Word)) := do
  match t.kind with
  | .gath =>
    match ← rowPieces 2 src.toNat t.size with
    | .error e => return some e
    | .ok ps => do
      each ps fun (a, _) => needServedBy t.clk a.leaf.home
      let vals ← collect ps fun (a, n) => do return (a, ← engineRead t a n)
      match vals.find? fun (_, v) => v.isNone with
      | some (a, _) => do
        notePoison src a.pa true
        return some (0x0E, src)
      | none => do
        emit (.scratch dst.toNat ((vals.flatMap fun (_, v) => v.getD [])))
        modImg fun m => { m with spPoison := m.spPoison.filter fun k => !fullWords 8 [(dst.toNat, t.size)] k }
        return none
  | kind =>
    match ← check src t.size .load with
    | .error c => return some (c, src)
    | .ok a =>
      match ← check dst t.size (if kind = .rcopy then .atomic else .store) with
      | .error c => return some (c, dst)
      | .ok d => do
        needWindow (← hart).id.did 1
        needServedBy t.clk a.leaf.home
        needServedBy t.clk d.leaf.home
        match ← engineRead t a t.size with
        | none => do
          notePoison src a.pa true
          return some (0x0E, src)
        | some bs => do
          let v := ofBytes bs
          let old ← if kind = .rcopy then engineRead t d t.size else pure (some [])
          match old with
          | none => do
            notePoison dst d.pa true
            return some (0x0E, dst)
          | some ob => do
            let v := if kind = .rcopy then combine t.ty t.op (ofBytes ob) v else v
            let v ← if t.clash then pure (← freeWord).toNat else pure v
            storeNowBy t.clk d (toBytes t.size v)
            return none

/-- A transfer traps at its lowest failing element (R147, R350): transfers in front of it complete first, and in an `indep`
block the strips below its own (R332); the block goes back to the strip and the word, later transfers are dropped and run again. (DEDUCED, log 41) -/
def transferTrap (k : Nat) (t : Transfer) (e : Nat) (c : BitVec 8) (v : Word) : M s0 PUnit := do
  if (← hart).streams.toList.any (fun s => match s.xfer with
      | some u => decide (u.order < t.order)
      | none => false) then stall
  let below (k : Nat) : Bool := t.at_.any fun x => x.indep && decide (k < x.k)
  match (← hart).ctx with
  | some x => if below x.k || x.parked.any (fun p => below p.k) then stall
  | none => pure ⟨⟩
  atBoundary
  modHart fun h => { h with streams := h.streams.map fun s => { s with xfer := none } }
  modStream k fun s => { s with avail := t.sb + BitVec.ofNat 64 e }
  modSr fun r => { r with estart := t.sb + BitVec.ofNat 64 e, sb := t.sb, vl := t.vl }
  let h ← hart
  match t.at_ with
  | none => pure ⟨⟩
  | some x =>
    -- the block may have gone on since; a later block that has started starts again behind it
    let (once, behind) := match h.ctx with
      | some c => if c.entry.seq = x.entry.seq then (c.once, []) else (x.once, [c.entry])
      | none => (x.once, [])
    let y := { x with
      idx := t.pos, threads := none, pass := none, owed := [], part := 0, once := [], parked := [], ran := [],
      redo := once.filter fun p => decide (t.pos < p.1), kept := x.kept.filter fun p => decide (p.1 < t.pos) }
    vecTrapWith c v (x.addr t.pos) (some y) x.entry.mark behind h.queue

/-- Lines that a transfer has filled lose their poison (R337). -/
def noteWrote (k : Nat) (t : Transfer) (dst : Word) : M s0 PUnit := do
  if t.kind = .gath then pure ⟨⟩
  else match ← check dst t.size .store with
    | .error _ => pure ⟨⟩
    | .ok d => do
      if (← st).livePoison (d.pa / 64) then
        let w := d.pa :: t.wrote
        modStream k fun s => { s with xfer := s.xfer.map fun t => { t with wrote := w } }
        clearCovered (w.map fun a => (a, t.size))
      else pure ⟨⟩

end M

/-- The engine performs element e of the transfer on stream k of hart h: any order for `vgath` and `vcopy`, index order behind every
earlier transfer for `vrcopy` (R148, R149). A failing element stops what lies above it; the trap is taken when every element
below it is performed. (DEDUCED, log 25) -/
def execEngineElementPerformed (h k e : Nat) (s : State) : Host.Outcome State Fault Refusal :=
  exec1 s (do
    M.focus h
    let x ← M.hart
    match (x.streams.toList.getD k .reset).xfer with
    | none => M.stall
    | some t =>
      match t.todo.find? fun p => p.1 == e with
      | none => M.stall
      | some (_, src, dst) => do
        if t.kind = .rcopy then
          M.need ((t.todo.map (·.1)).head? == some e)
          M.need (x.streams.toList.all fun s => match s.xfer with
            | some u => decide (u.order ≥ t.order)
            | none => true)
        let fail ← M.performElement t src dst
        let t := match fail with
          | none => { t with todo := t.todo.filter fun p => p.1 ≠ e }
          | some (c, v) => { t with todo := t.todo.filter (fun p => decide (p.1 < e)), fail := some (e, c, v) }
        M.modStream k fun s => { s with avail := t.avail s.fin, xfer := some t }
        if fail.isNone then M.noteWrote k t dst
        match t.todo, t.fail with
        | [], some (e, c, v) => M.transferTrap k t e c v
        | _, _ => pure ⟨⟩)

/-- A transfer whose elements are all performed completes: its interlock entry is free and `estart` is 0 (R145, R147). -/
def execEngineTransferComplete (h k : Nat) (s : State) : Host.Outcome State Fault Refusal :=
  exec1 s (do
    M.focus h
    let x ← M.hart
    match (x.streams.toList.getD k .reset).xfer with
    | none => M.stall
    | some t => do
      M.need (t.todo.isEmpty && t.fail.isNone)
      M.modStream k fun s => { s with avail := s.fin, xfer := none }
      M.modSr fun r => { r with estart := 0 })

end Sys2Proof.Machine
end

