-- ==== Sys2Proof/Machine/EvVector.lean ====
section
/-!
DEFINITION. The events of a hart's vector stream: a block at the head of the queue (R46, R98, R155, R314, R321, R328), the start of
a strip and the resolution of its exit (R20, R24, R307), an operation at its queue position (R19, R104, R331), and a word issued for
the element threads of a lane group (R161, R162, R308).
-/

namespace Sys2Proof.Machine

/-! ## The meaning of a word inside a strip -/

/-- The meaning of a vector word for the whole strip, and whether it chooses the next word itself. -/
def wordCore {s0 : State} : Instr → Option (Bool × (VEnv → M s0 PUnit))
  | .vexit f => some (false, vexitCore f)
  | .vbany f => some (true, vbanyCore f)
  | .vball f => some (true, vballCore f)
  | .vbnone f => some (true, vbnoneCore f)
  | .vjmp f => some (true, vjmpCore f)
  | .vtoq f => some (false, vtoqCore f)
  | .vsplit f => some (true, vsplitCore f)
  | .vbrk f => some (false, vbrkCore f)
  | .vbrkrd f => some (false, vbrkrdCore f)
  | .inv f => some (true, invCore f)
  | .mop f => some (false, mopCore f)
  | .mzero f => some (false, mzeroCore f)
  | .mscale f => some (false, mscaleCore f)
  | .mrowld f => some (false, mrowldCore f)
  | .mrowrd f => some (false, mrowrdCore f)
  | .mcolrd f => some (false, mcolrdCore f)
  | .mdrain f => some (false, mdrainCore f)
  | .vcvt f => some (false, vcvtCore f)
  | .vqpack f => some (false, vqpackCore f)
  | .vqunpack f => some (false, vqunpackCore f)
  | .vfadd f => some (false, vfaddCore f)
  | .vfsub f => some (false, vfsubCore f)
  | .vfmul f => some (false, vfmulCore f)
  | .vfma f => some (false, vfmaCore f)
  | .vfms f => some (false, vfmsCore f)
  | .vfnma f => some (false, vfnmaCore f)
  | .vfdiv f => some (false, vfdivCore f)
  | .vfsqrt f => some (false, vfsqrtCore f)
  | .vfrcp f => some (false, vfrcpCore f)
  | .vfrsq f => some (false, vfrsqCore f)
  | .vfexp2 f => some (false, vfexp2Core f)
  | .vflog2 f => some (false, vflog2Core f)
  | .vfmin f => some (false, vfminCore f)
  | .vfmax f => some (false, vfmaxCore f)
  | .vfabs f => some (false, vfabsCore f)
  | .vfneg f => some (false, vfnegCore f)
  | .vfclamp f => some (false, vfclampCore f)
  | .vadd f => some (false, vaddCore f)
  | .vsub f => some (false, vsubCore f)
  | .vmul f => some (false, vmulCore f)
  | .vmulh f => some (false, vmulhCore f)
  | .vmadd f => some (false, vmaddCore f)
  | .vdiv f => some (false, vdivCore f)
  | .vrem f => some (false, vremCore f)
  | .vmin f => some (false, vminCore f)
  | .vmax f => some (false, vmaxCore f)
  | .vand f => some (false, vandCore f)
  | .vor f => some (false, vorCore f)
  | .vxor f => some (false, vxorCore f)
  | .vshl f => some (false, vshlCore f)
  | .vshr f => some (false, vshrCore f)
  | .vsra f => some (false, vsraCore f)
  | .vsadd f => some (false, vsaddCore f)
  | .vssub f => some (false, vssubCore f)
  | .vabs f => some (false, vabsCore f)
  | .vclip f => some (false, vclipCore f)
  | .vpadd f => some (false, vpaddCore f)
  | .vpmul f => some (false, vpmulCore f)
  | .vpmac f => some (false, vpmacCore f)
  | .vbpl f => some (false, vbplCore f)
  | .vbunpl f => some (false, vbunplCore f)
  | .vcmp f => some (false, vcmpCore f)
  | .vmand f => some (false, vmandCore f)
  | .vmor f => some (false, vmorCore f)
  | .vmxor f => some (false, vmxorCore f)
  | .vmnot f => some (false, vmnotCore f)
  | .vmpop f => some (false, vmpopCore f)
  | .vmfirst f => some (false, vmfirstCore f)
  | .vmsel f => some (false, vmselCore f)
  | .vld f => some (false, vldCore f)
  | .vst f => some (false, vstCore f)
  | .vlds f => some (false, vldsCore f)
  | .vsts f => some (false, vstsCore f)
  | .vldx f => some (false, vldxCore f)
  | .vstx f => some (false, vstxCore f)
  | .vamo f => some (false, vamoCore f)
  | .vlsp f => some (false, vlspCore f)
  | .vssp f => some (false, vsspCore f)
  | .vperm f => some (false, vpermCore f)
  | .vslup f => some (false, vslupCore f)
  | .vsldn f => some (false, vsldnCore f)
  | .vcompress f => some (false, vcompressCore f)
  | .vexpand f => some (false, vexpandCore f)
  | .vmv f => some (false, vmvCore f)
  | .vid f => some (false, vidCore f)
  | .xroute f => some (false, xrouteCore f)
  | .vnbadd f => some (false, vnbaddCore f)
  | .wmv f => some (false, wmvCore f)
  | .vrand f => some (false, vrandCore f)
  | .vnoise f => some (false, vnoiseCore f)
  | .vredsum f => some (false, vredsumCore f)
  | .vfredsum f => some (false, vfredsumCore f)
  | .vredmin f => some (false, vredminCore f)
  | .vredmax f => some (false, vredmaxCore f)
  | .vscan f => some (false, vscanCore f)
  | .vgath f => some (false, vgathCore f)
  | .vcopy f => some (false, vcopyCore f)
  | .vrcopy f => some (false, vrcopyCore f)
  | .vavail f => some (false, vavailCore f)
  | .vcwait f => some (false, vcwaitCore f)
  | _ => none

/-! ## Checks of a block (R46, R155, R328) -/

/-- A block as it was fetched: the decoded words, none for a reserved word. -/
abbrev Decoded := List (Option Instr)

/-- Decode the words of a block. -/
def decodeWords (ws : List (BitVec 64)) : Decoded := ws.map fun w => (decodeVector w).toOption

/-- The positions of the words that a test accepts. -/
def positions (ds : Decoded) (p : Instr → Bool) : List Nat :=
  (List.range ds.length).filter fun i => match ds.getD i none with
    | some d => p d
    | none => false

/-- `vexit`. -/
def isVexit : Instr → Bool
  | .vexit _ => true
  | _ => false
/-- `vsplit`. -/
def isVsplit : Instr → Bool
  | .vsplit _ => true
  | _ => false
/-- `vjoin`. -/
def isVjoin : Instr → Bool
  | .vjoin => true
  | _ => false
/-- `vhead`. -/
def isVhead : Instr → Bool
  | .vhead _ => true
  | _ => false

/-- The fields of a uniform branch. -/
def uniformOf : Instr → Option VWord
  | .vbany f => some f
  | .vball f => some f
  | .vbnone f => some f
  | .vjmp f => some f
  | _ => none

/-- The fields of any branch inside a block. -/
def branchOf : Instr → Option VWord
  | .lbr f => some f
  | i => uniformOf i

/-- The stream of an engine transfer. -/
def transferStream : Instr → Option Nat
  | .vgath f => some (f.ctl.toNat % 8)
  | .vcopy f => some (f.ctl.toNat % 8)
  | .vrcopy f => some (f.ctl.toNat % 8)
  | _ => none

/-- A word waits on the stream k: `vcwait`, or a load with a modifier. -/
def waitsOn (k : Nat) : Instr → Bool
  | .vcwait f => f.ctl.toNat % 8 == k
  | .vlsp f => f.ctl.toNat / 8 ≠ 0 && f.ctl.toNat % 8 == k
  | _ => false

/-- Words that an `indep` block must not hold (R328). -/
def notIndep : Instr → Bool
  | .vexit _ | .vsplit _ | .vjoin | .lbr _ | .vlsp _ | .vssp _ | .vgath _ => true
  | _ => false

/-- Words that only a `split` block may hold. -/
def onlySplit : Instr → Bool
  | .vsplit _ | .vjoin | .lbr _ => true
  | _ => false

/-- The words that make a block reserved: cause 0x01 (R46, R155). -/
def reservedWords (ds : Decoded) (flags : Nat) : List Nat :=
  let last := ds.length - 1
  let exits := positions ds isVexit
  let splits := positions ds isVsplit
  let joins := positions ds isVjoin
  let lastExit := exits.foldl max 0
  let inside (j : Nat) : Bool := match splits, joins with
    | s :: _, e :: _ => decide (s < j) && decide (j ≤ e)
    | _, _ => false
  let target (i : Nat) (f : VWord) : Int := (i : Int) + toSigned 9 (f.x.toNat % 512)
  let at_ (i : Nat) : List Nat :=
    match ds.getD i none with
    | none => []
    | some d =>
      match branchOf d with
      | some f =>
        let t := target i f
        let out := decide (t < 1) || decide (t > last)
        let back := !exits.isEmpty && decide (t ≤ i)
        let in_ := decide (0 ≤ t) && inside t.toNat
        let wrong := if (uniformOf d).isNone then !in_ else in_ || inside i
        if out || back || wrong then [i] else []
      | none =>
        match d with
        | .inv f => if i + f.x.toNat % 16 + 1 ≥ last then [i] else []
        | _ =>
          match transferStream d with
          | some k =>
            if i < lastExit then
              (rangeFrom (i + 1) (lastExit - i - 1)).filter fun j => match ds.getD j none with
                | some e => waitsOn k e
                | none => false
            else []
          | none => []
  (if flags = 3 then [0] else [])
    ++ (positions ds isVhead).filter (· ≠ 0)
    ++ splits.drop 1 ++ joins.drop 1
    ++ splits.filter (fun s => decide (s < lastExit) || !joins.any fun j => decide (s < j))
    ++ joins.filter (fun j => !splits.any fun s => decide (s < j))
    ++ (List.range ds.length).flatMap at_

/-- The check of a whole block: the cause and the first offending word. -/
def blockFault (ds : Decoded) (flags : Nat) : Option (BitVec 8 × Nat) :=
  match reservedWords ds flags with
  | i :: is => some (0x01, is.foldl min i)
  | [] =>
    let bad := if flags % 2 = 1 then positions ds notIndep else if flags / 2 = 1 then [] else positions ds onlySplit
    bad.head?.map fun i => (0x02, i)

/-! ## A block at the head of the queue -/

namespace M

variable {s0 : State}

/-- The entry at the head of the queue traps: it heads the held image, and `epc` is a (R303, R321, R331). -/
def headTrap {α : Type} (e : QEntry) (rest : List QEntry) (c : BitVec 8) (v a : Word) : M s0 α := do
  needTransfers
  atBoundary
  vecTrapWith c v a none e.mark [e] rest
  done

/-- Later queue entries wait for the packets before the last `ord.sv` (R105). -/
def needSv (e : QEntry) : M s0 PUnit := do
  let h ← hart
  match h.svBound with
  | none => pure ⟨⟩
  | some b =>
    if b ≤ e.seq then
      match (← st).inFlight h.id.did h.svNum with
      | some j => do
        push (.packetDelivery h.id.did j)
        done
      | none => modHart fun h => { h with svBound := none }
    else pure ⟨⟩

/-- A word that a hart has buffered may be used in place of a newer one until `syncins` (R113). (DEDUCED, log 19) -/
def fetched (a : Word) (now : BitVec 32) : M s0 (BitVec 32) := do
  let old := ((← hart).ibuf.find? fun p => p.1 == a).map (·.2)
  let w ← match old with
    | none => pure now
    | some o => if o = now then pure now else if ← freeBool then pure o else pure now
  modHart fun h => { h with ibuf := (a, w) :: h.ibuf.filter fun p => p.1 ≠ a }
  return w

/-- Fetch n bytes of instruction at an address: the cause where a check of R84 fails. -/
def fetchBytes (a : Word) (n : Nat) : M s0 (Except (BitVec 8) Nat) := do
  match ← check a n .fetch with
  | .error c => return .error c
  | .ok acc =>
    needServed acc.leaf.home
    match ← readHome acc.pa n .engine acc.leaf.ww with
    | none => do
      notePoison a acc.pa true
      return .error 0x0E
    | some bs => return .ok (ofBytes bs)

/-- Fetch one 64-bit word of a block. -/
def fetchVector (a : Word) : M s0 (Except (BitVec 8) (BitVec 64)) := do
  match ← fetchBytes a 8 with
  | .error c => return .error c
  | .ok v =>
    let lo ← fetched a (BitVec.ofNat 32 v)
    let hi ← fetched (a + 4) (BitVec.ofNat 32 (v / 2 ^ 32))
    return .ok (hi ++ lo)

/-- Fetch a block up to its `vstop`, at most n words: the words in order and, where a check fails, its cause; the last word is
`vstop` unless none stands in the block. -/
def fetchBlock : Nat → Word → M s0 (List (BitVec 64) × Option (BitVec 8))
  | 0, _ => return ([], none)
  | n + 1, a => do
    match ← fetchVector a with
    | .error c => return ([], some c)
    | .ok w =>
      if w = vstopWord then return ([w], none)
      let (ws, c) ← fetchBlock n (a + 8)
      return (w :: ws, c)

/-- Start a block whose checks have passed (R20, R154). -/
def startBlock (e : QEntry) (t : Word) (count : Option Word) (ws : List (BitVec 64)) : M s0 PUnit := do
  let h ← hart
  let ctx := LoopCtx.start e t ws (if count.isNone then 1 else 0) h.sr.vl h.sr.sb (count.getD 0)
  let rest := h.queue.drop 1
  match count with
  | some n =>
    if h.sr.vl = 0 || n = 0 then
      modHart fun h => { h with queue := rest, sr := { h.sr with xstop := h.sr.sb + n } }
    else modHart fun h => { h with queue := rest, ctx := some ctx }
  | none => modHart fun h => { h with queue := rest, ctx := some ctx }

end M

/-- What the fetch and the check of a block find (R98, R321). -/
inductive BlockHead where
  | good (words : List (BitVec 64))
  /-- the block traps: cause, trap value and address -/
  | bad (cause : BitVec 8) (tval addr : Word)

/-- Fetch and check the block at a target, in the order of R321. -/
def M.fetchWhole {s0 : State} (t : Word) : M s0 BlockHead := do
  let addr (i : Nat) : Word := t + BitVec.ofNat 64 (8 * i)
  let (ws, bad) ← M.fetchBlock 256 t
  let ds := decodeWords ws
  let first := ws.getD 0 0
  let head := match ds.getD 0 none with
    | some d => isVhead d
    | none => false
  return (if !ws.isEmpty && !head then .bad 0x01 first t
    else match bad with
    | some c => .bad c (addr ws.length) (addr ws.length)
    | none =>
      if ws.getLast? ≠ some vstopWord then .bad 0x01 first t
      else match blockFault ds ((first.extractLsb' 18 5).toNat % 4) with
        | some (c, i) => .bad c (ws.getD i 0) (addr i)
        | none => .good ws)

/-- BLOCK_AT_QUEUE_HEAD: the block is fetched and checked, and starts (R98, R314, R321). A restored block whose words the hart no longer
holds is fetched and checked again, and goes on where it stood (R113, R303). -/
def execBlockAtQueueHead (h : Nat) (s : State) : Host.Outcome State Fault Refusal :=
  exec1 s (do
    M.focus h
    let x ← M.hart
    M.need (x.phase == .run)
    match x.ctx with
    | some c => do
      M.need c.words.isEmpty
      -- a block that another context's vector state is in front of does not go on (R30, R314)
      if !c.entry.sup && x.sr.vown ≠ x.sr.savep then
        M.needTransfers
        M.atBoundary
        M.vecTrapWith 0x07 x.sr.vown (c.addr c.at) x.ctx c.entry.mark [] x.queue
        M.done
      match ← M.fetchWhole c.base with
      | .good ws => M.modHart fun h => { h with ctx := some { c with words := ws } }
      | .bad cause v a => do
        M.needTransfers
        M.atBoundary
        M.vecTrapWith cause v a x.ctx c.entry.mark [] x.queue
    | none =>
      match x.queue with
      | [] => M.stall
      | e :: rest =>
        match e.kind with
        | .block t count => do
          M.needSv e
          if !e.sup && x.sr.vown ≠ x.sr.savep then M.headTrap e rest 0x07 x.sr.vown t
          match ← M.fetchWhole t with
          | .bad cause v a => M.headTrap e rest cause v a
          | .good ws => M.startBlock e t count ws
        | _ => M.stall)

/-! ## The strip and its exit (R20, R24, R307) -/

/-- A `vexit` that has not fired stands at or after the next word. -/
def LoopCtx.exitLeft (c : LoopCtx) : Bool :=
  !c.fired && (c.words.drop c.idx).any fun w => w.extractLsb' 56 8 == 0xA1#8

namespace M

variable {s0 : State}

/-- Look ahead through one word: elements below lim, nothing held, a failing check only noted. -/
def lookWord (lim : Nat) : M s0 PUnit := do
  let h ← hart
  let w ← vecWord
  let env : VEnv := { lim := min (min lim h.sr.vl.toNat) 8192, act := none, region := false, probe := true }
  match decodeVector w with
  | .error _ => vecTrap env 0x01 w none
  | .ok i =>
    match wordCore i with
    | none => illegal env
    | some (jumps, core) => do
      vamoGuard env
      core env
      if jumps then pure ⟨⟩ else vecAdvance

/-- Look ahead through the words of the strip until a `vexit` fires or none is left. -/
def lookAhead (lim : Nat) : Nat → M s0 PUnit
  | 0 => pure ⟨⟩
  | n + 1 => do
    match (← hart).ctx with
    | none => pure ⟨⟩
    | some c =>
      if c.stop.isSome || !c.exitLeft then pure ⟨⟩
      else do
        lookWord lim
        lookAhead lim n

/-- What the exit of a strip resolves to. -/
inductive Exit where
  /-- the context in which the words ahead resolved it, with its stop element, and the hart's clock there -/
  | resolved (c : LoopCtx) (clk : Clock)
  /-- a check fails at an element at or below the stop element; the words before it were seen in this context -/
  | trap (c : LoopCtx) (clk : Clock)
  /-- the words ahead have to wait; background steps that they have asked for -/
  | waits (work : List Instr)

/-- The words ahead are looked at with nothing noted yet; held stores of the words before count as performed. -/
def lookFrom (lim : Nat) : M s0 PUnit := do
  modHart fun h => { h with ctx := h.ctx.map fun c => { c with fail := none, stop := none, taken := [], seen := [] } }
  each ((((← hart).ctx.bind (·.pass)).map (·.stores)).getD []) releaseStore
  lookAhead lim 256

/-- Resolve the exit with elements below lim: a failing element is dropped when the exit fires below it (R307). -/
def resolveExit : Nat → Nat → M s0 Exit
  | 0, _ => return .waits []
  | n + 1, lim => do
    let h ← hart
    let t ← explore (lookFrom lim)
    match if t.hart.key = h.key then t.hart.ctx else none with
    | some c =>
      let clk := t.hart.sr.vclk
      match c.fail with
      | some (_, _, e) =>
        if e = 0 then return .trap c clk
        match ← resolveExit n e with
        | .resolved d clk' => return if d.stop.isSome then .resolved d clk' else .trap c clk
        | .trap _ _ => return .trap c clk
        | .waits w => return .waits w
      | none => return if c.stop.isSome || !c.exitLeft then .resolved c clk else .waits t.work
    | none => return .waits t.work

/-- The hart learns what the loads ahead have learned; its own entry is the number of its last packet (R239). -/
def learnAhead (clk : Clock) : M s0 PUnit := do
  let d := (← hart).id.did
  modSr fun r => { r with vclk := clkPut (clkMerge r.vclk clk) d (clkAt r.vclk d) }

/-- Resolve the exit of the strip from the next word on. Where a check fails at or below the stop element, the words before it are performed
over all of vl with their stores held, and the failing word traps at its own issue (R307, R321). (DEDUCED, log 26) -/
def settleExit : M s0 PUnit := do
  let h ← hart
  let vl := min h.sr.vl.toNat 8192
  match h.ctx with
  | none => pure ⟨⟩
  | some c =>
    if c.exitLeft then
      match ← resolveExit (vl + 1) vl with
      | .waits w => do
        if w.length ≤ (← st).work.length then stall
        emit (.work w)
        done
      | .resolved x clk => do
        closePass x.stop
        learnAhead clk
        modHart fun h => { h with ctx := h.ctx.map fun c => { c with
          stop := x.stop, taken := x.taken, seen := x.seen, resolved := true } }
      | .trap x clk => do
        learnAhead clk
        modHart fun h => { h with ctx := h.ctx.map fun c => { c with
          taken := x.taken, seen := x.seen,
          pass := some ((c.pass.map fun p => { p with looked := true }).getD
            { undo := h.vec, stores := [], counts := [], owed := [], looked := true }) } }

/-- Run the next of the words that were held until the exit had resolved: elements at or below the stop element (R159, R380). Where it waits or
traps, it is still to run. -/
def runOwed (c : LoopCtx) : M s0 PUnit := do
  let h ← hart
  match c.owed with
  | [] => stall
  | i :: rest => do
    let vl := min h.sr.vl.toNat 8192
    let env : VEnv :=
      { lim := match c.stop with
          | some e => min vl (e + 1)
          | none => vl,
        act := none, region := false, probe := false }
    goTo i
    let ok ← attempt (do
      match decodeVector (← vecWord) with
      | .error _ => illegal env
      | .ok i =>
        match wordCore i with
        | some (_, core) => core env
        | none => illegal env)
    let back (owed : List Nat) (k : LoopCtx) : LoopCtx := { k with idx := c.idx, owed := owed }
    if (← hart).key ≠ h.key then done
    else if ok then modHart fun h => { h with ctx := h.ctx.map (back rest) }
    else do
      let again := back (i :: rest)
      modHart fun h => { h with
        ctx := h.ctx.map again,
        held := if h.ctx.isSome then h.held else h.held.map fun q => { q with ctx := q.ctx.map again },
        aside := if h.ctx.isSome then h.aside else h.aside.map fun q => { q with ctx := q.ctx.map again } }
      done

end M

/-- The strip is at its start, or has its exit still to resolve, or words to run that were held for it. -/
def LoopCtx.needsStrip (c : LoopCtx) : Bool :=
  c.idx == 0 || !c.owed.isEmpty || (c.exitAhead && !c.resolved && !(c.pass.any (·.looked)))

/-- VLOOP_STRIP: the next strip of a loop starts, and the exit of the strip is resolved before its words are performed (R20, R24,
R159, R307, R380). (DEDUCED, log 26) -/
def execVloopStrip (h : Nat) (s : State) : Host.Outcome State Fault Refusal :=
  exec1 s (do
    M.focus h
    let x ← M.hart
    M.need (x.phase == .run)
    match x.ctx with
    | none => M.stall
    | some c => do
      M.need (!c.words.isEmpty && c.threads.isNone && c.needsStrip)
      if !c.owed.isEmpty then M.runOwed c
      else do
        if c.idx = 0 then
          let at_ := BitVec.ofNat 64 c.k * c.g
          M.modSr fun r => { r with sb := c.b0 + at_, vl := BitVec.ofNat 64 (min c.g.toNat (c.n - at_).toNat) }
          M.modHart fun h => { h with ctx := h.ctx.map fun c => c.fresh 1 }
        M.settleExit)

/-! ## Operations at their queue position (R19, R104, R331) -/

/-- `mxon` at its position (R104, R172): v28 to v31 are not defined. -/
def enterMatrix {s0 : State} : M s0 PUnit := do
  if !(← M.hart).sr.mmode then
    let vs ← M.collect (List.range 4) fun _ => M.freeVReg
    M.modHart fun h => { h with
      tile := { h.tile with svl := h.sr.vl, sgrp := h.sr.vgrp, ssew := h.sr.sew },
      vec := { h.vec with v := Vector.ofFn fun i => if i.val < 28 then h.vec.reg i.val else vs.getD (i.val - 28) 0 },
      sr := { h.sr with vl := 128, vgrp := .g1, sew := .w16, mmode := true } }

/-- QUEUE_POSITION_EFFECT: a `vsetl`, `mxon`, `mxoff` or state write takes effect; in matrix mode the grouping stays 1 and the width is
set under R173, and an operation that would group registers traps (R331). -/
def execQueuePositionEffect (h : Nat) (s : State) : Host.Outcome State Fault Refusal :=
  exec1 s (do
    M.focus h
    let x ← M.hart
    M.need (x.phase == .run && x.ctx.isNone)
    match x.queue with
    | [] => M.stall
    | e :: rest => do
      M.needSv e
      M.needTransfers
      let word : Word := e.word.setWidth 64
      match e.kind with
      | .block _ _ => M.stall
      | .setl vl sew grp => do
        if x.sr.mmode && grp ≠ .g1 then M.headTrap e rest 0x02 word e.pc
        M.modSr fun r => { r with vl := vl, sew := sew, vgrp := grp }
      | .mxon => enterMatrix
      | .mxoff => M.modHart leaveMatrix
      | .write n v => do
        if x.sr.mmode && n = 0x011 && v ≠ 1 then M.headTrap e rest 0x02 word e.pc
        M.modSr fun r => r.writeQueued x.id.cap n v
      M.modHart fun h => { h with queue := rest })

/-! ## Element threads (R161, R162) -/

namespace M

variable {s0 : State}

/-- The frame of a word issued for some element threads. -/
def threadFrame (es : List Nat) : M s0 VEnv := do
  let f ← frame
  let act : Mask := es.foldl (fun m e => m ||| (1#8192 <<< e)) 0
  return { f with act := some act, region := true }

end M

/-- ELEMENT_THREAD_ISSUE: a lane group executes the word at the program counter that it picks, round-robin among those of its waiting threads, for
every thread that stands there (R22, R161). (DEDUCED, log 24) -/
def execElementThreadIssue (h g idx : Nat) (s : State) : Host.Outcome State Fault Refusal :=
  exec1 s (do
    M.focus h
    let x ← M.hart
    M.need (x.phase == .run && !((x.ctx.map (·.words)).getD []).isEmpty)
    match x.ctx.bind (·.threads) with
    | none => M.stall
    | some (_, ts) => do
      M.need ((x.ctx.bind fun c => c.nextPc x.sr.sew.bits g) == some idx)
      let es := (ts.filter fun t => t.waits x.sr.sew.bits g && t.idx == idx).map (·.e)
      M.modHart fun h => { h with ctx := h.ctx.map fun c => c.pick g idx }
      M.goTo idx
      let env ← M.threadFrame es
      let w ← M.vecWord
      match decodeVector w with
      | .error _ => M.vecTrap env 0x01 w none
      | .ok .vjoin => joinThreads es
      | .ok (.lbr f) => branchThreads f es
      | .ok i =>
        match regionCore i with
        | none => M.illegal env
        | some core => do
          core env
          M.modThreads es fun t => { t with idx := t.idx + 1 })

end Sys2Proof.Machine
end

