-- ==== Sys2Proof/Machine/ScalarMem.lean ====
section
/-!
DEFINITION. Scalar loads, stores and atomics (R90 to R95).
-/

namespace Sys2Proof.Machine

/-- Address of an SM word (R90). -/
def smAddr {s0 : State} (a : Reg) (imm : BitVec 16) : M s0 Word := do return (← M.rd a) + immS imm

/-- Address of `ldx` and `stx` (R92). -/
def sxAddr {s0 : State} (a b : Reg) (sc : BitVec 2) : M s0 Word := do
  return (← M.rd a) + (← M.rd b) <<< sc.toNat

/-- Send a request of the hart to the home of an access, with a clock that it carries beside the hart's, and wait for the response (R236, R239). -/
def sendAndWait {s0 : State} (acc : Acc) (op : PacketOp) (clk : Clock) (num : Option (BitVec 16)) (d : Reg) (n : Nat)
    (signed load : Bool) : M s0 PUnit := do
  let h ← M.hart
  let tag := (← M.st).fab.tag
  M.modFab fun f => { f with tag := f.tag + 1 }
  let p ← M.hartPacket op acc num (some tag)
  M.sendPacket h.id.did acc.leaf.home { p with stamp := clkMerge p.stamp clk }
  M.modHart fun h => { h with
    wait := .response { tag := tag, d := d, n := n, signed := signed, va := BitVec.ofNat 64 acc.va, pa := acc.pa, load := load } }

/-- A scalar load completes: the register, and the line that `idle` watches (R90, R111). -/
def loadDone {s0 : State} (n : Nat) (signed : Bool) (d : Reg) (pa : Nat) (bs : List Byte) (stale : Bool) : M s0 PUnit := do
  M.setReg d (loadValue n signed (ofBytes bs))
  M.modHart fun h => { h with watch := some (pa / 64), watchHit := stale }
  M.advance

/-- A scalar load of n bytes at va (R90): from a read made ahead of its turn, on the hart's own die in one step, or across the fabric as a
request. -/
def scalarLoad {s0 : State} (va : Word) (n : Nat) (signed : Bool) (d : Reg) (by_ na : Bool) : M s0 PUnit := do
  M.needVs
  let acc ← M.checkOr va n .load
  let h ← M.hart
  match ← M.earlyRead false acc.pa n with
  | some e => loadDone n signed d acc.pa e.bytes e.stale
  | none =>
    if acc.leaf.home = h.id.did then
      M.needCovered
      match ← M.readHome acc.pa n (← M.scalarPath acc by_ na) acc.leaf.ww with
      | none => do
        M.notePoison va acc.pa true
        M.trap 0x0E va
      | some bs => do
        M.mergeDie
        loadDone n signed d acc.pa bs false
    else do
      M.needOpen h.id.did acc.leaf.home 1
      sendAndWait acc (.load n (acc.leaf.wb && !na)) h.sr.vclk none d n signed true

/-- A scalar store of n bytes at va (R90). -/
def scalarStore {s0 : State} (va : Word) (n : Nat) (v : Word) (by_ na : Bool) : M s0 PUnit := do
  M.needVs
  let acc ← M.checkOr va n .store
  M.storeAcc acc (toBytes n v.toNat) by_ na
  M.advance

/-- An atomic (R94): it performs after every earlier access of the hart; with `.sc` it knows what the `.sc` atomics before it knew (R95, R219). -/
def scalarAtomic {s0 : State} (op : Nat) (dw sc : Bool) (d a b : Reg) : M s0 PUnit := do
  M.needVs
  let va ← M.rd a
  let n := if dw then 8 else 4
  let acc ← M.checkOr va n .atomic
  let h ← M.hart
  M.needDrained
  M.needSc sc
  M.needWindow h.id.did 1
  let v ← M.rd b
  let cmp ← M.rd d
  let clk := M.scClock sc h.sr.vclk (← M.st)
  if acc.leaf.home = h.id.did then
    M.needCoveredBy clk
    if regionOf acc.pa != .device && ((← M.st).firstPoison acc.pa n).isSome then
      M.notePoison va acc.pa true
      M.trap 0x0E va
    let num ← M.hartNumber
    M.learnAt h.id.did clk
    match ← M.atomicHome acc.pa op n v.toNat cmp.toNat (M.slicePath acc) acc.leaf.ww (some h.key) (some (h.id.did, num)) with
    | none => M.advance
    | some old => do
      M.noteSc sc (clkPut (clkMerge clk ((← M.st).die h.id.did).clock) h.id.did num)
      M.mergeDie
      M.setReg d (loadValue n true old)
      M.advance
  else
    M.needOpen h.id.did acc.leaf.home 1
    let num ← M.hartNumber
    sendAndWait acc (.atomic op n v cmp sc) clk (some num) d n true false

/-! ## Loads -/

/-- `ldb` (R90): a sign-extended byte. -/
def execLdb (d a : Reg) (imm : BitVec 16) (s : State) : Host.Outcome State Fault Refusal :=
  exec1 s (do scalarLoad (← smAddr a imm) 1 true d false false)

/-- `ldbu` (R90): a zero-extended byte. -/
def execLdbu (d a : Reg) (imm : BitVec 16) (s : State) : Host.Outcome State Fault Refusal :=
  exec1 s (do scalarLoad (← smAddr a imm) 1 false d false false)

/-- `ldh` (R90): a sign-extended halfword. -/
def execLdh (d a : Reg) (imm : BitVec 16) (s : State) : Host.Outcome State Fault Refusal :=
  exec1 s (do scalarLoad (← smAddr a imm) 2 true d false false)

/-- `ldhu` (R90): a zero-extended halfword. -/
def execLdhu (d a : Reg) (imm : BitVec 16) (s : State) : Host.Outcome State Fault Refusal :=
  exec1 s (do scalarLoad (← smAddr a imm) 2 false d false false)

/-- `ldw` (R90): a sign-extended word. -/
def execLdw (d a : Reg) (imm : BitVec 16) (s : State) : Host.Outcome State Fault Refusal :=
  exec1 s (do scalarLoad (← smAddr a imm) 4 true d false false)

/-- `ldwu` (R90): a zero-extended word. -/
def execLdwu (d a : Reg) (imm : BitVec 16) (s : State) : Host.Outcome State Fault Refusal :=
  exec1 s (do scalarLoad (← smAddr a imm) 4 false d false false)

/-- `ldd` (R90): a doubleword. -/
def execLdd (d a : Reg) (imm : BitVec 16) (s : State) : Host.Outcome State Fault Refusal :=
  exec1 s (do scalarLoad (← smAddr a imm) 8 false d false false)

/-- Width in bytes and sign extension of an `ldx` width selector (R36): b, bu, h, hu, w, wu, d. -/
def ldxWidth (wd : BitVec 3) : Nat × Bool :=
  match wd.toNat with
  | 0 => (1, true)
  | 1 => (1, false)
  | 2 => (2, true)
  | 3 => (2, false)
  | 4 => (4, true)
  | 5 => (4, false)
  | _ => (8, false)

/-- `ldx` (R92): a load at s_a + (s_b << scale) with the hints of R93. -/
def execLdx (wd : BitVec 3) (na by_ : Bool) (sc : BitVec 2) (d a b : Reg) (s : State) : Host.Outcome State Fault Refusal :=
  exec1 s (do scalarLoad (← sxAddr a b sc) (ldxWidth wd).1 (ldxWidth wd).2 d by_ na)

/-! ## Stores -/

/-- `stb` (R90): the low byte. -/
def execStb (d a : Reg) (imm : BitVec 16) (s : State) : Host.Outcome State Fault Refusal :=
  exec1 s (do scalarStore (← smAddr a imm) 1 (← M.rd d) false false)

/-- `sth` (R90): the low halfword. -/
def execSth (d a : Reg) (imm : BitVec 16) (s : State) : Host.Outcome State Fault Refusal :=
  exec1 s (do scalarStore (← smAddr a imm) 2 (← M.rd d) false false)

/-- `stw` (R90): the low word. -/
def execStw (d a : Reg) (imm : BitVec 16) (s : State) : Host.Outcome State Fault Refusal :=
  exec1 s (do scalarStore (← smAddr a imm) 4 (← M.rd d) false false)

/-- `std` (R90): the doubleword. -/
def execStd (d a : Reg) (imm : BitVec 16) (s : State) : Host.Outcome State Fault Refusal :=
  exec1 s (do scalarStore (← smAddr a imm) 8 (← M.rd d) false false)

/-- `stx` (R92): a store of 1, 2, 4 or 8 bytes at s_a + (s_b << scale) with the hints of R93. -/
def execStx (wd : BitVec 2) (na by_ : Bool) (sc : BitVec 2) (d a b : Reg) (s : State) : Host.Outcome State Fault Refusal :=
  exec1 s (do scalarStore (← sxAddr a b sc) (2 ^ wd.toNat) (← M.rd d) by_ na)

/-! ## Atomics -/

/-- `aadd` (R94): old + B. -/
def execAadd (dw sc : Bool) (d a b : Reg) (s : State) : Host.Outcome State Fault Refusal :=
  exec1 s (scalarAtomic 0 dw sc d a b)

/-- `aswap` (R94): B. -/
def execAswap (dw sc : Bool) (d a b : Reg) (s : State) : Host.Outcome State Fault Refusal :=
  exec1 s (scalarAtomic 1 dw sc d a b)

/-- `aand` (R94): old and B. -/
def execAand (dw sc : Bool) (d a b : Reg) (s : State) : Host.Outcome State Fault Refusal :=
  exec1 s (scalarAtomic 2 dw sc d a b)

/-- `aor` (R94): old or B. -/
def execAor (dw sc : Bool) (d a b : Reg) (s : State) : Host.Outcome State Fault Refusal :=
  exec1 s (scalarAtomic 3 dw sc d a b)

/-- `axor` (R94): old xor B. -/
def execAxor (dw sc : Bool) (d a b : Reg) (s : State) : Host.Outcome State Fault Refusal :=
  exec1 s (scalarAtomic 4 dw sc d a b)

/-- `amin` (R94): the smaller, signed. -/
def execAmin (dw sc : Bool) (d a b : Reg) (s : State) : Host.Outcome State Fault Refusal :=
  exec1 s (scalarAtomic 5 dw sc d a b)

/-- `amax` (R94): the larger, signed. -/
def execAmax (dw sc : Bool) (d a b : Reg) (s : State) : Host.Outcome State Fault Refusal :=
  exec1 s (scalarAtomic 6 dw sc d a b)

/-- `aminu` (R94): the smaller, unsigned. -/
def execAminu (dw sc : Bool) (d a b : Reg) (s : State) : Host.Outcome State Fault Refusal :=
  exec1 s (scalarAtomic 7 dw sc d a b)

/-- `amaxu` (R94): the larger, unsigned. -/
def execAmaxu (dw sc : Bool) (d a b : Reg) (s : State) : Host.Outcome State Fault Refusal :=
  exec1 s (scalarAtomic 8 dw sc d a b)

/-- `acas` (R94): B where the old value is D. -/
def execAcas (dw sc : Bool) (d a b : Reg) (s : State) : Host.Outcome State Fault Refusal :=
  exec1 s (scalarAtomic 9 dw sc d a b)

end Sys2Proof.Machine
end

