-- ==== Sys2Proof/Machine/Dispatch.lean ====
section
/-!
DEFINITION. The dispatch: one arm per constructor of `Instr`, each a direct call of that instruction's meaning.
-/

namespace Sys2Proof.Machine

/-- What one instruction does. -/
def exec (i : Instr) (s : State) : Host.Outcome State Fault Refusal :=
  match i with
  | .add w d a b => Sys2Proof.Machine.execAdd w d a b s
  | .sub w d a b => Sys2Proof.Machine.execSub w d a b s
  | .and w d a b => Sys2Proof.Machine.execAnd w d a b s
  | .or w d a b => Sys2Proof.Machine.execOr w d a b s
  | .xor w d a b => Sys2Proof.Machine.execXor w d a b s
  | .shl w d a b => Sys2Proof.Machine.execShl w d a b s
  | .shr w d a b => Sys2Proof.Machine.execShr w d a b s
  | .sra w d a b => Sys2Proof.Machine.execSra w d a b s
  | .slt w d a b => Sys2Proof.Machine.execSlt w d a b s
  | .sltu w d a b => Sys2Proof.Machine.execSltu w d a b s
  | .min w d a b => Sys2Proof.Machine.execMin w d a b s
  | .max w d a b => Sys2Proof.Machine.execMax w d a b s
  | .minu w d a b => Sys2Proof.Machine.execMinu w d a b s
  | .maxu w d a b => Sys2Proof.Machine.execMaxu w d a b s
  | .mul w d a b => Sys2Proof.Machine.execMul w d a b s
  | .mulh w d a b => Sys2Proof.Machine.execMulh w d a b s
  | .mulhu w d a b => Sys2Proof.Machine.execMulhu w d a b s
  | .div w d a b => Sys2Proof.Machine.execDiv w d a b s
  | .divu w d a b => Sys2Proof.Machine.execDivu w d a b s
  | .rem w d a b => Sys2Proof.Machine.execRem w d a b s
  | .remu w d a b => Sys2Proof.Machine.execRemu w d a b s
  | .clz w d a => Sys2Proof.Machine.execClz w d a s
  | .popc w d a => Sys2Proof.Machine.execPopc w d a s
  | .addi d a imm => Sys2Proof.Machine.execAddi d a imm s
  | .andi d a imm => Sys2Proof.Machine.execAndi d a imm s
  | .ori d a imm => Sys2Proof.Machine.execOri d a imm s
  | .xori d a imm => Sys2Proof.Machine.execXori d a imm s
  | .slti d a imm => Sys2Proof.Machine.execSlti d a imm s
  | .sltiu d a imm => Sys2Proof.Machine.execSltiu d a imm s
  | .shli w d a n => Sys2Proof.Machine.execShli w d a n s
  | .shri w d a n => Sys2Proof.Machine.execShri w d a n s
  | .srai w d a n => Sys2Proof.Machine.execSrai w d a n s
  | .ldhi d a imm => Sys2Proof.Machine.execLdhi d a imm s
  | .addpc d imm => Sys2Proof.Machine.execAddpc d imm s
  | .ldb d a imm => Sys2Proof.Machine.execLdb d a imm s
  | .ldbu d a imm => Sys2Proof.Machine.execLdbu d a imm s
  | .ldh d a imm => Sys2Proof.Machine.execLdh d a imm s
  | .ldhu d a imm => Sys2Proof.Machine.execLdhu d a imm s
  | .ldw d a imm => Sys2Proof.Machine.execLdw d a imm s
  | .ldwu d a imm => Sys2Proof.Machine.execLdwu d a imm s
  | .ldd d a imm => Sys2Proof.Machine.execLdd d a imm s
  | .ldx wd na by_ sc d a b => Sys2Proof.Machine.execLdx wd na by_ sc d a b s
  | .stb d a imm => Sys2Proof.Machine.execStb d a imm s
  | .sth d a imm => Sys2Proof.Machine.execSth d a imm s
  | .stw d a imm => Sys2Proof.Machine.execStw d a imm s
  | .std d a imm => Sys2Proof.Machine.execStd d a imm s
  | .stx wd na by_ sc d a b => Sys2Proof.Machine.execStx wd na by_ sc d a b s
  | .aadd dw sc d a b => Sys2Proof.Machine.execAadd dw sc d a b s
  | .aswap dw sc d a b => Sys2Proof.Machine.execAswap dw sc d a b s
  | .aand dw sc d a b => Sys2Proof.Machine.execAand dw sc d a b s
  | .aor dw sc d a b => Sys2Proof.Machine.execAor dw sc d a b s
  | .axor dw sc d a b => Sys2Proof.Machine.execAxor dw sc d a b s
  | .amin dw sc d a b => Sys2Proof.Machine.execAmin dw sc d a b s
  | .amax dw sc d a b => Sys2Proof.Machine.execAmax dw sc d a b s
  | .aminu dw sc d a b => Sys2Proof.Machine.execAminu dw sc d a b s
  | .amaxu dw sc d a b => Sys2Proof.Machine.execAmaxu dw sc d a b s
  | .acas dw sc d a b => Sys2Proof.Machine.execAcas dw sc d a b s
  | .beq a b off => Sys2Proof.Machine.execBeq a b off s
  | .bne a b off => Sys2Proof.Machine.execBne a b off s
  | .blt a b off => Sys2Proof.Machine.execBlt a b off s
  | .bge a b off => Sys2Proof.Machine.execBge a b off s
  | .bltu a b off => Sys2Proof.Machine.execBltu a b off s
  | .bgeu a b off => Sys2Proof.Machine.execBgeu a b off s
  | .jmp off => Sys2Proof.Machine.execJmp off s
  | .jal d off => Sys2Proof.Machine.execJal d off s
  | .jalr d a imm => Sys2Proof.Machine.execJalr d a imm s
  | .vfb off => Sys2Proof.Machine.execVfb off s
  | .vloop n off => Sys2Proof.Machine.execVloop n off s
  | .vsetl sew grp d a => Sys2Proof.Machine.execVsetl sew grp d a s
  | .qget d slot => Sys2Proof.Machine.execQget d slot s
  | .mxatt d a => Sys2Proof.Machine.execMxatt d a s
  | .settle a b => Sys2Proof.Machine.execSettle a b s
  | .renew a b => Sys2Proof.Machine.execRenew a b s
  | .scnt d a => Sys2Proof.Machine.execScnt d a s
  | .swait a b => Sys2Proof.Machine.execSwait a b s
  | .nbx a b => Sys2Proof.Machine.execNbx a b s
  | .nbadd f32 a b => Sys2Proof.Machine.execNbadd f32 a b s
  | .bred a => Sys2Proof.Machine.execBred a s
  | .wcalModel a b => Sys2Proof.Machine.execWcalModel a b s
  | .wcalEarly a => Sys2Proof.Machine.execWcalEarly a s
  | .xver d => Sys2Proof.Machine.execXver d s
  | .xcount a b => Sys2Proof.Machine.execXcount a b s
  | .xmerge a => Sys2Proof.Machine.execXmerge a s
  | .xpol a => Sys2Proof.Machine.execXpol a s
  | .lpatch d a b => Sys2Proof.Machine.execLpatch d a b s
  | .larm a b => Sys2Proof.Machine.execLarm a b s
  | .trap code => Sys2Proof.Machine.execTrap code s
  | .getsr d n => Sys2Proof.Machine.execGetsr d n s
  | .setsr a n => Sys2Proof.Machine.execSetsr a n s
  | .setsrVown a => Sys2Proof.Machine.execSetsrVown a s
  | .setsrSavep a => Sys2Proof.Machine.execSetsrSavep a s
  | .swapsr d a n => Sys2Proof.Machine.execSwapsr d a n s
  | .vadd f => Sys2Proof.Machine.execVadd f s
  | .vsub f => Sys2Proof.Machine.execVsub f s
  | .vmul f => Sys2Proof.Machine.execVmul f s
  | .vmulh f => Sys2Proof.Machine.execVmulh f s
  | .vmadd f => Sys2Proof.Machine.execVmadd f s
  | .vdiv f => Sys2Proof.Machine.execVdiv f s
  | .vrem f => Sys2Proof.Machine.execVrem f s
  | .vmin f => Sys2Proof.Machine.execVmin f s
  | .vmax f => Sys2Proof.Machine.execVmax f s
  | .vand f => Sys2Proof.Machine.execVand f s
  | .vor f => Sys2Proof.Machine.execVor f s
  | .vxor f => Sys2Proof.Machine.execVxor f s
  | .vshl f => Sys2Proof.Machine.execVshl f s
  | .vshr f => Sys2Proof.Machine.execVshr f s
  | .vsra f => Sys2Proof.Machine.execVsra f s
  | .vsadd f => Sys2Proof.Machine.execVsadd f s
  | .vssub f => Sys2Proof.Machine.execVssub f s
  | .vabs f => Sys2Proof.Machine.execVabs f s
  | .vclip f => Sys2Proof.Machine.execVclip f s
  | .vfadd f => Sys2Proof.Machine.execVfadd f s
  | .vfsub f => Sys2Proof.Machine.execVfsub f s
  | .vfmul f => Sys2Proof.Machine.execVfmul f s
  | .vfma f => Sys2Proof.Machine.execVfma f s
  | .vfms f => Sys2Proof.Machine.execVfms f s
  | .vfnma f => Sys2Proof.Machine.execVfnma f s
  | .vfdiv f => Sys2Proof.Machine.execVfdiv f s
  | .vfsqrt f => Sys2Proof.Machine.execVfsqrt f s
  | .vfmin f => Sys2Proof.Machine.execVfmin f s
  | .vfmax f => Sys2Proof.Machine.execVfmax f s
  | .vfabs f => Sys2Proof.Machine.execVfabs f s
  | .vfneg f => Sys2Proof.Machine.execVfneg f s
  | .vfrcp f => Sys2Proof.Machine.execVfrcp f s
  | .vfexp2 f => Sys2Proof.Machine.execVfexp2 f s
  | .vflog2 f => Sys2Proof.Machine.execVflog2 f s
  | .vfclamp f => Sys2Proof.Machine.execVfclamp f s
  | .vfrsq f => Sys2Proof.Machine.execVfrsq f s
  | .vcmp f => Sys2Proof.Machine.execVcmp f s
  | .vmand f => Sys2Proof.Machine.execVmand f s
  | .vmor f => Sys2Proof.Machine.execVmor f s
  | .vmxor f => Sys2Proof.Machine.execVmxor f s
  | .vmnot f => Sys2Proof.Machine.execVmnot f s
  | .vmpop f => Sys2Proof.Machine.execVmpop f s
  | .vmfirst f => Sys2Proof.Machine.execVmfirst f s
  | .vmsel f => Sys2Proof.Machine.execVmsel f s
  | .vcvt f => Sys2Proof.Machine.execVcvt f s
  | .vqpack f => Sys2Proof.Machine.execVqpack f s
  | .vqunpack f => Sys2Proof.Machine.execVqunpack f s
  | .vbpl f => Sys2Proof.Machine.execVbpl f s
  | .vbunpl f => Sys2Proof.Machine.execVbunpl f s
  | .vpadd f => Sys2Proof.Machine.execVpadd f s
  | .vpmul f => Sys2Proof.Machine.execVpmul f s
  | .vpmac f => Sys2Proof.Machine.execVpmac f s
  | .vperm f => Sys2Proof.Machine.execVperm f s
  | .vslup f => Sys2Proof.Machine.execVslup f s
  | .vsldn f => Sys2Proof.Machine.execVsldn f s
  | .vcompress f => Sys2Proof.Machine.execVcompress f s
  | .vexpand f => Sys2Proof.Machine.execVexpand f s
  | .vmv f => Sys2Proof.Machine.execVmv f s
  | .vid f => Sys2Proof.Machine.execVid f s
  | .vredsum f => Sys2Proof.Machine.execVredsum f s
  | .vfredsum f => Sys2Proof.Machine.execVfredsum f s
  | .vredmin f => Sys2Proof.Machine.execVredmin f s
  | .vredmax f => Sys2Proof.Machine.execVredmax f s
  | .vscan f => Sys2Proof.Machine.execVscan f s
  | .vrand f => Sys2Proof.Machine.execVrand f s
  | .vnoise f => Sys2Proof.Machine.execVnoise f s
  | .vld f => Sys2Proof.Machine.execVld f s
  | .vst f => Sys2Proof.Machine.execVst f s
  | .vlds f => Sys2Proof.Machine.execVlds f s
  | .vsts f => Sys2Proof.Machine.execVsts f s
  | .vldx f => Sys2Proof.Machine.execVldx f s
  | .vstx f => Sys2Proof.Machine.execVstx f s
  | .vamo f => Sys2Proof.Machine.execVamo f s
  | .vlsp f => Sys2Proof.Machine.execVlsp f s
  | .vssp f => Sys2Proof.Machine.execVssp f s
  | .vgath f => Sys2Proof.Machine.execVgath f s
  | .vcopy f => Sys2Proof.Machine.execVcopy f s
  | .vrcopy f => Sys2Proof.Machine.execVrcopy f s
  | .vavail f => Sys2Proof.Machine.execVavail f s
  | .vcwait f => Sys2Proof.Machine.execVcwait f s
  | .mop f => Sys2Proof.Machine.execMop f s
  | .mzero f => Sys2Proof.Machine.execMzero f s
  | .mrowld f => Sys2Proof.Machine.execMrowld f s
  | .mrowrd f => Sys2Proof.Machine.execMrowrd f s
  | .mcolrd f => Sys2Proof.Machine.execMcolrd f s
  | .mdrain f => Sys2Proof.Machine.execMdrain f s
  | .mscale f => Sys2Proof.Machine.execMscale f s
  | .vhead f => Sys2Proof.Machine.execVhead f s
  | .vexit f => Sys2Proof.Machine.execVexit f s
  | .vbany f => Sys2Proof.Machine.execVbany f s
  | .vball f => Sys2Proof.Machine.execVball f s
  | .vbnone f => Sys2Proof.Machine.execVbnone f s
  | .vjmp f => Sys2Proof.Machine.execVjmp f s
  | .vsplit f => Sys2Proof.Machine.execVsplit f s
  | .lbr f => Sys2Proof.Machine.execLbr f s
  | .vtoq f => Sys2Proof.Machine.execVtoq f s
  | .inv f => Sys2Proof.Machine.execInv f s
  | .vbrk f => Sys2Proof.Machine.execVbrk f s
  | .vbrkrd f => Sys2Proof.Machine.execVbrkrd f s
  | .xroute f => Sys2Proof.Machine.execXroute f s
  | .wmv f => Sys2Proof.Machine.execWmv f s
  | .vnbadd f => Sys2Proof.Machine.execVnbadd f s
  | .broadcastCommand h => Sys2Proof.Machine.execBroadcastCommand h s
  | .bankAddApply n => Sys2Proof.Machine.execBankAddApply n s
  | .blockAtQueueHead h => Sys2Proof.Machine.execBlockAtQueueHead h s
  | .vloopStrip h => Sys2Proof.Machine.execVloopStrip h s
  | .queuePositionEffect h => Sys2Proof.Machine.execQueuePositionEffect h s
  | .engineElementPerformed h k e => Sys2Proof.Machine.execEngineElementPerformed h k e s
  | .engineTransferComplete h k => Sys2Proof.Machine.execEngineTransferComplete h k s
  | .pageSettleComplete frame => Sys2Proof.Machine.execPageSettleComplete frame s
  | .eviction line toCellar => Sys2Proof.Machine.execEviction line toCellar s
  | .pageMigration pte frame => Sys2Proof.Machine.execPageMigration pte frame s
  | .macroCalibration die m ok => Sys2Proof.Machine.execMacroCalibration die m ok s
  | .calibrationAnnounce die m start => Sys2Proof.Machine.execCalibrationAnnounce die m start s
  | .macroRetire die m => Sys2Proof.Machine.execMacroRetire die m s
  | .arrayScrubError line => Sys2Proof.Machine.execArrayScrubError line s
  | .bankUnitFail die ch bank => Sys2Proof.Machine.execBankUnitFail die ch bank s
  | .launchLatch die q k => Sys2Proof.Machine.execLaunchLatch die q k s
  | .launchSlotWrite die q k off bytes => Sys2Proof.Machine.execLaunchSlotWrite die q k off bytes s
  | .gangAdmit die => Sys2Proof.Machine.execGangAdmit die s
  | .preloadStage die => Sys2Proof.Machine.execPreloadStage die s
  | .budgetOverrun die gid cycles => Sys2Proof.Machine.execBudgetOverrun die gid cycles s
  | .kill h cause => Sys2Proof.Machine.execKill h cause s
  | .trapEntry h cause tval epc vec => Sys2Proof.Machine.execTrapEntry h cause tval epc vec s
  | .idleTimeout h => Sys2Proof.Machine.execIdleTimeout h s
  | .elementThreadIssue h g idx => Sys2Proof.Machine.execElementThreadIssue h g idx s
  | .gracePeriodEnd x r => Sys2Proof.Machine.execGracePeriodEnd x r s
  | .packetDelivery src dst => Sys2Proof.Machine.execPacketDelivery src dst s
  | .responseReceive src dst => Sys2Proof.Machine.execResponseReceive src dst s
  | .watermarkSend src dst => Sys2Proof.Machine.execWatermarkSend src dst s
  | .watermarkReceive src dst => Sys2Proof.Machine.execWatermarkReceive src dst s
  | .probeSend src dst => Sys2Proof.Machine.execProbeSend src dst s
  | .probeReceive src dst => Sys2Proof.Machine.execProbeReceive src dst s
  | .flitCrcFail src dst => Sys2Proof.Machine.execFlitCrcFail src dst s
  | .dieSilent a b => Sys2Proof.Machine.execDieSilent a b s
  | .dieFatalError die => Sys2Proof.Machine.execDieFatalError die s
  | .dieRejoin die => Sys2Proof.Machine.execDieRejoin die s
  | .hostMemRead pa n => Sys2Proof.Machine.execHostMemRead pa n s
  | .hostMemWrite pa bytes poison hold => Sys2Proof.Machine.execHostMemWrite pa bytes poison hold s
  | .peerAtomic op dw pa v cmp => Sys2Proof.Machine.execPeerAtomic op dw pa v cmp s
  | .spdmRequest index => Sys2Proof.Machine.execSpdmRequest index s
  | .firmwareBoot key sig version digest => Sys2Proof.Machine.execFirmwareBoot key sig version digest s
  | .hcCopy bytes => Sys2Proof.Machine.execHcCopy bytes s
  | .queueBind die j v => Sys2Proof.Machine.execQueueBind die j v s
  | .keyLoad slot => Sys2Proof.Machine.execKeyLoad slot s
  | .keyDrop slot => Sys2Proof.Machine.execKeyDrop slot s
  | .vfDisable vf => Sys2Proof.Machine.execVfDisable vf s
  | .shootdownGo v => Sys2Proof.Machine.execShootdownGo v s
  | .monitorClear die ix => Sys2Proof.Machine.execMonitorClear die ix s
  | .monitorSample die ix v => Sys2Proof.Machine.execMonitorSample die ix v s
  | .registerWrite pa n v => Sys2Proof.Machine.execRegisterWrite pa n v s
  | .linkRetrainEnd src dst ok => Sys2Proof.Machine.execLinkRetrainEnd src dst ok s
  | .vwait => Sys2Proof.Machine.execVwait s
  | .mxdet => Sys2Proof.Machine.execMxdet s
  | .mxon => Sys2Proof.Machine.execMxon s
  | .mxoff => Sys2Proof.Machine.execMxoff s
  | .ordSv => Sys2Proof.Machine.execOrdSv s
  | .ordVs => Sys2Proof.Machine.execOrdVs s
  | .ordAll => Sys2Proof.Machine.execOrdAll s
  | .gbar => Sys2Proof.Machine.execGbar s
  | .nbflush => Sys2Proof.Machine.execNbflush s
  | .tret => Sys2Proof.Machine.execTret s
  | .idle => Sys2Proof.Machine.execIdle s
  | .yield => Sys2Proof.Machine.execYield s
  | .syncins => Sys2Proof.Machine.execSyncins s
  | .halt => Sys2Proof.Machine.execHalt s
  | .vstop => Sys2Proof.Machine.execVstop s
  | .vjoin => Sys2Proof.Machine.execVjoin s
  | .renewDrop => Sys2Proof.Machine.execRenewDrop s
  | .hostDirectoryRecall => Sys2Proof.Machine.execHostDirectoryRecall s
  | .bisnpTimeout => Sys2Proof.Machine.execBisnpTimeout s
  | .bredReduction => Sys2Proof.Machine.execBredReduction s
  | .xmergeReduction => Sys2Proof.Machine.execXmergeReduction s
  | .dependencyMet => Sys2Proof.Machine.execDependencyMet s
  | .gangRetire => Sys2Proof.Machine.execGangRetire s
  | .launchRetire => Sys2Proof.Machine.execLaunchRetire s
  | .preemption => Sys2Proof.Machine.execPreemption s
  | .contextWalkRetry => Sys2Proof.Machine.execContextWalkRetry s
  | .gangResume => Sys2Proof.Machine.execGangResume s
  | .barrierRelease => Sys2Proof.Machine.execBarrierRelease s
  | .swaitSatisfied => Sys2Proof.Machine.execSwaitSatisfied s
  | .idleWake => Sys2Proof.Machine.execIdleWake s
  | .policyInterval => Sys2Proof.Machine.execPolicyInterval s
  | .replicaCopy => Sys2Proof.Machine.execReplicaCopy s
  | .versionPublish => Sys2Proof.Machine.execVersionPublish s
  | .tailExamination => Sys2Proof.Machine.execTailExamination s
  | .linkRetrain => Sys2Proof.Machine.execLinkRetrain s
  | .linkFail => Sys2Proof.Machine.execLinkFail s
  | .dieRemoval => Sys2Proof.Machine.execDieRemoval s
  | .moduleFailure => Sys2Proof.Machine.execModuleFailure s
  | .hostLinkRetrain => Sys2Proof.Machine.execHostLinkRetrain s
  | .hostLinkDown => Sys2Proof.Machine.execHostLinkDown s
  | .hcSettle => Sys2Proof.Machine.execHcSettle s
  | .hcRenew => Sys2Proof.Machine.execHcRenew s
  | .hcBred => Sys2Proof.Machine.execHcBred s
  | .hcDefineExpert => Sys2Proof.Machine.execHcDefineExpert s
  | .hcDrainDie => Sys2Proof.Machine.execHcDrainDie s
  | .hcAssignTarget => Sys2Proof.Machine.execHcAssignTarget s
  | .hcRegisterInbox => Sys2Proof.Machine.execHcRegisterInbox s
  | .hcResume => Sys2Proof.Machine.execHcResume s
  | .hcKill => Sys2Proof.Machine.execHcKill s
  | .hcEnterShuttered => Sys2Proof.Machine.execHcEnterShuttered s
  | .hcMalformed => Sys2Proof.Machine.execHcMalformed s
  | .shootdownComplete => Sys2Proof.Machine.execShootdownComplete s
  | .shutterEnterWrite => Sys2Proof.Machine.execShutterEnterWrite s
  | .brownoutPinAssert => Sys2Proof.Machine.execBrownoutPinAssert s
  | .shutteredEntry => Sys2Proof.Machine.execShutteredEntry s
  | .brownoutPinDeassert => Sys2Proof.Machine.execBrownoutPinDeassert s
  | .shutteredExit => Sys2Proof.Machine.execShutteredExit s
  | .reducedRetentionDrop => Sys2Proof.Machine.execReducedRetentionDrop s
  | .totalPowerLoss => Sys2Proof.Machine.execTotalPowerLoss s
  | .moduleReset => Sys2Proof.Machine.execModuleReset s
  | .calibrationWindowEnd => Sys2Proof.Machine.execCalibrationWindowEnd s
  | .hostLinkTrainsAgain => Sys2Proof.Machine.execHostLinkTrainsAgain s
  | .backInvalidationResponse => Sys2Proof.Machine.execBackInvalidationResponse s
  | .coldStart => Sys2Proof.Machine.execColdStart s

end Sys2Proof.Machine
end

