-- ==== Sys2Proof/Machine/Fetch.lean ====
section
/-!
DEFINITION. Fetching the scalar word at the program counter and the vector word of the running block (R13, R22, R84, R98, R113).
-/

namespace Sys2Proof.Machine

namespace M

variable {s0 : State}

/-- The scalar instruction at the program counter: a check that fails traps with its cause and the address, a reserved word with cause 0x01
and the word (R37, R84, R305). (DEDUCED, log 29) -/
def fetchScalar : M s0 Instr := do
  let a ← pc
  match ← fetchBytes a 4 with
  | .error c => trap c a
  | .ok v => do
    let w ← fetched a (BitVec.ofNat 32 v)
    match decodeScalar w with
    | .ok i => return i
    | .error _ => trap 0x01 (w.setWidth 64)

end M

/-- What a fetch gives: an instruction and the state in which it runs, or a step that has ended. -/
inductive Fetched where
  | run (i : Instr) (s : State)
  | ended (o : Host.Outcome State Fault Refusal)

/-- The result of a part of a step that answers an instruction. -/
def fetchWith (s : State) (m : M s Instr) : Fetched :=
  match m (Run.start s) with
  | .ok (i, r) => .run i r.s
  | .error r => .ended (.next r.s)

/-- Fetch the scalar word of the hart in focus. -/
def fetchAtPc (s : State) : Fetched := fetchWith s M.fetchScalar

/-- The vector word at which the block of the hart in focus stands, from its instruction buffer; a reserved word traps (R22, R98). -/
def fetchWord (s : State) : Fetched :=
  match s.hart.ctx with
  | none => .ended (.next s)
  | some c =>
    match decodeVector (c.words.getD c.idx 0) with
    | .ok i => .run i s
    | .error _ => .ended (vecReserved s)

end Sys2Proof.Machine
end

