-- ==== Sys2Proof/Machine/Moves.lean ====
section
/-!
DEFINITION. What the device does where the manual leaves it the choice and the opcode table has no row: reads made ahead of their turn (R217,
R218), the pace of a settle (R191, R205), errors that ECC finds (R13, R337, R340), the gating of islands (R293), the climate of a die (R209); and
the host's reads of registers and of configuration space (R284, R289). (DESIGN CHOICE, log 3)
-/

namespace Sys2Proof.Machine

/-- A hart reads n bytes ahead of the load that will use them; a read that a check of R91 or poison would stop is not made. (DEDUCED, log 110) -/
def moveEarly (key : Nat) (va : Word) (n : Nat) (vec : Bool) (s : State) : Host.Outcome State Fault Refusal :=
  exec1 s (do
    M.need (s.engineRuns && [1, 2, 4, 8].contains n && decide (va.toNat % n = 0))
    match s.hartOf key with
    | none => M.stall
    | some h => do
      M.need (h.phase == .run)
      match s.checkLeaf h.id.tenant va.toNat n .load (s.walk h.id.vf va.toNat) with
      | .error _ => M.stall
      | .ok a => do
        M.need (isHostMem a.pa && (s.firstPoison a.pa n).isNone)
        let e : Early :=
          { vec := vec, pa := a.pa, bytes := s.liveBytes a.pa n a.leaf.ww, clk := (s.die a.leaf.home).clock, hits := [], stale := false }
        M.modOther key fun h => { h with early := h.early ++ [e] })

/-- The temperature band and the age of a die change; a die does not grow younger (R209). (DESIGN CHOICE, log 14) -/
def moveClimate (die : Nat) (c : Climate) (s : State) : Host.Outcome State Fault Refusal :=
  exec1 s (do
    M.need (decide (die < 8) && decide ((s.climateOf (8192 * die)).age ≤ c.age))
    M.modBank fun b => { b with climate := b.climate.setIfInBounds die c })

/-- ECC corrects an error: CECNT, which saturates (R13, R340). -/
def moveCorrected (die : Nat) (s : State) : Host.Outcome State Fault Refusal :=
  exec1 s (do
    M.need (s.alive die)
    M.modPort fun p => { p with errs := vmodify p.errs die fun e => { e with cecnt := satAdd e.cecnt 1 } })

/-- The level of R340 at which a cached copy lies. -/
def Level.errorCode : Level → Nat
  | .l1 _ => 1
  | .l2 => 2
  | .l3 => 3
  | .host => 0

/-- An uncorrectable error in the newest copy of a line that the device holds: a clean cached copy is dropped and fetched again from below, a
dirty one is poisoned, and an array word is poisoned where it lies; one in the cells of a weight macro retires the macro (R337, R347). -/
def moveLineError (la : Nat) (s : State) : Host.Outcome State Fault Refusal :=
  exec1 s (do
    let pa := 64 * la
    M.need ((isHostMem pa || regionOf pa == .weights) && s.alive (homeOf pa))
    match findLine s.img.cache la with
    | some l => do
      M.need (l.level != .host)
      M.noteError (homeOf pa) l.level.errorCode pa
      if l.dirty = 0 && !l.poison then M.dropLine la
      else M.modImg fun m => { m with cache := putLine m.cache { l with poison := true } }
    | none =>
      if regionOf pa == .weights then M.push (.macroRetire (homeOf pa) (macroOf pa % 8192))
      else M.setArrayPoison la true)

/-- An uncorrectable error in a scratchpad word: it reads as poison until it is fully written (R338). -/
def moveScratchError (word : Nat) (s : State) : Host.Outcome State Fault Refusal :=
  exec1 s (do
    M.need (decide (word < 8 * 96 * 32 * 1024))
    M.modImg fun m => { m with spPoison := insertNat m.spPoison word })

/-- An uncorrectable error in a vector register of a hart: it is reported, and the hart is killed with its cause (R319, R338).
(DEDUCED, log 116) -/
def moveRegisterError (key : Nat) (s : State) : Host.Outcome State Fault Refusal :=
  exec1 s (do
    M.focus key
    let h ← M.hart
    M.need (h.phase == .run)
    M.noteError h.id.did 8 0
    M.hartReport h 0x0E 0
    M.killHart 0x0E)

/-- The vector walk that a hart makes next stops before a record (R316, R317). (DEDUCED, log 32) -/
def moveWalkStop (key r : Nat) (s : State) : Host.Outcome State Fault Refusal :=
  exec1 s (do
    M.need ((s.hartOf key).any fun h => h.phase == .run)
    M.modOther key fun h => { h with walkStop := some r })

/-- The islands among the first n that a test accepts, as a mask. -/
def islandMask (n : Nat) (idle : Nat → Bool) : Nat := ((List.range n).map fun i => if idle i then 2 ^ i else 0).sum

/-- The idle islands of a die gate, and with CD0 those of the module (R293, R294). (DEDUCED, log 45) -/
def moveGate (die : Nat) (s : State) : Host.Outcome State Fault Refusal :=
  exec1 s (do
    M.need (s.alive die && s.host.power == .run)
    M.modPort fun p => { p with gated := p.gated.setIfInBounds die (BitVec.ofNat 18 (islandMask 18 (s.islandIdle die))) }
    if die = 0 then M.modPort fun p => { p with gatedModule := BitVec.ofNat 16 (islandMask 16 s.moduleIdle) } else pure ⟨⟩)

/-- The host reads 1 to 8 bytes inside an aligned 8 bytes of the BAR of a function, 64 the PF (R284, R289). -/
def moveBarRead (fn off n : Nat) (s : State) : Host.Outcome State Fault Refusal :=
  exec1 s (do
    M.need (s.hostServed && decide (fn ≤ 64) && decide (1 ≤ n) && decide (off % 8 + n ≤ 8))
    M.hostAnswer (s.barBytes fn off n) false)

/-- The host reads 1 to 4 bytes of the configuration space of a function (R284). -/
def moveConfigRead (fn off n : Nat) (s : State) : Host.Outcome State Fault Refusal :=
  exec1 s (do
    M.need (s.hostServed && decide (fn ≤ 64) && decide (1 ≤ n) && decide (off % 4 + n ≤ 4) && decide (off + n ≤ 4096))
    M.hostAnswer ((rangeFrom off n).map (Config.configByte fn)) false)

/-- A move of the device or of the host that is no row of the table; the moves of harts and the events are steps of their own. -/
def execMove (m : Move) (s : State) : Host.Outcome State Fault Refusal :=
  match m with
  | .early h va n vec => moveEarly h va n vec s
  | .climate die c => moveClimate die c s
  | .settleWord frame la i => exec1 s (M.settlePart frame la i)
  | .corrected die => moveCorrected die s
  | .lineError la => moveLineError la s
  | .scratchError word => moveScratchError word s
  | .registerError key => moveRegisterError key s
  | .walkStop key r => moveWalkStop key r s
  | .gate die => moveGate die s
  | .barRead fn off n => moveBarRead fn off n s
  | .configRead fn off n => moveConfigRead fn off n s
  | .event _ | .scalar _ | .vector _ | .strip _ _ => .next s

end Sys2Proof.Machine
end

