-- ==== Sys2Proof/Machine/Schedule.lean ====
section
/-!
DEFINITION. What the next step of the machine is. The environment's moves come first, then background steps that have been started, and
then the streams of the hart in focus; background steps that waited are tried again in between. The manual leaves the order of independent
steps open: every order is a list of moves in `State.inputs`.
-/

namespace Sys2Proof.Machine

/-- What a step runs. -/
inductive Turn where
  /-- nothing but the passing of time -/
  | rest
  /-- an event of the opcode table -/
  | event (i : Instr)
  /-- a choice of the device or a read of the host that has no row in the table -/
  | own (m : Move)
  /-- the scalar word at the program counter of the hart in focus -/
  | scalar
  /-- the vector word at which the block of the hart in focus stands -/
  | word
  /-- no power -/
  | off
  deriving DecidableEq, Repr

/-- A plan: updates that take up the move, what runs then, and whether it is the turn of the hart in focus. -/
structure Plan where
  pre : List Upd
  turn : Turn
  own : Bool := false

/-! ## One stream of a hart -/

/-- The gang of a hart is being stopped (R29). -/
def State.stopping (s : State) (h : Hart) : Bool :=
  s.disp.gangs.any fun g => g.die == h.id.did && g.gid == h.id.gid && (match g.phase with | .stopping _ => true | _ => false)

/-- The vector stream of a hart has something to do. -/
def Hart.vectorBusy (h : Hart) : Bool := !h.vectorDone

/-- The next step of a scalar stream: its next word, or what ends its wait. -/
def scalarTurn (now : Nat) (h : Hart) : Turn :=
  match h.wait with
  | .none => .scalar
  | .idle => if now ≥ h.idleAt + 10000 then .event (.idleTimeout h.key) else .rest
  | .swait _ _ => .event .swaitSatisfied
  | .nbx _ _ _ => .event (.broadcastCommand h.key)
  | .response _ | .barrier | .renew _ => .rest

/-- The stream whose transfer is the oldest in flight. -/
def Hart.oldestTransfer (h : Hart) : Option (Nat × Transfer) :=
  ((List.range 8).filterMap fun k => ((h.streams.toList.getD k .reset).xfer).map fun t => (k, t)).foldl
    (fun best p => match best with
      | none => some p
      | some b => if p.2.order < b.2.order then some p else some b) none

/-- The next step of an engine transfer (R145). -/
def engineTurn (h : Hart) : Turn :=
  match h.oldestTransfer with
  | none => .rest
  | some (k, t) =>
    match t.todo with
    | (e, _, _) :: _ => .event (.engineElementPerformed h.key k e)
    | [] => .event (.engineTransferComplete h.key k)

/-- The next step of the block of a hart, or of the head of its queue (R20, R98, R161). -/
def blockTurn (h : Hart) : Turn :=
  match h.ctx with
  | some c =>
    if c.words.isEmpty then .event (.blockAtQueueHead h.key)
    else if c.paused then .rest
    else match c.threads with
    | some _ =>
      match c.nextGroup h.sr.sew.bits with
      | none => .rest
      | some g => .event (.elementThreadIssue h.key g ((c.nextPc h.sr.sew.bits g).getD 0))
    | none => if c.needsStrip then .event (.vloopStrip h.key) else .word
  | none =>
    match h.queue with
    | [] => .rest
    | e :: _ =>
      match e.kind with
      | .block _ _ => .event (.blockAtQueueHead h.key)
      | _ => .event (.queuePositionEffect h.key)

/-- The next step of a vector stream: n decides between a transfer in flight and the block. -/
def vectorTurn (h : Hart) (n : Nat) : Turn :=
  let b := blockTurn h
  if h.oldestTransfer.isSome && (b == .rest || n % 2 = 1) then engineTurn h else b

/-- What the hart in focus does by itself. -/
def State.hartTurn (s : State) : Turn :=
  let h := s.hart
  if !s.engineRuns || h.phase != .run then .rest
  else if s.stopping h then
    if !h.vecBoundary then vectorTurn h (h.turns / 2)
    else match h.wait with
      | .nbx _ _ _ => scalarTurn s.time.toNat h
      | _ => .event .preemption
  else if h.vectorBusy && h.turns % 2 = 0 then vectorTurn h (h.turns / 2)
  else scalarTurn s.time.toNat h

/-! ## Background steps -/

/-- The event of the command at HCHEAD; a copy of some bytes waits for the host's data (R292). -/
def State.hostCmdEvent (s : State) : List Instr :=
  match s.hostCmd with
  | none => []
  | some c =>
    if s.host.hcBusy.isNone && !s.hostCmdListed c then [.hcMalformed]
    else match c.op with
      | 0x01 => [.hcSettle]
      | 0x02 => [.hcRenew]
      | 0x03 => [.hcBred]
      | 0x04 => if c.c % 64 ≠ 0 || c.c = 0 then [.hcCopy []] else []
      | 0x10 => [.hcDefineExpert]
      | 0x11 => [.hcDrainDie]
      | 0x12 => [.hcAssignTarget]
      | 0x13 => [.hcRegisterInbox]
      | 0x20 => [.hcResume]
      | 0x21 => [.hcKill]
      | 0x30 => [.hcEnterShuttered]
      | _ => []

/-- Background steps that may have been waiting for something: each is tried again from time to time. In Shuttered and on the way out of it
nothing but the exit goes on (R295, R296). -/
def State.background (s : State) : List Instr :=
  let opt (p : Bool) (i : Instr) : List Instr := if p then [i] else []
  if !s.engineRuns then
    opt (s.host.power == .leaving && s.host.exiting) .gangResume
      ++ opt (s.host.power == .leaving || s.host.power == .leavingReduced || (s.host.power == .shuttered && s.pinReleased)) .shutteredExit
  else
    opt (!s.place.tails.isEmpty) .tailExamination
      ++ opt (!s.place.copying.isEmpty) .replicaCopy
      ++ opt (!s.place.pending.isEmpty || s.place.publishing.isSome) .versionPublish
      ++ (s.place.draining.filter fun p => decide (s.time.toNat ≥ p.2 + 200000)).map (fun p => .gracePeriodEnd (p.1 / 8) (p.1 % 8))
      ++ s.hostCmdEvent
      ++ opt (!s.bank.bred.isEmpty) .bredReduction
      ++ opt (!s.bank.xmerge.isEmpty) .xmergeReduction
      ++ opt (s.bank.reqs.any fun r => !r.det) (.bankAddApply 0)
      ++ s.img.settling.map (fun g => if g.down then .renewDrop else .pageSettleComplete g.frame)
      ++ opt (s.disp.gangs.any fun g => g.phase == .ready) .gangResume
      ++ opt (s.disp.gangs.any s.canSave) .preemption
      ++ opt (s.disp.launches.any (·.over)) .launchRetire
      ++ ((List.range 8).filter fun d => (s.choose d).isSome).map .gangAdmit
      ++ opt (s.harts.any fun h => match h.phase with | .saving _ => true | _ => false) .contextWalkRetry
      ++ opt (s.host.shoot.getLsbD 0) .shootdownComplete
      ++ (s.fab.chans.filter fun c => !c.reqs.isEmpty).map (fun c => .packetDelivery c.src c.dst)
      ++ (s.fab.chans.filter fun c => !c.resps.isEmpty).map (fun c => .responseReceive c.src c.dst)
      ++ opt (!s.fab.failing.isEmpty) .dieRemoval
      ++ opt (s.bank.macros.any fun p => p.2.window) .calibrationWindowEnd
      ++ opt (s.host.power == .entering) .shutteredEntry

/-- A background step to try again: on every other step, in turn. (DEDUCED, log 44) -/
def State.retry (s : State) : Option Instr :=
  if s.rounds % 2 = 0 then none else s.background[s.rounds / 2 % s.background.length]?

/-! ## The plan of a step -/

/-- A move of one stream of a hart. -/
def State.hartMove (s : State) (pre : List Upd) (key : Nat) (t : Hart → Turn) : Plan :=
  match s.hartOf key with
  | some h =>
    if s.engineRuns && h.phase == .run && (!s.stopping h || t h != .scalar) then { pre := pre ++ [.focus key], turn := t h }
    else { pre := pre, turn := .rest }
  | none => { pre := pre, turn := .rest }

/-- The module takes background steps: it is neither without power nor failed. -/
def State.works (s : State) : Bool := s.host.power != .off && s.host.power != .failed

/-- A 1 ms boundary of `time` has passed and its interval is still to be closed (R248, R256). -/
def State.intervalDue (s : State) : Bool := s.engineRuns && decide (s.time.toNat / 1000000 > s.place.interval)

/-- What comes before any further move of a hart: the end of an interval (R248), and the pre-emption of a gang that is over its budget (R281). -/
def State.due (s : State) : Option Instr :=
  if !s.works then none
  else if s.intervalDue then some .policyInterval
  else (s.disp.gangs.find? s.overBudget).map fun g => .budgetOverrun g.die g.gid (s.charged g)

/-- A move of the environment. -/
def State.ownMove (s : State) (rest : List Move) : Move → Plan
  | .event i => { pre := [.inputs rest], turn := .event i }
  | .scalar k => s.hartMove [.inputs rest] k (scalarTurn s.time.toNat)
  | .vector k => s.hartMove [.inputs rest] k blockTurn
  | .strip k j =>
    match (s.hartOf k).bind fun h => if s.engineRuns && h.phase == .run then h.toStrip j else none with
    | some h => { pre := [.inputs rest, .focus k, .hart h], turn := .rest }
    | none => { pre := [.inputs rest], turn := .rest }
  | m => { pre := [.inputs rest], turn := .own m }

/-- What the machine does by itself once nothing is due and no background step waits. -/
def State.idlePlan (s : State) : Plan :=
  match s.retry with
  | some i => { pre := [], turn := .event i }
  | none => { pre := [.hart { s.hart with turns := s.hart.turns + 1 }], turn := s.hartTurn, own := true }

/-- A started step that is part of the one that started it: a write to a register takes effect before any other access (R4). -/
def urgentStep : Instr → Bool
  | .registerWrite .. | .queueBind .. | .vfDisable _ | .keyDrop _ | .keyLoad _ | .shootdownGo _ | .monitorClear .. | .shutterEnterWrite => true
  | _ => false

/-- An event of the fabric between dies. -/
def fabricStep : Instr → Bool
  | .packetDelivery .. | .responseReceive .. | .watermarkSend .. | .watermarkReceive .. | .probeSend .. | .probeReceive .. | .flitCrcFail ..
  | .linkRetrain | .linkRetrainEnd .. | .linkFail | .dieSilent .. | .dieFatalError _ | .dieRemoval => true
  | _ => false

/-- What raises the echo that a die has of CD0's numbers: its watermark goes back to CD0 once it has covered what CD0 sent (R241, R242). -/
def State.echoStep (s : State) (j : Nat) : Instr :=
  if !(s.chan j 0).marks.isEmpty then .watermarkReceive j 0
  else if clkAt (s.die j).covered 0 ≠ clkAt (s.die 0).echo j then .watermarkSend j 0
  else if !(s.chan 0 j).reqs.isEmpty then .packetDelivery 0 j
  else if !(s.chan 0 j).marks.isEmpty then .watermarkReceive 0 j
  else .watermarkSend 0 j

/-- CD0 has fewer than 8,192 numbers left in its window, so that no journal entry, publication or copy may go out (R242): only the fabric
moves, by the environment's events and by itself in turn. (DEDUCED, log 16) -/
def State.windowPlan (s : State) (j : Nat) : Plan :=
  let own : Plan := match s.work.find? fabricStep with
    | some i => { pre := [.work (s.work.erase i), .rounds (s.rounds + 1)], turn := .event i }
    | none => { pre := [.rounds (s.rounds + 1)], turn := .event (s.echoStep j) }
  match s.inputs with
  | .event i :: rest => if fabricStep i && s.rounds % 2 = 0 then { pre := [.inputs rest], turn := .event i } else own
  | _ => own

/-- The plan of the next step once no register write is under way and CD0 may number its writes: an event that the environment has chosen;
otherwise what is due, with the background steps that it has to wait for; then the environment's other moves; and then what the machine does by
itself. -/
def State.freePlan (s : State) : Plan :=
  match s.inputs with
  | .event i :: rest => { pre := [.inputs rest], turn := .event i }
  | moves =>
    if s.host.power == .off then { pre := [], turn := .off }
    else match s.due, moves, s.works, s.work with
      | none, m :: rest, _, _ => s.ownMove rest m
      | _, _, false, _ => { pre := [], turn := .rest }
      | _, _, true, i :: rest => { pre := [.work rest], turn := .event i }
      | some i, _, true, [] => { pre := [], turn := .event i }
      | none, [], true, [] => s.idlePlan

/-- The plan of the next step. (DESIGN CHOICE, log 2) -/
def State.plan (s : State) : Plan :=
  match if s.works then s.work.find? urgentStep else none, if s.works then s.windowShut 0 8192 else [] with
  | some i, _ => { pre := [.work (s.work.erase i)], turn := .event i }
  | none, j :: _ => s.windowPlan j
  | none, [] => s.freePlan

/-- Perform the updates of a plan. -/
def State.applyAll (s : State) (us : List Upd) : State := us.foldl (fun t u => u.apply t) s

/-! ## After a step -/

/-- The key of the next hart that runs, in turn. -/
def State.nextHart (s : State) : Nat :=
  match s.others.find? fun h => h.phase == .run with
  | some h => h.key
  | none => s.hart.key

/-- Time passes, and after the turn of a hart the next hart comes into focus. -/
def finish (own : Bool) (s : State) : Host.Outcome State Fault Refusal :=
  exec1 s (do
    M.tick
    M.emit (.rounds ((← M.st).rounds + 1))
    if own then M.emit (.focus (← M.st).nextHart))

/-- Go on after an outcome. -/
def andThen (o : Host.Outcome State Fault Refusal) (f : State → Host.Outcome State Fault Refusal) : Host.Outcome State Fault Refusal :=
  match o with
  | .next s => f s
  | .fault r => .fault r
  | .refused r => .refused r

/-! ## Placing an instruction where the next step runs it -/

/-- A page table entry of a table pointer to a table in die d. -/
def tablePte (d pa : Nat) : Nat := d * 2 ^ 61 + bits pa 47 15 * 2 ^ 15 + 3 * 2 ^ 8 + 1

/-- A leaf of 256 KiB for code: readable, writable and executable. -/
def codePte (d pa tkey : Nat) : Nat := d * 2 ^ 61 + bits pa 47 18 * 2 ^ 18 + tkey * 2 ^ 12 + 0x0F

/-- Write bytes of the arrays of a state and drop what hides them. -/
def State.placeBytes (s : State) (pa : Nat) (bs : List Byte) : State :=
  let las := (cutLines pa bs).map (·.1)
  { s with
    cells := s.cells.writes pa bs,
    img := { s.img with
      cache := s.img.cache.filter fun l => !las.contains l.addr, poison := s.img.poison.filter fun la => !las.contains la } }

/-- The hart in focus runs, both its streams at rest. -/
def Hart.atRest (h : Hart) (covered : Clock) : Hart :=
  { h with
    phase := .run, turns := h.turns + h.turns % 2, wait := .none, queue := [], ctx := none, early := [], streams := h.streams.map fun k => { k with xfer := none },
    sr := { h.sr with vclk := covered } }

/-- The fabric side of a die in operation, with every echo at its own last number: its window is open (R242). -/
def DieFab.open (f : DieFab) (d : Nat) : DieFab := { f with alive := true, echo := Vector.replicate 8 (clkAt f.clock d) }

/-- The machine runs, with nothing before the hart in focus: no move of the environment, no background step, no gang being stopped or over its
budget, no store held at a tail word, no shut window. -/
def State.atRest (s : State) : State :=
  let d := s.hart.id.did
  { s with
    hart := s.hart.atRest (s.die d).covered, inputs := [], work := [], rounds := s.rounds + s.rounds % 2,
    place := { s.place with interval := s.time.toNat / 1000000, tails := [] },
    disp := { s.disp with gangs := s.disp.gangs.filter fun g => !(g.die == d && g.gid == s.hart.id.gid) && !s.overBudget g },
    fab := { s.fab with
      dies := (s.fab.dies.setIfInBounds 0 ((s.die 0).open 0)).setIfInBounds d ((s.die d).open d),
      chans := s.fab.chans.map fun c => { c with reqs := c.reqs.filter fun p => p.hart != s.hart.key } },
    host := { s.host with power := .run } }

/-- A scalar word at the program counter of the hart in focus: its virtual function is enabled, its key slot holds a key, and three page
table entries map the word's page to a frame of the hart's die. -/
def State.placeScalar (s0 : State) (w : Nat) : State :=
  let s := s0.atRest
  let h := s.hart
  let d := h.id.did
  let base := d * 2 ^ 45
  let va := h.pc.toNat % 2 ^ 54 / 4 * 4
  let root := base + 0x8000
  let pa := base + 0x40000 + va % 2 ^ 18
  let s1 := { s with
    hart := { h with pc := BitVec.ofNat 64 va, ibuf := h.ibuf.filter fun p => p.1.toNat ≠ va },
    img := { s.img with tlb := s.img.tlb.filter fun t => !(t.vf == h.id.vf && t.page == va / 2 ^ 18) },
    host := { s.host with
      vfs := s.host.vfs.setIfInBounds h.id.vf { en := true, root := root, tkey := h.id.tenant },
      keys := s.host.keys.setIfInBounds h.id.tenant { key := 0, loaded := some 0 } } }
  let s2 := s1.placeBytes (root + 8 * bits va 53 42) (toBytes 8 (tablePte d (base + 0x10000)))
  let s3 := s2.placeBytes (base + 0x10000 + 8 * bits va 41 30) (toBytes 8 (tablePte d (base + 0x18000)))
  let s4 := s3.placeBytes (base + 0x18000 + 8 * bits va 29 18) (toBytes 8 (codePte d (base + 0x40000) h.id.tenant))
  s4.placeBytes pa (toBytes 4 w)

/-- The word of `vhead` without flags, form 11 (R39, R154). -/
def vheadWord : BitVec 64 := 0xADC0000000000000#64

/-- A vector word in the instruction buffer of the hart in focus, as the first word of a running block. -/
def State.placeVector (s0 : State) (w : Nat) : State :=
  let s := s0.atRest
  let e : QEntry :=
    { kind := .block 0 none, snap := s.hart.x, seq := 0, mark := false, sup := s.hart.sup, pc := s.hart.pc, word := 0 }
  let c := LoopCtx.start e 0 [vheadWord, BitVec.ofNat 64 w, vstopWord] 1 s.hart.sr.vl s.hart.sr.sb 0
  { s with hart := { s.hart with ctx := some { c with resolved := true } } }

end Sys2Proof.Machine
end

