-- ==== Sys2Proof/Machine/Step.lean ====
section
/-!
DEFINITION. One step of the machine, and the state in which the next step runs a given word.
-/

namespace Sys2Proof.Machine

/-- Run what a fetch gives. -/
def runFetched : Fetched → Host.Outcome State Fault Refusal
  | .run i s => exec i s
  | .ended o => o

/-- Run the turn of a plan. (DESIGN CHOICE, log 5) -/
def runTurn (t : Turn) (s : State) : Host.Outcome State Fault Refusal :=
  match t with
  | .rest => .next s
  | .event i => exec i s
  | .own m => execMove m s
  | .scalar => runFetched (fetchAtPc s)
  | .word => runFetched (fetchWord s)
  | .off => .fault .powerOff

/-- One step: the next move, event or word, and then time passes. (DESIGN CHOICE, log 100) -/
def step (s : State) : Host.Outcome State Fault Refusal :=
  andThen (runTurn s.plan.turn (s.applyAll s.plan.pre)) (finish s.plan.own)

/-- The state in which the next step runs the instruction whose bits are w: a scalar word at the program counter, a vector word as the
first word of a running block. -/
def State.withFetchWord (s : State) (nbits w : Nat) : State :=
  if nbits = 32 then s.placeScalar w else s.placeVector w

end Sys2Proof.Machine
end

