-- ==== Sys2Proof/Safety.lean ====
section
/-!
DEFINITION. What counts as a safe run, and the terms in which claims about the machine are made: the invariant, and the next states
that the rules name.
-/

namespace Sys2Proof

/-- An outcome that is a next state. -/
def Goes (o : Host.Outcome Machine.State Machine.Fault Machine.Refusal) : Prop := ∃ t, o = .next t

/-- Every run from a state goes on, however long. -/
def Safe (s : Machine.State) : Prop := ∀ k : Nat, Goes (core.run k s)

namespace Claim

open Machine

/-! ## The invariant -/

/-- The arrays and the scratchpads keep their canonical form, and register s0 of every hart slot holds 0 (R7 register families, R84). -/
structure Inv (s : State) : Prop where
  cells : s.cells.wf = true
  scratch : s.scratch.wf = true
  zero : ∀ h ∈ s.harts, h.x[0] = 0

/-! ## Scalar next states -/

/-- The state with a register of the hart in focus written; s0 discards the write (R84). -/
def withReg (s : State) (d : Reg) (v : Word) : State :=
  if d = 0 then s else { s with hart := { s.hart with x := s.hart.x.set d.toNat v d.isLt } }

/-- The state with the program counter set. -/
def goTo (s : State) (a : Word) : State := { s with hart := { s.hart with pc := a } }

/-- The state at the next scalar word. -/
def onward (s : State) : State := goTo s (s.hart.pc + 4)

/-- The state after an instruction that writes one register and goes on. -/
def wrote (s : State) (d : Reg) (v : Word) : State := onward (withReg s d v)

/-- The low 32 bits. -/
def lo32 (v : Word) : BitVec 32 := v.setWidth 32

/-- The result of an operation: the 64-bit value, or the 32-bit value sign-extended for the `.w` form (R87). -/
def formed (w : Bool) (v : Word) (n : BitVec 32) : Word := if w then n.signExtend 64 else v

/-- 1 for true, 0 for false. -/
def flag {n : Nat} (p : Prop) [Decidable p] : BitVec n := if p then 1 else 0

/-- Signed quotient of R88. -/
def quotS {n : Nat} (a b : BitVec n) : BitVec n := if b = 0 then BitVec.allOnes n else a.sdiv b

/-- Unsigned quotient of R88. -/
def quotU {n : Nat} (a b : BitVec n) : BitVec n := if b = 0 then BitVec.allOnes n else a / b

/-- The state in which a trap of the executing scalar word leaves the hart (R302, R303): the saved registers, supervisor mode, every
queue entry marked, the program counter at the handler. -/
def handled (s : State) (c : BitVec 8) (v a : Word) (vec : Bool) : State :=
  { s with hart := { s.hart with
      pc := s.hart.sr.tvec,
      queue := s.hart.queue.map fun e => { e with mark := true },
      ctx := s.hart.ctx.map (LoopCtx.setMark true),
      streams := s.hart.streams.map (Stream.setMark true),
      sr := { s.hart.sr with
        cause := c, tval := v, epc := a,
        status := { s.hart.sr.status with psv := s.hart.sr.status.sv, sv := true, vs := vec } } } }

/-- A trap of the executing scalar word with a handler installed. -/
def trapped (s : State) (c : BitVec 8) (v : Word) : State := handled s c v s.hart.pc false

/-! ## Accesses of the scalar stream -/

/-- The walk that an access takes when the next free value has number k: one of the cached walks that differ from the walk as the tables
stand, or that walk. -/
def taken (now : WalkRes) : Nat → List (Option Leaf) → WalkRes
  | _, [] => now
  | k, old :: l =>
    if some old = now.cached then taken now k l
    else if Config.freeBool k then walkOfCached old
    else taken now (k + 1) l

/-- The walk that an access uses. Until a shootdown the translation caches may answer with older walks (R187); which one is used is free
where they differ. -/
def used (s : State) (vf va : Nat) : WalkRes := taken (s.walk vf va) s.fresh (s.tlbOf vf va)

/-- The checks of R91 after alignment, for the hart in focus. -/
def accessOf (s : State) (va : Word) (n : Nat) (k : Kind) : Except (BitVec 8) Acc :=
  s.checkLeaf s.hart.id.tenant va.toNat n k (used s s.hart.id.vf va.toNat)

/-- The bytes that a read at its home gives: none where a line of memory holds poison. -/
def seen (s : State) (a : Acc) (n : Nat) : Option (List Byte) :=
  if regionOf a.pa = .device then some (s.devBytes a.pa n)
  else if (s.firstPoison a.pa n).isSome then none
  else some (s.liveBytes a.pa n a.leaf.ww)

/-- A byte of the live image. -/
def liveByte (s : State) (ww : Bool) (pa : Nat) : Byte := (s.liveLine (pa / 64) ww).getD (pa % 64) 0

/-- A scalar memory instruction of the hart may act: no vector access is before it in order (R105), and no store of the hart to a
registered tail word is still to perform (R217, R263). -/
structure Turn (s : State) : Prop where
  quiet : s.hart.vectorDoneBelow s.hart.vsBound = true
  tails : s.tailPending s.hart.key = none

/-- The home slice of a line has room for k lines more, whatever its lines in the caches (R9, R138). -/
def Roomy (s : State) (la k : Nat) : Prop :=
  (s.img.cache.filter fun l => cachePlace l.addr .l2 == cachePlace la .l2).length + k ≤ cacheLines .l2

/-- A scalar access of n bytes may be served by its own die now, from memory: the die has covered the clock that it carries (R240), its
bytes lie in one line, and the hart has not read them ahead (R217). -/
structure Served (s : State) (a : Acc) (n : Nat) (c : Clock) : Prop where
  turn : Turn s
  local_ : a.leaf.home = s.hart.id.did
  covered : s.uncovered s.hart.id.did c (fun _ => false) = []
  aligned : a.pa % n = 0
  room : Roomy s (a.pa / 64) 1
  early : ∀ e ∈ s.hart.early, e.vec = false → e.pa ≠ a.pa

/-- An access to memory that takes no register and no registered tail word: the next write number lies in the window (R242, R263). -/
structure Plain (s : State) (a : Acc) : Prop where
  mem : isHostMem a.pa = true
  wf : s.cells.wf = true
  tail : s.tailAt (a.pa / 8 * 8) = none
  window : s.windowShut s.hart.id.did 1 = []

/-- The value of n loaded bytes in a register (R90, R94). -/
def extended (n : Nat) (signed : Bool) (v : Nat) : Word :=
  if signed then (BitVec.ofNat (8 * n) v).signExtend 64 else BitVec.ofNat 64 v

/-- Every other hart is as before but for its watch bit and what becomes of its reads made ahead (R111, R217). -/
def OthersKept (s t : State) : Prop :=
  ∀ h ∈ t.others, ∃ g ∈ s.others, g.key = h.key ∧ g.pc = h.pc ∧ g.sr = h.sr ∧ g.vec = h.vec ∧ g.tile = h.tile ∧ g.queue = h.queue
    ∧ g.ctx = h.ctx ∧ g.held = h.held ∧ g.wait = h.wait ∧ ∀ r, g.reg r = h.reg r

/-- An instruction loads n bytes at va into d (R90, R92): the value, and nothing else but the program counter, the watched line, the
hart's clock, and copies in the caches. -/
def Loads (s : State) (i : Instr) (va : Word) (n : Nat) (signed : Bool) (d : Reg) : Prop :=
  ∀ (a : Acc) (bs : List Byte), va.toNat % n = 0 → accessOf s va n .load = .ok a → Served s a n s.hart.sr.vclk →
    seen s a n = some bs →
    ∃ t, exec i s = .next t
      ∧ t = { s with
          hart := { s.hart with
            pc := s.hart.pc + 4, x := (withReg s d (extended n signed (ofBytes bs))).hart.x,
            watch := some (a.pa / 64), watchHit := false,
            sr := { s.hart.sr with vclk := clkMerge s.hart.sr.vclk (s.die s.hart.id.did).clock } },
          fresh := t.fresh,
          img := { s.img with tlb := t.img.tlb, cache := t.img.cache, keys := t.img.keys } }
      ∧ ∀ pa, liveByte t a.leaf.ww pa = liveByte s a.leaf.ww pa

/-- What a store to memory leaves of everything but the bytes stored to. -/
structure StoreFrame (s t : State) (a : Acc) (n : Nat) (bs : List Byte) : Prop where
  stored : ∀ pa, liveByte t a.leaf.ww pa
    = if a.pa ≤ pa ∧ pa < a.pa + n then bs.getD (pa - a.pa) 0 else liveByte s a.leaf.ww pa
  hart : ∃ x c y, t.hart = { s.hart with pc := s.hart.pc + 4, x := x, early := y, sr := { s.hart.sr with vclk := c } }
  others : OthersKept s t
  scratch : t.scratch = s.scratch
  counts : t.counts = s.counts
  bank : t.bank = s.bank
  disp : t.disp = s.disp
  place : t.place = s.place
  time : t.time = s.time ∧ t.cycle = s.cycle

/-- An instruction stores n bytes of a value at va (R90, R92): those bytes of the live image, and no register. -/
def Stores (s : State) (i : Instr) (va : Word) (n : Nat) (v : Word) : Prop :=
  ∀ (a : Acc), va.toNat % n = 0 → accessOf s va n .store = .ok a → Served s a n s.hart.sr.vclk → Plain s a →
    ∃ t, exec i s = .next t ∧ StoreFrame s t a n (toBytes n v.toNat) ∧ ∀ r, t.hart.reg r = s.hart.reg r

/-- The clock that an atomic carries: with `.sc` it holds what the `.sc` atomics before it have known (R95, R219). -/
def carried (s : State) (sc : Bool) : Clock := if sc then clkMerge s.hart.sr.vclk s.fab.sc else s.hart.sr.vclk

/-- An atomic at s_a of n bytes (R94): the old value into d and the new value into the word; new answers none where nothing is
written. -/
def Swaps (s : State) (i : Instr) (sc : Bool) (n : Nat) (d a : Reg) (new : Nat → Option Nat) : Prop :=
  ∀ (acc : Acc) (bs : List Byte), (s.hart.reg a).toNat % n = 0 → accessOf s (s.hart.reg a) n .atomic = .ok acc →
    Served s acc n (carried s sc) → Plain s acc → (sc = true → s.scFlying = none) →
    s.inFlight s.hart.id.did (clkAt s.hart.sr.vclk s.hart.id.did) = none → seen s acc n = some bs →
    ∃ t, exec i s = .next t
      ∧ StoreFrame s t acc n (match new (ofBytes bs) with | some v => toBytes n v | none => bs)
      ∧ ∀ r, t.hart.reg r = (withReg s d (extended n true (ofBytes bs))).hart.reg r

/-- An access whose check fails traps with the address as trap value and changes no register and no memory (R84, R91): a misaligned
address first, then what the translation gives. -/
def Refuses (s : State) (i : Instr) (va : Word) (n : Nat) (k : Kind) : Prop :=
  Turn s → s.hart.sr.tvec ≠ 0 →
    (va.toNat % n ≠ 0 → exec i s = .next (trapped s 0x03 va))
    ∧ ∀ c, va.toNat % n = 0 → accessOf s va n k = .error c → c ≠ 0x0E →
      ∃ t, exec i s = .next t ∧ t = { trapped s c va with fresh := t.fresh, img := { s.img with tlb := t.img.tlb } }

/-- The access of n bytes at an address passes the checks of R91, on the tables as they stand (R187). -/
structure PageOk (s : State) (va : Word) (n : Nat) (k : Kind) (a : Acc) : Prop where
  aligned : va.toNat % n = 0
  fresh : ∀ old ∈ s.tlbOf s.hart.id.vf va.toNat, some old = (s.walk s.hart.id.vf va.toNat).cached
  allowed : s.checkLeaf s.hart.id.tenant va.toNat n k (s.walk s.hart.id.vf va.toNat) = .ok a

/-- 8 bytes that an instruction loads from its own die for a parameter block: its check passes, the line has room for m lines, and the
bytes, not read ahead, hold no poison. -/
structure OwnLoad (s : State) (m : Nat) (va : Word) (a : Acc) (bs : List Byte) : Prop where
  page : PageOk s va 8 .load a
  aligned : a.pa % 8 = 0
  own : a.leaf.home = s.hart.id.did
  room : Roomy s (a.pa / 64) m
  early : ∀ e ∈ s.hart.early, e.vec = false → e.pa ≠ a.pa
  val : seen s a 8 = some bs

/-- n doublewords of a block at va, of m that an instruction loads from its own die, with this value. -/
def Block (s : State) (m : Nat) (va : Word) (n v : Nat) : Prop :=
  ∃ (a : Nat → Acc) (bs : Nat → List Byte), (∀ i < n, OwnLoad s m (va + BitVec.ofNat 64 (8 * i)) (a i) (bs i))
    ∧ v = ofBytes ((List.range n).flatMap bs)

/-- The pieces of a virtual range, page by page from va on: each page passes its check, and is pinned HBM4 where it must be. The first argument
bounds the number of pages. -/
def Pieces (s : State) (k : Kind) (pinned : Bool) : Nat → Nat → Nat → List Span → Prop
  | 0, _, _, ps => ps = []
  | n + 1, va, len, ps =>
    if len = 0 then ps = []
    else ∃ a rest, PageOk s (BitVec.ofNat 64 va) 1 k a ∧ (pinned = true → a.leaf.pin = true ∧ isHbm a.pa = true)
      ∧ ps = { pa := a.pa, len := min len (2 ^ 18 - va % 2 ^ 18), wb := a.leaf.wb, ww := a.leaf.ww } :: rest
      ∧ Pieces s k pinned n (va + min len (2 ^ 18 - va % 2 ^ 18)) (len - min len (2 ^ 18 - va % 2 ^ 18)) rest

/-- The state as the space of a virtual function sees it: the hart in focus is one of it (R288). -/
def seenBy (s : State) (vf : Nat) : State :=
  { s with hart := { s.hart with id := { s.hart.id with vf := vf, tenant := s.tenantOf vf } } }

/-- The pages of a range in the space of a virtual function. -/
def RangeOf (s : State) (vf : Nat) (k : Kind) (va : Word) (len : Nat) (ps : List Span) : Prop :=
  Pieces (seenBy s vf) k false (len / 2 ^ 18 + 2) va.toNat len ps

/-- A range of len bytes of pinned HBM4 has these pieces, address and length (R202). -/
def Pinned (s : State) (k : Kind) (va : Word) (len : Nat) (ps : List (Nat × Nat)) : Prop :=
  ∃ l, Pieces s k true (len / 2 ^ 18 + 2) va.toNat len l ∧ ps = l.map fun p => (p.pa, p.len)

/-- The flag of a request: none for address 0. -/
def FlagIs (s : State) (flag : Word) (pa : Option Nat) : Prop :=
  (flag = 0 ∧ pa = none) ∨ (flag ≠ 0 ∧ ∃ a, PageOk s flag 8 .store a ∧ pa = some a.pa)

/-- Width in bytes and sign extension of the selector of `ldx` (R36). -/
def widths : List (Nat × Bool) := [(1, true), (1, false), (2, true), (2, false), (4, true), (4, false), (8, false)]

/-- The address s_a + I of an SM word. -/
def at_ (s : State) (a : Reg) (imm : BitVec 16) : Word := s.hart.reg a + imm.signExtend 64

/-! ## The vector queue and the state registers -/

/-- The state with one entry more at the tail of the vector queue, its snapshot and position taken now (R98). -/
def queued (s : State) (k : QKind) (word : BitVec 32) : State :=
  onward { s with hart := { s.hart with
    queue := s.hart.queue ++ [{
      kind := k, snap := zeroFirst s.hart.x, seq := s.hart.seq, mark := false, sup := s.hart.sr.status.sv, pc := s.hart.pc, word := word }],
    seq := s.hart.seq + 1 } }

/-- Fewer than 64 entries of a kind, blocks or other positions, are pending (R98, R303). -/
def Room (s : State) (block : Bool) : Prop := (s.hart.entries.filter fun e => e.isBlock == block).length < 64

/-- What the hart knows once the clock of its die is merged (R239). -/
def learned (s : State) : Clock := clkMerge s.hart.sr.vclk (s.die s.hart.id.did).clock

/-- The clock of the hart's die merged into the hart's clock (R239). -/
def merged (s : State) : State :=
  { s with hart := { s.hart with sr := { s.hart.sr with vclk := learned s } } }

/-- The channel from a die to another takes k packets more (R243, R357). -/
def Open (s : State) (d home k : Nat) : Prop := (s.chan d home).held < 16 ∧ (s.chan d home).retry.length + k ≤ 2048

/-- A home is reached by an access that carries a clock in this step: no store of the hart to a registered tail word is still to perform;
its own die has covered the clock; another die has received the packets before it and covered the rest (R236, R240, R263). -/
structure ReachedBy (s : State) (c : Clock) (home : Nat) : Prop where
  tails : s.tailPending s.hart.key = none
  own : home = s.hart.id.did → s.uncovered home c (fun _ => false) = []
  far : home ≠ s.hart.id.did → Open s s.hart.id.did home 1
    ∧ (∀ c ∈ s.fab.chans, c.src = s.hart.id.did → c.dst = home → c.reqs = [])
    ∧ s.uncovered home c (fun i => i == s.hart.id.did) = []

/-- A home is reached by an access with the hart's clock. -/
def Reached (s : State) (home : Nat) : Prop := ReachedBy s s.hart.sr.vclk home

/-- A part of a meaning, run from a state, answers a value and leaves a state. -/
def Answers {α : Type} (s : State) (m : M s α) (a : α) (t : State) : Prop := ∃ r, m (Run.start s) = .ok (a, r) ∧ r.s = t

/-- What `getsr` reads, by number (R50). -/
def srValues (s : State) : List (Nat × Word) :=
  let h := s.hart
  let r := h.sr
  let n (k : Nat) : Word := BitVec.ofNat 64 k
  let c (k : Nat) : Word := (clkAt r.vclk k).setWidth 64
  let bit (p : Bool) (k : Nat) : Nat := if p then 2 ^ k else 0
  let t := r.status
  [(0x000, n h.id.hid), (0x001, n h.id.did), (0x002, n h.id.gid), (0x003, n h.id.gsize), (0x004, n h.id.gidx),
   (0x010, r.vl), (0x011, n r.vgrp.n), (0x012, n r.sew.bits), (0x013, r.sb), (0x014, r.estart), (0x015, r.xstop), (0x016, r.vown),
   (0x020, r.mgrant), (0x021, n (bit r.mmode 0)), (0x030, r.seed), (0x031, r.stag.setWidth 64),
   (0x040, r.cause.setWidth 64), (0x041, r.epc), (0x042, r.tval),
   (0x043, n (bit t.sv 0 + bit t.psv 1 + bit t.vs 2 + bit t.blk 3 + bit t.spl 4 + bit t.xf 5 + bit t.walk 6)),
   (0x044, r.tvec), (0x045, r.kexit), (0x046, r.savep), (0x047, r.saveidx.setWidth 64),
   (0x050, (s.place.tables.toList.getD h.id.did .reset).version.setWidth 64),
   (0x051, c 0), (0x052, c 1), (0x053, c 2), (0x054, c 3), (0x055, c 4), (0x056, c 5), (0x057, c 6), (0x058, c 7),
   (0x060, n (bit r.nbdet 0)), (0x070, n h.id.tenant), (0x071, n h.id.vf), (0x080, s.cycle), (0x081, s.time)]

/-- A number of R50 that the user may not read. -/
def supOnly (n : Nat) : Prop := 0x040 ≤ n ∧ n ≤ 0x047

/-- The numbers whose accesses are ordered with the vector queue (R19). -/
def ordered (n : Nat) : Prop := (0x010 ≤ n ∧ n ≤ 0x015) ∨ n = 0x030 ∨ n = 0x031

/-- Registers that nobody writes (R50). -/
def readOnly (n : Nat) : Prop := n ≤ 0x004 ∨ n = 0x050 ∨ n = 0x070 ∨ n = 0x071 ∨ n = 0x080 ∨ n = 0x081

/-- Registers that only the supervisor writes (R50). -/
def supWrites (n : Nat) : Prop :=
  supOnly n ∨ n = 0x016 ∨ n = 0x020 ∨ n = 0x021 ∨ (0x051 ≤ n ∧ n ≤ 0x058)

/-- The state registers after a write that is neither ordered with the queue nor has an action of its own, by number (R50, R301). -/
def srWritten (r : SRegs) (v : Word) : List (Nat × SRegs) :=
  [(0x021, { r with mmode := v.getLsbD 0 }), (0x040, { r with cause := v.setWidth 8 }), (0x041, { r with epc := v }),
   (0x042, { r with tval := v }), (0x043, { r with status := { r.status with psv := v.getLsbD 1, vs := v.getLsbD 2 } }),
   (0x044, { r with tvec := v }), (0x045, { r with kexit := v }), (0x060, { r with nbdet := v.getLsbD 0 })]
  ++ (List.range 8).map fun k => (0x051 + k, { r with vclk := r.vclk.setIfInBounds k (v.setWidth 16) })

/-- A page walk that no translation cache contradicts (R187). -/
def Fresh (s : State) (vf va : Nat) : Prop := ∀ old ∈ s.tlbOf vf va, some old = (s.walk vf va).cached

/-! ## The vector stream -/

/-- The limit of a word issued for the whole strip: vl, cut by the stop element of an exit (R24, R116). -/
def limit (s : State) : Nat :=
  min (match s.hart.ctx with
    | none => s.hart.sr.vl.toNat
    | some c => c.limit s.hart.sr.vl.toNat) 8192

/-- The performed elements of a word, in index order (R116). -/
def acted (s : State) (f : VWord) : List Nat := (List.range (limit s)).filter fun e => (s.hart.vec.mask f.m.toNat).getLsbD e

/-- A snapshotted scalar register (R98). -/
def snapped (s : State) (r : Nat) : Word :=
  match s.hart.ctx with
  | some c => c.entry.snap.toList.getD r 0
  | none => s.hart.reg (BitVec.ofNat 5 r)

/-- Element e of register group r at width w. -/
def el (s : State) (r : Reg) (w e : Nat) : Nat := s.hart.vec.elem r.toNat w e

/-- The second operand of element e: vb, or the replicated unit of vb, a scalar, or the immediate (R39 to R41). -/
def second (s : State) (f : VWord) (w e : Nat) : Nat :=
  if f.form = 0 then el s f.vb w (vbPos f e)
  else if f.form = 1 then (snapped s (f.x.toNat % 32)).toNat % 2 ^ w
  else immOf f w

/-- The word reads no destination of an earlier `vamo` while a `vexit` is still to come (R380); with vl = 0 it reads nothing. -/
def Unguarded (s : State) : Prop :=
  match s.hart.ctx with
  | none => True
  | some c => ¬ (s.hart.sr.vl ≠ 0 ∧ c.exitAhead = true
      ∧ spansMeet (M.readsAt c s.hart.sr.vgrp.n s.hart.sr.vl.toNat) (M.vamoDests c s.hart.sr.vgrp.n) = true)

/-- In matrix mode a word that is legal there (mx) writes no register from v28 on (R172, R329). -/
def ModeOk (s : State) (f : VWord) (mx : Bool) : Prop :=
  s.hart.sr.mmode = true →
    mx = true ∧ f.vd.toNat + max 1 ((min s.hart.sr.vl.toNat 8192 * s.hart.sr.sew.bits + 8191) / 8192) ≤ 28

/-- The replicated unit of a word lies within vlmax (R41). -/
def UnitOk (s : State) (f : VWord) : Prop :=
  f.rep = true → f.ridx.toNat * repUnit f + repUnit f ≤ vlmax s.hart.sr.sew s.hart.sr.vgrp s.hart.id.cap

/-- What a vector word needs to be legal (R41, R115, R172, R320): outside matrix mode, or in it (mx) with a destination below v28, the
granted width, every named group at a multiple of `vgrp`, the replicated unit within vlmax. -/
structure Legal (s : State) (f : VWord) (w : Nat) (rs : List Reg) (mx : Bool := false) : Prop where
  free : Unguarded s
  mode : ModeOk s f mx
  sew : s.hart.sr.sew.bits = w
  groups : ∀ r ∈ rs, r.toNat % s.hart.sr.vgrp.n = 0
  unit : UnitOk s f

/-- Registers of the second operand. -/
def bOf (f : VWord) : List Reg := if f.form = 0 then [f.vb] else []

/-- An operand of n elements at width w from register r starts at a multiple of `vgrp` and ends at or below v31 (R117). -/
def SpanOk (s : State) (r : Reg) (n w : Nat) : Prop :=
  r.toNat % s.hart.sr.vgrp.n = 0 ∧ r.toNat + max 1 ((n * w + 8191) / 8192) ≤ 32

/-- The state at the next word of the block, with the vector state written; nothing else changes. -/
def vecNext (s : State) (v : VecState) : State :=
  { s with hart := { s.hart with vec := v, ctx := s.hart.ctx.map fun c => { c with idx := c.idx + 1 } } }

/-- Element e of vd becomes g e for every performed e; every other element stays (R116). -/
def elementwise (s : State) (f : VWord) (w : Nat) (g : Nat → Nat) : State :=
  vecNext s (s.hart.vec.putElems f.vd.toNat w (acted s f) g)

/-- Bit e of mask register k becomes p e for every performed e; m0 ignores writes (R122). -/
def maskwise (s : State) (f : VWord) (k : Nat) (p : Nat → Bool) : State :=
  vecNext s (s.hart.vec.putMaskBits k (acted s f) p)

/-- The rounding of element e (R43, R70, R71): the mode and flags of ctl, the random bits of the element under `stag`. -/
def roundAt (s : State) (f : VWord) (k : Option Nat) (e : Nat) : Rnd :=
  let mode := f.ctl.toNat % 8
  { mode := mode, sat := f.ctl.getLsbD 3, zero := f.ctl.getLsbD 4, k := k,
    rho := if mode = 4 then (chash s.hart.sr.seed (genCtr s.hart.sr.stag (s.hart.sr.sb.toNat + e))).toNat else 0 }

/-- The state at the next word of the block with the tile written. -/
def tileNext (s : State) (t : Tile) : State :=
  { s with hart := { s.hart with tile := t, ctx := s.hart.ctx.map fun c => { c with idx := c.idx + 1 } } }

/-- A matrix word may run (R172): in matrix mode, with granted rows. -/
structure Matrix (s : State) : Prop where
  free : Unguarded s
  mode : s.hart.sr.mmode = true
  rows : s.hart.sr.mgrant ≠ 0

/-- The rows that an outer product reaches (R174). -/
def rowsOf (s : State) : Nat := min s.hart.sr.vl.toNat s.hart.sr.mgrant.toNat

/-- The row or column index of a tile word: a scalar or the immediate (R174). -/
def tileIdx (s : State) (f : VWord) : Nat := if f.form = 1 then (snapped s (f.x.toNat % 32)).toNat else f.x.toNat % 256

/-- An instruction goes on, in a state of which something holds. -/
def Leads (s : State) (i : Instr) (p : State → Prop) : Prop := ∃ t, exec i s = .next t ∧ p t

/-! ## Vector memory, the scratchpad and the engine -/

/-- No engine transfer of the hart is in flight. -/
def Idle (s : State) : Prop := ∀ k ∈ s.hart.streams.toList, k.xfer = none

/-- Every element below vl whose mask bit is set, whatever an exit says. -/
def masked (s : State) (f : VWord) : List Nat :=
  (List.range (min s.hart.sr.vl.toNat 8192)).filter fun e => (s.hart.vec.mask f.m.toNat).getLsbD e

/-- An access of the executing word meets nothing that holds it: no transfer in flight shares a byte with its ranges, the stream that a
modifier names and a transfer that is about to trap apart (R146, R151, R350); no transfer before a `vexit` that has not fired shares one with
its ranges over all of vl (R159); and the exit of the strip has not resolved yet, unless none is ahead (R24). -/
structure Clear (s : State) (sp : Bool) (rd wr rdAll wrAll : List (Nat × Nat)) (skip : Option Nat) : Prop where
  flying : ∀ k ∈ s.hart.streams.toList.zipIdx, some k.2 ≠ skip → ∀ t, k.1.xfer = some t → t.fail = none → t.hulls.holds sp rd wr = false
  kept : ∀ c, s.hart.ctx = some c → c.exitAhead = true → ∀ p ∈ c.kept, p.1 < c.idx → p.2.holds sp rdAll wrAll = false
  known : ∀ c, s.hart.ctx = some c → c.known = none ∧ c.holding = false

/-- The access of one element to memory passes its checks (R91); its home serves a clock in this step, has room for all of m lines, and the
vector stream has not read it ahead (R218). -/
structure ElemOk (s : State) (c : Clock) (va : Word) (n m : Nat) (k : Kind) (a : Acc) : Prop where
  aligned : va.toNat % n = 0 ∧ a.pa % n = 0
  fresh : Fresh s s.hart.id.vf va.toNat
  allowed : s.checkLeaf s.hart.id.tenant va.toNat n k (s.walk s.hart.id.vf va.toNat) = .ok a
  served : ReachedBy s c a.leaf.home
  mem : isHostMem a.pa = true
  room : Roomy s (a.pa / 64) m
  early : ∀ e ∈ s.hart.early, e.vec = true → e.pa ≠ a.pa

/-- The word at one address of a byte image. -/
def wordAt (m : Nat → Byte) (pa n : Nat) : Nat := ofBytes ((List.range n).map fun i => m (pa + i))

/-- A byte image with bytes written at an address. -/
def overlaid (m : Nat → Byte) (pa : Nat) (bs : List Byte) : Nat → Byte :=
  fun a => if pa ≤ a ∧ a < pa + bs.length then bs.getD (a - pa) 0 else m a

/-- The bytes of memory after the elements of a store in index order (R141). -/
def stored (s : State) (n : Nat) (es : List Nat) (pa : Nat → Nat) (v : Nat → Nat) : Nat → Byte :=
  es.foldl (fun m e => overlaid m (pa e) (toBytes n (v e))) (liveByte s true)

/-- The atomics of the elements in index order: the bytes of memory, and the old value of each element (R94, R143). -/
def amoRun (op n : Nat) (b d pa : Nat → Nat) : List Nat → (Nat → Byte) → (Nat → Byte) × List (Nat × Nat)
  | [], m => (m, [])
  | e :: es, m =>
    let old := wordAt m (pa e) n
    let r := amoRun op n b d pa es (match atomicNew op n old (b e) (d e) with
      | none => m
      | some v => overlaid m (pa e) (toBytes n v))
    (r.1, (e, old) :: r.2)

/-- The width and the groups of a memory word are legal (R115). -/
def Grouped (s : State) (f : VWord) (rs : List Reg) : Prop :=
  s.hart.sr.sew.bits = tyBits f.ty ∧ ∀ r ∈ rs, r.toNat % s.hart.sr.vgrp.n = 0

/-- What stays of a state in which a vector word has stored: every register, the other harts, and everything but memory, the caches, the
fabric and what the hart knows of other writes. -/
structure StoreKeeps (s t : State) : Prop where
  hart : ∃ c d y x, t.hart = { (vecNext s s.hart.vec).hart with x := x, early := y, vknown := d, sr := { s.hart.sr with vclk := c } }
  regs : ∀ r, t.hart.reg r = s.hart.reg r
  others : OthersKept s t
  scratch : t.scratch = s.scratch
  counts : t.counts = s.counts
  bank : t.bank = s.bank
  disp : t.disp = s.disp
  place : t.place = s.place
  time : t.time = s.time ∧ t.cycle = s.cycle

/-- A word loads its performed elements from these addresses (R116, R139 to R141). -/
def VLoads (s : State) (i : Instr) (f : VWord) (rs : List Reg) (addr : Nat → Word) : Prop :=
  let w := tyBits f.ty
  let n := w / 8
  let es := acted s f
  (s.hart.sr.vl = 0 → exec i s = .next (vecNext s s.hart.vec))
  ∧ ∀ (acc : Nat → Acc) (val : Nat → List Byte), Grouped s f rs → 
    Clear s false (es.map fun e => ((addr e).toNat, n)) [] ((masked s f).map fun e => ((addr e).toNat, n)) [] none →
    (∀ e ∈ es, ElemOk s s.hart.sr.vclk (addr e) n es.length .load (acc e) ∧ seen s (acc e) n = some (val e)) →
    Leads s i fun t =>
      (∃ c d, t = { s with
        hart := { (elementwise s f w fun e => ofBytes (val e)).hart with vknown := d, sr := { s.hart.sr with vclk := c } },
        fab := t.fab, img := { s.img with tlb := t.img.tlb, cache := t.img.cache, keys := t.img.keys } })
      ∧ ∀ pa, isHostMem pa = true → liveByte t true pa = liveByte s true pa

/-- A word stores its performed elements to these addresses. -/
def VStores (s : State) (i : Instr) (f : VWord) (rs : List Reg) (addr : Nat → Word) : Prop :=
  let w := tyBits f.ty
  let n := w / 8
  let es := acted s f
  (s.hart.sr.vl = 0 → exec i s = .next (vecNext s s.hart.vec))
  ∧ ∀ (acc : Nat → Acc), Grouped s f rs → 
    Clear s false [] (es.map fun e => ((addr e).toNat, n)) [] ((masked s f).map fun e => ((addr e).toNat, n)) none → s.cells.wf = true →
    (∀ e ∈ es, ElemOk s s.hart.sr.vclk (addr e) n es.length .store (acc e) ∧ s.tailAt ((acc e).pa / 8 * 8) = none) →
    s.windowShut s.hart.id.did es.length = [] →
    Leads s i fun t => StoreKeeps s t
      ∧ ∀ pa, isHostMem pa = true → liveByte t true pa = stored s n es (fun e => (acc e).pa) (el s f.vd w) pa

/-- A word that acts exactly once may act (R152, R348): transfers in flight are of its own block, and the block does not pass it again. -/
structure ActsOnce (s : State) : Prop where
  mine : ∀ k ∈ s.hart.streams.toList, ∀ t, k.xfer = some t → ∀ c, s.hart.ctx = some c → t.at_.map (·.entry.seq) = some c.entry.seq
  redo : ∀ c, s.hart.ctx = some c → c.redo = []

/-- The state at the next word after a word that acts exactly once, with what it has given noted while a transfer is in flight. -/
def onceNext (s : State) (v : VecState) (vals : List (Nat × Nat)) : State :=
  let t := vecNext s v
  let busy := s.hart.streams.toList.any fun k => k.xfer.isSome
  { t with hart := { t.hart with ctx := t.hart.ctx.map fun c =>
      { c with once := if busy then c.once ++ [(c.idx - 1, vals)] else [] } } }

/-- The offset of an element in the scratchpad slice of its lane (R144). -/
def spOffset (s : State) (f : VWord) (e : Nat) : Nat :=
  (snapped s (f.x.toNat % 32) + BitVec.ofNat 64 (el s f.vb (tyBits f.ty) e)).toNat

/-- The scratchpad key of an offset in the slice of an element's lane. -/
def spKeyOf (s : State) (f : VWord) (e off : Nat) : Nat :=
  scratchKey s.hart.id.did s.hart.id.hid (8 * (laneOf (tyBits f.ty) e).1 + (laneOf (tyBits f.ty) e).2) off

/-- A stream of the hart. -/
def strm (s : State) (k : Nat) : Stream := s.hart.streams.toList.getD k .reset

/-- How far a stream has come, in elements of the strip (R145, R146). -/
def come (s : State) (k : Nat) : Nat := ((strm s k).avail - s.hart.sr.sb).toInt.toNat

/-- A transfer of a word may begin (R151, R152, R159, R351): its stream is free, no transfer in flight clashes with its ranges or waits to be
resumed, and no transfer before an exit that has not fired clashes with its ranges over all of vl. -/
structure Begin (s : State) (k : Nat) (now wide : Hulls) : Prop where
  free : (strm s k).xfer = none
  flying : ∀ j ∈ s.hart.streams.toList, ∀ t, j.xfer = some t → s.hart.sr.estart = 0 ∧ t.hulls.clashes now = false
  kept : ∀ c, s.hart.ctx = some c → c.holding = false
    ∧ (c.exitAhead = true → ∀ p ∈ c.kept, p.1 < c.idx → p.2.clashes wide = false)

/-- An engine transfer begins on stream k with these elements, each with its source and its destination, from `estart` on; with none
left it completes at once (R145, R147). -/
def Begins (s : State) (i : Instr) (kind : TransferKind) (k size : Nat) (es : List (Nat × Word × Word)) : Prop :=
  let todo := es.filter fun p => s.hart.sr.sb + BitVec.ofNat 64 p.1 ≥ s.hart.sr.estart
  let fin := s.hart.sr.sb + BitVec.ofNat 64 (limit s)
  Leads s i fun t =>
    (∃ kept, t = { s with hart := { s.hart with
      streams := t.hart.streams, sr := { s.hart.sr with estart := if todo = [] then 0 else s.hart.sr.estart },
      ctx := s.hart.ctx.map fun c => { c with idx := c.idx + 1, kept := kept } } })
    ∧ (∀ j, j ≠ k → strm t j = strm s j) ∧ (strm t k).fin = fin
    ∧ match todo with
      | [] => (strm t k).avail = fin ∧ (strm t k).xfer = none
      | (e, _, _) :: _ => (strm t k).avail = s.hart.sr.sb + BitVec.ofNat 64 e
        ∧ ∃ x, (strm t k).xfer = some x ∧ x.kind = kind ∧ x.todo = todo ∧ x.size = size ∧ x.sb = s.hart.sr.sb
          ∧ x.vl = s.hart.sr.vl ∧ x.clk = s.hart.sr.vclk ∧ x.at_ = s.hart.ctx ∧ x.fail = none

/-- One element of a transfer is performed: it leaves the list, and `avail` follows (R145); no register and no vector state changes. -/
def ElementDone (s t : State) (k e : Nat) (x : Transfer) : Prop :=
  (∃ c d y x, t.hart = { s.hart with x := x, streams := t.hart.streams, early := y, vknown := d, sr := { s.hart.sr with vclk := c } })
  ∧ (∀ r, t.hart.reg r = s.hart.reg r)
  ∧ (∀ j, j ≠ k → strm t j = strm s j) ∧ (strm t k).fin = (strm s k).fin
  ∧ ∃ y, (strm t k).xfer = some y ∧ y.todo = x.todo.filter (fun p => p.1 ≠ e) ∧ y.fail = none
    ∧ (strm t k).avail = match y.todo with
      | [] => (strm s k).fin
      | (j, _, _) :: _ => x.sb + BitVec.ofNat 64 j

/-! ## Inversion (R165 to R169) -/

/-- Words of a routine that this file evaluates, and what each makes of A, B and the old element of its destination. -/
def routineOp (i : Instr) : Option (VWord × (Rnd → Nat → Nat → Nat → Nat)) :=
  let int (f : VWord) (g : BitVec (tyBits f.ty) → BitVec (tyBits f.ty) → BitVec (tyBits f.ty) → BitVec (tyBits f.ty)) :=
    some (f, fun (_ : Rnd) (x y z : Nat) => (g (BitVec.ofNat _ x) (BitVec.ofNat _ y) (BitVec.ofNat _ z)).toNat)
  let float (f : VWord) (g : Rnd → FVal → FVal → FVal → FRes) :=
    some (f, fun (r : Rnd) (x y z : Nat) => (fmtOf f.ty).round r (g r ((fmtOf f.ty).decode x) ((fmtOf f.ty).decode y) ((fmtOf f.ty).decode z)))
  match i with
  | .vadd f => int f fun x y _ => x + y
  | .vsub f => int f fun x y _ => x - y
  | .vmul f => int f fun x y _ => x * y
  | .vmadd f => int f fun x y z => x * y + z
  | .vand f => int f fun x y _ => x &&& y
  | .vor f => int f fun x y _ => x ||| y
  | .vxor f => int f fun x y _ => x ^^^ y
  | .vfadd f => float f fun r x y _ => fadd r x y
  | .vfsub f => float f fun r x y _ => fadd r x y.neg
  | .vfmul f => float f fun _ x y _ => (fmul x y).res
  | .vfma f => float f fun r x y z => fadd r (fmul x y) z
  | .vmv f => some (f, fun _ _ y _ => y)
  | _ => none

/-- The vector state after a routine has run for the elements of a list (R165). -/
def routineRun (s : State) (es : List Nat) (is : List Instr) (v : VecState) : VecState :=
  is.foldl (fun v i => match routineOp i with
    | none => v
    | some (q, g) =>
      let w := tyBits q.ty
      v.putElems q.vd.toNat w ((List.range (limit s)).filter fun e => es.contains e && (v.mask q.m.toNat).getLsbD e) fun e =>
        g (roundAt s q (some 32) e) (v.elem q.va.toNat w e) (second { s with hart := { s.hart with vec := v } } q w e)
          (v.elem q.vd.toNat w e)) v

/-- The vector state after the function has been evaluated at one argument for each listed element (R165). -/
def evaluated (s : State) (f : VWord) (is : List Instr) (v : VecState) (xs : List (Nat × Nat)) : VecState :=
  routineRun s (xs.map (·.1)) is (xs.foldl (fun v p => v.setElem f.va.toNat (tyBits f.ty) p.1 p.2) v)

/-- The loop of R167 from brackets whose ends have been evaluated: none where a value lies outside the monotone range. -/
def bisected (s : State) (f : VWord) (is : List Instr) : Nat → VecState → List InvElem → Option (VecState × List InvElem)
  | 0, v, xs => some (v, xs)
  | n + 1, v, xs =>
    let a := invArgs f
    let w := tyBits f.ty
    let live := xs.filter fun x => decide (x.width f.ty > 2 ^ a.tol)
    let v' := evaluated s f is v (live.map fun x => (x.e, x.mid f.ty))
    if live = [] then some (v, xs)
    else if live.any fun x => a.broken f.ty x (v'.elem f.vd.toNat w x.e) then none
    else bisected s f is n v' (xs.map fun x =>
      if x.width f.ty > 2 ^ a.tol then a.halve f.ty x (v'.elem f.vd.toNat w x.e) (el s f.vb w x.e) else x)

/-- The inversion with a routine, from the brackets of the performed elements: the vector state before the last evaluation and the brackets
found. None where a bracket is a NaN, is turned round or does not enclose its target, or a value is not monotone (R166 to R168). -/
def inverted (s : State) (f : VWord) (is : List Instr) : Option (VecState × List InvElem) :=
  let a := invArgs f
  let w := tyBits f.ty
  let vs := s.hart.vec
  let all := (acted s f).map fun e => ({ e := e, lo := bracketElem vs.blo w e, hi := bracketElem vs.bhi w e, flo := 0, fhi := 0 } : InvElem)
  let v1 := evaluated s f is vs (all.map fun x => (x.e, x.lo))
  let v2 := evaluated s f is v1 (all.map fun x => (x.e, x.hi))
  let ends := all.map fun x => { x with flo := v1.elem f.vd.toNat w x.e, fhi := v2.elem f.vd.toNat w x.e }
  if ends.any fun x => invNan f.ty x.lo || invNan f.ty x.hi || decide (invOrd f.ty x.lo > invOrd f.ty x.hi)
      || a.outside f.ty x (el s f.vb w x.e) then none
  else bisected s f is a.cap v2 (ends.map fun x => a.start f.ty x (el s f.vb w x.e))

/-- The words behind an `inv` are this routine, and each is legal (R165, R172): it writes neither vx nor vt. -/
structure Routine (s : State) (f : VWord) (is : List Instr) : Prop where
  words : ∀ c, s.hart.ctx = some c →
    ((c.words.drop (c.idx + 1)).take (invArgs f).n).map decodeVector = is.map (fun i => .ok i) ∧ is.length = (invArgs f).n
  legal : ∀ i ∈ is, ∃ q g, routineOp i = some (q, g) ∧ Legal s q (tyBits f.ty) ([q.vd, q.va] ++ bOf q) ∧ tyBits q.ty = tyBits f.ty
    ∧ spansMeet (regUse s.hart.sr.vgrp.n s.hart.sr.vl.toNat i).wr
      [grpAt s.hart.sr.vgrp.n f.va, grpAt s.hart.sr.vgrp.n f.vb] = false

/-! ## Block control -/

/-- The state with this block running. -/
def inBlock (s : State) (c : LoopCtx) : State := { s with hart := { s.hart with ctx := some c } }

/-- A pre-emption of the hart's gang is pending (R157). -/
def pausing (s : State) : Bool :=
  match s.disp.gangs.find? fun g => g.die == s.hart.id.did && g.gid == s.hart.id.gid with
  | some g => (match g.phase with | .stopping _ => true | _ => false)
  | none => false

/-- The state after a branch of a block, taken or not (R23, R156, R157). -/
def branched (s : State) (c : LoopCtx) (f : VWord) (take : Bool) : State :=
  let t := branchTarget f c.idx
  if take then inBlock s { c with idx := t, paused := c.paused || (decide (t < c.idx) && c.parked.isEmpty && pausing s) }
  else inBlock s { c with idx := c.idx + 1 }

/-- A return slot of the state at the next word takes a value (R160), unless a later strip of an `indep` block has written it (R21). -/
def slotWritten (s : State) (k : Nat) (v : Word) : State :=
  if s.hart.ctx.any fun c => c.indep && decide ((aget c.slotBy k).getD 0 > c.k) then vecNext s s.hart.vec
  else
    let t := vecNext s { s.hart.vec with vq := s.hart.vec.vq.setIfInBounds k v }
    { t with hart := { t.hart with
        availSlots := s.hart.availSlots &&& ~~~(BitVec.ofNat 8 (2 ^ k)),
        ctx := t.hart.ctx.map fun c => if c.indep then { c with slotBy := aput c.slotBy k c.k } else c } }

/-! ## Traps of the vector stream -/

/-- The scalar stream stands at an instruction boundary. -/
def Between (s : State) : Prop :=
  (∀ r, s.hart.wait ≠ .response r) ∧ (∀ l, s.hart.wait ≠ .renew l) ∧ ∀ b n c, s.hart.wait ≠ .nbx b n c

/-- The stopped block or operation with what stands behind it is the held image, and the handler runs (R303). -/
def held (s : State) (c : BitVec 8) (v a : Word) (ctx : Option LoopCtx) (behind : List QEntry) (xf : Bool) : State :=
  handled { s with hart := { s.hart with
    ctx := none, queue := [], wait := .none,
    held := some { ctx := ctx.map LoopCtx.stopped, behind := behind, resume := if s.hart.wait = .idle then s.hart.pc + 4 else s.hart.pc },
    sr := { s.hart.sr with status := { s.hart.sr.status with blk := true, spl := false, xf := xf } } } } c v a true

/-- The entry at the head of the queue may start: nothing of an `ord.sv` is outstanding for it (R105). -/
structure AtHead (s : State) (e : QEntry) (rest : List QEntry) : Prop where
  run : s.hart.phase = .run
  idle : s.hart.ctx = none
  queue : s.hart.queue = e :: rest
  fence : s.hart.svBound = none

/-- A block of these words lies at an address on the hart's own die, every check of its fetch passes, and it is well formed (R46, R98, R155,
R328); the hart holds no older copy of its words (R113). -/
structure BlockAt (s : State) (t : Word) (ws : List (BitVec 64)) : Prop where
  tails : s.tailPending s.hart.key = none
  covered : s.uncovered s.hart.id.did s.hart.sr.vclk (fun _ => false) = []
  words : ∀ (i : Nat) (w : BitVec 64), ws[i]? = some w → ∃ a, PageOk s (t + BitVec.ofNat 64 (8 * i)) 8 .fetch a
    ∧ a.leaf.home = s.hart.id.did ∧ Roomy s (a.pa / 64) ws.length ∧ seen s a 8 = some (toBytes 8 w.toNat)
  first : ∃ f, decodeVector (ws.getD 0 0) = .ok (.vhead f)
  ends : ws.length ≤ 256 ∧ ws.getLast? = some vstopWord ∧ ∀ i, i + 1 < ws.length → ws.getD i 0 ≠ vstopWord
  legal : blockFault (decodeWords ws) (((ws.getD 0 0).extractLsb' 18 5).toNat % 4) = none
  buffer : ∀ p ∈ s.hart.ibuf, ∀ i < 2 * ws.length, p.1 ≠ t + BitVec.ofNat 64 (4 * i)

/-- The state in which a block has been fetched: the buffer holds its words, and copies lie in the caches. -/
def fetchedInto (s t : State) : State :=
  { s with
    hart := { s.hart with ibuf := t.hart.ibuf },
    img := { s.img with tlb := t.img.tlb, cache := t.img.cache, keys := t.img.keys } }

/-- The state after an operation took effect at its queue position. -/
def popped (s : State) (rest : List QEntry) (r : SRegs) : State := { s with hart := { s.hart with queue := rest, sr := r } }

/-- The element threads of a lane group that stand at a word. -/
def standAt (s : State) (ts : List Thread) (g i : Nat) : List Nat :=
  (ts.filter fun t => !t.joined && t.idx == i && (laneOf s.hart.sr.sew.bits t.e).1 == g).map (·.e)

/-! ## Routing and bank requests -/

/-- The routing word of a token for an expert under the table of a die (R252, R253): the replica that the hash chooses among the active
ones, or the none word. -/
def routed (t : DieTable) (x : Nat) (token : Word) : Nat :=
  let b := if t.version.getLsbD 0 then t.bank1 else t.bank0
  let v := t.version.toNat % 2 ^ 24 * 256
  let active := (List.range 8).filter fun r => (aget b.entries (8 * x + r)).any fun e => e.state == 1
  if x ≥ b.experts then v + 0x80
  else match active[(chash b.seedTable token).toNat % active.length]? with
    | none => v + 0x80
    | some r => match aget b.entries (8 * x + r) with
      | none => v + 0x80
      | some e => v + (if e.weights then 64 else 0) + 8 * r + e.die

/-- The macro with this number belongs to the weight set of an access at sa: from the set's first macro on, page after page, the set goes on
as far as it (R204). -/
def InSet (s : State) (sa : Word) (first : Acc) (key : Nat) : Prop :=
  ∃ k < 65536, (∀ j ≤ k, ∃ b, s.checkLeaf s.hart.id.tenant (sa + BitVec.ofNat 64 (32768 * j)).toNat 64 .load
      (s.walk s.hart.id.vf (sa + BitVec.ofNat 64 (32768 * j)).toNat) = .ok b ∧ b.leaf.wset = first.leaf.wset ∧ b.leaf.ww = first.leaf.ww
      ∧ (j = k → macroOf b.pa = key))

/-- The weight set at sa is found on the tables as they stand (R187, R204). -/
structure SetAt (s : State) (sa : Word) (first : Acc) : Prop where
  aligned : sa.toNat % 32768 = 0
  allowed : s.checkLeaf s.hart.id.tenant sa.toNat 64 .load (s.walk s.hart.id.vf sa.toNat) = .ok first
  set : first.leaf.wset ≠ 0
  fresh : ∀ j, ∀ old ∈ s.tlbOf s.hart.id.vf (sa + BitVec.ofNat 64 (32768 * j)).toNat,
    some old = (s.walk s.hart.id.vf (sa + BitVec.ofNat 64 (32768 * j)).toNat).cached

/-- The launch of the hart. -/
def launchNo (s : State) : Nat :=
  ((s.disp.gangs.find? fun g => g.die == s.hart.id.did && g.gid == s.hart.id.gid).map (·.launch)).getD noLaunch

/-- A word for an add request (R198), on the tables as they stand. -/
structure AddOk (s : State) (va : Word) (a : Acc) : Prop where
  aligned : va.toNat % 4 = 0
  fresh : Fresh s s.hart.id.vf va.toNat
  allowed : s.checkLeaf s.hart.id.tenant va.toNat 4 .atomic (s.walk s.hart.id.vf va.toNat) = .ok a
  cc : a.leaf.cc = true
  served : Reached s a.leaf.home

/-- A macro of a weight set that `wmv` may use (R207). -/
structure MacroOk (s : State) (va : Word) (wset : Nat) (ww : Bool) (a : Acc) : Prop where
  fresh : Fresh s s.hart.id.vf va.toNat
  allowed : s.checkLeaf s.hart.id.tenant va.toNat 64 .load (s.walk s.hart.id.vf va.toNat) = .ok a
  set : a.leaf.wset = wset ∧ wset ≠ 0 ∧ a.leaf.ww = ww
  served : Reached s a.leaf.home
  works : (s.macroAt (macroOf a.pa)).retired = false ∧ (s.macroAt (macroOf a.pa)).window = false

/-! ## Dispatchers -/

/-- The state once the time that admitted gangs have run is counted (R256, R275, R276, R281). -/
def counted (s : State) : State :=
  (s.disp.gangs.filter Gang.onCores).foldl (fun t g =>
    match s.launchOf g with
    | none => t
    | some l =>
      let dt := s.time.toNat - g.since
      let x := t.queueOf l.q
      let waits (k : Launch) : Bool := k.q ≠ l.q && k.die == l.die && recPriority k.record == recPriority l.record && s.isFront k
      { t with
        disp := { t.disp with
          queues := (t.disp.queues.filter fun k => k.q ≠ l.q) ++ [{ x with deficit := x.deficit - dt }],
          launches := t.disp.launches.map fun k => if waits k then { k with waited := k.waited + dt } else k,
          gangs := t.disp.gangs.map fun x =>
            if x.die = g.die && x.gid = g.gid then { x with since := s.time.toNat, cycleAt := s.cycle.toNat, charge := s.charged g } else x },
        place := { t.place with occ := aput t.place.occ g.die ((aget t.place.occ g.die).getD 0 + dt * g.harts.length) } }) s

/-- The same with no deficit on a queue that holds no ready record (R275). -/
def ranked (s : State) : State :=
  { counted s with disp := { (counted s).disp with
      queues := (counted s).disp.queues.map fun x => if (counted s).holdsReady x.q then x else { x with deficit := 0 } } }

/-- Gangs once every running one has been asked to stop for a reason (R29): the time that admitted gangs have run is counted first. -/
def stoppedFor (s : State) (why : Nat) : List Gang :=
  let gangs := if s.disp.gangs.any fun g => g.phase == .run then (counted s).disp.gangs else s.disp.gangs
  gangs.map fun g => if g.phase == .run then { g with phase := .stopping why } else g

/-- The save area of the hart in focus is served, and takes the records of its context from r on, none of which lies over a page table (R310,
R312). -/
structure AreaTakes (s : State) (r barrier : Nat) : Prop where
  served : ∀ i < 4, ∃ a, PageOk s (s.hart.sr.savep + BitVec.ofNat 64 (i * 2 ^ 18)) 64 .load a ∧ Reached s a.leaf.home
  takes : ∀ p ∈ s.hart.contextRecords barrier, r ≤ p.1 → ∃ a, PageOk s (recAddr s.hart.sr.savep p.1) 64 .store a
    ∧ ∀ t ∈ (s.mapped s.hart.id.vf).1, a.pa + 64 ≤ t ∨ t + 32768 ≤ a.pa
  window : s.windowShut s.hart.id.did 4096 = []

/-- The record that a vector walk of the hart in focus saves next, and the one that it restores next (R313, R315 to R317). -/
def saveFrom (s : State) : Nat :=
  if s.hart.sr.status.walk ∧ whatOf s.hart.sr.saveidx = 2 then max 4096 (idxOf s.hart.sr.saveidx) else 4096

/-- A vector walk of the hart in focus that has stopped while it restored (R313). -/
abbrev Restoring (s : State) : Prop := s.hart.sr.status.walk = true ∧ whatOf s.hart.sr.saveidx = 2 ∧ dirOf s.hart.sr.saveidx = true

/-- The four pages of an area may be served to the hart in focus, and its die has the numbers for a vector walk (R242, R310, R312). -/
structure AreaServed (s : State) (area : Word) : Prop where
  served : ∀ i < 4, ∃ a, PageOk s (area + BitVec.ofNat 64 (i * 2 ^ 18)) 64 .load a ∧ Reached s a.leaf.home
  window : s.windowShut s.hart.id.did 30000 = []

/-- An area takes the records of the vector frame of the hart in focus from r on, none of which lies over a page table (R315). -/
structure FrameTakes (s : State) (area : Word) (r : Nat) : Prop extends AreaServed s area where
  takes : ∀ i, r ≤ i → i < s.hart.frameEnd → ∃ a, PageOk s (recAddr area i) 64 .store a
    ∧ ∀ t ∈ (s.mapped s.hart.id.vf).1, a.pa + 64 ≤ t ∨ t + 32768 ≤ a.pa

/-- An area gives the records of a vector frame from r on to the hart in focus: each is readable, without poison, and the home slices have
room for their lines (R315, R316). -/
structure FrameGives (s : State) (area : Word) (r : Nat) (a : Nat → Acc) (bs : Nat → List Byte) : Prop extends AreaServed s area where
  page : ∀ i, r ≤ i → i < s.hart.frameEnd → PageOk s (recAddr area i) 64 .load (a i)
  bytes : ∀ i, r ≤ i → i < s.hart.frameEnd → isHostMem (a i).pa = true ∧ seen s (a i) 64 = some (bs i)
  room : ∀ i, r ≤ i → i < s.hart.frameEnd → Roomy s ((a i).pa / 64)
    ((List.range s.hart.frameEnd).filter fun j => decide (r ≤ j) && cachePlace ((a j).pa / 64) .l2 == cachePlace ((a i).pa / 64) .l2).length

/-! ## Units and engines -/

/-- A write of a die may perform at its home in this step: nothing is before it on its way, its home has covered the die's clock, and its
number lies in the window (R236, R240, R242). -/
structure DieReady (s : State) (d home : Nat) : Prop where
  window : s.windowShut d 1 = []
  first : ∀ c ∈ s.fab.chans, c.src = d → c.dst = home → c.reqs = []
  covered : s.uncovered home (s.die d).clock (fun i => i == d) = []

/-- n doublewords of a parameter block in the space of a virtual function, which CD0 reads for the host command ring (R292). -/
def RingBlock (s : State) (vf : Nat) (va : Word) (n v : Nat) : Prop :=
  ∃ (a : Nat → Acc) (bs : Nat → List Byte), v = ofBytes ((List.range n).flatMap bs) ∧ ∀ i < n,
    PageOk (seenBy s vf) (va + BitVec.ofNat 64 (8 * i)) 8 .load (a i) ∧ DieReady s 0 (a i).leaf.home ∧ Roomy s ((a i).pa / 64) n
    ∧ seen s (a i) 8 = some (bs i)

/-- The settle count of a page frame (R189). -/
def countAt (s : State) (frame : Nat) : BitVec 32 := (aget s.counts frame).getD 0

/-- The address of the next entry of the command journal (R282). -/
def entryPa (s : State) : Nat := s.host.jbase + 32 * (s.disp.jhead.toNat % 65536)

/-- One entry more has been written to the command journal (R282). -/
def Journaled (s t : State) : Prop := t.disp.jhead = s.disp.jhead + 1

/-- The error registers of a die. -/
def errsOf (s : State) (die : Nat) : ErrRegs := s.host.errs.toList.getD die .reset

/-- A dirty byte of the cached copy of a line. -/
def DirtyByte (s : State) (la i : Nat) (b : Byte) : Prop :=
  ∃ l, findLine s.img.cache la = some l ∧ i < 64 ∧ l.dirty.getLsbD i = true ∧ b = l.byte i

end Claim

end Sys2Proof
end

