-- ==== Sys2Proof/Certificates/Slice0/Obligations.lean ====
section
/-!
DEFINITION. The statements about the machine, for the provers. Each docstring names the rules that its statement formalises.
-/

open Sys2Proof Sys2Proof.Machine Sys2Proof.Claim

/-! ## The scalar stream -/

/-- R86 to R89: every register-register operation and every immediate form writes its result into d and goes on; nothing else
changes. With w set it is the `.w` form: operands, shift amount and result at 32 bits, then sign-extended. A zero divisor gives a
quotient of all ones and a remainder equal to the dividend; the most negative number divided by −1 gives itself and remainder 0. R96,
R97: a branch goes to pc + 4 × off when its condition holds and to pc + 4 otherwise; a jump goes to its target, and writes the return
address where it links, after the target has been formed; a target of `jalr` that is not a multiple of 4 traps. -/
def Obligations.ScalarWordsComputeAndBranch : Prop :=
  (∀ (s : State) (w : Bool) (d a b : Reg),
      let x := s.hart.reg a
      let y := s.hart.reg b
      let p := lo32 x
      let q := lo32 y
      exec (.add w d a b) s = .next (wrote s d (formed w (x + y) (p + q)))
      ∧ exec (.sub w d a b) s = .next (wrote s d (formed w (x - y) (p - q)))
      ∧ exec (.and w d a b) s = .next (wrote s d (formed w (x &&& y) (p &&& q)))
      ∧ exec (.or w d a b) s = .next (wrote s d (formed w (x ||| y) (p ||| q)))
      ∧ exec (.xor w d a b) s = .next (wrote s d (formed w (x ^^^ y) (p ^^^ q)))
      ∧ exec (.shl w d a b) s = .next (wrote s d (formed w (x <<< (y.toNat % 64)) (p <<< (y.toNat % 32))))
      ∧ exec (.shr w d a b) s = .next (wrote s d (formed w (x >>> (y.toNat % 64)) (p >>> (y.toNat % 32))))
      ∧ exec (.sra w d a b) s = .next (wrote s d (formed w (x.sshiftRight (y.toNat % 64)) (p.sshiftRight (y.toNat % 32))))
      ∧ exec (.slt w d a b) s = .next (wrote s d (formed w (flag (x.toInt < y.toInt)) (flag (p.toInt < q.toInt))))
      ∧ exec (.sltu w d a b) s = .next (wrote s d (formed w (flag (x.toNat < y.toNat)) (flag (p.toNat < q.toNat))))
      ∧ exec (.min w d a b) s
        = .next (wrote s d (formed w (if x.toInt ≤ y.toInt then x else y) (if p.toInt ≤ q.toInt then p else q)))
      ∧ exec (.max w d a b) s
        = .next (wrote s d (formed w (if x.toInt ≤ y.toInt then y else x) (if p.toInt ≤ q.toInt then q else p)))
      ∧ exec (.minu w d a b) s
        = .next (wrote s d (formed w (if x.toNat ≤ y.toNat then x else y) (if p.toNat ≤ q.toNat then p else q)))
      ∧ exec (.maxu w d a b) s
        = .next (wrote s d (formed w (if x.toNat ≤ y.toNat then y else x) (if p.toNat ≤ q.toNat then q else p)))
      ∧ exec (.mul w d a b) s = .next (wrote s d (formed w (x * y) (p * q)))
      ∧ exec (.mulh w d a b) s
        = .next (wrote s d (formed w (BitVec.ofInt 64 (x.toInt * y.toInt / 2 ^ 64)) (BitVec.ofInt 32 (p.toInt * q.toInt / 2 ^ 32))))
      ∧ exec (.mulhu w d a b) s
        = .next (wrote s d (formed w (BitVec.ofNat 64 (x.toNat * y.toNat / 2 ^ 64)) (BitVec.ofNat 32 (p.toNat * q.toNat / 2 ^ 32))))
      ∧ exec (.div w d a b) s = .next (wrote s d (formed w (quotS x y) (quotS p q)))
      ∧ exec (.divu w d a b) s = .next (wrote s d (formed w (quotU x y) (quotU p q)))
      ∧ exec (.rem w d a b) s = .next (wrote s d (formed w (x - y * quotS x y) (p - q * quotS p q)))
      ∧ exec (.remu w d a b) s = .next (wrote s d (formed w (x - y * quotU x y) (p - q * quotU p q)))
      ∧ exec (.clz w d a) s = .next (wrote s d (formed w x.clz p.clz))
      ∧ exec (.popc w d a) s
        = .next (wrote s d (formed w
            (BitVec.ofNat 64 ((List.range 64).countP fun i => x.getLsbD i)) (BitVec.ofNat 32 ((List.range 32).countP fun i => p.getLsbD i)))))
  ∧ (∀ (s : State) (d a b : Reg),
      (s.hart.reg b = 0 →
        exec (.div false d a b) s = .next (wrote s d (BitVec.allOnes 64))
        ∧ exec (.divu false d a b) s = .next (wrote s d (BitVec.allOnes 64))
        ∧ exec (.rem false d a b) s = .next (wrote s d (s.hart.reg a))
        ∧ exec (.remu false d a b) s = .next (wrote s d (s.hart.reg a)))
      ∧ (s.hart.reg a = BitVec.intMin 64 → s.hart.reg b = BitVec.allOnes 64 →
        exec (.div false d a b) s = .next (wrote s d (BitVec.intMin 64))
        ∧ exec (.rem false d a b) s = .next (wrote s d 0)))
  ∧ (∀ (s : State) (w : Bool) (d a : Reg) (imm : BitVec 16) (n : BitVec 6),
      let x := s.hart.reg a
      let i : Word := imm.signExtend 64
      let u : Word := imm.setWidth 64
      exec (.addi d a imm) s = .next (wrote s d (x + i))
      ∧ exec (.andi d a imm) s = .next (wrote s d (x &&& u))
      ∧ exec (.ori d a imm) s = .next (wrote s d (x ||| u))
      ∧ exec (.xori d a imm) s = .next (wrote s d (x ^^^ u))
      ∧ exec (.slti d a imm) s = .next (wrote s d (flag (x.toInt < i.toInt)))
      ∧ exec (.sltiu d a imm) s = .next (wrote s d (flag (x.toNat < i.toNat)))
      ∧ exec (.shli w d a n) s = .next (wrote s d (formed w (x <<< n.toNat) (lo32 x <<< (n.toNat % 32))))
      ∧ exec (.shri w d a n) s = .next (wrote s d (formed w (x >>> n.toNat) (lo32 x >>> (n.toNat % 32))))
      ∧ exec (.srai w d a n) s = .next (wrote s d (formed w (x.sshiftRight n.toNat) ((lo32 x).sshiftRight (n.toNat % 32))))
      ∧ exec (.ldhi d a imm) s = .next (wrote s d (x <<< 16 ||| u))
      ∧ exec (.addpc d imm) s = .next (wrote s d (s.hart.pc + i * 4)))
  ∧ (∀ (s : State) (d a b : Reg) (off imm : BitVec 16) (far : BitVec 21),
      let x := s.hart.reg a
      let y := s.hart.reg b
      let p := s.hart.pc
      let br (c : Prop) [Decidable c] : State := goTo s (if c then p + off.signExtend 64 * 4 else p + 4)
      let t := x + imm.signExtend 64
      exec (.beq a b off) s = .next (br (x = y))
      ∧ exec (.bne a b off) s = .next (br (x ≠ y))
      ∧ exec (.blt a b off) s = .next (br (x.toInt < y.toInt))
      ∧ exec (.bge a b off) s = .next (br (y.toInt ≤ x.toInt))
      ∧ exec (.bltu a b off) s = .next (br (x.toNat < y.toNat))
      ∧ exec (.bgeu a b off) s = .next (br (y.toNat ≤ x.toNat))
      ∧ exec (.jmp far) s = .next (goTo s (p + far.signExtend 64 * 4))
      ∧ exec (.jal d far) s = .next (goTo (withReg s d (p + 4)) (p + far.signExtend 64 * 4))
      ∧ (t.toNat % 4 = 0 → exec (.jalr d a imm) s = .next (goTo (withReg s d (p + 4)) t))
      ∧ (t.toNat % 4 ≠ 0 → s.hart.sr.tvec ≠ 0 → exec (.jalr d a imm) s = .next (trapped s 0x03 t)))

/-- R90, R92, R93: the loads and the stores, on the hart's own die. A load to s0 still performs its access (R84). A store writes its
bytes, leaves every other byte of the live image as before, and writes no register.
Choices of the model in it: notes/assumptions/17.md, 18.md, 42.md, 110.md, 111.md. -/
def Obligations.LoadsAndStoresAccessTheLiveImage : Prop :=
  (∀ (s : State) (d a b : Reg) (imm : BitVec 16) (na by_ : Bool) (sc : BitVec 2),
      Loads s (.ldb d a imm) (at_ s a imm) 1 true d
      ∧ Loads s (.ldbu d a imm) (at_ s a imm) 1 false d
      ∧ Loads s (.ldh d a imm) (at_ s a imm) 2 true d
      ∧ Loads s (.ldhu d a imm) (at_ s a imm) 2 false d
      ∧ Loads s (.ldw d a imm) (at_ s a imm) 4 true d
      ∧ Loads s (.ldwu d a imm) (at_ s a imm) 4 false d
      ∧ Loads s (.ldd d a imm) (at_ s a imm) 8 false d
      ∧ ∀ (wd : BitVec 3) (n : Nat) (signed : Bool), widths[wd.toNat]? = some (n, signed) →
        Loads s (.ldx wd na by_ sc d a b) (s.hart.reg a + s.hart.reg b <<< sc.toNat) n signed d)
  ∧ (∀ (s : State) (d a b : Reg) (imm : BitVec 16) (na by_ : Bool) (sc : BitVec 2) (wd : BitVec 2),
      Stores s (.stb d a imm) (at_ s a imm) 1 (s.hart.reg d)
      ∧ Stores s (.sth d a imm) (at_ s a imm) 2 (s.hart.reg d)
      ∧ Stores s (.stw d a imm) (at_ s a imm) 4 (s.hart.reg d)
      ∧ Stores s (.std d a imm) (at_ s a imm) 8 (s.hart.reg d)
      ∧ Stores s (.stx wd na by_ sc d a b) (s.hart.reg a + s.hart.reg b <<< sc.toNat) (2 ^ wd.toNat) (s.hart.reg d))

/-- R94: the atomics, on the hart's own die. B and D are the low 4 or 8 bytes of s_b and s_d; `acas` writes nothing where the old value
is not D. Choices of the model in it: notes/assumptions/38.md, 42.md, 110.md, 111.md, 114.md. -/
def Obligations.AtomicsReadModifyWrite : Prop :=
  ∀ (s : State) (dw sc : Bool) (d a b : Reg),
    let n := if dw then 8 else 4
    let m := 2 ^ (8 * n)
    let y := (s.hart.reg b).toNat % m
    let z := (s.hart.reg d).toNat % m
    let sgn (v : Nat) : Int := (BitVec.ofNat (8 * n) v).toInt
    Swaps s (.aadd dw sc d a b) sc n d a (fun old => some ((old + y) % m))
    ∧ Swaps s (.aswap dw sc d a b) sc n d a (fun _ => some y)
    ∧ Swaps s (.aand dw sc d a b) sc n d a (fun old => some (old &&& y))
    ∧ Swaps s (.aor dw sc d a b) sc n d a (fun old => some (old ||| y))
    ∧ Swaps s (.axor dw sc d a b) sc n d a (fun old => some (old ^^^ y))
    ∧ Swaps s (.amin dw sc d a b) sc n d a (fun old => some (if sgn old ≤ sgn y then old else y))
    ∧ Swaps s (.amax dw sc d a b) sc n d a (fun old => some (if sgn old ≤ sgn y then y else old))
    ∧ Swaps s (.aminu dw sc d a b) sc n d a (fun old => some (if old ≤ y then old else y))
    ∧ Swaps s (.amaxu dw sc d a b) sc n d a (fun old => some (if old ≤ y then y else old))
    ∧ Swaps s (.acas dw sc d a b) sc n d a (fun old => if old = z then some y else none)

/-- R84, R91: where a check of a load, a store or an atomic fails, the instruction traps with that check's cause, the address as trap
value, and no other effect. Choices of the model in it: notes/assumptions/18.md. -/
def Obligations.FailedChecksTrapWithoutEffect : Prop :=
  ∀ (s : State) (d a b : Reg) (imm : BitVec 16) (na by_ dw sc : Bool) (sh : BitVec 2) (wd : BitVec 3) (ws : BitVec 2) (i : Instr),
    (i ∈ [Instr.ldb d a imm, .ldbu d a imm] → Refuses s i (at_ s a imm) 1 .load)
    ∧ (i ∈ [Instr.ldh d a imm, .ldhu d a imm] → Refuses s i (at_ s a imm) 2 .load)
    ∧ (i ∈ [Instr.ldw d a imm, .ldwu d a imm] → Refuses s i (at_ s a imm) 4 .load)
    ∧ (i = .ldd d a imm → Refuses s i (at_ s a imm) 8 .load)
    ∧ (∀ n g, widths[wd.toNat]? = some (n, g) →
        i = .ldx wd na by_ sh d a b → Refuses s i (s.hart.reg a + s.hart.reg b <<< sh.toNat) n .load)
    ∧ (i = .stb d a imm → Refuses s i (at_ s a imm) 1 .store)
    ∧ (i = .sth d a imm → Refuses s i (at_ s a imm) 2 .store)
    ∧ (i = .stw d a imm → Refuses s i (at_ s a imm) 4 .store)
    ∧ (i = .std d a imm → Refuses s i (at_ s a imm) 8 .store)
    ∧ (i = .stx ws na by_ sh d a b → Refuses s i (s.hart.reg a + s.hart.reg b <<< sh.toNat) (2 ^ ws.toNat) .store)
    ∧ (i ∈ [Instr.aadd dw sc d a b, .aswap dw sc d a b, .aand dw sc d a b, .aor dw sc d a b, .axor dw sc d a b, .amin dw sc d a b,
          .amax dw sc d a b, .aminu dw sc d a b, .amaxu dw sc d a b, .acas dw sc d a b] →
        Refuses s i (s.hart.reg a) (if dw then 8 else 4) .atomic)

/-! ## The vector queue, fences and waits -/

/-- R17, R98, R99, R104: `vfb`, `vloop`, `vsetl`, `mxon` and `mxoff` place one entry at the tail of the vector queue; a full queue
holds the scalar stream; a target that is not a multiple of 8, and `mxon` without rows, trap and queue nothing. -/
def Obligations.QueueOperationsTakeTheirPlace : Prop :=
  ∀ (s : State) (d a : Reg) (off : BitVec 21) (sew grp : BitVec 2),
    let t := s.hart.pc + off.signExtend 64 * 4
    let w (i : Instr) : BitVec 32 := (encodeScalar i).getD 0
    let width := 8 * 2 ^ sew.toNat
    let regs := 2 ^ grp.toNat
    let vl : Word := BitVec.ofNat 64 (min (s.hart.reg a).toNat (1024 * min regs s.hart.id.cap / (width / 8)))
    (t.toNat % 8 = 0 → Room s true →
      exec (.vfb off) s = .next (queued s (.block t none) (w (.vfb off)))
      ∧ exec (.vloop a off) s = .next (queued s (.block t (some (s.hart.reg a))) (w (.vloop a off))))
    ∧ (t.toNat % 8 = 0 → ¬ Room s true → exec (.vfb off) s = .next s ∧ exec (.vloop a off) s = .next s)
    ∧ (t.toNat % 8 ≠ 0 → s.hart.sr.tvec ≠ 0 →
      exec (.vfb off) s = .next (trapped s 0x03 t) ∧ exec (.vloop a off) s = .next (trapped s 0x03 t))
    ∧ (Room s false → ∃ e g, e.bits = width ∧ g.n = regs ∧
      exec (.vsetl sew grp d a) s = .next (withReg (queued s (.setl vl e g) (w (.vsetl sew grp d a))) d vl))
    ∧ (Room s false → exec .mxoff s = .next (queued s .mxoff (w .mxoff)))
    ∧ (Room s false → s.hart.sr.mgrant ≠ 0 → exec .mxon s = .next (queued s .mxon (w .mxon)))
    ∧ (s.hart.sr.mgrant = 0 → s.hart.sr.tvec ≠ 0 → exec .mxon s = .next (trapped s 0x08 0))
    ∧ (¬ Room s false → exec .mxoff s = .next s ∧ exec (.vsetl sew grp d a) s = .next s)

/-- R100 to R103: `vwait`, `mxatt` and `mxdet` wait for the vector stream and `qget` for the writers of its slot; then `vwait` merges
the die's clock, `mxatt` grants rows of the unit, `mxdet` leaves matrix mode and gives them back, `qget` reads the slot. -/
def Obligations.WaitsForTheVectorStreamEnd : Prop :=
  ∀ (s : State) (d a : Reg) (slot : BitVec 3),
    let h := s.hart
    let req := (min (h.reg a).toNat 256 + 31) / 32 * 32
    let g := min req (s.freeRows h / 32 * 32)
    let out := if h.sr.mmode then { h.sr with vl := h.tile.svl, vgrp := h.tile.sgrp, sew := h.tile.ssew } else h.sr
    (h.vectorDone = false → exec .vwait s = .next s ∧ exec (.mxatt d a) s = .next s ∧ exec .mxdet s = .next s)
    ∧ (h.vectorDone = true → s.tailPending h.key = none → exec .vwait s = .next (onward (merged s)))
    ∧ (h.vectorDone = true → h.sr.mgrant = 0 → exec (.mxatt d a) s
      = .next (wrote { s with hart := { h with
          tile := if g > 0 then .reset else h.tile, sr := { h.sr with mgrant := BitVec.ofNat 64 g } } } d (BitVec.ofNat 64 g)))
    ∧ (h.vectorDone = true → h.sr.mgrant ≠ 0 → exec .mxdet s
      = .next (onward { s with hart := { h with tile := .reset, sr := { out with mgrant := 0, mmode := false } } }))
    ∧ (h.vectorDone = true → h.sr.mgrant = 0 → exec .mxdet s = .next (onward s))
    ∧ (s.slotPending slot.toNat = true → exec (.qget d slot) s = .next s)
    ∧ (s.slotPending slot.toNat = false → exec (.qget d slot) s
      = .next (wrote (if h.availSlots.getLsbD slot.toNat then merged s else s) d (h.vec.vq.toList.getD slot.toNat 0)))

/-- R105, R106, R107: `ord.sv` bounds the entries that wait for the scalar accesses so far, `ord.vs` the entries that a later scalar memory
instruction waits for, and such an instruction, `lpatch` among them, waits; `gbar` completes as `vwait` and arrives at the barrier of its gang. -/
def Obligations.FencesAndBarrierOrderTheStreams : Prop :=
  ∀ (s : State) (d a : Reg) (imm : BitVec 16),
    let h := s.hart
    let num := clkAt h.sr.vclk h.id.did
    let known := clkMerge h.vknown h.sr.vclk
    (∃ k, (k = h.seq ∨ h.svBound = some k)
      ∧ exec .ordSv s = .next (onward { s with hart := { h with svBound := some k, svNum := num, vknown := known } })
      ∧ exec .ordAll s = .next (onward { s with hart := { h with
          svBound := some k, svNum := num, vknown := known, vsBound := h.seq } }))
    ∧ exec .ordVs s = .next (onward { s with hart := { h with vsBound := h.seq } })
    ∧ (h.vectorDoneBelow h.vsBound = false →
      ∀ i ∈ [Instr.ldd d a imm, .std d a imm, .aadd true false d a a, .lpatch d a a], exec i s = .next s)
    ∧ (h.vectorDone = true → s.tailPending h.key = none → (∀ g ∈ s.disp.gangs, g.die = h.id.did → g.gid = h.id.gid → g.size ≤ 1) →
      exec .gbar s = .next (onward (merged s)))
    ∧ (h.vectorDone = true → s.tailPending h.key = none → (∃ g ∈ s.disp.gangs, g.die = h.id.did ∧ g.gid = h.id.gid) →
      (∀ g ∈ s.disp.gangs, g.die = h.id.did → g.gid = h.id.gid → g.size > 1) →
      ∃ t, exec .gbar s = .next t
        ∧ t = { s with
            hart := { (merged s).hart with wait := .barrier },
            disp := { s.disp with gangs := s.disp.gangs.map fun g =>
              if g.die = h.id.did ∧ g.gid = h.id.gid then { g with barrier := g.barrier ||| BitVec.ofNat 64 (2 ^ h.id.gidx) } else g },
            work := t.work })
    ∧ (h.vectorDone = false → exec .gbar s = .next s)

/-! ## State registers, traps and returns -/

/-- R19, R50, R51, R110: `getsr` reads every register of the table; a register that is ordered with the queue waits for the queue.
`setsr` and `swapsr` in supervisor mode: a plain register takes its value at once, a register of R19 by an entry of the queue, a
read-only register ignores the write; `swapsr` also puts the old value into d. Choices of the model in it: notes/assumptions/31.md, 32.md. -/
def Obligations.StateRegistersReadAndTakeWrites : Prop :=
  (∀ (s : State) (d : Reg) (n : BitVec 12) (v : Word), (n.toNat, v) ∈ srValues s → (s.hart.sr.status.sv = true ∨ ¬ supOnly n.toNat) →
      ((ordered n.toNat → s.hart.queue = [] ∧ s.hart.ctx = none) → exec (.getsr d n) s = .next (wrote s d v))
      ∧ (ordered n.toNat → ¬ (s.hart.queue = [] ∧ s.hart.ctx = none) → exec (.getsr d n) s = .next s))
  ∧ (∀ (s : State) (d a : Reg) (n : BitVec 12) (old : Word), s.hart.sr.status.sv = true → (n.toNat, old) ∈ srValues s →
      let v := s.hart.reg a
      (∀ r, (n.toNat, r) ∈ srWritten s.hart.sr v →
        let t := onward { s with hart := { s.hart with sr := r } }
        exec (.setsr a n) s = .next t ∧ exec (.swapsr d a n) s = .next (withReg t d old))
      ∧ (readOnly n.toNat → exec (.setsr a n) s = .next (onward s) ∧ exec (.swapsr d a n) s = .next (wrote s d old))
      ∧ (ordered n.toNat → Room s false → (n.toNat = 0x011 → v.toNat ∈ [1, 2, 4, 8]) → (n.toNat = 0x012 → v.toNat ∈ [8, 16, 32, 64]) →
        exec (.setsr a n) s = .next (queued s (.write n.toNat v) ((encodeScalar (.setsr a n)).getD 0))
        ∧ (s.hart.queue = [] → s.hart.ctx = none →
          exec (.swapsr d a n) s
            = .next (withReg (queued s (.write n.toNat v) ((encodeScalar (.swapsr d a n)).getD 0)) d old))))

/-- R51, R85: what an access to a state register may not do traps and changes nothing: an unassigned number or an illegal value of
`vgrp` or `sew` with cause 0x01, an access that the user may not make with 0x05; the trap value is the word. `tret` and `xpol` in user
mode trap with 0x05. -/
def Obligations.ForbiddenAccessesTrap : Prop :=
  ∀ (s : State) (d a : Reg) (n : BitVec 12), s.hart.sr.tvec ≠ 0 →
    let w (i : Instr) : Word := ((encodeScalar i).getD 0).setWidth 64
    ((∀ v, (n.toNat, v) ∉ srValues s) →
      exec (.getsr d n) s = .next (trapped s 0x01 (w (.getsr d n)))
      ∧ exec (.setsr a n) s = .next (trapped s 0x01 (w (.setsr a n)))
      ∧ exec (.swapsr d a n) s = .next (trapped s 0x01 (w (.swapsr d a n))))
    ∧ (s.hart.sr.status.sv = false → supOnly n.toNat → exec (.getsr d n) s = .next (trapped s 0x05 (w (.getsr d n))))
    ∧ (s.hart.sr.status.sv = false → (supWrites n.toNat ∨ readOnly n.toNat) →
      exec (.setsr a n) s = .next (trapped s 0x05 (w (.setsr a n)))
      ∧ exec (.swapsr d a n) s = .next (trapped s 0x05 (w (.swapsr d a n))))
    ∧ ((n.toNat = 0x011 ∧ (s.hart.reg a).toNat ∉ [1, 2, 4, 8] ∨ n.toNat = 0x012 ∧ (s.hart.reg a).toNat ∉ [8, 16, 32, 64]) →
      exec (.setsr a n) s = .next (trapped s 0x01 (w (.setsr a n))))
    ∧ (s.hart.sr.status.sv = false →
      exec .tret s = .next (trapped s 0x05 (w .tret)) ∧ exec (.xpol a) s = .next (trapped s 0x05 (w (.xpol a)))
      ∧ exec (.setsrVown a) s = .next (trapped s 0x05 (w (.setsrVown a)))
      ∧ exec (.setsrSavep a) s = .next (trapped s 0x05 (w (.setsrSavep a))))

/-- R310, R315: a supervisor write of `savep` completes as `vwait`, checks the four pages of the area and stores the value; a write of
`vown` with its own value has no effect, and one with another value runs the vector walk, which ends with the new owner, `saveidx` 0
and zeroed registers for owner 0. On an area whose pages are served the walk completes: with owner 0 it writes the records of the vector
frame from where it stood into the area of the old owner; with another owner it restores them from that owner's area. Choices of the model in it: notes/assumptions/32.md, 33.md, 35.md. -/
def Obligations.SaveAreaRegistersTakeTheirWrites : Prop :=
  ∀ (s : State) (a : Reg), s.hart.sr.status.sv = true →
    let v := s.hart.reg a
    let page (i : Nat) : Word := v + BitVec.ofNat 64 (i * 2 ^ 18)
    let good (i : Nat) : Prop := ∃ l, s.walk s.hart.id.vf (page i).toNat = .leaf l ∧ isHostMem (l.pa (page i).toNat) = true
      ∧ l.pin = true ∧ l.w = true ∧ l.tkey = s.hart.id.tenant ∧ Fresh s s.hart.id.vf (page i).toNat
    (s.hart.vectorDone = true → s.tailPending s.hart.key = none → s.hart.sr.status.blk = false → s.hart.sr.status.walk = false →
      (v = 0 ∨ (v.toNat % 2 ^ 20 = 0 ∧ good 0 ∧ good 1 ∧ good 2 ∧ good 3)) →
      ∃ t, exec (.setsrSavep a) s = .next t
        ∧ t = { onward { merged s with hart := { (merged s).hart with sr := { (merged s).hart.sr with savep := v } } } with
            img := { s.img with tlb := t.img.tlb } })
    ∧ (s.hart.vectorDone = true → s.tailPending s.hart.key = none → s.hart.sr.tvec ≠ 0 →
      (s.hart.sr.status.blk = true ∨ s.hart.sr.status.walk = true) →
      exec (.setsrSavep a) s = .next (trapped s 0x05 v))
    ∧ (s.hart.sr.vown = v → exec (.setsrVown a) s = .next (onward s))
    ∧ (∀ t1, s.hart.sr.vown ≠ v → Answers s (M.vectorWalk v) ⟨⟩ t1 →
      ∃ t, exec (.setsrVown a) s = .next t ∧ t = onward t1 ∧ t.hart.sr.vown = v ∧ t.hart.sr.saveidx = 0
        ∧ t.hart.sr.status.walk = false ∧ (v = 0 → t.hart.vec = .zero))
    ∧ (s.hart.walkStop = none → v = 0 → s.hart.sr.vown ≠ 0 → ¬ Restoring s → FrameTakes s s.hart.sr.vown (saveFrom s) →
      ∃ t, exec (.setsrVown a) s = .next t
        ∧ t.hart.pc = s.hart.pc + 4 ∧ t.hart.x = s.hart.x ∧ t.hart.vec = .zero ∧ t.hart.sr.vown = 0 ∧ t.hart.sr.saveidx = 0
        ∧ t.hart.sr.status.walk = false
        ∧ (s.cells.wf = true → ∀ r p, saveFrom s ≤ r → r < s.hart.frameEnd → PageOk s (recAddr s.hart.sr.vown r) 64 .store p →
          isHostMem p.pa = true → (∀ k < 8, s.tailAt (p.pa + 8 * k) = none) →
          (∀ q c, saveFrom s ≤ q → q < s.hart.frameEnd → q ≠ r → PageOk s (recAddr s.hart.sr.vown q) 64 .store c → c.pa ≠ p.pa) →
          ∀ i < 64, liveByte t true (p.pa + i) = (s.vecRecord s.hart r).getD i 0))
    ∧ (∀ p bs, s.hart.walkStop = none → v ≠ 0 → s.hart.sr.vown ≠ v →
      (Restoring s ∨ (s.hart.sr.vown = 0 ∧ ∀ g ∈ s.others, g.id.vf = s.hart.id.vf → g.sr.vown ≠ v)) →
      (s.hart.sr.vown ≠ 0 → AreaServed s s.hart.sr.vown) →
      let r0 := if Restoring s then saveFrom s else 4096
      FrameGives s v r0 p bs →
      ∃ t, exec (.setsrVown a) s = .next t
        ∧ t.hart.pc = s.hart.pc + 4 ∧ t.hart.x = s.hart.x ∧ t.hart.sr.vown = v ∧ t.hart.sr.saveidx = 0 ∧ t.hart.sr.status.walk = false
        ∧ ∀ r, r0 ≤ r → r < s.hart.frameEnd → (r < 4977 ∨ s.scratch.wf = true) → t.vecRecord t.hart r = bs r)

/-- R109, R302, R319: `trap` enters the handler with cause 0x40 and its code; without a handler the hart is killed: its vector stream
ends, its tile and its slot are given up, and it goes on at the exit routine. R111 to R114: `yield` changes nothing but the program
counter; `idle` waits, or returns at once when the watched line has been written; `syncins` discards every buffered word once the queue
is empty; `halt` retires the hart once its vector stream is done. Choices of the model in it: notes/assumptions/34.md. -/
def Obligations.TrapYieldIdleSyncAndHaltAct : Prop :=
  (∀ (s : State) (code : BitVec 12),
      (s.hart.sr.tvec ≠ 0 → exec (.trap code) s = .next (trapped s 0x40 (code.setWidth 64)))
      ∧ (s.hart.sr.tvec = 0 → s.hart.sr.kexit ≠ 0 → ∃ t, exec (.trap code) s = .next t
        ∧ t.hart.pc = s.hart.sr.kexit ∧ t.hart.queue = [] ∧ t.hart.ctx = none ∧ t.hart.held = none ∧ t.hart.tile = .reset
        ∧ t.hart.x = s.hart.x ∧ t.cells = s.cells ∧ t.img = s.img ∧ t.others = s.others
        ∧ t.hart.sr = { s.hart.sr with
            vl := 0, vown := 0, mgrant := 0, mmode := false, cause := 0x13, tval := 0x40,
            status := { s.hart.sr.status with sv := true, blk := false, spl := false, xf := false, walk := false } }))
  ∧ (∀ (s : State),
      let h := s.hart
      let drop (c : Option LoopCtx) : Option LoopCtx := c.map fun c => { c with words := [] }
      exec .yield s = .next (onward s)
      ∧ exec .idle s
        = .next (if h.watch.isSome ∧ h.watchHit then onward s else { s with hart := { h with wait := .idle, idleAt := s.time.toNat } })
      ∧ (h.queue = [] → h.ctx = none → exec .syncins s = .next (onward { s with hart := { h with
          ibuf := [], held := h.held.map fun k => { k with ctx := drop k.ctx }, aside := h.aside.map fun k => { k with ctx := drop k.ctx } } }))
      ∧ (¬ (h.queue = [] ∧ h.ctx = none) → exec .syncins s = .next s)
      ∧ (h.vectorDone = false → exec .halt s = .next s)
      ∧ (h.vectorDone = true → ∃ t, exec .halt s = .next t
        ∧ t.hart = { h with
            phase := .halted, wait := .none, queue := [], ctx := none, held := none, aside := none, tile := .reset, early := [],
            sr := { h.sr with mgrant := 0, mmode := false } }
        ∧ t.others = s.others ∧ t.cells = s.cells ∧ t.img = s.img
        ∧ t.disp = { s.disp with gangs := s.disp.gangs.map fun g =>
            if g.die = h.id.did ∧ g.gid = h.id.gid then { g with
              halted := g.halted + 1, harts := g.harts.filter (· ≠ h.key), barrier := g.barrier ||| BitVec.ofNat 64 (2 ^ h.id.gidx) }
            else g }))

/-- R309: `tret` restores the mode from PSV and clears the marks; it goes on at `epc`, or restores the held image at the head of the
queue and goes on at its resume point, or takes the trap of a block that was set aside. It waits for what the handler queued.
Choices of the model in it: notes/assumptions/30.md, 92.md. -/
def Obligations.TrapReturnRestoresTheStream : Prop :=
  ∀ (s : State), s.hart.sr.status.sv = true →
    let h := s.hart
    let st : Status := { h.sr.status with sv := h.sr.status.psv, psv := false }
    let clear (l : List QEntry) : List QEntry := l.map fun e => { e with mark := false }
    let streams := h.streams.map (Stream.setMark false)
    (h.unmarked = true → exec .tret s = .next s)
    ∧ (h.unmarked = false → h.aside = none → h.held = none →
      exec .tret s = .next { s with hart := { h with
        pc := h.sr.epc, queue := clear h.queue, ctx := h.ctx.map (LoopCtx.setMark false), streams := streams,
        sr := { h.sr with status := st } } })
    ∧ (∀ k, h.unmarked = false → h.aside = none → h.held = some k → h.ctx = none →
      ∃ t, exec .tret s = .next t
        ∧ (∃ ws : Bool, t = { s with
            hart := { h with
              pc := k.resume, held := none, queue := clear k.behind ++ clear h.queue,
              ctx := k.ctx.map (fun c => { c.setMark false with words := if ws then [] else c.words }), streams := streams,
              sr := { h.sr with status := { st with blk := false, spl := false, xf := false } } },
            fresh := t.fresh }))
    ∧ (∀ a, h.unmarked = false → (h.held = none ∨ h.ctx = none) → h.aside = some a → h.sr.tvec ≠ 0 →
      exec .tret s = .next (handled { s with hart := { h with
        aside := none, held := some { ctx := a.ctx, behind := a.behind, resume := h.held.elim h.sr.epc (·.resume) },
        sr := { h.sr with status := { st with blk := true, spl := a.spl, xf := a.xf } } } } a.cause a.tval a.epc true))

/-! ## Images, bank units and engines -/

/-- R195: `settle` and `renew` complete as `vwait`, check every page of the range, and start the settle of each page with the lines that
are dirty or poisoned now; `settle` goes on, `renew` waits for its pages. An empty range has no further effect. R196: `scnt` reads the
count of the page that holds s_a; `swait` goes on once the count has reached its target modulo 2^32, and holds the scalar stream
otherwise. Choices of the model in it: notes/assumptions/21.md. -/
def Obligations.SettleCountsActAndHold : Prop :=
  (∀ (s : State) (a b : Reg) (accs : Nat → Acc),
      let base := s.hart.reg a
      let len := s.hart.reg b
      let first := base.toNat / 2 ^ 18
      let pages := if len = 0 then 0 else (base.toNat + len.toNat - 1) / 2 ^ 18 + 1 - first
      let frames := ((List.range pages).map fun i => (accs i).pa / 2 ^ 18).eraseDups
      let begun (renew : Bool) : List Settling := frames.map fun f =>
        { frame := f, renew := renew, down := false,
          lines := ((s.img.cache.filter fun l => l.addr / 4096 == f).filter fun l => l.dirty ≠ 0 || l.poison).map fun l => (l.addr, l.dirty) }
      s.hart.vectorDone = true → s.tailPending s.hart.key = none → base.toNat + len.toNat ≤ 2 ^ 64 →
      (∀ i < pages, PageOk s (BitVec.ofNat 64 ((first + i) * 2 ^ 18)) 1 .load (accs i)
        ∧ ReachedBy s (learned s) (accs i).leaf.home) →
      (∃ t, exec (.settle a b) s = .next t
        ∧ t.img.settling = s.img.settling ++ begun false ∧ t.work = s.work ++ frames.map .pageSettleComplete
        ∧ t.hart.pc = s.hart.pc + 4 ∧ t.hart.x = s.hart.x ∧ t.hart.wait = s.hart.wait ∧ t.cells = s.cells ∧ t.counts = s.counts)
      ∧ (∃ t, exec (.renew a b) s = .next t
        ∧ t.img.settling = s.img.settling ++ begun true ∧ t.work = s.work ++ frames.map .pageSettleComplete
        ∧ t.hart.x = s.hart.x ∧ t.cells = s.cells ∧ t.counts = s.counts
        ∧ (if frames = [] then t.hart.pc = s.hart.pc + 4 ∧ t.hart.wait = s.hart.wait
           else t.hart.pc = s.hart.pc ∧ t.hart.wait = .renew frames)))
  ∧ (∀ (s : State) (d a b : Reg) (acc : Acc),
      let page := s.hart.reg a &&& ~~~(BitVec.ofNat 64 (2 ^ 18 - 1))
      let count := (aget s.counts (acc.pa / 2 ^ 18)).getD 0
      let target := lo32 (s.hart.reg b)
      let clk := clkMerge s.hart.sr.vclk (s.die acc.leaf.home).clock
      Turn s → accessOf s page 1 .load = .ok acc → Reached s acc.leaf.home →
      (∃ t, exec (.scnt d a) s = .next t
        ∧ t = { wrote { s with hart := { s.hart with sr := { s.hart.sr with vclk := clk } } } d (count.setWidth 64) with
            fresh := t.fresh, img := { s.img with tlb := t.img.tlb, keys := t.img.keys } })
      ∧ ((count - target).toNat < 2 ^ 31 → ∃ t c, exec (.swait a b) s = .next t
        ∧ t = { onward { s with hart := { s.hart with sr := { s.hart.sr with vclk := c } } } with
            fresh := t.fresh, img := { s.img with tlb := t.img.tlb, keys := t.img.keys } })
      ∧ (¬ (count - target).toNat < 2 ^ 31 → ∃ t, exec (.swait a b) s = .next t
        ∧ t = { s with
            hart := { s.hart with wait := .swait (acc.pa / 2 ^ 18) target }, fresh := t.fresh,
            img := { s.img with tlb := t.img.tlb, keys := t.img.keys } }))

/-- R197 to R199: `nbx` holds the scalar stream for its commands, and for none only merges the die's clock; `nbadd` hands one add request to
the bank unit and goes on; `nbflush`, once the hart's own requests without order have been applied, takes every waiting request of its
launch. Choices of the model in it: notes/assumptions/22.md, 42.md, 111.md. -/
def Obligations.BankRequestsAreAccepted : Prop :=
  ∀ (s : State) (a b : Reg) (f32 : Bool) (acc : Acc),
    let h := s.hart
    let va := h.reg a
    let launch := ((s.disp.gangs.find? fun g => g.die == h.id.did && g.gid == h.id.gid).map (·.launch)).getD noLaunch
    Turn s →
    exec (.nbx a b) s = .next (if h.reg b = 0 then onward (merged s) else { s with hart := { h with wait := .nbx va (h.reg b).toNat 0 } })
    ∧ (va.toNat % 4 = 0 → accessOf s va 4 .atomic = .ok acc → acc.leaf.cc = true → Reached s acc.leaf.home →
      s.windowShut h.id.did 1 = [] →
      (h.sr.nbdet = true → (s.bank.reqs.filter fun r => r.det && bankOf r.pa == bankOf acc.pa).length < 4096) →
      ∃ t, exec (.nbadd f32 a b) s = .next t
        ∧ t.bank = { s.bank with reqs := s.bank.reqs ++ [{
            pa := acc.pa, f32 := f32, v := lo32 (h.reg b), det := h.sr.nbdet, launch := launch, die := h.id.did, hid := h.id.hid,
            seq := h.nbSeq }] }
        ∧ t.hart.pc = h.pc + 4 ∧ (∀ r, t.hart.reg r = h.reg r) ∧ t.hart.nbSeq = (if h.sr.nbdet then h.nbSeq + 1 else h.nbSeq)
        ∧ t.cells = s.cells)
    ∧ (h.sr.tvec ≠ 0 → va.toNat % 4 = 0 → accessOf s va 4 .atomic = .ok acc → acc.leaf.cc = false →
      ∃ t, exec (.nbadd f32 a b) s = .next t
        ∧ t = { trapped s 0x0C va with fresh := t.fresh, img := { s.img with tlb := t.img.tlb, keys := t.img.keys } })
    ∧ ((∀ r ∈ s.bank.reqs, r.die = h.id.did → r.hid = h.id.hid → r.det = true) →
      ∃ t, exec .nbflush s = .next t ∧ t.hart.pc = h.pc + 4 ∧ (∀ r, t.hart.reg r = h.reg r)
        ∧ t.bank.reqs = s.bank.reqs.filter fun r => !(r.det && r.launch == launch))

/-- R202, R264: `bred` and `xmerge`, with their parameter blocks on the hart's own die and within their limits and every range mapped as the
rules ask, hand one request to the engine of the destination's die and go on; they write no register.
Choices of the model in it: notes/assumptions/42.md, 111.md. -/
def Obligations.ReductionRequestsAreAccepted : Prop :=
  ∀ (s : State) (a : Reg) (v tv : Nat) (dst : List (Nat × Nat)) (flag : Option Nat),
    let h := s.hart
    let sa := h.reg a
    let die := homeOf (pieceAt dst 0)
    let entry (i : Nat) : Word := BitVec.ofNat 64 (tv / 2 ^ (64 * i) % 2 ^ 64)
    s.uncovered h.id.did h.sr.vclk (fun _ => false) = [] → s.uncovered h.id.did (learned s) (fun _ => false) = [] →
    s.windowShut h.id.did 1 = [] → ReachedBy s (learned s) die → (∀ p ∈ dst, homeOf p.1 = die) →
    (∀ srcs : List (List (Nat × Nat)),
      let b := RedBlock.ofBits v
      let w := redWidth b.fmt
      Turn s → Block s 24 sa 8 v → b.ok = true → Block s 24 b.table b.count tv →
      Pinned s .store b.dst (max b.n 1 * w) dst → FlagIs s b.flag flag → srcs.length = b.count →
      (∀ i r, srcs[i]? = some r →
        (entry i).toNat % w = 0 ∧ Pinned s .load (entry i) (b.n * w) r ∧ ∀ p ∈ r, homeOf p.1 = die) →
      ∃ t, exec (.bred a) s = .next t
        ∧ t.bank = { s.bank with bred := s.bank.bred ++ [(die, {
            op := b.op, fmt := b.fmt, n := b.n, srcs := srcs, dst := if b.n = 0 then [] else dst, dst0 := pieceAt dst 0 / 2 ^ 18,
            flagPa := flag, flagV := b.flagV, presettle := b.flags % 2 == 1, waits := [], copies := [], journal := false, vf := h.id.vf })] }
        ∧ t.work = s.work ++ [.bredReduction] ∧ t.hart.pc = h.pc + 4 ∧ (∀ r, t.hart.reg r = h.reg r) ∧ t.cells = s.cells)
    ∧ ∀ (xs : List (List Span × Option (List Span))),
      let b := MergeBlock.ofBits v
      let len := b.n * redWidth b.fmt
      let live := (List.range 8).filter fun r => entry r ≠ 0
      h.vectorDone = true → s.tailPending h.key = none → Block s 16 sa 8 v → b.ok = true → Block s 16 b.table 8 tv → live ≠ [] →
      Pinned s .store b.master (max b.n 1 * redWidth b.fmt) dst → FlagIs s b.flag flag → xs.length = live.length →
      (∀ (i r : Nat) (x : List Span × Option (List Span)), live[i]? = some r → xs[i]? = some x →
        let stage := b.staging + BitVec.ofNat 64 (r * len)
        (entry r).toNat % redWidth b.fmt = 0
        ∧ ((x.2 = none ∧ Pieces s .load true (len / 2 ^ 18 + 2) (entry r).toNat len x.1 ∧ ∀ p ∈ x.1, homeOf p.pa = die)
          ∨ ∃ src, x.2 = some src ∧ Pieces s .load false (len / 2 ^ 18 + 2) (entry r).toNat len src
            ∧ ¬ (Pieces s .load true (len / 2 ^ 18 + 2) (entry r).toNat len src ∧ ∀ p ∈ src, homeOf p.pa = die)
            ∧ stage.toNat % redWidth b.fmt = 0 ∧ Pieces s .store true (len / 2 ^ 18 + 2) stage.toNat len x.1
            ∧ ∀ p ∈ x.1, homeOf p.pa = die)) →
      ∃ t, exec (.xmerge a) s = .next t
        ∧ t.bank = { s.bank with xmerge := s.bank.xmerge ++ [(die, {
            op := 0, fmt := b.fmt, n := b.n, srcs := xs.map fun x => x.1.map fun p => (p.pa, p.len),
            dst := if b.n = 0 then [] else dst, dst0 := pieceAt dst 0 / 2 ^ 18, flagPa := flag, flagV := b.flagV, presettle := true,
            waits := [], copies := xs.filterMap fun x => x.2.map fun src => (src, x.1), journal := true, vf := h.id.vf })] }
        ∧ t.work = s.work ++ [.xmergeReduction] ∧ t.hart.pc = h.pc + 4 ∧ (∀ r, t.hart.reg r = h.reg r) ∧ t.cells = s.cells

/-- R249, R254, R255: `xver` reads the version of the die's table; `xcount` adds to the load counter of an expert, which saturates, and
traps on an expert that does not exist; `xpol` takes a policy from a block on the hart's own die for the next interval. -/
def Obligations.PlacementInstructionsActOnTheTable : Prop :=
  ∀ (s : State) (d a b : Reg),
    let h := s.hart
    let x := (h.reg a).toNat
    let old := (aget (s.tableOf h.id.did).cur x).getD 0
    let sum := min (old.toNat + (lo32 (h.reg b)).toNat) (2 ^ 32 - 1)
    (Turn s → exec (.xver d) s = .next (wrote (merged s) d ((s.tableOf h.id.did).version.setWidth 64)))
    ∧ (x < 8192 → old.toNat + (lo32 (h.reg b)).toNat < 2 ^ 32 → exec (.xcount a b) s = .next (onward { s with place := { s.place with
        tables := s.place.tables.setIfInBounds h.id.did { s.tableOf h.id.did with
          cur := aput (s.tableOf h.id.did).cur x (BitVec.ofNat 32 sum) } } }))
    ∧ (x < 8192 → ∃ t, exec (.xcount a b) s = .next t ∧ t.hart.pc = h.pc + 4 ∧ (∀ r, t.hart.reg r = h.reg r)
      ∧ (h.id.did < 8 → aget (t.tableOf h.id.did).cur x = some (BitVec.ofNat 32 sum)))
    ∧ (x ≥ 8192 → h.sr.tvec ≠ 0 → exec (.xcount a b) s = .next (trapped s 0x05 (h.reg a)))
    ∧ ∀ (v : Nat) (p : Policy), h.sr.status.sv = true → Turn s → s.uncovered h.id.did h.sr.vclk (fun _ => false) = [] →
      s.uncovered h.id.did (learned s) (fun _ => false) = [] → Block s 8 (h.reg a) 8 v → policyOf v = some p →
      ∃ t, exec (.xpol a) s = .next t ∧ t.place = { s.place with nextPolicy := some p } ∧ t.hart.pc = h.pc + 4 ∧ t.hart.x = h.x
        ∧ t.cells = s.cells

/-- R204, R210, R211: `wcal.early` makes every macro of the set that is not retired announce a window between 1 ms and 2 ms ahead;
`wcal.model` stores the records of 16 macros from s_b on, those outside the set as not valid, and no other byte; both write no register.
Choices of the model in it: notes/assumptions/14.md, 113.md. -/
def Obligations.CalibrationWordsAct : Prop :=
  ∀ (s : State) (a b : Reg) (first : Acc) (accs : Nat → Acc),
    let h := s.hart
    let sa := h.reg a
    let row (i : Nat) : Word := h.reg b + BitVec.ofNat 64 (32 * i)
    Turn s → SetAt s sa first →
    (∃ t, exec (.wcalEarly a) s = .next t ∧ t.hart.pc = h.pc + 4 ∧ t.hart.x = h.x ∧ t.cells = s.cells
      ∧ ∀ key, InSet s sa first key → (s.macroAt key).retired = false →
        ∃ w, (t.macroAt key).announced = some w ∧ s.time.toNat + 1000000 ≤ w ∧ w ≤ s.time.toNat + 2000000)
    ∧ ((h.reg b).toNat % 64 = 0 →
      (∀ i < 16, PageOk s (row i) 32 .store (accs i)
        ∧ ((accs i).leaf.home = h.id.did → s.uncovered h.id.did h.sr.vclk (fun _ => false) = [])
        ∧ ((accs i).leaf.home ≠ h.id.did → Open s h.id.did (accs i).leaf.home 16)) →
      s.windowShut h.id.did 16 = [] →
      ∃ t, exec (.wcalModel a b) s = .next t ∧ t.hart.pc = h.pc + 4 ∧ (∀ r, t.hart.reg r = h.reg r)
        ∧ ∀ (p : Nat) (valid : Nat → Bool), p % 64 = 0 → s.cells.wf = true →
          (∀ i < 16, (accs i).leaf.home = h.id.did ∧ (accs i).pa = p + 32 * i ∧ isHostMem (p + 32 * i) = true
            ∧ Roomy s ((p + 32 * i) / 64) 16 ∧ (valid i = true ↔ InSet s sa first (macroOf first.pa + i))) →
          (∀ k < 64, s.tailAt (p + 8 * k) = none) →
          ∀ pa, isHostMem pa = true → liveByte t true pa =
            if p ≤ pa ∧ pa < p + 512 then
              (s.macroRecord (macroOf first.pa + (pa - p) / 32) (valid ((pa - p) / 32))).getD ((pa - p) % 32) 0
            else liveByte s true pa)

/-- R105, R107, R108: `lpatch` writes one field of an unarmed pool record of the hart's die and function, within the field's limits; `larm`
arms such a record on a queue of the same function that has a place, and the dispatcher accepts it. What the rules forbid traps
with 0x05 or 0x06 and changes nothing. Choices of the model in it: notes/assumptions/36.md, 69.md, 111.md. -/
def Obligations.DeviceLaunchesPatchAndArm : Prop :=
  ∀ (s : State) (d a b : Reg),
    let h := s.hart
    let n := (h.reg a).toNat
    let key := h.id.did * 4096 + n
    let p := s.poolOf h.id.did n
    let tv := (h.reg a <<< 16) ||| (h.reg b &&& 0xFFFF)
    let q := (h.reg b).toNat
    let bare (l : Launch) : Launch := { l with waited := 0 }
    (∀ at_ w, Turn s → n < 4096 → patchField (h.reg b).toNat (h.reg d).toNat = some (at_, w, true) → p.armed = false →
      recVf p.record = h.id.vf →
      exec (.lpatch d a b) s = .next (onward { s with disp := { s.disp with
        pool := aput s.disp.pool key { p with record := putRecordField p.record at_ w (h.reg d).toNat } } }))
    ∧ (Turn s → h.sr.tvec ≠ 0 → (n ≥ 4096 ∨ patchField (h.reg b).toNat (h.reg d).toNat = none ∨ p.armed = true
        ∨ ∃ at_ w, patchField (h.reg b).toNat (h.reg d).toNat = some (at_, w, false)) →
      exec (.lpatch d a b) s = .next (trapped s 0x05 tv))
    ∧ (∀ at_ w, Turn s → h.sr.tvec ≠ 0 → n < 4096 → patchField (h.reg b).toNat (h.reg d).toNat = some (at_, w, true) → p.armed = false →
      recVf p.record ≠ h.id.vf → exec (.lpatch d a b) s = .next (trapped s 0x06 tv))
    ∧ (h.vectorDone = true → s.tailPending h.key = none →
      n < 4096 → q < 32768 → q / 4096 = h.id.did → (s.queueOf q).vf = some h.id.vf → p.armed = false →
      recVf p.record = h.id.vf → s.queueLoad q < 64 → recordOk p.record h.id.vf = true → s.vfEnabled h.id.vf = true →
      s.everFits h.id.did p.record = true → (∀ k < 4, s.depLost (recDep p.record k) = false) →
      ∃ t l, exec (.larm a b) s = .next t ∧ t.hart.pc = h.pc + 4 ∧ (∀ r, t.hart.reg r = h.reg r)
        ∧ aget t.disp.pool key = some { p with armed := true }
        ∧ t.disp.launches.map bare = s.disp.launches.map bare ++ [l]
        ∧ l.die = h.id.did ∧ l.num = n ∧ l.q = q ∧ l.record = p.record ∧ l.admitted = 0 ∧ l.retired = 0 ∧ l.stopped = false ∧ l.status = 0
        ∧ t.disp.jhead = s.disp.jhead + 1)
    ∧ (h.vectorDone = true → s.tailPending h.key = none → s.queueLoad q ≥ 64 → n < 4096 → q < 32768 → q / 4096 = h.id.did →
      (s.queueOf q).vf = some h.id.vf → p.armed = false → recVf p.record = h.id.vf → exec (.larm a b) s = .next s)
    ∧ (h.vectorDone = true → s.tailPending h.key = none → h.sr.tvec ≠ 0 →
      (n ≥ 4096 ∨ q ≥ 32768 ∨ q / 4096 ≠ h.id.did ∨ (s.queueOf q).vf = none ∨ p.armed = true) →
      exec (.larm a b) s = .next (trapped s 0x05 tv))

/-! ## Vector arithmetic -/

/-- R16, R116: an element of at most a register written at its place leaves every other element of the group, and every other register,
as before; the written ones are read back. -/
def Obligations.ElementWritesTouchOnlyTheirElement : Prop :=
  ∀ (vs : VecState) (vd w : Nat) (es : List Nat) (g : Nat → Nat), w ∈ [8, 16, 32, 64] → (∀ e ∈ es, vd + e * w / 8192 < 32) →
    (∀ e, vd + e * w / 8192 < 32 →
      (vs.putElems vd w es g).elem vd w e = if e ∈ es then g e % 2 ^ w else vs.elem vd w e)
    ∧ (∀ r, (∀ e ∈ es, r ≠ vd + e * w / 8192) → (vs.putElems vd w es g).reg r = vs.reg r)
    ∧ (vs.putElems vd w es g).m = vs.m ∧ (vs.putElems vd w es g).vq = vs.vq

/-- R118: the integer vector operations on w-bit elements, signed or unsigned by type; A from va, B the second operand, C the old
destination. Only the performed elements of vd change. -/
def Obligations.IntegerVectorOperationsWriteTheirElements : Prop :=
  ∀ (s : State) (f : VWord),
    let w := tyBits f.ty
    let sg := f.ty.toNat < 4
    let val (x : BitVec w) : Int := if sg then x.toInt else x.toNat
    let lo : Int := if sg then -(2 ^ (w - 1)) else 0
    let hi : Int := if sg then 2 ^ (w - 1) - 1 else 2 ^ w - 1
    let quot (x y : BitVec w) : BitVec w := if y = 0 then BitVec.allOnes w else BitVec.ofInt w ((val x).tdiv (val y))
    let runs (i : Instr) (g : BitVec w → BitVec w → BitVec w → BitVec w) : Prop :=
      exec i s = .next (elementwise s f w fun e =>
        (g (BitVec.ofNat w (el s f.va w e)) (BitVec.ofNat w (second s f w e)) (BitVec.ofNat w (el s f.vd w e))).toNat)
    (Legal s f w ([f.vd, f.va] ++ bOf f) →
      runs (.vadd f) (fun x y _ => x + y)
      ∧ runs (.vsub f) (fun x y _ => x - y)
      ∧ runs (.vmul f) (fun x y _ => x * y)
      ∧ runs (.vmulh f) (fun x y _ => BitVec.ofInt w (val x * val y / 2 ^ w))
      ∧ runs (.vmadd f) (fun x y z => x * y + z)
      ∧ runs (.vdiv f) (fun x y _ => quot x y)
      ∧ runs (.vrem f) (fun x y _ => x - y * quot x y)
      ∧ runs (.vmin f) (fun x y _ => if val x ≤ val y then x else y)
      ∧ runs (.vmax f) (fun x y _ => if val x ≤ val y then y else x)
      ∧ runs (.vand f) (fun x y _ => x &&& y)
      ∧ runs (.vor f) (fun x y _ => x ||| y)
      ∧ runs (.vxor f) (fun x y _ => x ^^^ y)
      ∧ runs (.vshl f) (fun x y _ => x <<< (y.toNat % w))
      ∧ runs (.vshr f) (fun x y _ => x >>> (y.toNat % w))
      ∧ runs (.vsra f) (fun x y _ => x.sshiftRight (y.toNat % w))
      ∧ runs (.vsadd f) (fun x y _ => BitVec.ofInt w (max lo (min hi (val x + val y))))
      ∧ runs (.vssub f) (fun x y _ => BitVec.ofInt w (max lo (min hi (val x - val y)))))
    ∧ (Legal s f w [f.vd, f.va] → runs (.vabs f) (fun x _ _ => if val x < 0 then -x else x))

/-- R78, R119, R127, R128: `vclip` narrows with a rounded shift; the bit-plane words add and multiply in planes, and `vbpl` and `vbunpl`
go between ordinary elements and planes. -/
def Obligations.ClipAndBitPlanesWriteTheirElements : Prop :=
  ∀ (s : State) (f : VWord),
    let vs := s.hart.vec
    let vl := s.hart.sr.vl.toNat
    let w := tyBits f.ty
    let ws := tyBits f.srcTy
    let planes (r : Reg) (n e : Nat) : Nat := ((List.range n).map fun p => if (vs.reg (r.toNat + p)).getLsbD e then 2 ^ p else 0).sum
    let put (n : Nat) (g : Nat → Nat) : State := vecNext s ((acted s f).foldl (fun acc e =>
      (List.range n).foldl (fun acc p => acc.putBits (f.vd.toNat + p) e 1 (g e / 2 ^ p % 2)) acc) vs)
    let prod (e : Nat) : Nat := planes f.va (f.x.toNat % 16 + 1) e * planes f.vb (f.x.toNat / 16 % 16 + 1) e
    (Legal s { f with rep := false } (2 * w) [] → SpanOk s f.vd vl w → SpanOk s f.va vl (2 * w) →
      exec (.vclip f) s = .next (elementwise s f w fun e =>
        let v := clipRound (roundAt s f (some (min (f.x.toNat % 64) 32)) e) (tyInt f.ty (2 * w) (el s f.va (2 * w) e)) (f.x.toNat % 64)
        wrapInt w (if f.ctl.getLsbD 3 then clampInt (tySigned f.ty) w v else v)))
    ∧ (Legal s f 8 [] → exec (.vpadd f) s
      = .next (put f.planesOut fun e => planes f.va f.planes e + planes f.vb f.planes (vbPos f e)))
    ∧ (Legal s { f with rep := false } 8 [] →
      exec (.vpmul f) s = .next (put f.planesOut prod)
      ∧ exec (.vpmac f) s = .next (put f.planesOut fun e => planes f.vd f.planes e + prod e))
    ∧ (Legal s { f with rep := false } ws [] → SpanOk s f.va vl ws → exec (.vbpl f) s = .next (put f.planes fun e => el s f.va ws e))
    ∧ (Legal s { f with rep := false } w [] → SpanOk s f.vd vl w →
      exec (.vbunpl f) s = .next (elementwise s f w fun e => planes f.va f.planes e))

/-- R68, R69, R74, R120, R121: the floating-point words: one rounding of the exact result, in the mode of ctl; minimum, maximum, absolute
value, negation and clamp work on encodings; the functions of R74 round as that rule says. `vfadd`, `vfmul` and `vfma` run in matrix mode
too, on destinations below v28 (R172). Choices of the model in it: notes/assumptions/11.md, 12.md. -/
def Obligations.FloatingVectorOperationsRoundOnce : Prop :=
  ∀ (s : State) (f : VWord),
    let w := tyBits f.ty
    let fmt := fmtOf f.ty
    let x (e : Nat) : FVal := fmt.decode (el s f.va w e)
    let y (e : Nat) : FVal := fmt.decode (second s f w e)
    let z (e : Nat) : FVal := fmt.decode (el s f.vd w e)
    let r (e : Nat) : Rnd := roundAt s f (some 32) e
    let runs (i : Instr) (g : Nat → FRes) : Prop := exec i s = .next (elementwise s f w fun e => fmt.round (r e) (g e))
    let puts (i : Instr) (g : Nat → Nat) : Prop := exec i s = .next (elementwise s f w g)
    (Legal s f w ([f.vd, f.va] ++ bOf f) true →
      runs (.vfadd f) (fun e => fadd (r e) (x e) (y e))
      ∧ runs (.vfmul f) (fun e => (fmul (x e) (y e)).res)
      ∧ runs (.vfma f) (fun e => fadd (r e) (fmul (x e) (y e)) (z e)))
    ∧ (Legal s f w ([f.vd, f.va] ++ bOf f) →
      runs (.vfsub f) (fun e => fadd (r e) (x e) (y e).neg)
      ∧ runs (.vfms f) (fun e => fadd (r e) (fmul (x e) (y e)) (z e).neg)
      ∧ runs (.vfnma f) (fun e => fadd (r e) (z e) (fmul (x e) (y e)).neg)
      ∧ runs (.vfdiv f) (fun e => fdiv (x e) (y e))
      ∧ puts (.vfmin f) (fun e => fmt.min (el s f.va w e) (second s f w e))
      ∧ puts (.vfmax f) (fun e => fmt.max (el s f.va w e) (second s f w e))
      ∧ (f.vb.toNat + 2 * s.hart.sr.vgrp.n ≤ 32 → puts (.vfclamp f) (fun e =>
          fmt.min (fmt.max (el s f.va w e) (el s f.vb w (vbPos f e)))
            (s.hart.vec.elem (f.vb.toNat + s.hart.sr.vgrp.n) w (vbPos f e)))))
    ∧ (Legal s f w [f.vd, f.va] →
      runs (.vfsqrt f) (fun e => fsqrt (x e))
      ∧ puts (.vfabs f) (fun e => el s f.va w e % 2 ^ (fmt.width - 1))
      ∧ puts (.vfneg f) (fun e => el s f.va w e ^^^ 2 ^ (fmt.width - 1))
      ∧ puts (.vfrcp f) (fun e => roundR74 0x2C fmt (r e) (el s f.va w e) (frcp (x e)))
      ∧ puts (.vfrsq f) (fun e => roundR74 0x30 fmt (r e) (el s f.va w e) (frsq (x e)))
      ∧ puts (.vfexp2 f) (fun e => roundR74 0x2D fmt (r e) (el s f.va w e) (fexp2 (x e)))
      ∧ puts (.vflog2 f) (fun e => roundR74 0x2E fmt (r e) (el s f.va w e) (flog2 (x e))))

/-- R41, R43, R122 to R124: `vcmp` writes conditions into a mask, the mask words combine masks, the second one read by the replicate modifier, `vmpop` and `vmfirst` answer in a return slot
(nothing for vl = 0), `vmsel` selects by the mask over every element, in matrix mode too. -/
def Obligations.MaskOperationsWriteTheirBits : Prop :=
  ∀ (s : State) (f : VWord),
    let w := tyBits f.ty
    let vs := s.hart.vec
    let a := vs.mask (f.va.toNat % 8)
    let b := vs.mask (f.vb.toNat % 8)
    let set := (acted s f).filter fun e => a.getLsbD e
    let slot (v : Word) : State := if s.hart.sr.vl = 0 then vecNext s vs else slotWritten s (f.vd.toNat % 8) v
    (Legal s f w ([f.va] ++ bOf f) → exec (.vcmp f) s
      = .next (maskwise s f (f.vd.toNat % 8) fun e => condOf f.ty (f.ctl.toNat % 8) (el s f.va w e) (second s f w e)))
    ∧ (Unguarded s → s.hart.sr.mmode = false → UnitOk s f →
      exec (.vmand f) s = .next (maskwise s f (f.vd.toNat % 8) fun e => a.getLsbD e && b.getLsbD (vbPos f e))
      ∧ exec (.vmor f) s = .next (maskwise s f (f.vd.toNat % 8) fun e => a.getLsbD e || b.getLsbD (vbPos f e))
      ∧ exec (.vmxor f) s = .next (maskwise s f (f.vd.toNat % 8) fun e => a.getLsbD e != b.getLsbD (vbPos f e))
      ∧ exec (.vmnot f) s = .next (maskwise s f (f.vd.toNat % 8) fun e => !a.getLsbD e))
    ∧ (Unguarded s → s.hart.sr.mmode = false →
      exec (.vmpop f) s = .next (slot (BitVec.ofNat 64 set.length))
      ∧ exec (.vmfirst f) s = .next (slot (match set with
          | [] => BitVec.allOnes 64
          | e :: _ => BitVec.ofNat 64 (s.hart.sr.sb.toNat + e))))
    ∧ (Legal s f w ([f.vd, f.va] ++ bOf f) true → exec (.vmsel f) s
      = .next (vecNext s (vs.putElems f.vd.toNat w (List.range (limit s)) fun e =>
          if (vs.mask f.m.toNat).getLsbD e then el s f.va w e else second s f w e)))

/-- R73, R75 to R77, R125, R126: `vcvt` converts each element, in matrix mode too; `vqpack` packs each performed block of 16 values with the scale of the
block; `vqunpack` expands blocks. m0 selects every block. Choices of the model in it: notes/assumptions/101.md, 102.md. -/
def Obligations.ConversionsAndPackingWriteTheirElements : Prop :=
  ∀ (s : State) (f : VWord),
    let vs := s.hart.vec
    let vl := s.hart.sr.vl.toNat
    let ws := tyBits f.srcTy
    let wt := tyBits f.ty
    let fits (fp4 : Bool) : Prop :=
      blockCount fp4 vl % 16 = 0 ∧ blockCount fp4 vl ≤ 16 * blocksPerReg fp4 * s.hart.sr.vgrp.n
    let blocks (fp4 : Bool) : List Nat :=
      (List.range (blockCount fp4 (limit s) / 16)).filter fun b => f.m = 0 ∨ (vs.mask f.m.toNat).getLsbD (16 * b)
    let rnd (i : Nat) : Rnd :=
      let mode := f.ctl.toNat % 8
      { mode := mode, sat := f.ctl.getLsbD 3, zero := f.ctl.getLsbD 4, k := none,
        rho := if mode = 4 then (chash s.hart.sr.seed (genCtr s.hart.sr.stag i)).toNat else 0 }
    (Legal s { f with rep := false } (max ws wt) [] true → SpanOk s f.vd vl wt → SpanOk s f.va vl ws →
      exec (.vcvt f) s = .next (elementwise s f wt fun e =>
        convertElem f.srcTy f.ty (rnd (s.hart.sr.sb.toNat + e)) (el s f.va ws e)))
    ∧ (Legal s { f with rep := false } 8 [f.vd] → SpanOk s f.va (blockCount (f.ty == 14#4) vl) ws → fits (f.ty == 14#4) →
      exec (.vqpack f) s = .next (vecNext s ((blocks (f.ty == 14#4)).foldl (fun acc b =>
        let p := packBlock (fmtOf f.ty) (fun i => rnd (blockCount (f.ty == 14#4) s.hart.sr.sb.toNat + 16 * b + i))
          ((List.range 16).map fun i => (fmtOf f.srcTy).decode (el s f.va ws (16 * b + i)))
        acc.putBlock (f.ty == 14#4) f.vd.toNat b p.1 fun i => p.2.getD i 0) vs)))
    ∧ (Legal s { f with rep := false } 8 [f.va] → SpanOk s f.vd (blockCount (f.srcTy == 14#4) vl) wt → fits (f.srcTy == 14#4) →
      exec (.vqunpack f) s = .next (vecNext s ((blocks (f.srcTy == 14#4)).foldl (fun acc b =>
        acc.putElems f.vd.toNat wt ((List.range 16).map (16 * b + ·)) fun e =>
          (fmtOf f.ty).round (rnd (blockCount (f.srcTy == 14#4) s.hart.sr.sb.toNat + e))
            (fmul (e8m0 (vs.blockScale (f.srcTy == 14#4) f.va.toNat b))
              ((fmtOf f.srcTy).decode (vs.blockElem (f.srcTy == 14#4) f.va.toNat b (e % 16)))).res) vs)))

/-- R129 to R131: the permutes, for every type but fp4, move the elements that the rules name; `vmv` copies or broadcasts the second
operand, in matrix mode too, and `vid` numbers the elements. With type fp4 the permutes move whole blocks of 16 elements with their
scales. -/
def Obligations.PermutesMoveElementsAndBlocks : Prop :=
  (∀ (s : State) (f : VWord),
      let w := tyBits f.ty
      let vl := s.hart.sr.vl.toNat
      let top := vlmax s.hart.sr.sew s.hart.sr.vgrp s.hart.id.cap
      let off := min (if f.x.getLsbD 17 then (snapped s (f.x.toNat % 32)).toNat else f.x.toNat % 8192) vl
      let put (l : List (Nat × Nat)) : State := vecNext s (l.foldl (fun acc p => acc.setElem f.vd.toNat w p.1 p.2) s.hart.vec)
      (f.ty ≠ 14 → Legal s f w ([f.vd, f.va] ++ bOf f) → exec (.vperm f) s
        = .next (put ((acted s f).map fun e => (e, if second s f w e % 2 ^ w < top then el s f.va w (second s f w e % 2 ^ w) else 0))))
      ∧ (f.ty ≠ 14 → Legal s f w [f.vd, f.va, f.vb] →
        exec (.vslup f) s = .next (put ((acted s f).map fun e => (e, if e ≥ off then el s f.va w (e - off) else el s f.vb w (vl - off + e))))
        ∧ exec (.vsldn f) s
          = .next (put ((acted s f).map fun e => (e, if e + off < vl then el s f.va w (e + off) else el s f.vb w (e + off - vl)))))
      ∧ (f.ty ≠ 14 → Legal s f w [f.vd, f.va] →
        exec (.vcompress f) s = .next (put ((acted s f).mapIdx fun i e => (i, el s f.va w e)))
        ∧ exec (.vexpand f) s = .next (put ((acted s f).mapIdx fun i e => (e, el s f.va w i))))
      ∧ (Legal s f w (f.vd :: bOf f) true → exec (.vmv f) s = .next (elementwise s f w (second s f w)))
      ∧ (Legal s { f with rep := false } w [f.vd] →
        exec (.vid f) s = .next (elementwise s f w fun e => (s.hart.sr.sb.toNat + e) % 2 ^ w)))
  ∧ (∀ (s : State) (f : VWord), f.ty = 14 → Legal s f 8 ([f.vd, f.va, f.vb] ++ bOf f) →
      let vs := s.hart.vec
      let n := 2 * s.hart.sr.vl.toNat
      let count := n / 16
      let off := min (if f.x.getLsbD 17 then (snapped s (f.x.toNat % 32)).toNat else f.x.toNat % 8192) count
      let bs := (List.range (2 * limit s / 16)).filter fun b => f.m = 0 ∨ (vs.mask f.m.toNat).getLsbD (16 * b)
      let put (l : List (Nat × Reg × Nat)) : State := vecNext s (l.foldl (fun acc p =>
        acc.putBlock true f.vd.toNat p.1 (vs.blockScale true p.2.1.toNat p.2.2) fun k => vs.blockElem true p.2.1.toNat p.2.2 k) vs)
      n % 16 = 0 → n ≤ 16 * blocksPerReg true * s.hart.sr.vgrp.n →
        exec (.vslup f) s = .next (put (bs.map fun b => (b, if b ≥ off then (f.va, b - off) else (f.vb, count - off + b))))
        ∧ exec (.vsldn f) s = .next (put (bs.map fun b => (b, if b + off < count then (f.va, b + off) else (f.vb, b + off - count))))
        ∧ exec (.vcompress f) s = .next (put (bs.mapIdx fun i b => (i, f.va, b)))
        ∧ exec (.vexpand f) s = .next (put (bs.mapIdx fun i b => (b, f.va, i)))
        ∧ exec (.vperm f) s = .next (vecNext s (bs.foldl (fun acc b =>
            let i := second s f 8 b % 2 ^ 8
            if i < min (2 * vlmax s.hart.sr.sew s.hart.sr.vgrp s.hart.id.cap / 16) (blocksPerReg true * s.hart.sr.vgrp.n)
            then acc.putBlock true f.vd.toNat b (vs.blockScale true f.va.toNat i) fun k => vs.blockElem true f.va.toNat i k
            else acc.putBlock true f.vd.toNat b 0 fun _ => 0) vs)))

/-- R83, R132, R133: the reductions put into element 0 of vd the start value joined with the tree over every position of the length (a
position that is not performed enters as the identity), nothing for vl = 0; `vscan` writes running sums. -/
def Obligations.ReductionsAndScansFollowTheirOrder : Prop :=
  ∀ (s : State) (f : VWord),
    let w := tyBits f.ty
    let r : Rnd :=
      let mode := f.ctl.toNat % 8
      { mode := mode, sat := f.ctl.getLsbD 3, zero := f.ctl.getLsbD 4, k := none,
        rho := if mode = 4 then (chash s.hart.sr.seed (genCtr s.hart.sr.stag 0)).toNat else 0 }
    let n := min s.hart.sr.vl.toNat 8192
    let leaf (e : Nat) : Nat := if e ∈ acted s f then el s f.va w e else addIdentity f.ty
    let put (v : Nat) : State := vecNext s (if s.hart.sr.vl = 0 then s.hart.vec else s.hart.vec.setElem f.vd.toNat w 0 v)
    let total := addBits f.ty r (second s f w 0) (tree (addBits f.ty r) (addIdentity f.ty) ((List.range n).map leaf))
    Legal s f w ([f.vd, f.va] ++ bOf f) →
      exec (.vredsum f) s = .next (put total)
      ∧ exec (.vfredsum f) s = .next (put total)
      ∧ exec (.vredmin f) s = .next (put ((acted s f).foldl (fun acc e => minBits f.ty acc (el s f.va w e)) (second s f w 0)))
      ∧ exec (.vredmax f) s = .next (put ((acted s f).foldl (fun acc e => maxBits f.ty acc (el s f.va w e)) (second s f w 0)))
      ∧ exec (.vscan f) s = .next (vecNext s ((acted s f).foldl (fun (acc : Nat × VecState) e =>
          (addBits f.ty r acc.1 (el s f.va w e), acc.2.setElem f.vd.toNat w e (addBits f.ty r acc.1 (el s f.va w e))))
            (second s f w 0, s.hart.vec)).2)

/-- R80, R81, R134, R135: a draw of element e is the hash of the seed and the counter of the tag and sb + e; `vrand` writes draws under
its tag, `vnoise` adds noise of the deviation B. -/
def Obligations.GeneratorWordsDraw : Prop :=
  ∀ (s : State) (f : VWord),
    let w := tyBits f.ty
    let fmt := fmtOf f.ty
    let tag : BitVec 16 := if f.form = 1 then (snapped s (f.x.toNat % 32)).setWidth 16 else BitVec.ofNat 16 (f.x.toNat % 65536)
    let idx (e : Nat) : Nat := s.hart.sr.sb.toNat + e
    (Legal s { f with rep := false } w [f.vd] →
      exec (.vrand f) s = .next (elementwise s f w fun e => drawValue f.ty (chash s.hart.sr.seed (genCtr tag (idx e)))))
    ∧ (Legal s f w ([f.vd, f.va] ++ bOf f) → exec (.vnoise f) s = .next (elementwise s f w fun e =>
        let r := roundAt s f (some 32) e
        fmt.round r (fadd r (fmt.decode (el s f.va w e))
          (fmul (fmt.decode (second s f w e)) (noiseOf s.hart.sr.seed (genCtr (s.hart.sr.stag ^^^ 0x8000#16) (idx e)))))))

/-! ## The matrix unit -/

/-- R174 to R181: the matrix words act on the tile: the outer product on the masked rows below the limit, clearing, the scale latches, one
row in, one row or column out. -/
def Obligations.MatrixWordsActOnTheTile : Prop :=
  ∀ (s : State) (f : VWord), Matrix s →
    let vs := s.hart.vec
    let t := s.hart.tile
    let m := vs.mask f.m.toNat
    let i := tileIdx s f
    let grant := s.hart.sr.mgrant.toNat
    let w := tyBits f.ty
    let g : VWord := { f with ctl := f.ctl &&& 15#5 }
    let row := vs.putElems f.vd.toNat w ((List.range 128).filter fun j => m.getLsbD j) fun j =>
      tileOut f.ty (roundAt s g none j) (t.at i j)
    exec (.mop f) s = .next (tileNext s (((List.range (rowsOf s)).filter fun i => m.getLsbD i).foldl (fun acc i => acc.putRow i fun j =>
        some (mopElem f.ty (f.ctl.getLsbD 0) (t.rowScale i) (t.colScale j) (el s f.va 16 i) (el s f.vb 16 j) (t.at i j))) t))
    ∧ exec (.mzero f) s
      = .next (tileNext s (((List.range grant).filter fun i => m.getLsbD i).foldl (fun acc i => acc.putRow i fun _ => some 0) t))
    ∧ exec (.mscale f) s
      = .next (tileNext s { t with sr := (vs.reg f.va.toNat).extractLsb' 0 2048, sc := (vs.reg f.vb.toNat).extractLsb' 0 1024 })
    ∧ (i < grant → exec (.mrowld f) s
      = .next (tileNext s (t.putRow i fun j => if m.getLsbD j then some (tileIn f.ty (el s f.va w j)) else none)))
    ∧ (i < grant → f.vd.toNat < 28 → exec (.mrowrd f) s = .next (vecNext s row))
    ∧ (i < 128 → f.vd.toNat < 28 → exec (.mcolrd f) s
      = .next (vecNext s (vs.putElems f.vd.toNat w ((List.range (rowsOf s)).filter fun r => m.getLsbD r) fun r =>
          tileOut f.ty (roundAt s g none r) (t.at r i))))
    ∧ (i < grant → exec (.mdrain f) s = .next (if f.ctl.getLsbD 4
        then tileNext { s with hart := { s.hart with vec := row } } (t.putRow i fun j => if m.getLsbD j then some 0 else none)
        else vecNext s row))

/-! ## Vector memory -/

/-- R116, R139 to R142: the vector loads and stores, on unit-stride, strided and indexed addresses: a load writes its performed elements
and no memory, a store writes the bytes of its performed elements in index order and no register; with vl = 0 neither has an effect. In
matrix mode a load of unit stride may write registers below v28. Choices of the model in it: notes/assumptions/42.md, 93.md, 110.md. -/
def Obligations.VectorLoadsAndStoresAccessTheirElements : Prop :=
  ∀ (s : State) (f : VWord), Unguarded s →
    let n := tyBits f.ty / 8
    let base := snapped s (f.x.toNat % 32)
    let at_ (e : Nat) : Word := s.hart.sr.sb + BitVec.ofNat 64 e
    let unit (e : Nat) : Word := base + at_ e * BitVec.ofNat 64 n
    let stride (e : Nat) : Word := base + at_ e * snapped s (f.x.toNat / 32 % 32)
    let index (e : Nat) : Word := base + BitVec.ofNat 64 (el s f.vb (tyBits f.ty) e) <<< (f.x.toNat / 32 % 4)
    (ModeOk s f true → VLoads s (.vld f) f [f.vd] unit)
    ∧ (s.hart.sr.vl = 0 → ∀ i ∈ [Instr.vld f, .vst f, .vlds f, .vsts f, .vldx f, .vstx f], exec i s = .next (vecNext s s.hart.vec))
    ∧ VStores s (.vst f) f [f.vd] unit
    ∧ (s.hart.sr.mmode = false →
      VLoads s (.vlds f) f [f.vd] stride ∧ VStores s (.vsts f) f [f.vd] stride
      ∧ VLoads s (.vldx f) f [f.vd, f.vb] index ∧ VStores s (.vstx f) f [f.vd, f.vb] index)

/-- R94, R143, R144, R146: `vamo` performs an atomic for each performed element from `estart` on, in index order, and leaves the old
values in vd and `estart` at 0; `vlsp` and `vssp` access the scratchpad slice of each element's lane, where `.trim` cuts the elements at
avail, and under `.follow` each group of 64 bytes is performed once avail has reached its end.
Choices of the model in it: notes/assumptions/42.md. -/
def Obligations.VectorAtomicsAndScratchpadAccessTheirElements : Prop :=
  ∀ (s : State) (f : VWord), Unguarded s → s.hart.sr.mmode = false →
    let w := tyBits f.ty
    let n := w / 8
    let es := acted s f
    let vs := s.hart.vec
    let index (e : Nat) : Word := snapped s (f.x.toNat % 32) + BitVec.ofNat 64 (el s f.vb w e) <<< (f.x.toNat / 32 % 4)
    let rs (l : List Nat) : List (Nat × Nat) := l.map fun e => ((index e).toNat, n)
    let todo := es.filter fun e => s.hart.sr.sb + BitVec.ofNat 64 e ≥ s.hart.sr.estart
    let off := spOffset s f
    let key (e : Nat) : Nat := spKeyOf s f e (off e)
    let inside (l : List Nat) : Prop := ∀ e ∈ l, off e % n = 0 ∧ off e + n ≤ 8192
    let k := f.ctl.toNat % 8
    let follow := f.ctl.toNat / 8 = 2
    let grp := 64 / n
    let flying := match (strm s k).xfer with
      | some t => t.fail.isNone
      | none => false
    let ready (e : Nat) : Bool := !flying || decide (come s k ≥ min s.hart.sr.vl.toNat ((e / grp + 1) * grp))
    let part := (s.hart.ctx.map (·.part)).getD 0
    let l := if f.ctl.toNat / 8 = 1 then es.filter fun e => e < min s.hart.sr.vl.toNat (come s k) else es
    let now := if follow then es.filter fun e => ready e && decide (part ≤ e / grp) else l
    let sp (l : List Nat) : List (Nat × Nat) := l.map fun e => (off e, n)
    let got := now.foldl (fun v e => v.setElem f.vd.toNat w e (ofBytes (s.scratch.reads (key e) n))) vs
    let at_ (j : Nat) (h : Hart) : Hart := if follow then { h with ctx := h.ctx.map fun c => { c with part := j } } else h
    (s.hart.sr.vl = 0 → exec (.vamo f) s = .next (vecNext s vs)
      ∧ exec (.vlsp f) s = .next { s with hart := at_ 0 (vecNext s vs).hart } ∧ exec (.vssp f) s = .next (vecNext s vs))
    ∧ (∀ (acc : Nat → Acc), s.hart.sr.vl ≠ 0 → Grouped s f [f.vd, f.va, f.vb] → ActsOnce s →
      Clear s false (rs es) (rs es) (rs (masked s f)) (rs (masked s f)) none → s.cells.wf = true →
      (∀ e ∈ es, ElemOk s s.hart.sr.vclk (index e) n es.length .atomic (acc e) ∧ (∃ bs, seen s (acc e) n = some bs)
        ∧ s.tailAt ((acc e).pa / 8 * 8) = none) →
      s.windowShut s.hart.id.did todo.length = [] →
      ∃ t, exec (.vamo f) s = .next t ∧
        let r := amoRun (f.ctl.toNat % 16) n (el s f.va w) (el s f.vd w) (fun e => (acc e).pa) todo (liveByte s true)
        let v := r.2.foldl (fun v p => v.setElem f.vd.toNat w p.1 p.2) vs
        (∀ pa, isHostMem pa = true → liveByte t true pa = r.1 pa)
        ∧ (∃ c d y x, t.hart = { (onceNext s v (todo.map fun e => (e, v.elem f.vd.toNat w e))).hart with
            x := x, early := y, vknown := d, sr := { s.hart.sr with vclk := c, estart := 0 } })
        ∧ (∀ r, t.hart.reg r = s.hart.reg r)
        ∧ OthersKept s t ∧ t.scratch = s.scratch ∧ t.counts = s.counts ∧ t.bank = s.bank ∧ t.place = s.place)
    ∧ (s.hart.sr.vl ≠ 0 → Grouped s f [f.vd, f.vb] →
      (inside (if follow then es else l) → (∀ e ∈ now, key e / 8 ∉ s.img.spPoison) →
        Clear s true (sp (if follow then es else l)) [] (sp (masked s f)) [] (if f.ctl.toNat / 8 = 0 then none else some k) →
        exec (.vlsp f) s = .next (match if follow then es.find? fun e => !ready e else none with
          | none => { s with hart := at_ 0 (vecNext s got).hart }
          | some e => if e / grp ≤ part then s else { s with hart := at_ (e / grp) { s.hart with vec := got } }))
      ∧ (inside es → Clear s true [] (sp es) [] (sp (masked s f)) none →
        exec (.vssp f) s = .next { vecNext s vs with
          scratch := es.foldl (fun m e => m.writes (key e) (toBytes n (el s f.vd w e))) s.scratch,
          img := { s.img with spPoison := s.img.spPoison.filter fun p => !fullWords 8 (es.map fun e => (key e, n)) p } }))

/-- R145, R147 to R152, R159: `vgath`, `vcopy` and `vrcopy` begin a transfer of their performed elements and go on, and wait while their stream
is busy; `vavail` puts avail into a return slot; `vcwait` waits for the transfer of its stream.
Choices of the model in it: notes/assumptions/39.md. -/
def Obligations.TransfersBeginOnTheirStream : Prop :=
  ∀ (s : State) (f : VWord), Unguarded s → s.hart.sr.mmode = false →
    let w := tyBits f.ty
    let n := w / 8
    let k := f.ctl.toNat % 8
    let es := acted s f
    let dst := snapped s (f.x.toNat % 32)
    let src := snapped s (f.x.toNat / 32 % 32)
    let moved (l : List Nat) := l.map fun e =>
      let o := (s.hart.sr.sb + BitVec.ofNat 64 e) * BitVec.ofNat 64 n
      (e, src + o, dst + o)
    let size := 16 * 2 ^ (f.x.toNat / 32 % 16)
    let row (e : Nat) : Nat := f.x.toNat / 512 % 512 * 16 + ordinalOf w e * size
    let rows (l : List Nat) := l.map fun e =>
      (e, dst + BitVec.ofNat 64 (el s f.vb w e * size), BitVec.ofNat 64 (spKeyOf s f e (row e)))
    let q := f.vd.toNat % 8
    let live (l : List (Nat × Word × Word)) := l.filter fun p => s.hart.sr.sb + BitVec.ofNat 64 p.1 ≥ s.hart.sr.estart
    let copyHulls (both : Bool) (l : List (Nat × Word × Word)) : Hulls :=
      let srcs := (live l).map fun p => p.2.1.toNat
      let dsts := (live l).map fun p => p.2.2.toNat
      { rd := hullOf (if both then srcs ++ dsts else srcs) n, wr := hullOf dsts n, sp := (0, 0) }
    let rowHulls (l : List (Nat × Word × Word)) : Hulls :=
      { rd := hullOf ((live l).map fun p => p.2.1.toNat) size, wr := (0, 0),
        sp := if live l = [] then (0, 0) else (M.rowBase f, M.rowEnd f ((live l).map (·.1))) }
    let put (k : Nat) (st : Stream) : Hart := { s.hart with
      streams := s.hart.streams.setIfInBounds k st, sr := { s.hart.sr with estart := 0 } }
    (s.hart.sr.vl = 0 → (strm s k).xfer = none → ∀ i ∈ [Instr.vgath f, .vcopy f, .vrcopy f],
      exec i s = .next { s with hart := { put k { strm s k with avail := s.hart.sr.sb, fin := s.hart.sr.sb } with
        ctx := (vecNext s s.hart.vec).hart.ctx } })
    ∧ (s.hart.sr.vl ≠ 0 → Grouped s f [] →
      (Begin s k (copyHulls false (moved es)) (copyHulls false (moved (masked s f))) → Begins s (.vcopy f) .copy k n (moved es))
      ∧ (Begin s k (copyHulls true (moved es)) (copyHulls true (moved (masked s f))) → Begins s (.vrcopy f) .rcopy k n (moved es))
      ∧ (f.vb.toNat % s.hart.sr.vgrp.n = 0 → (∀ e ∈ es, row e + size ≤ 8192) →
        Begin s k (rowHulls (rows es)) (rowHulls (rows (masked s f))) → Begins s (.vgath f) .gath k size (rows es)))
    ∧ ((strm s k).xfer.isSome = true → (s.hart.sr.vl = 0 ∨ Grouped s f []) → (∀ c, s.hart.ctx = some c → c.exitAhead = false) →
      exec (.vcopy f) s = .next s ∧ exec (.vrcopy f) s = .next s ∧ exec (.vcwait f) s = .next s)
    ∧ exec (.vavail f) s = .next { slotWritten s q (strm s k).avail with
        hart := { (slotWritten s q (strm s k).avail).hart with availSlots := s.hart.availSlots ||| BitVec.ofNat 8 (2 ^ q) } }
    ∧ ((strm s k).xfer = none → exec (.vcwait f) s = .next { vecNext (merged s) s.hart.vec with
        hart := { (vecNext (merged s) s.hart.vec).hart with vknown := clkMerge s.hart.vknown (s.die s.hart.id.did).clock } })

/-- R145, R148, R149: the engine performs one element of a transfer: `vcopy` copies it, `vrcopy` combines it with what its destination
holds, `vgath` puts a row into the scratchpad. A transfer whose elements are all performed completes, with `estart` at 0.
Choices of the model in it: notes/assumptions/25.md, 39.md, 41.md, 42.md. -/
def Obligations.TransferElementsAreMoved : Prop :=
  ∀ (s : State) (k e : Nat) (x : Transfer) (src dst : Word) (a d : Acc) (bs ob : List Byte),
    (strm s k).xfer = some x → x.fail = none →
    (x.todo = [] → exec (.engineTransferComplete s.hart.key k) s = .next { s with hart := { s.hart with
      streams := s.hart.streams.setIfInBounds k { strm s k with avail := (strm s k).fin, xfer := none },
      sr := { s.hart.sr with estart := 0 } } })
    ∧ (x.todo.find? (fun p => p.1 == e) = some (e, src, dst) → s.cells.wf = true →
    let i := Instr.engineElementPerformed s.hart.key k e
    let memory (t : State) (pa : Nat) (l : List Byte) : Prop :=
      ∀ p, isHostMem p = true → liveByte t true p = overlaid (liveByte s true) pa l p
    (x.kind = .copy → x.clash = false → ElemOk s x.clk src x.size 2 .load a → ElemOk s x.clk dst x.size 2 .store d → seen s a x.size = some bs →
      s.tailAt (d.pa / 8 * 8) = none → s.windowShut s.hart.id.did 1 = [] → x.size ∈ [1, 2, 4, 8] →
      Leads s i fun t => ElementDone s t k e x ∧ OthersKept s t ∧ memory t d.pa bs ∧ t.scratch = s.scratch)
    ∧ (x.kind = .rcopy → x.clash = false → ElemOk s x.clk src x.size 2 .load a → ElemOk s x.clk dst x.size 2 .atomic d →
      seen s a x.size = some bs → seen s d x.size = some ob → s.tailAt (d.pa / 8 * 8) = none → s.windowShut s.hart.id.did 1 = [] →
      x.size ∈ [1, 2, 4, 8] → (x.todo.map (·.1)).head? = some e →
      (∀ st ∈ s.hart.streams.toList, ∀ y, st.xfer = some y → y.order ≥ x.order) →
      Leads s i fun t => ElementDone s t k e x ∧ OthersKept s t
        ∧ memory t d.pa (toBytes x.size (combine x.ty x.op (ofBytes ob) (ofBytes bs))) ∧ t.scratch = s.scratch)
    ∧ (x.kind = .gath → ElemOk s x.clk src 16 1 .load a → seen s a x.size = some bs → 0 < x.size →
      (∀ la, a.pa / 64 ≤ la → la ≤ (a.pa + x.size - 1) / 64 → Roomy s la (x.size / 64 + 2)) → src.toNat % 2 ^ 18 + x.size ≤ 2 ^ 18 →
      Leads s i fun t => ElementDone s t k e x ∧ t.others = s.others ∧ t.scratch = s.scratch.writes dst.toNat bs
        ∧ (∀ p, isHostMem p = true → liveByte t true p = liveByte s true p)))

/-! ## Blocks -/

/-- R20, R21, R23, R24, R154, R156, R158, R160: the words that steer a block: `vhead` has no effect, the branches test the mask bits of the
strip, `vexit` ends the strip at the first element whose bit is set, once a strip, `vstop` ends the strip and goes on with another one or ends
the loop, `vtoq` puts an element into a return slot. Choices of the model in it: notes/assumptions/23.md, 26.md, 40.md. -/
def Obligations.ControlWordsSteerTheBlock : Prop :=
  ∀ (s : State) (f : VWord) (c : LoopCtx), s.hart.ctx = some c →
    let vs := s.hart.vec
    let r := s.hart.sr
    let m := vs.mask (f.va.toNat % 8)
    let lim := min (if c.fired then min r.vl.toNat (c.stop.getD 8192) else r.vl.toNat) 8192
    let tested := (List.range lim).filter fun e => (vs.mask f.m.toNat).getLsbD e
    let noted (p : Bool) : Bool := match c.taken.find? fun t => t.1 == c.idx with
      | some t => if c.exitAhead then t.2 else p
      | none => p
    let now := (List.range (limit s)).find? fun e => m.getLsbD e
    let answer := match c.taken.find? fun t => t.1 == c.idx with
      | some t => if c.resolved then (if t.2 then c.stop else none) else now
      | none => now
    let w := tyBits f.ty
    let i := if f.form = 1 then (snapped s (f.x.toNat % 32)).toNat else f.x.toNat % 8192
    let done (x : SRegs) : State := { s with hart := { s.hart with ctx := none, sr := x } }
    (Unguarded s → exec (.vhead f) s = .next (vecNext s vs))
    ∧ (Unguarded s → r.mmode = false →
      exec (.vbany f) s = .next (branched s c f (noted (tested.any fun e => m.getLsbD e)))
      ∧ exec (.vball f) s = .next (branched s c f (noted (tested.all fun e => m.getLsbD e)))
      ∧ exec (.vbnone f) s = .next (branched s c f (noted (!tested.any fun e => m.getLsbD e)))
      ∧ exec (.vjmp f) s = .next (branched s c f true)
      ∧ (c.fired = true → exec (.vexit f) s = .next (vecNext s vs))
      ∧ (c.fired = false → c.pass = none → exec (.vexit f) s = .next (match answer with
        | none => inBlock s { c with idx := c.idx + 1, kept := if c.exitAhead then c.kept else [] }
        | some e => { s with hart := { s.hart with
            sr := { r with xstop := r.sb + BitVec.ofNat 64 e },
            ctx := some { c with idx := c.idx + 1, kept := [], resolved := true, stop := some e, fired := true } } })))
    ∧ (Legal s { f with rep := false } w [f.va] → exec (.vtoq f) s
      = .next (if i < limit s ∧ (vs.mask f.m.toNat).getLsbD i = true
          then slotWritten s (f.vd.toNat % 8) (extended (w / 8) (decide (f.ty.toNat < 4)) (el s f.va w i)) else vecNext s vs))
    ∧ (c.threads = none → c.parked = [] →
      (∀ t, c.entry.kind = .block t none → exec .vstop s = .next (done r))
      ∧ ∀ t n, c.entry.kind = .block t (some n) → c.ran = [] → exec .vstop s = .next (
        if c.fired then done { r with vl := c.g, sb := r.xstop }
        else if (c.k + 1) * c.g.toNat < n.toNat then inBlock s { c.fresh 0 with k := c.k + 1 }
        else done { r with vl := c.g, sb := c.b0 + n, xstop := c.b0 + n }))
    ∧ (∀ t n p, c.threads = none → c.entry.kind = .block t (some n) → c.fired = false →
      (c.parked.find? fun p => p.fail.isNone) = some p →
      exec .vstop s = .next { s with hart := s.hart.takeStrip { c with ran := c.ran ++ [c.k] } p })

/-- R22, R161: `vsplit` starts a thread for each performed element, or goes behind the `vjoin` when there is none; `lbr` sends each thread
that stands at it on its own way; threads at `vjoin` wait there, and with the last one the vector forms again.
Choices of the model in it: notes/assumptions/24.md. -/
def Obligations.LaneThreadsSplitBranchAndJoin : Prop :=
  ∀ (s : State) (f : VWord) (c : LoopCtx), s.hart.ctx = some c →
    let es := acted s f
    let behind (i : Nat) : Nat := (((List.range (c.words.length - i)).find? fun k =>
      (c.words.getD (i + k) 0).extractLsb' 56 8 == 0xA7#8).getD 0 + i) + 1
    let m := s.hart.vec.mask (f.va.toNat % 8)
    (Unguarded s → s.hart.sr.mmode = false → exec (.vsplit f) s = .next (inBlock s (
      if es = [] then { c with idx := behind c.idx }
      else { c with picked := [], threads := some (c.idx, es.map fun e => { e := e, idx := c.idx + 1, joined := false }) })))
    ∧ ∀ i ts p, c.threads = some (i, ts) → (∃ t ∈ ts, t.joined = false ∧ t.idx = p) → (∀ t ∈ ts, t.joined = false → p ≤ t.idx) →
      let here (t : Thread) : Bool := ts.any fun u => u.e == t.e && !u.joined && u.idx == p
      let joined := ts.map fun t => if here t then { t with joined := true } else t
      exec (.lbr f) s = .next (inBlock s { c with threads := some (i, ts.map fun t =>
        if here t then { t with idx := if m.getLsbD t.e then branchTarget f t.idx else t.idx + 1 } else t) })
      ∧ exec .vjoin s = .next (inBlock s (
        if joined.all (·.joined) then { c with threads := none, idx := behind i } else { c with threads := some (i, joined) }))

/-- R164 to R169: `vbrk` and `vbrkrd` move brackets and leave the elements that are not performed. An `inv` whose routine is legal and whose
brackets enclose their targets goes on behind its routine, with the brackets of the bisection of R167; every performed element's new bracket lies inside its old one in the order of the type, and its bit
of mu says whether the bracket is still wider than 2^tol; no other bracket changes. -/
def Obligations.BracketsShrinkUnderInversion : Prop :=
  ∀ (s t : State) (f : VWord),
    let vs := s.hart.vec
    let w := tyBits f.ty
    let es := acted s f
    let ord (b : Bracket) (e : Nat) : Nat := invOrd f.ty (bracketElem b w e)
    let within (e : Nat) : Prop := e * w + w ≤ 65536
    (Legal s { f with rep := false } w [f.va, f.vb] → Leads s (.vbrk f) fun t =>
      ∃ lo hi, t = vecNext s { vs with blo := lo, bhi := hi } ∧ ∀ e, within e →
        bracketElem lo w e = (if e ∈ es then el s f.va w e else bracketElem vs.blo w e)
        ∧ bracketElem hi w e = (if e ∈ es then el s f.vb w e else bracketElem vs.bhi w e))
    ∧ (Legal s { f with rep := false } w [f.vd] → exec (.vbrkrd f) s
      = .next (elementwise s f w fun e => bracketElem (if f.ctl.getLsbD 0 then vs.bhi else vs.blo) w e))
    ∧ (Answers s (do
        let env ← M.frame
        M.vamoGuard env
        invCore f env) ⟨⟩ t →
      exec (.inv f) s = .next t
      ∧ (∀ c, s.hart.ctx = some c → t.hart.ctx = some { c with idx := c.idx + 1 + (f.x.toNat % 16 + 1) })
      ∧ t.hart.x = s.hart.x ∧ t.hart.sr = s.hart.sr ∧ t.cells = s.cells ∧ t.img = s.img
      ∧ ∀ e, within e →
        if e ∈ es then
          ord vs.blo e ≤ ord t.hart.vec.blo e ∧ ord t.hart.vec.blo e ≤ ord t.hart.vec.bhi e ∧ ord t.hart.vec.bhi e ≤ ord vs.bhi e
          ∧ (f.x.toNat / 32768 ≠ 0 → (t.hart.vec.mask (f.x.toNat / 32768)).getLsbD e
            = decide (ord t.hart.vec.bhi e - ord t.hart.vec.blo e > 2 ^ (f.x.toNat / 1024 % 32)))
        else bracketElem t.hart.vec.blo w e = bracketElem vs.blo w e ∧ bracketElem t.hart.vec.bhi w e = bracketElem vs.bhi w e)
    ∧ ∀ (c : LoopCtx) (is : List Instr) (v : VecState) (xs : List InvElem), s.hart.ctx = some c →
      Legal s { f with rep := false } w [f.vd, f.va, f.vb] → Routine s f is → inverted s f is = some (v, xs) →
      let a := invArgs f
      let last := evaluated s f is v (xs.map fun x => (x.e, if a.lower then x.lo else x.hi))
      exec (.inv f) s = .next { s with hart := { s.hart with
        vec := xs.foldl (fun v x => { v with blo := setBracket v.blo w x.e x.lo, bhi := setBracket v.bhi w x.e x.hi }.setMaskBit a.mu x.e
          (decide (x.width f.ty > 2 ^ a.tol))) last,
        ctx := some { c with idx := c.idx + 1 + a.n } } }

/-- R198, R207, R252, R253: `xroute` writes routing words and counts the loads of the experts; `vnbadd` hands one add request per
performed element to the bank units, in index order; `wmv` writes an estimate for every weight column and nothing else, and has no
effect for vl = 0. Choices of the model in it: notes/assumptions/13.md, 14.md, 15.md, 42.md. -/
def Obligations.EngineWordsActOnTheirUnits : Prop :=
  ∀ (s : State) (f : VWord),
    let h := s.hart
    let es := acted s f
    let x (e : Nat) : Nat := el s f.va 32 e
    let old (k : Nat) : BitVec 32 := (aget (s.tableOf h.id.did).cur k).getD 0
    let hits (k : Nat) : Nat := es.countP fun e => x e == k
    let set := snapped s (f.x.toNat % 32)
    let index (e : Nat) : Word := set + BitVec.ofNat 64 (el s f.vb 32 e) <<< (f.x.toNat / 32 % 4)
    let rs (l : List Nat) : List (Nat × Nat) := l.map fun e => ((index e).toNat, 4)
    let word (e : Nat) : Nat := routed (s.tableOf h.id.did) (x e) (h.sr.sb + BitVec.ofNat 64 e)
    (Legal s { f with rep := false } 32 [f.vd, f.va] → h.sr.vl = 0 → exec (.xroute f) s = .next (vecNext s h.vec))
    ∧ (Legal s { f with rep := false } 32 [f.vd, f.va] → h.sr.vl ≠ 0 → (∀ e ∈ es, x e < 8192) → ActsOnce s →
      (∀ c, h.ctx = some c → c.known = none ∧ c.holding = false) → h.id.did < 8 → (∀ k, (old k).toNat + hits k < 2 ^ 32) →
      ∃ t, exec (.xroute f) s = .next t
        ∧ t = { s with
          hart := { (onceNext s (h.vec.putElems f.vd.toNat 32 es word) (es.map fun e => (e, word e))).hart with
            vknown := clkMerge h.vknown (s.die h.id.did).clock, sr := { h.sr with vclk := learned s } },
          place := t.place }
        ∧ (∀ k, (aget (t.tableOf h.id.did).cur k).getD 0 = old k + BitVec.ofNat 32 (hits k))
        ∧ (t.tableOf h.id.did).version = (s.tableOf h.id.did).version)
    ∧ (∀ (acc : Nat → Acc), Legal s { f with rep := false } 32 [f.va, f.vb] → tyBits f.ty = 32 → h.sr.vl ≠ 0 → ActsOnce s →
      Clear s false [] (rs es) [] (rs (masked s f)) none → (∀ e ∈ es, AddOk s (index e) (acc e)) →
      s.windowShut h.id.did es.length = [] →
      (h.sr.nbdet = true → ∀ e ∈ es,
        (s.bank.reqs.filter fun r => r.det && bankOf r.pa == bankOf (acc e).pa).length + es.length ≤ 4096) →
      ∃ t, exec (.vnbadd f) s = .next t
        ∧ t.bank = { s.bank with reqs := s.bank.reqs ++ es.mapIdx fun i e => {
          pa := (acc e).pa, f32 := decide (f.ty = 10), v := BitVec.ofNat 32 (x e), det := h.sr.nbdet, launch := launchNo s,
          die := h.id.did, hid := h.id.hid, seq := if h.sr.nbdet then h.nbSeq + i else h.nbSeq } }
        ∧ (∃ c y x, t.hart = { (onceNext s h.vec []).hart with
          nbSeq := if h.sr.nbdet then h.nbSeq + es.length else h.nbSeq, x := x, early := y, sr := { h.sr with vclk := c } })
        ∧ (∀ r, t.hart.reg r = h.reg r) ∧ t.cells = s.cells ∧ OthersKept s t)
    ∧ (h.sr.vl = 0 → Unguarded s → (∀ c, h.ctx = some c → c.holding = false ∧ c.redo = []) → Idle s →
      exec (.vnbadd f) s = .next (onceNext s h.vec []))
    ∧ (Legal s { f with rep := false } 8 [f.vd, f.va] → h.sr.vl = 0 → (∀ c, h.ctx = some c → c.known = none) →
      exec (.wmv f) s = .next (vecNext s h.vec))
    ∧ ∀ (acc : Nat → Acc) (wset : Nat) (ww : Bool), Legal s { f with rep := false } 8 [f.vd, f.va] → h.sr.vl ≠ 0 →
      (∀ c, h.ctx = some c → c.known = none) → set.toNat % 32768 = 0 →
      (∀ q < (min h.sr.vl.toNat 8192 + 511) / 512, MacroOk s (set + BitVec.ofNat 64 (32768 * q)) wset ww (acc q)) →
      ∃ t g, exec (.wmv f) s = .next t
        ∧ t = { vecNext s (h.vec.putElems f.vd.toNat 32 (List.range (if ww then 46 else 85)) g) with
          fresh := t.fresh, img := { s.img with tlb := t.img.tlb, keys := t.img.keys } }

/-- R47 to R49, R197, R198: a broadcast command whose block and program lie on the hart's own die and pass their checks runs, and `nbx` goes
to its next command or, after the last one, goes on. It writes no register, and nothing outside its mapping of 2 MiB unless it has an error
to report or an add request waits, which may be applied between its column cycles. Choices of the model in it: notes/assumptions/37.md. -/
def Obligations.BroadcastCommandsRunInTheirMapping : Prop :=
  ∀ (s : State) (blk : Word) (n c v pv : Nat) (acc : Acc),
    let did := s.hart.id.did
    let cmd := Command.ofBits v
    let ws := (List.range cmd.len).map fun i => pv / 2 ^ (64 * i) % 2 ^ 64
    s.hart.wait = .nbx blk n c → s.cells.wf = true → acc.pa % 32 = 0 → s.windowShut did 1 = [] →
    s.uncovered did s.hart.sr.vclk (fun _ => false) = [] → s.uncovered did (learned s) (fun _ => false) = [] →
    s.tailPending s.hart.key = none → Block s 12 (blk + BitVec.ofNat 64 (32 * c)) 4 v → cmd.ok = true → Block s 12 cmd.prog cmd.len pv →
    PageOk s cmd.mapping 1 .atomic acc → (∀ w ∈ ws, bankWordOk w = true) → acc.leaf.cc = true → channelOf acc.pa = cmd.channel →
    cmd.inside (ws.map BankWord.ofBits) = true → ReachedBy s (learned s) acc.leaf.home →
    ∃ t, exec (.broadcastCommand s.hart.key) s = .next t
      ∧ (if c + 1 < n then t.hart.pc = s.hart.pc ∧ t.hart.wait = .nbx blk n (c + 1) else t.hart.pc = s.hart.pc + 4 ∧ t.hart.wait = .none)
      ∧ (∀ r, t.hart.reg r = s.hart.reg r) ∧ t.hart.vec = s.hart.vec
      ∧ (t.disp.jhead = s.disp.jhead → (∀ r ∈ s.bank.reqs, r.det = true) →
        ∀ pa, (pa < acc.pa ∨ acc.pa + 2 ^ 21 ≤ pa) → t.cells.read pa = s.cells.read pa)

/-- R115, R172, R303, R308, R331: a vector word that is not legal forms the held image and enters the handler at `tvec` with the word as
trap value and its address in `epc`; while a handler runs, the trap of a marked block is set aside, and a second held image kills the
hart. With vl = 0 a memory word raises no trap (R139). Choices of the model in it: notes/assumptions/30.md. -/
def Obligations.VectorTrapFormsTheHeldImage : Prop :=
  ∀ (s : State) (f : VWord) (c : LoopCtx) (i : Instr), s.hart.ctx = some c → c.threads = none → c.parked = [] → Idle s → Between s →
    i ∈ [Instr.vadd f, .vfsub f, .vcmp f, .vmand f, .vredsum f, .vrand f, .vlds f, .vamo f, .vlsp f, .vgath f, .vavail f, .xroute f,
      .wmv f, .vbany f, .vsplit f, .vbrk f, .vtoq f] →
    Unguarded s → s.hart.sr.mmode = true → (i ∈ [Instr.vlds f, .vamo f, .vlsp f, .vgath f] → s.hart.sr.vl ≠ 0) →
    let h := s.hart
    let v := c.words.getD c.idx 0
    let a := c.base + BitVec.ofNat 64 (8 * c.idx)
    (h.sr.status.blk = false → c.entry.mark = false → h.sr.tvec ≠ 0 →
      exec i s = .next (held s 0x02 v a (some c) h.queue c.stop.isSome))
    ∧ (h.sr.status.blk = false → c.entry.mark = true → exec i s = .next { s with hart := { h with
        ctx := none, queue := h.queue.filter (fun e => !e.mark),
        aside := some {
          cause := 0x02, tval := v, epc := a, ctx := some c.stopped, behind := h.queue.filter (·.mark), spl := false, xf := c.stop.isSome } } })
    ∧ (h.sr.status.blk = true → h.sr.kexit ≠ 0 → Leads s i fun t =>
      t.hart.pc = h.sr.kexit ∧ t.hart.sr.cause = 0x13 ∧ t.hart.sr.tval = 0x02 ∧ t.hart.queue = [] ∧ t.hart.ctx = none
      ∧ t.hart.held = none ∧ t.hart.x = h.x ∧ t.cells = s.cells)

/-- R20, R98, R113, R154, R314: a block at the head of the queue whose fetch and checks succeed starts, a `vloop` of no elements or of
vl = 0 only leaves `xstop`; a block that a trap stopped and whose words the hart no longer holds is fetched again and goes on where it
stood; a block of a user whose vector state is not in the slot traps with cause 0x07. The next strip of a loop sets `sb`
and `vl`, and the exit of the strip is resolved. Choices of the model in it: notes/assumptions/26.md. -/
def Obligations.BlocksAndStripsStart : Prop :=
  ∀ (s : State) (e : QEntry) (rest : List QEntry) (t : Word) (count : Option Word) (ws : List (BitVec 64)),
    let h := s.hart
    let r := h.sr
    (AtHead s e rest → e.kind = .block t count → (e.sup = true ∨ r.vown = r.savep) → BlockAt s t ws →
      let ctx (n : Word) (i : Nat) : LoopCtx := .start e t ws i r.vl r.sb n
      ∃ t1, exec (.blockAtQueueHead h.key) s = .next t1 ∧ t1 = fetchedInto { s with hart := match count with
        | none => { h with queue := rest, ctx := some (ctx 0 1) }
        | some n =>
          if r.vl = 0 ∨ n = 0 then { h with queue := rest, sr := { r with xstop := r.sb + n } }
          else { h with queue := rest, ctx := some (ctx n 0) } } t1)
    ∧ (∀ c, h.phase = .run → h.ctx = some c → c.words = [] → (c.entry.sup = true ∨ r.vown = r.savep) → BlockAt s c.base ws →
      ∃ t1, exec (.blockAtQueueHead h.key) s = .next t1 ∧ t1 = fetchedInto (inBlock s { c with words := ws }) t1)
    ∧ (AtHead s e rest → e.kind = .block t count → e.sup = false → r.vown ≠ r.savep → Idle s → Between s → r.status.blk = false →
      e.mark = false → r.tvec ≠ 0 →
      exec (.blockAtQueueHead h.key) s = .next (held s 0x07 r.vown t none (e :: rest) false))
    ∧ ∀ c, h.phase = .run → h.ctx = some c → c.words ≠ [] → c.threads = none → c.owed = [] → c.idx = 0 →
      let at_ := BitVec.ofNat 64 c.k * c.g
      let s2 := inBlock { s with hart := { h with sr := { r with
          sb := c.b0 + at_, vl := BitVec.ofNat 64 (min c.g.toNat (c.n - at_).toNat) } } } (c.fresh 1)
      let left := (c.words.drop 1).any fun w => w.extractLsb' 56 8 == 0xA1#8
      let lim := min (min c.g.toNat (c.n - at_).toNat) 8192
      let known (clk : Clock) (c : LoopCtx) : State :=
        inBlock { s2 with hart := { s2.hart with sr := { s2.hart.sr with
          vclk := clkPut (clkMerge r.vclk clk) h.id.did (clkAt r.vclk h.id.did) } } } c
      let resolves (x : M.Exit) : Prop := Answers s (do
        M.modSr fun _ => s2.hart.sr
        M.modHart fun h => { h with ctx := s2.hart.ctx }
        M.resolveExit (lim + 1) lim) x s2
      (left = false → exec (.vloopStrip h.key) s = .next s2)
      ∧ (∀ x clk, left = true → resolves (.resolved x clk) → exec (.vloopStrip h.key) s
        = .next (known clk { c.fresh 1 with stop := x.stop, taken := x.taken, seen := x.seen, resolved := true }))
      ∧ (∀ x clk, left = true → resolves (.trap x clk) → exec (.vloopStrip h.key) s
        = .next (known clk { c.fresh 1 with
            taken := x.taken, seen := x.seen,
            pass := some { undo := h.vec, stores := [], counts := [], owed := [], looked := true } }))

/-- R19, R51, R104, R161, R172, R173: `vsetl`, `mxon`, `mxoff` and a state write take effect at their queue position; a lane group runs
the word that it picks, round-robin, among those at which its element threads stand, for those elements. Choices of the model in it: notes/assumptions/24.md. -/
def Obligations.QueuedOperationsAndThreadsTakeEffect : Prop :=
  ∀ (s : State) (e : QEntry) (rest : List QEntry),
    let h := s.hart
    let r := h.sr
    let i := Instr.queuePositionEffect h.key
    let cap (v : Word) : Word := BitVec.ofNat 64 (min v.toNat (1024 * min r.vgrp.n h.id.cap / (r.sew.bits / 8)))
    let writes (v : Word) : List (Nat × SRegs) :=
      [(0x010, { r with vl := cap v }), (0x013, { r with sb := v }), (0x014, { r with estart := v }), (0x015, { r with xstop := v }),
       (0x030, { r with seed := v }), (0x031, { r with stag := v.setWidth 16 })]
    (AtHead s e rest → Idle s →
      (∀ vl sew grp, e.kind = .setl vl sew grp → (r.mmode = true → grp = .g1) →
        exec i s = .next (popped s rest { r with vl := vl, sew := sew, vgrp := grp }))
      ∧ (e.kind = .mxon → r.mmode = true → exec i s = .next (popped s rest r))
      ∧ (e.kind = .mxon → r.mmode = false → Leads s i fun t =>
        (∃ v, t = { popped s rest { r with vl := 128, vgrp := .g1, sew := .w16, mmode := true } with
          hart := { (popped s rest { r with vl := 128, vgrp := .g1, sew := .w16, mmode := true }).hart with
            vec := { h.vec with v := v }, tile := { h.tile with svl := r.vl, sgrp := r.vgrp, ssew := r.sew } },
          fresh := t.fresh })
        ∧ ∀ k < 28, t.hart.vec.reg k = h.vec.reg k)
      ∧ (e.kind = .mxoff → exec i s = .next (popped s rest (if r.mmode
        then { r with vl := h.tile.svl, vgrp := h.tile.sgrp, sew := h.tile.ssew, mmode := false } else r)))
      ∧ (∀ n v x, e.kind = .write n v → (n, x) ∈ writes v → exec i s = .next (popped s rest x))
      ∧ (∀ v g, e.kind = .write 0x011 v → v.toNat = g.n → (r.mmode = true → v = 1) →
        exec i s = .next (popped s rest { r with vgrp := g }))
      ∧ (∀ v g, e.kind = .write 0x012 v → v.toNat = g.bits → exec i s = .next (popped s rest { r with sew := g })))
    ∧ ∀ (c : LoopCtx) (k g p : Nat) (ts : List Thread) (f : VWord) (t1 : State), h.phase = .run → h.ctx = some c → c.words ≠ [] →
      c.threads = some (k, ts) → c.nextPc r.sew.bits g = some p →
      let es := standAt s ts g p
      let m := h.vec.mask (f.va.toNat % 8)
      let go (t : Thread) : Thread := if t.e ∈ es then { t with idx := t.idx + 1 } else t
      (decodeVector (c.words.getD p 0) = .ok (.lbr f) →
        exec (.elementThreadIssue h.key g p) s = .next (inBlock s { c.pick g p with idx := p, threads := some (k, ts.map fun t =>
          if t.e ∈ es then { t with idx := if m.getLsbD t.e then branchTarget f t.idx else t.idx + 1 } else t) }))
      ∧ (∀ i core, decodeVector (c.words.getD p 0) = .ok i → regionCore i = some core →
        Answers s (do
          M.modHart fun h => { h with ctx := h.ctx.map fun c => c.pick g p }
          M.goTo p
          let env ← M.threadFrame es
          core env) ⟨⟩ t1 →
        exec (.elementThreadIssue h.key g p) s = .next { t1 with hart := { t1.hart with
          ctx := t1.hart.ctx.map fun c => { c with threads := c.threads.map fun q => (q.1, q.2.map go) } } })

/-! ## Events of the two images and of the in-place engines -/

/-- R189 to R191, R194, R201, R286, R338, R345, R346: a page settle writes the bytes that it includes into the arrays and advances the
count of its page by one; the drop of a renew and an eviction write dirty bytes down and advance no count; the host answers a snoop, or
the snoop expires and poisons its line; a scrub error poisons its line; a page migrates with both images, its count and every leaf that
names it, or stays and its new frame is used no more. Choices of the model in it: notes/assumptions/16.md, 17.md, 20.md, 64.md, 95.md. -/
def Obligations.PageEventsMoveLinesAndCounts : Prop :=
  ∀ (s : State) (frame line la : Nat) (rest : List Nat), s.cells.wf = true →
    let quietFrame (f : Nat) : Prop := ∀ a ∈ s.host.snoops, a / 4096 ≠ f
    (∀ g, s.img.settling.find? (fun g => g.frame == frame && !g.down) = some g → quietFrame frame →
      (∀ l ∈ s.img.cache, l.addr / 4096 = frame → l.poison = false) → (∀ p ∈ g.lines, p.1 / 4096 = frame ∧ p.1 ∉ s.img.poison) →
      Leads s (.pageSettleComplete frame) fun t =>
        countAt t frame = countAt s frame + 1 ∧ (∀ f, f ≠ frame → countAt t f = countAt s f)
        ∧ (∀ p ∈ g.lines, ∀ i b, s.retiredLine p.1 = false → p.2.getLsbD i = true → DirtyByte s p.1 i b →
          t.cells.read (64 * p.1 + i) = b)
        ∧ (∀ pa, isHostMem pa = true → liveByte t true pa = liveByte s true pa)
        ∧ t.img.settling.length = (if g.renew then s.img.settling.length else s.img.settling.length - 1)
        ∧ t.hart = s.hart ∧ t.others = s.others)
    ∧ (∀ g, s.img.settling.find? (·.down) = some g → quietFrame g.frame →
      (∀ l ∈ s.img.cache, l.addr / 4096 = g.frame → l.level ≠ .host) →
      Leads s .renewDrop fun t =>
        (∀ l ∈ t.img.cache, l.addr / 4096 ≠ g.frame) ∧ t.counts = s.counts
        ∧ (∀ a i b, a / 4096 = g.frame → DirtyByte s a i b → t.cells.read (64 * a + i) = b)
        ∧ t.img.settling.length = s.img.settling.length - 1
        ∧ (s.hart.wait = .renew [g.frame] → g.renew = true → (∀ h ∈ s.others, h.key ≠ s.hart.key) →
          (s.img.settling.filter fun k => k.frame == g.frame && k.renew).length ≤ 1 →
          t.hart.wait = .none ∧ t.hart.pc = s.hart.pc + 4))
    ∧ (∀ l, findLine s.img.cache line = some l → l.level ≠ .host → l.level ≠ .l3 → l.key ≠ none → isHostMem (64 * line) = true →
      s.cacheRoom line .l3 = true → exec (.eviction line true) s = .next { s with img := { s.img with cache := putLine s.img.cache { l with level := .l3 } } })
    ∧ (∀ l, findLine s.img.cache line = some l → l.level ≠ .host → (l.dirty = 0 ∨ s.retiredLine line = false) →
      Leads s (.eviction line false) fun t =>
        findLine t.img.cache line = none ∧ t.counts = s.counts
        ∧ (∀ i b, DirtyByte s line i b → t.cells.read (64 * line + i) = b)
        ∧ ∀ pa, (pa < 64 * line ∨ 64 * line + 64 ≤ pa) → t.cells.read pa = s.cells.read pa)
    ∧ (∀ d, (List.range 8).find? (fun d => decide ((s.img.hostOrder.filter fun a => homeOf (64 * a) == d).length ≥ 1048576)) = some d →
      (s.img.hostOrder.filter fun a => homeOf (64 * a) == d).find? (fun a => !s.host.snoops.contains a) = some la →
      exec .hostDirectoryRecall s = .next { s with host := { s.host with snoops := insertNat s.host.snoops la } })
    ∧ (s.host.snoops = la :: rest →
      (s.host.linkUp = true → s.cacheRoom la .l2 = true → Leads s .backInvalidationResponse fun t =>
        t = { s with
          host := { s.host with snoops := rest },
          img := { s.img with
            hostOrder := s.img.hostOrder.filter (· ≠ la),
            cache := if (findLine s.img.cache la).map (·.level) = some .host
              then s.img.cache.map fun l => if l.addr = la then { l with level := .l2 } else l else s.img.cache },
          work := t.work })
      ∧ Leads s .bisnpTimeout fun t =>
        t.livePoison la = true ∧ Journaled s t ∧ t.counts = s.counts ∧ (∀ a ∈ t.host.snoops, a ∈ rest))
    ∧ (isHostMem (64 * line) = true → line ≠ entryPa s / 64 → line ≠ (entryPa s + 31) / 64 →
      Leads s (.arrayScrubError line) fun t => line ∈ t.img.poison ∧ Journaled s t ∧ t.counts = s.counts)
    ∧ ∀ (pte : Nat) (l : Leaf), s.leafAt pte = some l →
      let src := l.base / 2 ^ 18
      let leaves := s.leavesOn src
      l ∈ leaves → s.mayMove l src frame = true → (∀ k ∈ leaves, k.pte % 8 = 0) → (∀ a ∈ s.img.poison, a / 4096 ≠ src) →
      (s.img.cache.map (·.addr)).Nodup →
      Leads s (.pageMigration pte frame) fun t =>
        (frame ∈ t.img.badFrames ∧ Journaled s t ∧ t.counts = s.counts)
        ∨ (countAt t frame = countAt s src ∧ countAt t src = 0
          ∧ (∀ i < 2 ^ 18, t.cells.read (frame * 2 ^ 18 + i) = s.cells.read (l.base + i)
            ∧ liveByte t true (frame * 2 ^ 18 + i) = liveByte s true (l.base + i))
          ∧ ∀ k ∈ leaves, bits (t.liveVal k.pte 8) 47 18 = frame % 2 ^ 30)

/-- R198, R202, R209, R264, R343, R347: an add request is applied as one read-modify-write of its settled word; each engine runs its oldest
request: a reduction settles its sources first where it is asked to, and then writes the tree over its sources into its destination and
advances the counts of the pages written; a merge copies its remote buffers before that, piece by piece; a macro announces, runs and ends its windows, and the third failed calibration in a row retires it; a bank unit that fails is
marked and reported. Choices of the model in it: notes/assumptions/14.md, 20.md, 22.md, 71.md, 112.md. -/
def Obligations.InPlaceUnitsWorkOnTheArrays : Prop :=
  ∀ (s : State) (die m k n : Nat),
    let key := die * 8192 + m
    let x := s.macroAt key
    let macros (y : MacroState) : State := { s with bank := { s.bank with macros := aput s.bank.macros key y } }
    let next (l : List (Nat × Reduction)) (d : Nat) (r : Reduction) : Prop := ((heads l).filter fun p => !p.2.waiting s) = [(d, r)]
    let mine (d : Nat) (p : Nat × Reduction) : Bool := p.1 == d
    let changed (l : List (Nat × Reduction)) (d : Nat) (r : Reduction) := changeFirst (mine d) (fun _ => (d, r)) l
    let hostFree (ps : List (Nat × Nat)) : Prop := ∀ la ∈ pieceLines ps, ∀ l, findLine s.img.cache la = some l → l.level ≠ .host
    (∀ r, (s.bank.reqs.filter fun r => !r.det)[n]? = some r → s.cells.wf = true → s.img.settling = [] → r.pa % 4 = 0 →
      s.arrayPoison (r.pa / 64) = false → bankOf r.pa ∉ s.bank.bfail →
      let old := wordAt s.cells.read r.pa 4
      Leads s (.bankAddApply n) fun t =>
        t.bank.reqs = s.bank.reqs.erase r ∧ t.counts = s.counts ∧ t.img.cache = s.img.cache
        ∧ t.cells.read = overlaid s.cells.read r.pa (toBytes 4 (if r.f32 then fmtF32.addRne old r.v.toNat else (old + r.v.toNat) % 2 ^ 32)))
    ∧ (∀ d r, next s.bank.bred d r → r.presettle = true → Leads s .bredReduction fun t =>
      t.bank.bred = changed s.bank.bred d { r with presettle := false, waits := M.sourceFrames r }
      ∧ t.cells = s.cells ∧ t.counts = s.counts
      ∧ t.img.settling.length = s.img.settling.length + (M.sourceFrames r).length)
    ∧ (∀ d r q ps, next s.bank.bred d r → r.presettle = false → r.journal = false → r.flagPa = none → r.clash false = false →
      s.cells.wf = true → s.img.settling = [] → r.n ≠ 0 → r.fmt < 3 →
      let w := redWidth r.fmt
      r.dst = [(q, r.n * w)] → r.srcs = ps.map (fun p => [(p, r.n * w)]) → q % w = 0 → (∀ p ∈ ps, p % w = 0) →
      (∀ p ∈ q :: ps, ∀ i < r.n * w, s.arrayPoison ((p + i) / 64) = false) →
      (∀ i < r.n * w, findLine s.img.cache ((q + i) / 64) = none) →
      Leads s .bredReduction fun t =>
        t.bank.bred = dropFirst (mine d) s.bank.bred
        ∧ (∀ e < r.n, wordAt t.cells.read (q + e * w) w
          = tree (redJoin r.op r.fmt) 0 (ps.map fun p => wordAt s.cells.read (p + e * w) w) % 2 ^ (8 * w))
        ∧ (∀ pa, (pa < q ∨ q + r.n * w ≤ pa) → t.cells.read pa = s.cells.read pa)
        ∧ ∀ f, countAt t f = if q / 2 ^ 18 ≤ f ∧ f ≤ (q + r.n * w - 1) / 2 ^ 18 then countAt s f + 1 else countAt s f)
    ∧ (∀ d r a b left, next s.bank.xmerge d r → nextCopy r.copies = some (a, b, left) →
      DieReady s d (homeOf a.pa) → DieReady s d d → s.windowShut d b.lines = [] → s.cells.wf = true →
      Leads s .xmergeReduction fun t => t.bank.xmerge = changed s.bank.xmerge d { r with copies := left } ∧ t.counts = s.counts
        ∧ ((∀ i < a.len, isHostMem (a.pa + i) = true ∧ isHostMem (b.pa + i) = true) →
          ∀ i < a.len, liveByte t true (b.pa + i) = liveByte s true (a.pa + i)))
    ∧ (∀ d r, next s.bank.xmerge d r → nextCopy r.copies = none → r.presettle = true → Leads s .xmergeReduction fun t =>
      t.bank.xmerge = changed s.bank.xmerge d { r with presettle := false, waits := M.sourceFrames r, copies := [] } ∧ t.counts = s.counts)
    ∧ (∀ d r, next s.bank.xmerge d r → nextCopy r.copies = none → r.presettle = false → hostFree r.dst →
      (∀ pa, r.flagPa = some pa → DieReady s d (homeOf pa)) →
      Leads s .xmergeReduction fun t => t.bank.xmerge = dropFirst (mine d) s.bank.xmerge ∧ ∀ f ∈ (if r.n = 0 then [r.dst0] else pieceFrames r.dst), countAt t f = countAt s f + 1)
    ∧ (die < 8 → m < 8192 → x.retired = false →
      (∀ start, x.announced = none → s.time.toNat + 1000000 ≤ start → start < 2 ^ 64 →
        exec (.calibrationAnnounce die m start) s = .next (macros { x with announced := some start }))
      ∧ (∀ at_, x.announced = some at_ → at_ ≤ s.time.toNat → x.window = false →
        exec (.macroCalibration die m true) s
          = .next (macros { x with announced := none, window := true, fails := 0, cal := x.cal + 1 })
        ∧ Leads s (.macroCalibration die m false) fun t =>
          t = { macros { x with announced := none, window := true, fails := x.fails + 1 } with
            work := if x.fails + 1 ≥ 3 then s.work ++ [.macroRetire die m] else s.work })
      ∧ Leads s (.macroRetire die m) fun t =>
        t.macroAt key = { x with retired := true, announced := none, window := false } ∧ t.counts = s.counts
        ∧ ∀ k, k ≠ key → t.macroAt k = s.macroAt k)
    ∧ (∀ p, s.bank.macros.find? (fun p => p.2.window) = some p → Leads s .calibrationWindowEnd fun t =>
      t.macroAt p.1 = { s.macroAt p.1 with window := false } ∧ ∀ j, j ≠ p.1 → t.macroAt j = s.macroAt j)
    ∧ (die < 8 → m < 32 → k < 32 → die * 1024 + m * 32 + k ∉ s.bank.bfail → Leads s (.bankUnitFail die m k) fun t =>
      t.bank = { s.bank with bfail := insertNat s.bank.bfail (die * 1024 + m * 32 + k) } ∧ Journaled s t ∧ (errsOf t die).uev = true)

/-! ## Events of the dispatchers -/

/-- R25, R28, R108, R271, R273 to R281, R289, R295: a slot takes the bytes that the host writes through the PF or the function of its queue,
unless its record is accepted or waits; a latch accepts the record of the next slot in order, and waits out of its turn or where the module
enters Shuttered; a dependency is met; one gang of the highest-ranked launch is admitted where it goes, each of its harts in the entry state,
and of a co-resident launch more with it; a preload is staged and nothing of it shows. Choices of the model in it:
notes/assumptions/46.md, 47.md, 48.md, 49.md, 50.md, 68.md, 109.md. -/
def Obligations.LaunchesAreAcceptedAndAdmitted : Prop :=
  ∀ (s : State) (fn die q k : Nat),
    let n := 4096 * die + q
    let queue := s.queueOf n
    let slot := (aget s.disp.slots (n * 64 + k)).getD 0
    let bare (l : Launch) : Launch := { l with waited := 0 }
    (∀ off bytes, s.hostReaches = true → slotExists die q k = true → off + bytes.length ≤ 127 →
      exec (.launchSlotWrite ⟨fn, die⟩ q k off bytes) s
        = .next (if (fn ≠ 64 ∧ queue.vf ≠ some fn) ∨ queue.vf = none ∨ k ∈ queue.busy ∨ k ∈ queue.latched then s
          else { s with disp := { s.disp with
            slots := aput s.disp.slots (n * 64 + k) (putRecordField slot off bytes.length (ofBytes bytes)) } }))
    ∧ (∀ vf, s.hostReaches = true → slotExists die q k = true → queue.vf = some vf → (fn = 64 ∨ fn = vf) → k ∉ queue.busy →
      k ∉ queue.latched → (s.host.power = .entering ∨ k ≠ queue.next ∧ queue.next ∉ queue.latched) →
      Leads s (.launchLatch ⟨fn, die⟩ q k) fun t =>
        (t.queueOf n).latched.contains k = true ∧ (t.queueOf n).next = queue.next ∧ (t.queueOf n).busy = queue.busy
        ∧ t.disp.launches = s.disp.launches ∧ t.disp.jhead = s.disp.jhead
        ∧ recB ((aget t.disp.slots (n * 64 + k)).getD 0) 127 127 ≠ 0 ∧ t.hart = s.hart ∧ t.cells = s.cells)
    ∧ (∀ vf, s.hostServed = true → slotExists die q k = true → queue.vf = some vf → (fn = 64 ∨ fn = vf) → queue.busy = [] →
      k = queue.next → queue.latched = [] → (s.disp.queues.map (·.q)).Nodup → s.vfEnabled vf = true →
      (∀ v, 1 ≤ v → v ≤ 255 → let r := putRecordField slot 127 1 v
        recordOk r vf = true ∧ s.everFits die r = true ∧ ∀ i < 4, s.depLost (recDep r i) = false) →
      Leads s (.launchLatch ⟨fn, die⟩ q k) fun t =>
        (∃ v l, 1 ≤ v ∧ v ≤ 255 ∧ t.disp.launches.map bare = s.disp.launches.map bare ++ [l] ∧ l.id = s.disp.nextId ∧ l.die = die
          ∧ l.num = 4096 + 64 * q + k ∧ l.q = n ∧ l.record = putRecordField slot 127 1 v ∧ l.admitted = 0 ∧ l.retired = 0
          ∧ l.stopped = false ∧ l.status = 0)
        ∧ (t.queueOf n).busy = [k] ∧ (t.queueOf n).next = (k + 1) % 64 ∧ (t.queueOf n).latched = [] ∧ Journaled s t)
    ∧ (∀ l, s.disp.launches.find? (fun l => l.deps.any fun d => d != .met && s.depMet d) = some l →
      Leads s .dependencyMet fun t =>
        (∃ clk : Launch → Clock, t = { counted s with
          disp := { (counted s).disp with launches := (counted s).disp.launches.map fun k =>
            if k.id = l.id then { k with deps := k.deps.map fun x => if s.depMet x then .met else x, clk := clk k } else k },
          fab := t.fab, work := t.work })
        ∧ .gangAdmit l.die ∈ t.work)
    ∧ (∀ c, s.choose die = some c →
      exec (.preloadStage die) s = .next { s with disp := { s.disp with staged := aput s.disp.staged die c.launch.id } })
    ∧ ∀ (c : Choice) (hids : List Nat) (o : DieOcc), s.host.power = .run → (ranked s).choose die = some c →
      let l := c.launch
      let r := l.record
      let d := die
      let tenant := s.tenantOf (recVf r)
      let gid := s.freeGid d
      let clk := clkPut (clkMerge (s.die d).clock l.clk) d (clkAt (s.die d).clock d)
      s.rerunAhead die (recPriority r) = false → (l.admitted ≠ 0 ∨ gangsFit r tenant (gangsAtOnce r) (s.rooms l) = true) →
      s.nextPlace l = some (d, hids, o) → recPreload r = 0 → hids.Nodup → (s.harts.map Hart.key).Nodup →
      (s.disp.launches.map (·.id)).Nodup →
      (recCo r = true → (∀ h ∈ s.harts, h.sr.vown = 0) → Leads s (.gangAdmit die) fun t =>
        ∃ n, 1 ≤ n ∧ n ≤ recGangs r
          ∧ t.disp.launches = (counted s).disp.launches.map fun k => if k.id = l.id then { k with admitted := k.admitted + n } else k)
      ∧ (gangsAtOnce r = 1 → (∀ hid ∈ hids, ∀ h, s.hartOf (384 * d + hid) = some h → h.sr.vown = 0) →
      Leads s (.gangAdmit die) fun t =>
        (∀ i hid, hids[i]? = some hid → ∃ h, t.hartOf (384 * d + hid) = some h ∧ h.phase = .run ∧ h.pc = BitVec.ofNat 64 (recEntry r)
          ∧ h.reg 1 = BitVec.ofNat 64 (recArg r) ∧ h.reg 2 = BitVec.ofNat 64 l.admitted ∧ h.reg 3 = BitVec.ofNat 64 (recGangs r)
          ∧ h.reg 4 = BitVec.ofNat 64 i ∧ h.reg 5 = BitVec.ofNat 64 l.num
          ∧ h.reg 30 = BitVec.ofNat 64 (recStack r + (l.admitted * recHarts r + i + 1) * 65536)
          ∧ (∀ x, x ∉ [1, 2, 3, 4, 5, 30] → h.reg x = 0)
          ∧ h.sr = { SRegs.reset with seed := BitVec.ofNat 64 (recSeed r), vclk := clk }
          ∧ h.vec = .zero ∧ h.queue = [] ∧ h.ctx = none ∧ h.held = none ∧ h.wait = .none
          ∧ h.id.gid = gid ∧ h.id.gidx = i ∧ h.id.gsize = recHarts r ∧ h.id.tenant = tenant ∧ h.id.vf = recVf r)
        ∧ (∃ g ∈ t.disp.gangs, g.die = d ∧ g.gid = gid ∧ g.launch = l.id ∧ g.index = l.admitted ∧ g.size = recHarts r ∧ g.phase = .run
          ∧ g.hids = hids ∧ g.harts = (hids.map fun h => 384 * d + h) ∧ g.charge = 0 ∧ g.since = s.time.toNat
          ∧ g.cycleAt = s.cycle.toNat)
        ∧ (t.disp.launches = (counted s).disp.launches.map fun k => if k.id = l.id then { k with admitted := k.admitted + 1 } else k)
        ∧ t.disp.jhead = s.disp.jhead + (if l.admitted = 0 then 1 else 0)
        ∧ ∀ key h, (∀ hid ∈ hids, key ≠ 384 * d + hid) → s.hartOf key = some h → ∃ g, t.hartOf key = some g ∧ g.pc = h.pc ∧ g.sr = h.sr
          ∧ g.vec = h.vec ∧ g.phase = h.phase)

/-- R26, R29 to R31, R281, R282, R312, R313, R316, R371: a gang retires with its last hart and a launch with its last gang, its entry
first and then its flag; a gang over its budget is pre-empted; a hart of it is saved by a context walk or stays in its slot; a walk goes
on from its record; a gang that is ready again runs on. Choices of the model in it: notes/assumptions/51.md, 52.md, 53.md, 56.md. -/
def Obligations.GangsRetireAndAreRestored : Prop :=
  ∀ (s s1 : State),
    let gangAt (t : State) (g : Gang) := t.disp.gangs.find? fun k => k.die == g.die && k.gid == g.gid
    let c := counted s
    (∀ g, c.disp.gangs.find? (fun g => decide (g.halted ≥ g.size)) = some g →
      Leads s .gangRetire fun t =>
        t = { c with
          disp := { c.disp with
            gangs := c.disp.gangs.filter fun k => !(k.die == g.die && k.gid == g.gid),
            launches := c.disp.launches.map fun l =>
              if l.id = g.launch then { l with retired := l.retired + 1, cycles := l.cycles + g.charge } else l },
          work := t.work }
        ∧ ∀ l, s.disp.launches.find? (fun l => l.id == g.launch) = some l → l.retired + 1 ≥ l.admitted →
          (l.stopped = true ∨ l.admitted ≥ recGangs l.record) → .launchRetire ∈ t.work)
    ∧ (∀ l, s.disp.launches.find? (·.over) = some l →
      let gone (t : State) : Prop := (∀ k ∈ t.disp.launches, k.id ≠ l.id)
        ∧ (l.num < 4096 → (∀ k ∈ s.disp.launches, k.id ≠ l.id → k.die = l.die → k.num ≠ l.num) → (t.poolOf l.die l.num).armed = false)
      let none_ : Prop := ∀ r ∈ s.bank.reqs, r.det = true → r.launch ≠ l.id
      (l.journaled = false → none_ → (l.status ≠ 0 ∨ recFlag l.record = 0) →
        Leads s .launchRetire fun t => gone t ∧ Journaled s t ∧ t.counts = s.counts)
      ∧ (l.journaled = false → none_ → l.status = 0 → recFlag l.record ≠ 0 →
        Leads s .launchRetire fun t => Journaled s t ∧ .launchRetire ∈ t.work ∧ t.counts = s.counts
          ∧ t.disp.launches = c.disp.launches.map fun k => if k.id = l.id then { k with journaled := true } else k)
      ∧ ∀ a, l.journaled = true → s.cells.wf = true →
        let vf := recVf l.record
        let va := recFlag l.record
        va % 8 = 0 → Fresh s vf va → s.checkLeaf (s.tenantOf vf) va 8 .store (s.walk vf va) = .ok a →
        DieReady s l.die a.leaf.home → isHostMem a.pa = true → a.pa % 8 = 0 → s.tailAt a.pa = none →
        Leads s .launchRetire fun t => gone t ∧ t.disp.jhead = s.disp.jhead
          ∧ ∀ pa, isHostMem pa = true →
            liveByte t true pa = overlaid (liveByte s true) a.pa (toBytes 8 (recFlagV l.record)) pa)
    ∧ (∀ die gid cycles g l, s.disp.gangs.find? (fun g => g.die == die && g.gid == gid) = some g →
      (s.disp.gangs.map fun g => (g.die, g.gid)).Nodup → s.disp.launches.find? (fun l => l.id == g.launch) = some l → g.phase = .run →
      cycles = g.charge + (s.cycle.toNat - g.cycleAt) → cycles > recBudget l.record →
      Leads s (.budgetOverrun die gid cycles) fun t =>
        (∃ x, gangAt t g = some x ∧ x = { g with charge := cycles, since := s.time.toNat, cycleAt := s.cycle.toNat, phase := .stopping 0 })
        ∧ Journaled s t ∧ .preemption ∈ t.work)
    ∧ (∀ g h w, s.disp.gangs.find? (fun g => s.canSave g && (s.members g).any fun h => h.phase == .run) = some g → gangAt s g = some g →
      (s.members g).find? (fun h => h.phase == .run) = some h → g.phase = .stopping w →
      (h.walks = false → Leads s .preemption fun t =>
        t.hart = { endWait h with phase := .parked }
        ∧ ∃ x, gangAt t g = some x ∧ x = { g with
          reserved := true, charge := x.charge, since := x.since, cycleAt := x.cycleAt,
          phase := if (s.members g).all (fun k => k.phase == .parked || k.key == h.key) then (if g.killed then .ready else .saved w)
            else g.phase })
      ∧ (h.walks = true → h.sr.status.walk = false →
        let s0 := { (Upd.focus h.key).apply s with hart := endWait h }
        let records := (endWait h).contextRecords g.barrier.toNat
        let lies (p : Nat × List Byte) (a : Acc) : Prop := PageOk s0 (recAddr h.sr.savep p.1) 64 .store a
        AreaTakes s0 0 g.barrier.toNat →
        Leads s .preemption fun t =>
          t.hart.phase = .halted ∧ t.hart.vec = h.vec ∧ t.hart.sr.vown = h.sr.vown
          ∧ (s.cells.wf = true → ∀ p ∈ records, ∀ a, lies p a → isHostMem a.pa = true → (∀ k < 8, s.tailAt (a.pa + 8 * k) = none) →
            (∀ q ∈ records, ∀ c, lies q c → q.1 ≠ p.1 → c.pa ≠ a.pa) → ∀ i < 64, liveByte t true (a.pa + i) = p.2.getD i 0)
          ∧ ∃ x, gangAt t g = some x ∧ x.harts = g.harts.filter (· ≠ h.key) ∧ x.areas = g.areas ++ [(h.id.gidx, h.sr.savep)]))
    ∧ (∀ g h r, s.harts.find? (fun h => match h.phase with | .saving _ => true | _ => false) = some h → h.phase = .saving r →
      s.disp.gangs.find? (fun g => g.die == h.id.did && g.gid == h.id.gid) = some g → s.hartOf h.key = some h →
      h.walks = true → h.sr.status.walk = false →
      (AreaTakes ((Upd.focus h.key).apply s) r g.barrier.toNat → Leads s .contextWalkRetry fun t =>
        t.hart.phase = .halted ∧ t.hart.vec = h.vec ∧ t.hart.sr.vown = h.sr.vown
        ∧ ∃ x, gangAt t g = some x ∧ x.harts = g.harts.filter (· ≠ h.key) ∧ x.areas = g.areas ++ [(h.id.gidx, h.sr.savep)])
      ∧ (Answers s (do
        M.focus h.key
        M.needWindow h.id.did 4096
        M.areaReady h.sr.savep
        M.saveContext r g.barrier.toNat) true s1 →
      Leads s .contextWalkRetry fun t =>
        t = { s1 with disp := t.disp, place := t.place, work := t.work } ∧ t.hart.phase = .halted
        ∧ ∃ x, gangAt t g = some x ∧ x.harts = g.harts.filter (· ≠ h.key) ∧ x.areas = g.areas ++ [(h.id.gidx, h.sr.savep)]))
    ∧ ∀ g l places, s.host.power = .run → s.nextBack = some (g, l, places) → gangAt s g = some g →
      (s.choose g.die).any (fun c => decide (recPriority c.launch.record > recPriority l.record)) = false →
      (g.areas = [] → g.killed = false →
        (∀ q < 24, ((s.harts.filter fun h => h.id.did == g.die && h.id.hid / 16 == q).map fun h => max h.sr.mgrant.toNat h.id.rows).sum
          ≤ 512) →
        Leads s .gangResume fun t =>
          (∃ x, gangAt t g = some x ∧ x.phase = .run ∧ x.reserved = false ∧ x.harts = g.harts)
          ∧ (∀ k ∈ g.harts, ∀ h, s.hartOf k = some h → h.phase = .parked →
            ∃ h', t.hartOf k = some h' ∧ h'.phase = .run ∧ h'.pc = h.pc ∧ h'.sr = h.sr ∧ h'.vec = h.vec ∧ h'.queue = h.queue
              ∧ ∀ r, h'.reg r = h.reg r)
          ∧ t.cells = s.cells ∧ t.counts = s.counts)
      ∧ (Answers s (do
          M.chargeQueues
          M.each g.areas fun p => M.dieArea g.die (recVf l.record) (s.tenantOf (recVf l.record)) p.2 .gangResume
          let back ← M.restoreMembers g l .gangResume places
          M.gangBack g
          return back && (← M.rowsFit g.die)) true s1 →
        Leads s .gangResume fun t => t = { s1 with work := t.work })

/-- R32, R106, R111, R196, R302, R319: a killed hart goes on at `kexit` or retires; a trap enters the handler at an instruction boundary;
`idle`, `swait` and the gang barrier let their harts go on. Choices of the model in it: notes/assumptions/34.md. -/
def Obligations.WaitsEndAndHartsAreKilled : Prop :=
  ∀ (s : State),
    (∀ k c h, s.hartOf k = some h → slotTaken h = true →
      let g := s.disp.gangs.find? fun g => g.die == h.id.did && g.gid == h.id.gid
      Leads s (.kill k c) fun t =>
        t.hart.key = k ∧ (∀ r, t.hart.reg r = h.reg r) ∧ t.hart.sr.cause = 0x13 ∧ t.hart.sr.tval = c.setWidth 64
        ∧ t.hart.sr.status.sv = true ∧ t.hart.sr.vl = 0 ∧ t.hart.sr.mgrant = 0 ∧ t.hart.sr.mmode = false ∧ t.hart.sr.vown = 0
        ∧ t.hart.queue = [] ∧ t.hart.ctx = none ∧ t.hart.held = none ∧ t.hart.aside = none ∧ t.hart.wait = .none
        ∧ t.hart.tile = .reset ∧ (∀ x ∈ t.hart.streams.toList, x.xfer = none)
        ∧ t.cells = s.cells ∧ t.counts = s.counts
        ∧ (h.sr.kexit ≠ 0 → t.hart.pc = h.sr.kexit ∧ t.hart.phase = h.phase ∧ t.disp.gangs = s.disp.gangs)
        ∧ (h.sr.kexit = 0 → t.hart.phase = .halted ∧ ∀ x, g = some x →
          ∃ y, t.disp.gangs.find? (fun g => g.die == h.id.did && g.gid == h.id.gid) = some y ∧ y.halted = x.halted + 1 ∧ k ∉ y.harts)
        ∧ t.disp.launches = match g with
          | none => s.disp.launches
          | some x => s.disp.launches.map fun l =>
            if l.id = x.launch ∧ statusRank 0x13 < statusRank l.status then { l with status := 0x13 } else l)
    ∧ (∀ c v a vec, s.hart.phase = .run → Between s → s.hart.sr.tvec ≠ 0 →
      exec (.trapEntry s.hart.key c v a vec) s = .next (handled { s with hart := { s.hart with wait := .none } } c v a vec))
    ∧ (∀ c v a vec, s.hart.phase = .run → Between s → s.hart.sr.tvec = 0 → s.hart.sr.kexit ≠ 0 →
      Leads s (.trapEntry s.hart.key c v a vec) fun t =>
        t.hart.pc = s.hart.sr.kexit ∧ t.hart.sr.cause = 0x13 ∧ t.hart.sr.tval = c.setWidth 64 ∧ t.hart.x = s.hart.x)
    ∧ (s.hart.phase = .run → s.hart.wait = .idle → s.time.toNat ≥ s.hart.idleAt + 10000 →
      exec (.idleTimeout s.hart.key) s = .next (onward { s with hart := { s.hart with wait := .none } }))
    ∧ (∀ h rest, s.harts.filter (fun h => h.phase == .run && h.wait == .idle && h.watchHit) = h :: rest → s.hartOf h.key = some h →
      Leads s .idleWake fun t => t.hart = { h with wait := .none, pc := h.pc + 4 } ∧ t.cells = s.cells ∧ t.disp = s.disp)
    ∧ (∀ g, s.disp.gangs.find? (fun g => g.full && g.gathered s && (g.harts.filterMap s.hartOf).any fun h => h.wait == .barrier) = some g →
      g.harts.Nodup →
      let hs := (s.members g).filter fun h => h.wait == .barrier && h.phase == .run
      Leads s .barrierRelease fun t =>
        (∀ h ∈ hs, ∃ h', t.hartOf h.key = some h' ∧ h'.wait = .none ∧ h'.pc = h.pc + 4
          ∧ h'.sr = { h.sr with vclk := hs.foldl (fun c h => clkMerge c h.sr.vclk) (s.die g.die).clock } ∧ h'.vec = h.vec
          ∧ ∀ r, h'.reg r = h.reg r)
        ∧ (∀ x ∈ t.disp.gangs, x.die = g.die → x.gid = g.gid → x.barrier = s.haltedBits g)
        ∧ t.cells = s.cells)
    ∧ ∀ h rest f c, s.harts.filter (fun h => match h.wait with
          | .swait f t => h.phase == .run && countReached (s.countOf f) t
          | _ => false) = h :: rest → s.hartOf h.key = some h → h.wait = .swait f c →
      Leads s .swaitSatisfied fun t =>
        t.hart = { h with
          wait := .none, pc := h.pc + 4,
          sr := { h.sr with
            vclk := clkMerge (clkMerge h.sr.vclk (s.die (homeOf (f * 2 ^ 18))).clock) (s.die h.id.did).clock } }
        ∧ t.cells = s.cells ∧ t.counts = s.counts

/-! ## Events of the placement engine -/

/-- R248, R255 to R258, R363: at an interval boundary the load counters move to the previous interval, a new policy takes effect, the
streaks follow the loads, and the policy adds or drains a replica; a new replica is copied page by page and its target settled, and then it
waits for the next version; one whose source holds poison is given up. Choices of the model in it: notes/assumptions/72.md, 73.md, 74.md. -/
def Obligations.PolicyIntervalsAndReplicaCopies : Prop :=
  ∀ (s : State) (p : Policy) (x : Nat), s.engineRuns = true →
    let loadOf (x : Nat) : Nat := ((List.range 8).map fun d => ((aget (s.tableOf d).cur x).getD 0).toNat).sum
    let active := s.latest.active x
    let n := active.length
    let old := (aget s.place.streaks x).getD (0, 0)
    let hot := if n ≠ 0 ∧ loadOf x ≥ p.hot * n then min 255 (old.1 + 1) else 0
    let cold := if n ≠ 0 ∧ loadOf x ≤ p.cold * n then min 255 (old.2 + 1) else 0
    (s.time.toNat / 1000000 > s.place.interval →
      Leads s .policyInterval fun t =>
        t.place.interval = s.place.interval + 1 ∧ t.place.nextPolicy = none
        ∧ (t.place.policy = match s.place.nextPolicy with | some q => some q | none => s.place.policy)
        ∧ (∀ d < 8, t.tableOf d = { s.tableOf d with prev := (s.tableOf d).cur, cur := [] })
        ∧ t.place.occ = [] ∧ t.place.occSince = s.time.toNat ∧ t.hart = s.hart ∧ t.cells = s.cells ∧ t.counts = s.counts
        ∧ t.disp = (counted s).disp
        ∧ (t.place.policy = some p → s.host.power = .run → x < s.latest.experts →
          aget t.place.streaks x = (if hot = 0 ∧ cold = 0 then none else some (hot, cold))
          ∧ (∀ r last, cold ≥ p.hyst → n > 1 → (hot < p.hyst ∨ n ≥ p.maxRep) → active.getLast? = some (r, last) →
            (8 * x + r, { last with state := 2 }) ∈ t.place.pending ∧ .versionPublish ∈ t.work)
          ∧ ∀ first d r a ts, hot ≥ p.hyst → n < p.maxRep → (∀ y, y ≠ x → s.latest.active y = []) →
            active.head? = some first → s.freeIndex x = some r →
            ((counted s).idleDies p.idle).find? (fun d => !(s.latest.serving x).any (fun q => q.2.die == d)
              && !s.place.copying.any (fun c => c.expert == x && c.die == d)
              && !s.place.passed.any fun q => q.1 == x && q.2.1 == d) = some d →
            takeTarget d (p.kindFor first.2.weights) first.2.vf first.2.len s.place.targets = some (a, ts) →
            t.place.targets = ts ∧ .replicaCopy ∈ t.work
            ∧ t.place.copying = s.place.copying ++ [{
              expert := x, idx := r, die := d, weights := p.kindFor first.2.weights, vf := first.2.vf, src := first.2.base, dst := a,
              len := first.2.len, at_ := 0 }]))
    ∧ (∀ c src dst, s.place.copying.find? (fun c => decide (c.at_ < c.len)) = some c → RangeOf s c.vf .load c.src c.len src →
      RangeOf s c.vf .store c.dst c.len dst → s.targetBad dst ≠ some 0x15 →
      ∀ a b, firstChunk (dropSpans c.at_ src) (dropSpans c.at_ dst) = some (a, b) →
        (s.firstPoison a.pa a.len = none → s.cells.wf = true → DieReady s (homeOf a.pa) (homeOf b.pa) →
          s.windowShut (homeOf a.pa) b.lines = [] →
          Leads s .replicaCopy fun t =>
            (∀ i < a.len, weightByte b.ww ((b.pa + i) % 64) (liveByte t b.ww (b.pa + i))
                = weightByte b.ww ((b.pa + i) % 64) (liveByte s a.ww (a.pa + i))
              ∧ (isHostMem (b.pa + i) = true → liveByte t b.ww (b.pa + i) = liveByte s a.ww (a.pa + i)))
            ∧ (∀ q, isHostMem q = true → (q < b.pa ∨ b.pa + a.len ≤ q) → liveByte t true q = liveByte s true q)
            ∧ t.place = { s.place with copying := s.place.copying.map fun k =>
              if k.expert = c.expert ∧ k.idx = c.idx then
                { k with at_ := if c.at_ + a.len ≥ c.len then k.len else k.at_ + a.len }
              else k }
            ∧ t.counts = s.counts ∧ .replicaCopy ∈ t.work
            ∧ (c.at_ + a.len ≥ c.len → ∀ f ∈ pieceFrames (dst.map Span.range), ∃ g ∈ t.img.settling, g.frame = f ∧ g.renew = false))
        ∧ ((s.firstPoison a.pa a.len).isSome = true → Leads s .replicaCopy fun t =>
          t.place.copying = s.place.copying.filter (fun k => !(k.expert == c.expert && k.idx == c.idx)) ∧ Journaled s t
          ∧ t.place.passed = s.place.passed ++ [(c.expert, c.die, s.place.policy.elim 1 (·.hyst))]
          ∧ ∀ g ∈ t.place.targets, g.die = c.die → g.vf = c.vf → ∀ u ∈ g.used, u.1 ≠ c.dst))
    ∧ ∀ c dst, s.place.copying = [c] → c.at_ ≥ c.len → RangeOf s c.vf .store c.dst c.len dst → s.img.settling = [] →
      s.targetBad dst = none →
      Leads s .replicaCopy fun t =>
        t.place = { s.place with
          copying := [], pendingX := max s.place.pendingX (c.expert + 1),
          pending := s.place.pending ++ [(8 * c.expert + c.idx,
            { base := c.dst, die := c.die, weights := c.weights, state := 1, len := c.len, vf := c.vf })] }
        ∧ .versionPublish ∈ t.work ∧ t.cells = s.cells

/-- R253, R257, R259, R260, R263, R365: a version is written bank by bank and then word by word, CD0 last, and journaled; 200 µs later a
draining replica is retired in the current banks; the slots that a tail store covers are served, rewritten or redirected before the store
performs. Choices of the model in it: notes/assumptions/75.md, 76.md, 78.md, 79.md. -/
def Obligations.VersionsArePublishedAndTokensServed : Prop :=
  ∀ (s : State),
    (s.engineRuns = true → s.place.publishing = none → (s.place.pending ≠ [] ∨ s.place.pendingX > s.current.experts) →
      exec .versionPublish s = .next { s with
        place := { s.place with publishing := some (0, s.nextBank), pending := [], pendingX := 0 }, work := s.work ++ [.versionPublish] })
    ∧ (∀ n b, s.engineRuns = true → s.place.publishing = some (n, b) →
      let d := (n + 1) % 8
      (n < 15 → s.alive d = false → exec .versionPublish s = .next { s with
        place := { s.place with publishing := some (n + 1, b) }, work := s.work ++ [.versionPublish] })
      ∧ (s.alive d = true → DieReady s 0 d →
        (n < 15 → Leads s .versionPublish fun t =>
          t.place.publishing = some (n + 1, b) ∧ t.tableOf d = (s.tableOf d).publish n b ∧ (∀ e, e ≠ d → t.tableOf e = s.tableOf e)
          ∧ .versionPublish ∈ t.work ∧ t.hart.pc = s.hart.pc ∧ (∀ r, t.hart.reg r = s.hart.reg r) ∧ t.cells = s.cells)
        ∧ (n = 15 → Leads s .versionPublish fun t =>
          t.place.publishing = none ∧ t.tableOf 0 = { s.tableOf 0 with version := b.version } ∧ (∀ e, e ≠ 0 → t.tableOf e = s.tableOf e)
          ∧ Journaled s t
          ∧ t.place.draining = (b.entries.filter fun e => e.2.state == 2).map fun e =>
            (e.1, (aget s.place.draining e.1).getD s.time.toNat))))
    ∧ (∀ x r at_, s.engineRuns = true → aget s.place.draining (8 * x + r) = some at_ → r < 8 → s.time.toNat ≥ at_ + 200000 →
      s.place.publishing = none →
      (∀ d < 8, s.alive d = true → DieReady s 0 d ∧ s.windowShut 0 ((List.range 8).filter s.alive).length = []) →
      Leads s (.gracePeriodEnd x r) fun t =>
        aget t.place.draining (8 * x + r) = none
        ∧ (∀ d < 8, s.alive d = true → (t.tableOf d).version = (s.tableOf d).version ∧ ∀ (v : BitVec 32) (k : Nat),
          let e := ((s.tableOf d).bankOf v).at k
          ((t.tableOf d).bankOf v).at k
            = if k = 8 * x + r ∧ e.state = 2 ∧ v.getLsbD 0 = (s.tableOf d).version.getLsbD 0 then { e with state := 3 } else e)
        ∧ (∀ d < 8, s.alive d = false → t.tableOf d = s.tableOf d)
        ∧ ∀ g ∈ t.place.targets, g.die = (s.latest.at (8 * x + r)).die → g.vf = (s.latest.at (8 * x + r)).vf →
          ∀ u ∈ g.used, u.1 ≠ (s.latest.at (8 * x + r)).base)
    ∧ ∀ w inbox, s.nextTail = some w → (s.tableOf w.die).inbox = some inbox → s.cells.wf = true → w.die < 8 →
      let pa := inbox + 64 * w.src
      let mine (k : TailStore) : Bool := k.die == w.die && k.src == w.src
      let rest := dropFirst mine s.place.tails
      pa % 64 = 0 → isHostMem pa = true → s.firstPoison pa 8 = none → w.off + w.bytes.length ≤ 8 →
      let bs := s.liveBytes pa 8 false
      let slots := (coveredSlots (BitVec.ofNat 64 (ofBytes bs)) (BitVec.ofNat 64 (ofBytes (w.onto bs)))).drop w.done
      let at_ (i : Nat) := inbox + 4096 + 256 * (512 * w.src + i)
      let memory (t : State) (m : Nat → Byte) : Prop := ∀ a, isHostMem a = true → liveByte t true a = m a
      let tailed (m : Nat → Byte) : Nat → Byte := overlaid m (pa + w.off) w.bytes
      ((∀ i ∈ slots, s.slotCase w.die (at_ i) = .skip ∨ s.slotCase w.die (at_ i) = .serve false) →
        Leads s .tailExamination fun t => memory t (tailed (liveByte s true)) ∧ t.place = { s.place with tails := rest })
      ∧ (∀ i, slots = [i] → s.slotCase w.die (at_ i) = .serve true →
        Leads s .tailExamination fun t => memory t (tailed (liveByte s true)) ∧ t.place.tails = rest
          ∧ t.tableOf w.die = { s.tableOf w.die with grace := (s.tableOf w.die).grace + 1 })
      ∧ (∀ i v, slots = [i] → s.slotCase w.die (at_ i) = .rewrite v → DieReady s w.die w.die → isHostMem (at_ i) = true →
        s.tailAt (at_ i) = none →
        Leads s .tailExamination fun t => memory t (tailed (overlaid (liveByte s true) (at_ i) (toBytes 4 v)))
          ∧ t.place = { s.place with tails := rest })
      ∧ (∀ i v, slots = [i] → s.slotCase w.die (at_ i) = .noReplica v → DieReady s w.die w.die → isHostMem (at_ i) = true →
        s.tailAt (at_ i) = none →
        Leads s .tailExamination fun t => Journaled s t ∧ t.place = { s.place with tails := rest }
          ∧ ∀ a, isHostMem a = true → (a < entryPa s ∨ entryPa s + 32 ≤ a) →
            liveByte t true a = tailed (overlaid (liveByte s true) (at_ i) (toBytes 4 v)) a)
      ∧ ∀ i v target there, slots = [i] → s.slotCase w.die (at_ i) = .redirect v target there → DieReady s w.die target →
        s.windowShut w.die 3 = [] →
        let tail := s.laneTail target w.die there
        let copy := there + 4096 + 256 * (512 * w.die + tail.toNat % 512)
        isHostMem (at_ i) = true → isHostMem copy = true → copy % 256 = 0 → at_ i % 256 = 0 → copy ≠ at_ i →
        (∀ k < 32, s.tailAt (copy + 8 * k) = none) → s.tailAt (at_ i) = none →
        let head := BitVec.ofNat 64 (s.liveVal (there + 512 + 64 * w.die) 8)
        ((tail - head).toNat < 512 → Leads s .tailExamination fun t =>
          memory t (overlaid (overlaid (liveByte s true) copy (toBytes 4 v ++ ((List.range 252).map fun j =>
            if j = 2 then 3 else liveByte s true (at_ i + 4 + j)))) (at_ i + 6) [2])
          ∧ (t.tableOf w.die).redirect = (s.tableOf w.die).redirect + 1 ∧ .tailExamination ∈ t.work
          ∧ t.place.tails = changeFirst mine (fun k => { k with done := k.done + 1 }) s.place.tails ++ [{
            die := target, src := w.die, off := 0, bytes := toBytes 8 (tail + 1).toNat, done := 0, writer := none,
            num := some (w.die, clkAt (s.die w.die).clock w.die + 2), post := some (w.die, w.src) }])
        ∧ ((tail - head).toNat ≥ 512 → Leads s .tailExamination fun t => memory t (liveByte s true)
          ∧ t.place = { s.place with tails := s.place.tails.filter (!mine ·) ++ s.place.tails.filter mine })

/-! ## Events of the causal fabric -/

/-- R236 to R245, R359: an access to another die goes out as a packet with the hart's clock as its stamp; a packet performs at its home
once its stamp is covered, and otherwise its die probes for what is missing; a flit accepted before and one of an older generation are
discarded; a response completes the access or traps; watermarks and probes carry coverage and echo. Choices of the model in it:
notes/assumptions/42.md, 43.md, 110.md. -/
def Obligations.PacketsPerformWhenTheyAreCovered : Prop :=
  ∀ (s : State) (src dst : Nat),
    let c := s.chan src dst
    let linked : Prop := src ≠ dst ∧ src < 8 ∧ dst < 8 ∧ s.alive src = true ∧ s.alive dst = true ∧ c.retraining = false
    let mark (d e : Nat) : Watermark := { w := clkAt (s.die d).clock d, echo := clkAt (s.die d).covered e, gen := (s.die d).gen }
    let new (p : Packet) : Prop := ¬ (c.held = 0 ∧ c.accepted p.seq = true) ∧ s.staleGen dst p.gen = false
    let met (p : Packet) : Clock := clkPut (clkMerge (s.die dst).clock p.stamp) dst (clkAt (s.die dst).clock dst)
    let memory (t : State) (m : Nat → Byte) : Prop := ∀ a, isHostMem a = true → liveByte t true a = m a
    let came (t : State) (p : Packet) (rest : List Packet) : Prop :=
      (t.chan src dst).reqs = rest
      ∧ t.die dst = { s.die dst with
        clock := met p,
        covered := match p.num with
          | some n => clkPut (s.die dst).covered src (maxClk (clkAt (s.die dst).covered src) n)
          | none => (s.die dst).covered }
      ∧ (∀ d, d ≠ dst → t.die d = s.die d) ∧ t.hart.pc = s.hart.pc ∧ (∀ r, t.hart.reg r = s.hart.reg r) ∧ OthersKept s t
    let answered (t : State) (p : Packet) (tag : Nat) (v : Option Word) (poison : Bool) : Prop :=
      (t.chan dst src).resps = (s.chan dst src).resps ++ [{
        gen := (s.die dst).gen, seq := (s.chan dst src).answers, hart := p.hart, tag := tag, value := v, poison := poison, clk := met p }]
    let only (t : State) (f : Nat → Nat → Prop) : Prop := t = { s with fab := t.fab, work := t.work } ∧ t.fab.dies = s.fab.dies ∧ f src dst
    (∀ p rest, linked → c.reqs = p :: rest → new p → s.uncovered dst p.stamp (fun i => i == src) = [] → s.cells.wf = true →
      (∀ bs alloc, p.op = .store bs alloc → bs ≠ [] → (∀ i < bs.length, isHostMem (p.pa + i) = true) →
        (∀ k ∈ cutWords p.pa bs, s.tailAt (8 * k.1) = none) →
        ∃ t, exec (.packetDelivery src dst) s = .next t ∧ came t p rest ∧ memory t (overlaid (liveByte s true) p.pa bs))
      ∧ (∀ n alloc tag, p.op = .load n alloc → p.tag = some tag → p.pa % 64 + n ≤ 64 →
        (isHostMem p.pa = true ∨ regionOf p.pa = .weights ∧ Roomy s (p.pa / 64) 1) →
        (s.firstPoison p.pa n = none → ∃ t, exec (.packetDelivery src dst) s = .next t ∧ came t p rest
          ∧ answered t p tag (some (BitVec.ofNat 64 (ofBytes (s.liveBytes p.pa n p.ww)))) false ∧ memory t (liveByte s true))
        ∧ ((s.firstPoison p.pa n).isSome = true → ∃ t, exec (.packetDelivery src dst) s = .next t ∧ came t p rest
          ∧ answered t p tag none true ∧ t.cells = s.cells))
      ∧ ∀ op n v cmp sc tag, p.op = .atomic op n v cmp sc → p.tag = some tag → (n = 4 ∨ n = 8) → p.pa % n = 0 →
        isHostMem p.pa = true → s.tailAt (p.pa / 8 * 8) = none →
        let old := wordAt (liveByte s true) p.pa n
        (s.firstPoison p.pa n = none → ∃ t, exec (.packetDelivery src dst) s = .next t ∧ came t p rest
          ∧ answered t p tag (some (BitVec.ofNat 64 old)) false
          ∧ memory t (match atomicNew op n old v.toNat cmp.toNat with
            | none => liveByte s true
            | some x => overlaid (liveByte s true) p.pa (toBytes n x)))
        ∧ ((s.firstPoison p.pa n).isSome = true → ∃ t, exec (.packetDelivery src dst) s = .next t ∧ came t p rest
          ∧ answered t p tag none true ∧ t.cells = s.cells))
    ∧ (∀ p rest, linked → c.reqs = p :: rest →
      (c.held = 0 → c.accepted p.seq = true → Leads s (.packetDelivery src dst) fun t =>
        only t fun i j => (t.chan i j).reqs = rest)
      ∧ (¬ (c.held = 0 ∧ c.accepted p.seq = true) → s.staleGen dst p.gen = true → Leads s (.packetDelivery src dst) fun t =>
        only t fun i j => (t.chan i j).reqs = rest)
      ∧ ∀ j js, new p → s.uncovered dst p.stamp (fun i => i == src) = j :: js → Leads s (.packetDelivery src dst) fun t =>
        only t fun i k => (t.chan i k).reqs.head? = some p ∧ .packetDelivery i k ∈ t.work
          ∧ (if j = dst then .tailExamination ∈ t.work else .probeSend dst j ∈ t.work))
    ∧ (∀ q rest, s.alive dst = true → c.resps = q :: rest →
      (s.staleGen dst q.gen = true → ∃ t, exec (.responseReceive src dst) s = .next t ∧ only t fun i j => (t.chan i j).resps = rest)
      ∧ ∀ h r, s.staleGen dst q.gen = false → s.hartOf q.hart = some h → h.wait = .response r → r.tag = q.tag →
        (∀ v, q.value = some v → ∃ t, exec (.responseReceive src dst) s = .next t
          ∧ (t.chan src dst).resps = rest ∧ t.hart = { h with
            pc := h.pc + 4, x := (withReg { s with hart := h } r.d (extended r.n r.signed v.toNat)).hart.x, wait := .none,
            sr := { h.sr with vclk := clkMerge h.sr.vclk q.clk } }
          ∧ t.cells = s.cells)
        ∧ (q.value = none → h.sr.tvec ≠ 0 → ∃ t, exec (.responseReceive src dst) s = .next t ∧ (t.chan src dst).resps = rest
          ∧ t.hart.key = h.key ∧ t.hart.pc = h.sr.tvec ∧ t.hart.sr.cause = (if q.poison then 0x0E else 0x10) ∧ t.hart.sr.tval = r.va
          ∧ t.hart.sr.epc = h.pc ∧ t.hart.sr.status.sv = true ∧ t.hart.wait = .none ∧ ∀ k, t.hart.reg k = h.reg k))
    ∧ (linked →
      (Leads s (.watermarkSend src dst) fun t => t = { s with fab := t.fab } ∧ t.fab.dies = s.fab.dies
        ∧ (t.chan src dst).marks = c.marks ++ [mark src dst] ∧ (t.chan src dst).reqs = c.reqs)
      ∧ (Leads s (.probeSend src dst) fun t => t = { s with fab := t.fab } ∧ t.fab.dies = s.fab.dies
        ∧ (t.chan src dst).probes = c.probes + 1)
      ∧ (c.probes > 0 → Leads s (.probeReceive src dst) fun t => t = { s with fab := t.fab } ∧ t.fab.dies = s.fab.dies
        ∧ (t.chan src dst).probes = c.probes - 1 ∧ (t.chan dst src).marks = (s.chan dst src).marks ++ [mark dst src])
      ∧ ∀ w rest, c.marks = w :: rest → Leads s (.watermarkReceive src dst) fun t =>
        t = { s with fab := t.fab } ∧ (t.chan src dst).marks = rest ∧ (t.chan src dst).reqs = c.reqs
        ∧ (∀ d, d ≠ dst → t.die d = s.die d)
        ∧ t.die dst = if w.gen = (s.die dst).gen ∨ w.gen = (s.die dst).gen - 1 then { s.die dst with
            covered := clkPut (s.die dst).covered src (maxClk (clkAt (s.die dst).covered src) (coveredBy c.reqs w.w)),
            echo := clkPut (s.die dst).echo src (maxClk (clkAt (s.die dst).echo src) w.echo) }
          else s.die dst)
    ∧ ∀ (d a b : Reg) (imm : BitVec 16) (sc : Bool) (acc : Acc),
      let h := s.hart
      let home := acc.leaf.home
      let to_ := s.chan h.id.did home
      let n := clkAt (s.die h.id.did).clock h.id.did + 1
      let own := clkPut h.sr.vclk h.id.did n
      let packet (op : PacketOp) (num : Option (BitVec 16)) (stamp : Clock) (tag : Option Nat) : Packet :=
        { op := op, pa := acc.pa, stamp := stamp, gen := (s.die h.id.did).gen, seq := to_.next, num := num, hart := h.key, tag := tag,
          ww := acc.leaf.ww }
      let out (t : State) (p : Packet) : Prop :=
        (t.chan h.id.did home).reqs = to_.reqs ++ [p] ∧ .packetDelivery h.id.did home ∈ t.work ∧ t.cells = s.cells
        ∧ (∀ r, t.hart.reg r = h.reg r) ∧ OthersKept s t
      let waits (load : Bool) (va : Word) : Wait := .response {
        tag := s.fab.tag, d := d, n := 8, signed := !load, va := va, pa := acc.pa, load := load }
      Turn s → h.id.did < 8 → home ≠ h.id.did → Open s h.id.did home 1 →
      ((at_ s a imm).toNat % 8 = 0 → accessOf s (at_ s a imm) 8 .load = .ok acc → (∀ e ∈ h.early, e.vec = false → e.pa ≠ acc.pa) →
        Leads s (.ldd d a imm) fun t => t.hart = { h with wait := waits true (at_ s a imm) }
          ∧ out t (packet (.load 8 acc.leaf.wb) none h.sr.vclk (some s.fab.tag)))
      ∧ ((at_ s a imm).toNat % 8 = 0 → accessOf s (at_ s a imm) 8 .store = .ok acc → s.windowShut h.id.did 1 = [] →
        Leads s (.std d a imm) fun t => (∃ y, t.hart = { h with pc := h.pc + 4, early := y, sr := { h.sr with vclk := own } })
          ∧ out t (packet (.store (toBytes 8 (h.reg d).toNat) acc.leaf.wb) (some n) own none)
          ∧ clkAt (t.die h.id.did).clock h.id.did = n)
      ∧ ((h.reg a).toNat % 8 = 0 → accessOf s (h.reg a) 8 .atomic = .ok acc → s.windowShut h.id.did 1 = [] →
        (sc = true → s.scFlying = none) → s.inFlight h.id.did (clkAt h.sr.vclk h.id.did) = none →
        Leads s (.aadd true sc d a b) fun t =>
          (∃ y, t.hart = { h with wait := waits false (h.reg a), early := y, sr := { h.sr with vclk := own } })
          ∧ out t (packet (.atomic 0 8 (h.reg b) (h.reg d) sc) (some n) (clkMerge own (carried s sc)) (some s.fab.tag))
          ∧ clkAt (t.die h.id.did).clock h.id.did = n)

/-- R12, R356 to R361, R369: 32 replays within a millisecond lead to a retraining, four failed retrainings to a failed link, and a failed link, a silent die or a
fatal error to the removal of a die, with its harts, its requests and its cached lines; a rejoined die takes the survivors' clocks; the
loss of CD0 fails the module. Choices of the model in it: notes/assumptions/66.md, 67.md, 97.md. -/
def Obligations.LinksAndDiesFailAndRejoin : Prop :=
  ∀ (s : State) (src dst : Nat),
    let c := s.chan src dst
    let failing (d code : Nat) : State :=
      { s with fab := { s.fab with failing := s.fab.failing ++ [(d, code)] }, work := s.work ++ [.dieRemoval] }
    let recent := (c.replays.filter fun t => decide (s.time.toNat < t + 1000000)) ++ [s.time.toNat]
    (src ≠ dst → src < 8 → dst < 8 → s.alive src = true → s.alive dst = true → c.retraining = false →
      Leads s (.flitCrcFail src dst) fun t => t = { s with fab := t.fab, work := t.work } ∧ t.fab.dies = s.fab.dies
        ∧ (t.chan src dst).replays = recent ∧ (t.chan src dst).reqs = c.reqs.take c.held ++ c.retry
        ∧ (recent.length ≥ 32 → .linkRetrain ∈ t.work))
    ∧ (∀ k, s.fab.chans.find? (fun c => decide (c.replays.length ≥ 32) && !c.retraining) = some k → Leads s .linkRetrain fun t =>
      t = { s with fab := t.fab } ∧ (t.chan k.src k.dst).retraining = true ∧ (t.chan k.src k.dst).replays = []
      ∧ (t.chan k.src k.dst).reqs = (s.chan k.src k.dst).reqs)
    ∧ (c.retraining = true →
      (Leads s (.linkRetrainEnd src dst true) fun t => (t.chan src dst).retraining = false ∧ (t.chan src dst).retrains = 0
        ∧ (t.chan src dst).reqs = c.reqs ∧ Journaled s t)
      ∧ Leads s (.linkRetrainEnd src dst false) fun t => t = { s with fab := t.fab, work := t.work }
        ∧ (t.chan src dst).retrains = c.retrains + 1 ∧ (t.chan src dst).retraining = true ∧ (c.retrains + 1 ≥ 4 → .linkFail ∈ t.work))
    ∧ (∀ k, s.fab.chans.find? (fun c => decide (c.retrains ≥ 4) && s.alive c.src && s.alive c.dst
        && !s.fab.failing.any fun p => p.1 == max c.src c.dst) = some k → max k.src k.dst ≠ 0 →
      exec .linkFail s = .next (failing (max k.src k.dst) 1))
    ∧ (src ≠ dst → s.alive src = true → s.alive dst = true → exec (.dieSilent src dst) s = .next (failing (max src dst) 2))
    ∧ (s.alive src = true → exec (.dieFatalError src) s
      = .next (if src = 0 then { s with work := s.work ++ [.moduleFailure] } else failing src 3))
    ∧ (∀ lost code rest, s.fab.failing = (lost, code) :: rest → s.alive lost = true → Leads s .dieRemoval fun t =>
      let gen := (s.die 0).gen + 1
      (∀ d, t.alive d = (s.alive d && d != lost)) ∧ (∀ d, t.alive d = true → (t.die d).gen = gen)
      ∧ (∀ i j, i ≠ lost → j ≠ lost → j < 8 → s.alive j = true → (t.chan i j).reqs = ((s.chan i j).reqs.filter fun p =>
        geClk (clkAt (s.die j).covered lost) (clkAt p.stamp lost)).map fun p => { p with gen := gen })
      ∧ (∀ k ∈ t.fab.chans, k.src = lost ∨ k.dst = lost → k.reqs = [])
      ∧ (∀ l ∈ t.img.cache, homeOf (64 * l.addr) ≠ lost) ∧ (∀ r ∈ t.bank.reqs, homeOf r.pa ≠ lost)
      ∧ (∀ r ∈ t.bank.bred ++ t.bank.xmerge, r.1 ≠ lost) ∧ (∀ g ∈ t.disp.gangs, g.die ≠ lost)
      ∧ (∀ key h, t.hartOf key = some h → h.id.did = lost → h.phase = .free)
      ∧ (∀ l ∈ t.disp.launches, l.die = lost → l.stopped = true ∧ l.status = 0x10) ∧ t.counts = s.counts)
    ∧ (∀ die, 0 < die → die < 8 → s.alive die = false → s.host.power ≠ .failed → Leads s (.dieRejoin die) fun t =>
      let clk := ((List.range 8).filter s.alive).foldl (fun c d => clkMerge c (s.die d).clock) (s.die die).clock
      (∀ d, t.alive d = (s.alive d || d == die)) ∧ (t.die die).clock = clk
      ∧ (∀ i < 8, i ≠ die → clkAt (t.die die).covered i = clkAt (s.die i).clock i ∧ clkAt (t.die die).echo i = clkAt (s.die i).covered die)
      ∧ (∀ i < 8, s.alive i = true → clkAt (t.die i).echo die = clkAt (s.die i).clock i)
      ∧ (t.place.publishing = s.place.publishing.map fun b => (0, b.2))
      ∧ (∀ d, t.alive d = true → (t.die d).gen = (s.die 0).gen + 1) ∧ t.tableOf die = .reset ∧ Journaled s t
      ∧ (∀ q ∈ t.disp.queues, q.q / 4096 ≠ die) ∧ errsOf t die = .reset
      ∧ ∀ f, homeOf (f * 2 ^ 18) ≠ die → t.countOf f = s.countOf f)
    ∧ (s.host.power ≠ .off → s.host.power ≠ .failed → exec .moduleFailure s = .next { s with
      disp := { s.disp with queues := s.disp.queues.map fun q => { q with latched := [] } },
      host := { s.host with aer := true, power := .failed } })

/-! ## Events of the host port -/

/-- R94, R224, R285 to R287, R298, R337, R368: the host and a peer read and write device memory at its home after what they know, and
what lies elsewhere reads as poison and discards writes; a peer's atomic answers the old value; the PF answers signed measurements, and
firmware starts only when it is signed by the key of the fuses and not older than the counter. Choices of the model in it:
notes/assumptions/65.md. -/
def Obligations.HostAccessesReachDeviceMemory : Prop :=
  ∀ (s : State) (pa n : Nat),
    let home := homeOf pa
    let here : Prop := isHostMem pa = true ∧ s.alive home = true
    let covered (c : Clock) : Prop := s.uncovered home c (fun _ => false) = []
    let answers (bs : List Byte) (p : Bool) : State := { s with host := { s.host with hostData := bs, hostPoison := p } }
    let memory (t : State) (m : Nat → Byte) : Prop := ∀ a, isHostMem a = true → liveByte t true a = m a
    let learns (t : State) : Prop := t.host.clk = clkMerge s.host.clk (t.die home).clock
    let tracked := (s.img.hostOrder.filter fun a => homeOf (64 * a) == home).length
    let room : Prop := pa / 64 ∈ s.img.hostOrder ∨ tracked < 1048576
    let tells (t : State) (c : Clock) : Prop :=
      (t.die home).clock = clkPut (clkMerge (s.die home).clock c) home (clkAt (s.die home).clock home)
    let kept (t : State) : Prop := t.counts = s.counts ∧ t.hart.pc = s.hart.pc ∧ (∀ r, t.hart.reg r = s.hart.reg r) ∧ OthersKept s t
    (s.hostServed = true → hostRange pa n = true →
      (¬ here → exec (.hostMemRead pa n) s = .next (answers [] true))
      ∧ (here → covered s.host.clk → (s.firstPoison pa n).isSome = true → exec (.hostMemRead pa n) s = .next (answers [] true))
      ∧ (here → covered s.host.clk → s.firstPoison pa n = none → s.cells.wf = true → Leads s (.hostMemRead pa n) fun t =>
        t.host.hostData = s.liveBytes pa n true ∧ t.host.hostPoison = false ∧ memory t (liveByte s true) ∧ learns t ∧ kept t)
      ∧ (here → ¬ covered s.host.clk → Leads s (.hostMemRead pa n) fun t =>
        t = { s with work := t.work } ∧ .hostMemRead pa n ∈ t.work))
    ∧ (∀ bytes poison hold, s.hostServed = true → hostRange pa bytes.length = true →
      (¬ here → exec (.hostMemWrite pa bytes poison hold) s = .next s)
      ∧ (here → ¬ covered s.host.clk → Leads s (.hostMemWrite pa bytes poison hold) fun t =>
        t = { s with work := t.work } ∧ .hostMemWrite pa bytes poison hold ∈ t.work)
      ∧ (here → covered s.host.clk → poison = false → hold = true → ¬ room → exec (.hostMemWrite pa bytes poison hold) s
        = .next { s with work := s.work ++ [.hostDirectoryRecall, .hostMemWrite pa bytes poison hold] })
      ∧ (here → covered s.host.clk → poison = true → s.cells.wf = true → Leads s (.hostMemWrite pa bytes poison hold) fun t =>
        t.livePoison (pa / 64) = true ∧ memory t (liveByte s true) ∧ tells t s.host.clk ∧ kept t)
      ∧ (here → covered s.host.clk → poison = false → (hold = true → room) → s.cells.wf = true → Roomy s (pa / 64) 1 →
        (∀ k ∈ cutWords pa bytes, s.tailAt (8 * k.1) = none) →
        Leads s (.hostMemWrite pa bytes poison hold) fun t => memory t (overlaid (liveByte s true) pa bytes) ∧ tells t s.host.clk
          ∧ (hold = true → ∃ l, findLine t.img.cache (pa / 64) = some l ∧ l.level = .host) ∧ kept t))
    ∧ (∀ op dw v cmp, let n := if dw then 8 else 4
      s.hostServed = true → hostRange pa n = true → pa % n = 0 → op.toNat ≤ 9 →
      (¬ here → exec (.peerAtomic op dw pa v cmp) s = .next (answers [] true))
      ∧ (here → s.scFlying = none → covered (clkMerge s.host.clk s.fab.sc) → s.firstPoison pa n = none → s.cells.wf = true →
        s.tailAt (pa / 8 * 8) = none →
        let old := wordAt (liveByte s true) pa n
        Leads s (.peerAtomic op dw pa v cmp) fun t => t.host.hostData = toBytes n old ∧ t.host.hostPoison = false ∧ learns t
          ∧ tells t (clkMerge s.host.clk s.fab.sc) ∧ kept t
          ∧ memory t (match atomicNew op.toNat n old v.toNat cmp.toNat with
            | none => liveByte s true
            | some x => overlaid (liveByte s true) pa (toBytes n x))))
    ∧ (∀ index, s.hostServed = true → 1 ≤ index → index ≤ 4 → Leads s (.spdmRequest index) fun t =>
      t = { s with host := { s.host with spdm := t.host.spdm, spdmSig := Config.spdmSign index t.host.spdm } }
      ∧ (index = 2 → t.host.spdm = s.host.fwDigest))
    ∧ ∀ key sig version digest,
      exec (.firmwareBoot key sig version digest) s
        = .next (if Config.ecdsaOk key digest sig = true ∧ Config.sha512 key = s.host.fuseKey ∧ version ≥ s.host.rollback
          then { s with host := { s.host with fwVersion := version, fwDigest := digest } } else s)

/-- R200, R250, R288 to R291, R299, R317, R340, R367, R378: a write to a register changes its writable bits and starts its action; queues
are bound, keys installed and dropped, a virtual function disabled, a shootdown carried out, monitors cleared and fed; the CXL link retrains
and fails. Choices of the model in it: notes/assumptions/70.md, 85.md, 86.md, 87.md, 88.md. -/
def Obligations.RegistersAndTheLinkActAsListed : Prop :=
  ∀ (s : State) (d o : Nat) (v : Word),
    let write (fn : Nat) := Instr.registerWrite ⟨fn, d * 2 ^ 45 + 0x6000000000 + o⟩ 8 v
    let i := write 64
    let p := s.host
    let port (q : HostPort) : State := { s with host := q }
    let pushed (l : List Instr) (t : State) : State := { t with work := t.work ++ l }
    let mon (k : Nat) : Monitor := (aget p.monitors k).getD .reset
    let fed (k : Nat) (m : Monitor) : State := port { p with monitors := aput p.monitors (d * 64 + k) m }
    let vf (n : Nat) : Vf := p.vfs.toList.getD n { en := false, root := 0, tkey := 0 }
    let key (n : Nat) : KeySlot := p.keys.toList.getD n { key := 0, loaded := none }
    let keys (n : Nat) (k : KeySlot) : State := port { p with keys := p.keys.setIfInBounds n k }
    (d < 8 → s.alive d = true → (p.power = .run ∨ p.power = .entering) → o % 8 = 0 →
      (∀ fn, fn ≠ 64 → o < 0x20000000 → exec (write fn) s = .next s)
      ∧ (∀ k < 64, o = 0x4000 + 256 * k → exec i s = .next (pushed (if v.getLsbD 62 then [.monitorClear d k] else [])
        (fed k { mon (d * 64 + k) with ctl := v &&& 0x8FFFFFFFFFFF00FF })))
      ∧ (∀ k < 64, o = 0x4000 + 256 * k + 0x28 → exec i s
        = .next (fed k { mon (d * 64 + k) with thresh := v }))
      ∧ (∀ k < 64, o = 0x4000 + 256 * k + 0x30 → exec i s = .next (fed k { mon (d * 64 + k) with
        fired := (mon (d * 64 + k)).fired && !v.getLsbD 0, aen := v.getLsbD 1 }))
      ∧ (o = 0x8010 → v.getLsbD 63 = true → Leads s i fun t => t = port { p with errs := t.host.errs } ∧ (errsOf t d).uev = false
        ∧ (errsOf t d).uecnt = (errsOf s d).uecnt ∧ ∀ e, e ≠ d → errsOf t e = errsOf s e)
      ∧ (∀ j < 4096, o = 0x10000 + 8 * j → exec i s = .next (pushed [.queueBind d j v] s))
      ∧ (∀ n < 64, d = 0 → o = 0x20000 + 64 * n → (vf n).root + (vf n).tkey < 2 ^ 63 → Leads s i fun t =>
        t.host.vfs.toList.getD n { en := false, root := 0, tkey := 0 }
          = { en := (vf n).en || v.getLsbD 63, root := bits v.toNat 47 15 * 2 ^ 15, tkey := bits v.toNat 5 0 }
        ∧ (∀ m, m ≠ n → t.host.vfs.toList[m]? = p.vfs.toList[m]?)
        ∧ t.work = if (vf n).en = true ∧ v.getLsbD 63 = false then s.work ++ [.vfDisable n] else s.work)
      ∧ (∀ n < 64, ∀ k < 8, d = 0 → o = 0x30000 + 128 * n + 8 * k → Leads s i fun t => ∃ x, t = keys n { key n with key := x }
        ∧ x.extractLsb' (64 * k) 64 = v ∧ ∀ j, (j < 64 * k ∨ 64 * k + 64 ≤ j) → x.getLsbD j = (key n).key.getLsbD j)
      ∧ (∀ n < 64, d = 0 → o = 0x30000 + 128 * n + 64 → exec i s = .next (pushed
        ((if v.getLsbD 1 then [.keyDrop n] else []) ++ if v.getLsbD 0 then [.keyLoad n] else []) s))
      ∧ (d = 0 → o = 0x40000 → p.shoot.getLsbD 0 = false → v.getLsbD 0 = true → exec i s = .next (pushed [.shootdownGo v] s))
      ∧ (d = 0 → o = 0x40008 → v.getLsbD 4 = true → exec i s = .next (pushed [.shutterEnterWrite] s))
      ∧ (d = 0 → o = 0x40010 → exec i s = .next (port { p with jbase := bits v.toNat 47 21 * 2 ^ 21 }))
      ∧ (d = 0 → o = 0x40020 → exec i s = .next (port { p with hcbase := bits v.toNat 47 16 * 2 ^ 16 }))
      ∧ (d = 0 → o = 0x40028 → exec i s = .next (port { p with hctail := bits v.toNat 9 0 }))
      ∧ (0x10000000 ≤ o → o < 0x20000000 → exec i s = .next s))
    ∧ (∀ j, d < 8 → j < 4096 → s.alive d = true → p.power ≠ .failed → Leads s (.queueBind d j v) fun t =>
      let q := 4096 * d + j
      Journaled s t ∧ (t.queueOf q).vf = (if (s.queueOf q).busy = [] then (if v.getLsbD 63 then some (v.toNat % 64) else none)
        else (s.queueOf q).vf)
      ∧ (t.queueOf q).field = (if (s.queueOf q).busy = [] then v.toNat % 64 else (s.queueOf q).field)
      ∧ (t.queueOf q).next = (s.queueOf q).next ∧ (∀ k, k ≠ q → t.queueOf k = s.queueOf k) ∧ t.disp.launches = s.disp.launches)
    ∧ (∀ n < 64, p.power ≠ .failed →
      exec (.keyLoad n) s = .next (if s.hasKey n then s else keys n { key n with loaded := some (key n).key })
      ∧ Leads s (.keyDrop n) fun t => t.hasKey n = false ∧ t.cells = s.cells ∧ (∀ m < 64, m ≠ n → t.hasKey m = s.hasKey m)
        ∧ (∀ l ∈ s.img.cache, l.level = .l3 → l.key = some n → findLine t.img.cache l.addr = none)
        ∧ ∀ l ∈ s.img.cache, (∀ k ∈ s.img.cache, k.addr = l.addr → ¬ (k.level = .l3 ∧ k.key = some n)) → l ∈ t.img.cache)
    ∧ (∀ n < 64, s.vfEnabled n = true → Leads s (.vfDisable n) fun t =>
      t.vfEnabled n = false ∧ (∀ m, m ≠ n → t.vfEnabled m = s.vfEnabled m)
      ∧ ∀ g ∈ s.disp.gangs, ∀ l, g.phase = .run → s.disp.launches.find? (fun l => l.id == g.launch) = some l → recVf l.record = n →
        .preemption ∈ t.work ∧ ∃ k ∈ t.disp.gangs, k.die = g.die ∧ k.gid = g.gid ∧ k.launch = g.launch ∧ k.harts = g.harts
          ∧ k.phase = .stopping 1)
    ∧ (p.shoot.getLsbD 0 = false → p.power ≠ .failed →
      exec (.shootdownGo v) s = .next (pushed [.shootdownComplete] (port { p with shoot := (v &&& shootMask) ||| 1 })))
    ∧ (p.shoot.getLsbD 0 = true →
      let pages (e : TlbEntry) : Nat := (e.leaf.elim (2 ^ 18) (·.size)) / 2 ^ 18
      let matched (e : TlbEntry) : Bool := (p.shoot.getLsbD 62 || e.vf == bits p.shoot.toNat 61 56)
        && (p.shoot.getLsbD 1 || e.page / pages e == bits p.shoot.toNat 53 18 / pages e)
      let used (pa : Nat) : Bool := s.img.tlb.any fun e => matched e && e.leaf.any fun l => decide (l.base ≤ pa) && decide (pa < l.base + l.size)
      (∀ c ∈ s.fab.chans, ∀ q ∈ c.reqs, used q.pa = false) → (∀ r ∈ s.bank.reqs, r.det = false → used r.pa = false) →
      (∀ t ∈ s.place.tails, t.writer ≠ none → ∀ b, (s.tableOf t.die).inbox = some b → used (b + 64 * t.src) = false) →
      (∀ r ∈ s.bank.bred ++ s.bank.xmerge, r.2.touches used = false) →
      Leads s .shootdownComplete fun t =>
        t = { s with
          img := { s.img with tlb := s.img.tlb.filter fun e => !matched e }, host := { p with shoot := t.host.shoot }, work := t.work }
        ∧ t.host.shoot = p.shoot &&& ~~~(1 : Word))
    ∧ (∀ k < 64, d < 8 →
      exec (.monitorClear d k) s = .next (fed k { mon (d * 64 + k) with
        min := BitVec.allOnes 64, max := 0, count := 0, sum := 0, bins := Vector.replicate 16 0 })
      ∧ ∀ n, let m := mon (d * 64 + k)
        s.alive d = true → m.ctl.getLsbD 63 = true → 1 ≤ bits m.ctl.toNat 7 0 → bits m.ctl.toNat 7 0 ≤ 8 → n < 2 ^ 64 →
        Leads s (.monitorSample d k n) fun t =>
          let x := (aget t.host.monitors (d * 64 + k)).getD .reset
          x.min.toNat = min m.min.toNat n ∧ x.max.toNat = max m.max.toNat n ∧ x.count.toNat = min (m.count.toNat + 1) (2 ^ 64 - 1)
          ∧ x.sum.toNat = min (m.sum.toNat + n) (2 ^ 64 - 1) ∧ x.ctl = m.ctl ∧ x.thresh = m.thresh
          ∧ (let alarm := m.aen = true ∧ m.fired = false ∧ n > m.thresh.toNat
            (alarm → x.fired = true ∧ Journaled s t) ∧ (¬ alarm → x.fired = m.fired ∧ t = port { p with monitors := t.host.monitors })))
    ∧ (p.linkUp = true → p.power = .run → exec .hostLinkRetrain s = .next s)
    ∧ (p.linkUp = true → Leads s .hostLinkDown fun t =>
      t.host.linkUp = false ∧ t.host.msix = [] ∧ t.img.hostOrder = [] ∧ (∀ l ∈ t.img.cache, l.level ≠ .host)
      ∧ (∀ la ∈ s.img.hostOrder, t.livePoison la = true)
      ∧ t.disp.jhead = s.disp.jhead + BitVec.ofNat 64 ((List.range 8).filter s.alive).length)
    ∧ (p.linkUp = false → p.power = .run → exec .hostLinkTrainsAgain s = .next (port { p with linkUp := true }))

/-! ## The host command ring and the power states -/

/-- R12, R195, R202, R256, R258, R259, R261, R292, R319, R367, R372, R383: each command of the ring starts, does what its opcode says, is
reported and passes HCHEAD; an unlisted, malformed or unreadable one is reported and skipped.
Choices of the model in it: notes/assumptions/77.md, 81.md, 82.md, 83.md, 84.md. -/
def Obligations.HostCommandsDoWhatTheirOpcodesSay : Prop :=
  ∀ (s : State) (c : HostCmd), s.hostCmd = some c →
    let p := s.host
    let starts (op : Nat) : Prop := p.power = .run ∧ p.hcBusy = none ∧ s.hostCmdListed c = true ∧ c.op = op
    let goesOn (op : Nat) (fs : List Nat) : Prop := (p.power = .run ∨ p.power = .entering) ∧ p.hcBusy = some fs ∧ c.op = op
    let past : HostPort := { p with hchead := (p.hchead + 1) % 1024, hcBusy := none }
    let passed (t : State) : Prop := t.host.hchead = (p.hchead + 1) % 1024 ∧ t.host.hcBusy = none ∧ Journaled s t
    let settles (i : Instr) (op : Nat) : Prop :=
      (starts op → s.physicalCause c.vf c.a c.b = none → Leads s i fun t =>
        t.host.hcBusy = some (physicalFrames c.a c.b) ∧ t.host.hchead = p.hchead ∧ Journaled s t ∧ t.counts = s.counts
        ∧ (t.img.settling.map fun g => (g.frame, g.renew, g.down))
          = (s.img.settling.map fun g => (g.frame, g.renew, g.down)) ++ (physicalFrames c.a c.b).map fun f => (f, op == 2, false))
      ∧ (∀ e, starts op → s.physicalCause c.vf c.a c.b = some e → Leads s i passed)
      ∧ ∀ fs, goesOn op fs → (∀ g ∈ s.img.settling, g.frame ∉ fs) → Leads s i passed
    settles .hcSettle 1 ∧ settles .hcRenew 2
    ∧ (∀ (v tv : Nat) (dst : List (Nat × Nat)) (flag : Option Nat) (srcs : List (List (Nat × Nat))),
      let b := RedBlock.ofBits v
      let w := redWidth b.fmt
      let die := homeOf (pieceAt dst 0)
      let entry (i : Nat) : Word := BitVec.ofNat 64 (tv / 2 ^ (64 * i) % 2 ^ 64)
      let here := seenBy s c.vf
      starts 3 → RingBlock s c.vf (BitVec.ofNat 64 c.a) 8 v →
      (b.ok = false → Leads s .hcBred passed)
      ∧ (b.ok = true → RingBlock s c.vf b.table b.count tv →
        Pinned here .store b.dst (max b.n 1 * w) dst → FlagIs here b.flag flag → srcs.length = b.count → (∀ p ∈ dst, homeOf p.1 = die) →
        (∀ i r, srcs[i]? = some r →
          (entry i).toNat % w = 0 ∧ Pinned here .load (entry i) (b.n * w) r ∧ ∀ p ∈ r, homeOf p.1 = die) →
        DieReady s 0 die →
        Leads s .hcBred fun t => t.host.hcBusy = some [] ∧ t.host.hchead = p.hchead ∧ .bredReduction ∈ t.work
          ∧ t.bank.bred = s.bank.bred ++ [(die, {
            op := b.op, fmt := b.fmt, n := b.n, srcs := srcs, dst := if b.n = 0 then [] else dst, dst0 := pieceAt dst 0 / 2 ^ 18,
            flagPa := flag, flagV := b.flagV, presettle := b.flags % 2 == 1, waits := [], copies := [], journal := true, vf := c.vf })]))
    ∧ (∀ fs, goesOn 3 fs → (∀ q ∈ s.bank.bred, q.2.journal = false) → exec .hcBred s = .next { s with host := past })
    ∧ (∀ bytes, (starts 4 ∨ ∃ k, goesOn 4 [k]) →
      let from_ := p.copied
      let next := from_ + bytes.length
      (c.c % 64 ≠ 0 → Leads s (.hcCopy bytes) passed)
      ∧ (c.c % 64 = 0 → bytes.length % 64 = 0 → bytes.length ≤ 65536 → next ≤ c.c → (p.linkUp = true → bytes ≠ [] ∨ next = c.c) →
        s.cells.wf = true → (∀ d < 8, (s.tableOf d).inbox = none) →
        (∀ i < bytes.length, isHostMem (c.b + from_ + i) = true ∧ s.alive (homeOf (c.b + from_ + i)) = true
          ∧ DieReady s 0 (homeOf (c.b + from_ + i))) → s.windowShut 0 (bytes.length / 64 + 2) = [] →
        Leads s (.hcCopy bytes) fun t =>
          (if next = c.c ∨ p.linkUp = false then passed t else t.host = { p with hcBusy := some [next], clk := t.host.clk, snoops := t.host.snoops })
          ∧ t.counts = s.counts
          ∧ ∀ a, isHostMem a = true → (a < entryPa s ∨ entryPa s + 32 ≤ a) →
            liveByte t true a = overlaid (liveByte s true) (c.b + from_) bytes a))
    ∧ (let base := BitVec.ofNat 64 c.b
      let len := bits c.c 63 32
      (starts 0x10 → s.freeIndex c.a = none → Leads s .hcDefineExpert passed)
      ∧ (∀ r spans, starts 0x10 → s.freeIndex c.a = some r → RangeOf s c.vf .load base len spans →
        ((c.a ≥ 8192 ∨ len % 262144 ≠ 0) → Leads s .hcDefineExpert passed)
        ∧ (c.a < 8192 → len % 262144 = 0 → Leads s .hcDefineExpert fun t =>
          t.place = { s.place with copying := s.place.copying ++ [{
            expert := c.a, idx := r, die := c.c % 8, weights := bitAt c.c 3, vf := c.vf, src := base, dst := base, len := len, at_ := len }] }
          ∧ t.host = { p with hcBusy := some [8 * c.a + r], snoops := t.host.snoops } ∧ .replicaCopy ∈ t.work ∧ t.cells = s.cells
          ∧ ∀ f ∈ pieceFrames (spans.map Span.range), ∃ g ∈ t.img.settling, g.frame = f ∧ g.renew = false))
      ∧ ∀ fs, goesOn 0x10 fs → s.place.pending = [] → s.place.publishing = none →
        (∀ k ∈ s.place.copying, 8 * k.expert + k.idx ∉ fs) → exec .hcDefineExpert s = .next { s with host := past })
    ∧ (let out := s.latest.entries.filter fun e => e.2.die == c.a && e.2.state == 1
      (starts 0x11 → (c.a ≥ 8 → Leads s .hcDrainDie passed) ∧ (c.a < 8 → Leads s .hcDrainDie fun t =>
        t.host.hcBusy = some [] ∧ t.host.hchead = p.hchead ∧ .versionPublish ∈ t.work
        ∧ (out ≠ [] → t.place = { s.place with pending := s.place.pending ++ out.map fun e => (e.1, { e.2 with state := 2 }) })))
      ∧ ∀ fs, goesOn 0x11 fs → s.place.pending = [] → s.place.publishing = none →
        exec .hcDrainDie s = .next { s with host := past })
    ∧ (starts 0x12 →
      (c.a ≥ 16 ∨ c.c % 262144 ≠ 0 ∨ c.b + c.c > 2 ^ 64 → Leads s .hcAssignTarget passed)
      ∧ (c.a < 16 → c.c % 262144 = 0 → c.b + c.c ≤ 2 ^ 64 →
        (∀ va, c.b ≤ va → va < c.b + c.c → Fresh s c.vf va ∧ ∃ l, s.walk c.vf va = .leaf l ∧ l.pin = true ∧ l.home = c.a % 8
          ∧ if bitAt c.a 3 then regionOf (l.pa va) = .weights else isHbm (l.pa va) = true) →
        Leads s .hcAssignTarget fun t => passed t ∧ t.place = { s.place with targets := s.place.targets ++ [{
          die := c.a % 8, weights := bitAt c.a 3, vf := c.vf, base := BitVec.ofNat 64 c.b, len := c.c, used := [] }] }))
    ∧ (let last := c.b + 4096 + 1048576 - 1
      starts 0x13 →
      (¬ (c.a < 8 ∧ c.b % 4096 = 0 ∧ isHbm c.b = true ∧ isHbm last = true ∧ homeOf c.b = c.a ∧ homeOf last = c.a) →
        Leads s .hcRegisterInbox passed)
      ∧ (c.a < 8 → c.b % 4096 = 0 → isHbm c.b = true → isHbm last = true → homeOf c.b = c.a → homeOf last = c.a →
        (∀ t ∈ s.place.tails, t.die ≠ c.a) →
        Leads s .hcRegisterInbox fun t => passed t ∧ t.tableOf c.a = { s.tableOf c.a with inbox := some c.b }
          ∧ ∀ d, d ≠ c.a → t.tableOf d = s.tableOf d))
    ∧ (starts 0x20 →
      (s.gangNamed c = none → Leads s .hcResume passed)
      ∧ ∀ g, s.gangNamed c = some g →
        ((g.phase = .saved 0 ∨ g.phase = .saved 1) → Leads s .hcResume fun t => passed t ∧ .gangResume ∈ t.work
          ∧ t.gangNamed c = some { g with charge := 0, phase := .ready })
        ∧ (¬ (g.phase = .saved 0 ∨ g.phase = .saved 1) → Leads s .hcResume fun t => passed t ∧ t.disp.gangs = s.disp.gangs))
    ∧ (starts 0x21 →
      (s.gangNamed c = none → Leads s .hcKill passed)
      ∧ ∀ g, s.gangNamed c = some g →
        let stops : Prop := ∃ w, g.phase = .stopping w
        let begun : Prop := g.areas ≠ [] ∨ g.reserved = true ∨ ∃ h ∈ s.members g, h.phase ≠ .run
        (g.phase = .ready ∨ (∃ w, g.phase = .saved w) → Leads s .hcKill fun t => passed t ∧ .gangResume ∈ t.work
          ∧ t.gangNamed c = some { g with killed := true, phase := .ready })
        ∧ (stops → begun → Leads s .hcKill fun t => passed t ∧ t.gangNamed c = some { g with killed := true })
        ∧ (g.phase = .run ∨ stops ∧ ¬ begun → Leads s .hcKill fun t => passed t
          ∧ ∀ k ∈ g.harts, ∀ h, s.hartOf k = some h → h.phase = .run → ∃ h', t.hartOf k = some h' ∧ h'.sr.cause = 0x13 ∧ h'.sr.tval = 0
            ∧ h'.queue = [] ∧ h'.ctx = none ∧ h'.wait = .none
            ∧ (if h.sr.kexit = 0 then h'.phase = .halted else h'.phase = .run ∧ h'.pc = h.sr.kexit)))
    ∧ (p.power = .run → p.hcBusy = none → (s.hostCmdPoisoned = true ∨ s.hostCmdListed c = false) → Leads s .hcMalformed passed)
    ∧ (starts 0x30 → Leads s .hcEnterShuttered fun t => t.host.power = .entering ∧ t.host.hchead = (p.hchead + 1) % 1024
      ∧ .shutteredEntry ∈ t.work ∧ t.disp.gangs = stoppedFor s 2)

/-- R295 to R297, R369, R372, R374 to R377: what starts an entry into Shuttered, what the entry writes down, how the module leaves, what
reduced retention keeps, and that a loss of power and a reset keep only the fuses.
Choices of the model in it: notes/assumptions/58.md, 59.md, 60.md, 61.md, 62.md. -/
def Obligations.PowerStatesKeepWhatTheyPromise : Prop :=
  ∀ (s : State),
    let p := s.host
    let port (q : HostPort) : State := { s with host := q }
    let again (w : Power) : State := { State.reset with
      inputs := s.inputs, fresh := s.fresh, rounds := s.rounds,
      host := { HostPort.reset with rollback := p.rollback, fuseKey := p.fuseKey, pin := p.pin, pinAt := p.pinAt, power := w } }
    let entry (k : Nat) := p.jbase + 32 * ((s.disp.jhead.toNat + k) % 65536)
    let back := s.disp.gangs.map fun g => if g.phase == .saved 2 then { g with phase := .ready } else g
    (p.power = .run → Leads s .shutterEnterWrite fun t => t.host.power = .entering ∧ t.host.exitOnLink = !p.pin
      ∧ t.disp.gangs = stoppedFor s 2 ∧ .shutteredEntry ∈ t.work ∧ t.hart = s.hart)
    ∧ (p.power = .entering → exec .shutterEnterWrite s = .next s)
    ∧ (p.pin = false → p.power = .run → Leads s .brownoutPinAssert fun t => t.host.power = .entering ∧ t.host.pin = true
      ∧ t.host.exitOnLink = false ∧ t.disp.gangs = stoppedFor s 2 ∧ .shutteredEntry ∈ t.work)
    ∧ (p.pin = false → p.power = .leaving → exec .brownoutPinAssert s = .next { s with
      host := { p with pin := true, exitOnLink := false, power := .shuttered, exiting := false },
      disp := { s.disp with gangs := s.disp.gangs.map fun g => if g.phase == .ready then { g with phase := .saved 2 } else g } })
    ∧ (∀ w v, (w, v) ∈ [(Power.leavingReduced, Power.reduced), (.shuttered, .shuttered), (.reduced, .reduced), (.entering, .entering)] →
      p.pin = false → p.power = w →
      exec .brownoutPinAssert s = .next (port { p with pin := true, exitOnLink := false, power := v }))
    ∧ (p.pin = true → exec .brownoutPinDeassert s = .next (port { p with pin := false, pinAt := s.time.toNat }))
    ∧ (p.power = .entering → s.quiet = true → s.cells.wf = true → Leads s .shutteredEntry fun t =>
      t.host.power = .shuttered ∧ t.disp.jhead = s.disp.jhead + 3 ∧ t.counts = s.counts
      ∧ (∀ la i b, s.retiredLine la = false → DirtyByte s la i b → (∀ k < 3, 64 * la + i < entry k ∨ entry k + 32 ≤ 64 * la + i) →
        t.cells.read (64 * la + i) = b)
      ∧ ∀ l ∈ t.img.cache, l.dirty = 0 ∧ (l.level = .l3 ∨ l.level = .host))
    ∧ (p.power = .shuttered → s.pinReleased = true →
      exec .shutteredExit s = .next { port { p with power := .leaving } with work := s.work ++ [.shutteredExit] })
    ∧ (p.power = .reduced → s.pinReleased = true →
      exec .shutteredExit s = .next { port { p with power := .leavingReduced } with work := s.work ++ [.shutteredExit] })
    ∧ (p.power = .leaving → p.exiting = false → State.nextBack { s with disp := { s.disp with gangs := back } } ≠ none →
      Leads s .shutteredExit fun t => t.host.power = .leaving ∧ t.host.exiting = true ∧ Journaled s t ∧ .gangResume ∈ t.work
        ∧ t.disp.gangs = back)
    ∧ (p.power = .leaving → (∀ q ∈ s.disp.queues, q.latched = []) → (∀ g ∈ back, g.phase ≠ .ready) → Leads s .shutteredExit fun t =>
      t.host.power = .run ∧ t.host.exiting = false ∧ t.disp.gangs = back
        ∧ (∀ d < 8, s.alive d = true → .gangAdmit d ∈ t.work) ∧ (p.exiting = false → Journaled s t))
    ∧ (p.power = .leavingReduced → Leads s .shutteredExit fun t => t.host.power = .run ∧ t.host.linkUp = true ∧ Journaled s t)
    ∧ ((p.power = .entering ∨ p.power = .shuttered) → s.cells.wf = true → Leads s .reducedRetentionDrop fun t =>
      t.host.power = .reduced ∧ t.counts = [] ∧ t.disp.jhead = s.disp.jhead ∧ t.host.jbase = p.jbase ∧ t.hart = .free 0 0 ∧ t.others = []
      ∧ t.scratch = [] ∧ t.disp.launches = [] ∧ t.disp.gangs = [] ∧ t.img.cache = [] ∧ t.img.weightsLost = true
      ∧ (∀ k, t.hasKey k = false) ∧ (∀ d < 8, t.tableOf d = .reset)
      ∧ ∀ a, (∀ l ∈ s.img.cache, l.addr = a / 64 → l.dirty.getLsbD (a % 64) = false) → t.cells.read a = s.cells.read a)
    ∧ (p.power ≠ .off → exec .totalPowerLoss s = .next (again .off) ∧ exec .moduleReset s = .next (again .run))
    ∧ (p.power = .off → exec .coldStart s = .next (again .run))

/-! ## The machine as a whole -/

/-- R50, R189, R244, R250, R290: what reset leaves. No queue is bound, no virtual function enabled, no key held; every settle count,
clock, covered value, generation, version and error register is 0, every die alive, and `time` and `cycle` are 0. That no launch, no
request and no background step exists at reset is the model's reading of the same rules (notes/assumptions/1.md). -/
def Obligations.ResetLeavesTheListedValues : Prop :=
  let s := State.reset
  s.time = 0 ∧ s.cycle = 0
  ∧ (∀ q : Nat, (s.queueOf q).vf = none)
  ∧ (∀ v < 64, s.vfEnabled v = false)
  ∧ (∀ k ∈ s.host.keys.toList, k.loaded = none)
  ∧ (∀ f : Nat, countAt s f = 0)
  ∧ (∀ d : Nat, (s.die d).clock = Clock.zero ∧ (s.die d).covered = Clock.zero ∧ (s.die d).gen = 0)
  ∧ (∀ d < 8, (s.die d).alive = true)
  ∧ (∀ d : Nat, (s.tableOf d).version = 0 ∧ (s.tableOf d).bank0.version = 0 ∧ (s.tableOf d).bank0.experts = 0)
  ∧ (∀ d : Nat, errsOf s d = .reset)
  ∧ s.disp.jhead = 0 ∧ s.disp.launches = [] ∧ s.disp.gangs = [] ∧ s.fab.chans = [] ∧ s.bank.reqs = [] ∧ s.work = []
  ∧ (∀ h ∈ s.harts, h.phase = .free)

/-- The invariant holds at reset. -/
def Obligations.ResetMeetsTheInvariant : Prop := Inv State.reset

/-- R84: every step keeps the invariant: register s0 of every hart slot holds 0, and the arrays and the scratchpads keep their
canonical form. -/
def Obligations.EveryStepKeepsTheInvariant : Prop := ∀ s t : State, Inv s → step s = .next t → Inv t

/-- Every step goes on, whatever the state holds: a trap, a stall and an idle machine are next states. Only a module without power, for
which the environment has chosen no move, stops. Choices of the model in it: notes/assumptions/2.md, 4.md, 5.md. -/
def Obligations.EveryStepGoesOnUnlessThePowerIsOff : Prop :=
  ∀ s : State,
    (s.host.power = .off ∧ s.inputs = [] → step s = .fault .powerOff)
    ∧ (¬ (s.host.power = .off ∧ s.inputs = []) → Goes (step s))

/-- R13, R22, R37, R84, R98: a step runs the instruction that the next word decodes to. On the scalar stream that word stands at the
program counter, checked and read as R84 says; a word that decodes to nothing traps with cause 0x01. On the vector stream it is the word
of the running block. After it, time passes (`finish`). Choices of the model in it: notes/assumptions/2.md, 4.md, 18.md, 19.md, 29.md. -/
def Obligations.AStepRunsTheDecodedInstruction : Prop :=
  ∀ s : State,
    let m := s.applyAll s.plan.pre
    let last (o : Host.Outcome State Fault Refusal) : Host.Outcome State Fault Refusal := andThen o (finish s.plan.own)
    (s.plan.turn = .scalar → ∀ (a : Acc) (bs : List Byte), m.hart.pc.toNat % 4 = 0 → accessOf m m.hart.pc 4 .fetch = .ok a →
      Reached m a.leaf.home → Roomy m (a.pa / 64) 1 → seen m a 4 = some bs →
      (∀ p ∈ m.hart.ibuf, p.1 = m.hart.pc → p.2 = BitVec.ofNat 32 (ofBytes bs)) →
      ∃ t, t = { m with
          hart := { m.hart with ibuf := t.hart.ibuf }, fresh := t.fresh,
          img := { m.img with tlb := t.img.tlb, cache := t.img.cache, keys := t.img.keys } }
        ∧ (∀ i, decodeScalar (BitVec.ofNat 32 (ofBytes bs)) = .ok i → step s = last (exec i t))
        ∧ ((∀ i, decodeScalar (BitVec.ofNat 32 (ofBytes bs)) ≠ .ok i) → m.hart.sr.tvec ≠ 0 →
          step s = last (.next (trapped t 0x01 (BitVec.ofNat 64 (ofBytes bs % 2 ^ 32))))))
    ∧ (s.plan.turn = .scalar → ∀ c, m.hart.sr.tvec ≠ 0 → m.hart.pc.toNat % 4 = 0 → accessOf m m.hart.pc 4 .fetch = .error c → c ≠ 0x0E →
      ∃ t, t = { m with fresh := t.fresh, img := { m.img with tlb := t.img.tlb } }
        ∧ step s = last (.next (trapped t c m.hart.pc)))
    ∧ (∀ c i, s.plan.turn = .word → m.hart.ctx = some c → decodeVector (c.words.getD c.idx 0) = .ok i → step s = last (exec i m))
    ∧ (∀ i, s.plan.turn = .event i → step s = last (exec i m))
    ∧ (∀ k, s.plan.turn = .own k → step s = last (execMove k m))
    ∧ (s.plan.turn = .rest → step s = last (.next m))
    ∧ ∀ t, finish false t = .next { t with
        time := t.time + BitVec.ofNat 64 (Config.ticks t.fresh),
        cycle := if t.host.power ∈ [.shuttered, .reduced, .off] then t.cycle else t.cycle + BitVec.ofNat 64 (Config.cycles t.fresh),
        fresh := t.fresh + 1, rounds := t.rounds + 1 }

/-- R37, R38, R46: the worked encodings of the manual decode to the instructions that they are given for; the all-zero word, a dot of
the opcode map, a reserved selector and a field that must be zero are refused. -/
def Obligations.WordsDecodeToTheirInstructions : Prop :=
  decodeScalar 0x04E84C01 = .ok (.sub true 7 8 9)
  ∧ decodeScalar 0x08C1FFF0 = .ok (.addi 6 1 0xFFF0)
  ∧ decodeScalar 0x59210018 = .ok (.ldd 9 1 0x0018)
  ∧ decodeScalar 0x8480FFFD = .ok (.bne 4 0 0xFFFD)
  ∧ decodeScalar 0x9FE00010 = .ok (.jal 31 16)
  ∧ decodeScalar 0xF0602013 = .ok (.getsr 3 0x013)
  ∧ decodeVector 0x230886282D000000 = .ok (.vfma {
      form := 0, vd := 4, va := 8, vb := 12, m := 2, rep := true, rsz := 0, ridx := 5, ty := 10, ctl := 0, x := 0 })
  ∧ decodeScalar 0 = .error .reservedMajor ∧ decodeVector 0 = .error .reservedOpcode
  ∧ decodeScalar (0x2F#6 ++ 0#26) = .error .reservedMajor
  ∧ decodeScalar (0x01#6 ++ 0#15 ++ 0#6 ++ 0x17#5) = .error .reservedSelector
  ∧ decodeScalar (0x01#6 ++ 0#15 ++ 1#6 ++ 0x00#5) = .error .nonzeroField

/-- R36 to R46: for every well-formed instruction, decoding its word gives it back, and a word that decodes to an instruction is that
instruction's only word. -/
def Obligations.DecodingInvertsEncoding : Prop :=
  (∀ (i : Instr) (w : BitVec 32), i.wf = true → encodeScalar i = some w → decodeScalar w = .ok i)
  ∧ (∀ (i : Instr) (w : BitVec 64), i.wf = true → encodeVector i = some w → decodeVector w = .ok i)
  ∧ (∀ (i : Instr) (w : BitVec 32), decodeScalar w = .ok i → i.wf = true ∧ encodeScalar i = some w)
  ∧ (∀ (i : Instr) (w : BitVec 64), decodeVector w = .ok i → i.wf = true ∧ encodeVector i = some w)
end

