-- ==== Sys2Proof/Laws/Memory.lean ====
section
/-!
SUPPORT. Sparse memory: what a read after a write gives, and that every write keeps the canonical form (strictly rising
addresses, no entry equal to what an unlisted byte reads as).
-/

namespace Sys2Proof.Machine

/-- A write read back. -/
theorem Memory.read_write_same : ∀ (m : Memory) (k : Nat) (v : Byte), m.wfFrom 0 → (m.write k v).read k = v := by
  suffices h : ∀ (m : Memory) (lo k : Nat) (v : Byte), m.wfFrom lo → (m.write k v).read k = v from
    fun m k v => h m 0 k v
  intro m
  induction m with
  | nil =>
    intro lo k v _
    simp only [Memory.write]
    split <;> simp_all [Memory.read]
  | cons c m ih =>
    obtain ⟨a, b⟩ := c
    intro lo k v h
    simp only [Memory.wfFrom, Bool.and_eq_true] at h
    have above : ∀ (m : Memory) (lo : Nat), k < lo → m.wfFrom lo → m.read k = 0 := by
      intro m
      induction m with
      | nil => intros; rfl
      | cons c m ih =>
        intro lo hk hw
        simp only [Memory.wfFrom, Bool.and_eq_true, decide_eq_true_eq] at hw
        rw [Memory.read, if_neg (by omega), ih (c.1 + 1) (by omega) hw.2]
    simp only [Memory.write]
    split
    · split
      · rename_i h1 h2
        rw [Memory.read, if_neg (by omega), above m (a + 1) (by omega) h.2, h2]
      · simp [Memory.read]
    · split
      · split
        · rename_i h1 h2 h3
          rw [above m (a + 1) (by omega) h.2, h3]
        · rename_i h2 _; simp [Memory.read, h2]
      · rename_i h1 h2
        rw [Memory.read, if_neg h2]
        exact ih _ k v h.2

/-- A write leaves every other byte. -/
theorem Memory.read_write_other : ∀ (m : Memory) (k : Nat) (v : Byte) (j lo : Nat), m.wfFrom lo → j ≠ k →
    (m.write k v).read j = m.read j := by
  intro m
  induction m with
  | nil =>
    intro k v j lo _ hj
    simp only [Memory.write]
    split <;> simp [Memory.read, hj]
  | cons c m ih =>
    obtain ⟨a, b⟩ := c
    intro k v j lo h hj
    simp only [Memory.wfFrom, Bool.and_eq_true] at h
    simp only [Memory.write]
    split
    · split
      · rfl
      · rw [Memory.read, if_neg hj]
    · split
      · rename_i h1 h2
        have hja : j ≠ a := h2 ▸ hj
        split <;> simp [Memory.read, hja]
      · rw [Memory.read, Memory.read, ih k v j _ h.2 hj]

/-- The form at a bound is the form at any bound below. -/
theorem Memory.wfFrom_le : ∀ (m : Memory) {lo hi : Nat}, lo ≤ hi → m.wfFrom hi → m.wfFrom lo := by
  intro m lo hi hle h
  cases m with
  | nil => rfl
  | cons c m =>
    simp only [Memory.wfFrom, Bool.and_eq_true, decide_eq_true_eq] at h ⊢
    exact ⟨⟨by omega, h.1.2⟩, h.2⟩

theorem Memory.write_wfFrom : ∀ (m : Memory) (lo k : Nat) (v : Byte), lo ≤ k → m.wfFrom lo → (m.write k v).wfFrom lo := by
  intro m
  induction m with
  | nil =>
    intro lo k v hk _
    simp only [Memory.write]
    split
    · rfl
    · rename_i h; simp [Memory.wfFrom, hk]; exact h
  | cons c m ih =>
    obtain ⟨a, b⟩ := c
    intro lo k v hk h
    have h' := h
    simp only [Memory.wfFrom, Bool.and_eq_true, decide_eq_true_eq, bne_iff_ne] at h'
    obtain ⟨⟨h1, h2⟩, h3⟩ := h'
    simp only [Memory.write]
    split
    · rename_i hlt
      split
      · exact h
      · rename_i hv
        simp only [Memory.wfFrom, Bool.and_eq_true, decide_eq_true_eq, bne_iff_ne]
        exact ⟨⟨hk, hv⟩, ⟨by omega, h2⟩, h3⟩
    · split
      · rename_i hlt heq
        split
        · exact Memory.wfFrom_le m (by omega) h3
        · rename_i hv
          simp only [Memory.wfFrom, Bool.and_eq_true, decide_eq_true_eq, bne_iff_ne]
          exact ⟨⟨h1, hv⟩, h3⟩
      · rename_i hlt hne
        simp only [Memory.wfFrom, Bool.and_eq_true, decide_eq_true_eq, bne_iff_ne]
        exact ⟨⟨h1, h2⟩, ih (a + 1) k v (by omega) h3⟩

/-- A write keeps the canonical form. -/
theorem Memory.write_wf (m : Memory) (k : Nat) (v : Byte) (h : m.wf = true) : (m.write k v).wf = true :=
  Memory.write_wfFrom m 0 k v (Nat.zero_le k) h

/-- Consecutive writes keep the canonical form. -/
theorem Memory.writes_wf : ∀ (bs : List Byte) (m : Memory) (k : Nat), m.wf = true → (m.writes k bs).wf = true
  | [], _, _, h => h
  | v :: vs, m, k, h => Memory.writes_wf vs (m.write k v) (k + 1) (Memory.write_wf m k v h)

/-- What a byte reads as after consecutive writes. -/
theorem Memory.read_writes : ∀ (bs : List Byte) (m : Memory) (k j : Nat), m.wf = true →
    (m.writes k bs).read j = if k ≤ j ∧ j < k + bs.length then bs.getD (j - k) 0 else m.read j
  | [], m, k, j, _ => by
    rw [if_neg (by simp)]; rfl
  | v :: vs, m, k, j, h => by
    rw [Memory.writes, Memory.read_writes vs (m.write k v) (k + 1) j (Memory.write_wf m k v h)]
    by_cases hj : j = k
    · subst hj
      rw [if_neg (by omega), if_pos (by simp), Memory.read_write_same m j v h]
      simp
    · by_cases hin : k + 1 ≤ j ∧ j < k + 1 + vs.length
      · rw [if_pos hin, if_pos (by simp only [List.length_cons]; omega)]
        have : j - k = (j - (k + 1)) + 1 := by omega
        rw [this]; rfl
      · rw [if_neg hin, if_neg (by simp only [List.length_cons]; omega), Memory.read_write_other m k v j 0 h hj]

end Sys2Proof.Machine
end

