-- ==== Sys2Proof/Laws/Run.lean ====
section
/-!
SUPPORT. How a meaning runs: one equation for each primitive of the monad of meanings, so that a proof about an instruction
steps through its text by rewriting and never unfolds the monad.
-/

namespace Sys2Proof.Machine

variable {s0 : State} {α β : Type}

@[simp] theorem Run.emit_s (u : Upd) (r : Run s0) : (r.emit u).s = u.apply r.s := rfl
@[simp] theorem Run.start_s : (Run.start s0).s = s0 := rfl

@[simp] theorem M.bind_run (m : M s0 α) (f : α → M s0 β) (r : Run s0) :
    (m >>= f) r = match m r with
      | .ok (a, r') => f a r'
      | .error e => .error e := by
  show (StateT.bind m f) r = _
  unfold StateT.bind
  simp only [bind, Except.bind]
  cases m r <;> rfl

@[simp] theorem M.pure_run (a : α) (r : Run s0) : (pure a : M s0 α) r = .ok (a, r) := rfl
@[simp] theorem M.map_run (f : α → β) (m : M s0 α) (r : Run s0) :
    (f <$> m) r = match m r with
      | .ok (a, r') => .ok (f a, r')
      | .error e => .error e := by
  show (StateT.map f m) r = _
  unfold StateT.map
  simp only [bind, Except.bind]
  cases m r <;> rfl

@[simp] theorem M.ite_run (c : Prop) [Decidable c] (m n : M s0 α) (r : Run s0) :
    (if c then m else n) r = if c then m r else n r := by
  split <;> rfl

@[simp] theorem M.st_run (r : Run s0) : M.st r = .ok (r.s, r) := rfl
@[simp] theorem M.emit_run (u : Upd) (r : Run s0) : M.emit u r = .ok (⟨⟩, r.emit u) := rfl
@[simp] theorem M.done_run (r : Run s0) : (M.done : M s0 α) r = .error r := rfl
@[simp] theorem M.stall_run (r : Run s0) : (M.stall : M s0 α) r = .error (Run.start s0) := rfl
@[simp] theorem M.hart_run (r : Run s0) : M.hart r = .ok (r.s.hart, r) := rfl
@[simp] theorem M.rd_run (d : Reg) (r : Run s0) : M.rd d r = .ok (r.s.hart.reg d, r) := rfl
@[simp] theorem M.setReg_run (d : Reg) (v : Word) (r : Run s0) : M.setReg d v r = .ok (⟨⟩, r.emit (.reg d v)) := rfl
@[simp] theorem M.pc_run (r : Run s0) : M.pc r = .ok (r.s.hart.pc, r) := rfl
@[simp] theorem M.setPc_run (v : Word) (r : Run s0) : M.setPc v r = .ok (⟨⟩, r.emit (.pc v)) := rfl
@[simp] theorem M.advance_run (r : Run s0) : M.advance r = .ok (⟨⟩, r.emit (.pc (r.s.hart.pc + 4))) := rfl
@[simp] theorem M.modHart_run (f : Hart → Hart) (r : Run s0) :
    M.modHart f r = .ok (⟨⟩, r.emit (.hart (f r.s.hart))) := rfl
@[simp] theorem M.modSr_run (f : SRegs → SRegs) (r : Run s0) :
    M.modSr f r = .ok (⟨⟩, r.emit (.hart { r.s.hart with sr := f r.s.hart.sr })) := rfl
@[simp] theorem M.modVec_run (f : VecState → VecState) (r : Run s0) :
    M.modVec f r = .ok (⟨⟩, r.emit (.hart { r.s.hart with vec := f r.s.hart.vec })) := rfl
@[simp] theorem M.modTile_run (f : Tile → Tile) (r : Run s0) :
    M.modTile f r = .ok (⟨⟩, r.emit (.hart { r.s.hart with tile := f r.s.hart.tile })) := rfl
@[simp] theorem M.draw_run (r : Run s0) : M.draw r = .ok (r.s.fresh, r.emit (.fresh (r.s.fresh + 1))) := rfl
@[simp] theorem M.freeWord_run (r : Run s0) :
    M.freeWord r = .ok (Config.freeWord r.s.fresh, r.emit (.fresh (r.s.fresh + 1))) := rfl
@[simp] theorem M.freeVReg_run (r : Run s0) :
    M.freeVReg r = .ok (Config.freeVReg r.s.fresh, r.emit (.fresh (r.s.fresh + 1))) := rfl
@[simp] theorem M.freeBool_run (r : Run s0) :
    M.freeBool r = .ok (Config.freeBool r.s.fresh, r.emit (.fresh (r.s.fresh + 1))) := rfl
@[simp] theorem M.push_run (i : Instr) (r : Run s0) : M.push i r = .ok (⟨⟩, r.emit (.work (r.s.work ++ [i]))) := rfl
@[simp] theorem M.modImg_run (f : Images → Images) (r : Run s0) :
    M.modImg f r = .ok (⟨⟩, r.emit (.img (f r.s.img))) := rfl
@[simp] theorem M.modBank_run (f : InPlace → InPlace) (r : Run s0) :
    M.modBank f r = .ok (⟨⟩, r.emit (.bank (f r.s.bank))) := rfl
@[simp] theorem M.modFab_run (f : Fabric → Fabric) (r : Run s0) :
    M.modFab f r = .ok (⟨⟩, r.emit (.fab (f r.s.fab))) := rfl
@[simp] theorem M.modDisp_run (f : Dispatch → Dispatch) (r : Run s0) :
    M.modDisp f r = .ok (⟨⟩, r.emit (.disp (f r.s.disp))) := rfl
@[simp] theorem M.modPlace_run (f : Placement → Placement) (r : Run s0) :
    M.modPlace f r = .ok (⟨⟩, r.emit (.placement (f r.s.place))) := rfl
@[simp] theorem M.modPort_run (f : HostPort → HostPort) (r : Run s0) :
    M.modPort f r = .ok (⟨⟩, r.emit (.port (f r.s.host))) := rfl
@[simp] theorem M.need_run (p : Bool) (r : Run s0) :
    M.need p r = if p then .ok (⟨⟩, r) else .error (Run.start s0) := by
  cases p <;> rfl
@[simp] theorem M.each_nil_run (f : β → M s0 PUnit) (r : Run s0) : M.each [] f r = .ok (⟨⟩, r) := rfl
@[simp] theorem M.each_cons_run (b : β) (bs : List β) (f : β → M s0 PUnit) (r : Run s0) :
    M.each (b :: bs) f r = match f b r with
      | .ok (_, r') => M.each bs f r'
      | .error e => .error e := by
  show (f b >>= fun _ => M.each bs f) r = _
  rw [M.bind_run]
  cases f b r <;> rfl

/-- The state in which a meaning ends, by the way it ended. -/
def ended (x : Except (Run s0) (PUnit × Run s0)) : State :=
  match x with
  | .ok (_, r) => r.s
  | .error r => r.s

@[simp] theorem ended_ok (u : PUnit) (r : Run s0) : ended (.ok (u, r)) = r.s := rfl
@[simp] theorem ended_error (r : Run s0) : ended (.error r) = r.s := rfl

/-- An arm answers the state in which its meaning ends: never a fault and never a refusal. -/
theorem exec1_eq (m : M s0 PUnit) : exec1 s0 m = .next (ended (m (Run.start s0))) := by
  unfold exec1 M.run ended
  cases m (Run.start s0) <;> rfl

/-- Whatever an arm answers is reached by primitive updates alone. -/
theorem exec1_reach {m : M s0 PUnit} {t : State} (h : exec1 s0 m = .next t) : Reach s0 t := by
  unfold exec1 at h
  injection h with h
  exact h ▸ m.run.reach

end Sys2Proof.Machine
end

