-- ==== Sys2Proof/Laws/Reach.lean ====
section
/-!
SUPPORT. Everything a step does is a sequence of primitive updates: what every update keeps, every instruction and every step
keeps.
-/

namespace Sys2Proof.Machine

/-- One run after another. -/
theorem Reach.trans {a b c : State} (h : Reach a b) (k : Reach b c) : Reach a c := by
  induction k with
  | refl => exact h
  | step u _ ih => exact .step u ih

/-- What every update keeps, every run keeps. -/
theorem Reach.keeps {p : State → Prop} (hp : ∀ (u : Upd) (s : State), p s → p (u.apply s)) {s t : State} (h : Reach s t)
    (hs : p s) : p t := by
  induction h with
  | refl => exact hs
  | step u _ ih => exact hp u _ ih

/-- A list of updates is a run. -/
theorem reach_applyAll (us : List Upd) : ∀ s : State, Reach s (s.applyAll us) := by
  induction us with
  | nil => exact fun _ => .refl
  | cons u us ih => exact fun s => Reach.trans (.step u .refl) (ih (u.apply s))

/-- What an instruction answers is reached by primitive updates alone. -/
theorem exec_reach {i : Instr} {s t : State} (h : exec i s = .next t) : Reach s t := by
  cases i <;> exact exec1_reach h

/-- What ends a step is reached by primitive updates alone. -/
theorem finish_reach {own : Bool} {s t : State} (h : finish own s = .next t) : Reach s t := exec1_reach h

end Sys2Proof.Machine
end

