-- ==== Sys2Proof/Laws/State.lean ====
section
/-!
SUPPORT. What every primitive update does to every field of the state: one lemma for each field and update, so that no proof
unfolds a record update.
-/

namespace Sys2Proof.Machine

variable (s : State)

/-! `pc` -/

@[simp] theorem pc_hart (v : Word) : (Upd.apply s (.pc v)).hart = { s.hart with pc := v } := rfl
@[simp] theorem pc_others (v : Word) : (Upd.apply s (.pc v)).others = s.others := rfl
@[simp] theorem pc_cells (v : Word) : (Upd.apply s (.pc v)).cells = s.cells := rfl
@[simp] theorem pc_scratch (v : Word) : (Upd.apply s (.pc v)).scratch = s.scratch := rfl
@[simp] theorem pc_counts (v : Word) : (Upd.apply s (.pc v)).counts = s.counts := rfl
@[simp] theorem pc_img (v : Word) : (Upd.apply s (.pc v)).img = s.img := rfl
@[simp] theorem pc_bank (v : Word) : (Upd.apply s (.pc v)).bank = s.bank := rfl
@[simp] theorem pc_fab (v : Word) : (Upd.apply s (.pc v)).fab = s.fab := rfl
@[simp] theorem pc_disp (v : Word) : (Upd.apply s (.pc v)).disp = s.disp := rfl
@[simp] theorem pc_place (v : Word) : (Upd.apply s (.pc v)).place = s.place := rfl
@[simp] theorem pc_host (v : Word) : (Upd.apply s (.pc v)).host = s.host := rfl
@[simp] theorem pc_time (v : Word) : (Upd.apply s (.pc v)).time = s.time := rfl
@[simp] theorem pc_cycle (v : Word) : (Upd.apply s (.pc v)).cycle = s.cycle := rfl
@[simp] theorem pc_fresh (v : Word) : (Upd.apply s (.pc v)).fresh = s.fresh := rfl
@[simp] theorem pc_rounds (v : Word) : (Upd.apply s (.pc v)).rounds = s.rounds := rfl
@[simp] theorem pc_inputs (v : Word) : (Upd.apply s (.pc v)).inputs = s.inputs := rfl
@[simp] theorem pc_work (v : Word) : (Upd.apply s (.pc v)).work = s.work := rfl

/-! `hart` -/

@[simp] theorem hart_hart (h : Hart) : (Upd.apply s (.hart h)).hart = { h with x := s.hart.x } := rfl
@[simp] theorem hart_others (h : Hart) : (Upd.apply s (.hart h)).others = s.others := rfl
@[simp] theorem hart_cells (h : Hart) : (Upd.apply s (.hart h)).cells = s.cells := rfl
@[simp] theorem hart_scratch (h : Hart) : (Upd.apply s (.hart h)).scratch = s.scratch := rfl
@[simp] theorem hart_counts (h : Hart) : (Upd.apply s (.hart h)).counts = s.counts := rfl
@[simp] theorem hart_img (h : Hart) : (Upd.apply s (.hart h)).img = s.img := rfl
@[simp] theorem hart_bank (h : Hart) : (Upd.apply s (.hart h)).bank = s.bank := rfl
@[simp] theorem hart_fab (h : Hart) : (Upd.apply s (.hart h)).fab = s.fab := rfl
@[simp] theorem hart_disp (h : Hart) : (Upd.apply s (.hart h)).disp = s.disp := rfl
@[simp] theorem hart_place (h : Hart) : (Upd.apply s (.hart h)).place = s.place := rfl
@[simp] theorem hart_host (h : Hart) : (Upd.apply s (.hart h)).host = s.host := rfl
@[simp] theorem hart_time (h : Hart) : (Upd.apply s (.hart h)).time = s.time := rfl
@[simp] theorem hart_cycle (h : Hart) : (Upd.apply s (.hart h)).cycle = s.cycle := rfl
@[simp] theorem hart_fresh (h : Hart) : (Upd.apply s (.hart h)).fresh = s.fresh := rfl
@[simp] theorem hart_rounds (h : Hart) : (Upd.apply s (.hart h)).rounds = s.rounds := rfl
@[simp] theorem hart_inputs (h : Hart) : (Upd.apply s (.hart h)).inputs = s.inputs := rfl
@[simp] theorem hart_work (h : Hart) : (Upd.apply s (.hart h)).work = s.work := rfl

/-! `cells` -/

@[simp] theorem cells_hart (pa : Nat) (bs : List Byte) : (Upd.apply s (.cells pa bs)).hart = s.hart := rfl
@[simp] theorem cells_others (pa : Nat) (bs : List Byte) : (Upd.apply s (.cells pa bs)).others = s.others := rfl
@[simp] theorem cells_cells (pa : Nat) (bs : List Byte) : (Upd.apply s (.cells pa bs)).cells = s.cells.writes pa bs := rfl
@[simp] theorem cells_scratch (pa : Nat) (bs : List Byte) : (Upd.apply s (.cells pa bs)).scratch = s.scratch := rfl
@[simp] theorem cells_counts (pa : Nat) (bs : List Byte) : (Upd.apply s (.cells pa bs)).counts = s.counts := rfl
@[simp] theorem cells_img (pa : Nat) (bs : List Byte) : (Upd.apply s (.cells pa bs)).img = s.img := rfl
@[simp] theorem cells_bank (pa : Nat) (bs : List Byte) : (Upd.apply s (.cells pa bs)).bank = s.bank := rfl
@[simp] theorem cells_fab (pa : Nat) (bs : List Byte) : (Upd.apply s (.cells pa bs)).fab = s.fab := rfl
@[simp] theorem cells_disp (pa : Nat) (bs : List Byte) : (Upd.apply s (.cells pa bs)).disp = s.disp := rfl
@[simp] theorem cells_place (pa : Nat) (bs : List Byte) : (Upd.apply s (.cells pa bs)).place = s.place := rfl
@[simp] theorem cells_host (pa : Nat) (bs : List Byte) : (Upd.apply s (.cells pa bs)).host = s.host := rfl
@[simp] theorem cells_time (pa : Nat) (bs : List Byte) : (Upd.apply s (.cells pa bs)).time = s.time := rfl
@[simp] theorem cells_cycle (pa : Nat) (bs : List Byte) : (Upd.apply s (.cells pa bs)).cycle = s.cycle := rfl
@[simp] theorem cells_fresh (pa : Nat) (bs : List Byte) : (Upd.apply s (.cells pa bs)).fresh = s.fresh := rfl
@[simp] theorem cells_rounds (pa : Nat) (bs : List Byte) : (Upd.apply s (.cells pa bs)).rounds = s.rounds := rfl
@[simp] theorem cells_inputs (pa : Nat) (bs : List Byte) : (Upd.apply s (.cells pa bs)).inputs = s.inputs := rfl
@[simp] theorem cells_work (pa : Nat) (bs : List Byte) : (Upd.apply s (.cells pa bs)).work = s.work := rfl

/-! `scratch` -/

@[simp] theorem scratch_hart (a : Nat) (bs : List Byte) : (Upd.apply s (.scratch a bs)).hart = s.hart := rfl
@[simp] theorem scratch_others (a : Nat) (bs : List Byte) : (Upd.apply s (.scratch a bs)).others = s.others := rfl
@[simp] theorem scratch_cells (a : Nat) (bs : List Byte) : (Upd.apply s (.scratch a bs)).cells = s.cells := rfl
@[simp] theorem scratch_scratch (a : Nat) (bs : List Byte) : (Upd.apply s (.scratch a bs)).scratch = s.scratch.writes a bs := rfl
@[simp] theorem scratch_counts (a : Nat) (bs : List Byte) : (Upd.apply s (.scratch a bs)).counts = s.counts := rfl
@[simp] theorem scratch_img (a : Nat) (bs : List Byte) : (Upd.apply s (.scratch a bs)).img = s.img := rfl
@[simp] theorem scratch_bank (a : Nat) (bs : List Byte) : (Upd.apply s (.scratch a bs)).bank = s.bank := rfl
@[simp] theorem scratch_fab (a : Nat) (bs : List Byte) : (Upd.apply s (.scratch a bs)).fab = s.fab := rfl
@[simp] theorem scratch_disp (a : Nat) (bs : List Byte) : (Upd.apply s (.scratch a bs)).disp = s.disp := rfl
@[simp] theorem scratch_place (a : Nat) (bs : List Byte) : (Upd.apply s (.scratch a bs)).place = s.place := rfl
@[simp] theorem scratch_host (a : Nat) (bs : List Byte) : (Upd.apply s (.scratch a bs)).host = s.host := rfl
@[simp] theorem scratch_time (a : Nat) (bs : List Byte) : (Upd.apply s (.scratch a bs)).time = s.time := rfl
@[simp] theorem scratch_cycle (a : Nat) (bs : List Byte) : (Upd.apply s (.scratch a bs)).cycle = s.cycle := rfl
@[simp] theorem scratch_fresh (a : Nat) (bs : List Byte) : (Upd.apply s (.scratch a bs)).fresh = s.fresh := rfl
@[simp] theorem scratch_rounds (a : Nat) (bs : List Byte) : (Upd.apply s (.scratch a bs)).rounds = s.rounds := rfl
@[simp] theorem scratch_inputs (a : Nat) (bs : List Byte) : (Upd.apply s (.scratch a bs)).inputs = s.inputs := rfl
@[simp] theorem scratch_work (a : Nat) (bs : List Byte) : (Upd.apply s (.scratch a bs)).work = s.work := rfl

/-! `counts` -/

@[simp] theorem counts_hart (c : List (Nat × BitVec 32)) : (Upd.apply s (.counts c)).hart = s.hart := rfl
@[simp] theorem counts_others (c : List (Nat × BitVec 32)) : (Upd.apply s (.counts c)).others = s.others := rfl
@[simp] theorem counts_cells (c : List (Nat × BitVec 32)) : (Upd.apply s (.counts c)).cells = s.cells := rfl
@[simp] theorem counts_scratch (c : List (Nat × BitVec 32)) : (Upd.apply s (.counts c)).scratch = s.scratch := rfl
@[simp] theorem counts_counts (c : List (Nat × BitVec 32)) : (Upd.apply s (.counts c)).counts = c := rfl
@[simp] theorem counts_img (c : List (Nat × BitVec 32)) : (Upd.apply s (.counts c)).img = s.img := rfl
@[simp] theorem counts_bank (c : List (Nat × BitVec 32)) : (Upd.apply s (.counts c)).bank = s.bank := rfl
@[simp] theorem counts_fab (c : List (Nat × BitVec 32)) : (Upd.apply s (.counts c)).fab = s.fab := rfl
@[simp] theorem counts_disp (c : List (Nat × BitVec 32)) : (Upd.apply s (.counts c)).disp = s.disp := rfl
@[simp] theorem counts_place (c : List (Nat × BitVec 32)) : (Upd.apply s (.counts c)).place = s.place := rfl
@[simp] theorem counts_host (c : List (Nat × BitVec 32)) : (Upd.apply s (.counts c)).host = s.host := rfl
@[simp] theorem counts_time (c : List (Nat × BitVec 32)) : (Upd.apply s (.counts c)).time = s.time := rfl
@[simp] theorem counts_cycle (c : List (Nat × BitVec 32)) : (Upd.apply s (.counts c)).cycle = s.cycle := rfl
@[simp] theorem counts_fresh (c : List (Nat × BitVec 32)) : (Upd.apply s (.counts c)).fresh = s.fresh := rfl
@[simp] theorem counts_rounds (c : List (Nat × BitVec 32)) : (Upd.apply s (.counts c)).rounds = s.rounds := rfl
@[simp] theorem counts_inputs (c : List (Nat × BitVec 32)) : (Upd.apply s (.counts c)).inputs = s.inputs := rfl
@[simp] theorem counts_work (c : List (Nat × BitVec 32)) : (Upd.apply s (.counts c)).work = s.work := rfl

/-! `img` -/

@[simp] theorem img_hart (m : Images) : (Upd.apply s (.img m)).hart = s.hart := rfl
@[simp] theorem img_others (m : Images) : (Upd.apply s (.img m)).others = s.others := rfl
@[simp] theorem img_cells (m : Images) : (Upd.apply s (.img m)).cells = s.cells := rfl
@[simp] theorem img_scratch (m : Images) : (Upd.apply s (.img m)).scratch = s.scratch := rfl
@[simp] theorem img_counts (m : Images) : (Upd.apply s (.img m)).counts = s.counts := rfl
@[simp] theorem img_img (m : Images) : (Upd.apply s (.img m)).img = m := rfl
@[simp] theorem img_bank (m : Images) : (Upd.apply s (.img m)).bank = s.bank := rfl
@[simp] theorem img_fab (m : Images) : (Upd.apply s (.img m)).fab = s.fab := rfl
@[simp] theorem img_disp (m : Images) : (Upd.apply s (.img m)).disp = s.disp := rfl
@[simp] theorem img_place (m : Images) : (Upd.apply s (.img m)).place = s.place := rfl
@[simp] theorem img_host (m : Images) : (Upd.apply s (.img m)).host = s.host := rfl
@[simp] theorem img_time (m : Images) : (Upd.apply s (.img m)).time = s.time := rfl
@[simp] theorem img_cycle (m : Images) : (Upd.apply s (.img m)).cycle = s.cycle := rfl
@[simp] theorem img_fresh (m : Images) : (Upd.apply s (.img m)).fresh = s.fresh := rfl
@[simp] theorem img_rounds (m : Images) : (Upd.apply s (.img m)).rounds = s.rounds := rfl
@[simp] theorem img_inputs (m : Images) : (Upd.apply s (.img m)).inputs = s.inputs := rfl
@[simp] theorem img_work (m : Images) : (Upd.apply s (.img m)).work = s.work := rfl

/-! `bank` -/

@[simp] theorem bank_hart (b : InPlace) : (Upd.apply s (.bank b)).hart = s.hart := rfl
@[simp] theorem bank_others (b : InPlace) : (Upd.apply s (.bank b)).others = s.others := rfl
@[simp] theorem bank_cells (b : InPlace) : (Upd.apply s (.bank b)).cells = s.cells := rfl
@[simp] theorem bank_scratch (b : InPlace) : (Upd.apply s (.bank b)).scratch = s.scratch := rfl
@[simp] theorem bank_counts (b : InPlace) : (Upd.apply s (.bank b)).counts = s.counts := rfl
@[simp] theorem bank_img (b : InPlace) : (Upd.apply s (.bank b)).img = s.img := rfl
@[simp] theorem bank_bank (b : InPlace) : (Upd.apply s (.bank b)).bank = b := rfl
@[simp] theorem bank_fab (b : InPlace) : (Upd.apply s (.bank b)).fab = s.fab := rfl
@[simp] theorem bank_disp (b : InPlace) : (Upd.apply s (.bank b)).disp = s.disp := rfl
@[simp] theorem bank_place (b : InPlace) : (Upd.apply s (.bank b)).place = s.place := rfl
@[simp] theorem bank_host (b : InPlace) : (Upd.apply s (.bank b)).host = s.host := rfl
@[simp] theorem bank_time (b : InPlace) : (Upd.apply s (.bank b)).time = s.time := rfl
@[simp] theorem bank_cycle (b : InPlace) : (Upd.apply s (.bank b)).cycle = s.cycle := rfl
@[simp] theorem bank_fresh (b : InPlace) : (Upd.apply s (.bank b)).fresh = s.fresh := rfl
@[simp] theorem bank_rounds (b : InPlace) : (Upd.apply s (.bank b)).rounds = s.rounds := rfl
@[simp] theorem bank_inputs (b : InPlace) : (Upd.apply s (.bank b)).inputs = s.inputs := rfl
@[simp] theorem bank_work (b : InPlace) : (Upd.apply s (.bank b)).work = s.work := rfl

/-! `fab` -/

@[simp] theorem fab_hart (f : Fabric) : (Upd.apply s (.fab f)).hart = s.hart := rfl
@[simp] theorem fab_others (f : Fabric) : (Upd.apply s (.fab f)).others = s.others := rfl
@[simp] theorem fab_cells (f : Fabric) : (Upd.apply s (.fab f)).cells = s.cells := rfl
@[simp] theorem fab_scratch (f : Fabric) : (Upd.apply s (.fab f)).scratch = s.scratch := rfl
@[simp] theorem fab_counts (f : Fabric) : (Upd.apply s (.fab f)).counts = s.counts := rfl
@[simp] theorem fab_img (f : Fabric) : (Upd.apply s (.fab f)).img = s.img := rfl
@[simp] theorem fab_bank (f : Fabric) : (Upd.apply s (.fab f)).bank = s.bank := rfl
@[simp] theorem fab_fab (f : Fabric) : (Upd.apply s (.fab f)).fab = f := rfl
@[simp] theorem fab_disp (f : Fabric) : (Upd.apply s (.fab f)).disp = s.disp := rfl
@[simp] theorem fab_place (f : Fabric) : (Upd.apply s (.fab f)).place = s.place := rfl
@[simp] theorem fab_host (f : Fabric) : (Upd.apply s (.fab f)).host = s.host := rfl
@[simp] theorem fab_time (f : Fabric) : (Upd.apply s (.fab f)).time = s.time := rfl
@[simp] theorem fab_cycle (f : Fabric) : (Upd.apply s (.fab f)).cycle = s.cycle := rfl
@[simp] theorem fab_fresh (f : Fabric) : (Upd.apply s (.fab f)).fresh = s.fresh := rfl
@[simp] theorem fab_rounds (f : Fabric) : (Upd.apply s (.fab f)).rounds = s.rounds := rfl
@[simp] theorem fab_inputs (f : Fabric) : (Upd.apply s (.fab f)).inputs = s.inputs := rfl
@[simp] theorem fab_work (f : Fabric) : (Upd.apply s (.fab f)).work = s.work := rfl

/-! `disp` -/

@[simp] theorem disp_hart (d : Dispatch) : (Upd.apply s (.disp d)).hart = s.hart := rfl
@[simp] theorem disp_others (d : Dispatch) : (Upd.apply s (.disp d)).others = s.others := rfl
@[simp] theorem disp_cells (d : Dispatch) : (Upd.apply s (.disp d)).cells = s.cells := rfl
@[simp] theorem disp_scratch (d : Dispatch) : (Upd.apply s (.disp d)).scratch = s.scratch := rfl
@[simp] theorem disp_counts (d : Dispatch) : (Upd.apply s (.disp d)).counts = s.counts := rfl
@[simp] theorem disp_img (d : Dispatch) : (Upd.apply s (.disp d)).img = s.img := rfl
@[simp] theorem disp_bank (d : Dispatch) : (Upd.apply s (.disp d)).bank = s.bank := rfl
@[simp] theorem disp_fab (d : Dispatch) : (Upd.apply s (.disp d)).fab = s.fab := rfl
@[simp] theorem disp_disp (d : Dispatch) : (Upd.apply s (.disp d)).disp = d := rfl
@[simp] theorem disp_place (d : Dispatch) : (Upd.apply s (.disp d)).place = s.place := rfl
@[simp] theorem disp_host (d : Dispatch) : (Upd.apply s (.disp d)).host = s.host := rfl
@[simp] theorem disp_time (d : Dispatch) : (Upd.apply s (.disp d)).time = s.time := rfl
@[simp] theorem disp_cycle (d : Dispatch) : (Upd.apply s (.disp d)).cycle = s.cycle := rfl
@[simp] theorem disp_fresh (d : Dispatch) : (Upd.apply s (.disp d)).fresh = s.fresh := rfl
@[simp] theorem disp_rounds (d : Dispatch) : (Upd.apply s (.disp d)).rounds = s.rounds := rfl
@[simp] theorem disp_inputs (d : Dispatch) : (Upd.apply s (.disp d)).inputs = s.inputs := rfl
@[simp] theorem disp_work (d : Dispatch) : (Upd.apply s (.disp d)).work = s.work := rfl

/-! `placement` -/

@[simp] theorem placement_hart (p : Placement) : (Upd.apply s (.placement p)).hart = s.hart := rfl
@[simp] theorem placement_others (p : Placement) : (Upd.apply s (.placement p)).others = s.others := rfl
@[simp] theorem placement_cells (p : Placement) : (Upd.apply s (.placement p)).cells = s.cells := rfl
@[simp] theorem placement_scratch (p : Placement) : (Upd.apply s (.placement p)).scratch = s.scratch := rfl
@[simp] theorem placement_counts (p : Placement) : (Upd.apply s (.placement p)).counts = s.counts := rfl
@[simp] theorem placement_img (p : Placement) : (Upd.apply s (.placement p)).img = s.img := rfl
@[simp] theorem placement_bank (p : Placement) : (Upd.apply s (.placement p)).bank = s.bank := rfl
@[simp] theorem placement_fab (p : Placement) : (Upd.apply s (.placement p)).fab = s.fab := rfl
@[simp] theorem placement_disp (p : Placement) : (Upd.apply s (.placement p)).disp = s.disp := rfl
@[simp] theorem placement_place (p : Placement) : (Upd.apply s (.placement p)).place = p := rfl
@[simp] theorem placement_host (p : Placement) : (Upd.apply s (.placement p)).host = s.host := rfl
@[simp] theorem placement_time (p : Placement) : (Upd.apply s (.placement p)).time = s.time := rfl
@[simp] theorem placement_cycle (p : Placement) : (Upd.apply s (.placement p)).cycle = s.cycle := rfl
@[simp] theorem placement_fresh (p : Placement) : (Upd.apply s (.placement p)).fresh = s.fresh := rfl
@[simp] theorem placement_rounds (p : Placement) : (Upd.apply s (.placement p)).rounds = s.rounds := rfl
@[simp] theorem placement_inputs (p : Placement) : (Upd.apply s (.placement p)).inputs = s.inputs := rfl
@[simp] theorem placement_work (p : Placement) : (Upd.apply s (.placement p)).work = s.work := rfl

/-! `port` -/

@[simp] theorem port_hart (p : HostPort) : (Upd.apply s (.port p)).hart = s.hart := rfl
@[simp] theorem port_others (p : HostPort) : (Upd.apply s (.port p)).others = s.others := rfl
@[simp] theorem port_cells (p : HostPort) : (Upd.apply s (.port p)).cells = s.cells := rfl
@[simp] theorem port_scratch (p : HostPort) : (Upd.apply s (.port p)).scratch = s.scratch := rfl
@[simp] theorem port_counts (p : HostPort) : (Upd.apply s (.port p)).counts = s.counts := rfl
@[simp] theorem port_img (p : HostPort) : (Upd.apply s (.port p)).img = s.img := rfl
@[simp] theorem port_bank (p : HostPort) : (Upd.apply s (.port p)).bank = s.bank := rfl
@[simp] theorem port_fab (p : HostPort) : (Upd.apply s (.port p)).fab = s.fab := rfl
@[simp] theorem port_disp (p : HostPort) : (Upd.apply s (.port p)).disp = s.disp := rfl
@[simp] theorem port_place (p : HostPort) : (Upd.apply s (.port p)).place = s.place := rfl
@[simp] theorem port_host (p : HostPort) : (Upd.apply s (.port p)).host = p := rfl
@[simp] theorem port_time (p : HostPort) : (Upd.apply s (.port p)).time = s.time := rfl
@[simp] theorem port_cycle (p : HostPort) : (Upd.apply s (.port p)).cycle = s.cycle := rfl
@[simp] theorem port_fresh (p : HostPort) : (Upd.apply s (.port p)).fresh = s.fresh := rfl
@[simp] theorem port_rounds (p : HostPort) : (Upd.apply s (.port p)).rounds = s.rounds := rfl
@[simp] theorem port_inputs (p : HostPort) : (Upd.apply s (.port p)).inputs = s.inputs := rfl
@[simp] theorem port_work (p : HostPort) : (Upd.apply s (.port p)).work = s.work := rfl

/-! `clocks` -/

@[simp] theorem clocks_hart (t c : Word) : (Upd.apply s (.clocks t c)).hart = s.hart := rfl
@[simp] theorem clocks_others (t c : Word) : (Upd.apply s (.clocks t c)).others = s.others := rfl
@[simp] theorem clocks_cells (t c : Word) : (Upd.apply s (.clocks t c)).cells = s.cells := rfl
@[simp] theorem clocks_scratch (t c : Word) : (Upd.apply s (.clocks t c)).scratch = s.scratch := rfl
@[simp] theorem clocks_counts (t c : Word) : (Upd.apply s (.clocks t c)).counts = s.counts := rfl
@[simp] theorem clocks_img (t c : Word) : (Upd.apply s (.clocks t c)).img = s.img := rfl
@[simp] theorem clocks_bank (t c : Word) : (Upd.apply s (.clocks t c)).bank = s.bank := rfl
@[simp] theorem clocks_fab (t c : Word) : (Upd.apply s (.clocks t c)).fab = s.fab := rfl
@[simp] theorem clocks_disp (t c : Word) : (Upd.apply s (.clocks t c)).disp = s.disp := rfl
@[simp] theorem clocks_place (t c : Word) : (Upd.apply s (.clocks t c)).place = s.place := rfl
@[simp] theorem clocks_host (t c : Word) : (Upd.apply s (.clocks t c)).host = s.host := rfl
@[simp] theorem clocks_time (t c : Word) : (Upd.apply s (.clocks t c)).time = t := rfl
@[simp] theorem clocks_cycle (t c : Word) : (Upd.apply s (.clocks t c)).cycle = c := rfl
@[simp] theorem clocks_fresh (t c : Word) : (Upd.apply s (.clocks t c)).fresh = s.fresh := rfl
@[simp] theorem clocks_rounds (t c : Word) : (Upd.apply s (.clocks t c)).rounds = s.rounds := rfl
@[simp] theorem clocks_inputs (t c : Word) : (Upd.apply s (.clocks t c)).inputs = s.inputs := rfl
@[simp] theorem clocks_work (t c : Word) : (Upd.apply s (.clocks t c)).work = s.work := rfl

/-! `fresh` -/

@[simp] theorem fresh_hart (n : Nat) : (Upd.apply s (.fresh n)).hart = s.hart := rfl
@[simp] theorem fresh_others (n : Nat) : (Upd.apply s (.fresh n)).others = s.others := rfl
@[simp] theorem fresh_cells (n : Nat) : (Upd.apply s (.fresh n)).cells = s.cells := rfl
@[simp] theorem fresh_scratch (n : Nat) : (Upd.apply s (.fresh n)).scratch = s.scratch := rfl
@[simp] theorem fresh_counts (n : Nat) : (Upd.apply s (.fresh n)).counts = s.counts := rfl
@[simp] theorem fresh_img (n : Nat) : (Upd.apply s (.fresh n)).img = s.img := rfl
@[simp] theorem fresh_bank (n : Nat) : (Upd.apply s (.fresh n)).bank = s.bank := rfl
@[simp] theorem fresh_fab (n : Nat) : (Upd.apply s (.fresh n)).fab = s.fab := rfl
@[simp] theorem fresh_disp (n : Nat) : (Upd.apply s (.fresh n)).disp = s.disp := rfl
@[simp] theorem fresh_place (n : Nat) : (Upd.apply s (.fresh n)).place = s.place := rfl
@[simp] theorem fresh_host (n : Nat) : (Upd.apply s (.fresh n)).host = s.host := rfl
@[simp] theorem fresh_time (n : Nat) : (Upd.apply s (.fresh n)).time = s.time := rfl
@[simp] theorem fresh_cycle (n : Nat) : (Upd.apply s (.fresh n)).cycle = s.cycle := rfl
@[simp] theorem fresh_fresh (n : Nat) : (Upd.apply s (.fresh n)).fresh = n := rfl
@[simp] theorem fresh_rounds (n : Nat) : (Upd.apply s (.fresh n)).rounds = s.rounds := rfl
@[simp] theorem fresh_inputs (n : Nat) : (Upd.apply s (.fresh n)).inputs = s.inputs := rfl
@[simp] theorem fresh_work (n : Nat) : (Upd.apply s (.fresh n)).work = s.work := rfl

/-! `rounds` -/

@[simp] theorem rounds_hart (n : Nat) : (Upd.apply s (.rounds n)).hart = s.hart := rfl
@[simp] theorem rounds_others (n : Nat) : (Upd.apply s (.rounds n)).others = s.others := rfl
@[simp] theorem rounds_cells (n : Nat) : (Upd.apply s (.rounds n)).cells = s.cells := rfl
@[simp] theorem rounds_scratch (n : Nat) : (Upd.apply s (.rounds n)).scratch = s.scratch := rfl
@[simp] theorem rounds_counts (n : Nat) : (Upd.apply s (.rounds n)).counts = s.counts := rfl
@[simp] theorem rounds_img (n : Nat) : (Upd.apply s (.rounds n)).img = s.img := rfl
@[simp] theorem rounds_bank (n : Nat) : (Upd.apply s (.rounds n)).bank = s.bank := rfl
@[simp] theorem rounds_fab (n : Nat) : (Upd.apply s (.rounds n)).fab = s.fab := rfl
@[simp] theorem rounds_disp (n : Nat) : (Upd.apply s (.rounds n)).disp = s.disp := rfl
@[simp] theorem rounds_place (n : Nat) : (Upd.apply s (.rounds n)).place = s.place := rfl
@[simp] theorem rounds_host (n : Nat) : (Upd.apply s (.rounds n)).host = s.host := rfl
@[simp] theorem rounds_time (n : Nat) : (Upd.apply s (.rounds n)).time = s.time := rfl
@[simp] theorem rounds_cycle (n : Nat) : (Upd.apply s (.rounds n)).cycle = s.cycle := rfl
@[simp] theorem rounds_fresh (n : Nat) : (Upd.apply s (.rounds n)).fresh = s.fresh := rfl
@[simp] theorem rounds_rounds (n : Nat) : (Upd.apply s (.rounds n)).rounds = n := rfl
@[simp] theorem rounds_inputs (n : Nat) : (Upd.apply s (.rounds n)).inputs = s.inputs := rfl
@[simp] theorem rounds_work (n : Nat) : (Upd.apply s (.rounds n)).work = s.work := rfl

/-! `inputs` -/

@[simp] theorem inputs_hart (l : List Move) : (Upd.apply s (.inputs l)).hart = s.hart := rfl
@[simp] theorem inputs_others (l : List Move) : (Upd.apply s (.inputs l)).others = s.others := rfl
@[simp] theorem inputs_cells (l : List Move) : (Upd.apply s (.inputs l)).cells = s.cells := rfl
@[simp] theorem inputs_scratch (l : List Move) : (Upd.apply s (.inputs l)).scratch = s.scratch := rfl
@[simp] theorem inputs_counts (l : List Move) : (Upd.apply s (.inputs l)).counts = s.counts := rfl
@[simp] theorem inputs_img (l : List Move) : (Upd.apply s (.inputs l)).img = s.img := rfl
@[simp] theorem inputs_bank (l : List Move) : (Upd.apply s (.inputs l)).bank = s.bank := rfl
@[simp] theorem inputs_fab (l : List Move) : (Upd.apply s (.inputs l)).fab = s.fab := rfl
@[simp] theorem inputs_disp (l : List Move) : (Upd.apply s (.inputs l)).disp = s.disp := rfl
@[simp] theorem inputs_place (l : List Move) : (Upd.apply s (.inputs l)).place = s.place := rfl
@[simp] theorem inputs_host (l : List Move) : (Upd.apply s (.inputs l)).host = s.host := rfl
@[simp] theorem inputs_time (l : List Move) : (Upd.apply s (.inputs l)).time = s.time := rfl
@[simp] theorem inputs_cycle (l : List Move) : (Upd.apply s (.inputs l)).cycle = s.cycle := rfl
@[simp] theorem inputs_fresh (l : List Move) : (Upd.apply s (.inputs l)).fresh = s.fresh := rfl
@[simp] theorem inputs_rounds (l : List Move) : (Upd.apply s (.inputs l)).rounds = s.rounds := rfl
@[simp] theorem inputs_inputs (l : List Move) : (Upd.apply s (.inputs l)).inputs = l := rfl
@[simp] theorem inputs_work (l : List Move) : (Upd.apply s (.inputs l)).work = s.work := rfl

/-! `work` -/

@[simp] theorem work_hart (l : List Instr) : (Upd.apply s (.work l)).hart = s.hart := rfl
@[simp] theorem work_others (l : List Instr) : (Upd.apply s (.work l)).others = s.others := rfl
@[simp] theorem work_cells (l : List Instr) : (Upd.apply s (.work l)).cells = s.cells := rfl
@[simp] theorem work_scratch (l : List Instr) : (Upd.apply s (.work l)).scratch = s.scratch := rfl
@[simp] theorem work_counts (l : List Instr) : (Upd.apply s (.work l)).counts = s.counts := rfl
@[simp] theorem work_img (l : List Instr) : (Upd.apply s (.work l)).img = s.img := rfl
@[simp] theorem work_bank (l : List Instr) : (Upd.apply s (.work l)).bank = s.bank := rfl
@[simp] theorem work_fab (l : List Instr) : (Upd.apply s (.work l)).fab = s.fab := rfl
@[simp] theorem work_disp (l : List Instr) : (Upd.apply s (.work l)).disp = s.disp := rfl
@[simp] theorem work_place (l : List Instr) : (Upd.apply s (.work l)).place = s.place := rfl
@[simp] theorem work_host (l : List Instr) : (Upd.apply s (.work l)).host = s.host := rfl
@[simp] theorem work_time (l : List Instr) : (Upd.apply s (.work l)).time = s.time := rfl
@[simp] theorem work_cycle (l : List Instr) : (Upd.apply s (.work l)).cycle = s.cycle := rfl
@[simp] theorem work_fresh (l : List Instr) : (Upd.apply s (.work l)).fresh = s.fresh := rfl
@[simp] theorem work_rounds (l : List Instr) : (Upd.apply s (.work l)).rounds = s.rounds := rfl
@[simp] theorem work_inputs (l : List Instr) : (Upd.apply s (.work l)).inputs = s.inputs := rfl
@[simp] theorem work_work (l : List Instr) : (Upd.apply s (.work l)).work = l := rfl

/-! `reg`: a write to s0 is discarded -/

theorem reg_hart (d : Reg) (v : Word) : (Upd.apply s (.reg d v)).hart =
    if d = 0 then s.hart else { s.hart with x := s.hart.x.set d.toNat v d.isLt } := by
  simp only [Upd.apply]; split <;> rfl
@[simp] theorem reg_others (d : Reg) (v : Word) : (Upd.apply s (.reg d v)).others = s.others := by
  simp only [Upd.apply]; split <;> rfl
@[simp] theorem reg_cells (d : Reg) (v : Word) : (Upd.apply s (.reg d v)).cells = s.cells := by
  simp only [Upd.apply]; split <;> rfl
@[simp] theorem reg_scratch (d : Reg) (v : Word) : (Upd.apply s (.reg d v)).scratch = s.scratch := by
  simp only [Upd.apply]; split <;> rfl
@[simp] theorem reg_counts (d : Reg) (v : Word) : (Upd.apply s (.reg d v)).counts = s.counts := by
  simp only [Upd.apply]; split <;> rfl
@[simp] theorem reg_img (d : Reg) (v : Word) : (Upd.apply s (.reg d v)).img = s.img := by
  simp only [Upd.apply]; split <;> rfl
@[simp] theorem reg_bank (d : Reg) (v : Word) : (Upd.apply s (.reg d v)).bank = s.bank := by
  simp only [Upd.apply]; split <;> rfl
@[simp] theorem reg_fab (d : Reg) (v : Word) : (Upd.apply s (.reg d v)).fab = s.fab := by
  simp only [Upd.apply]; split <;> rfl
@[simp] theorem reg_disp (d : Reg) (v : Word) : (Upd.apply s (.reg d v)).disp = s.disp := by
  simp only [Upd.apply]; split <;> rfl
@[simp] theorem reg_place (d : Reg) (v : Word) : (Upd.apply s (.reg d v)).place = s.place := by
  simp only [Upd.apply]; split <;> rfl
@[simp] theorem reg_host (d : Reg) (v : Word) : (Upd.apply s (.reg d v)).host = s.host := by
  simp only [Upd.apply]; split <;> rfl
@[simp] theorem reg_time (d : Reg) (v : Word) : (Upd.apply s (.reg d v)).time = s.time := by
  simp only [Upd.apply]; split <;> rfl
@[simp] theorem reg_cycle (d : Reg) (v : Word) : (Upd.apply s (.reg d v)).cycle = s.cycle := by
  simp only [Upd.apply]; split <;> rfl
@[simp] theorem reg_fresh (d : Reg) (v : Word) : (Upd.apply s (.reg d v)).fresh = s.fresh := by
  simp only [Upd.apply]; split <;> rfl
@[simp] theorem reg_rounds (d : Reg) (v : Word) : (Upd.apply s (.reg d v)).rounds = s.rounds := by
  simp only [Upd.apply]; split <;> rfl
@[simp] theorem reg_inputs (d : Reg) (v : Word) : (Upd.apply s (.reg d v)).inputs = s.inputs := by
  simp only [Upd.apply]; split <;> rfl
@[simp] theorem reg_work (d : Reg) (v : Word) : (Upd.apply s (.reg d v)).work = s.work := by
  simp only [Upd.apply]; split <;> rfl
@[simp] theorem reg_hart_id (d : Reg) (v : Word) : (Upd.apply s (.reg d v)).hart.id = s.hart.id := by
  simp only [Upd.apply]; split <;> rfl
@[simp] theorem reg_hart_phase (d : Reg) (v : Word) : (Upd.apply s (.reg d v)).hart.phase = s.hart.phase := by
  simp only [Upd.apply]; split <;> rfl
@[simp] theorem reg_hart_pc (d : Reg) (v : Word) : (Upd.apply s (.reg d v)).hart.pc = s.hart.pc := by
  simp only [Upd.apply]; split <;> rfl
@[simp] theorem reg_hart_sr (d : Reg) (v : Word) : (Upd.apply s (.reg d v)).hart.sr = s.hart.sr := by
  simp only [Upd.apply]; split <;> rfl
@[simp] theorem reg_hart_vec (d : Reg) (v : Word) : (Upd.apply s (.reg d v)).hart.vec = s.hart.vec := by
  simp only [Upd.apply]; split <;> rfl
@[simp] theorem reg_hart_tile (d : Reg) (v : Word) : (Upd.apply s (.reg d v)).hart.tile = s.hart.tile := by
  simp only [Upd.apply]; split <;> rfl
@[simp] theorem reg_hart_queue (d : Reg) (v : Word) : (Upd.apply s (.reg d v)).hart.queue = s.hart.queue := by
  simp only [Upd.apply]; split <;> rfl
@[simp] theorem reg_hart_ctx (d : Reg) (v : Word) : (Upd.apply s (.reg d v)).hart.ctx = s.hart.ctx := by
  simp only [Upd.apply]; split <;> rfl
@[simp] theorem reg_hart_held (d : Reg) (v : Word) : (Upd.apply s (.reg d v)).hart.held = s.hart.held := by
  simp only [Upd.apply]; split <;> rfl
@[simp] theorem reg_hart_aside (d : Reg) (v : Word) : (Upd.apply s (.reg d v)).hart.aside = s.hart.aside := by
  simp only [Upd.apply]; split <;> rfl
@[simp] theorem reg_hart_streams (d : Reg) (v : Word) : (Upd.apply s (.reg d v)).hart.streams = s.hart.streams := by
  simp only [Upd.apply]; split <;> rfl
@[simp] theorem reg_hart_wait (d : Reg) (v : Word) : (Upd.apply s (.reg d v)).hart.wait = s.hart.wait := by
  simp only [Upd.apply]; split <;> rfl
@[simp] theorem reg_hart_seq (d : Reg) (v : Word) : (Upd.apply s (.reg d v)).hart.seq = s.hart.seq := by
  simp only [Upd.apply]; split <;> rfl
@[simp] theorem reg_hart_vsBound (d : Reg) (v : Word) : (Upd.apply s (.reg d v)).hart.vsBound = s.hart.vsBound := by
  simp only [Upd.apply]; split <;> rfl
@[simp] theorem reg_hart_svBound (d : Reg) (v : Word) : (Upd.apply s (.reg d v)).hart.svBound = s.hart.svBound := by
  simp only [Upd.apply]; split <;> rfl
@[simp] theorem reg_hart_svNum (d : Reg) (v : Word) : (Upd.apply s (.reg d v)).hart.svNum = s.hart.svNum := by
  simp only [Upd.apply]; split <;> rfl
@[simp] theorem reg_hart_watch (d : Reg) (v : Word) : (Upd.apply s (.reg d v)).hart.watch = s.hart.watch := by
  simp only [Upd.apply]; split <;> rfl
@[simp] theorem reg_hart_watchHit (d : Reg) (v : Word) : (Upd.apply s (.reg d v)).hart.watchHit = s.hart.watchHit := by
  simp only [Upd.apply]; split <;> rfl
@[simp] theorem reg_hart_ibuf (d : Reg) (v : Word) : (Upd.apply s (.reg d v)).hart.ibuf = s.hart.ibuf := by
  simp only [Upd.apply]; split <;> rfl
@[simp] theorem reg_hart_nbSeq (d : Reg) (v : Word) : (Upd.apply s (.reg d v)).hart.nbSeq = s.hart.nbSeq := by
  simp only [Upd.apply]; split <;> rfl
@[simp] theorem reg_hart_availSlots (d : Reg) (v : Word) : (Upd.apply s (.reg d v)).hart.availSlots = s.hart.availSlots := by
  simp only [Upd.apply]; split <;> rfl
@[simp] theorem reg_hart_turns (d : Reg) (v : Word) : (Upd.apply s (.reg d v)).hart.turns = s.hart.turns := by
  simp only [Upd.apply]; split <;> rfl

/-- Reading back what was written; s0 stays 0. -/
theorem reg_read (d : Reg) (v : Word) : (Upd.apply s (.reg d v)).hart.reg d = if d = 0 then 0 else v := by
  simp only [Upd.apply, Hart.reg]
  split
  · rfl
  · simp
/-- A write of one register leaves every other one. -/
theorem reg_read_other (d e : Reg) (v : Word) (h : e ≠ d) : (Upd.apply s (.reg d v)).hart.reg e = s.hart.reg e := by
  have this : d.toNat ≠ e.toNat := fun k => h (BitVec.eq_of_toNat_eq k.symm)
  by_cases hd : d = 0
  · rw [Upd.apply, if_pos hd]
  · by_cases he : e = 0
    · rw [Hart.reg, Hart.reg, if_pos he, if_pos he]
    · rw [Hart.reg, Hart.reg, if_neg he, if_neg he, Upd.apply, if_neg hd]
      exact Vector.getElem_set_ne d.isLt e.isLt this

/-! `focus` and `place`: only the harts move -/

@[simp] theorem focus_cells (k : Nat) : (Upd.apply s (.focus k)).cells = s.cells := by
  simp only [Upd.apply]; repeat' split
  all_goals rfl
@[simp] theorem focus_scratch (k : Nat) : (Upd.apply s (.focus k)).scratch = s.scratch := by
  simp only [Upd.apply]; repeat' split
  all_goals rfl
@[simp] theorem focus_counts (k : Nat) : (Upd.apply s (.focus k)).counts = s.counts := by
  simp only [Upd.apply]; repeat' split
  all_goals rfl
@[simp] theorem focus_img (k : Nat) : (Upd.apply s (.focus k)).img = s.img := by
  simp only [Upd.apply]; repeat' split
  all_goals rfl
@[simp] theorem focus_bank (k : Nat) : (Upd.apply s (.focus k)).bank = s.bank := by
  simp only [Upd.apply]; repeat' split
  all_goals rfl
@[simp] theorem focus_fab (k : Nat) : (Upd.apply s (.focus k)).fab = s.fab := by
  simp only [Upd.apply]; repeat' split
  all_goals rfl
@[simp] theorem focus_disp (k : Nat) : (Upd.apply s (.focus k)).disp = s.disp := by
  simp only [Upd.apply]; repeat' split
  all_goals rfl
@[simp] theorem focus_place (k : Nat) : (Upd.apply s (.focus k)).place = s.place := by
  simp only [Upd.apply]; repeat' split
  all_goals rfl
@[simp] theorem focus_host (k : Nat) : (Upd.apply s (.focus k)).host = s.host := by
  simp only [Upd.apply]; repeat' split
  all_goals rfl
@[simp] theorem focus_time (k : Nat) : (Upd.apply s (.focus k)).time = s.time := by
  simp only [Upd.apply]; repeat' split
  all_goals rfl
@[simp] theorem focus_cycle (k : Nat) : (Upd.apply s (.focus k)).cycle = s.cycle := by
  simp only [Upd.apply]; repeat' split
  all_goals rfl
@[simp] theorem focus_fresh (k : Nat) : (Upd.apply s (.focus k)).fresh = s.fresh := by
  simp only [Upd.apply]; repeat' split
  all_goals rfl
@[simp] theorem focus_rounds (k : Nat) : (Upd.apply s (.focus k)).rounds = s.rounds := by
  simp only [Upd.apply]; repeat' split
  all_goals rfl
@[simp] theorem focus_inputs (k : Nat) : (Upd.apply s (.focus k)).inputs = s.inputs := by
  simp only [Upd.apply]; repeat' split
  all_goals rfl
@[simp] theorem focus_work (k : Nat) : (Upd.apply s (.focus k)).work = s.work := by
  simp only [Upd.apply]; repeat' split
  all_goals rfl
@[simp] theorem place_cells (h : Hart) : (Upd.apply s (.place h)).cells = s.cells := by
  simp only [Upd.apply]; repeat' split
  all_goals rfl
@[simp] theorem place_scratch (h : Hart) : (Upd.apply s (.place h)).scratch = s.scratch := by
  simp only [Upd.apply]; repeat' split
  all_goals rfl
@[simp] theorem place_counts (h : Hart) : (Upd.apply s (.place h)).counts = s.counts := by
  simp only [Upd.apply]; repeat' split
  all_goals rfl
@[simp] theorem place_img (h : Hart) : (Upd.apply s (.place h)).img = s.img := by
  simp only [Upd.apply]; repeat' split
  all_goals rfl
@[simp] theorem place_bank (h : Hart) : (Upd.apply s (.place h)).bank = s.bank := by
  simp only [Upd.apply]; repeat' split
  all_goals rfl
@[simp] theorem place_fab (h : Hart) : (Upd.apply s (.place h)).fab = s.fab := by
  simp only [Upd.apply]; repeat' split
  all_goals rfl
@[simp] theorem place_disp (h : Hart) : (Upd.apply s (.place h)).disp = s.disp := by
  simp only [Upd.apply]; repeat' split
  all_goals rfl
@[simp] theorem place_place (h : Hart) : (Upd.apply s (.place h)).place = s.place := by
  simp only [Upd.apply]; repeat' split
  all_goals rfl
@[simp] theorem place_host (h : Hart) : (Upd.apply s (.place h)).host = s.host := by
  simp only [Upd.apply]; repeat' split
  all_goals rfl
@[simp] theorem place_time (h : Hart) : (Upd.apply s (.place h)).time = s.time := by
  simp only [Upd.apply]; repeat' split
  all_goals rfl
@[simp] theorem place_cycle (h : Hart) : (Upd.apply s (.place h)).cycle = s.cycle := by
  simp only [Upd.apply]; repeat' split
  all_goals rfl
@[simp] theorem place_fresh (h : Hart) : (Upd.apply s (.place h)).fresh = s.fresh := by
  simp only [Upd.apply]; repeat' split
  all_goals rfl
@[simp] theorem place_rounds (h : Hart) : (Upd.apply s (.place h)).rounds = s.rounds := by
  simp only [Upd.apply]; repeat' split
  all_goals rfl
@[simp] theorem place_inputs (h : Hart) : (Upd.apply s (.place h)).inputs = s.inputs := by
  simp only [Upd.apply]; repeat' split
  all_goals rfl
@[simp] theorem place_work (h : Hart) : (Upd.apply s (.place h)).work = s.work := by
  simp only [Upd.apply]; repeat' split
  all_goals rfl

/-! `dropHarts` -/

@[simp] theorem dropHarts_hart : (Upd.apply s .dropHarts).hart = .free 0 0 := rfl
@[simp] theorem dropHarts_others : (Upd.apply s .dropHarts).others = [] := rfl
@[simp] theorem dropHarts_cells : (Upd.apply s .dropHarts).cells = s.cells := rfl
@[simp] theorem dropHarts_scratch : (Upd.apply s .dropHarts).scratch = [] := rfl
@[simp] theorem dropHarts_counts : (Upd.apply s .dropHarts).counts = s.counts := rfl
@[simp] theorem dropHarts_img : (Upd.apply s .dropHarts).img = s.img := rfl
@[simp] theorem dropHarts_bank : (Upd.apply s .dropHarts).bank = s.bank := rfl
@[simp] theorem dropHarts_fab : (Upd.apply s .dropHarts).fab = s.fab := rfl
@[simp] theorem dropHarts_disp : (Upd.apply s .dropHarts).disp = s.disp := rfl
@[simp] theorem dropHarts_place : (Upd.apply s .dropHarts).place = s.place := rfl
@[simp] theorem dropHarts_host : (Upd.apply s .dropHarts).host = s.host := rfl
@[simp] theorem dropHarts_time : (Upd.apply s .dropHarts).time = s.time := rfl
@[simp] theorem dropHarts_cycle : (Upd.apply s .dropHarts).cycle = s.cycle := rfl
@[simp] theorem dropHarts_fresh : (Upd.apply s .dropHarts).fresh = s.fresh := rfl
@[simp] theorem dropHarts_rounds : (Upd.apply s .dropHarts).rounds = s.rounds := rfl
@[simp] theorem dropHarts_inputs : (Upd.apply s .dropHarts).inputs = s.inputs := rfl
@[simp] theorem dropHarts_work : (Upd.apply s .dropHarts).work = s.work := rfl

/-! `reset`: the moves of the environment and the model's own counters stay -/

@[simp] theorem reset_hart : (Upd.apply s .reset).hart = State.reset.hart := rfl
@[simp] theorem reset_others : (Upd.apply s .reset).others = State.reset.others := rfl
@[simp] theorem reset_cells : (Upd.apply s .reset).cells = State.reset.cells := rfl
@[simp] theorem reset_scratch : (Upd.apply s .reset).scratch = State.reset.scratch := rfl
@[simp] theorem reset_counts : (Upd.apply s .reset).counts = State.reset.counts := rfl
@[simp] theorem reset_img : (Upd.apply s .reset).img = State.reset.img := rfl
@[simp] theorem reset_bank : (Upd.apply s .reset).bank = State.reset.bank := rfl
@[simp] theorem reset_fab : (Upd.apply s .reset).fab = State.reset.fab := rfl
@[simp] theorem reset_disp : (Upd.apply s .reset).disp = State.reset.disp := rfl
@[simp] theorem reset_place : (Upd.apply s .reset).place = State.reset.place := rfl
@[simp] theorem reset_host : (Upd.apply s .reset).host = State.reset.host := rfl
@[simp] theorem reset_time : (Upd.apply s .reset).time = State.reset.time := rfl
@[simp] theorem reset_cycle : (Upd.apply s .reset).cycle = State.reset.cycle := rfl
@[simp] theorem reset_fresh : (Upd.apply s .reset).fresh = s.fresh := rfl
@[simp] theorem reset_rounds : (Upd.apply s .reset).rounds = s.rounds := rfl
@[simp] theorem reset_inputs : (Upd.apply s .reset).inputs = s.inputs := rfl
@[simp] theorem reset_work : (Upd.apply s .reset).work = State.reset.work := rfl

end Sys2Proof.Machine
end

