-- ==== Sys2Proof/Laws/Shared.lean ====
section
/-! SUPPORT. What the operations that many meanings share can do, said once each: the scalar and
immediate forms, a translation, an access check, the entry of a trap. A proof about an instruction
cites these and does not unfold the operations. -/

open Sys2Proof Sys2Proof.Machine Sys2Proof.Claim

namespace Sys2Proof.Machine

/-- A register form writes its result and goes on; nothing else changes. -/
theorem exec1_alu (s : State) (w : Bool) (f g d a b) :
    exec1 s (alu w f g d a b) =
      .next (wrote s d (aluOp w f g (s.hart.reg a) (s.hart.reg b))) := by
  rw [exec1_eq]; simp [alu, wrote, withReg, onward, goTo, Upd.apply]

/-- An immediate form writes its result and goes on; nothing else changes. -/
theorem exec1_aluImm (s : State) (f d a) :
    exec1 s (aluImm f d a) = .next (wrote s d (f (s.hart.reg a))) := by
  rw [exec1_eq]; simp [aluImm, wrote, withReg, onward, goTo, Upd.apply]

/-- The signed quotient, through the integers or through the bit vectors. -/
theorem ofInt_tdiv_eq_sdiv {n : Nat} (a b : BitVec n) :
    BitVec.ofInt n (a.toInt.tdiv b.toInt) = a.sdiv b := by
  apply BitVec.eq_of_toInt_eq
  rw [BitVec.toInt_sdiv]; simp [BitVec.toInt_ofInt]

variable {s0 : State}

/-- The choice among cached walks answers what `taken` names, and changes only the counter of free values. -/
theorem M.pickWalk_run (now : WalkRes) (l : List (Option Leaf)) (r : Run s0) :
    ∃ r' : Run s0, M.pickWalk now l r = .ok (taken now r.s.fresh l, r') ∧
      r'.s = { r.s with fresh := r'.s.fresh } := by
  induction l generalizing r with
  | nil => exact ⟨r, by simp [M.pickWalk, taken], rfl⟩
  | cons old l ih =>
    by_cases ho : some old = now.cached
    · obtain ⟨r', h1, h2⟩ := ih r
      exact ⟨r', by simp [M.pickWalk, taken, ho, h1], h2⟩
    · by_cases hf : Config.freeBool r.s.fresh = true
      · exact ⟨_, by simp [M.pickWalk, taken, ho, hf]; rfl, by simp [Upd.apply]⟩
      · obtain ⟨r', h1, h2⟩ := ih (r.emit (.fresh (r.s.fresh + 1)))
        refine ⟨r', ?_, ?_⟩
        · simp only [M.pickWalk, taken, if_neg ho, if_neg hf, M.bind_run, M.freeBool_run, M.ite_run, h1]
          rfl
        · rw [h2]; simp [Upd.apply]

/-- A translation always answers, with what `used` names; where it does not poison, only the
translation copies and the counter of free values change. -/
theorem M.translate_run (vf va : Nat) (r : Run s0) :
    ∃ r' : Run s0, M.translate vf va r = .ok (used r.s vf va, r') ∧
      ((∀ pa, used r.s vf va ≠ .poison pa) →
        r'.s = { r.s with
          fresh := r'.s.fresh, img := { r.s.img with tlb := r'.s.img.tlb } }) := by
  obtain ⟨r1, h1, h2⟩ := M.pickWalk_run (r.s.walk vf va) (r.s.tlbOf vf va) r
  have hu : taken (r.s.walk vf va) r.s.fresh (r.s.tlbOf vf va) = used r.s vf va := rfl
  rw [hu] at h1
  simp only [M.translate, M.bind_run, M.st_run, h1]
  cases hw : used r.s vf va with
  | leaf l => exact ⟨_, rfl, fun _ => by simp [Upd.apply]; rw [h2]; simp⟩
  | fault => exact ⟨_, rfl, fun _ => by simp [Upd.apply]; rw [h2]; simp⟩
  | poison pa => exact ⟨_, rfl, fun h => absurd rfl (h pa)⟩

/-- An aligned access that the translation and the permissions grant is granted, and changes
only the translation copies, the key of the frame and the counter of free values. -/
theorem M.checkOr_granted (va : Word) (n : Nat) (k : Kind) (r : Run s0) (a : Acc)
    (hal : va.toNat % n = 0) (h : accessOf r.s va n k = .ok a) :
    ∃ r' : Run s0, M.checkOr va n k r = .ok (a, r') ∧
      r'.s = { r.s with
        fresh := r'.s.fresh, img := { r.s.img with tlb := r'.s.img.tlb, keys := r'.s.img.keys } } := by
  obtain ⟨r', h1, h2⟩ := M.translate_run r.s.hart.id.vf va.toNat r
  have hp : ∀ pa, used r.s r.s.hart.id.vf va.toNat ≠ .poison pa := by
    intro pa hh; simp [accessOf, hh, State.checkLeaf] at h
  have h2 := h2 hp
  have ok : r'.s.checkLeaf r.s.hart.id.tenant va.toNat n k (used r.s r.s.hart.id.vf va.toNat) = .ok a := by
    rw [h2]; exact h
  refine ⟨r'.emit (.img { r'.s.img with keys := aput r'.s.img.keys (a.pa / 2 ^ 18) a.leaf.tkey }), ?_, ?_⟩
  · simp [M.checkOr, M.check, M.checkAs, hal, h1, ok]
  · simp [Upd.apply]; rw [h2]; simp

/-- Taking a trap with a handler set leaves the state that `handled` names. -/
theorem M.takeTrap_run (c v a vec) (r : Run s0) (h : r.s.hart.sr.tvec ≠ 0) :
    ∃ r', M.takeTrap c v a vec r = .ok (⟨⟩, r') ∧ r'.s = handled r.s c v a vec := by
  simp only [M.takeTrap, M.bind_run, M.hart_run, M.ite_run, h, if_false, M.enterHandler,
    M.modHart_run, M.setPc_run]
  exact ⟨_, rfl, by simp [handled, Upd.apply]⟩

/-- An instruction that traps with a handler set ends in the state that `trapped` names. -/
theorem M.trap_run {α} (c v) (r : Run s0) (h : r.s.hart.sr.tvec ≠ 0)
    (hc : ((s0.hartOf r.s.hart.key).getD r.s.hart).sr.vclk = r.s.hart.sr.vclk) :
    ∃ r', (M.trap c v : M s0 α) r = .error r' ∧ r'.s = trapped r.s c v := by
  have same : (r.emit (.hart { r.s.hart with sr := { r.s.hart.sr with
      vclk := ((s0.hartOf r.s.hart.key).getD r.s.hart).sr.vclk } })).s = r.s := by
    simp [Upd.apply, hc]
  obtain ⟨r', h1, h2⟩ := M.takeTrap_run c v r.s.hart.pc false (r.emit (.hart { r.s.hart with
    sr := { r.s.hart.sr with vclk := ((s0.hartOf r.s.hart.key).getD r.s.hart).sr.vclk } }))
    (by rw [same]; exact h)
  rw [same] at h2
  refine ⟨r', ?_, h2⟩
  simp only [M.trap, M.bind_run, M.hart_run, M.modSr_run, M.pc_run]
  simp [Upd.apply, h1]

end Sys2Proof.Machine
end

