-- ==== Sys2Proof/Tests/Slice0.lean ====
section
/-!
SUPPORT. Tests of the model: ill-formed terms, words written out from the encoding tables of the manual, the worked examples of the
manual, and for every statement a state that meets its hypotheses.
-/

namespace Sys2Proof.Tests

open Sys2Proof Sys2Proof.Machine Sys2Proof.Claim

set_option Elab.async false

/-! ## Well-formedness: every check refuses a term -/

/-- A vector word of the vv form with i32 elements. -/
def vv : VWord :=
  { form := 0, vd := 2, va := 4, vb := 6, m := 1, rep := false, rsz := 0, ridx := 0, ty := 2, ctl := 0, x := 0 }

/-- The same with type f32. -/
def vf : VWord := { vv with ty := 10 }

/-- A special-form word. -/
def sp : VWord := { vv with form := 3, vd := 0, va := 0, vb := 0, m := 0, ty := 0 }

theorem test_wf_accepts_the_plain_words :
    (Instr.vadd vv).wf = true ∧ (Instr.vfadd vf).wf = true ∧ Instr.vstop.wf = true ∧ (Instr.vexit sp).wf = true := by decide

/-- Scalar words: the reserved width of `ldx`, and the registers whose writes have constructors of their own. -/
theorem test_wf_refuses_scalar_fields :
    (Instr.ldx 7 false false 0 1 2 3).wf = false ∧ (Instr.setsr 1 0x016).wf = false ∧ (Instr.setsr 1 0x046).wf = false := by decide

/-- The forms and the replicate fields (R40, R41, R323). -/
theorem test_wf_refuses_forms :
    ([{ vv with form := 3 }, { vv with x := 1 }, { vv with rsz := 1 }, { vv with ridx := 1 }, { vv with form := 1, rep := true, vb := 0 },
      { vv with form := 1 }, { vv with form := 1, vb := 0, x := 32 }, { vv with form := 2 }, { vv with ty := 8 },
      { vv with ctl := 1 }].any fun f => (Instr.vadd f).wf) = false
    ∧ (Instr.vabs { vv with vb := 1 }).wf = false
    ∧ (Instr.vfadd { vf with form := 2, vb := 0, x := 65536 }).wf = false
    ∧ (Instr.vredsum { vv with form := 2, vb := 0 }).wf = false := by decide

/-- The layouts of ctl (R43): rounding, no `rsto`, conditions, streams. -/
theorem test_wf_refuses_ctl :
    (Instr.vfadd { vf with ctl := 5 }).wf = false ∧ (Instr.vfredsum { vf with ctl := 4 }).wf = false
    ∧ (Instr.vscan { vv with ctl := 1 }).wf = false ∧ (Instr.vcmp { vv with ctl := 6 }).wf = false
    ∧ (Instr.vcmp { vf with ctl := 8 }).wf = false ∧ (Instr.vlsp { sp with ctl := 1 }).wf = false
    ∧ (Instr.vlsp { sp with ctl := 24 }).wf = false ∧ (Instr.vfmin { vf with ctl := 1 }).wf = false := by decide

/-- Fields that name a mask or a slot (R44). -/
theorem test_wf_refuses_mask_fields :
    (Instr.vcmp { vv with vd := 8 }).wf = false ∧ (Instr.vmand { vv with ty := 0, vb := 8 }).wf = false
    ∧ (Instr.vmnot { vv with ty := 0, vb := 0, va := 8 }).wf = false ∧ (Instr.vmpop { vv with ty := 2, vb := 0 }).wf = false
    ∧ (Instr.vavail { sp with vd := 8 }).wf = false ∧ (Instr.vexit { sp with va := 8 }).wf = false
    ∧ (Instr.vbany { sp with va := 8 }).wf = false := by decide

/-- Two widths, clips and bit planes (R78, R117, R119, R125 to R128). -/
theorem test_wf_refuses_widths :
    (Instr.vcvt { vf with vb := 16 }).wf = false ∧ (Instr.vcvt { vf with ty := 14 }).wf = false
    ∧ (Instr.vqpack { vf with vb := 10 }).wf = false ∧ (Instr.vqunpack { vf with vb := 10 }).wf = false
    ∧ (Instr.vclip { vv with ty := 0, vb := 1, x := 16 }).wf = false ∧ (Instr.vclip { vv with ty := 0, vb := 2 }).wf = false
    ∧ (Instr.vbpl { vv with ty := 15, vb := 2, vd := 30, ctl := 2 }).wf = false
    ∧ (Instr.vbunpl { vv with vb := 15, va := 30, ctl := 2 }).wf = false
    ∧ (Instr.vpadd { vv with ty := 15, vd := 31, ctl := 16 }).wf = false
    ∧ (Instr.vpmul { sp with ty := 15, va := 30, x := 2 }).wf = false ∧ (Instr.vpmac { sp with ty := 15, x := 256 }).wf = false := by
  decide

/-- Permutes, reductions and draws. -/
theorem test_wf_refuses_permutes :
    (Instr.vslup { sp with x := 0x2000 }).wf = false ∧ (Instr.vsldn { sp with x := 0x20020 }).wf = false
    ∧ (Instr.vmv { vv with va := 1 }).wf = false ∧ (Instr.vid { vf with va := 0, vb := 0 }).wf = false
    ∧ (Instr.vrand { vv with form := 2, va := 0, vb := 0, ty := 2 }).wf = false ∧ (Instr.vnoise vv).wf = false := by decide

/-- Memory and the engine (R139 to R150). -/
theorem test_wf_refuses_memory_fields :
    (Instr.vld { vv with form := 1, va := 0, vb := 1 }).wf = false ∧ (Instr.vlds { sp with x := 1024 }).wf = false
    ∧ (Instr.vldx { sp with x := 128 }).wf = false ∧ (Instr.vamo { sp with ty := 2, ctl := 10 }).wf = false
    ∧ (Instr.vamo { sp with ty := 1 }).wf = false ∧ (Instr.vssp { sp with ctl := 8 }).wf = false
    ∧ (Instr.vgath { sp with ty := 6, x := 288 }).wf = false ∧ (Instr.vgath { sp with ty := 2 }).wf = false
    ∧ (Instr.vcopy { sp with ctl := 8 }).wf = false ∧ (Instr.vrcopy { sp with ty := 9 }).wf = false
    ∧ (Instr.vrcopy { sp with ty := 2, ctl := 24 }).wf = false ∧ (Instr.vcwait { sp with ctl := 8 }).wf = false := by decide

/-- The matrix words (R174 to R181). -/
theorem test_wf_refuses_matrix_fields :
    (Instr.mop { vv with vd := 0, ty := 12, ctl := 2 }).wf = false ∧ (Instr.mop { vv with vd := 0, ty := 10 }).wf = false
    ∧ (Instr.mzero { sp with va := 1 }).wf = false ∧ (Instr.mrowld { sp with form := 2, ty := 10, x := 256 }).wf = false
    ∧ (Instr.mcolrd { sp with form := 2, ty := 10, x := 128 }).wf = false ∧ (Instr.mrowrd { sp with form := 2, ty := 10, ctl := 1 }).wf = false
    ∧ (Instr.mrowrd { sp with form := 2, ty := 3 }).wf = false ∧ (Instr.mrowrd { sp with form := 2, ty := 8, ctl := 5 }).wf = false
    ∧ (Instr.mdrain { sp with form := 2, vd := 27, ty := 10 }).wf = false ∧ (Instr.mscale { vv with m := 1, vd := 0, ty := 0 }).wf = false := by
  decide

/-- Blocks, brackets and the engines (R45, R46, R160, R164, R198, R207, R252). -/
theorem test_wf_refuses_control_fields :
    (Instr.vhead { sp with ctl := 4 }).wf = false ∧ (Instr.vbany { sp with x := 512 }).wf = false
    ∧ (Instr.vjmp { sp with m := 1 }).wf = false ∧ (Instr.vsplit { sp with va := 1 }).wf = false
    ∧ (Instr.lbr { sp with m := 1 }).wf = false ∧ (Instr.vtoq { sp with form := 2, x := 8192 }).wf = false
    ∧ (Instr.inv { sp with ty := 3 }).wf = false ∧ (Instr.inv { sp with ty := 8, x := 0x4000 }).wf = false
    ∧ (Instr.vbrk { vv with vd := 1 }).wf = false ∧ (Instr.vbrkrd { sp with ty := 2, ctl := 2 }).wf = false
    ∧ (Instr.xroute { vv with vb := 0 }).wf = false ∧ (Instr.wmv { vv with form := 1, vb := 0 }).wf = false
    ∧ (Instr.vnbadd { sp with ty := 2, vd := 1 }).wf = false := by decide

/-- Events: dies, harts, gangs, channels, slots, macros, experts (R8, R50, R203, R236, R271). -/
theorem test_wf_refuses_names :
    (Instr.gangAdmit 8).wf = false ∧ (Instr.idleTimeout 3072).wf = false ∧ (Instr.engineElementPerformed 0 8 0).wf = false
    ∧ (Instr.budgetOverrun 0 384 0).wf = false ∧ (Instr.packetDelivery 1 1).wf = false ∧ (Instr.probeSend 0 8).wf = false
    ∧ (Instr.launchLatch ⟨0, 0⟩ 4096 0).wf = false ∧ (Instr.launchLatch ⟨0, 0⟩ 0 64).wf = false ∧ (Instr.macroRetire 0 8192).wf = false
    ∧ (Instr.elementThreadIssue 0 4 0).wf = false ∧ (Instr.elementThreadIssue 0 0 256).wf = false
    ∧ (Instr.gracePeriodEnd 8192 0).wf = false ∧ (Instr.keyLoad 64).wf = false ∧ (Instr.keyDrop 64).wf = false
    ∧ (Instr.vfDisable 64).wf = false := by decide

/-! ## Decoding: every constructor's word, from R35, R36, R39 and R44 -/

/-- The scalar words decode to these instructions. -/
def scalars (l : List (BitVec 32 × Instr)) : Bool := l.all fun p => decide (decodeScalar p.1 = .ok p.2)

/-- A word of the SR format. -/
def sr (op : BitVec 6) (d a b : BitVec 5) (fn : BitVec 11) : BitVec 32 := op ++ d ++ a ++ b ++ fn

theorem test_decode_alu :
    ([(0x00#5, Instr.add), (0x01#5, .sub), (0x02#5, .and), (0x03#5, .or), (0x04#5, .xor), (0x05#5, .shl), (0x06#5, .shr), (0x07#5, .sra),
      (0x08#5, .slt), (0x09#5, .sltu), (0x0A#5, .min), (0x0B#5, .max), (0x0C#5, .minu), (0x0D#5, .maxu), (0x0E#5, .mul), (0x0F#5, .mulh),
      (0x10#5, .mulhu), (0x11#5, .div), (0x12#5, .divu), (0x13#5, .rem), (0x14#5, .remu)].all fun p =>
        scalars [(sr 0x01 3 4 5 (0#1 ++ 0#5 ++ p.1), p.2 false 3 4 5), (sr 0x01 6 7 8 (1#1 ++ 0#5 ++ p.1), p.2 true 6 7 8)]) = true
    ∧ scalars [(sr 0x01 3 4 0 0x015, .clz false 3 4), (sr 0x01 3 4 0 0x416, .popc true 3 4)] = true := by decide +kernel

theorem test_decode_immediate_forms :
    scalars [(0x02#6 ++ 3#5 ++ 4#5 ++ 0x8001#16, .addi 3 4 0x8001), (0x03#6 ++ 3#5 ++ 4#5 ++ 0x8001#16, .andi 3 4 0x8001),
      (0x04#6 ++ 3#5 ++ 4#5 ++ 0x8001#16, .ori 3 4 0x8001), (0x05#6 ++ 3#5 ++ 4#5 ++ 0x8001#16, .xori 3 4 0x8001),
      (0x06#6 ++ 3#5 ++ 4#5 ++ 0x8001#16, .slti 3 4 0x8001), (0x07#6 ++ 3#5 ++ 4#5 ++ 0x8001#16, .sltiu 3 4 0x8001),
      (0x08#6 ++ 3#5 ++ 4#5 ++ 0#7 ++ 0#1 ++ 0#2 ++ 63#6, .shli false 3 4 63), (0x08#6 ++ 3#5 ++ 4#5 ++ 0#7 ++ 1#1 ++ 1#2 ++ 5#6, .shri true 3 4 5),
      (0x08#6 ++ 3#5 ++ 4#5 ++ 0#7 ++ 0#1 ++ 2#2 ++ 5#6, .srai false 3 4 5), (0x09#6 ++ 3#5 ++ 4#5 ++ 0x8001#16, .ldhi 3 4 0x8001),
      (0x0A#6 ++ 3#5 ++ 0#5 ++ 0x8001#16, .addpc 3 0x8001)] = true := by decide +kernel

theorem test_decode_loads_and_stores :
    scalars [(0x10#6 ++ 3#5 ++ 4#5 ++ 8#16, .ldb 3 4 8), (0x11#6 ++ 3#5 ++ 4#5 ++ 8#16, .ldbu 3 4 8), (0x12#6 ++ 3#5 ++ 4#5 ++ 8#16, .ldh 3 4 8),
      (0x13#6 ++ 3#5 ++ 4#5 ++ 8#16, .ldhu 3 4 8), (0x14#6 ++ 3#5 ++ 4#5 ++ 8#16, .ldw 3 4 8), (0x15#6 ++ 3#5 ++ 4#5 ++ 8#16, .ldwu 3 4 8),
      (0x16#6 ++ 3#5 ++ 4#5 ++ 8#16, .ldd 3 4 8), (0x18#6 ++ 3#5 ++ 4#5 ++ 8#16, .stb 3 4 8), (0x19#6 ++ 3#5 ++ 4#5 ++ 8#16, .sth 3 4 8),
      (0x1A#6 ++ 3#5 ++ 4#5 ++ 8#16, .stw 3 4 8), (0x1B#6 ++ 3#5 ++ 4#5 ++ 8#16, .std 3 4 8),
      (0x5CA6384C, .ldx 4 true false 2 5 6 7), (sr 0x1F 3 4 5 (0#4 ++ 1#2 ++ 1#1 ++ 0#1 ++ 0#1 ++ 3#2), .stx 3 false true 1 3 4 5)] = true := by
  decide +kernel

theorem test_decode_atomics :
    ([(0#4, Instr.aadd), (1#4, .aswap), (2#4, .aand), (3#4, .aor), (4#4, .axor), (5#4, .amin), (6#4, .amax), (7#4, .aminu), (8#4, .amaxu),
      (9#4, .acas)].all fun p => scalars [(sr 0x1C 3 4 5 (0#5 ++ 0#1 ++ 1#1 ++ p.1), p.2 true false 3 4 5)]) = true
    ∧ scalars [(0x71095039, .acas true true 8 9 10)] = true ∧ decodeScalar (sr 0x1C 3 4 5 10) = .error .reservedSelector := by decide +kernel

theorem test_decode_branches_and_jumps :
    ([(0x20#6, Instr.beq), (0x21#6, .bne), (0x22#6, .blt), (0x23#6, .bge), (0x24#6, .bltu), (0x25#6, .bgeu)].all fun p =>
      scalars [(p.1 ++ 4#5 ++ 5#5 ++ 0xFFFD#16, p.2 4 5 0xFFFD)]) = true
    ∧ scalars [(0x26#6 ++ 0#5 ++ 0x1FFFFF#21, .jmp 0x1FFFFF), (0x27#6 ++ 31#5 ++ 16#21, .jal 31 16), (0x28#6 ++ 3#5 ++ 4#5 ++ 8#16, .jalr 3 4 8)]
      = true := by decide +kernel

theorem test_decode_queue_words :
    scalars [(0x30#6 ++ 0#5 ++ 16#21, .vfb 16), (0xC5C00010, .vloop 14 16), (0xC9AC0002, .vsetl 2 0 13 12), (0x33#6 ++ 0#26, .vwait),
      (0xD0600002, .qget 3 2), (sr 0x35 3 4 0 0, .mxatt 3 4), (sr 0x35 0 0 0 1, .mxdet), (sr 0x35 0 0 0 2, .mxon), (sr 0x35 0 0 0 3, .mxoff),
      (sr 0x36 0 0 0 0, .ordSv), (sr 0x36 0 0 0 1, .ordVs), (sr 0x36 0 0 0 2, .ordAll), (sr 0x36 0 0 0 3, .gbar)] = true := by decide +kernel

theorem test_decode_engine_words :
    scalars [(sr 0x37 0 4 5 0, .settle 4 5), (sr 0x37 0 4 5 1, .renew 4 5), (sr 0x37 3 4 0 2, .scnt 3 4), (sr 0x37 0 4 5 3, .swait 4 5),
      (sr 0x38 0 4 5 0, .nbx 4 5), (sr 0x38 0 4 5 1, .nbadd false 4 5), (sr 0x38 0 4 5 9, .nbadd true 4 5), (sr 0x38 0 0 0 2, .nbflush),
      (sr 0x38 0 4 0 3, .bred 4), (sr 0x38 0 4 5 4, .wcalModel 4 5), (sr 0x38 0 4 0 12, .wcalEarly 4), (0xE4A00000, .xver 5),
      (sr 0x39 0 4 5 1, .xcount 4 5), (sr 0x39 0 4 0 2, .xmerge 4), (sr 0x39 0 4 0 3, .xpol 4), (sr 0x3A 3 4 5 0, .lpatch 3 4 5),
      (0xE80B6001, .larm 11 12)] = true := by decide +kernel

theorem test_decode_system_words :
    scalars [(0xF0000012, .trap 0x12), (0x3C#6 ++ 0#10 ++ 1#4 ++ 0#12, .tret), (0xF0602013, .getsr 3 0x013), (0xF0093030, .setsr 9 0x030),
      (0x3C#6 ++ 0#5 ++ 9#5 ++ 3#4 ++ 0x016#12, .setsrVown 9), (0x3C#6 ++ 0#5 ++ 9#5 ++ 3#4 ++ 0x046#12, .setsrSavep 9),
      (0x3C#6 ++ 3#5 ++ 9#5 ++ 4#4 ++ 0x016#12, .swapsr 3 9 0x016), (0x3C#6 ++ 0#10 ++ 5#4 ++ 0#12, .idle),
      (0x3C#6 ++ 0#10 ++ 6#4 ++ 0#12, .yield), (0x3C#6 ++ 0#10 ++ 7#4 ++ 0#12, .syncins), (0xF0008000, .halt)] = true := by decide +kernel

/-- A vector word, field by field (R39). -/
def vw (op : BitVec 8) (form : BitVec 2) (vd va vb : BitVec 5) (m : BitVec 3) (rep : BitVec 1) (rsz : BitVec 2) (ridx : BitVec 6)
    (ty : BitVec 4) (ctl : BitVec 5) (x : BitVec 18) : BitVec 64 :=
  op ++ form ++ vd ++ va ++ vb ++ m ++ rep ++ rsz ++ ridx ++ ty ++ ctl ++ x

/-- The vector words decode to these instructions. -/
def vectors (l : List (BitVec 64 × Instr)) : Bool := l.all fun p => decide (decodeVector p.1 = .ok p.2)

theorem test_decode_integer_vector_words :
    ([(0x01#8, Instr.vadd), (0x02#8, .vsub), (0x03#8, .vmul), (0x04#8, .vmulh), (0x05#8, .vmadd), (0x06#8, .vdiv), (0x07#8, .vrem),
      (0x08#8, .vmin), (0x09#8, .vmax), (0x0A#8, .vand), (0x0B#8, .vor), (0x0C#8, .vxor), (0x0D#8, .vshl), (0x0E#8, .vshr), (0x0F#8, .vsra),
      (0x10#8, .vsadd), (0x11#8, .vssub)].all fun p =>
        vectors [(vw p.1 0 2 4 6 1 1 2 9 5 0 0, p.2 { vv with rep := true, rsz := 2, ridx := 9, ty := 5 }),
          (vw p.1 1 2 4 0 1 0 0 0 2 0 31, p.2 { vv with form := 1, vb := 0, x := 31 })]) = true
    ∧ vectors [(0x0182100001000003, .vadd { vv with form := 2, vd := 1, va := 1, vb := 0, m := 0, x := 3 }),
      (vw 0x12 0 2 4 0 1 0 0 0 2 0 0, .vabs { vv with vb := 0 }), (vw 0x13 0 2 4 1 1 0 0 0 0 8 4, .vclip { vv with vb := 1, ty := 0, ctl := 8, x := 4 })]
      = true := by decide +kernel

theorem test_decode_float_vector_words :
    ([(0x20#8, Instr.vfadd), (0x21#8, .vfsub), (0x22#8, .vfmul), (0x23#8, .vfma), (0x24#8, .vfms), (0x25#8, .vfnma), (0x26#8, .vfdiv)].all
      fun p => vectors [(vw p.1 0 2 4 6 1 0 0 0 10 0b11100 0, p.2 { vf with ctl := 0b11100 })]) = true
    ∧ ([(0x27#8, Instr.vfsqrt), (0x2C#8, .vfrcp), (0x2D#8, .vfexp2), (0x2E#8, .vflog2), (0x30#8, .vfrsq)].all
      fun p => vectors [(vw p.1 0 2 4 0 1 0 0 0 10 1 0, p.2 { vf with vb := 0, ctl := 1 })]) = true
    ∧ ([(0x28#8, Instr.vfmin), (0x29#8, .vfmax), (0x2F#8, .vfclamp)].all fun p => vectors [(vw p.1 0 2 4 6 1 0 0 0 10 0 0, p.2 vf)]) = true
    ∧ ([(0x2A#8, Instr.vfabs), (0x2B#8, .vfneg)].all fun p => vectors [(vw p.1 0 2 4 0 1 0 0 0 10 0 0, p.2 { vf with vb := 0 })]) = true := by
  decide +kernel

theorem test_decode_mask_words :
    vectors [(0x40086380010C0000, .vcmp { vv with vd := 4, va := 6, vb := 7, m := 0, ctl := 3 }),
      (0x4108428000000000, .vmand { vv with vd := 4, va := 4, vb := 5, m := 0, ty := 0 }),
      (vw 0x42 0 2 4 6 1 0 0 0 0 0 0, .vmor { vv with ty := 0 }), (vw 0x43 0 2 4 6 1 0 0 0 0 0 0, .vmxor { vv with ty := 0 }),
      (vw 0x44 0 2 4 0 1 0 0 0 0 0 0, .vmnot { vv with vb := 0, ty := 0 }), (vw 0x45 0 2 4 0 1 0 0 0 0 0 0, .vmpop { vv with vb := 0, ty := 0 }),
      (vw 0x46 0 2 4 0 1 0 0 0 0 0 0, .vmfirst { vv with vb := 0, ty := 0 }), (vw 0x47 0 2 4 6 1 0 0 0 2 0 0, .vmsel vv)] = true := by
  decide +kernel

theorem test_decode_conversion_words :
    vectors [(0x5006150004100000, .vcvt { vv with vd := 3, va := 1, vb := 10, m := 0, ty := 8, ctl := 4 }),
      (vw 0x51 0 2 4 10 1 0 0 0 14 0 0, .vqpack { vv with vb := 10, ty := 14 }), (vw 0x52 0 2 4 12 1 0 0 0 10 0 0, .vqunpack { vv with vb := 12, ty := 10 }),
      (vw 0x53 0 2 4 2 1 0 0 0 15 3 0, .vbpl { vv with vb := 2, ty := 15, ctl := 3 }), (vw 0x54 0 2 4 15 1 0 0 0 2 3 0, .vbunpl { vv with vb := 15, ctl := 3 }),
      (vw 0x55 0 2 4 6 1 0 0 0 15 17 0, .vpadd { vv with ty := 15, ctl := 17 }), (vw 0x56 3 2 4 6 1 0 0 0 15 1 0x21, .vpmul { vv with form := 3, ty := 15, ctl := 1, x := 0x21 }),
      (vw 0x57 3 2 4 6 1 0 0 0 15 1 0x21, .vpmac { vv with form := 3, ty := 15, ctl := 1, x := 0x21 })] = true := by decide +kernel

theorem test_decode_permute_words :
    vectors [(vw 0x60 0 2 4 6 1 0 0 0 2 0 0, .vperm vv), (0x61C8148005000001, .vslup { vf with form := 3, vd := 4, va := 1, vb := 9, m := 0, x := 1 }),
      (0x62C8148001020007, .vsldn { vv with form := 3, vd := 4, va := 1, vb := 9, m := 0, x := 0x20007 }),
      (vw 0x63 0 2 4 0 1 0 0 0 2 0 0, .vcompress { vv with vb := 0 }), (vw 0x64 0 2 4 0 1 0 0 0 2 0 0, .vexpand { vv with vb := 0 }),
      (vw 0x65 0 2 4 6 1 0 0 0 2 0 0, .vredsum vv), (vw 0x66 0 2 4 6 1 0 0 0 10 3 0, .vfredsum { vf with ctl := 3 }),
      (vw 0x67 0 2 4 6 1 0 0 0 2 0 0, .vredmin vv), (vw 0x68 0 2 4 6 1 0 0 0 2 0 0, .vredmax vv), (vw 0x69 0 2 4 6 1 0 0 0 2 0 0, .vscan vv),
      (0x6A04028C05000000, .vmv { vf with vd := 2, va := 0, vb := 5, m := 0, rep := true, rsz := 2 }),
      (vw 0x6B 0 2 0 0 1 0 0 0 2 0 0, .vid { vv with va := 0, vb := 0 })] = true := by decide +kernel

theorem test_decode_memory_words :
    vectors [(0x7048000001000006, .vld { vv with form := 1, vd := 4, va := 0, vb := 0, m := 0, x := 6 }),
      (0x7144000001000007, .vst { vv with form := 1, vd := 2, va := 0, vb := 0, m := 0, x := 7 }),
      (vw 0x72 3 2 0 0 1 0 0 0 2 0 0x3E5, .vlds { vv with form := 3, va := 0, vb := 0, x := 0x3E5 }),
      (vw 0x73 3 2 0 0 1 0 0 0 2 0 0x3E5, .vsts { vv with form := 3, va := 0, vb := 0, x := 0x3E5 }),
      (vw 0x74 3 2 0 6 1 0 0 0 2 0 0x65, .vldx { vv with form := 3, va := 0, x := 0x65 }),
      (vw 0x75 3 2 0 6 1 0 0 0 2 0 0x65, .vstx { vv with form := 3, va := 0, x := 0x65 }),
      (vw 0x76 3 2 4 6 1 0 0 0 2 9 0x65, .vamo { vv with form := 3, ctl := 9, x := 0x65 }),
      (0x77C6010005440007, .vlsp { vf with form := 3, vd := 3, va := 0, vb := 2, m := 0, ctl := 0b10001, x := 7 }),
      (vw 0x78 3 2 0 6 1 0 0 0 2 0 5, .vssp { vv with form := 3, va := 0, x := 5 }),
      (0x79C0040003040005, .vgath { sp with vb := 8, ty := 6, ctl := 1, x := 5 }),
      (vw 0x7A 3 0 0 0 1 0 0 0 2 7 0x65, .vcopy { sp with m := 1, ty := 2, ctl := 7, x := 0x65 }),
      (vw 0x7B 3 0 0 0 1 0 0 0 2 23 0x65, .vrcopy { sp with m := 1, ty := 2, ctl := 23, x := 0x65 }),
      (vw 0x7C 3 5 0 0 0 0 0 0 0 3 0, .vavail { sp with vd := 5, ctl := 3 }), (vw 0x7D 3 0 0 0 0 0 0 0 0 3 0, .vcwait { sp with ctl := 3 })] = true := by
  decide +kernel

theorem test_decode_matrix_words :
    vectors [(0x9000110006000000, .mop { vv with vd := 0, va := 1, vb := 2, m := 0, ty := 12 }), (0x91C0000000000000, .mzero sp),
      (0x9280400005000003, .mrowld { sp with form := 2, va := 4, ty := 10, x := 3 }), (0x938E000004000002, .mrowrd { sp with form := 2, vd := 7, ty := 8, x := 2 }),
      (0x948C000005000005, .mcolrd { sp with form := 2, vd := 6, ty := 10, x := 5 }), (0x95B8000004400000, .mdrain { sp with form := 2, vd := 28, ty := 8, ctl := 16 }),
      (0x9600A58000000000, .mscale { vv with vd := 0, va := 10, vb := 11, m := 0, ty := 0 })] = true := by decide +kernel

theorem test_decode_control_words :
    vectors [(0xA0C0000000000000, .vstop), (0xA1C0200000000000, .vexit { sp with va := 2 }), (0xA2C0301000000003, .vbany { sp with va := 3, m := 1, x := 3 }),
      (vw 0xA3 3 0 3 0 1 0 0 0 0 0 0x1FE, .vball { sp with va := 3, m := 1, x := 0x1FE }), (vw 0xA4 3 0 3 0 1 0 0 0 0 0 3, .vbnone { sp with va := 3, m := 1, x := 3 }),
      (0xA5C00000000001FE, .vjmp { sp with x := 0x1FE }), (0xA6C0002000000000, .vsplit { sp with m := 2 }), (0xA7C0000000000000, .vjoin),
      (0xA8C04000000001FF, .lbr { sp with va := 4, x := 0x1FF }), (0xA982900001000005, .vtoq { sp with form := 2, vd := 1, va := 9, ty := 2, x := 5 }),
      (0xAACC238001018031, .inv { sp with vd := 6, va := 2, vb := 7, ty := 2, x := 0x18031 }), (0xAB00320001000000, .vbrk { vv with vd := 0, va := 3, vb := 4, m := 0 }),
      (0xACCA000001040000, .vbrkrd { sp with vd := 5, ty := 2, ctl := 1 }), (0xADCE000000080000, .vhead { sp with vd := 7, ctl := 2 })] = true := by
  decide +kernel

theorem test_decode_draw_and_placement_words :
    vectors [(vw 0xB0 2 2 0 0 1 0 0 0 10 0 0xFFFF, .vrand { vf with form := 2, va := 0, vb := 0, x := 0xFFFF }),
      (vw 0xB1 0 2 4 6 1 0 0 0 10 3 0, .vnoise { vf with ctl := 3 }), (vw 0xB2 0 2 4 0 1 0 0 0 6 0 0, .xroute { vv with vb := 0, ty := 6 }),
      (0xB350400000000009, .wmv { sp with form := 1, vd := 8, va := 4, x := 9 }),
      (vw 0xB4 3 0 4 6 1 0 0 0 10 0 0x45, .vnbadd { vf with form := 3, vd := 0, x := 0x45 })] = true := by decide +kernel

/-- R37, R323: reserved vector words. -/
theorem test_decode_refuses_reserved_vector_words :
    decodeVector 0 = .error .reservedOpcode ∧ decodeVector (0x80#8 ++ 0#56) = .error .reservedOpcode
    ∧ decodeVector (0xA0C0000000000001) = .error .reservedField ∧ decodeVector (0x0182100001000003 ||| 0x8000000) = .error .reservedField := by decide +kernel

/-! ## The worked examples of the manual -/

/-- A hart that runs, with some scalar registers and a handler. -/
def runs (x : List (Nat × Word)) : State :=
  let h := (Hart.free 0 0)
  { State.reset with hart := { h with
      phase := .run, x := x.foldl (fun v p => v.setIfInBounds p.1 p.2) h.x, sr := { h.sr with tvec := 0x1000 } } }

/-- A scalar register after one instruction. -/
def regAfter (i : Instr) (s : State) (d : Reg) : Option Word :=
  match exec i s with
  | .next t => some (t.hart.reg d)
  | _ => none

/-- R88: the table of divisions. -/
theorem test_division_table :
    (let s := runs [(1, -7), (2, 2)]; (regAfter (.div false 3 1 2) s 3, regAfter (.rem false 3 1 2) s 3)) = (some (-3), some (-1))
    ∧ (let s := runs [(1, 7)]; (regAfter (.div false 3 1 2) s 3, regAfter (.rem false 3 1 2) s 3)) = (some (BitVec.allOnes 64), some 7)
    ∧ (let s := runs [(1, 0x8000000000000000), (2, -1)]; (regAfter (.div false 3 1 2) s 3, regAfter (.rem false 3 1 2) s 3))
      = (some 0x8000000000000000, some 0)
    ∧ regAfter (.div true 3 1 2) (runs [(1, 0x180000000), (2, -1)]) 3 = some 0xFFFFFFFF80000000 := by decide +kernel

/-- R88: the other rows of the table. -/
theorem test_products_shifts_and_counts :
    (let s := runs [(1, -1)]; (regAfter (.mulh false 3 1 1) s 3, regAfter (.mulhu false 3 1 1) s 3)) = (some 0, some 0xFFFFFFFFFFFFFFFE)
    ∧ regAfter (.shl false 3 1 2) (runs [(1, 3), (2, 65)]) 3 = some 6
    ∧ regAfter (.clz true 3 1) (runs [(1, 0x100000000)]) 3 = some 32
    ∧ regAfter (.sltiu 3 1 0xFFFF) (runs [(1, 5)]) 3 = some 1 := by decide +kernel

/-- R84: a write to s0 is discarded; R97: `jalr` forms its target before it writes the register. -/
theorem test_zero_register_and_jalr :
    regAfter (.addi 0 1 5) (runs [(1, 5)]) 0 = some 0
    ∧ (match exec (.jalr 1 1 8) (runs [(1, 0x200)]) with | .next t => (t.hart.pc, t.hart.reg 1) | _ => (0, 0)) = (0x208, 4) := by decide +kernel

/-- R109, R302: `trap` enters the handler. -/
theorem test_trap_enters_the_handler :
    (match exec (.trap 0x12) (runs []) with
      | .next t => some (t.hart.pc, t.hart.sr.cause, t.hart.sr.tval, t.hart.sr.epc, t.hart.sr.status.psv)
      | _ => none) = some (0x1000, 0x40, 0x12, 0, true) := by decide +kernel

/-- A hart with the given elements of some vector registers, at a width and a length. -/
def lanes (vl w : Nat) (sew : Sew) (v : List (Nat × List Nat)) : State :=
  let s := runs []
  { s with hart := { s.hart with
      sr := { s.hart.sr with vl := BitVec.ofNat 64 vl, sew := sew },
      vec := v.foldl (fun vs p => vs.putElems p.1 w (List.range p.2.length) fun e => p.2.getD e 0) .zero } }

/-- Elements of a vector register after one instruction. -/
def elemsAfter (i : Instr) (s : State) (r w n : Nat) : List Nat :=
  match exec i s with
  | .next t => (List.range n).map (t.hart.vec.elem r w)
  | _ => []

/-- R118: i8 elements at their bounds. -/
theorem test_integer_elements :
    (let s := lanes 3 8 .w8 [(4, [127, 128, 255]), (6, [1, 255, 0])]
     let f : VWord := { vv with m := 0, ty := 0 }
     (elemsAfter (.vadd f) s 2 8 3, elemsAfter (.vsadd f) s 2 8 3, elemsAfter (.vdiv f) s 2 8 3, elemsAfter (.vabs { f with vb := 0 }) s 2 8 3))
      = ([128, 127, 255], [127, 128, 255], [127, 128, 255], [127, 128, 1]) := by decide +kernel

/-- R119: the example of `vclip.i8.rne.sat`. -/
theorem test_clip_example :
    elemsAfter (.vclip { vv with vb := 1, m := 0, ty := 0, ctl := 8, x := 4 }) (lanes 3 16 .w16 [(4, [0x38, 0x7FF0, 0xFFE8])]) 2 8 3 = [4, 127, 254] := by
  decide +kernel

/-- R16: the table of `lane_of`; R80: the hash of zeros. -/
theorem test_lanes_and_hash :
    ([0, 5, 17, 70, 255].map (laneOf 32)) = [(0, 0), (0, 2), (1, 0), (0, 3), (3, 7)] ∧ chash 0 0 = 0 := by decide +kernel

/-- R71: stochastic rounding of 1 + 2^−9 from f32 to bf16. -/
theorem test_stochastic_rounding_example :
    let r (rho : Nat) : Rnd := { mode := 4, sat := false, zero := false, k := none, rho := rho }
    [fmtF32.convert fmtBf16 (r 0xC000) 0x3F804000, fmtF32.convert fmtBf16 (r 0xBFFF) 0x3F804000, fmtF32.convert fmtBf16 (r 0xC000) 0xBF804000]
      = [0x3F81, 0x3F80, 0xBF81] := by decide +kernel

/-- R75: an fp4 block whose largest magnitude is 20.0. -/
theorem test_block_scale_example :
    packBlock fmtFp4 (fun _ => .rne) [fmtF32.decode 0x41A00000, fmtF32.decode 0x40200000] = (129, [0b0110, 0b0001]) := by decide +kernel

/-- R76: where fp4 element 37 and block-scaled e4m3 element 700 lie. -/
theorem test_block_layout_example :
    (blockByte true 2 5, scaleByte true 2, blockByte false 43 12, scaleByte false 43) = (158, 128, 763, 202) := by decide +kernel

/-- R83, R133: 1.0e8, 1, −1.0e8, 1, 1 in the order of the tree and one after another. -/
theorem test_sum_orders_example :
    let s := lanes 5 32 .w32 [(4, [0x4CBEBC20, 0x3F800000, 0xCCBEBC20, 0x3F800000, 0x3F800000])]
    elemsAfter (.vfredsum { vf with m := 0 }) s 2 32 1 = [0x3F800000]
    ∧ elemsAfter (.vscan { vf with m := 0 }) s 2 32 5 = [0x4CBEBC20, 0x4CBEBC20, 0, 0x3F800000, 0x40000000] := by decide +kernel

/-- R176: the pair rounding of the FP8 outer product. -/
theorem test_pair_rounding_example : mopElem 12 false 127 127 0x0158 0x0158 0xC3800000 = 0 := by decide +kernel

/-- A hart in its first step, with 256 KiB of memory behind the addresses from 0 on: readable, writable and executable. -/
def mapped (x : List (Nat × Word)) : State :=
  let s := State.reset.placeScalar 0
  { s with hart := { s.hart with x := x.foldl (fun v p => v.setIfInBounds p.1 p.2) s.hart.x, sr := { s.hart.sr with tvec := 0x1000 } } }

/-- R90, R92: a store puts its bytes into memory, the first at the lowest address, and a sign-extended load reads them. -/
theorem test_store_then_load :
    (match exec (.std 1 2 8) (mapped [(1, 0x1122334455667788), (2, 0x100)]) with
      | .next t => (t.liveBytes 0x40108 2 true, regAfter (.ldb 3 2 8) t 3, t.hart.pc)
      | _ => ([], none, 0)) = ([0x88, 0x77], some 0xFFFFFFFFFFFFFF88, 4) := by decide +kernel

/-- R91: a misaligned store traps with cause 0x03 and its address. -/
theorem test_misaligned_store_traps :
    (match exec (.stw 1 2 2) (mapped [(2, 0x100)]) with
      | .next t => (t.hart.pc, t.hart.sr.cause, t.hart.sr.tval)
      | _ => (0, 0, 0)) = (0x1000, 0x03, 0x102) := by decide +kernel

/-- R94: `acas` writes where the old value is s_d, and nothing where it is not. -/
theorem test_compare_and_swap :
    (match exec (.acas true false 3 2 1) (mapped [(1, 9), (2, 0x100), (3, 0)]) with
      | .next t => (t.liveVal 0x40100 8, t.hart.reg 3)
      | _ => (0, 0)) = (9, 0)
    ∧ (match exec (.acas true false 3 2 1) (mapped [(1, 9), (2, 0x100), (3, 1)]) with
      | .next t => (t.liveVal 0x40100 8, t.hart.reg 3)
      | _ => (0, 0)) = (0, 0) := by decide +kernel

/-- R143: three performed elements at one word that holds 5. -/
theorem test_vector_atomic_example :
    (let s := (mapped [(6, 0x100)]).placeBytes 0x40100 [5]
     let t : State := { s with hart := { s.hart with sr := { s.hart.sr with vl := 3, sew := .w32 }, vec := (lanes 3 32 .w32 [(4, [1, 2, 3])]).hart.vec } }
     match exec (.vamo { vv with form := 3, m := 0, ctl := 0, x := 6 }) t with
      | .next u => (u.liveVal 0x40100 4, (List.range 3).map (u.hart.vec.elem 2 32))
      | _ => (0, [])) = (11, [5, 6, 8]) := by decide +kernel

/-- The first step after reset runs a placed scalar word, and a placed vector word. -/
theorem test_first_step :
    (match step (State.reset.withFetchWord 32 0x0801FFF0) with | .next t => (t.hart.pc, t.hart.reg 0) | _ => (0, 1)) = (4, 0)
    ∧ (match step (State.reset.withFetchWord 32 0x08C1FFF0) with | .next t => t.hart.reg 6 | _ => 0) = -16
    ∧ (match step (State.reset.withFetchWord 64 (vw 0x44 0 2 4 0 1 0 0 0 0 0 0).toNat) with
      | .next t => t.hart.ctx.map (·.idx)
      | _ => none) = some 2 := by decide +kernel

/-! ## For every statement, states that meet its hypotheses -/

/-- A part of a meaning, run from a state, answers something that a check accepts. -/
def passes {α : Type} (s : State) (m : M s α) (p : α → State → Bool) : Bool :=
  match m (Run.start s) with
  | .ok (a, r) => p a r.s
  | .error _ => false

theorem answers_of {α : Type} {s : State} {m : M s α} (p : α → State → Bool) (h : passes s m p = true) :
    ∃ a t, Answers s m a t ∧ p a t = true := by
  unfold passes at h
  split at h
  · exact ⟨_, _, ⟨_, ‹_›, rfl⟩, h⟩
  · cases h

/-- What a check answers, where it passes. -/
def granted : Except (BitVec 8) Acc → Acc
  | .ok a => a
  | .error _ => { va := 0, pa := 0, leaf := {
      base := 0, size := 0, home := 0, ww := false, wset := 0, tkey := 0, sh := false, pin := false, cc := false, wb := false, x := false,
      w := false, r := false, pte := 0 } }

/-- What an access of the hart in focus answers. -/
def acc (s : State) (va : Word) (n : Nat) (k : Kind) : Acc := granted (accessOf s va n k)

/-- The home slice of a line has room. -/
def roomHere (s : State) (la k : Nat) : Bool :=
  decide ((s.img.cache.filter fun l => cachePlace l.addr .l2 == cachePlace la .l2).length + k ≤ cacheLines .l2)

theorem roomy_of {s : State} {la k : Nat} (h : roomHere s la k = true) : Roomy s la k := by simpa [roomHere, Roomy] using h

/-- The parts of `Turn` and `Served` as one check. -/
def servedHere (s : State) (a : Acc) (n : Nat) (c : Clock) : Bool :=
  s.hart.vectorDoneBelow s.hart.vsBound && decide (s.tailPending s.hart.key = none) && decide (a.leaf.home = s.hart.id.did)
  && decide (s.uncovered s.hart.id.did c (fun _ => false) = []) && decide (a.pa % n = 0) && roomHere s (a.pa / 64) 1
  && decide (∀ e ∈ s.hart.early, e.vec = false → e.pa ≠ a.pa)

theorem served_of {s : State} {a : Acc} {n : Nat} {c : Clock} (h : servedHere s a n c = true) : Served s a n c := by
  simp only [servedHere, Bool.and_eq_true, decide_eq_true_eq] at h
  obtain ⟨⟨⟨⟨⟨⟨h1, h2⟩, h3⟩, h4⟩, h5⟩, h6⟩, h7⟩ := h
  exact ⟨⟨h1, h2⟩, h3, h4, h5, roomy_of h6, h7⟩

/-- The parts of `Plain` as one check. -/
def plainHere (s : State) (a : Acc) : Bool :=
  isHostMem a.pa && s.cells.wf && decide (s.tailAt (a.pa / 8 * 8) = none) && decide (s.windowShut s.hart.id.did 1 = [])

theorem plain_of {s : State} {a : Acc} (h : plainHere s a = true) : Plain s a := by
  simp only [plainHere, Bool.and_eq_true, decide_eq_true_eq] at h
  obtain ⟨⟨⟨h1, h2⟩, h3⟩, h4⟩ := h
  exact ⟨h1, h2, h3, h4⟩

/-- What the check of an access gives on the tables as they stand. -/
def found (s : State) (va : Word) (n : Nat) (k : Kind) : Acc :=
  granted (s.checkLeaf s.hart.id.tenant va.toNat n k (s.walk s.hart.id.vf va.toNat))

/-- The parts of `PageOk` as one check. -/
def pageHere (s : State) (va : Word) (n : Nat) (k : Kind) : Bool :=
  decide (va.toNat % n = 0) && decide (∀ old ∈ s.tlbOf s.hart.id.vf va.toNat, some old = (s.walk s.hart.id.vf va.toNat).cached)
  && decide (s.checkLeaf s.hart.id.tenant va.toNat n k (s.walk s.hart.id.vf va.toNat) = .ok (found s va n k))

theorem pageOk_of {s : State} {va : Word} {n : Nat} {k : Kind} (h : pageHere s va n k = true) : PageOk s va n k (found s va n k) := by
  simp only [pageHere, Bool.and_eq_true, decide_eq_true_eq] at h
  exact ⟨h.1.1, h.1.2, h.2⟩

/-- n doublewords of a block at va may be loaded from the own die, and their value. -/
def blockHere (s : State) (m : Nat) (va : Word) (n : Nat) : Bool :=
  (List.range n).all fun i =>
    let a := found s (va + BitVec.ofNat 64 (8 * i)) 8 .load
    pageHere s (va + BitVec.ofNat 64 (8 * i)) 8 .load && decide (a.pa % 8 = 0) && decide (a.leaf.home = s.hart.id.did)
    && roomHere s (a.pa / 64) m && decide (∀ e ∈ s.hart.early, e.vec = false → e.pa ≠ a.pa) && (seen s a 8).isSome

/-- The value of a block. -/
def blockValue (s : State) (va : Word) (n : Nat) : Nat :=
  ofBytes ((List.range n).flatMap fun i => (seen s (found s (va + BitVec.ofNat 64 (8 * i)) 8 .load) 8).getD [])

theorem block_of {s : State} {m : Nat} {va : Word} {n : Nat} (h : blockHere s m va n = true) : Block s m va n (blockValue s va n) := by
  refine ⟨fun i => found s (va + BitVec.ofNat 64 (8 * i)) 8 .load, fun i => (seen s (found s (va + BitVec.ofNat 64 (8 * i)) 8 .load) 8).getD [],
    fun i hi => ?_, rfl⟩
  have := List.all_eq_true.1 h i (List.mem_range.2 hi)
  simp only [Bool.and_eq_true, decide_eq_true_eq] at this
  obtain ⟨⟨⟨⟨⟨h1, h2⟩, h3⟩, h4⟩, h5⟩, h6⟩ := this
  exact ⟨pageOk_of h1, h2, h3, roomy_of h4, h5, by obtain ⟨x, hx⟩ := Option.isSome_iff_exists.1 h6; simp [hx]⟩

/-- The pieces of a range, page by page, and whether each passes. -/
def pieces (s : State) (k : Kind) : Nat → Nat → Nat → List Span
  | 0, _, _ => []
  | n + 1, va, len =>
    if len = 0 then []
    else
      let a := found s (BitVec.ofNat 64 va) 1 k
      { pa := a.pa, len := min len (2 ^ 18 - va % 2 ^ 18), wb := a.leaf.wb, ww := a.leaf.ww }
        :: pieces s k n (va + min len (2 ^ 18 - va % 2 ^ 18)) (len - min len (2 ^ 18 - va % 2 ^ 18))

def piecesHere (s : State) (k : Kind) (pinned : Bool) : Nat → Nat → Nat → Bool
  | 0, _, _ => true
  | n + 1, va, len =>
    if len = 0 then true
    else
      let a := found s (BitVec.ofNat 64 va) 1 k
      pageHere s (BitVec.ofNat 64 va) 1 k && (!pinned || (a.leaf.pin && isHbm a.pa))
        && piecesHere s k pinned n (va + min len (2 ^ 18 - va % 2 ^ 18)) (len - min len (2 ^ 18 - va % 2 ^ 18))

theorem pieces_of {s : State} {k : Kind} {pinned : Bool} :
    ∀ {n va len : Nat}, piecesHere s k pinned n va len = true → Pieces s k pinned n va len (pieces s k n va len)
  | 0, _, _, _ => rfl
  | n + 1, va, len, h => by
    unfold Pieces pieces
    unfold piecesHere at h
    split
    · rfl
    · rename_i hl
      simp only [hl, if_false, Bool.and_eq_true, Bool.or_eq_true, Bool.not_eq_true'] at h
      obtain ⟨⟨h1, h2⟩, h3⟩ := h
      refine ⟨_, _, pageOk_of h1, fun hp => ?_, rfl, pieces_of h3⟩
      rcases h2 with h2 | h2
      · rw [hp] at h2; cases h2
      · exact h2

theorem pinned_of {s : State} {k : Kind} {va : Word} {len : Nat} (h : piecesHere s k true (len / 2 ^ 18 + 2) va.toNat len = true) :
    Pinned s k va len ((pieces s k (len / 2 ^ 18 + 2) va.toNat len).map fun p => (p.pa, p.len)) := ⟨_, pieces_of h, rfl⟩

theorem rangeOf_of {s : State} {vf : Nat} {k : Kind} {va : Word} {len : Nat}
    (h : piecesHere (seenBy s vf) k false (len / 2 ^ 18 + 2) va.toNat len = true) :
    RangeOf s vf k va len (pieces (seenBy s vf) k (len / 2 ^ 18 + 2) va.toNat len) := pieces_of h

/-- The parts of `Open` and `ReachedBy` as one check. -/
def reachedHere (s : State) (c : Clock) (home : Nat) : Bool :=
  decide (s.tailPending s.hart.key = none)
  && (if home = s.hart.id.did then decide (s.uncovered home c (fun _ => false) = [])
    else decide ((s.chan s.hart.id.did home).held < 16) && decide ((s.chan s.hart.id.did home).retry.length + 1 ≤ 2048)
      && decide (∀ c ∈ s.fab.chans, c.src = s.hart.id.did → c.dst = home → c.reqs = [])
      && decide (s.uncovered home c (fun i => i == s.hart.id.did) = []))

theorem reachedBy_of {s : State} {c : Clock} {home : Nat} (h : reachedHere s c home = true) : ReachedBy s c home := by
  simp only [reachedHere, Bool.and_eq_true, decide_eq_true_eq] at h
  obtain ⟨h1, h2⟩ := h
  split at h2
  · exact ⟨h1, fun _ => of_decide_eq_true h2, fun n => absurd ‹_› n⟩
  · simp only [Bool.and_eq_true, decide_eq_true_eq] at h2
    obtain ⟨⟨⟨a, b⟩, c⟩, d⟩ := h2
    exact ⟨h1, fun n => absurd n ‹_›, fun _ => ⟨⟨a, b⟩, c, d⟩⟩

theorem witness_scalar_words :
    (runs []).hart.reg 2 = 0
    ∧ (let s := runs [(1, BitVec.intMin 64), (2, -1)]; s.hart.reg 1 = BitVec.intMin 64 ∧ s.hart.reg 2 = BitVec.allOnes 64)
    ∧ (let s := runs [(1, 8)]; (s.hart.reg 1 + (4#16).signExtend 64).toNat % 4 = 0 ∧ (s.hart.reg 1 + (1#16).signExtend 64).toNat % 4 ≠ 0
      ∧ s.hart.sr.tvec ≠ 0) := by decide +kernel

/-- A load, a store and an atomic of 8 bytes at the last address of the page that holds them. -/
theorem witness_scalar_accesses :
    let s := mapped [(1, 0x3FFF8)]
    let va := at_ s 1 0
    va.toNat % 8 = 0 ∧ s.hart.reg 1 = va
    ∧ (accessOf s va 8 .load = .ok (acc s va 8 .load) ∧ Served s (acc s va 8 .load) 8 s.hart.sr.vclk ∧ (seen s (acc s va 8 .load) 8).isSome = true)
    ∧ (accessOf s va 8 .store = .ok (acc s va 8 .store) ∧ Served s (acc s va 8 .store) 8 s.hart.sr.vclk ∧ Plain s (acc s va 8 .store))
    ∧ (accessOf s va 8 .atomic = .ok (acc s va 8 .atomic) ∧ Served s (acc s va 8 .atomic) 8 (carried s true) ∧ Plain s (acc s va 8 .atomic)
      ∧ s.scFlying = none ∧ s.inFlight s.hart.id.did (clkAt s.hart.sr.vclk s.hart.id.did) = none ∧ (seen s (acc s va 8 .atomic) 8).isSome = true) :=
  ⟨by decide +kernel, by decide +kernel, ⟨by decide +kernel, served_of (by decide +kernel), by decide +kernel⟩,
    ⟨by decide +kernel, served_of (by decide +kernel), plain_of (by decide +kernel)⟩,
    by decide +kernel, served_of (by decide +kernel), plain_of (by decide +kernel), by decide +kernel, by decide +kernel, by decide +kernel⟩

/-- A misaligned access, and one to a page that is not mapped. -/
theorem witness_failed_checks :
    let s := mapped [(1, 0x3FFFC), (2, 0x40000)]
    Turn s ∧ s.hart.sr.tvec ≠ 0 ∧ (s.hart.reg 1).toNat % 8 ≠ 0
    ∧ (s.hart.reg 2).toNat % 8 = 0 ∧ accessOf s (s.hart.reg 2) 8 .store = .error 0x04 :=
  ⟨⟨by decide +kernel, by decide +kernel⟩, by decide +kernel⟩

/-- An entry of the vector queue. -/
def entry (k : QKind) : QEntry :=
  { kind := k, snap := Vector.replicate 32 0, seq := 0, mark := false, sup := true, pc := 0, word := 0 }

/-- A hart with a queue. -/
def queueOf (s : State) (q : List QEntry) : State := { s with hart := { s.hart with queue := q } }

/-- Room with 63 entries, none with 64; a target at a multiple of 8 and one that is not. -/
theorem witness_queue_operations :
    let s := runs []
    let full := queueOf s (List.replicate 64 (entry .mxoff) ++ List.replicate 64 (entry (.block 0 none)))
    Room (queueOf s (List.replicate 63 (entry .mxoff) ++ List.replicate 63 (entry (.block 0 none)))) true
    ∧ Room (queueOf s (List.replicate 63 (entry .mxoff))) false ∧ ¬ Room full true ∧ ¬ Room full false
    ∧ (s.hart.pc + (2#21).signExtend 64 * 4).toNat % 8 = 0 ∧ (s.hart.pc + (1#21).signExtend 64 * 4).toNat % 8 ≠ 0
    ∧ s.hart.sr.tvec ≠ 0 ∧ s.hart.sr.mgrant = 0
    ∧ ({ s with hart := { s.hart with sr := { s.hart.sr with mgrant := 32 } } }).hart.sr.mgrant ≠ 0 := by
  unfold Room
  decide +kernel

theorem witness_waits :
    let s := runs []
    let q := queueOf s [entry (.write 0x013 0)]
    s.hart.vectorDone = true ∧ s.tailPending s.hart.key = none ∧ q.hart.vectorDone = false ∧ s.hart.sr.mgrant = 0 ∧ s.slotPending 7 = false
    ∧ ({ s with hart := { s.hart with sr := { s.hart.sr with mgrant := 32 } } }).hart.sr.mgrant ≠ 0
    ∧ ({ s with hart := { s.hart with
        ctx := some (.start (entry (.block 0 none)) 0 [vheadWord, vw 0x45 0 7 1 0 0 0 0 0 0 0 0, vstopWord] 1 0 0 0) } }).slotPending 7
      = true := by decide +kernel

/-- A gang of n harts of die 0 in which the hart in focus is the first. -/
def gang (n : Nat) : Gang :=
  { die := 0, gid := 0, launch := 0, index := 0, size := n, halted := 0, hids := (List.range n), harts := (List.range n), barrier := 0, charge := 0,
    phase := .run, reserved := false, areas := [], since := 0, cycleAt := 0, killed := false, stops := [] }

theorem witness_fences :
    let s := runs []
    let g (n : Nat) : State := { s with disp := { s.disp with gangs := [gang n] } }
    ({ queueOf s [entry .mxoff] with hart := { (queueOf s [entry .mxoff]).hart with vsBound := 1 } }).hart.vectorDoneBelow 1 = false
    ∧ s.hart.vectorDone = true ∧ s.tailPending s.hart.key = none ∧ (∀ k ∈ (g 1).disp.gangs, k.die = 0 → k.gid = 0 → k.size ≤ 1)
    ∧ (∃ k ∈ (g 2).disp.gangs, k.die = s.hart.id.did ∧ k.gid = s.hart.id.gid) ∧ (∀ k ∈ (g 2).disp.gangs, k.die = 0 → k.gid = 0 → k.size > 1) := by
  decide +kernel

/-- A page table entry: home, weight set, frame, size code and flags (R186). -/
def entryOf (home wset pa sz flags : Nat) : List Byte := toBytes 8 (home * 2 ^ 61 + wset * 2 ^ 48 + pa + sz * 2 ^ 8 + flags)

/-- More pages of die 0 behind the addresses from 1 MiB on: four pinned pages, a compute-capable mapping of 2 MiB, a weight set of 16 macros,
a pinned page and a page of die 1. -/
def world (x : List (Nat × Word)) : State :=
  (mapped x).placeBytes (0x18000 + 32)
    ((List.range 4).flatMap (fun i => entryOf 0 0 (0x100000 + 0x40000 * i) 0 0x47) ++ (List.range 8).flatMap (fun _ => entryOf 0 0 0x800000000 1 0x67)
      ++ [0, 1].flatMap (fun i => entryOf 0 1 (0x5000000000 + 0x40000 * i) 0 0x07) ++ entryOf 0 0 0x200000 0 0x47 ++ entryOf 1 0 (2 ^ 45 + 0x40000) 0 0x07)

/-- The hart in user mode. -/
def user (s : State) : State := { s with hart := { s.hart with sr := { s.hart.sr with status := { s.hart.sr.status with sv := false } } } }

theorem witness_state_registers :
    let s := runs [(1, 8), (2, 64)]
    s.hart.sr.status.sv = true ∧ (0x081, 0) ∈ srValues s ∧ (0x010, 0) ∈ srValues s ∧ (0x031, 0) ∈ srValues s ∧ (0x000, 0) ∈ srValues s
    ∧ s.hart.queue = [] ∧ s.hart.ctx = none ∧ (queueOf s [entry .mxoff]).hart.queue ≠ [] ∧ Room s false
    ∧ (s.hart.reg 1).toNat ∈ [1, 2, 4, 8] ∧ (s.hart.reg 2).toNat ∈ [8, 16, 32, 64]
    ∧ ((srWritten s.hart.sr 1).map (·.1)).length = 16 := by
  unfold Room
  decide +kernel

/-- The bounds of the groups of state registers. -/
theorem witness_state_register_numbers :
    (¬ supOnly 0x03F ∧ supOnly 0x040 ∧ supOnly 0x047 ∧ ¬ supOnly 0x048)
    ∧ (¬ ordered 0x00F ∧ ordered 0x010 ∧ ordered 0x015 ∧ ¬ ordered 0x016 ∧ ordered 0x030 ∧ ordered 0x031 ∧ ¬ ordered 0x032)
    ∧ (readOnly 0x000 ∧ readOnly 0x004 ∧ ¬ readOnly 0x005 ∧ readOnly 0x081) := by
  unfold supOnly ordered readOnly
  decide

theorem witness_forbidden_accesses :
    let s := user (runs [(1, 3)])
    s.hart.sr.tvec ≠ 0 ∧ s.hart.sr.status.sv = false ∧ (∀ p ∈ srValues s, p.1 ≠ 0xFFF ∧ p.1 ≠ 0x005 ∧ p.1 ≠ 0x059)
    ∧ supOnly 0x040 ∧ supOnly 0x047 ∧ supWrites 0x016 ∧ supWrites 0x021 ∧ supWrites 0x058 ∧ readOnly 0x081
    ∧ (s.hart.reg 1).toNat ∉ [1, 2, 4, 8] ∧ (s.hart.reg 1).toNat ∉ [8, 16, 32, 64] := by
  unfold supOnly supWrites supOnly readOnly
  decide +kernel

/-- The four pages of a save area pass. -/
theorem witness_save_area :
    let s := world [(1, 0x100000)]
    let page (i : Nat) : Word := s.hart.reg 1 + BitVec.ofNat 64 (i * 2 ^ 18)
    s.hart.sr.status.sv = true ∧ s.hart.vectorDone = true ∧ s.tailPending s.hart.key = none ∧ s.hart.sr.status.blk = false
    ∧ s.hart.sr.status.walk = false ∧ (s.hart.reg 1).toNat % 2 ^ 20 = 0 ∧ s.hart.sr.vown ≠ s.hart.reg 1
    ∧ (∀ i < 4, Fresh s s.hart.id.vf (page i).toNat ∧ (match s.walk s.hart.id.vf (page i).toNat with
      | .leaf l => isHostMem (l.pa (page i).toNat) && l.pin && l.w && l.tkey == s.hart.id.tenant
      | _ => false) = true) := by
  unfold Fresh
  decide +kernel

/-- The traps of a write of `savep`, and a write of `vown` with its own value. -/
theorem witness_save_area_traps :
    let s := runs []
    let t : State := { s with hart := { s.hart with sr := { s.hart.sr with status := { s.hart.sr.status with blk := true } } } }
    t.hart.vectorDone = true ∧ t.tailPending t.hart.key = none ∧ t.hart.sr.tvec ≠ 0 ∧ t.hart.sr.status.blk = true ∧ s.hart.sr.vown = s.hart.reg 0 := by
  decide +kernel

theorem witness_system_words :
    let s := runs []
    let k : State := { s with hart := { s.hart with sr := { s.hart.sr with tvec := 0, kexit := 0x2000 } } }
    s.hart.sr.tvec ≠ 0 ∧ k.hart.sr.tvec = 0 ∧ k.hart.sr.kexit ≠ 0 ∧ s.hart.queue = [] ∧ s.hart.ctx = none
    ∧ (queueOf s [entry .mxoff]).hart.queue ≠ [] ∧ (queueOf s [entry .mxoff]).hart.vectorDone = false ∧ s.hart.vectorDone = true := by
  decide +kernel

/-- A handler runs: its entries are not marked, nothing held or set aside, an image held, or a trap set aside. -/
theorem witness_trap_return :
    let s := runs []
    let k : Held := { ctx := none, behind := [entry .mxoff], resume := 8 }
    let a : Aside := { cause := 2, tval := 0, epc := 0, ctx := none, behind := [], spl := false, xf := false }
    s.hart.sr.status.sv = true ∧ (queueOf s [entry .mxoff]).hart.unmarked = true ∧ s.hart.unmarked = false ∧ s.hart.aside = none ∧ s.hart.held = none
    ∧ ({ s with hart := { s.hart with held := some k } }).hart.held = some k ∧ ({ s with hart := { s.hart with aside := some a } }).hart.aside = some a
    ∧ s.hart.ctx = none ∧ s.hart.sr.tvec ≠ 0 := by decide +kernel

/-- A range of two pages, whose second is one byte; a count reached and one not reached. -/
theorem witness_settle_and_counts :
    (let s := world [(1, 0x100000), (2, 0x40001)]
     let first := (s.hart.reg 1).toNat / 2 ^ 18
     s.hart.vectorDone = true ∧ s.tailPending s.hart.key = none ∧ (s.hart.reg 1).toNat + (s.hart.reg 2).toNat ≤ 2 ^ 64
     ∧ ((s.hart.reg 1).toNat + (s.hart.reg 2).toNat - 1) / 2 ^ 18 + 1 - first = 2
     ∧ (∀ i < 2, PageOk s (BitVec.ofNat 64 ((first + i) * 2 ^ 18)) 1 .load (found s (BitVec.ofNat 64 ((first + i) * 2 ^ 18)) 1 .load)
       ∧ ReachedBy s (learned s) (found s (BitVec.ofNat 64 ((first + i) * 2 ^ 18)) 1 .load).leaf.home))
    ∧ (let s := world [(1, 0x100007), (2, 1)]
       let page := s.hart.reg 1 &&& ~~~(BitVec.ofNat 64 (2 ^ 18 - 1))
       Turn s ∧ accessOf s page 1 .load = .ok (acc s page 1 .load) ∧ Reached s (acc s page 1 .load).leaf.home
       ∧ ((0 : BitVec 32) - lo32 (s.hart.reg 0)).toNat < 2 ^ 31 ∧ ¬ ((0 : BitVec 32) - lo32 (s.hart.reg 2)).toNat < 2 ^ 31) := by
  refine ⟨⟨by decide +kernel, by decide +kernel, by decide +kernel, by decide +kernel, fun i hi => ?_⟩, ⟨by decide +kernel, by decide +kernel⟩,
    by decide +kernel, reachedBy_of (by decide +kernel), by decide +kernel, by decide +kernel⟩
  have h : ∀ i < 2, (let s := world [(1, 0x100000), (2, 0x40001)]
      let va : Word := BitVec.ofNat 64 ((4 + i) * 2 ^ 18)
      pageHere s va 1 .load && reachedHere s (learned s) (found s va 1 .load).leaf.home) = true := by decide +kernel
  have := Bool.and_eq_true_iff.1 (h i hi)
  exact ⟨pageOk_of this.1, reachedBy_of this.2⟩

/-- A word of a compute-capable mapping, and one of an ordinary page. -/
theorem witness_bank_requests :
    let s := world [(1, 0x3FFFFC), (2, 0x100000), (3, 2)]
    Turn s ∧ s.hart.reg 3 ≠ 0 ∧ (s.hart.reg 1).toNat % 4 = 0
    ∧ accessOf s (s.hart.reg 1) 4 .atomic = .ok (acc s (s.hart.reg 1) 4 .atomic) ∧ (acc s (s.hart.reg 1) 4 .atomic).leaf.cc = true
    ∧ Reached s (acc s (s.hart.reg 1) 4 .atomic).leaf.home ∧ s.windowShut s.hart.id.did 1 = [] ∧ s.hart.sr.tvec ≠ 0
    ∧ accessOf s (s.hart.reg 2) 4 .atomic = .ok (acc s (s.hart.reg 2) 4 .atomic) ∧ (acc s (s.hart.reg 2) 4 .atomic).leaf.cc = false
    ∧ s.bank.reqs = [] :=
  ⟨⟨by decide +kernel, by decide +kernel⟩, by decide +kernel, by decide +kernel, by decide +kernel, by decide +kernel,
    reachedBy_of (by decide +kernel), by decide +kernel⟩

/-- A reduction of two sources of 4 words of i32 into the pinned pages, with a flag. -/
def redState : State :=
  ((world [(1, 0x100)]).placeBytes 0x40100 (toBytes 8 (4 * 2 ^ 32 + 2 * 2 ^ 16 + 2 * 2 ^ 8) ++ toBytes 8 0x100000 ++ toBytes 8 0x100040 ++ toBytes 8 1
    ++ toBytes 8 0x200)).placeBytes 0x40200 (toBytes 8 0x13FFF0 ++ toBytes 8 0x180000)

/-- A merge of a pinned buffer of the same die and of a buffer of die 1, which goes through the staging area. -/
def mergeState : State :=
  ((world [(1, 0x100)]).placeBytes 0x40100 (toBytes 8 (4 * 2 ^ 32) ++ toBytes 8 0x100000 ++ toBytes 8 0 ++ toBytes 8 0
    ++ toBytes 8 0x200 ++ toBytes 8 0x140000)).placeBytes 0x40200 (toBytes 8 0x180000 ++ toBytes 8 0x4C0000)

theorem witness_reductions :
    let s := redState
    let b := RedBlock.ofBits (blockValue s 0x100 8)
    let dst := (pieces s .store (16 / 2 ^ 18 + 2) b.dst.toNat 16).map fun p => (p.pa, p.len)
    let entry (i : Nat) : Word := BitVec.ofNat 64 (blockValue s b.table b.count / 2 ^ (64 * i) % 2 ^ 64)
    (s.uncovered s.hart.id.did s.hart.sr.vclk (fun _ => false) = [] ∧ s.uncovered s.hart.id.did (learned s) (fun _ => false) = []
      ∧ s.windowShut s.hart.id.did 1 = [] ∧ ReachedBy s (learned s) (homeOf (pieceAt dst 0)) ∧ ∀ p ∈ dst, homeOf p.1 = homeOf (pieceAt dst 0))
    ∧ Turn s ∧ Block s 24 (s.hart.reg 1) 8 (blockValue s 0x100 8) ∧ b.ok = true ∧ b.n = 4 ∧ b.count = 2
    ∧ Block s 24 b.table b.count (blockValue s b.table b.count) ∧ Pinned s .store b.dst 16 dst
    ∧ FlagIs s b.flag (some (found s b.flag 8 .store).pa)
    ∧ ∀ i < 2, (entry i).toNat % redWidth b.fmt = 0
      ∧ Pinned s .load (entry i) 16 ((pieces s .load (16 / 2 ^ 18 + 2) (entry i).toNat 16).map fun p => (p.pa, p.len))
      ∧ ∀ p ∈ (pieces s .load (16 / 2 ^ 18 + 2) (entry i).toNat 16).map (fun p => (p.pa, p.len)), homeOf p.1 = homeOf (pieceAt dst 0) := by
  have h : (let s := redState
      let b := RedBlock.ofBits (blockValue s 0x100 8)
      let dst := (pieces s .store (16 / 2 ^ 18 + 2) b.dst.toNat 16).map fun p => (p.pa, p.len)
      let entry (i : Nat) : Word := BitVec.ofNat 64 (blockValue s b.table b.count / 2 ^ (64 * i) % 2 ^ 64)
      reachedHere s (learned s) (homeOf (pieceAt dst 0)) && blockHere s 24 0x100 8 && blockHere s 24 b.table b.count
        && piecesHere s .store true (16 / 2 ^ 18 + 2) b.dst.toNat 16 && pageHere s b.flag 8 .store
        && piecesHere s .load true (16 / 2 ^ 18 + 2) (entry 0).toNat 16 && piecesHere s .load true (16 / 2 ^ 18 + 2) (entry 1).toNat 16) = true := by
    decide +kernel
  simp only [Bool.and_eq_true] at h
  obtain ⟨⟨⟨⟨⟨⟨h1, h2⟩, h3⟩, h4⟩, h5⟩, h6⟩, h7⟩ := h
  have k : (let s := redState
      let b := RedBlock.ofBits (blockValue s 0x100 8)
      let dst := (pieces s .store (16 / 2 ^ 18 + 2) b.dst.toNat 16).map fun p => (p.pa, p.len)
      let entry (i : Nat) : Word := BitVec.ofNat 64 (blockValue s b.table b.count / 2 ^ (64 * i) % 2 ^ 64)
      (s.uncovered s.hart.id.did s.hart.sr.vclk (fun _ => false) = [] ∧ s.uncovered s.hart.id.did (learned s) (fun _ => false) = []
        ∧ s.windowShut s.hart.id.did 1 = [] ∧ (∀ p ∈ dst, homeOf p.1 = homeOf (pieceAt dst 0)))
      ∧ (s.hart.vectorDoneBelow s.hart.vsBound = true ∧ s.tailPending s.hart.key = none ∧ b.ok = true ∧ b.n = 4 ∧ b.count = 2 ∧ b.flag ≠ 0)
      ∧ ∀ i < 2, (entry i).toNat % redWidth b.fmt = 0
        ∧ ∀ p ∈ (pieces s .load (16 / 2 ^ 18 + 2) (entry i).toNat 16).map (fun p => (p.pa, p.len)), homeOf p.1 = homeOf (pieceAt dst 0)) := by
    decide +kernel
  obtain ⟨⟨k1, k2, k3, k4⟩, ⟨k5, k6, k7, k8, k9, k0⟩, kk⟩ := k
  refine ⟨⟨k1, k2, k3, reachedBy_of h1, k4⟩, ⟨k5, k6⟩, block_of h2, k7, k8, k9, block_of h3, pinned_of h4, .inr ⟨k0, _, pageOk_of h5, rfl⟩, fun i hi => ?_⟩
  have : i = 0 ∨ i = 1 := by omega
  rcases this with rfl | rfl
  · exact ⟨(kk 0 hi).1, pinned_of h6, (kk 0 hi).2⟩
  · exact ⟨(kk 1 hi).1, pinned_of h7, (kk 1 hi).2⟩

theorem witness_merge_requests :
    let s := mergeState
    let b := MergeBlock.ofBits (blockValue s 0x100 8)
    let entry (i : Nat) : Word := BitVec.ofNat 64 (blockValue s b.table 8 / 2 ^ (64 * i) % 2 ^ 64)
    let dst := (pieces s .store (16 / 2 ^ 18 + 2) b.master.toNat 16).map fun p => (p.pa, p.len)
    let stage := b.staging + BitVec.ofNat 64 (1 * 16)
    (s.hart.vectorDone = true ∧ s.tailPending s.hart.key = none ∧ Block s 16 (s.hart.reg 1) 8 (blockValue s 0x100 8) ∧ b.ok = true ∧ b.n * redWidth b.fmt = 16
      ∧ Block s 16 b.table 8 (blockValue s b.table 8) ∧ ((List.range 8).filter fun r => entry r ≠ 0) = [0, 1]
      ∧ Pinned s .store b.master 16 dst ∧ FlagIs s b.flag none)
    ∧ (Pieces s .load true 2 (entry 0).toNat 16 (pieces s .load 2 (entry 0).toNat 16) ∧ ∀ p ∈ pieces s .load 2 (entry 0).toNat 16, homeOf p.pa = 0)
    ∧ (Pieces s .load false 2 (entry 1).toNat 16 (pieces s .load 2 (entry 1).toNat 16)
      ∧ ¬ (Pieces s .load true 2 (entry 1).toNat 16 (pieces s .load 2 (entry 1).toNat 16)
        ∧ ∀ p ∈ pieces s .load 2 (entry 1).toNat 16, homeOf p.pa = 0))
    ∧ stage.toNat % redWidth b.fmt = 0 ∧ Pieces s .store true 2 stage.toNat 16 (pieces s .store 2 stage.toNat 16)
    ∧ ∀ p ∈ pieces s .store 2 stage.toNat 16, homeOf p.pa = 0 := by
  have h : (let s := mergeState
      let b := MergeBlock.ofBits (blockValue s 0x100 8)
      let entry (i : Nat) : Word := BitVec.ofNat 64 (blockValue s b.table 8 / 2 ^ (64 * i) % 2 ^ 64)
      blockHere s 16 0x100 8 && blockHere s 16 b.table 8 && piecesHere s .store true (16 / 2 ^ 18 + 2) b.master.toNat 16
        && piecesHere s .load true 2 (entry 0).toNat 16 && piecesHere s .load false 2 (entry 1).toNat 16
        && piecesHere s .store true 2 (b.staging + BitVec.ofNat 64 (1 * 16)).toNat 16) = true := by decide +kernel
  simp only [Bool.and_eq_true] at h
  obtain ⟨⟨⟨⟨⟨h1, h2⟩, h3⟩, h4⟩, h5⟩, h6⟩ := h
  have k : (let s := mergeState
      let b := MergeBlock.ofBits (blockValue s 0x100 8)
      let entry (i : Nat) : Word := BitVec.ofNat 64 (blockValue s b.table 8 / 2 ^ (64 * i) % 2 ^ 64)
      let stage := b.staging + BitVec.ofNat 64 (1 * 16)
      (s.hart.vectorDone = true ∧ s.tailPending s.hart.key = none ∧ b.ok = true ∧ b.n * redWidth b.fmt = 16
        ∧ ((List.range 8).filter fun r => entry r ≠ 0) = [0, 1] ∧ b.flag = 0)
      ∧ (∀ p ∈ pieces s .load 2 (entry 0).toNat 16, homeOf p.pa = 0) ∧ ¬ (∀ p ∈ pieces s .load 2 (entry 1).toNat 16, homeOf p.pa = 0)
      ∧ stage.toNat % redWidth b.fmt = 0 ∧ ∀ p ∈ pieces s .store 2 stage.toNat 16, homeOf p.pa = 0) := by decide +kernel
  obtain ⟨⟨k1, k2, k3, k4, k5, k6⟩, k7, k8, k9, k0⟩ := k
  exact ⟨⟨k1, k2, block_of h1, k3, k4, block_of h2, k5, pinned_of h3, .inl ⟨k6, rfl⟩⟩, ⟨pieces_of h4, k7⟩, ⟨pieces_of h5, fun h => absurd h.2 k8⟩, k9,
    pieces_of h6, k0⟩

/-- The last expert, an expert that does not exist; a policy block in memory. -/
theorem witness_placement_words :
    (let s := runs [(1, 8191), (2, 1), (3, 8192)]
     Turn s ∧ (s.hart.reg 1).toNat < 8192 ∧ 0 + (lo32 (s.hart.reg 2)).toNat < 2 ^ 32
     ∧ s.hart.id.did < 8 ∧ (s.hart.reg 3).toNat ≥ 8192 ∧ s.hart.sr.tvec ≠ 0)
    ∧ (let s := (world [(1, 0x100)]).placeBytes 0x40100 [1, 0, 0, 0, 0, 0, 0, 0, 1, 100, 3, 8]
       s.hart.sr.status.sv = true ∧ Turn s ∧ s.uncovered s.hart.id.did s.hart.sr.vclk (fun _ => false) = []
       ∧ s.uncovered s.hart.id.did (learned s) (fun _ => false) = [] ∧ Block s 8 (s.hart.reg 1) 8 (blockValue s 0x100 8)
       ∧ (policyOf (blockValue s 0x100 8)).isSome = true) :=
  ⟨⟨⟨by decide +kernel, by decide +kernel⟩, by decide +kernel⟩,
    by decide +kernel, ⟨by decide +kernel, by decide +kernel⟩, by decide +kernel, by decide +kernel, block_of (by decide +kernel), by decide +kernel⟩

theorem tlb_none {s : State} (h : s.img.tlb = []) (vf va : Nat) : s.tlbOf vf va = [] := by simp [State.tlbOf, h]

/-- The set of 16 macros and its last macro. -/
theorem witness_weight_set :
    let s := world [(1, 0x400000)]
    Turn s ∧ SetAt s (s.hart.reg 1) (found s 0x400000 64 .load)
    ∧ InSet s (s.hart.reg 1) (found s 0x400000 64 .load) (macroOf (found s 0x478000 64 .load).pa)
    ∧ (s.macroAt (macroOf (found s 0x478000 64 .load).pa)).retired = false := by
  refine ⟨⟨by decide +kernel, by decide +kernel⟩, ⟨by decide +kernel, by decide +kernel, by decide +kernel, fun j old h => ?_⟩, ⟨15, by omega, fun j hj => ?_⟩,
    by decide +kernel⟩
  · rw [tlb_none (by decide +kernel)] at h
    cases h
  · have h : ∀ j < 16, (let s := world [(1, 0x400000)]
        let va : Word := 0x400000 + BitVec.ofNat 64 (32768 * j)
        let b := found s va 64 .load
        s.checkLeaf s.hart.id.tenant va.toNat 64 .load (s.walk s.hart.id.vf va.toNat) = .ok b
        ∧ b.leaf.wset = (found s 0x400000 64 .load).leaf.wset ∧ b.leaf.ww = (found s 0x400000 64 .load).leaf.ww
        ∧ (j = 15 → macroOf b.pa = macroOf (found s 0x478000 64 .load).pa)) := by decide +kernel
    exact ⟨_, h j (by omega)⟩

theorem witness_calibration_model :
    let s := world [(1, 0x400000), (2, 0x100000)]
    let row (i : Nat) : Word := s.hart.reg 2 + BitVec.ofNat 64 (32 * i)
    (s.hart.reg 2).toNat % 64 = 0 ∧ s.windowShut s.hart.id.did 16 = [] ∧ s.cells.wf = true
    ∧ (∀ i < 16, PageOk s (row i) 32 .store (found s (row i) 32 .store))
    ∧ (∀ i < 16, (found s (row i) 32 .store).leaf.home = s.hart.id.did ∧ (found s (row i) 32 .store).pa = 0x100000 + 32 * i
      ∧ isHostMem (0x100000 + 32 * i) = true ∧ Roomy s ((0x100000 + 32 * i) / 64) 16)
    ∧ s.uncovered s.hart.id.did s.hart.sr.vclk (fun _ => false) = [] ∧ (∀ k < 64, s.tailAt (0x100000 + 8 * k) = none)
    ∧ Open s s.hart.id.did 1 16 := by
  refine ⟨by decide +kernel, by decide +kernel, by decide +kernel, fun i hi => ?_, fun i hi => ?_, by decide +kernel, by decide +kernel, by unfold Open; decide +kernel⟩
  · have h : ∀ i < 16, pageHere (world [(1, 0x400000), (2, 0x100000)]) (0x100000 + BitVec.ofNat 64 (32 * i)) 32 .store = true := by decide +kernel
    exact pageOk_of (h i hi)
  · have h : ∀ i < 16, (let s := world [(1, 0x400000), (2, 0x100000)]
        let a := found s (0x100000 + BitVec.ofNat 64 (32 * i)) 32 .store
        a.leaf.home = s.hart.id.did ∧ a.pa = 0x100000 + 32 * i ∧ isHostMem (0x100000 + 32 * i) = true
        ∧ roomHere s ((0x100000 + 32 * i) / 64) 16 = true) := by decide +kernel
    obtain ⟨h1, h2, h3, h4⟩ := h i hi
    exact ⟨h1, h2, h3, roomy_of h4⟩

/-- A launch record that the limits of R272 allow: one gang of one hart, for virtual function 0. -/
def record : BitVec 1024 :=
  putRecordField (putRecordField (putRecordField (putRecordField (putRecordField 0 32 2 1) 34 1 1) 35 1 1) 40 8 1000000) 127 1 1

/-- A hart whose die holds that record unarmed, with a queue bound to the same function. -/
def poolState (x : List (Nat × Word)) : State :=
  let s := runs x
  { s with
    host := { s.host with vfs := s.host.vfs.setIfInBounds 0 { en := true, root := 0, tkey := 0 } },
    disp := { s.disp with
      pool := [(4095, { record := record, armed := false })],
      queues := [{ q := 4095, vf := some 0, field := 0, next := 0, latched := [], busy := [], deficit := 0 }] } }

theorem witness_device_launches :
    let s := poolState [(1, 4095), (2, 4095), (3, 12), (4, 13), (5, 4096)]
    let p := s.poolOf 0 4095
    (∃ w, patchField (s.hart.reg 3).toNat (s.hart.reg 0).toNat = some (92, w, true)) ∧ patchField (s.hart.reg 4).toNat 0 = none
    ∧ (∃ a w, patchField 3 0 = some (a, w, false)) ∧ Turn s ∧ p.armed = false ∧ recVf p.record = s.hart.id.vf ∧ s.hart.vectorDone = true
    ∧ s.tailPending s.hart.key = none
    ∧ (s.hart.reg 2).toNat < 32768 ∧ (s.hart.reg 2).toNat / 4096 = 0 ∧ (s.queueOf 4095).vf = some s.hart.id.vf ∧ s.queueLoad 4095 < 64
    ∧ recordOk p.record s.hart.id.vf = true ∧ s.vfEnabled s.hart.id.vf = true ∧ (∀ k < 4, s.depLost (recDep p.record k) = false)
    ∧ s.hart.sr.tvec ≠ 0 ∧ (s.hart.reg 5).toNat ≥ 4096 :=
  ⟨⟨8, by decide +kernel⟩, by decide +kernel, ⟨32, 2, by decide +kernel⟩, ⟨by decide +kernel, by decide +kernel⟩, by decide +kernel⟩

/-- A launch of that record on queue 4095 that no gang has been admitted of. -/
def launch : Launch :=
  { id := 0, die := 0, num := 4096, q := 4095, record := record, deps := [], admitted := 0, retired := 0, stopped := false, cycles := 0,
    status := 0, journaled := false, clk := Clock.zero, waited := 0 }

theorem witness_device_launch_fits :
    (poolState []).everFits 0 record = true
    ∧ ({ poolState [] with disp := { (poolState []).disp with launches := List.replicate 64 launch } }).queueLoad 4095 ≥ 64
    ∧ recVf (putRecordField record 38 2 5) ≠ (poolState []).hart.id.vf := by decide +kernel

/-- The parts of `Legal` as one check, with no exit ahead. -/
def legalHere (s : State) (f : VWord) (w : Nat) (rs : List Reg) (mx : Bool) : Bool :=
  !s.hart.ctx.any (·.exitAhead)
  && (!s.hart.sr.mmode || (mx && decide (f.vd.toNat + max 1 ((min s.hart.sr.vl.toNat 8192 * s.hart.sr.sew.bits + 8191) / 8192) ≤ 28)))
  && decide (s.hart.sr.sew.bits = w) && rs.all (fun r => decide (r.toNat % s.hart.sr.vgrp.n = 0))
  && (!f.rep || decide (f.ridx.toNat * repUnit f + repUnit f ≤ vlmax s.hart.sr.sew s.hart.sr.vgrp s.hart.id.cap))

theorem unguarded_of {s : State} (h : s.hart.ctx.any (·.exitAhead) = false) : Unguarded s := by
  unfold Unguarded
  split
  · trivial
  · rename_i c hc
    rw [hc] at h
    exact fun g => absurd g.2.1 (by simpa using h)

theorem legal_of {s : State} {f : VWord} {w : Nat} {rs : List Reg} {mx : Bool} (h : legalHere s f w rs mx = true) : Legal s f w rs mx := by
  simp only [legalHere, Bool.and_eq_true, Bool.or_eq_true, Bool.not_eq_true', decide_eq_true_eq, List.all_eq_true] at h
  obtain ⟨⟨⟨⟨h1, h2⟩, h3⟩, h4⟩, h5⟩ := h
  refine ⟨unguarded_of h1, fun m => ?_, h3, h4, fun r => ?_⟩
  · rcases h2 with h2 | h2
    · rw [h2] at m; cases m
    · exact h2
  · rcases h5 with h5 | h5
    · rw [h5] at r; cases r
    · exact h5

/-- A hart with a length, a width and a grouping, in matrix mode or not. -/
def shaped (vl : Nat) (sew : Sew) (g : Grp) (mx : Bool) : State :=
  let s := lanes vl 8 sew []
  { s with hart := { s.hart with sr := { s.hart.sr with vgrp := g, mmode := mx, mgrant := if mx then 256 else 0 } } }

/-- The last element of the last group. -/
theorem witness_element_writes : (8 : Nat) ∈ [8, 16, 32, 64] ∧ (∀ e ∈ [8191], 24 + e * 8 / 8192 < 32) ∧ (∀ e ∈ [127], 24 + e * 64 / 8192 < 32) := by
  decide

/-- Groups of eight registers at v24, and the last replicated unit. -/
theorem witness_integer_vector_words :
    Legal (shaped 2048 .w32 .g8 false) { vv with vd := 24, va := 16, vb := 8 } 32 [24, 16, 8]
    ∧ Legal (shaped 256 .w32 .g1 false) { vv with rep := true, rsz := 2, ridx := 15 } 32 [2, 4, 6]
    ∧ Legal (shaped 256 .w32 .g1 false) { vv with vb := 0 } 32 [2, 4] :=
  ⟨legal_of (by decide +kernel), legal_of (by decide +kernel), legal_of (by decide +kernel)⟩

theorem witness_clip_and_planes :
    let c := shaped 2048 .w16 .g4 false
    let p := shaped 1024 .w8 .g1 false
    Legal c { vv with vd := 28, va := 24, vb := 1, ty := 0 } 16 [] ∧ SpanOk c 28 2048 8 ∧ SpanOk c 28 2048 16
    ∧ Legal p { vv with ty := 15, ctl := 7 } 8 [] ∧ SpanOk p 31 1024 8 := by
  refine ⟨legal_of (by decide +kernel), ?_, ?_, legal_of (by decide +kernel), ?_⟩ <;> unfold SpanOk <;> decide +kernel

/-- In matrix mode the last register that a word may write. -/
theorem witness_float_vector_words :
    Legal (shaped 128 .w64 .g1 false) { vf with ty := 11 } 64 [2, 4, 6] true
    ∧ Legal (shaped 128 .w16 .g1 true) { vf with ty := 8, vd := 27 } 16 [27, 4, 6] true
    ∧ Legal (shaped 256 .w32 .g1 false) vf 32 [2, 4, 6] ∧ (30 + 2 * (shaped 256 .w32 .g1 false).hart.sr.vgrp.n ≤ 32)
    ∧ Legal (shaped 256 .w32 .g1 false) { vf with vb := 0 } 32 [2, 4] :=
  ⟨legal_of (by decide +kernel), legal_of (by decide +kernel), legal_of (by decide +kernel), by decide +kernel, legal_of (by decide +kernel)⟩

theorem witness_mask_words :
    Legal (shaped 256 .w32 .g1 false) { vv with vd := 7 } 32 [4, 6] ∧ Unguarded (shaped 0 .w32 .g1 false) ∧ (shaped 0 .w32 .g1 false).hart.sr.vl = 0
    ∧ (shaped 256 .w32 .g1 false).hart.sr.mmode = false ∧ UnitOk (shaped 256 .w32 .g1 false) { vv with rep := true, rsz := 2, ridx := 15 }
    ∧ Legal (shaped 128 .w16 .g1 true) { vv with ty := 8 } 16 [2, 4, 6] true :=
  ⟨legal_of (by decide +kernel), trivial, by decide +kernel, by decide +kernel, fun _ => by decide +kernel, legal_of (by decide +kernel)⟩

theorem witness_conversions :
    let s := shaped 1024 .w32 .g4 false
    let q := shaped 896 .w8 .g1 false
    Legal s { vv with vd := 28, va := 24 } 32 [] true ∧ SpanOk s 28 1024 8 ∧ SpanOk s 24 1024 32
    ∧ Legal q { vv with vd := 31, ty := 14 } 8 [31] ∧ blockCount true 896 % 16 = 0 ∧ blockCount true 896 ≤ 16 * blocksPerReg true * 1
    ∧ SpanOk q 24 (blockCount true 896) 16 ∧ blockCount false 960 % 16 = 0 ∧ blockCount false 960 ≤ 16 * blocksPerReg false * 1 := by
  refine ⟨legal_of (by decide +kernel), ?_, ?_, legal_of (by decide +kernel), ?_⟩ <;> unfold SpanOk <;> decide +kernel

theorem witness_permutes :
    Legal (shaped 2048 .w32 .g8 false) { vv with vd := 24, va := 16, vb := 8 } 32 [24, 16, 8]
    ∧ Legal (shaped 128 .w16 .g1 true) { vv with va := 0, ty := 8 } 16 [2, 6] true
    ∧ Legal (shaped 896 .w8 .g1 false) { vv with ty := 14 } 8 [2, 4, 6, 6] ∧ 2 * 896 % 16 = 0 ∧ 2 * 896 ≤ 16 * blocksPerReg true * 1 :=
  ⟨legal_of (by decide +kernel), legal_of (by decide +kernel), legal_of (by decide +kernel), by decide, by decide⟩

theorem witness_reductions_and_draws :
    Legal (shaped 0 .w32 .g1 false) vf 32 [2, 4, 6] ∧ Legal (shaped 8192 .w8 .g8 false) { vv with vd := 24, va := 16, vb := 8, ty := 0 } 8 [24, 16, 8]
    ∧ Legal (shaped 256 .w32 .g1 false) { vf with form := 2, va := 0, vb := 0 } 32 [2] :=
  ⟨legal_of (by decide +kernel), legal_of (by decide +kernel), legal_of (by decide +kernel)⟩

/-- The last granted row, the last column, the last register that a tile read may name. -/
theorem witness_matrix_words :
    let s := shaped 128 .w16 .g1 true
    Matrix s ∧ tileIdx s { sp with form := 2, x := 255 } < s.hart.sr.mgrant.toNat ∧ tileIdx s { sp with form := 2, x := 127 } < 128 ∧ (27 : Nat) < 28 :=
  ⟨⟨trivial, by decide +kernel, by decide +kernel⟩, by decide +kernel, by decide +kernel, by decide⟩

/-- The parts of `ElemOk` as one check. -/
def elemHere (s : State) (c : Clock) (va : Word) (n m : Nat) (k : Kind) : Bool :=
  let a := found s va n k
  pageHere s va n k && decide (a.pa % n = 0) && reachedHere s c a.leaf.home && isHostMem a.pa && roomHere s (a.pa / 64) m
  && decide (∀ e ∈ s.hart.early, e.vec = true → e.pa ≠ a.pa)

theorem elem_of {s : State} {c : Clock} {va : Word} {n m : Nat} {k : Kind} (h : elemHere s c va n m k = true) :
    ElemOk s c va n m k (found s va n k) := by
  simp only [elemHere, Bool.and_eq_true, decide_eq_true_eq] at h
  obtain ⟨⟨⟨⟨⟨h1, h2⟩, h3⟩, h4⟩, h5⟩, h6⟩ := h
  have p := pageOk_of h1
  exact ⟨⟨p.aligned, h2⟩, p.fresh, p.allowed, reachedBy_of h3, h4, roomy_of h5, h6⟩

theorem clear_of {s : State} {sp : Bool} {rd wr rdAll wrAll : List (Nat × Nat)} {skip : Option Nat}
    (h : (s.hart.streams.toList.zipIdx.all (fun k => k.1.xfer.isNone) && s.hart.ctx.isNone) = true) : Clear s sp rd wr rdAll wrAll skip := by
  simp only [Bool.and_eq_true, List.all_eq_true, Option.isNone_iff_eq_none] at h
  refine ⟨fun k hk _ t ht => ?_, fun c hc => ?_, fun c hc => ?_⟩
  · rw [h.1 k hk] at ht; cases ht
  · rw [h.2] at hc; cases hc
  · rw [h.2] at hc; cases hc

theorem begin_of {s : State} {k : Nat} {now wide : Hulls}
    (h : (s.hart.streams.toList.all (fun k => k.xfer.isNone) && s.hart.ctx.isNone && (strm s k).xfer.isNone) = true) : Begin s k now wide := by
  simp only [Bool.and_eq_true, List.all_eq_true, Option.isNone_iff_eq_none] at h
  refine ⟨h.2, fun j hj t ht => ?_, fun c hc => ?_⟩
  · rw [h.1.1 j hj] at ht; cases ht
  · rw [h.1.2] at hc; cases hc

/-- Two f32 elements at the end of a page, at a base in s6 and a stride in s7. -/
def memState : State :=
  let s := world [(6, 0x13FFF8), (7, 4)]
  { s with hart := { s.hart with sr := { s.hart.sr with vl := 2, sew := .w32 }, vec := (lanes 2 32 .w32 [(6, [0, 4])]).hart.vec } }

theorem witness_vector_memory :
    let s := memState
    Unguarded s ∧ Grouped s { vf with m := 0, x := 0xE6 } [2, 6] ∧ s.hart.sr.mmode = false ∧ ModeOk s vf true ∧ acted s { vf with m := 0 } = [0, 1]
    ∧ Clear s false [] [(0x13FFF8, 4), (0x13FFFC, 4)] [] [(0x13FFF8, 4), (0x13FFFC, 4)] none
    ∧ (∀ k ∈ [Kind.load, .store, .atomic], ElemOk s s.hart.sr.vclk 0x13FFF8 4 2 k (found s 0x13FFF8 4 k)
      ∧ ElemOk s s.hart.sr.vclk 0x13FFFC 4 2 k (found s 0x13FFFC 4 k))
    ∧ (seen s (found s 0x13FFFC 4 .load) 4).isSome = true ∧ s.tailAt ((found s 0x13FFFC 4 .store).pa / 8 * 8) = none
    ∧ s.cells.wf = true ∧ s.windowShut 0 2 = [] ∧ (shaped 0 .w32 .g1 false).hart.sr.vl = 0 := by
  refine ⟨trivial, by unfold Grouped; decide +kernel, by decide +kernel, fun h => absurd h (by decide +kernel), by decide +kernel, clear_of (by decide +kernel), ?_,
    by decide +kernel⟩
  intro k hk
  simp only [List.mem_cons, List.not_mem_nil, or_false] at hk
  obtain rfl | rfl | rfl := hk <;> exact ⟨elem_of (by decide +kernel), elem_of (by decide +kernel)⟩

/-- A transfer of two elements. -/
def transfer (kind : TransferKind) : Transfer :=
  { kind := kind, op := 0, ty := 2, todo := [(0, 0x100000, 0x140000), (1, 0x100004, 0x140004)], size := 4, sb := 0, pos := 0, order := 0,
    hulls := { rd := (0x100000, 0x100008), wr := (0x140000, 0x140008), sp := (0, 0) }, at_ := none, vl := 2, clk := Clock.zero, clash := false,
    wrote := [], fail := none }

/-- A state with a transfer on stream 7. -/
def moving (s : State) (x : Transfer) : State :=
  { s with hart := { s.hart with streams := s.hart.streams.setIfInBounds 7 { avail := 0, fin := 2, xfer := some x } } }

theorem once_of {s : State} (h : (s.hart.streams.toList.all (fun k => k.xfer.isNone) && s.hart.ctx.isNone) = true) : ActsOnce s := by
  simp only [Bool.and_eq_true, List.all_eq_true, Option.isNone_iff_eq_none] at h
  refine ⟨fun k hk t ht => ?_, fun c hc => ?_⟩
  · rw [h.1 k hk] at ht; cases ht
  · rw [h.2] at hc; cases hc

/-- An access that a `.trim` on stream 7 makes while its transfer runs, at the end of a lane's slice. -/
theorem witness_vector_atomics_and_scratchpad :
    let off (v : Nat) : State := lanes 2 32 .w32 [(6, [v, 0])]
    let run := moving memState (transfer .copy)
    ActsOnce memState ∧ Clear memState false [(0x13FFF8, 4)] [(0x13FFF8, 4)] [] [] none ∧ memState.hart.sr.vl ≠ 0
    ∧ (∀ e ∈ [0, 1], spOffset (off 8188) { vf with m := 0 } e % 4 = 0 ∧ spOffset (off 8188) { vf with m := 0 } e + 4 ≤ 8192)
    ∧ ((strm run 7).xfer.isSome = true ∧ come run 7 < 2) ∧ Clear run true [(8188, 4)] [] [(8188, 4)] [] (some 7)
    ∧ (∀ e ∈ [0, 1], spKeyOf (off 8188) { vf with m := 0 } e (spOffset (off 8188) { vf with m := 0 } e) / 8 ∉ (off 8188).img.spPoison) := by
  refine ⟨once_of (by decide +kernel), clear_of (by decide +kernel), by decide +kernel, by decide +kernel, by decide +kernel, ⟨?_, ?_, ?_⟩, by decide +kernel⟩
  · intro k hk hn t ht
    have h : ∀ k ∈ (moving memState (transfer .copy)).hart.streams.toList.zipIdx, some k.2 ≠ some 7 → k.1.xfer = none := by decide +kernel
    rw [h k hk hn] at ht
    cases ht
  · intro c hc
    rw [show (moving memState (transfer .copy)).hart.ctx = none by decide +kernel] at hc
    cases hc
  · intro c hc
    rw [show (moving memState (transfer .copy)).hart.ctx = none by decide +kernel] at hc
    cases hc

theorem witness_transfers_begin :
    let h : Hulls := { rd := (0x100000, 0x100008), wr := (0x140000, 0x140008), sp := (0, 0) }
    Unguarded memState ∧ memState.hart.sr.mmode = false ∧ memState.hart.sr.vl ≠ 0 ∧ Begin memState 7 h h
    ∧ Grouped memState { vv with form := 3, m := 0, ctl := 7 } [] ∧ (strm memState 7).xfer = none
    ∧ (∀ e ∈ [0, 1], 0 + ordinalOf 32 e * 4096 + 4096 ≤ 8192) ∧ (strm (moving memState (transfer .copy)) 7).xfer.isSome = true
    ∧ memState.hart.ctx = none :=
  ⟨trivial, by decide +kernel, by decide +kernel, begin_of (by decide +kernel), by unfold Grouped; decide +kernel, by decide +kernel⟩

theorem witness_transfer_elements :
    let s := moving memState (transfer .copy)
    (strm s 7).xfer = some (transfer .copy) ∧ (strm (moving memState { transfer .copy with todo := [] }) 7).xfer.isSome = true
    ∧ (transfer .copy).todo.find? (fun p => p.1 == 1) = some (1, 0x100004, 0x140004) ∧ s.cells.wf = true ∧ (transfer .copy).fail = none
    ∧ (transfer .copy).clash = false ∧ (transfer .copy).size ∈ [1, 2, 4, 8]
    ∧ ElemOk s Clock.zero 0x100004 4 2 .load (found s 0x100004 4 .load) ∧ ElemOk s Clock.zero 0x140004 4 2 .store (found s 0x140004 4 .store)
    ∧ ElemOk s Clock.zero 0x140000 4 2 .atomic (found s 0x140000 4 .atomic) ∧ ElemOk s Clock.zero 0x13FFF0 16 1 .load (found s 0x13FFF0 16 .load)
    ∧ (∀ la, (found s 0x13FFF0 16 .load).pa / 64 ≤ la → la ≤ ((found s 0x13FFF0 16 .load).pa + 16 - 1) / 64 → Roomy s la (16 / 64 + 2))
    ∧ (seen s (found s 0x100004 4 .load) 4).isSome = true ∧ s.tailAt ((found s 0x140004 4 .store).pa / 8 * 8) = none
    ∧ s.windowShut s.hart.id.did 1 = [] ∧ ((transfer .rcopy).todo.map (·.1)).head? = some 0
    ∧ (∀ st ∈ s.hart.streams.toList, ∀ y, st.xfer = some y → y.order ≥ 0) ∧ 0x13FFF0 % 2 ^ 18 + 16 ≤ 2 ^ 18 := by
  refine ⟨by decide +kernel, by decide +kernel, by decide +kernel, by decide +kernel, rfl, rfl, by decide, elem_of (by decide +kernel), elem_of (by decide +kernel),
    elem_of (by decide +kernel), elem_of (by decide +kernel), fun la h1 h2 => ?_, by decide +kernel, by decide +kernel, by decide +kernel, by decide +kernel, ?_, by decide⟩
  · have e : (found (moving memState (transfer .copy)) 0x13FFF0 16 .load).pa = 0x13FFF0 := by decide +kernel
    rw [e] at h1 h2
    have : la = 0x13FFF0 / 64 := by omega
    subst this
    exact roomy_of (by decide +kernel)
  · exact fun _ _ _ _ => Nat.zero_le _

/-- A block at some word of it. -/
def block (e : QEntry) (ws : List (BitVec 64)) (i : Nat) : LoopCtx := { LoopCtx.start e 0x2000 ws i 4 0 6 with resolved := true }

/-- A loop whose block holds a `vexit`. -/
def loop (i : Nat) : LoopCtx := block (entry (.block 0x2000 (some 6))) [vheadWord, 0xA1C0200000000000, vstopWord] i

theorem witness_control_words :
    let s := inBlock (lanes 4 32 .w32 []) (loop 2)
    Unguarded s ∧ s.hart.sr.mmode = false ∧ (loop 2).threads = none ∧ (loop 2).parked = [] ∧ (loop 2).ran = [] ∧ (loop 2).pass = none
    ∧ (loop 2).fired = false ∧ Legal s { vv with m := 0, vb := 0 } 32 [4]
    ∧ (loop 2).entry.kind = .block 0x2000 (some 6) ∧ (block (entry (.block 0x2000 none)) [vheadWord, vstopWord] 1).entry.kind = .block 0x2000 none
    ∧ ((loop 2).k + 1) * (loop 2).g.toNat < (loop 2).n.toNat
    ∧ ¬ ({ loop 2 with k := 1 }.k + 1) * (loop 2).g.toNat < (loop 2).n.toNat
    ∧ ({ loop 2 with fired := true }).fired = true
    ∧ (let p : Strip := { k := 1, idx := 0, sb := 4, vl := 2, vec := .zero, fail := none }
       ({ loop 2 with parked := [p] }.parked.find? fun p => p.fail.isNone) = some p) :=
  ⟨unguarded_of (by decide +kernel), by decide +kernel, rfl, rfl, rfl, rfl, rfl, legal_of (by decide +kernel), rfl, rfl, by decide, by decide, rfl, rfl⟩

/-- Two threads at a word and one behind it. -/
def threads : List Thread := [{ e := 0, idx := 2, joined := false }, { e := 1, idx := 2, joined := false }, { e := 70, idx := 3, joined := false }]

theorem witness_lane_threads :
    let c : LoopCtx := { loop 1 with threads := some (1, threads) }
    let s := inBlock (lanes 128 32 .w32 []) c
    c.threads = some (1, threads) ∧ (∃ t ∈ threads, t.joined = false ∧ t.idx = 2) ∧ (∀ t ∈ threads, t.joined = false → 2 ≤ t.idx)
    ∧ s.hart.phase = .run ∧ c.words ≠ [] ∧ standAt s threads 0 2 ≠ [] ∧ s.hart.sr.mmode = false := by decide +kernel

/-- An inversion of v2 + 3 at 30 for one element with the bracket from 0 to 100, in a block. -/
def invWord : VWord := { sp with vd := 6, va := 2, vb := 7, ty := 2, x := 0x18030 }

def invState : State :=
  let s := inBlock (lanes 1 32 .w32 [(7, [30])]) (block (entry (.block 0x2000 none))
    [vheadWord, vw 0xAA 3 6 2 7 0 0 0 0 2 0 0x18030, vw 0x01 2 6 2 0 0 0 0 0 2 0 3, vstopWord] 1)
  { s with hart := { s.hart with vec := { s.hart.vec with bhi := 100 } } }

def invRoutine : List Instr := [.vadd { vv with form := 2, vd := 6, va := 2, vb := 0, m := 0, x := 3 }]

theorem witness_inversion :
    Legal (shaped 1 .w32 .g1 false) { vv with vd := 0 } 32 [4, 6] ∧ Legal (shaped 1 .w32 .g1 false) { sp with ty := 2, vd := 5 } 32 [5]
    ∧ (∃ x t, Answers invState (do
        let env ← M.frame
        M.vamoGuard env
        invCore invWord env) x t
      ∧ decide (t.hart.ctx.map (·.idx) = some 3) = true)
    ∧ Legal invState { invWord with rep := false } 32 [6, 2, 7] ∧ Routine invState invWord invRoutine ∧ invState.hart.ctx.isSome = true
    ∧ ((inverted invState invWord invRoutine).map fun p => p.2.map fun x => (x.lo, x.hi)) = some [(25, 31)] := by
  refine ⟨legal_of (by decide +kernel), legal_of (by decide +kernel),
    answers_of (fun _ t => decide (t.hart.ctx.map (·.idx) = some 3)) (by decide +kernel), legal_of (by decide +kernel), ⟨fun c hc => ?_, fun i hi => ?_⟩, by decide +kernel,
    by decide +kernel⟩
  · have h : ∀ c ∈ invState.hart.ctx, ((c.words.drop (c.idx + 1)).take (invArgs invWord).n).map decodeVector = invRoutine.map (fun i => .ok i)
        ∧ invRoutine.length = (invArgs invWord).n := by decide +kernel
    exact h c hc
  · simp only [invRoutine, List.mem_singleton] at hi
    subst hi
    exact ⟨_, _, rfl, legal_of (by decide +kernel), rfl, by decide +kernel⟩

theorem add_of {s : State} {va : Word}
    (h : (pageHere s va 4 .atomic && (found s va 4 .atomic).leaf.cc && reachedHere s s.hart.sr.vclk (found s va 4 .atomic).leaf.home) = true) :
    AddOk s va (found s va 4 .atomic) := by
  simp only [Bool.and_eq_true] at h
  have p := pageOk_of h.1.1
  exact ⟨p.aligned, p.fresh, p.allowed, h.1.2, reachedBy_of h.2⟩

/-- The parts of `MacroOk` as one check. -/
def macroHere (s : State) (va : Word) (wset : Nat) (ww : Bool) : Bool :=
  let a := found s va 64 .load
  pageHere s va 64 .load && decide (a.leaf.wset = wset ∧ wset ≠ 0 ∧ a.leaf.ww = ww) && reachedHere s s.hart.sr.vclk a.leaf.home
  && decide ((s.macroAt (macroOf a.pa)).retired = false ∧ (s.macroAt (macroOf a.pa)).window = false)

theorem macro_of {s : State} {va : Word} {wset : Nat} {ww : Bool} (h : macroHere s va wset ww = true) :
    MacroOk s va wset ww (found s va 64 .load) := by
  simp only [macroHere, Bool.and_eq_true, decide_eq_true_eq] at h
  obtain ⟨⟨⟨h1, h2⟩, h3⟩, h4⟩ := h
  have p := pageOk_of h1
  exact ⟨p.fresh, p.allowed, h2, reachedBy_of h3, h4⟩

theorem between_of {s : State} (h : s.hart.wait = .none) : Between s := by simp [Between, h]

/-- Experts of the table, words of the compute-capable mapping, and a weight set. -/
theorem witness_engine_words :
    let s := lanes 2 32 .w32 [(4, [8191, 0]), (6, [0, 1])]
    let t := world [(6, 0x3FFFF8), (7, 0x400000)]
    Legal s { vv with m := 0, vb := 0, ty := 6 } 32 [2, 4] ∧ (∀ e ∈ acted s { vv with m := 0 }, el s 4 32 e < 8192) ∧ ActsOnce s ∧ s.hart.id.did < 8
    ∧ s.hart.ctx = none ∧ s.hart.sr.vl ≠ 0 ∧ Idle s
    ∧ (∀ k, ((aget (s.tableOf s.hart.id.did).cur k).getD 0).toNat + (acted s { vv with m := 0 }).countP (fun e => el s 4 32 e == k) < 2 ^ 32)
    ∧ AddOk t 0x3FFFF8 (found t 0x3FFFF8 4 .atomic) ∧ t.windowShut t.hart.id.did 2 = [] ∧ t.bank.reqs = [] ∧ t.hart.sr.nbdet = false
    ∧ (t.hart.reg 7).toNat % 32768 = 0 ∧ MacroOk t 0x400000 1 false (found t 0x400000 64 .load)
    ∧ MacroOk t 0x478000 1 false (found t 0x478000 64 .load) := by
  refine ⟨legal_of (by decide +kernel), by decide +kernel, once_of (by decide +kernel), by decide +kernel, by decide +kernel, by decide +kernel,
    by unfold Idle; decide +kernel, fun k => ?_, add_of (by decide +kernel), by decide +kernel, by decide +kernel, by decide +kernel, by decide +kernel,
    macro_of (by decide +kernel), macro_of (by decide +kernel)⟩
  rw [show ((lanes 2 32 .w32 [(4, [8191, 0]), (6, [0, 1])]).tableOf (lanes 2 32 .w32 [(4, [8191, 0]), (6, [0, 1])]).hart.id.did).cur = [] by decide +kernel,
    show acted (lanes 2 32 .w32 [(4, [8191, 0]), (6, [0, 1])]) { vv with m := 0 } = [0, 1] by decide +kernel]
  have := List.countP_le_length (p := fun e => el (lanes 2 32 .w32 [(4, [8191, 0]), (6, [0, 1])]) 4 32 e == k) (l := [0, 1])
  simp only [List.length_cons, List.length_nil] at this
  rw [show ((aget ([] : List (Nat × BitVec 32)) k).getD 0).toNat = 0 from rfl]
  omega

/-- One broadcast command of one word, on the mapping at 2 MiB. -/
def nbxState : State :=
  let s := ((world []).placeBytes 0x40100 (toBytes 8 0 ++ toBytes 8 1 ++ toBytes 8 0x200 ++ toBytes 8 0x200000)).placeBytes 0x40200 (toBytes 8 0x2A00016100068000)
  { s with hart := { s.hart with wait := .nbx 0x100 1 0 } }

theorem witness_broadcast_commands :
    let s := nbxState
    let cmd := Command.ofBits (blockValue s 0x100 4)
    let ws := (List.range cmd.len).map fun i => blockValue s cmd.prog cmd.len / 2 ^ (64 * i) % 2 ^ 64
    let a := found s cmd.mapping 1 .atomic
    s.hart.wait = .nbx 0x100 1 0 ∧ s.cells.wf = true ∧ a.pa % 32 = 0 ∧ s.windowShut s.hart.id.did 1 = []
    ∧ s.uncovered s.hart.id.did s.hart.sr.vclk (fun _ => false) = [] ∧ s.uncovered s.hart.id.did (learned s) (fun _ => false) = []
    ∧ s.tailPending s.hart.key = none ∧ Block s 12 0x100 4 (blockValue s 0x100 4) ∧ cmd.ok = true
    ∧ Block s 12 cmd.prog cmd.len (blockValue s cmd.prog cmd.len) ∧ PageOk s cmd.mapping 1 .atomic a ∧ cmd.len = 1
    ∧ (∀ w ∈ ws, bankWordOk w = true) ∧ a.leaf.cc = true ∧ channelOf a.pa = cmd.channel ∧ cmd.inside (ws.map BankWord.ofBits) = true
    ∧ ReachedBy s (learned s) a.leaf.home :=
  ⟨by decide +kernel, by decide +kernel, by decide +kernel, by decide +kernel, by decide +kernel, by decide +kernel, by decide +kernel,
    block_of (by decide +kernel), by decide +kernel, block_of (by decide +kernel), pageOk_of (by decide +kernel), by decide +kernel, by decide +kernel,
    by decide +kernel, by decide +kernel, by decide +kernel, reachedBy_of (by decide +kernel)⟩

theorem witness_vector_traps :
    let c := block { entry (.block 0x2000 none) with mark := true } [vheadWord, 0, vstopWord] 1
    let s := inBlock (shaped 8 .w32 .g1 true) (block (entry (.block 0x2000 none)) [vheadWord, 0, vstopWord] 1)
    Idle s ∧ Between s ∧ Unguarded s ∧ s.hart.sr.mmode = true ∧ s.hart.sr.vl ≠ 0 ∧ s.hart.sr.status.blk = false ∧ s.hart.sr.tvec ≠ 0
    ∧ (entry (.block 0x2000 none)).mark = false ∧ c.entry.mark = true ∧ c.threads = none ∧ c.parked = []
    ∧ (let k : State := { s with hart := { s.hart with sr := { s.hart.sr with kexit := 4, status := { s.hart.sr.status with blk := true } } } }
       k.hart.sr.status.blk = true ∧ k.hart.sr.kexit ≠ 0) :=
  ⟨by unfold Idle; decide +kernel, between_of (by decide +kernel), unguarded_of (by decide +kernel), by decide +kernel⟩

/-- A block in memory at the head of the queue. -/
def headState (sup : Bool) : State :=
  let s := (mapped []).placeBytes 0x42000 (toBytes 8 0xADC0000000000000 ++ toBytes 8 0xA0C0000000000000)
  { queueOf s [{ entry (.block 0x2000 none) with sup := sup }] with
    hart := { (queueOf s [{ entry (.block 0x2000 none) with sup := sup }]).hart with sr := { s.hart.sr with savep := 0x100000 } } }

theorem witness_block_starts :
    AtHead (headState true) { entry (.block 0x2000 none) with sup := true } [] ∧ BlockAt (headState true) 0x2000 [0xADC0000000000000, 0xA0C0000000000000]
    ∧ (headState false).hart.sr.vown ≠ (headState false).hart.sr.savep ∧ Idle (headState false) ∧ Between (headState false)
    ∧ (headState false).hart.sr.status.blk = false ∧ (headState false).hart.sr.tvec ≠ 0 := by
  refine ⟨⟨by decide +kernel, by decide +kernel, by decide +kernel, by decide +kernel⟩, ⟨by decide +kernel, by decide +kernel, fun i w h => ?_,
    ⟨{ sp with vd := 0 }, by decide +kernel⟩,
    ⟨by decide, by decide, fun i hi => ?_⟩, by decide +kernel, fun p hp => ?_⟩, by decide +kernel, by unfold Idle; decide +kernel,
    between_of (by decide +kernel), by decide +kernel⟩
  · have g : ∀ i < 2, ∀ w : BitVec 64, [0xADC0000000000000, 0xA0C0000000000000][i]? = some w →
        (let s := headState true
         let a := found s (0x2000 + BitVec.ofNat 64 (8 * i)) 8 .fetch
         pageHere s (0x2000 + BitVec.ofNat 64 (8 * i)) 8 .fetch = true ∧ a.leaf.home = s.hart.id.did ∧ roomHere s (a.pa / 64) 2 = true
         ∧ seen s a 8 = some (toBytes 8 w.toNat)) := by
      intro i hi w hw
      have : i = 0 ∨ i = 1 := by omega
      rcases this with rfl | rfl <;> (injection hw with hw; subst hw; decide +kernel)
    have hi : i < 2 := by
      have := (List.getElem?_eq_some_iff.1 h).1
      simpa using this
    obtain ⟨h1, h2, h3, h4⟩ := g i hi w h
    exact ⟨_, pageOk_of h1, h2, roomy_of h3, h4⟩
  · have : i = 0 := by
      simp only [List.length_cons, List.length_nil] at hi
      omega
    subst this
    decide
  · have : (headState true).hart.ibuf = [] := by decide +kernel
    rw [this] at hp
    cases hp

/-- The block of a loop at its second strip, and the state in which that strip begins. -/
def strip (ws : List (BitVec 64)) : LoopCtx := { block (entry (.block 0x2000 (some 6))) ws 0 with k := 1, resolved := false }

def stripState (ws : List (BitVec 64)) : State :=
  let s := lanes 4 32 .w32 []
  inBlock { s with hart := { s.hart with vec := { s.hart.vec with m := s.hart.vec.m.setIfInBounds 2 2 } } } (strip ws)

def stripNext (ws : List (BitVec 64)) : State :=
  inBlock { stripState ws with hart := { (stripState ws).hart with sr := { (stripState ws).hart.sr with sb := 4, vl := 2 } } } ((strip ws).fresh 1)

/-- What the exit of the second strip of a loop resolves to. -/
def stripExit (ws : List (BitVec 64)) : M (stripState ws) M.Exit := do
  M.modSr fun _ => (stripNext ws).hart.sr
  M.modHart fun h => { h with ctx := (stripNext ws).hart.ctx }
  M.resolveExit (2 + 1) 2

/-- The second strip of a loop without an exit, of one with an exit that fires at its second element, and of one whose first word may not be
executed. -/
theorem witness_strip_starts :
    let c := strip [vheadWord, vstopWord]
    let x := strip [vheadWord, 0xA1C0200000000000, vstopWord]
    let bad := [vheadWord, 0, 0xA1C0200000000000, vstopWord]
    (stripState c.words).hart.phase = .run ∧ (stripState c.words).hart.ctx = some c ∧ c.words ≠ [] ∧ c.threads = none ∧ c.owed = [] ∧ c.idx = 0
    ∧ ((c.words.drop 1).any fun w => w.extractLsb' 56 8 == 0xA1#8) = false ∧ ((x.words.drop 1).any fun w => w.extractLsb' 56 8 == 0xA1#8) = true
    ∧ x.b0 + BitVec.ofNat 64 x.k * x.g = 4 ∧ BitVec.ofNat 64 (min x.g.toNat (x.n - BitVec.ofNat 64 x.k * x.g).toNat) = 2
    ∧ (∃ r t, Answers (stripState x.words) (stripExit x.words) r t
      ∧ ((match r with | .resolved c _ => c.stop == some 1 && c.taken == [(1, true)] | _ => false) && decide (t = stripNext x.words)) = true)
    ∧ (∃ r t, Answers (stripState bad) (stripExit bad) r t
      ∧ ((match r with | .trap _ _ => true | _ => false) && decide (t = stripNext bad)) = true) := by
  refine ⟨by decide +kernel, by decide +kernel, by decide, by decide, by decide, by decide, by decide +kernel, by decide +kernel, by decide +kernel,
    by decide +kernel, ?_, ?_⟩
  · exact answers_of (fun (r : M.Exit) t => (match r with | .resolved c _ => c.stop == some 1 && c.taken == [(1, true)] | _ => false)
      && decide (t = stripNext [vheadWord, 0xA1C0200000000000, vstopWord])) (by decide +kernel)
  · exact answers_of (fun (r : M.Exit) t => (match r with | .trap _ _ => true | _ => false)
      && decide (t = stripNext [vheadWord, 0, 0xA1C0200000000000, vstopWord])) (by decide +kernel)

/-- Each operation at the head of the queue; a mask word of a threaded region. -/
theorem witness_queued_operations :
    (∀ k ∈ [QKind.setl 8192 .w8 .g8, .mxon, .mxoff, .write 0x011 8, .write 0x012 64], AtHead (queueOf (runs []) [entry k]) (entry k) [])
    ∧ Idle (runs []) ∧ (runs []).hart.sr.mmode = false ∧ (8 : Word).toNat = Grp.g8.n ∧ (64 : Word).toNat = Sew.w64.bits
    ∧ (let c : LoopCtx := { block (entry (.block 0 none)) [vheadWord, 0xA6C0002000000000, vw 0x44 0 3 4 0 0 0 0 0 0 0 0, vstopWord] 1 with threads := some (1, threads) }
       let s := inBlock (lanes 128 32 .w32 []) c
       standAt s threads 0 2 ≠ [] ∧ c.nextPc 32 0 = some 2 ∧ decodeVector (c.words.getD 2 0) = .ok (.vmnot { sp with form := 0, vd := 3, va := 4 })
       ∧ decodeVector 0xA8C04000000001FF = .ok (.lbr { sp with va := 4, x := 0x1FF })
       ∧ ∃ core, regionCore (.vmnot { sp with form := 0, vd := 3, va := 4 }) = some core
         ∧ ∃ x t, Answers s (do
             M.modHart fun h => { h with ctx := h.ctx.map fun c => c.pick 0 2 }
             M.goTo 2
             let env ← M.threadFrame (standAt s threads 0 2)
             core env) x t ∧ true = true) := by
  refine ⟨fun k hk => ?_, by unfold Idle; decide +kernel, by decide +kernel, by decide, by decide, by decide +kernel, by decide +kernel, by decide +kernel, by decide +kernel,
    _, rfl, answers_of (fun _ _ => true) (by decide +kernel)⟩
  exact ⟨rfl, rfl, rfl, rfl⟩

/-! ### Events -/

/-- A state with other caches, in-place engines, dispatchers, placement or host port. -/
def withImg (s : State) (f : Images → Images) : State := { s with img := f s.img }
def withBank (s : State) (f : InPlace → InPlace) : State := { s with bank := f s.bank }
def withDisp (s : State) (f : Dispatch → Dispatch) : State := { s with disp := f s.disp }
def withPlace (s : State) (f : Placement → Placement) : State := { s with place := f s.place }
def withHost (s : State) (f : HostPort → HostPort) : State := { s with host := f s.host }

theorem find_one {α : Type} {p : α → Bool} {a : α} (h : p a = true) : [a].find? p = some a := by simp [h]

theorem filter_one {α : Type} {p : α → Bool} {a : α} (h : p a = true) : [a].filter p = a :: [] := by simp [h]

theorem hart_one {s : State} (h : s.hart.key = 0) : s.hartOf 0 = some s.hart := by simp [State.hartOf, h]

/-- A cached line of the page at 1 MiB with its first byte dirty. -/
def line : Line := { addr := 16384, data := 7, dirty := 1, poison := false, level := .l2, key := some 0 }

def settle (down : Bool) : Settling := { frame := 4, renew := true, lines := [(16384, 1)], down := down }

def settleState (down : Bool) : State :=
  let s := withImg (runs []) fun i => { i with cache := [line], settling := [settle down] }
  if down then { s with hart := { s.hart with wait := .renew [4] } } else s

/-- A mapped page that may move: the journal and the command ring lie elsewhere. -/
def moveState : State := withHost (mapped []) fun p => { p with jbase := 0x4000000, hcbase := 0x5000000 }

/-- The leaf of the page that the first program page maps. -/
def pageLeaf : Leaf := (moveState.leafAt 0x18000).getD (acc (runs []) 0 1 .load).leaf

theorem witness_page_events :
    (let s := settleState false
     s.cells.wf = true ∧ s.img.settling.find? (fun g => g.frame == 4 && !g.down) = some (settle false) ∧ s.host.snoops = []
     ∧ (∀ l ∈ s.img.cache, l.addr / 4096 = 4 → l.poison = false) ∧ (∀ p ∈ (settle false).lines, p.1 / 4096 = 4 ∧ p.1 ∉ s.img.poison)
     ∧ findLine s.img.cache 16384 = some line ∧ line.level ≠ .host ∧ line.level ≠ .l3 ∧ line.key ≠ none ∧ isHostMem (64 * 16384) = true
     ∧ s.cacheRoom 16384 .l3 = true ∧ s.retiredLine 16384 = false ∧ 16384 ≠ entryPa s / 64 ∧ 16384 ≠ (entryPa s + 31) / 64)
    ∧ (let s := settleState true
       s.img.settling.find? (·.down) = some (settle true) ∧ (∀ l ∈ s.img.cache, l.addr / 4096 = (settle true).frame → l.level ≠ .host)
       ∧ s.hart.wait = .renew [(settle true).frame] ∧ s.others = []
       ∧ (s.img.settling.filter fun k => k.frame == (settle true).frame && k.renew).length ≤ 1)
    ∧ (let s := withHost (runs []) fun p => { p with snoops := [16384] }
       s.host.snoops = 16384 :: [] ∧ s.host.linkUp = true ∧ s.cacheRoom 16384 .l2 = true)
    ∧ (let s := moveState
       s.leafAt 0x18000 = some pageLeaf ∧ pageLeaf ∈ s.leavesOn (pageLeaf.base / 2 ^ 18)
       ∧ s.mayMove pageLeaf (pageLeaf.base / 2 ^ 18) 262144 = true ∧ (∀ k ∈ s.leavesOn (pageLeaf.base / 2 ^ 18), k.pte % 8 = 0)
       ∧ s.img.poison = [] ∧ s.img.cache = []) := by decide +kernel

theorem recall_of {order : List Nat} {n : Nat} (h : (order.filter fun a => homeOf (64 * a) == 0) = List.replicate n 16384) (hn : n ≥ 1048576) :
    let s := withImg (runs []) fun i => { i with hostOrder := order }
    (List.range 8).find? (fun d => decide ((s.img.hostOrder.filter fun a => homeOf (64 * a) == d).length ≥ 1048576)) = some 0
    ∧ (s.img.hostOrder.filter fun a => homeOf (64 * a) == 0).find? (fun a => !s.host.snoops.contains a) = some 16384 := by
  have r : List.range 8 = 0 :: [1, 2, 3, 4, 5, 6, 7] := rfl
  have c : (runs []).host.snoops = [] := rfl
  simp only [withImg, r, List.find?_cons, h, List.length_replicate, hn, decide_true, true_and]
  rw [List.find?_replicate_of_length_pos (by omega), c]
  rfl

/-- A die with 1,048,576 lines at the host. -/
theorem witness_directory_recall :
    let s := withImg (runs []) fun i => { i with hostOrder := List.replicate 1048576 16384 }
    (List.range 8).find? (fun d => decide ((s.img.hostOrder.filter fun a => homeOf (64 * a) == d).length ≥ 1048576)) = some 0
    ∧ (s.img.hostOrder.filter fun a => homeOf (64 * a) == 0).find? (fun a => !s.host.snoops.contains a) = some 16384 := by
  refine recall_of (n := 1048576) ?_ (Nat.le_refl _)
  have h : (homeOf (64 * 16384) == 0) = true := by decide
  rw [List.filter_replicate, if_pos h]

/-- An add request, and a reduction of two sources of three words each. -/
def request : BankReq := { pa := 0x100000, f32 := true, v := 0x3F800000, det := false, launch := 0, die := 0, hid := 0, seq := 0 }

def reduction (presettle : Bool) : Reduction :=
  { op := 1, fmt := 2, n := 3, srcs := [[(0x180000, 12)], [(0x1C0000, 12)]], dst := [(0x140000, 12)], dst0 := 5, flagPa := none, flagV := 0,
    presettle := presettle, waits := [], copies := [], journal := false, vf := 0 }

/-- A piece of 12 bytes. -/
def span (pa : Nat) : Span := { pa := pa, len := 12, wb := true, ww := false }

def macroState (announced : Option Nat) (window : Bool) : MacroState :=
  { retired := false, fails := 2, announced := announced, window := window, cal := 1 }

/-- The parts of `DieReady` as one check. -/
def readyHere (s : State) (d home : Nat) : Bool :=
  decide (s.windowShut d 1 = []) && decide (∀ c ∈ s.fab.chans, c.src = d → c.dst = home → c.reqs = [])
  && decide (s.uncovered home (s.die d).clock (fun i => i == d) = [])

theorem ready_of {s : State} {d home : Nat} (h : readyHere s d home = true) : DieReady s d home := by
  simp only [readyHere, Bool.and_eq_true, decide_eq_true_eq] at h
  exact ⟨h.1.1, h.1.2, h.2⟩

theorem witness_in_place_units :
    (let s := withBank (runs []) fun b => { b with
        reqs := [request], bred := [(0, reduction false)], xmerge := [(0, reduction true)],
        macros := [(8191, macroState (some 0) false), (8190, macroState none true)] }
     ((s.bank.reqs.filter fun r => !r.det)[0]? = some request ∧ s.cells.wf = true ∧ s.img.settling = [] ∧ request.pa % 4 = 0
       ∧ s.arrayPoison (request.pa / 64) = false ∧ bankOf request.pa ∉ s.bank.bfail)
     ∧ (((heads s.bank.bred).filter fun p => !p.2.waiting s) = [(0, reduction false)] ∧ (reduction false).presettle = false
       ∧ (reduction false).journal = false ∧ (reduction false).flagPa = none ∧ (reduction false).clash false = false ∧ redWidth 2 = 4
       ∧ (reduction false).dst = [(0x140000, 3 * 4)] ∧ (reduction false).srcs = [0x180000, 0x1C0000].map (fun p => [(p, 3 * 4)])
       ∧ (∀ p ∈ [0x140000, 0x180000, 0x1C0000], p % 4 = 0 ∧ ∀ i < 3 * 4, s.arrayPoison ((p + i) / 64) = false) ∧ s.img.cache = [])
     ∧ (((heads s.bank.xmerge).filter fun p => !p.2.waiting s) = [(0, reduction true)] ∧ nextCopy (reduction true).copies = none
       ∧ (reduction true).presettle = true)
     ∧ ((s.macroAt (0 * 8192 + 8191)).announced = some 0 ∧ 0 ≤ s.time.toNat ∧ (s.macroAt 8191).window = false ∧ (s.macroAt 8191).retired = false
       ∧ s.bank.macros.find? (fun p => p.2.window) = some (8190, macroState none true))
     ∧ 7 * 1024 + 31 * 32 + 31 ∉ s.bank.bfail)
    ∧ (let s := withBank (runs []) fun b => { b with bred := [(0, reduction true)], xmerge := [(0, reduction false)] }
       ((heads s.bank.bred).filter fun p => !p.2.waiting s) = [(0, reduction true)]
       ∧ ((heads s.bank.xmerge).filter fun p => !p.2.waiting s) = [(0, reduction false)] ∧ (reduction false).flagPa = none
       ∧ (s.macroAt (7 * 8192 + 8191)).announced = none ∧ s.time.toNat + 1000000 ≤ 2 ^ 64 - 1) := by decide +kernel

/-- A merge that copies a remote buffer first. -/
theorem witness_merge_copies :
    let r := { reduction true with copies := [([span (2 ^ 45 + 0x40000)], [span 0x180000])] }
    let s := withBank (runs []) fun b => { b with xmerge := [(0, r)] }
    ((heads s.bank.xmerge).filter fun p => !p.2.waiting s) = [(0, r)]
    ∧ ∃ a b left, nextCopy r.copies = some (a, b, left) ∧ DieReady s 0 (homeOf a.pa) ∧ DieReady s 0 0 ∧ s.windowShut 0 b.lines = []
      ∧ s.cells.wf = true ∧ 0 < a.len ∧ ∀ i < a.len, isHostMem (a.pa + i) = true ∧ isHostMem (b.pa + i) = true :=
  ⟨by decide +kernel, _, _, _, rfl, ready_of (by decide +kernel), ready_of (by decide +kernel), by decide +kernel, by decide +kernel, by decide +kernel, by decide +kernel⟩

/-- The host's queue 4095 of die 0 and its slot 63, which holds a whole record. -/
def slotState (latched : List Nat) : State :=
  let s := poolState []
  withDisp s fun d => { d with
    slots := [(4095 * 64 + 63, record)],
    queues := [{ q := 4095, vf := some 0, field := 0, next := 63, latched := latched, busy := [], deficit := 0 }] }

theorem witness_slots_and_latches :
    (slotState []).hostReaches = true ∧ (slotState []).hostServed = true ∧ slotExists 0 4095 63 = true ∧ 119 + [0, 1, 2, 3, 4, 5, 6, 7].length ≤ 127
    ∧ ((slotState []).queueOf 4095).vf = some 0 ∧ ((slotState []).queueOf 4095).busy = [] ∧ 62 ≠ ((slotState []).queueOf 4095).next
    ∧ ((slotState []).queueOf 4095).next ∉ ((slotState []).queueOf 4095).latched
    ∧ (withHost (slotState []) fun p => { p with power := .entering }).hostReaches = true
    ∧ ((slotState []).queueOf 4095).latched = [] ∧ ((slotState []).disp.queues.map (·.q)).Nodup
    ∧ (slotState []).vfEnabled 0 = true
    ∧ ∀ v ≤ 255, 1 ≤ v → let r := putRecordField ((aget (slotState []).disp.slots (4095 * 64 + 63)).getD 0) 127 1 v
      recordOk r 0 = true ∧ (slotState []).everFits 0 r = true ∧ ∀ i < 4, (slotState []).depLost (recDep r i) = false := by
  decide +kernel

/-- One launch, of which the next gang can be admitted; one whose dependency is met; one of two co-resident gangs. -/
def launchState (l : Launch) : State := { withDisp (poolState []) fun d => { d with launches := [l], nextId := 1 } with hart := .free 0 0 }

def together : Launch := { launch with record := putRecordField (putRecordField record 32 2 2) 37 1 1 }

theorem witness_admission :
    (let l := { launch with deps := [.count 4 0] }
     (launchState l).disp.launches.find? (fun l => l.deps.any fun d => d != .met && (launchState l).depMet d) = some l)
    ∧ (∀ l ∈ [launch, together], let s := launchState l
       s.host.power = .run ∧ ((ranked s).choose 0).map (·.launch) = some l ∧ (s.choose 0).isSome = true
       ∧ s.rerunAhead 0 (recPriority l.record) = false
       ∧ gangsFit l.record (s.tenantOf 0) (gangsAtOnce l.record) (s.rooms l) = true
       ∧ (s.nextPlace l).map (fun r => (r.1, r.2.1)) = some (0, [0])
       ∧ recPreload l.record = 0 ∧ (s.harts.map Hart.key).Nodup ∧ (s.disp.launches.map (·.id)).Nodup ∧ ∀ h ∈ s.harts, h.sr.vown = 0)
    ∧ gangsAtOnce launch.record = 1 ∧ recCo together.record = true := by
  refine ⟨by decide +kernel, ?_, by decide +kernel, by decide +kernel⟩
  decide +kernel

/-- A hart of a gang, running, with its launch; the gang in some condition, the launch and the hart too. -/
def gangState (s : State) (g : Gang) (l : Launch) : State := withDisp s fun d => { d with gangs := [g], launches := [l], nextId := 1 }

/-- A gang whose harts have gone to their save areas when it runs on. -/
def away (h : Hart) : Hart := { h with sr := { h.sr with savep := 0x100000 } }

/-- A launch whose gangs have all retired, with a completion flag and without. -/
def ended : Launch := { launch with admitted := 1, retired := 1 }

def flagged : Launch := { ended with record := putRecordField record 16 8 0x3FFF8, journaled := true }

theorem witness_retirement :
    let g := { gang 1 with halted := 1 }
    let s := gangState (poolState []) g { launch with admitted := 1 }
    (counted s).disp.gangs.find? (fun g => decide (g.halted ≥ g.size)) = some g
    ∧ s.disp.launches.find? (fun l => l.id == g.launch) = some { launch with admitted := 1 } ∧ recGangs record ≤ 1
    ∧ (∀ l ∈ [ended, flagged, { flagged with journaled := false }], (gangState (poolState []) g l).disp.launches.find? (·.over) = some l)
    ∧ recFlag ended.record = 0 ∧ ended.status = 0 ∧ s.bank.reqs = []
    ∧ recFlag flagged.record = 0x3FFF8 ∧ (s.disp.gangs.map fun g => (g.die, g.gid)).Nodup
    ∧ 1000001 > recBudget record ∧ 1000001 = { gang 1 with charge := 1000001 }.charge + (s.cycle.toNat - (gang 1).cycleAt) := by
  decide +kernel

theorem witness_completion_flag :
    let s := gangState (mapped []) (gang 1) flagged
    let va := recFlag flagged.record
    let a := granted (s.checkLeaf (s.tenantOf 0) va 8 .store (s.walk 0 va))
    va % 8 = 0 ∧ Fresh s 0 va ∧ s.checkLeaf (s.tenantOf 0) va 8 .store (s.walk 0 va) = .ok a ∧ DieReady s 0 a.leaf.home ∧ isHostMem a.pa = true
    ∧ a.pa % 8 = 0 ∧ s.tailAt a.pa = none ∧ s.cells.wf = true :=
  ⟨by decide +kernel, by unfold Fresh; decide +kernel, by decide +kernel, ready_of (by decide +kernel), by decide +kernel⟩

/-- A gang that stops, with its hart at a boundary: in its slot, or with a save area. -/
def stopState (walks : Bool) : State :=
  let s := gangState (world []) { gang 1 with phase := .stopping 0 } { launch with admitted := 1 }
  if walks then { s with hart := away s.hart } else s

/-- A hart whose context walk goes on from a record. -/
def savingState : State :=
  let s := stopState true
  { s with hart := { s.hart with phase := .saving 21 } }

theorem witness_preemption (w : Bool) :
    let s := stopState w
    let g := { gang 1 with phase := .stopping 0 }
    s.disp.gangs.find? (fun g => s.canSave g && (s.members g).any fun h => h.phase == .run) = some g
    ∧ s.disp.gangs.find? (fun k => k.die == g.die && k.gid == g.gid) = some g
    ∧ s.members g = [s.hart] ∧ s.hart.phase = .run ∧ s.hart.walks = w ∧ s.hart.sr.status.walk = false := by
  cases w <;> exact ⟨by decide +kernel, by decide +kernel, by exact rfl, by decide +kernel, by decide +kernel, by decide +kernel⟩

/-- The records of a context from r on lie in the save area, apart from the page tables. -/
def takesHere (s : State) (r barrier : Nat) : Bool :=
  (s.hart.contextRecords barrier).all fun p => decide (p.1 < r) || (pageHere s (recAddr s.hart.sr.savep p.1) 64 .store
    && (s.mapped s.hart.id.vf).1.all fun t => decide ((found s (recAddr s.hart.sr.savep p.1) 64 .store).pa + 64 ≤ t)
      || decide (t + 32768 ≤ (found s (recAddr s.hart.sr.savep p.1) 64 .store).pa))

/-- The pages of the save area are served. -/
def areaHere (s : State) : Bool := (List.range 4).all fun i =>
  pageHere s (s.hart.sr.savep + BitVec.ofNat 64 (i * 2 ^ 18)) 64 .load
    && reachedHere s s.hart.sr.vclk (found s (s.hart.sr.savep + BitVec.ofNat 64 (i * 2 ^ 18)) 64 .load).leaf.home

theorem area_of {s : State} {r barrier : Nat} (h1 : areaHere s = true) (h2 : takesHere s r barrier = true) (h3 : s.windowShut s.hart.id.did 4096 = []) :
    AreaTakes s r barrier := by
  refine ⟨fun i hi => ?_, fun p hp hr => ?_, h3⟩
  · have := Bool.and_eq_true_iff.1 (List.all_eq_true.1 h1 i (List.mem_range.2 hi))
    exact ⟨_, pageOk_of this.1, reachedBy_of this.2⟩
  · have := List.all_eq_true.1 h2 p hp
    simp only [Bool.or_eq_true, Bool.and_eq_true, decide_eq_true_eq, List.all_eq_true] at this
    rcases this with h | h
    · omega
    · exact ⟨_, pageOk_of h.1, fun t ht => h.2 t ht⟩

theorem witness_walk_retry :
    let s := savingState
    s.harts.find? (fun h => match h.phase with | .saving _ => true | _ => false) = some s.hart ∧ s.hart.phase = .saving 21
    ∧ s.disp.gangs.find? (fun g => g.die == s.hart.id.did && g.gid == s.hart.id.gid) = some { gang 1 with phase := .stopping 0 }
    ∧ s.hartOf 0 = some s.hart ∧ s.hart.walks = true ∧ s.hart.sr.status.walk = false ∧ AreaTakes ((Upd.focus s.hart.key).apply s) 21 0 :=
  ⟨find_one (a := savingState.hart) (by decide +kernel), by decide +kernel, by decide +kernel, hart_one (by decide +kernel), by decide +kernel,
    by decide +kernel, area_of (by decide +kernel) (by decide +kernel) (by decide +kernel)⟩

theorem witness_walk_ends :
    ∃ x t, Answers savingState (do
      M.focus savingState.hart.key
      M.needWindow savingState.hart.id.did 4096
      M.areaReady savingState.hart.sr.savep
      M.saveContext 21 (0 : BitVec 64).toNat) x t ∧ x = true :=
  answers_of (fun (x : Bool) _ => x) (by decide +kernel)

/-- The area takes the whole context of a pre-empted hart, every record in a place of its own. -/
theorem witness_preemption_area :
    let s := stopState true
    let s0 := { (Upd.focus s.hart.key).apply s with hart := endWait s.hart }
    AreaTakes s0 0 0 ∧ (∀ p ∈ (endWait s.hart).contextRecords 0, isHostMem (found s0 (recAddr s.hart.sr.savep p.1) 64 .store).pa = true)
    ∧ (((endWait s.hart).contextRecords 0).map fun p => (found s0 (recAddr s.hart.sr.savep p.1) 64 .store).pa).Nodup ∧ s.cells.wf = true :=
  ⟨area_of (by decide +kernel) (by decide +kernel) (by decide +kernel), by decide +kernel⟩

theorem witness_resumption :
    let g := { gang 1 with phase := .ready, reserved := true }
    let l := { launch with admitted := 1 }
    let s := gangState (poolState []) g l
    let p : State := { s with hart := { s.hart with phase := .parked } }
    p.host.power = .run ∧ (∃ places, p.nextBack = some (g, l, places)) ∧ p.disp.gangs.find? (fun k => k.die == g.die && k.gid == g.gid) = some g
    ∧ (p.choose g.die).any (fun c => decide (recPriority c.launch.record > recPriority l.record)) = false
    ∧ g.areas = [] ∧ g.killed = false ∧ p.hartOf 0 = some p.hart ∧ p.hart.phase = .parked
    ∧ ∀ q < 24, ((p.harts.filter fun h => h.id.did == g.die && h.id.hid / 16 == q).map fun h => max h.sr.mgrant.toNat h.id.rows).sum ≤ 512 :=
  ⟨by decide +kernel, ⟨[], by decide +kernel⟩, by decide +kernel, by decide +kernel, by decide +kernel, by decide +kernel, hart_one (by decide +kernel),
    by decide +kernel, by decide +kernel⟩

/-- A gang whose one member comes back from its save area. -/
def backState : State :=
  let s := gangState (world []) { gang 1 with phase := .ready, harts := [], areas := [(0, 0x100000)] } { launch with admitted := 1 }
  { s with hart := .free 0 0 }

theorem witness_resumption_from_areas :
    let g := { gang 1 with phase := .ready, harts := [], areas := [(0, 0x100000)] }
    let l := { launch with admitted := 1 }
    ∃ places, backState.nextBack = some (g, l, places) ∧ ∃ x t, Answers backState (do
      M.chargeQueues
      M.each g.areas fun p => M.dieArea g.die (recVf l.record) (backState.tenantOf (recVf l.record)) p.2 .gangResume
      let back ← M.restoreMembers g l .gangResume places
      M.gangBack g
      return back && (← M.rowsFit g.die)) x t ∧ x = true :=
  ⟨[(0, 0, 0x100000)], by decide +kernel, answers_of (fun (x : Bool) _ => x) (by decide +kernel)⟩

/-- A hart in a wait, its gang full at the barrier. -/
def waits (w : Wait) (hit : Bool) : State :=
  let s := gangState (poolState []) { gang 1 with barrier := 1 } { launch with admitted := 1 }
  { s with hart := { s.hart with wait := w, watchHit := hit } }

theorem witness_waits_and_kill :
    (let s := waits .none false
     s.hartOf 0 = some s.hart ∧ slotTaken s.hart = true ∧ s.hart.phase = .run ∧ Between s ∧ s.hart.sr.tvec ≠ 0)
    ∧ (let s := waits .none false
       let k : State := { s with hart := { s.hart with sr := { s.hart.sr with tvec := 0, kexit := 0x2000 } } }
       Between k ∧ k.hart.sr.tvec = 0 ∧ k.hart.sr.kexit ≠ 0 ∧ k.hart.phase = .run)
    ∧ (let s := waits .idle true
       s.hart.wait = .idle ∧ ({ s with time := 10000 }.time.toNat ≥ s.hart.idleAt + 10000)
       ∧ s.harts.filter (fun h => h.phase == .run && h.wait == .idle && h.watchHit) = s.hart :: [] ∧ s.hartOf 0 = some s.hart)
    ∧ (let s := waits .barrier false
       let g := { gang 1 with barrier := 1 }
       s.disp.gangs.find? (fun g => g.full && g.gathered s && (g.harts.filterMap s.hartOf).any fun h => h.wait == .barrier) = some g ∧ g.harts.Nodup
       ∧ ((s.members g).filter fun h => h.wait == .barrier && h.phase == .run) = s.hart :: [])
    ∧ (let s := waits (.swait 4 0) false
       s.harts.filter (fun h => match h.wait with
          | .swait f t => h.phase == .run && countReached (s.countOf f) t
          | _ => false) = s.hart :: [] ∧ s.hartOf 0 = some s.hart ∧ s.hart.wait = .swait 4 0) := by
  refine ⟨⟨hart_one (by decide +kernel), by decide +kernel, by decide +kernel, between_of (by decide +kernel), by decide +kernel⟩,
    ⟨between_of (by decide +kernel), by decide +kernel⟩, ⟨by decide +kernel, by decide +kernel, ?_, hart_one (by decide +kernel)⟩,
    ⟨by decide +kernel, by decide +kernel, ?_⟩, ?_, hart_one (by decide +kernel), by decide +kernel⟩
  · exact filter_one (a := (waits .idle true).hart) (by decide +kernel)
  · exact filter_one (a := (waits .barrier false).hart) (by decide +kernel)
  · exact filter_one (a := (waits (.swait 4 0) false).hart) (by decide +kernel)

/-- A slot without a scratchpad whose walk to its owner's area has reached the last record. -/
def ownState : State :=
  let s := world [(1, 0x100000)]
  { s with hart := { s.hart with
    id := { s.hart.id with hid := 1 },
    sr := { s.hart.sr with vown := 0x100000, saveidx := saveidxOf 4976 false 2, status := { s.hart.sr.status with walk := true } } } }

theorem witness_vector_walk :
    ownState.hart.sr.status.sv = true ∧ ownState.hart.sr.vown ≠ ownState.hart.reg 0
    ∧ ∃ x t, Answers ownState (M.vectorWalk (ownState.hart.reg 0)) x t ∧ true = true :=
  ⟨by decide +kernel, by decide +kernel, answers_of (fun (_ : PUnit) _ => true) (by decide +kernel)⟩

theorem areaServed_of {s : State} {area : Word} (h : ((List.range 4).all fun i => pageHere s (area + BitVec.ofNat 64 (i * 2 ^ 18)) 64 .load
    && reachedHere s s.hart.sr.vclk (found s (area + BitVec.ofNat 64 (i * 2 ^ 18)) 64 .load).leaf.home) = true)
    (w : s.windowShut s.hart.id.did 30000 = []) : AreaServed s area :=
  ⟨fun i hi => by
    have := Bool.and_eq_true_iff.1 (List.all_eq_true.1 h i (List.mem_range.2 hi))
    exact ⟨_, pageOk_of this.1, reachedBy_of this.2⟩, w⟩

/-- A walk that saves the last record before it zeroes the slot. -/
theorem witness_frame_saved :
    ownState.hart.walkStop = none ∧ ownState.hart.reg 0 = 0 ∧ ownState.hart.sr.vown ≠ 0 ∧ ¬ Restoring ownState
    ∧ FrameTakes ownState ownState.hart.sr.vown (saveFrom ownState) := by
  refine ⟨by decide +kernel, by decide +kernel, by decide +kernel, by decide +kernel, areaServed_of (by decide +kernel) (by decide +kernel), ?_⟩
  intro i h1 h2
  have e : i = 4976 := by
    have a : saveFrom ownState = 4976 := by decide +kernel
    have b : ownState.hart.frameEnd = 4977 := by decide +kernel
    omega
  subst e
  exact ⟨_, pageOk_of (by decide +kernel), by decide +kernel⟩

/-- A walk to the area of the new owner that has restored all but the last record. -/
def ownedState : State :=
  { ownState with hart := { ownState.hart with sr := { ownState.hart.sr with vown := 0, saveidx := saveidxOf 4976 true 2 } } }

/-- The register that names the new owner. -/
def newOwner : State := { ownedState with hart := { ownedState.hart with x := ownedState.hart.x.setIfInBounds 9 0x100000 } }

theorem witness_frame_restored :
    newOwner.hart.walkStop = none ∧ newOwner.hart.reg 9 ≠ 0 ∧ newOwner.hart.sr.vown ≠ newOwner.hart.reg 9 ∧ Restoring newOwner
    ∧ FrameGives newOwner (newOwner.hart.reg 9) (saveFrom newOwner) (fun i => found newOwner (recAddr (newOwner.hart.reg 9) i) 64 .load)
      (fun i => newOwner.liveBytes (found newOwner (recAddr (newOwner.hart.reg 9) i) 64 .load).pa 64
        (found newOwner (recAddr (newOwner.hart.reg 9) i) 64 .load).leaf.ww) := by
  have e (i : Nat) (h1 : saveFrom newOwner ≤ i) (h2 : i < newOwner.hart.frameEnd) : i = 4976 := by
    have a : saveFrom newOwner = 4976 := by decide +kernel
    have b : newOwner.hart.frameEnd = 4977 := by decide +kernel
    omega
  refine ⟨by decide +kernel, by decide +kernel, by decide +kernel, by decide +kernel, areaServed_of (by decide +kernel) (by decide +kernel),
    fun i h1 h2 => ?_, fun i h1 h2 => ?_, fun i h1 h2 => ?_⟩ <;> obtain rfl := e i h1 h2
  · exact pageOk_of (by decide +kernel)
  · exact ⟨by decide +kernel, by decide +kernel⟩
  · unfold Roomy; decide +kernel

/-- A table of one expert with an active replica on die 0 and one on die 1, the second draining, and the policy block's limits. -/
def replica (die state : Nat) : Replica :=
  { base := 0x180000 + BitVec.ofNat 64 die * 0x40000, die := die, weights := false, state := state, len := 262144, vf := 0 }

def table (s0 s1 : Nat) : DieTable :=
  { DieTable.reset with
    version := 1, bank1 := { version := 1, experts := 1, seedTable := 0, entries := [(0, replica 0 s0), (1, replica 1 s1)] }, cur := [(0, 100)] }

def placed (s : State) (s0 s1 : Nat) : State := withPlace s fun p => { p with tables := Vector.replicate 8 (table s0 s1) }

def policy : Policy := { hot := 1, cold := 0, hyst := 1, idle := 0, kinds := 1, maxRep := 8, seedTable := 0 }

/-- At the first interval boundary, with a target range on die 1. -/
def hotState : State :=
  let s := placed (mapped []) 1 0
  let s := withPlace s fun p => { p with
    policy := some policy, targets := [{ die := 1, weights := false, vf := 0, base := 0x200000, len := 262144, used := [] }] }
  { s with time := 1000000 }

/-- The same with two replicas and loads at the cold limit. -/
def coldState : State :=
  let s := placed (mapped []) 1 1
  let s := withPlace s fun p => { p with policy := some { policy with hot := 1000, cold := 400 } }
  { s with time := 1000000 }

/-- A copy of a line into another page, so many bytes of it made. -/
def copying (made : Nat) : Copying :=
  { expert := 0, idx := 2, die := 0, weights := false, vf := 0, src := 0x100000, dst := 0x140000, len := 64, at_ := made }

/-- The load of expert 0 over all dies. -/
def loadNow (s : State) : Nat := ((List.range 8).map fun d => ((aget (s.tableOf d).cur 0).getD 0).toNat).sum

theorem witness_policy :
    (hotState.engineRuns = true ∧ hotState.time.toNat / 1000000 > hotState.place.interval ∧ hotState.host.power = .run ∧ 0 < hotState.latest.experts
      ∧ loadNow hotState ≥ policy.hot ∧ hotState.latest.active 0 = [(0, replica 0 1)] ∧ hotState.place.copying = [] ∧ hotState.freeIndex 0 = some 1
      ∧ (match ((counted hotState).idleDies policy.idle).find? (fun d => !(hotState.latest.serving 0).any (fun q => q.2.die == d)
            && !hotState.place.copying.any (fun c => c.expert == 0 && c.die == d)
            && !hotState.place.passed.any fun q => q.1 == 0 && q.2.1 == d) with
        | some d => (takeTarget d (policy.kindFor false) 0 262144 hotState.place.targets).isSome
        | none => false) = true)
    ∧ (coldState.engineRuns = true ∧ coldState.latest.active 0 = [(0, replica 0 1), (1, replica 1 1)] ∧ loadNow coldState = 800) := by
  decide +kernel

/-- Only expert 0 has replicas. -/
theorem witness_one_expert (y : Nat) (h : y ≠ 0) : hotState.latest.active y = [] := by
  have e : hotState.latest.entries = [(0, replica 0 1), (1, replica 1 0)] := by decide +kernel
  simp only [Bank.active, e, aget, List.filterMap_eq_nil_iff, List.mem_range]
  intro r hr
  rw [if_neg (by omega), if_neg (by omega)]

theorem witness_replica_copy :
    (let s := withPlace (world []) fun p => { p with copying := [copying 0] }
     let src := pieces (seenBy s 0) .load (64 / 2 ^ 18 + 2) 0x100000 64
     let dst := pieces (seenBy s 0) .store (64 / 2 ^ 18 + 2) 0x140000 64
     s.engineRuns = true ∧ s.place.copying.find? (fun c => decide (c.at_ < c.len)) = some (copying 0) ∧ s.cells.wf = true
     ∧ RangeOf s 0 .load 0x100000 64 src ∧ RangeOf s 0 .store 0x140000 64 dst ∧ s.targetBad dst ≠ some 0x15
     ∧ (firstChunk (dropSpans 0 src) (dropSpans 0 dst)).map (fun p => (p.1.pa, p.1.len, p.2.pa, p.2.len)) = some (0x100000, 64, 0x140000, 64)
     ∧ s.firstPoison 0x100000 64 = none ∧ DieReady s (homeOf 0x100000) 0
     ∧ s.windowShut 0 (64 / 64 + 2) = []
     ∧ ({ s with img := { s.img with poison := [16384] } }.firstPoison 0x100000 64).isSome = true)
    ∧ (let s := withPlace (world []) fun p => { p with copying := [copying 64] }
       let dst := pieces (seenBy s 0) .store (64 / 2 ^ 18 + 2) 0x140000 64
       s.place.copying = [copying 64] ∧ (copying 64).at_ ≥ (copying 64).len ∧ s.img.settling = [] ∧ s.targetBad dst = none
       ∧ RangeOf s 0 .store 0x140000 64 dst) :=
  ⟨⟨by decide +kernel, by decide +kernel, by decide +kernel, rangeOf_of (by decide +kernel), rangeOf_of (by decide +kernel), by decide +kernel, by decide +kernel,
    by decide +kernel, ready_of (by decide +kernel), by decide +kernel, by decide +kernel⟩, by decide +kernel, by decide +kernel, by decide +kernel, by decide +kernel,
    rangeOf_of (by decide +kernel)⟩

theorem publicationReady : ∀ d < 8,
    readyHere { withPlace (placed (runs []) 1 2) (fun p => { p with draining := [(1, 0)] }) with time := 200000 } 0 d = true := by decide +kernel

/-- A version that waits for publication, one under way, and a draining replica. -/
theorem witness_publication :
    (let s := withPlace (runs []) fun p => { p with pending := [(0, replica 0 1)] }
     s.engineRuns = true ∧ s.place.publishing = none ∧ s.place.pending ≠ [])
    ∧ (let s (n : Nat) := withPlace (placed (runs []) 1 2) fun p => { p with publishing := some (n, Bank.empty) }
       (∀ n ≤ 15, (s n).alive ((n + 1) % 8) = true)
       ∧ DieReady (s 0) 0 1 ∧ DieReady (s 15) 0 0
       ∧ ({ s 0 with fab := { (s 0).fab with dies := (s 0).fab.dies.setIfInBounds 1 { (s 0).die 1 with alive := false } } }).alive 1 = false)
    ∧ (let s := withPlace (placed (runs []) 1 2) fun p => { p with draining := [(1, 0)] }
       let s : State := { s with time := 200000 }
       aget s.place.draining (8 * 0 + 1) = some 0 ∧ s.time.toNat ≥ 0 + 200000 ∧ s.place.publishing = none
       ∧ s.windowShut 0 ((List.range 8).filter s.alive).length = [] ∧ ∀ d < 8, DieReady s 0 d) := by
  exact ⟨by decide +kernel, ⟨by decide +kernel, ready_of (by decide +kernel), ready_of (by decide +kernel), by decide +kernel⟩, by decide +kernel, by decide +kernel,
    by decide +kernel, by decide +kernel, fun d hd => ready_of (publicationReady d hd)⟩

/-- A tail store of one slot of lane 0; its token is of expert 0 and carries a routing word, or the slot holds no token. -/
def tokenState (s0 s1 word token : Nat) : State :=
  let s := withPlace (runs []) fun p => { p with
    tables := Vector.ofFn fun d => { table s0 s1 with inbox := some (d.val * 2 ^ 45 + 0x800000) },
    tails := [{ die := 0, src := 0, off := 0, bytes := toBytes 8 1, done := 0, writer := none, num := none, post := none }] }
  s.placeBytes (0x800000 + 4096) (toBytes 8 (word + token * 2 ^ 48))

theorem witness_tokens :
    let at_ := 0x800000 + 4096
    let there := 2 ^ 45 + 0x800000
    let s := tokenState 0 1 256 1
    let w : TailStore := { die := 0, src := 0, off := 0, bytes := toBytes 8 1, done := 0, writer := none, num := none, post := none }
    (∀ p ∈ [(1, 1), (2, 1), (1, 0), (0, 0), (0, 1)], ∀ v ∈ [256, 384], ∀ k ∈ [0, 1],
      let s := tokenState p.1 p.2 v k
      s.nextTail = some w ∧ (s.tableOf w.die).inbox = some 0x800000 ∧ s.cells.wf = true ∧ s.firstPoison 0x800000 8 = none
      ∧ (coveredSlots (BitVec.ofNat 64 (ofBytes (s.liveBytes 0x800000 8 false))) (BitVec.ofNat 64 (ofBytes (w.onto (s.liveBytes 0x800000 8 false))))).drop w.done
        = [0])
    ∧ (tokenState 1 1 256 0).slotCase 0 at_ = .skip ∧ (tokenState 1 1 256 1).slotCase 0 at_ = .serve false
    ∧ (tokenState 2 1 256 1).slotCase 0 at_ = .serve true ∧ (tokenState 1 0 384 1).slotCase 0 at_ = .rewrite 256
    ∧ (tokenState 0 0 256 1).slotCase 0 at_ = .noReplica 384 ∧ s.slotCase 0 at_ = .redirect 265 1 there
    ∧ isHostMem 0x800000 = true ∧ isHostMem at_ = true ∧ s.tailAt at_ = none ∧ s.laneTail 1 0 there = 0 ∧ s.liveVal (there + 512) 8 = 0
    ∧ isHostMem (there + 4096) = true ∧ (there + 4096) % 256 = 0 ∧ (∀ k < 32, s.tailAt (there + 4096 + 8 * k) = none) ∧ s.windowShut 0 3 = []
    ∧ (0 : Word).toNat < 512 := by decide +kernel

theorem witness_token_dies : DieReady (tokenState 0 1 256 1) 0 0 ∧ DieReady (tokenState 0 1 256 1) 0 1 :=
  ⟨ready_of (by decide +kernel), ready_of (by decide +kernel)⟩

/-- Two dies with packets between them. -/
def packet (op : PacketOp) (stamp : Clock) (tag : Option Nat) : Packet :=
  { op := op, pa := 2 ^ 45 + 0x40000, stamp := stamp, gen := 0, seq := 0, num := some 1, hart := 0, tag := tag, ww := false }

def channel (src dst : Nat) (reqs : List Packet) : Channel :=
  { src := src, dst := dst, reqs := reqs, held := 0, next := BitVec.ofNat 12 reqs.length, got := 0, answers := 0, retry := reqs, resps := [],
    marks := [{ w := 1, echo := 0, gen := 0 }], probes := 1, replays := List.replicate 31 0, retrains := 3, retraining := false }

def fabricState (cs : List Channel) : State := { runs [] with fab := { Fabric.reset with chans := cs, tag := 8 } }

/-- The page of the packets holds poison. -/
def poisoned (s : State) : State := withImg s fun i => { i with poison := [(2 ^ 45 + 0x40000) / 64] }

theorem witness_packets :
    (∀ op ∈ [PacketOp.store [1, 2] true, .load 8 true, .atomic 0 8 1 0 false],
      let p := packet op Clock.zero (some 7)
      let s := fabricState [channel 0 1 [p]]
      (s.chan 0 1).reqs = p :: [] ∧ s.alive 0 = true ∧ s.alive 1 = true ∧ (s.chan 0 1).retraining = false
      ∧ ¬ ((s.chan 0 1).held = 0 ∧ (s.chan 0 1).accepted p.seq = true) ∧ s.staleGen 1 p.gen = false
      ∧ s.uncovered 1 p.stamp (fun i => i == 0) = [] ∧ s.cells.wf = true ∧ (∀ i < 8, isHostMem (p.pa + i) = true)
      ∧ (∀ k ∈ cutWords p.pa [1, 2], s.tailAt (8 * k.1) = none) ∧ p.pa % 64 + 8 ≤ 64
      ∧ s.tailAt (p.pa / 8 * 8) = none ∧ s.firstPoison p.pa 8 = none ∧ ((poisoned s).firstPoison p.pa 8).isSome = true ∧ p.pa % 8 = 0)
    ∧ (let p := packet (.load 8 true) (clkPut Clock.zero 2 1) (some 7)
       let s := fabricState [channel 0 1 [p]]
       s.uncovered 1 p.stamp (fun i => i == 0) = 2 :: [])
    ∧ (let p := packet (.load 8 true) (clkPut Clock.zero 1 1) (some 7)
       let s := fabricState [channel 0 1 [p]]
       s.uncovered 1 p.stamp (fun i => i == 0) = 1 :: [])
    ∧ (let p := packet (.load 8 true) Clock.zero (some 7)
       let s := fabricState [{ channel 0 1 [p] with got := 1 }]
       (s.chan 0 1).held = 0 ∧ (s.chan 0 1).accepted p.seq = true)
    ∧ (let p := { packet (.load 8 true) Clock.zero (some 7) with gen := 7 }
       let s := fabricState [channel 0 1 [p]]
       ¬ ((s.chan 0 1).held = 0 ∧ (s.chan 0 1).accepted p.seq = true) ∧ s.staleGen 1 p.gen = true)
    ∧ (let s := fabricState [channel 0 1 []]
       (s.chan 0 1).probes > 0 ∧ (s.chan 0 1).marks = { w := 1, echo := 0, gen := 0 } :: []) := by decide +kernel

/-- A hart that waits for a response, which has come with a value or with an error. -/
def remote : Remote := { tag := 7, d := 3, n := 4, signed := true, va := 0x40000, pa := 2 ^ 45 + 0x40000, load := true }

def response (v : Option Word) (gen : BitVec 4) : Response :=
  { gen := gen, seq := 0, hart := 0, tag := 7, value := v, poison := true, clk := Clock.zero }

def responseState (v : Option Word) (gen : BitVec 4) : State :=
  let s := fabricState [{ channel 1 0 [] with resps := [response v gen] }]
  { s with hart := { s.hart with wait := .response remote } }

theorem witness_responses :
    (∀ v, (responseState v 0).hartOf 0 = some (responseState v 0).hart ∧ (responseState v 0).hart.wait = .response remote)
    ∧ (responseState none 0).alive 0 = true ∧ (responseState none 0).hart.sr.tvec ≠ 0
    ∧ ((responseState (some 5) 0).chan 1 0).resps = response (some 5) 0 :: [] ∧ (responseState (some 5) 0).staleGen 0 0 = false
    ∧ ((responseState none 0).chan 1 0).resps = response none 0 :: [] ∧ (responseState none 0).staleGen 0 0 = false
    ∧ (responseState none 7).staleGen 0 7 = true :=
  ⟨fun _ => ⟨hart_one (by exact rfl), by exact rfl⟩, by decide +kernel⟩

/-- A page of die 1 behind the last entry of the page table. -/
theorem witness_remote_accesses :
    let s := world [(1, 0x4C0000)]
    let va := at_ s 1 0
    Turn s ∧ va.toNat % 8 = 0 ∧ s.hart.id.did < 8 ∧ Open s 0 1 1
    ∧ (∀ k ∈ [Kind.load, .store, .atomic], accessOf s va 8 k = .ok (acc s va 8 k) ∧ (acc s va 8 k).leaf.home = 1)
    ∧ s.hart.early = [] ∧ s.windowShut s.hart.id.did 1 = [] ∧ s.scFlying = none ∧ s.inFlight s.hart.id.did (clkAt s.hart.sr.vclk s.hart.id.did) = none := by
  unfold Open
  exact ⟨⟨by decide +kernel, by decide +kernel⟩, by decide +kernel⟩

/-- The fabric with die 7 removed. -/
def withoutDie : State :=
  { runs [] with fab := { Fabric.reset with dies := Fabric.reset.dies.setIfInBounds 7 { (runs []).die 7 with alive := false } } }

theorem witness_links_and_dies :
    (let s := fabricState [channel 0 1 []]
     (((s.chan 0 1).replays.filter fun t => decide (s.time.toNat < t + 1000000)) ++ [s.time.toNat]).length ≥ 32 ∧ (s.chan 0 1).retraining = false ∧ s.alive 0 = true ∧ s.alive 1 = true ∧ s.alive 7 = true
     ∧ s.host.power ≠ .off ∧ s.host.power ≠ .failed)
    ∧ (let c := { channel 0 1 [] with replays := List.replicate 32 0 }
       (fabricState [c]).fab.chans.find? (fun c => decide (c.replays.length ≥ 32) && !c.retraining) = some c)
    ∧ ((fabricState [{ channel 0 1 [] with retraining := true }]).chan 0 1).retraining = true
    ∧ (let c := { channel 0 1 [] with retrains := 4 }
       let s := fabricState [c]
       s.fab.chans.find? (fun c => decide (c.retrains ≥ 4) && s.alive c.src && s.alive c.dst
        && !s.fab.failing.any fun p => p.1 == max c.src c.dst) = some c ∧ max c.src c.dst ≠ 0)
    ∧ (let s := { runs [] with fab := { Fabric.reset with failing := [(7, 1)] } }
       s.fab.failing = (7, 1) :: [] ∧ s.alive 7 = true)
    ∧ (withoutDie.alive 7 = false ∧ withoutDie.host.power ≠ .failed) := by decide +kernel

/-- A host that has learned of a write of die 2 which no other die has covered. -/
def hostAhead : State := withHost (mapped []) fun p => { p with clk := clkPut Clock.zero 2 1 }

theorem witness_host_accesses :
    (let s := mapped []
     s.hostServed = true ∧ hostRange 0x4003F 1 = true ∧ hostRange 0x40040 64 = true ∧ hostRange (2 ^ 48 - 64) 64 = true
     ∧ isHostMem 0x40040 = true ∧ s.alive (homeOf 0x40040) = true ∧ s.firstPoison 0x40040 64 = none ∧ isHostMem (2 ^ 48 - 64) = false
     ∧ s.uncovered (homeOf 0x40040) s.host.clk (fun _ => false) = []
     ∧ s.uncovered (homeOf 0x40040) (clkMerge s.host.clk s.fab.sc) (fun _ => false) = [] ∧ s.scFlying = none
     ∧ s.img.hostOrder = [] ∧ s.img.cache = [] ∧ (∀ k < 8, s.tailAt (0x40040 + 8 * k) = none)
     ∧ s.cells.wf = true ∧ s.firstPoison 0x40040 8 = none ∧ hostRange 0x40040 8 = true ∧ (9 : BitVec 5).toNat ≤ 9)
    ∧ ((withImg (mapped []) fun i => { i with poison := [0x40040 / 64] }).firstPoison 0x40040 64).isSome = true
    ∧ hostAhead.uncovered (homeOf 0x40040) hostAhead.host.clk (fun _ => false) ≠ [] := by decide +kernel

/-- A die with 1,048,576 lines at the host and another line. -/
theorem witness_directory_full :
    let s := withImg (mapped []) fun i => { i with hostOrder := List.replicate 1048576 16384 }
    ¬ (0x40040 / 64 ∈ s.img.hostOrder ∨ (s.img.hostOrder.filter fun a => homeOf (64 * a) == homeOf 0x40040).length < 1048576) := by
  have h : (homeOf (64 * 16384) == homeOf 0x40040) = true := by decide
  simp only [withImg, List.mem_replicate, List.filter_replicate, h, if_true, List.length_replicate]
  omega

/-- A monitor whose sample can raise an alarm. -/
def monitored (ctl thresh : Word) : State :=
  withHost (mapped []) fun p => { p with monitors := [(7 * 64 + 63, { Monitor.reset with ctl := ctl, thresh := thresh, aen := true })] }

theorem witness_registers :
    (let s := mapped []
     s.alive 7 = true ∧ s.host.power = .run ∧ s.host.linkUp = true ∧ 0x4000 + 256 * 63 + 0x30 < 0x8010 ∧ s.host.shoot.getLsbD 0 = false
     ∧ (∀ n ∈ [0, 63], (s.host.vfs.toList.getD n { en := false, root := 0, tkey := 0 }).root
        + (s.host.vfs.toList.getD n { en := false, root := 0, tkey := 0 }).tkey < 2 ^ 63)
     ∧ (s.queueOf (4096 * 7 + 4095)).busy = [] ∧ s.vfEnabled 0 = true ∧ s.hasKey 0 = true ∧ s.hasKey 63 = false)
    ∧ (let s := withHost (mapped []) fun p => { p with shoot := 1 }
       s.host.shoot.getLsbD 0 = true ∧ s.fab.chans = [] ∧ s.bank.reqs = [] ∧ s.place.tails = [] ∧ s.bank.bred = [] ∧ s.bank.xmerge = [])
    ∧ (let s := withHost (mapped []) fun p => { p with linkUp := false }
       s.host.linkUp = false ∧ s.host.power = .run)
    ∧ (let s := gangState (poolState []) (gang 1) launch
       s.vfEnabled 0 = true ∧ s.disp.launches.find? (fun l => l.id == (gang 1).launch) = some launch ∧ recVf launch.record = 0
       ∧ (gang 1).phase = .run)
    ∧ (let m := ((aget (monitored 0x8000000000000008 5).host.monitors (7 * 64 + 63)).getD .reset)
       m.ctl.getLsbD 63 = true ∧ bits m.ctl.toNat 7 0 = 8 ∧ m.aen = true ∧ m.fired = false ∧ 6 > m.thresh.toNat ∧ ¬ 5 > m.thresh.toNat) := by
  decide +kernel

/-- A command at the head of the ring. -/
def ring (s : State) (op a b c : Nat) (busy : Option (List Nat)) : State :=
  (withHost s fun p => { p with hcbase := 0x10000000, jbase := 0x20000000, hctail := 1, hcBusy := busy }).placeBytes 0x10000000
    (toBytes 8 op ++ toBytes 8 a ++ toBytes 8 b ++ toBytes 8 c)

def command (op a b c : Nat) : HostCmd := { op := op, vf := 0, a := a, b := b, c := c, clean := true }

/-- Every command with operands within its limits; one that no rule lists. -/
theorem witness_commands :
    ∀ p ∈ [(1, 0x100000, 64, 0), (2, 0x13FFC0, 128, 0), (3, 0x100, 0, 0), (4, 0, 0x100000, 64), (0x10, 8191, 0x180000, 2 ^ 32 * 262144),
        (0x11, 7, 0, 0), (0x12, 15, 0x5000000000, 262144), (0x13, 7, 7 * 2 ^ 45 + 0x800000, 0), (0x20, 0, 0, 0), (0x21, 0, 0, 0), (0x30, 0, 0, 0)],
      let s := ring (runs []) p.1 p.2.1 p.2.2.1 p.2.2.2 none
      let c := command p.1 p.2.1 p.2.2.1 p.2.2.2
      s.hostCmd = some c ∧ s.host.power = .run ∧ s.host.hcBusy = none ∧ s.hostCmdListed c = true := by decide +kernel

/-- A settle of a mapped page, of a page of no function, beyond the addresses, and one that runs. -/
theorem witness_settle_commands :
    (let s := ring (world []) 1 0x100000 64 0 none
     s.physicalCause 0 0x100000 64 = none ∧ s.physicalCause 0 0x6000000000 64 = some 0x04 ∧ s.physicalCause 0 (2 ^ 64 - 1) 2 = some 0x05)
    ∧ (let s := ring (world []) 1 0x100000 64 0 (some [4])
       s.host.hcBusy = some [4] ∧ ∀ g ∈ s.img.settling, g.frame ∉ [4]) := by decide +kernel

/-- A copy of a line, as its command starts and after a part of it. -/
theorem witness_copy_command :
    ∀ b ∈ [none, some [0]],
      let s := ring (runs []) 4 0 0x100000 128 b
      s.host.copied = 0 ∧ s.host.linkUp = true ∧ s.cells.wf = true ∧ (∀ d < 8, (s.tableOf d).inbox = none)
      ∧ (∀ i < 64, isHostMem (0x100000 + 0 + i) = true ∧ s.alive (homeOf (0x100000 + 0 + i)) = true ∧ homeOf (0x100000 + 0 + i) = 0)
      ∧ readyHere s 0 0 = true ∧ s.windowShut 0 (64 / 64 + 2) = [] := by decide +kernel

theorem witness_command_limits :
    (let s := ring (runs []) 0x10 8191 0x180000 (2 ^ 32 * 262144) none
     s.freeIndex 8191 = some 0 ∧ s.place.tails = [] ∧ s.gangNamed (command 0x20 0 0 0) = none ∧ s.place.pending = [] ∧ s.place.publishing = none
     ∧ s.bank.bred = [] ∧ s.place.copying = [])
    ∧ (let full : Bank := { version := 1, experts := 1, seedTable := 0, entries := (List.range 8).map fun r => (r, replica 0 1) }
       (withPlace (runs []) fun p => { p with tables := Vector.replicate 8 { DieTable.reset with version := 1, bank1 := full } }).freeIndex 0 = none)
    ∧ (let s := placed (runs []) 1 0
       s.latest.entries.filter (fun e => e.2.die == 0 && e.2.state == 1) ≠ [])
    ∧ (∀ d < 8, let b := d * 2 ^ 45 + 0x800000
       b % 4096 = 0 ∧ isHbm b = true ∧ isHbm (b + 4096 + 1048576 - 1) = true ∧ homeOf b = d ∧ homeOf (b + 4096 + 1048576 - 1) = d)
    ∧ (let s := ring (runs []) 0x31 0 0 0 none
       s.hostCmd = some (command 0x31 0 0 0) ∧ s.hostCmdListed (command 0x31 0 0 0) = false)
    ∧ (∀ w ∈ [GangPhase.saved 0, .saved 1, .ready, .run, .stopping 1], let g := { gang 1 with phase := w }
       let s := ring (gangState (runs []) g launch) 0x21 0 0 0 none
       s.gangNamed (command 0x21 0 0 0) = some g ∧ s.hart.phase = .run) := by decide +kernel

/-- The range of a definition. -/
theorem witness_define_expert : RangeOf (ring (world []) 0x10 0 0x100000 (2 ^ 32 * 262144) none) 0 .load 0x100000 262144
    (pieces (seenBy (ring (world []) 0x10 0 0x100000 (2 ^ 32 * 262144) none) 0) .load (262144 / 2 ^ 18 + 2) 0x100000 262144) :=
  rangeOf_of (by decide +kernel)

/-- An address of the page at 1 MiB walks as the page does. -/
theorem walk_page (s : State) (vf va : Nat) (h1 : 0x100000 ≤ va) (h2 : va < 0x100000 + 0x40000) : s.walk vf va = s.walk vf 0x100000 := by
  have b (hi lo : Nat) (h : lo = 18 ∨ lo = 30 ∨ lo = 42) : bits va hi lo = bits 0x100000 hi lo := by
    have e : va / 2 ^ lo = 0x100000 / 2 ^ lo := by rcases h with rfl | rfl | rfl <;> omega
    simp only [bits, e]
  simp only [State.walk, State.walkFrom, b 53 42 (by simp), b 41 30 (by simp), b 29 18 (by simp), show ¬ va ≥ 2 ^ 54 by omega, show ¬ 0x100000 ≥ 2 ^ 54 by omega]

/-- A pinned target range of HBM4. -/
theorem witness_target_range (va : Nat) (h1 : 0x100000 ≤ va) (h2 : va < 0x100000 + 0x40000) :
    let s := ring (world []) 0x12 0 0x100000 262144 none
    Fresh s 0 va ∧ ∃ l, s.walk 0 va = .leaf l ∧ l.pin = true ∧ l.home = 0 % 8
      ∧ if bitAt 0 3 then regionOf (l.pa va) = .weights else isHbm (l.pa va) = true := by
  have h : (let s := ring (world []) 0x12 0 0x100000 262144 none
      let l := (found s 0x100000 1 .load).leaf
      s.img.tlb = [] ∧ s.walk 0 0x100000 = .leaf l ∧ l.pin = true ∧ l.home = 0 % 8 ∧ bitAt 0 3 = false ∧ l.base = 0x100000 ∧ l.size = 0x40000) := by
    decide +kernel
  obtain ⟨k1, k2, k3, k4, k5, k6, k7⟩ := h
  refine ⟨fun old ho => absurd ho (by simp [tlb_none k1]), _, (walk_page _ 0 va h1 h2).trans k2, k3, k4, ?_⟩
  have e : (found (ring (world []) 0x12 0 0x100000 262144 none) 0x100000 1 .load).leaf.pa va % 2 ^ 45 < 0x800000000
      ∧ (found (ring (world []) 0x12 0 0x100000 262144 none) 0x100000 1 .load).leaf.pa va < 2 ^ 48 := by
    simp only [Leaf.pa, k6, k7]
    omega
  simp only [k5, isHbm, regionOf]
  rw [if_neg (by simp), if_neg (by omega), if_pos e.1]
  rfl

/-- The command 0x03 with a block of two sources, read from the own die. -/
def ringRed : State :=
  (((ring (world []) 3 0x100 0 0 none).placeBytes 0x40100 (toBytes 8 (4 * 2 ^ 32 + 2 * 2 ^ 16) ++ toBytes 8 0x100000 ++ toBytes 8 0 ++ toBytes 8 0
    ++ toBytes 8 0x200)).placeBytes 0x40200 (toBytes 8 0x140000 ++ toBytes 8 0x180000))

theorem ringBlock_of {s : State} {va : Word} {n : Nat} (h : blockHere (seenBy s 0) n va n = true) (d : (seenBy s 0).hart.id.did = 0) (r : DieReady s 0 0) :
    RingBlock s 0 va n (blockValue (seenBy s 0) va n) := by
  obtain ⟨a, bs, hb, hv⟩ := block_of h
  exact ⟨a, bs, hv, fun i hi => ⟨(hb i hi).page, by rw [(hb i hi).own, d]; exact r, (hb i hi).room, (hb i hi).val⟩⟩

theorem witness_ring_reductions :
    let s := ringRed
    let here := seenBy s 0
    let v := blockValue here 0x100 8
    let b := RedBlock.ofBits v
    let tv := blockValue here b.table b.count
    let entry (i : Nat) : Word := BitVec.ofNat 64 (tv / 2 ^ (64 * i) % 2 ^ 64)
    let list (k : Kind) (va : Word) := (pieces here k (16 / 2 ^ 18 + 2) va.toNat 16).map fun p => (p.pa, p.len)
    RingBlock s 0 0x100 8 v ∧ b.ok = true ∧ RingBlock s 0 b.table b.count tv ∧ max 1 b.n * redWidth b.fmt = 16 ∧ b.count = 2
    ∧ Pinned here .store b.dst 16 (list .store b.dst) ∧ FlagIs here b.flag none
    ∧ (∀ i < 2, (entry i).toNat % redWidth b.fmt = 0 ∧ Pinned here .load (entry i) 16 (list .load (entry i)) ∧ ∀ p ∈ list .load (entry i), homeOf p.1 = 0)
    ∧ (∀ p ∈ list .store b.dst, homeOf p.1 = 0) ∧ DieReady s 0 0 := by
  have h : (let s := ringRed
      let here := seenBy s 0
      let v := blockValue here 0x100 8
      let b := RedBlock.ofBits v
      let tv := blockValue here b.table b.count
      let entry (i : Nat) : Word := BitVec.ofNat 64 (tv / 2 ^ (64 * i) % 2 ^ 64)
      let list (k : Kind) (va : Word) := (pieces here k (16 / 2 ^ 18 + 2) va.toNat 16).map fun p => (p.pa, p.len)
      (blockHere here 8 0x100 8 = true ∧ blockHere here b.count b.table b.count = true ∧ readyHere s 0 0 = true ∧ here.hart.id.did = 0)
      ∧ (b.ok = true ∧ max 1 b.n * redWidth b.fmt = 16 ∧ b.count = 2 ∧ b.flag = 0)
      ∧ piecesHere here .store true (16 / 2 ^ 18 + 2) b.dst.toNat 16 = true
      ∧ (∀ i < 2, (entry i).toNat % redWidth b.fmt = 0 ∧ piecesHere here .load true (16 / 2 ^ 18 + 2) (entry i).toNat 16 = true
        ∧ ∀ p ∈ list .load (entry i), homeOf p.1 = 0)
      ∧ ∀ p ∈ list .store b.dst, homeOf p.1 = 0) := by decide +kernel
  obtain ⟨⟨h1, h2, h3, h4⟩, ⟨h5, h6, h7, h8⟩, h9, hk, ha⟩ := h
  exact ⟨ringBlock_of h1 h4 (ready_of h3), h5, ringBlock_of h2 h4 (ready_of h3), h6, h7, pinned_of h9, .inl ⟨h8, rfl⟩,
    fun i hi => ⟨(hk i hi).1, pinned_of (hk i hi).2.1, (hk i hi).2.2⟩, ha, ready_of h3⟩

/-- The block of the command 0x03 has operands that no reduction may have. -/
def ringBad : State := (ring (world []) 3 0x100 0 0 none).placeBytes 0x40100 (toBytes 8 (2 * 2 ^ 16 + 7))

theorem witness_ring_bad_block : RingBlock ringBad 0 0x100 8 (blockValue (seenBy ringBad 0) 0x100 8)
    ∧ (RedBlock.ofBits (blockValue (seenBy ringBad 0) 0x100 8)).ok = false :=
  ⟨ringBlock_of (by decide +kernel) (by decide +kernel) (ready_of (by decide +kernel)), by decide +kernel⟩

/-- Each power state, with the pin asserted and not. -/
theorem witness_power_states :
    (∀ w ∈ [Power.run, .entering, .shuttered, .leaving, .reduced, .leavingReduced, .off], ∀ p ∈ [true, false],
      let s := withHost (settleState false) fun h => { h with power := w, pin := p }
      s.host.power = w ∧ s.host.pin = p ∧ s.host.exiting = false ∧ s.cells.wf = true ∧ s.disp.gangs = [] ∧ s.disp.queues = []
      ∧ findLine s.img.cache 16384 = some line ∧ line.dirty.getLsbD 0 = true ∧ s.retiredLine 16384 = false)
    ∧ (withHost (runs []) fun h => { h with power := .entering }).quiet = true
    ∧ ({ withHost (runs []) (fun h => { h with power := .shuttered }) with time := 1000000 }).pinReleased = true := by decide +kernel

/-- A gang that an entry into Shuttered saved comes back. -/
theorem witness_shuttered_exit :
    let s := gangState (poolState []) { gang 1 with phase := .saved 2, harts := [], areas := [(0, 0x100000)] } { launch with admitted := 1 }
    let back := s.disp.gangs.map fun g => if g.phase == .saved 2 then { g with phase := .ready } else g
    State.nextBack { s with disp := { s.disp with gangs := back }, hart := .free 0 0 } ≠ none := by decide +kernel

/-! ### The machine as a whole -/

/-- The invariant holds of a state that runs, and its step answers a state. -/
theorem witness_invariant : Inv State.reset ∧ Goes (step ((runs []).withFetchWord 32 0)) := by
  refine ⟨⟨by decide, by decide, fun h hh => ?_⟩, ?_⟩
  · simp only [State.harts, State.reset, List.mem_cons, List.not_mem_nil, or_false] at hh
    subst hh
    decide
  · have h : (match step ((runs []).withFetchWord 32 0) with | .next _ => true | _ => false) = true := by decide +kernel
    revert h
    cases step ((runs []).withFetchWord 32 0) <;> intro h
    · exact ⟨_, rfl⟩
    · cases h
    · cases h

/-- A step of a scalar word, of a vector word, of an event, of a choice of the device and of none; a module without power. -/
theorem witness_turns :
    (let s := State.reset.withFetchWord 32 0x04E84C01
     s.plan.turn = .scalar ∧ (let m := s.applyAll s.plan.pre
       m.hart.pc.toNat % 4 = 0 ∧ accessOf m m.hart.pc 4 .fetch = .ok (acc m m.hart.pc 4 .fetch)
       ∧ reachedHere m m.hart.sr.vclk (acc m m.hart.pc 4 .fetch).leaf.home = true ∧ roomHere m ((acc m m.hart.pc 4 .fetch).pa / 64) 1 = true
       ∧ seen m (acc m m.hart.pc 4 .fetch) 4 = some (toBytes 4 0x04E84C01) ∧ m.hart.ibuf = [] ∧ m.hart.sr.tvec = 0))
    ∧ (let s := { State.reset.withFetchWord 32 0 with hart := { (State.reset.withFetchWord 32 0).hart with
          sr := { (State.reset.withFetchWord 32 0).hart.sr with tvec := 0x1000 } } }
       s.plan.turn = .scalar ∧ (let m := s.applyAll s.plan.pre
       m.hart.sr.tvec ≠ 0 ∧ seen m (acc m m.hart.pc 4 .fetch) 4 = some (toBytes 4 0) ∧ decodeScalar 0 = .error .reservedMajor))
    ∧ (let s := { mapped [] with hart := { (mapped []).hart with pc := 0x40000 } }
       s.plan.turn = .scalar ∧ (let m := s.applyAll s.plan.pre
       m.hart.sr.tvec ≠ 0 ∧ m.hart.pc.toNat % 4 = 0 ∧ accessOf m m.hart.pc 4 .fetch = .error 0x04))
    ∧ (let s := State.reset.withFetchWord 64 0x230886282D000000
       s.plan.turn = .word ∧ (s.applyAll s.plan.pre).hart.ctx.isSome = true)
    ∧ ({ State.reset with work := [.shutteredEntry] }).plan.turn = .event .shutteredEntry
    ∧ ({ State.reset with inputs := [.corrected 0] }).plan.turn = .own (.corrected 0)
    ∧ State.reset.plan.turn = .rest
    ∧ (withHost State.reset fun p => { p with power := .off }).host.power = .off
    ∧ (withHost State.reset fun p => { p with power := .off }).inputs = [] := by decide +kernel

/-- A well-formed instruction of each stream with its word. -/
theorem witness_encodings :
    (Instr.addi 6 1 0xFFF0).wf = true ∧ encodeScalar (.addi 6 1 0xFFF0) = some 0x08C1FFF0
    ∧ (Instr.vmnot { sp with form := 0, vd := 3, va := 4 }).wf = true ∧ (encodeVector (.vmnot { sp with form := 0, vd := 3, va := 4 })).isSome = true := by
  decide +kernel

/-! ### Choices of the device -/

/-- A check of the state after a move. -/
def afterMove (m : Move) (s : State) (p : State → Bool) : Bool :=
  match execMove m s with
  | .next t => p t
  | _ => false

/-- R209, R340: a die does not grow younger, a corrected error is counted, and an error in a clean line of memory poisons the array word. -/
theorem test_device_moves :
    afterMove (.climate 7 { band := 2, age := 3 }) (runs []) (fun t => decide (t.climateOf (8192 * 7) = { band := 2, age := 3 })) = true
    ∧ afterMove (.climate 7 { band := 0, age := 1 }) (withBank (runs []) fun b => { b with climate := b.climate.setIfInBounds 7 { band := 2, age := 3 } })
        (fun t => (t.climateOf (8192 * 7)).age == 3) = true
    ∧ afterMove (.corrected 7) (runs []) (fun t => (errsOf t 7).cecnt == 1 && (errsOf t 0).cecnt == 0) = true
    ∧ afterMove (.lineError 16384) (runs []) (fun t => t.livePoison 16384 && !(errsOf t 0).uev) = true := by decide +kernel

/-- R217, R218: a read made ahead of its load is kept with the physical address and the bytes that it found. -/
theorem test_read_ahead :
    afterMove (.early 0 0x100 8 false) (mapped [(1, 0x100)]) (fun t =>
      match t.hart.early with
      | [e] => e.pa == 0x40100 && e.bytes == toBytes 8 0 && !e.vec
      | _ => false) = true := by decide +kernel

/-- R284, R289: the PF reads HCHEAD through its BAR, and a virtual function reads 0 there. -/
theorem test_host_register_reads :
    let s := withHost (mapped []) fun p => { p with hchead := 5 }
    afterMove (.barRead 64 0x40030 8) s (fun t => t.host.hostData == toBytes 8 5) = true
    ∧ afterMove (.barRead 3 0x40030 8) s (fun t => t.host.hostData == toBytes 8 0) = true := by decide +kernel

end Sys2Proof.Tests
end

section
/-!
PROOFS. Parts of a meaning that always go on: what holds of the state in which such a part ends, put together from its primitive steps.
-/

open Sys2Proof Sys2Proof.Machine Sys2Proof.Claim

namespace Sys2Proof.Machine

variable {s0 : State} {α β : Type}

/-- A part of a meaning, run from r, answers a value and ends in a state of which p holds. -/
def Ends (m : M s0 α) (r : Run s0) (p : State → Prop) : Prop := ∃ a r', m r = .ok (a, r') ∧ p r'.s

/-- From wherever it runs, a part of a meaning answers a value and relates the states before and after it. -/
def Does (m : M s0 α) (R : State → State → Prop) : Prop := ∀ r : Run s0, Ends m r (R r.s)

theorem Ends.mono {m : M s0 α} {r : Run s0} {p q : State → Prop} (h : Ends m r p) (hpq : ∀ t, p t → q t) : Ends m r q := by
  obtain ⟨a, r', hm, hp⟩ := h
  exact ⟨a, r', hm, hpq _ hp⟩

theorem Ends.bind {m : M s0 α} {f : α → M s0 β} {r : Run s0} {p q : State → Prop} (h : Ends m r p)
    (hf : ∀ a r', p r'.s → Ends (f a) r' q) : Ends (m >>= f) r q := by
  obtain ⟨a, r', hm, hp⟩ := h
  obtain ⟨b, r'', hb, hq⟩ := hf a r' hp
  exact ⟨b, r'', by rw [M.bind_run, hm]; exact hb, hq⟩

/-- A part whose end is known goes on from there. -/
theorem Ends.next {m : M s0 α} {f : α → M s0 β} {r r' : Run s0} {a : α} {p : State → Prop} (hm : m r = .ok (a, r'))
    (hf : Ends (f a) r' p) : Ends (m >>= f) r p := by
  obtain ⟨b, r'', hb, hp⟩ := hf
  exact ⟨b, r'', by rw [M.bind_run, hm]; exact hb, hp⟩

theorem Ends.pure {a : α} {r : Run s0} {p : State → Prop} (h : p r.s) : Ends (Pure.pure a : M s0 α) r p := ⟨a, r, rfl, h⟩

theorem Ends.emit {u : Upd} {r : Run s0} {p : State → Prop} (h : p (u.apply r.s)) : Ends (M.emit u) r p := ⟨⟨⟩, r.emit u, rfl, h⟩

theorem M.push_ends {i : Instr} {r : Run s0} {p : State → Prop} (h : p { r.s with work := r.s.work ++ [i] }) : Ends (M.push i) r p :=
  ⟨⟨⟩, _, rfl, h⟩

theorem M.modDisp_ends {f : Dispatch → Dispatch} {r : Run s0} {p : State → Prop} (h : p (Upd.apply r.s (.disp (f r.s.disp)))) :
    Ends (M.modDisp f) r p := ⟨⟨⟩, _, rfl, h⟩

theorem M.modPlace_ends {f : Placement → Placement} {r : Run s0} {p : State → Prop} (h : p (Upd.apply r.s (.placement (f r.s.place)))) :
    Ends (M.modPlace f) r p := ⟨⟨⟩, _, rfl, h⟩

/-- Reading the state goes on with the state as it stands. -/
theorem Ends.read {f : State → M s0 β} {r : Run s0} {p : State → Prop} (h : Ends (f r.s) r p) : Ends (M.st >>= f) r p := h

theorem Ends.ite {c : Prop} [Decidable c] {m n : M s0 α} {r : Run s0} {p : State → Prop} (hm : c → Ends m r p)
    (hn : ¬ c → Ends n r p) : Ends (if c then m else n) r p := by
  split
  · exact hm ‹_›
  · exact hn ‹_›

theorem Does.mono {m : M s0 α} {R S : State → State → Prop} (h : Does m R) (hRS : ∀ s t, R s t → S s t) : Does m S :=
  fun r => (h r).mono (hRS r.s)

/-- A relation that a part of a meaning may keep step by step. -/
structure Frame (R : State → State → Prop) : Prop where
  refl : ∀ s, R s s
  trans : ∀ {a b c}, R a b → R b c → R a c

theorem Does.bind {R : State → State → Prop} (hR : Frame R) {m : M s0 α} {f : α → M s0 β} (hm : Does m R) (hf : ∀ a, Does (f a) R) :
    Does (m >>= f) R :=
  fun r => (hm r).bind fun a r' h => (hf a r').mono fun _ => hR.trans h

theorem Does.pure {R : State → State → Prop} (hR : Frame R) (a : α) : Does (Pure.pure a : M s0 α) R := fun _ => .pure (hR.refl _)

theorem Does.ite {c : Prop} [Decidable c] {m n : M s0 α} {R : State → State → Prop} (hm : c → Does m R) (hn : ¬ c → Does n R) :
    Does (if c then m else n) R := fun r => .ite (fun h => hm h r) fun h => hn h r

/-- A loop keeps what each of its rounds keeps. -/
theorem Does.each {R : State → State → Prop} (hR : Frame R) {f : β → M s0 PUnit} {bs : List β} (h : ∀ b ∈ bs, Does (f b) R) :
    Does (M.each bs f) R := by
  induction bs with
  | nil => exact fun r => .pure (hR.refl _)
  | cons b bs ih => exact Does.bind hR (h b (by simp)) fun _ => ih fun c hc => h c (by simp [hc])

/-- An instruction leads where its meaning ends. -/
theorem Ends.leads {i : Instr} {s : State} {m : M s PUnit} {p : State → Prop} (he : exec i s = exec1 s m) (h : Ends m (Run.start s) p) :
    Leads s i p := by
  obtain ⟨a, r, hm, hp⟩ := h
  exact ⟨r.s, by rw [he, exec1_eq, hm]; rfl, hp⟩

/-! ## Harts and their slots -/

theorem findHart_putHart (l : List Hart) (h : Hart) (k : Nat) : findHart (putHart l h) k = if h.key = k then some h else findHart l k := by
  induction l with
  | nil => simp [putHart, findHart]
  | cons g gs ih =>
    by_cases hg : g.key = h.key
    · simp only [putHart, if_pos hg, findHart]
      split <;> simp_all
    · simp only [putHart, if_neg hg, findHart, ih]
      split <;> split <;> simp_all

/-- A hart put into its slot is found there, and every other slot is as before. -/
theorem hartOf_place (s : State) (h : Hart) (k : Nat) :
    (Upd.apply s (.place h)).hartOf k = if h.key = k then some { h with x := zeroFirst h.x } else s.hartOf k := by
  have key : ({ h with x := zeroFirst h.x } : Hart).key = h.key := rfl
  by_cases hs : s.hart.key = h.key
  · simp only [Upd.apply, if_pos hs, State.hartOf, key]
    split <;> simp_all
  · simp only [Upd.apply, if_neg hs, State.hartOf, findHart_putHart, key]
    split <;> split <;> simp_all

theorem findHart_key {l : List Hart} {k : Nat} {h : Hart} (hf : findHart l k = some h) : h ∈ l ∧ h.key = k := by
  induction l with
  | nil => simp [findHart] at hf
  | cons g gs ih =>
    simp only [findHart] at hf
    split at hf
    · simp_all
    · simp [ih hf]

theorem hartOf_key {s : State} {k : Nat} {h : Hart} (hf : s.hartOf k = some h) : h ∈ s.harts ∧ h.key = k := by
  simp only [State.hartOf] at hf
  split at hf
  · simp_all [State.harts]
  · simp [State.harts, findHart_key hf]

/-! ## Dies and channels -/

theorem alive_eq (s : State) (d : Nat) : s.alive d = (s.die d).alive := by
  simp only [State.alive, State.die, List.getD_eq_getElem?_getD]
  cases s.fab.dies.toList[d]? <;> rfl

@[simp] theorem M.modDie_run (d : Nat) (f : DieFab → DieFab) (r : Run s0) :
    M.modDie d f r = .ok (⟨⟩, r.emit (.fab { r.s.fab with dies := r.s.fab.dies.setIfInBounds d (f (r.s.die d)) })) := rfl

theorem M.modDie_ends {d : Nat} {f : DieFab → DieFab} {r : Run s0} {p : State → Prop}
    (h : p (Upd.apply r.s (.fab { r.s.fab with dies := r.s.fab.dies.setIfInBounds d (f (r.s.die d)) }))) : Ends (M.modDie d f) r p :=
  ⟨⟨⟩, _, rfl, h⟩

/-- The die d of a vector of dies. -/
def dieOf (v : Vector DieFab 8) (d : Nat) : DieFab :=
  v.toList.getD d { alive := false, clock := Clock.zero, covered := Clock.zero, echo := Clock.zero, gen := 0 }

theorem die_eq (s : State) (d : Nat) : s.die d = dieOf s.fab.dies d := rfl

theorem dieOf_set (v : Vector DieFab 8) (d e : Nat) (x : DieFab) :
    dieOf (v.setIfInBounds d x) e = if d = e ∧ d < 8 then x else dieOf v e := by
  simp only [dieOf, List.getD_eq_getElem?_getD, Vector.toList_setIfInBounds, List.getElem?_set, Vector.length_toList]
  by_cases h : d = e
  · subst h
    by_cases h8 : d < 8 <;> simp [h8]
  · simp [h]

theorem dieOf_map (v : Vector DieFab 8) (f : DieFab → DieFab) (e : Nat) :
    dieOf (v.map f) e = if e < 8 then f (dieOf v e) else dieOf v e := by
  simp only [dieOf, List.getD_eq_getElem?_getD, Vector.toList_map, List.getElem?_map]
  by_cases h : e < 8
  · simp [h]
  · simp [h]

/-- The channel from i to j in a list of channels. -/
def chanOf (l : List Channel) (i j : Nat) : Channel := (l.find? fun c => c.src == i && c.dst == j).getD (.empty i j)

theorem chan_eq (s : State) (i j : Nat) : s.chan i j = chanOf s.fab.chans i j := rfl

/-- A fabric in which the channel from one die to another has changed. -/
def Fabric.withChan (b : Fabric) (src dst : Nat) (f : Channel → Channel) : Fabric :=
  if b.chans.any fun c => c.src == src && c.dst == dst then
    { b with chans := b.chans.map fun c => if c.src = src && c.dst = dst then f c else c }
  else { b with chans := b.chans ++ [f (.empty src dst)] }

@[simp] theorem M.modChan_run (src dst : Nat) (f : Channel → Channel) (r : Run s0) :
    M.modChan src dst f r = .ok (⟨⟩, r.emit (.fab (r.s.fab.withChan src dst f))) := rfl

theorem M.modChan_ends {src dst : Nat} {f : Channel → Channel} {r : Run s0} {p : State → Prop}
    (h : p (Upd.apply r.s (.fab (r.s.fab.withChan src dst f)))) : Ends (M.modChan src dst f) r p := ⟨⟨⟩, _, rfl, h⟩

@[simp] theorem Fabric.withChan_dies (b : Fabric) (src dst : Nat) (f : Channel → Channel) : (b.withChan src dst f).dies = b.dies := by
  simp only [Fabric.withChan]; split <;> rfl

/-- A channel has the same ends after a change of what it carries. -/
def KeepsEnds (f : Channel → Channel) : Prop := ∀ c, (f c).src = c.src ∧ (f c).dst = c.dst

theorem chanOf_map (l : List Channel) (f : Channel → Channel) (i j : Nat) (hf : KeepsEnds f) (h0 : f (.empty i j) = .empty i j) :
    chanOf (l.map f) i j = f (chanOf l i j) := by
  have same : ((fun c : Channel => c.src == i && c.dst == j) ∘ f) = fun c => c.src == i && c.dst == j :=
    funext fun c => by simp [hf c]
  simp only [chanOf, List.find?_map, same]
  cases l.find? fun c => c.src == i && c.dst == j <;> simp [h0]

/-- What every channel is after a change of one of them. -/
theorem chanOf_withChan (b : Fabric) (src dst i j : Nat) (f : Channel → Channel) (hf : KeepsEnds f) :
    chanOf (b.withChan src dst f).chans i j = if i = src ∧ j = dst then f (chanOf b.chans i j) else chanOf b.chans i j := by
  have fe : (f (.empty src dst)).src = src ∧ (f (.empty src dst)).dst = dst := hf _
  simp only [Fabric.withChan]
  split
  · rename_i hany
    have same : ((fun c : Channel => c.src == i && c.dst == j) ∘ fun c => if c.src = src && c.dst = dst then f c else c)
        = fun c => c.src == i && c.dst == j := funext fun c => by
      simp only [Function.comp]
      split
      · simp [hf c]
      · rfl
    simp only [chanOf, List.find?_map, same]
    cases hfind : b.chans.find? fun c => c.src == i && c.dst == j with
    | none =>
      have : ¬ (i = src ∧ j = dst) := by
        rintro ⟨rfl, rfl⟩
        rw [List.find?_eq_none] at hfind
        simp only [List.any_eq_true] at hany
        obtain ⟨c, hc, hp⟩ := hany
        exact hfind c hc hp
      simp [this]
    | some c =>
      have ends := List.find?_some hfind
      simp only [Bool.and_eq_true, beq_iff_eq] at ends
      simp [ends]
  · rename_i hany
    have none_ : b.chans.find? (fun c => c.src == src && c.dst == dst) = none := by
      simpa using hany
    simp only [chanOf, List.find?_append]
    by_cases h : i = src ∧ j = dst
    · obtain ⟨rfl, rfl⟩ := h
      simp [none_, fe]
    · have : ¬ (src = i ∧ dst = j) := fun ⟨a, b⟩ => h ⟨a.symm, b.symm⟩
      simp [h, fe, this]

end Sys2Proof.Machine
end

section
/-!
PROOFS. What a journal entry leaves as it is. An entry is a write of CD0 through the live image (R282), with a number of CD0: the caches, the
early reads of the harts, and CD0's own clock follow it, and nothing else.
-/

open Sys2Proof Sys2Proof.Machine Sys2Proof.Claim

namespace Sys2Proof.Machine

variable {s0 : State}

/-- Nothing has changed but bytes of memory, what the caches hold of their lines, the number of the journal's next entry, what is on its way
as responses, CD0's own clock, and what harts note of writes. -/
structure Noted (s t : State) : Prop where
  die : ∀ d, ∃ c v, t.die d = { s.die d with clock := c, covered := v }
  others : ∀ d, d ≠ 0 → t.die d = s.die d
  chan : ∀ i j, ∃ l n, t.chan i j = { s.chan i j with resps := l, answers := n }
  sent : ∀ k ∈ t.fab.chans, k.reqs = [] ∨ ∃ c ∈ s.fab.chans, c.src = k.src ∧ c.dst = k.dst ∧ c.reqs = k.reqs
  counts : t.counts = s.counts
  bank : t.bank = s.bank
  place : t.place = s.place
  disp : ∃ n, t.disp = { s.disp with jhead := n }
  errs : t.host.errs = s.host.errs
  lines : ∀ l ∈ t.img.cache, ∃ k ∈ s.img.cache, k.addr = l.addr
  harts : ∀ key h, t.hartOf key = some h → ∃ g, s.hartOf key = some g ∧ g.id = h.id ∧ g.phase = h.phase

/-- A change that leaves the harts and the fabric and adds no line to the caches. -/
theorem Noted.of_same {s t : State} (hart : t.hart = s.hart) (others : t.others = s.others) (fab : t.fab = s.fab)
    (counts : t.counts = s.counts) (bank : t.bank = s.bank) (place : t.place = s.place) (disp : ∃ n, t.disp = { s.disp with jhead := n })
    (errs : t.host.errs = s.host.errs) (lines : ∀ l ∈ t.img.cache, ∃ k ∈ s.img.cache, k.addr = l.addr) : Noted s t where
  die d := ⟨(s.die d).clock, (s.die d).covered, by rw [die_eq, fab]; rfl⟩
  others d _ := by rw [die_eq, fab]; rfl
  chan i j := ⟨(s.chan i j).resps, (s.chan i j).answers, by rw [chan_eq, fab]; rfl⟩
  sent k hk := .inr ⟨k, fab ▸ hk, rfl, rfl, rfl⟩
  counts := counts
  bank := bank
  place := place
  disp := disp
  errs := errs
  lines := lines
  harts key h hh := ⟨h, by rw [← hh, State.hartOf, State.hartOf, hart, others], rfl, rfl⟩

/-- The same for a change of the fabric alone. -/
theorem Noted.of_fab {s t : State} (hart : t.hart = s.hart) (others : t.others = s.others) (counts : t.counts = s.counts)
    (bank : t.bank = s.bank) (place : t.place = s.place) (disp : t.disp = s.disp) (errs : t.host.errs = s.host.errs)
    (cache : t.img.cache = s.img.cache)
    (die : ∀ d, ∃ c v, t.die d = { s.die d with clock := c, covered := v }) (rest : ∀ d, d ≠ 0 → t.die d = s.die d)
    (chan : ∀ i j, ∃ l n, t.chan i j = { s.chan i j with resps := l, answers := n })
    (sent : ∀ k ∈ t.fab.chans, k.reqs = [] ∨ ∃ c ∈ s.fab.chans, c.src = k.src ∧ c.dst = k.dst ∧ c.reqs = k.reqs) : Noted s t where
  die := die
  others := rest
  chan := chan
  sent := sent
  counts := counts
  bank := bank
  place := place
  disp := ⟨s.disp.jhead, disp⟩
  errs := errs
  lines l hl := ⟨l, cache ▸ hl, rfl⟩
  harts key h hh := ⟨h, by rw [← hh, State.hartOf, State.hartOf, hart, others], rfl, rfl⟩

theorem noted_frame : Frame Noted where
  refl s := .of_same rfl rfl rfl rfl rfl rfl ⟨_, rfl⟩ rfl fun l hl => ⟨l, hl, rfl⟩
  trans {a b c} h k := {
    die := fun d => by
      obtain ⟨x, y, hx⟩ := h.die d
      obtain ⟨z, w, hz⟩ := k.die d
      exact ⟨z, w, by rw [hz, hx]⟩
    others := fun d hd => (k.others d hd).trans (h.others d hd)
    chan := fun i j => by
      obtain ⟨x, y, hx⟩ := h.chan i j
      obtain ⟨z, w, hz⟩ := k.chan i j
      exact ⟨z, w, by rw [hz, hx]⟩
    sent := fun x hx => (k.sent x hx).elim .inl fun ⟨y, hy, h1, h2, h3⟩ =>
      (h.sent y hy).elim (fun h0 => .inl (h3 ▸ h0)) fun ⟨z, hz, k1, k2, k3⟩ => .inr ⟨z, hz, k1.trans h1, k2.trans h2, k3.trans h3⟩
    counts := k.counts.trans h.counts
    bank := k.bank.trans h.bank
    place := k.place.trans h.place
    disp := by
      obtain ⟨x, hx⟩ := h.disp
      obtain ⟨y, hy⟩ := k.disp
      exact ⟨y, by rw [hy, hx]⟩
    errs := k.errs.trans h.errs
    lines := fun l hl => by
      obtain ⟨x, hx, e⟩ := k.lines l hl
      obtain ⟨y, hy, e'⟩ := h.lines x hx
      exact ⟨y, hy, e'.trans e⟩
    harts := fun key x hx => by
      obtain ⟨y, hy, e1, e2⟩ := k.harts key x hx
      obtain ⟨z, hz, e3, e4⟩ := h.harts key y hy
      exact ⟨z, hz, e3.trans e1, e4.trans e2⟩ }

theorem Noted.alive {s t : State} (h : Noted s t) (d : Nat) : t.alive d = s.alive d := by
  obtain ⟨c, v, hd⟩ := h.die d
  rw [alive_eq, alive_eq, hd]

theorem Noted.gen {s t : State} (h : Noted s t) (d : Nat) : (t.die d).gen = (s.die d).gen := by
  obtain ⟨c, v, hd⟩ := h.die d
  rw [hd]

theorem Noted.echo {s t : State} (h : Noted s t) (d : Nat) : (t.die d).echo = (s.die d).echo := by
  obtain ⟨c, v, hd⟩ := h.die d
  rw [hd]

theorem Noted.reqs {s t : State} (h : Noted s t) (i j : Nat) : (t.chan i j).reqs = (s.chan i j).reqs := by
  obtain ⟨l, n, hc⟩ := h.chan i j
  rw [hc]

/-! ## Primitive updates -/

theorem noted_work (s : State) (l : List Instr) : Noted s (Upd.apply s (.work l)) :=
  .of_same rfl rfl rfl rfl rfl rfl ⟨_, rfl⟩ rfl fun l hl => ⟨l, hl, rfl⟩

theorem noted_cells (s : State) (pa : Nat) (bs : List Byte) : Noted s (Upd.apply s (.cells pa bs)) :=
  .of_same rfl rfl rfl rfl rfl rfl ⟨_, rfl⟩ rfl fun l hl => ⟨l, hl, rfl⟩

theorem noted_port (s : State) (p : HostPort) (h : p.errs = s.host.errs) : Noted s (Upd.apply s (.port p)) :=
  .of_same rfl rfl rfl rfl rfl rfl ⟨_, rfl⟩ h fun l hl => ⟨l, hl, rfl⟩

theorem noted_jhead (s : State) (n : Word) : Noted s (Upd.apply s (.disp { s.disp with jhead := n })) :=
  .of_same rfl rfl rfl rfl rfl rfl ⟨_, rfl⟩ rfl fun l hl => ⟨l, hl, rfl⟩

theorem noted_img (s : State) (m : Images) (h : ∀ l ∈ m.cache, ∃ k ∈ s.img.cache, k.addr = l.addr) : Noted s (Upd.apply s (.img m)) :=
  .of_same rfl rfl rfl rfl rfl rfl ⟨_, rfl⟩ rfl h

/-- A hart that keeps its identity and its phase is put back into its slot. -/
theorem noted_place (s : State) (g h : Hart) (hg : s.hartOf h.key = some g) (hid : h.id = g.id) (hphase : h.phase = g.phase) :
    Noted s (Upd.apply s (.place h)) := by
  refine { noted_frame.refl s with
    die := fun d => ⟨(s.die d).clock, (s.die d).covered, by rw [die_eq, place_fab]; rfl⟩
    others := fun d _ => by rw [die_eq, place_fab]; rfl
    chan := fun i j => ⟨(s.chan i j).resps, (s.chan i j).answers, by rw [chan_eq, place_fab]; rfl⟩
    sent := fun k hk => .inr ⟨k, place_fab s h ▸ hk, rfl, rfl, rfl⟩
    counts := place_counts s h, bank := place_bank s h, place := place_place s h
    disp := ⟨s.disp.jhead, place_disp s h⟩
    errs := by rw [place_host], lines := fun l hl => ⟨l, by rwa [place_img] at hl, rfl⟩
    harts := fun key k hk => ?_ }
  rw [hartOf_place] at hk
  split at hk
  · rename_i e
    cases hk
    exact ⟨g, e ▸ hg, hid.symm, hphase.symm⟩
  · exact ⟨k, hk, rfl, rfl⟩

/-! ## Parts of an entry -/

theorem M.push_notes (i : Instr) : Does (M.push i : M s0 PUnit) Noted := fun _ => .emit (noted_work _ _)

theorem M.modOther_notes (key : Nat) (f : Hart → Hart) (hf : ∀ h, (f h).id = h.id ∧ (f h).phase = h.phase) :
    Does (M.modOther key f : M s0 PUnit) Noted := fun r => by
  refine .read ?_
  cases hk : r.s.hartOf key with
  | none => exact .pure (noted_frame.refl _)
  | some h =>
    have same : (f h).key = key := by rw [← (hartOf_key hk).2, Hart.key, Hart.key, (hf h).1]
    exact .emit (noted_place _ h _ (same ▸ hk) (hf h).1 (hf h).2)

theorem M.noteHit_notes (pa n : Nat) (num : Option (Nat × BitVec 16)) : Does (M.noteHit pa n num : M s0 PUnit) Noted :=
  fun r => .read (Does.each noted_frame (fun h _ => M.modOther_notes _ _ (by exact fun _ => ⟨rfl, rfl⟩)) r)

theorem M.noteWatch_notes (la : Nat) (writer : Option Nat) : Does (M.noteWatch la writer : M s0 PUnit) Noted := fun r => by
  refine .read (.bind (Does.each noted_frame (fun h _ => M.modOther_notes _ _ (by exact fun _ => ⟨rfl, rfl⟩)) r) fun _ r' h => ?_)
  refine .read (Ends.mono (Does.each noted_frame (fun g _ => ?_) r') fun _ => noted_frame.trans h)
  refine Does.bind noted_frame (M.modOther_notes _ _ (by exact fun _ => ⟨rfl, rfl⟩)) fun _ => ?_
  exact Does.ite (fun _ => M.push_notes _) fun _ => Does.pure noted_frame _

theorem M.setArrayPoison_notes (la : Nat) (p : Bool) : Does (M.setArrayPoison la p : M s0 PUnit) Noted :=
  fun _ => .emit (noted_img _ _ fun l hl => ⟨l, hl, rfl⟩)

/-- Lines that change only in what they hold have the same addresses. -/
theorem lines_map {c : List Line} {f : Line → Line} (hf : ∀ l, (f l).addr = l.addr) : ∀ l ∈ c.map f, ∃ k ∈ c, k.addr = l.addr := by
  intro l hl
  obtain ⟨k, hk, rfl⟩ := List.mem_map.mp hl
  exact ⟨k, hk, (hf k).symm⟩

theorem lines_del (c : List Line) (la : Nat) : ∀ l ∈ delLine c la, ∃ k ∈ c, k.addr = l.addr :=
  fun l hl => ⟨l, (List.mem_filter.mp hl).1, rfl⟩

theorem mem_putLine {c : List Line} {x l : Line} (h : l ∈ putLine c x) : l = x ∨ l ∈ c := by
  induction c with
  | nil => simpa [putLine] using h
  | cons k ks ih =>
    simp only [putLine] at h
    split at h
    · simpa using h
    · split at h
      · rcases List.mem_cons.mp h with h | h <;> simp [h]
      · rcases List.mem_cons.mp h with h | h
        · simp [h]
        · rcases ih h with h | h <;> simp [h]

theorem findLine_some {c : List Line} {la : Nat} {l : Line} (h : findLine c la = some l) : l ∈ c ∧ l.addr = la := by
  induction c with
  | nil => simp [findLine] at h
  | cons k ks ih =>
    simp only [findLine] at h
    split at h
    · simp_all
    · simp [ih h]

/-- A line of a cache put back keeps the addresses of the cache. -/
theorem lines_put {c : List Line} {la : Nat} {l x : Line} (hfind : findLine c la = some l) (hx : x.addr = l.addr) :
    ∀ k ∈ putLine c x, ∃ j ∈ c, j.addr = k.addr := by
  intro k hk
  rcases mem_putLine hk with rfl | hk
  · exact ⟨l, (findLine_some hfind).1, hx.symm⟩
  · exact ⟨k, hk, rfl⟩

theorem M.toSlice_notes (la : Nat) : Does (M.toSlice la : M s0 PUnit) Noted := fun r => by
  refine .read (.ite (fun _ => .emit (noted_img _ _ (lines_map fun l => by split <;> rfl))) fun _ => ?_)
  cases findLine r.s.img.cache la with
  | none => exact .pure (noted_frame.refl _)
  | some l =>
    refine Does.bind noted_frame (Does.each noted_frame fun i _ => fun _ => .emit (noted_cells _ _ _)) (fun _ => ?_) r
    have drop : Does (do M.modImg fun m => { m with cache := delLine m.cache la }; M.noteHit (64 * la) 64 none : M s0 PUnit) Noted :=
      Does.bind noted_frame (fun _ => .emit (noted_img _ _ (lines_del _ _))) fun _ => M.noteHit_notes _ _ _
    refine Does.ite (fun _ => ?_) fun _ => Does.ite (fun _ => ?_) fun _ => ?_
    · exact Does.bind noted_frame (M.setArrayPoison_notes _ _) fun _ => drop
    · exact Does.bind noted_frame (M.setArrayPoison_notes _ _) fun _ => drop
    · exact drop

theorem M.recallLine_notes (la : Nat) (p : Path) : Does (M.recallLine la p : M s0 PUnit) Noted := fun r => by
  refine .read ?_
  cases findLine r.s.img.cache la with
  | none => exact .pure (noted_frame.refl _)
  | some l =>
    dsimp only
    cases l.level with
    | l1 c => exact .ite (fun _ => .pure (noted_frame.refl _)) fun _ => M.toSlice_notes la r
    | l2 => exact .pure (noted_frame.refl _)
    | l3 => exact .ite (fun _ => M.toSlice_notes la r) fun _ => .pure (noted_frame.refl _)
    | host => exact .pure (noted_frame.refl _)

/-- A line is opened without a new copy where the access allocates none. -/
theorem M.openLine_notes (la : Nat) (p : Path) (ww : Bool) (hp : p.alloc = none) : Does (M.openLine la p ww : M s0 PUnit) Noted := by
  unfold M.openLine
  rw [hp]
  exact Does.bind noted_frame (M.recallLine_notes la p) fun _ => Does.pure noted_frame _

theorem M.storeLine_notes (la off : Nat) (bs : List Byte) (p : Path) (ww : Bool) (hp : p.alloc = none) :
    Does (M.storeLine la off bs p ww : M s0 PUnit) Noted := fun r => by
  refine .bind (M.openLine_notes la p ww hp r) fun _ r' h => ?_
  refine Ends.mono (p := Noted r'.s) (.read ?_) fun _ => noted_frame.trans h
  cases hfind : findLine r'.s.img.cache la with
  | none =>
    refine Does.bind noted_frame (fun _ => .emit (noted_cells _ _ _)) (fun _ => ?_) r'
    exact Does.ite (fun _ => M.setArrayPoison_notes _ _) fun _ => Does.pure noted_frame _
  | some l =>
    refine .read (.bind (.emit (noted_img _ _ (lines_put hfind ?_))) fun _ r'' h' => .emit (noted_frame.trans h' (noted_port _ _ rfl)))
    dsimp only
    split <;> split <;> rfl

theorem M.storeLive_notes (pa : Nat) (bs : List Byte) (p : Path) (ww : Bool) (w : Option Nat) (num : Option (Nat × BitVec 16))
    (hp : p.alloc = none) : Does (M.storeLive pa bs p ww w num : M s0 PUnit) Noted :=
  Does.each noted_frame fun _ _ => Does.bind noted_frame (M.storeLine_notes _ _ _ p ww hp) fun _ =>
    Does.bind noted_frame (M.noteHit_notes _ _ _) fun _ => M.noteWatch_notes _ _

/-! ## Numbers, entries and answers -/

/-- CD0 takes a number: only its own clock and coverage move. -/
theorem noted_die0 (s : State) (c v : Clock) : Noted s (Upd.apply s (.fab { s.fab with
    dies := s.fab.dies.setIfInBounds 0 { s.die 0 with clock := c, covered := v } })) := by
  refine .of_fab rfl rfl rfl rfl rfl rfl rfl rfl (fun d => ?_) (fun d hd => ?_) (fun i j => ⟨_, _, rfl⟩)
    fun k hk => .inr ⟨k, hk, rfl, rfl, rfl⟩
  · simp only [die_eq, fab_fab, dieOf_set]
    split
    · rename_i h
      exact ⟨c, v, by rw [h.1]⟩
    · exact ⟨_, _, rfl⟩
  · simp only [die_eq, fab_fab, dieOf_set]
    exact if_neg fun h => hd h.1.symm

theorem M.number_notes : Does (M.number 0 : M s0 (BitVec 16)) Noted := fun r => by
  refine .read (Does.bind noted_frame (fun _ => M.modDie_ends (noted_die0 _ _ _)) (fun _ => ?_) r)
  refine Does.bind noted_frame (fun _ => .emit (.of_fab rfl rfl rfl rfl rfl rfl rfl rfl (fun d => ⟨_, _, rfl⟩) (fun _ _ => rfl)
    (fun i j => ⟨_, _, rfl⟩) fun k hk => .inr ⟨k, hk, rfl, rfl, rfl⟩)) fun _ => ?_
  refine Does.bind noted_frame (fun _ => .emit (noted_port _ _ rfl)) fun _ r' => .read ?_
  exact Does.bind noted_frame (Does.each noted_frame fun h _ => M.modOther_notes _ _ (by exact fun _ => ⟨rfl, rfl⟩))
    (fun _ => Does.pure noted_frame _) r'

theorem M.forgetEarly_notes : Does (M.forgetEarly : M s0 PUnit) Noted := fun r =>
  .read (Does.each noted_frame (fun h _ => M.modOther_notes _ _ (by exact fun _ => ⟨rfl, rfl⟩)) r)

/-- A journal entry raises the number of the next entry by one and changes nothing of what `Noted` names. -/
def Entered (s t : State) : Prop := Noted s t ∧ Journaled s t

theorem M.journal_enters (kind die vf queue record status payload : Nat) :
    Does (M.journal kind die vf queue record status payload : M s0 PUnit) Entered := fun r => by
  refine .read (.bind (M.number_notes r) fun k r1 h1 => ?_)
  have next (r2 : Run s0) (h2 : Noted r.s r2.s) :
      Ends (do M.modDisp fun d => { d with jhead := r.s.disp.jhead + 1 }
               M.modPort fun p => if p.linkUp then { p with msix := p.msix ++ [vf, 64] } else p : M s0 PUnit) r2 (Entered r.s) := by
    refine .bind (.emit (p := Entered r.s) ⟨noted_frame.trans h2 (noted_jhead _ _), rfl⟩) fun _ r3 h3 => .emit ⟨?_, h3.2⟩
    refine noted_frame.trans h3.1 (noted_port _ _ ?_)
    dsimp only
    split <;> rfl
  refine .ite (fun _ => ?_) fun _ => next r1 h1
  exact .bind (M.storeLive_notes _ _ _ _ _ _ rfl r1) fun _ r2 h2 => next r2 (noted_frame.trans h1 h2)

theorem M.report_enters (die vf status payload : Nat) : Does (M.report die vf status payload : M s0 PUnit) Entered :=
  M.journal_enters _ _ _ _ _ _ _

theorem M.report_notes (die vf status payload : Nat) : Does (M.report die vf status payload : M s0 PUnit) Noted :=
  (M.report_enters die vf status payload).mono fun _ _ h => h.1

/-- What is sent as a response changes no packet. -/
theorem noted_answer (s : State) (src dst : Nat) (q : Response) :
    Noted s (Upd.apply s (.fab (s.fab.withChan src dst (Channel.answer · q)))) := by
  refine .of_fab rfl rfl rfl rfl rfl rfl rfl rfl (fun d => ⟨(s.die d).clock, (s.die d).covered, ?_⟩) (fun d _ => ?_) (fun i j => ?_)
    fun k hk => ?_
  · rw [die_eq, fab_fab, Fabric.withChan_dies]; rfl
  · rw [die_eq, fab_fab, Fabric.withChan_dies]; rfl
  · rw [chan_eq, fab_fab, chanOf_withChan _ _ _ _ _ _ (by exact fun _ => ⟨rfl, rfl⟩)]
    split
    · exact ⟨_, _, rfl⟩
    · exact ⟨_, _, rfl⟩
  · simp only [fab_fab, Fabric.withChan] at hk
    split at hk
    · obtain ⟨c, hc, rfl⟩ := List.mem_map.mp hk
      refine .inr ⟨c, hc, ?_⟩
      split <;> exact ⟨rfl, rfl, rfl⟩
    · rcases List.mem_append.mp hk with hk | hk
      · exact .inr ⟨k, hk, rfl, rfl, rfl⟩
      · rw [List.mem_singleton.mp hk]
        exact .inl rfl

theorem M.errorResponse_notes (src : Nat) (h : Hart) (q : Remote) : Does (M.errorResponse src h q : M s0 PUnit) Noted :=
  fun r => .read (Does.bind noted_frame (fun _ => M.modChan_ends (noted_answer _ _ _ _)) (fun _ => M.push_notes _) r)

end Sys2Proof.Machine
end

section
/-!
PROOFS. The links of the fabric: replays, retrainings, and what marks a die for removal (R12, R356 to R358, R369).
-/

open Sys2Proof Sys2Proof.Machine Sys2Proof.Claim

namespace Sys2Proof.Proofs

/-- The state in which a die is to be removed, with the detection code of R356. -/
def marked (s : State) (die code : Nat) : State :=
  { s with fab := { s.fab with failing := s.fab.failing ++ [(die, code)] }, work := s.work ++ [.dieRemoval] }

/-- The state in which one channel has changed. -/
def withChan (s : State) (src dst : Nat) (f : Channel → Channel) : State := { s with fab := s.fab.withChan src dst f }

theorem chan_withChan (s : State) (src dst : Nat) (f : Channel → Channel) (hf : KeepsEnds f) :
    (withChan s src dst f).chan src dst = f (s.chan src dst) := by
  rw [chan_eq, withChan, chanOf_withChan _ _ _ _ _ _ hf, if_pos ⟨rfl, rfl⟩, ← chan_eq]

/-- A direction that carries flits lets an event of its channel go on. -/
theorem needLink_run {s0 : State} {r : Run s0} {src dst : Nat} (hne : src ≠ dst) (hs : src < 8) (hd : dst < 8) (has : r.s.alive src = true)
    (had : r.s.alive dst = true) (hr : (r.s.chan src dst).retraining = false) : M.needLink src dst r = .ok (⟨⟩, r) := by
  simp [M.needLink, hne, hs, hd, has, had, hr]

/-- R357: a replay sends again what has not been acknowledged, and the 32nd within a millisecond starts a retraining. -/
theorem flitCrcFail_leads (s : State) (src dst : Nat) (hne : src ≠ dst) (hs : src < 8) (hd : dst < 8) (has : s.alive src = true)
    (had : s.alive dst = true) (hr : (s.chan src dst).retraining = false) :
    let c := s.chan src dst
    let recent := (c.replays.filter fun t => decide (s.time.toNat < t + 1000000)) ++ [s.time.toNat]
    Leads s (.flitCrcFail src dst) fun t => t = { s with fab := t.fab, work := t.work } ∧ t.fab.dies = s.fab.dies
      ∧ (t.chan src dst).replays = recent ∧ (t.chan src dst).reqs = c.reqs.take c.held ++ c.retry
      ∧ (recent.length ≥ 32 → .linkRetrain ∈ t.work) := by
  intro c recent
  let f (c : Channel) : Channel := { c with replays := recent, reqs := c.reqs.take c.held ++ c.retry }
  have chan : (withChan s src dst f).chan src dst = f c := chan_withChan s src dst f fun _ => ⟨rfl, rfl⟩
  have dies : (s.fab.withChan src dst f).dies = s.fab.dies := Fabric.withChan_dies ..
  refine Ends.leads (m := do
    M.needLink src dst
    M.modChan src dst f
    if recent.length ≥ 32 then M.push .linkRetrain) rfl ?_
  refine .next (needLink_run hne hs hd has had hr) (.next (M.modChan_run ..) ?_)
  refine .ite (fun _ => M.push_ends ⟨rfl, dies, congrArg Channel.replays chan, congrArg Channel.reqs chan, fun _ => ?_⟩)
    fun h32 => .pure ⟨rfl, dies, congrArg Channel.replays chan, congrArg Channel.reqs chan, fun h => absurd h h32⟩
  simp

/-- R357: a retraining holds the traffic of its direction, and its replays are counted anew. -/
theorem linkRetrain_leads (s : State) (k : Channel)
    (hk : s.fab.chans.find? (fun c => decide (c.replays.length ≥ 32) && !c.retraining) = some k) :
    Leads s .linkRetrain fun t => t = { s with fab := t.fab } ∧ (t.chan k.src k.dst).retraining = true ∧ (t.chan k.src k.dst).replays = []
      ∧ (t.chan k.src k.dst).reqs = (s.chan k.src k.dst).reqs := by
  have chan := chan_withChan s k.src k.dst (fun c => { c with retraining := true, replays := [] }) fun _ => ⟨rfl, rfl⟩
  refine Ends.leads rfl ?_
  rw [hk]
  exact M.modChan_ends ⟨rfl, congrArg Channel.retraining chan, congrArg Channel.replays chan, (congrArg Channel.reqs chan).trans rfl⟩

/-- Only background steps have been started. -/
def Started (s t : State) : Prop := t = { s with work := t.work }

theorem started_frame : Frame Started where
  refl _ := rfl
  trans {a b c} h k := by
    rw [Started] at *
    rw [k, h]

theorem resumeChannel_starts {s0 : State} (src dst : Nat) : Does (M.resumeChannel src dst : M s0 PUnit) Started :=
  fun r => .read (Does.each started_frame (fun _ _ _ => M.push_ends rfl) r)

/-- R356, R357: a retraining that has trained the direction is reported, and the traffic goes on. -/
theorem linkRetrainEnd_trained (s : State) (src dst : Nat) (hr : (s.chan src dst).retraining = true) :
    Leads s (.linkRetrainEnd src dst true) fun t => (t.chan src dst).retraining = false ∧ (t.chan src dst).retrains = 0
      ∧ (t.chan src dst).reqs = (s.chan src dst).reqs ∧ Journaled s t := by
  have chan := chan_withChan s src dst (fun c => { c with retraining := false, retrains := 0 }) fun _ => ⟨rfl, rfl⟩
  refine Ends.leads rfl (.next ((M.need_run _ _).trans (if_pos hr)) (.next (M.modChan_run ..) ?_))
  refine .bind (M.report_enters _ _ _ _ _) fun _ r ⟨hnoted, hjournal⟩ => (resumeChannel_starts _ _ r).mono fun t ht => ?_
  obtain ⟨l, n, hchan⟩ := hnoted.chan src dst
  rw [Started] at ht
  have same : t.chan src dst = r.s.chan src dst := by rw [ht]; rfl
  have disp : t.disp = r.s.disp := by rw [ht]
  rw [same, hchan, Journaled, disp]
  exact ⟨congrArg Channel.retraining chan, congrArg Channel.retrains chan, (congrArg Channel.reqs chan).trans rfl, hjournal⟩

/-- R357: a retraining that has failed is counted, and the fourth failure in a row fails the link. -/
theorem linkRetrainEnd_failed (s : State) (src dst : Nat) (hr : (s.chan src dst).retraining = true) :
    Leads s (.linkRetrainEnd src dst false) fun t => t = { s with fab := t.fab, work := t.work }
      ∧ (t.chan src dst).retrains = (s.chan src dst).retrains + 1 ∧ (t.chan src dst).retraining = true
      ∧ ((s.chan src dst).retrains + 1 ≥ 4 → .linkFail ∈ t.work) := by
  have chan := chan_withChan s src dst (fun c => { c with retrains := c.retrains + 1 }) fun _ => ⟨rfl, rfl⟩
  have retraining := (congrArg Channel.retraining chan).trans hr
  refine Ends.leads rfl (.next ((M.need_run _ _).trans (if_pos hr)) (.next (M.modChan_run ..) ?_))
  refine .ite (fun _ => M.push_ends ⟨rfl, congrArg Channel.retrains chan, retraining, fun _ => ?_⟩)
    fun h4 => .pure ⟨rfl, congrArg Channel.retrains chan, retraining, fun h => absurd h h4⟩
  simp

/-- A die other than CD0 that is to be removed is marked with its detection code (R356, R358). -/
theorem failDie_run {s0 : State} (r : Run s0) (die code : Nat) (h0 : die ≠ 0) :
    ∃ r', M.failDie die code r = .ok (⟨⟩, r') ∧ r'.s = marked r.s die code := by
  simp only [M.failDie, if_neg h0, M.bind_run, M.modFab_run, M.push_run]
  exact ⟨_, rfl, rfl⟩

/-- An event that marks a die for removal ends in the marked state. -/
theorem exec1_failDie {s : State} {m : M s PUnit} {die code : Nat} (h0 : die ≠ 0)
    (hm : m (Run.start s) = M.failDie die code (Run.start s)) : exec1 s m = .next (marked s die code) := by
  obtain ⟨r, hr, hs⟩ := failDie_run (Run.start s) die code h0
  rw [exec1_eq, hm, hr, ended_ok, hs]
  rfl

/-- R357, R358: the higher-numbered die of a link that has failed is marked for removal. -/
theorem linkFail_exec (s : State) (k : Channel)
    (hk : s.fab.chans.find? (fun c => decide (c.retrains ≥ 4) && s.alive c.src && s.alive c.dst
      && !s.fab.failing.any fun p => p.1 == max c.src c.dst) = some k) (h0 : max k.src k.dst ≠ 0) :
    exec .linkFail s = .next (marked s (max k.src k.dst) 1) :=
  exec1_failDie h0 (by simp only [hk])

/-- R358: the higher-numbered of two dies between which no flit has passed is marked for removal. -/
theorem dieSilent_exec (s : State) (a b : Nat) (hne : a ≠ b) (ha : s.alive a = true) (hb : s.alive b = true) :
    exec (.dieSilent a b) s = .next (marked s (max a b) 2) :=
  exec1_failDie (by omega) (by simp [hne, ha, hb])

/-- R12, R358, R369: a die that reports a fatal error is marked for removal; CD0 fails the module. -/
theorem dieFatalError_exec (s : State) (die : Nat) (h : s.alive die = true) :
    exec (.dieFatalError die) s = .next (if die = 0 then { s with work := s.work ++ [.moduleFailure] } else marked s die 3) := by
  by_cases h0 : die = 0
  · subst h0
    show exec1 s _ = _
    rw [exec1_eq]
    simp [h, M.failDie, Upd.apply]
  · rw [if_neg h0]
    exact exec1_failDie h0 (by simp [h])

/-- R369: a module that fails discards its latches and signals an internal error. -/
theorem moduleFailure_exec (s : State) (hoff : s.host.power ≠ .off) (hfailed : s.host.power ≠ .failed) :
    exec .moduleFailure s = .next { s with
      disp := { s.disp with queues := s.disp.queues.map fun q => { q with latched := [] } },
      host := { s.host with aer := true, power := .failed } } := by
  show exec1 s _ = _
  rw [exec1_eq]
  simp [hoff, hfailed, Upd.apply]

end Sys2Proof.Proofs
end

section
/-!
PROOFS. What can only leave: the parts of a removal after a die has been taken out of the fabric bring nothing of it back (R359, R360).
-/

open Sys2Proof Sys2Proof.Machine Sys2Proof.Claim

namespace Sys2Proof.Machine

variable {s0 : State}

/-- Cached lines, requests of the banks, gangs and harts leave and none comes, requests on the channels stay as they are, launches keep what
has stopped them, and the fabric has the same dies in the same generation. -/
structure Fades (s t : State) : Prop where
  alive : ∀ d, t.alive d = s.alive d
  gen : ∀ d, (t.die d).gen = (s.die d).gen
  reqs : ∀ i j, (t.chan i j).reqs = (s.chan i j).reqs
  sent : ∀ k ∈ t.fab.chans, k.reqs = [] ∨ ∃ c ∈ s.fab.chans, c.src = k.src ∧ c.dst = k.dst ∧ c.reqs = k.reqs
  counts : t.counts = s.counts
  lines : ∀ l ∈ t.img.cache, ∃ k ∈ s.img.cache, k.addr = l.addr
  bankReqs : t.bank.reqs ⊆ s.bank.reqs
  bred : t.bank.bred ⊆ s.bank.bred
  xmerge : t.bank.xmerge ⊆ s.bank.xmerge
  gangs : t.disp.gangs ⊆ s.disp.gangs
  launches : ∀ l ∈ t.disp.launches, ∃ k ∈ s.disp.launches, k.id = l.id ∧ k.die = l.die ∧ (k.stopped = true → l.stopped = true)
    ∧ (k.status = 0x10 → l.status = 0x10)
  harts : ∀ key h, t.hartOf key = some h → h.phase = .free ∨ ∃ g, s.hartOf key = some g ∧ g.id = h.id ∧ g.phase = h.phase

theorem Noted.fades {s t : State} (h : Noted s t) : Fades s t := by
  obtain ⟨n, hdisp⟩ := h.disp
  have gangs : t.disp.gangs = s.disp.gangs := by rw [hdisp]
  have launches : t.disp.launches = s.disp.launches := by rw [hdisp]
  exact {
    alive := h.alive, gen := h.gen, reqs := h.reqs, sent := h.sent, counts := h.counts, lines := h.lines
    bankReqs := by rw [h.bank]; exact fun _ => id
    bred := by rw [h.bank]; exact fun _ => id
    xmerge := by rw [h.bank]; exact fun _ => id
    gangs := by rw [gangs]; exact fun _ => id
    launches := fun l hl => ⟨l, launches ▸ hl, rfl, rfl, id, id⟩
    harts := fun key k hk => .inr (h.harts key k hk) }

theorem fades_frame : Frame Fades where
  refl s := (noted_frame.refl s).fades
  trans {a b c} h k := {
    alive := fun d => (k.alive d).trans (h.alive d)
    gen := fun d => (k.gen d).trans (h.gen d)
    reqs := fun i j => (k.reqs i j).trans (h.reqs i j)
    sent := fun x hx => (k.sent x hx).elim .inl fun ⟨y, hy, h1, h2, h3⟩ =>
      (h.sent y hy).elim (fun h0 => .inl (h3 ▸ h0)) fun ⟨z, hz, k1, k2, k3⟩ => .inr ⟨z, hz, k1.trans h1, k2.trans h2, k3.trans h3⟩
    counts := k.counts.trans h.counts
    lines := fun l hl => by
      obtain ⟨x, hx, e⟩ := k.lines l hl
      obtain ⟨y, hy, e'⟩ := h.lines x hx
      exact ⟨y, hy, e'.trans e⟩
    bankReqs := fun _ hx => h.bankReqs (k.bankReqs hx)
    bred := fun _ hx => h.bred (k.bred hx)
    xmerge := fun _ hx => h.xmerge (k.xmerge hx)
    gangs := fun _ hx => h.gangs (k.gangs hx)
    launches := fun l hl => by
      obtain ⟨x, hx, e1, e2, e3, e4⟩ := k.launches l hl
      obtain ⟨y, hy, f1, f2, f3, f4⟩ := h.launches x hx
      exact ⟨y, hy, f1.trans e1, f2.trans e2, fun z => e3 (f3 z), fun z => e4 (f4 z)⟩
    harts := fun key x hx => (k.harts key x hx).elim .inl fun ⟨y, hy, e1, e2⟩ =>
      (h.harts key y hy).elim (fun h0 => .inl (e2 ▸ h0)) fun ⟨z, hz, e3, e4⟩ => .inr ⟨z, hz, e3.trans e1, e4.trans e2⟩ }

/-! ## Parts that only let things leave -/

theorem fades_placement (s : State) (p : Placement) : Fades s (Upd.apply s (.placement p)) where
  __ := fades_frame.refl s

theorem fades_disp (s : State) (d : Dispatch) (gangs : d.gangs ⊆ s.disp.gangs)
    (launches : ∀ l ∈ d.launches, ∃ k ∈ s.disp.launches, k.id = l.id ∧ k.die = l.die ∧ (k.stopped = true → l.stopped = true)
      ∧ (k.status = 0x10 → l.status = 0x10)) : Fades s (Upd.apply s (.disp d)) where
  __ := fades_frame.refl s
  gangs := gangs
  launches := launches

theorem M.modPlace_fades (f : Placement → Placement) : Does (M.modPlace f : M s0 PUnit) Fades := fun _ => .emit (fades_placement _ _)

theorem M.push_fades (i : Instr) : Does (M.push i : M s0 PUnit) Fades := (M.push_notes i).mono fun _ _ h => h.fades

theorem M.report_fades (die vf status payload : Nat) : Does (M.report die vf status payload : M s0 PUnit) Fades :=
  (M.report_notes die vf status payload).mono fun _ _ h => h.fades

/-- A change of the dispatchers that leaves gangs and launches as they are. -/
theorem M.modDisp_fades (f : Dispatch → Dispatch) (hf : ∀ d, (f d).gangs = d.gangs ∧ (f d).launches = d.launches) :
    Does (M.modDisp f : M s0 PUnit) Fades := fun r => by
  refine .emit (fades_disp _ _ ?_ ?_)
  · rw [(hf r.s.disp).1]; exact fun _ => id
  · rw [(hf r.s.disp).2]; exact fun l hl => ⟨l, hl, rfl, rfl, id, id⟩

theorem M.modQueue_fades (q : Nat) (f : Queue → Queue) : Does (M.modQueue q f : M s0 PUnit) Fades := fun r =>
  .read (M.modDisp_fades (fun d => { d with queues := (d.queues.filter fun k => k.q ≠ q) ++ [f (r.s.queueOf q)] }) (fun _ => ⟨rfl, rfl⟩) r)

theorem M.freeSlot_fades (die num : Nat) : Does (M.freeSlot die num : M s0 PUnit) Fades :=
  .ite (fun _ => .pure fades_frame _) fun _ => .ite (fun _ => M.modDisp_fades _ fun _ => ⟨rfl, rfl⟩) fun _ =>
    .bind fades_frame (M.modQueue_fades _ _) fun _ => M.modDisp_fades _ fun _ => ⟨rfl, rfl⟩

theorem M.freeTarget_fades (die vf : Nat) (base : Word) : Does (M.freeTarget die vf base : M s0 PUnit) Fades := M.modPlace_fades _

theorem M.rollback_fades (c : Copying) (reason : Nat) : Does (M.rollback c reason : M s0 PUnit) Fades :=
  fun r => .read (Does.bind fades_frame (M.modPlace_fades _) (fun _ => .bind fades_frame (M.freeTarget_fades _ _ _) fun _ =>
    M.report_fades _ _ _ _) r)

theorem M.failReplica_fades (key : Nat) (e : Replica) : Does (M.failReplica key e : M s0 PUnit) Fades :=
  .bind fades_frame (.bind fades_frame (M.modPlace_fades _) fun _ => M.push_fades _) fun _ =>
    .bind fades_frame (M.freeTarget_fades _ _ _) fun _ => M.report_fades _ _ _ _

theorem M.dropReplicas_fades (lost : Nat) : Does (M.dropReplicas lost : M s0 PUnit) Fades := fun r =>
  .read (.read (Does.bind fades_frame (.each fades_frame fun _ _ => M.rollback_fades _ _) (fun _ =>
    .bind fades_frame (M.modPlace_fades _) fun _ => .each fades_frame fun _ _ => M.failReplica_fades _ _) r))

/-! ## Launches and harts of a lost die -/

/-- 0x10 comes before every other status of a launch (R371). -/
theorem statusRank_lost (v : Nat) (h : ¬ statusRank 0x10 < statusRank v) : v = 0x10 := by
  by_contra hv
  apply h
  simp only [statusRank, if_neg hv]
  split_ifs <;> decide

/-- Launches that have been given the status of a lost die carry it, whatever they carried before (R360, R371). -/
theorem M.launchStatus_lost (ids : List Launch) (r : Run s0) :
    Ends (M.each ids fun l => M.launchStatus l.id 0x10) r fun t => Fades r.s t
      ∧ ∀ l ∈ t.disp.launches, (∃ k ∈ ids, k.id = l.id) → l.status = 0x10 := by
  induction ids generalizing r with
  | nil => exact .pure ⟨fades_frame.refl _, fun _ _ ⟨_, hk, _⟩ => absurd hk List.not_mem_nil⟩
  | cons x xs ih =>
    let f (l : Launch) : Launch := if l.id = x.id && statusRank 0x10 < statusRank l.status then { l with status := 0x10 } else l
    have kept (l : Launch) : l.id = (f l).id ∧ l.die = (f l).die ∧ (l.stopped = true → (f l).stopped = true)
        ∧ (l.status = 0x10 → (f l).status = 0x10) := by
      simp only [f]
      split
      · exact ⟨rfl, rfl, id, fun _ => rfl⟩
      · exact ⟨rfl, rfl, id, id⟩
    have given (l : Launch) (h : x.id = (f l).id) : (f l).status = 0x10 := by
      rw [← (kept l).1] at h
      simp only [f, h, decide_true, Bool.true_and, decide_eq_true_eq]
      split
      · rfl
      · exact statusRank_lost _ ‹_›
    have first : Fades r.s (Upd.apply r.s (.disp { r.s.disp with launches := r.s.disp.launches.map f })) := by
      refine fades_disp _ _ (fun _ => id) fun l hl => ?_
      obtain ⟨k, hk, rfl⟩ := List.mem_map.mp hl
      exact ⟨k, hk, kept k⟩
    refine .bind (M.modDisp_ends (p := fun t => Fades r.s t ∧ ∀ l ∈ t.disp.launches, x.id = l.id → l.status = 0x10) ⟨first, fun l hl => ?_⟩)
      fun _ r1 ⟨h1, here⟩ => (ih r1).mono fun t ⟨h2, rest⟩ => ⟨fades_frame.trans h1 h2, fun l hl hk => ?_⟩
    · obtain ⟨k, -, rfl⟩ := List.mem_map.mp hl
      exact given k
    · obtain ⟨k, hk, e⟩ := hk
      rcases List.mem_cons.mp hk with rfl | hk
      · obtain ⟨j, hj, e1, -, -, e4⟩ := h2.launches l hl
        exact e4 (here j hj (e.trans e1.symm))
      · exact rest l hl ⟨k, hk, e⟩

/-- Slots that have been emptied hold no hart any more, and every other slot is as before. -/
theorem M.emptySlots_ends (hs : List Hart) (r : Run s0) :
    Ends (M.each hs fun h => M.emit (.place (.free h.id.did h.id.hid))) r fun t => Fades r.s t ∧ t.disp = r.s.disp
      ∧ ∀ key h, t.hartOf key = some h → h.phase = .free ∨ (r.s.hartOf key = some h ∧ ∀ g ∈ hs, g.key ≠ key) := by
  induction hs generalizing r with
  | nil => exact .pure ⟨fades_frame.refl _, rfl, fun _ _ h => .inr ⟨h, fun _ hg => absurd hg List.not_mem_nil⟩⟩
  | cons x xs ih =>
    let free : Hart := .free x.id.did x.id.hid
    have slot (key : Nat) (h : Hart) (hk : (Upd.apply r.s (.place free)).hartOf key = some h) :
        h.phase = .free ∨ (r.s.hartOf key = some h ∧ x.key ≠ key) := by
      rw [hartOf_place] at hk
      split at hk
      · cases hk
        exact .inl rfl
      · exact .inr ⟨hk, ‹_›⟩
    have first : Fades r.s (Upd.apply r.s (.place free)) := by
      refine { fades_frame.refl r.s with
        alive := fun d => by rw [alive_eq, die_eq, place_fab, ← die_eq, alive_eq]
        gen := fun d => by rw [die_eq, place_fab, ← die_eq]
        reqs := fun i j => by rw [chan_eq, place_fab, ← chan_eq]
        sent := fun k hk => .inr ⟨k, place_fab r.s free ▸ hk, rfl, rfl, rfl⟩
        counts := place_counts r.s free
        lines := fun l hl => ⟨l, by rwa [place_img] at hl, rfl⟩
        bankReqs := by rw [place_bank]; exact fun _ => id
        bred := by rw [place_bank]; exact fun _ => id
        xmerge := by rw [place_bank]; exact fun _ => id
        gangs := by rw [place_disp]; exact fun _ => id
        launches := by rw [place_disp]; exact fun l hl => ⟨l, hl, rfl, rfl, id, id⟩
        harts := fun key h hk => (slot key h hk).imp_right fun ⟨hs, _⟩ => ⟨h, hs, rfl, rfl⟩ }
    refine .next (M.emit_run ..) ((ih _).mono fun t ⟨h2, hdisp, rest⟩ =>
      ⟨fades_frame.trans first h2, hdisp.trans (place_disp r.s free), fun key h hk => ?_⟩)
    rcases rest key h hk with h0 | ⟨h1, hne⟩
    · exact .inl h0
    · refine (slot key h h1).imp_right fun ⟨hs, hx⟩ => ⟨hs, fun g hg => ?_⟩
      rcases List.mem_cons.mp hg with rfl | hg
      · exact hx
      · exact hne g hg

/-- R360: no hart and no gang of a lost die is left, and its launches have stopped with status 0x10. -/
theorem M.dropHartsOf_ends (lost : Nat) (r : Run s0) : Ends (M.dropHartsOf lost) r fun t => Fades r.s t
    ∧ (∀ g ∈ t.disp.gangs, g.die ≠ lost)
    ∧ (∀ key h, t.hartOf key = some h → h.id.did = lost → h.phase = .free)
    ∧ ∀ l ∈ t.disp.launches, l.die = lost → l.stopped = true ∧ l.status = 0x10 := by
  refine .read (.bind (M.emptySlots_ends _ r) fun _ r1 ⟨h1, hdisp, slots⟩ => ?_)
  have harts (key : Nat) (h : Hart) (hk : r1.s.hartOf key = some h) (hl : h.id.did = lost) : h.phase = .free := by
    rcases slots key h hk with h0 | ⟨h0, hne⟩
    · exact h0
    · obtain ⟨mem, same⟩ := hartOf_key h0
      exact absurd same (hne h (List.mem_filter.mpr ⟨mem, by simp [hl]⟩))
  let gone (l : Launch) : Nat := (r.s.disp.gangs.filter fun g => g.die == lost && g.launch == l.id).length
  let stops (l : Launch) : Bool := l.die == lost || (l.admitted == 0 && l.dependsOn r.s lost)
  refine .bind (M.modDisp_ends (p := fun t => Fades r1.s t ∧ (∀ g ∈ t.disp.gangs, g.die ≠ lost)
    ∧ ∀ l ∈ t.disp.launches, l.die = lost → l.stopped = true ∧ ∃ k ∈ r.s.disp.launches.filter fun l => gone l ≠ 0 || stops l, k.id = l.id)
    ⟨fades_disp _ _ ?_ ?_, ?_, ?_⟩) fun _ r2 ⟨h2, gangs, stopped⟩ => ?_
  · exact fun _ hg => (List.mem_filter.mp hg).1
  · intro l hl
    obtain ⟨k, hk, rfl⟩ := List.mem_map.mp hl
    exact ⟨k, hk, rfl, rfl, fun h => by simp [h], id⟩
  · intro g hg
    simpa using (List.mem_filter.mp hg).2
  · intro l hl hdie
    obtain ⟨k, hk, rfl⟩ := List.mem_map.mp hl
    have hstops : stops k = true := by simp [stops, show k.die = lost from hdie]
    exact ⟨Bool.or_eq_true_iff.mpr (.inr hstops), k, List.mem_filter.mpr ⟨hdisp ▸ hk, by simp [hstops]⟩, rfl⟩
  · refine .bind (M.launchStatus_lost _ r2) fun _ r3 ⟨h3, status⟩ => ?_
    refine Ends.mono (p := Fades r3.s) (Does.bind fades_frame (.each fades_frame fun _ _ => M.freeSlot_fades _ _)
      (fun _ => M.push_fades _) r3) fun t h4 => ?_
    have h23 := fades_frame.trans h2 h3
    refine ⟨fades_frame.trans (fades_frame.trans h1 h23) h4, fun g hg => gangs g (h3.gangs (h4.gangs hg)), fun key h hk hl => ?_,
      fun l hl hdie => ?_⟩
    · rcases (fades_frame.trans h23 h4).harts key h hk with h0 | ⟨g, hg, hid, hphase⟩
      · exact h0
      · exact hphase ▸ harts key g hg (hid ▸ hl)
    · obtain ⟨k, hk, e1, e2, e3, e4⟩ := h4.launches l hl
      obtain ⟨j, hj, f1, f2, f3, f4⟩ := h3.launches k hk
      obtain ⟨hstop, i, hi, hid⟩ := stopped j hj (f2.trans (e2.trans hdie))
      exact ⟨e3 (f3 hstop), e4 (status k hk ⟨i, hi, hid.trans f1⟩)⟩

end Sys2Proof.Machine
end

section
/-!
PROOFS. The removal of a die (R359, R360).
-/

open Sys2Proof Sys2Proof.Machine Sys2Proof.Claim

namespace Sys2Proof.Machine

variable {s0 : State}

/-! ## The channels -/

/-- What is kept of the packets of a channel whose ends survive: those that depend on no undelivered write of the lost die. -/
def keptPackets (s : State) (lost : Nat) (c : Channel) (l : List Packet) : List Packet :=
  (l.filter (keepsAfterLoss s lost c)).map fun p => { p with gen := (s.die c.dst).gen }

/-- A channel between survivors after the loss of a die. -/
def Channel.kept (s : State) (lost : Nat) (c : Channel) : Channel :=
  { c with
    reqs := keptPackets s lost c c.reqs, retry := keptPackets s lost c c.retry
    held := (keptPackets s lost c (c.reqs.take c.held)).length }

/-- The state in which the channels of a lost die are gone. -/
def unlinked (s : State) (lost : Nat) : State :=
  { s with fab := { s.fab with chans := (s.fab.chans.filter fun c => c.src ≠ lost && c.dst ≠ lost).map (Channel.kept s lost) } }

theorem M.errorResponses_notes (lost : Nat) (hs : List Hart) : Does (M.each hs fun h => match h.wait with
    | .response r => if homeOf r.pa = lost then M.errorResponse lost h r else pure ⟨⟩
    | _ => (pure ⟨⟩ : M s0 PUnit)) Noted := by
  refine .each noted_frame fun h _ => ?_
  split
  · exact .ite (fun _ => M.errorResponse_notes _ _ _) fun _ => .pure noted_frame _
  · exact .pure noted_frame _

/-- Steps 1 to 4 of R359 on the channels take away what the lost die has to do with; the rest is answers and reports. -/
theorem M.dropChannels_ends (lost : Nat) (r : Run s0) : Ends (M.dropChannels lost) r (Noted (unlinked r.s lost)) := by
  refine .read (.next (M.modFab_run ..) ?_)
  refine Does.bind noted_frame (.each noted_frame fun c _ => .each noted_frame fun p _ => ?_) (fun _ => ?_) _
  · split
    · split
      · exact M.errorResponse_notes _ _ _
      · exact .pure noted_frame _
    · exact .pure noted_frame _
  · exact .bind noted_frame (M.errorResponses_notes _ _) fun _ => .each noted_frame fun _ _ => M.report_notes _ _ _ _

theorem chanOf_filter (l : List Channel) (p : Channel → Bool) (i j : Nat) (hp : ∀ c : Channel, c.src = i → c.dst = j → p c = true) :
    chanOf (l.filter p) i j = chanOf l i j := by
  have same : (fun c : Channel => decide (p c = true ∧ (c.src == i && c.dst == j) = true)) = fun c => c.src == i && c.dst == j :=
    funext fun c => by
      by_cases h : c.src = i ∧ c.dst = j
      · simp [h, hp c h.1 h.2]
      · have : (c.src == i && c.dst == j) = false := by simpa using h
        simp [this]
  rw [chanOf, List.find?_filter, same, chanOf]

/-- A channel between survivors keeps the packets that depend on no undelivered write of the lost die, in the generation of its end. -/
theorem unlinked_chan (s : State) {lost i j : Nat} (hi : i ≠ lost) (hj : j ≠ lost) :
    (unlinked s lost).chan i j = (s.chan i j).kept s lost := by
  rw [chan_eq, unlinked, chanOf_map _ (Channel.kept s lost) _ _ (fun _ => ⟨rfl, rfl⟩) rfl, chanOf_filter, ← chan_eq]
  intro c hs hd
  simp [hs, hd, hi, hj]

/-- No channel of a lost die is left. -/
theorem unlinked_none {s : State} {lost : Nat} {c : Channel} (h : c ∈ (unlinked s lost).fab.chans) : c.src ≠ lost ∧ c.dst ≠ lost := by
  obtain ⟨k, hk, rfl⟩ := List.mem_map.mp h
  simpa [Channel.kept] using (List.mem_filter.mp hk).2

theorem chan_dst (s : State) (i j : Nat) : (s.chan i j).dst = j := by
  rw [chan_eq, chanOf]
  cases h : s.fab.chans.find? fun c => c.src == i && c.dst == j with
  | none => rfl
  | some c =>
    have ends := List.find?_some h
    simp only [Bool.and_eq_true, beq_iff_eq] at ends
    exact ends.2

/-! ## What lies on the lost die -/

/-- A page on the lost die is waited for no longer. -/
theorem M.endWaits_notes (lost : Nat) (hs : List Hart) : Does (M.each hs fun h => match h.wait with
    | .swait f _ => if homeOf (f * 2 ^ 18) = lost then M.modOther h.key fun h => { h with wait := .none } else pure ⟨⟩
    | .renew fs =>
      if fs.any fun f => homeOf (f * 2 ^ 18) == lost then M.modOther h.key fun h => { h with wait := .none } else pure ⟨⟩
    | _ => (pure ⟨⟩ : M s0 PUnit)) Noted := by
  have clear (key : Nat) : Does (M.modOther key fun h => { h with wait := .none } : M s0 PUnit) Noted :=
    M.modOther_notes key _ fun _ => ⟨rfl, rfl⟩
  refine .each noted_frame fun h _ => ?_
  split
  · exact .ite (fun _ => clear _) fun _ => .pure noted_frame _
  · exact .ite (fun _ => clear _) fun _ => .pure noted_frame _
  · exact .pure noted_frame _

/-- No cached line, bank request or reduction of a die. -/
def Cleared (lost : Nat) (t : State) : Prop :=
  (∀ l ∈ t.img.cache, homeOf (64 * l.addr) ≠ lost) ∧ (∀ r ∈ t.bank.reqs, homeOf r.pa ≠ lost)
  ∧ ∀ r ∈ t.bank.bred ++ t.bank.xmerge, r.1 ≠ lost

theorem Fades.cleared {s t : State} {lost : Nat} (h : Fades s t) (hs : Cleared lost s) : Cleared lost t := by
  obtain ⟨lines, reqs, reds⟩ := hs
  refine ⟨fun l hl => ?_, fun r hr => reqs r (h.bankReqs hr), fun r hr => reds r ?_⟩
  · obtain ⟨k, hk, e⟩ := h.lines l hl
    exact e ▸ lines k hk
  · rw [List.mem_append] at *
    exact hr.imp (fun x => h.bred x) fun x => h.xmerge x

/-- The cached lines, settles, bank requests and reductions of a lost die are gone (R360). -/
theorem M.dropDieState_ends (lost : Nat) (r : Run s0) :
    Ends (M.dropDieState lost) r fun t => Fades r.s t ∧ Cleared lost t := by
  refine .next (M.modImg_run ..) (.next (M.modPort_run ..) (.next (M.modBank_run ..) (.read ?_)))
  refine (M.endWaits_notes lost _ _).mono fun t h => ?_
  refine ⟨fades_frame.trans ?_ h.fades, h.fades.cleared ⟨fun l hl => ?_, fun q hq => ?_, fun q hq => ?_⟩⟩
  · exact { fades_frame.refl r.s with
      lines := fun l hl => ⟨l, (List.mem_filter.mp hl).1, rfl⟩
      bankReqs := fun _ hq => (List.mem_filter.mp hq).1
      bred := fun _ hq => (List.mem_filter.mp hq).1
      xmerge := fun _ hq => (List.mem_filter.mp hq).1 }
  · simpa using (List.mem_filter.mp hl).2
  · simpa using (List.mem_filter.mp hq).2
  · rcases List.mem_append.mp hq with hq | hq
    · simpa using (List.mem_filter.mp hq).2
    · simpa using (List.mem_filter.mp hq).2

end Sys2Proof.Machine

namespace Sys2Proof.Proofs

/-- The state in which a lost die is no longer alive and the survivors are in a new generation. -/
def detached (s : State) (lost : Nat) (rest : List (Nat × Nat)) : State :=
  { s with fab := { s.fab with
      failing := rest
      dies := (s.fab.dies.setIfInBounds lost { s.die lost with alive := false }).map
        fun d => if d.alive then { d with gen := (s.die 0).gen + 1 } else d } }

/-- A die beyond the eight of a module is not alive. -/
theorem alive_lt {s : State} {d : Nat} (h : s.alive d = true) : d < 8 := by
  by_contra hd
  rw [alive_eq, die_eq, dieOf, List.getD_eq_default _ _ (by simpa using hd)] at h
  exact absurd h Bool.false_ne_true

theorem detached_die (s : State) (lost d : Nat) (rest : List (Nat × Nat)) (hl : lost < 8) :
    (detached s lost rest).die d = if d = lost then { s.die lost with alive := false }
      else if s.alive d = true then { s.die d with gen := (s.die 0).gen + 1 } else s.die d := by
  rw [die_eq, detached, dieOf_map, dieOf_set]
  by_cases he : d = lost
  · subst he
    simp [hl]
  · have : ¬ lost = d := fun h => he h.symm
    by_cases ha : s.alive d = true
    · simp only [this, he, ha, alive_lt ha, false_and, if_true, if_false, ← die_eq]
      rw [if_pos (by rw [← alive_eq]; exact ha)]
    · have dead : (s.die d).alive = false := by rw [← alive_eq]; simpa using ha
      simp [this, he, ha, ← die_eq, dead]

theorem detached_alive (s : State) (lost d : Nat) (rest : List (Nat × Nat)) (hl : lost < 8) :
    (detached s lost rest).alive d = (s.alive d && d != lost) := by
  rw [alive_eq, detached_die _ _ _ _ hl]
  by_cases he : d = lost
  · simp [he]
  · rw [if_neg he]
    split
    · simp_all [alive_eq]
    · simp_all [alive_eq]

theorem detached_gen (s : State) (lost d : Nat) (rest : List (Nat × Nat)) (hl : lost < 8) (hd : d ≠ lost) (ha : s.alive d = true) :
    ((detached s lost rest).die d).gen = (s.die 0).gen + 1 := by
  rw [detached_die _ _ _ _ hl, if_neg hd, if_pos ha]

theorem detached_covered (s : State) (lost d : Nat) (rest : List (Nat × Nat)) (hl : lost < 8) :
    ((detached s lost rest).die d).covered = (s.die d).covered := by
  rw [detached_die _ _ _ _ hl]
  split
  · simp_all
  · split <;> rfl

/-- R359, R360: a die is removed, with its harts, its requests and its cached lines. -/
theorem dieRemoval_leads (s : State) (lost code : Nat) (rest : List (Nat × Nat)) (hf : s.fab.failing = (lost, code) :: rest)
    (ha : s.alive lost = true) : Leads s .dieRemoval fun t =>
      let gen := (s.die 0).gen + 1
      (∀ d, t.alive d = (s.alive d && d != lost)) ∧ (∀ d, t.alive d = true → (t.die d).gen = gen)
      ∧ (∀ i j, i ≠ lost → j ≠ lost → j < 8 → s.alive j = true → (t.chan i j).reqs = ((s.chan i j).reqs.filter fun p =>
        geClk (clkAt (s.die j).covered lost) (clkAt p.stamp lost)).map fun p => { p with gen := gen })
      ∧ (∀ k ∈ t.fab.chans, k.src = lost ∨ k.dst = lost → k.reqs = [])
      ∧ (∀ l ∈ t.img.cache, homeOf (64 * l.addr) ≠ lost) ∧ (∀ r ∈ t.bank.reqs, homeOf r.pa ≠ lost)
      ∧ (∀ r ∈ t.bank.bred ++ t.bank.xmerge, r.1 ≠ lost) ∧ (∀ g ∈ t.disp.gangs, g.die ≠ lost)
      ∧ (∀ key h, t.hartOf key = some h → h.id.did = lost → h.phase = .free)
      ∧ (∀ l ∈ t.disp.launches, l.die = lost → l.stopped = true ∧ l.status = 0x10) ∧ t.counts = s.counts := by
  have hl := alive_lt ha
  refine Ends.leads rfl ?_
  rw [hf]
  refine .next (M.modFab_run ..) (.ite (fun h => absurd h (by simp [ha])) fun _ => ?_)
  refine .next (M.modDie_run ..) (.next (M.modFab_run ..) ?_)
  refine .bind (M.dropChannels_ends lost _) fun _ r1 h1 => .bind (M.report_fades _ _ _ _ r1) fun _ r2 h2 =>
    .bind (M.dropDieState_ends lost r2) fun _ r3 ⟨h3, cleared⟩ =>
    .bind (M.dropHartsOf_ends lost r3) fun _ r4 ⟨h4, gangs, harts, launches⟩ => ?_
  refine Ends.mono (p := Fades r4.s) (Does.bind fades_frame (M.dropReplicas_fades lost) (fun _ => .bind fades_frame
    (M.forgetEarly_notes.mono fun _ _ h => h.fades) fun _ => .ite (fun _ => M.push_fades _) fun _ => .pure fades_frame _) r4) fun t h5 => ?_
  have h45 := fades_frame.trans h4 h5
  have all : Fades (unlinked (detached s lost rest) lost) t :=
    fades_frame.trans h1.fades (fades_frame.trans h2 (fades_frame.trans h3 h45))
  have alive (d : Nat) : t.alive d = (s.alive d && d != lost) := (all.alive d).trans (detached_alive s lost d rest hl)
  obtain ⟨lines, reqs, reds⟩ := h45.cleared cleared
  refine ⟨alive, fun d hd => ?_, fun i j hi hj _ hja => ?_, fun k hk hends => ?_, lines, reqs, reds, fun g hg => gangs g (h5.gangs hg),
    fun key h hk hdid => ?_, fun l hlaunch hdie => ?_, all.counts⟩
  · rw [alive, Bool.and_eq_true, bne_iff_ne] at hd
    exact (all.gen d).trans (detached_gen s lost d rest hl hd.2 hd.1)
  · have gen : ((detached s lost rest).die j).gen = (s.die 0).gen + 1 := detached_gen s lost j rest hl hj hja
    have cov : ((detached s lost rest).die j).covered = (s.die j).covered := detached_covered s lost j rest hl
    have dst : ((detached s lost rest).chan i j).dst = j := chan_dst _ _ _
    have keep : keepsAfterLoss (detached s lost rest) lost ((detached s lost rest).chan i j)
        = fun p => geClk (clkAt (s.die j).covered lost) (clkAt p.stamp lost) := funext fun p => by rw [keepsAfterLoss, dst, cov]
    rw [all.reqs, unlinked_chan _ hi hj]
    simp only [Channel.kept, keptPackets, dst, gen, keep]
    rfl
  · refine (all.sent k hk).elim id fun ⟨c, hc, hs, hd, _⟩ => ?_
    obtain ⟨h6, h7⟩ := unlinked_none hc
    exact hends.elim (fun h => absurd (hs.trans h) h6) fun h => absurd (hd.trans h) h7
  · rcases h5.harts key h hk with h0 | ⟨g, hg, hid, hphase⟩
    · exact h0
    · exact hphase ▸ harts key g hg (hid ▸ hdid)
  · obtain ⟨k, hk, -, e2, e3, e4⟩ := h5.launches l hlaunch
    obtain ⟨stopped, status⟩ := launches k hk (e2.trans hdie)
    exact ⟨e3 stopped, e4 status⟩

end Sys2Proof.Proofs
end

section
/-!
PROOFS. The rejoining of a repaired die (R361).
-/

open Sys2Proof Sys2Proof.Machine Sys2Proof.Claim

namespace Sys2Proof.Machine

variable {s0 : State} {α : Type}

theorem getD_setIfInBounds {n : Nat} (v : Vector α n) (d : Nat) (x a : α) (h : d < n) : (v.setIfInBounds d x).toList.getD d a = x := by
  simp [List.getD_eq_getElem?_getD, Vector.toList_setIfInBounds, h]

theorem clkAt_put (c : Clock) (d : Nat) (v : BitVec 16) (h : d < 8) : clkAt (clkPut c d v) d = v := getD_setIfInBounds c d v 0 h

theorem clkAt_ofFn (f : Fin 8 → BitVec 16) (i : Nat) (h : i < 8) : clkAt (Vector.ofFn f) i = f ⟨i, h⟩ := by
  simp [clkAt, List.getD_eq_getElem?_getD, h]

theorem aget_aput_other {l : List (Nat × α)} {k f : Nat} (v : α) (h : f ≠ k) : aget (aput l k v) f = aget l f := by
  induction l with
  | nil => simp [aput, aget, h]
  | cons p l ih =>
    obtain ⟨a, b⟩ := p
    simp only [aput]
    split
    · simp [aget, h]
    · split
      · simp_all [aget]
      · simp [aget, ih]

/-! ## What the survivors know of the die -/

/-- Nothing has changed but what the dies know of each other's echo. -/
structure Tuned (s t : State) : Prop where
  fab : t = { s with fab := { s.fab with dies := t.fab.dies } }
  die : ∀ d, ∃ c, t.die d = { s.die d with echo := c }

theorem tuned_set (s : State) (d : Nat) (c : Clock) :
    Tuned s (Upd.apply s (.fab { s.fab with dies := s.fab.dies.setIfInBounds d { s.die d with echo := c } })) where
  fab := rfl
  die e := by
    simp only [die_eq, fab_fab, dieOf_set]
    split
    · rename_i h
      exact ⟨c, by rw [h.1]⟩
    · exact ⟨_, rfl⟩

theorem tuned_frame : Frame Tuned where
  refl s := ⟨rfl, fun _ => ⟨_, rfl⟩⟩
  trans {a b c} h k := ⟨by rw [k.fab, h.fab], fun d => by
    obtain ⟨x, hx⟩ := h.die d
    obtain ⟨y, hy⟩ := k.die d
    exact ⟨y, by rw [hy, hx]⟩⟩

/-- Each die of a list takes a value for the echo of a die, and the others keep what they know. -/
theorem M.echoes_ends (die : Nat) (v : Nat → BitVec 16) (hdie : die < 8) (ds : List Nat) (r : Run s0) :
    Ends (M.each ds fun d => M.modDie d fun x => { x with echo := clkPut x.echo die (v d) }) r fun t => Tuned r.s t
      ∧ (∀ e, e ∉ ds → t.die e = r.s.die e) ∧ ∀ e ∈ ds, e < 8 → clkAt (t.die e).echo die = v e := by
  induction ds generalizing r with
  | nil => exact .pure ⟨tuned_frame.refl _, fun _ _ => rfl, fun _ he => absurd he List.not_mem_nil⟩
  | cons d ds ih =>
    refine .next (M.modDie_run ..) ((ih _).mono fun t ⟨h, kept, given⟩ =>
      ⟨tuned_frame.trans (tuned_set _ _ _) h, fun e he => ?_, fun e he h8 => ?_⟩)
    · rw [List.mem_cons, not_or] at he
      rw [kept e he.2, die_eq, Run.emit_s, fab_fab, dieOf_set, if_neg fun h => he.1 h.1.symm, ← die_eq]
    · by_cases hin : e ∈ ds
      · exact given e hin h8
      · have e_d : e = d := (List.mem_cons.mp he).resolve_right hin
        rw [kept e hin, die_eq, Run.emit_s, fab_fab, dieOf_set, if_pos ⟨e_d.symm, e_d ▸ h8⟩, clkAt_put _ _ _ hdie, e_d]

/-! ## What the die held -/

/-- Nothing has changed but bytes, images and free values, and settle counts of a die. -/
structure Blanked (die : Nat) (s t : State) : Prop where
  same : t = { s with cells := t.cells, scratch := t.scratch, counts := t.counts, img := t.img, fresh := t.fresh }
  counts : ∀ f, homeOf (f * 2 ^ 18) ≠ die → t.countOf f = s.countOf f

theorem blanked_frame (die : Nat) : Frame (Blanked die) where
  refl s := ⟨rfl, fun _ _ => rfl⟩
  trans {a b c} h k := ⟨by rw [k.same, h.same], fun f hf => (k.counts f hf).trans (h.counts f hf)⟩

theorem M.freeWord_blanks (die : Nat) : Does (M.freeWord : M s0 Word) (Blanked die) :=
  fun _ => ⟨_, _, M.freeWord_run _, rfl, fun _ _ => rfl⟩

/-- What a repaired die holds becomes free values; settle counts of other dies stay (R5, R361). -/
theorem M.loseContents_blanks (die : Nat) : Does (M.loseContents die : M s0 PUnit) (Blanked die) := fun r => by
  have frame := blanked_frame die
  refine .read (Does.bind frame (.each frame fun c _ => ?_) (fun _ => .bind frame (.each frame fun c _ => ?_) fun _ =>
    .bind frame (.each frame fun c hc => ?_) fun _ => ?_) r)
  · exact .bind frame (M.freeWord_blanks die) fun _ _ => .emit ⟨rfl, fun _ _ => rfl⟩
  · exact .bind frame (M.freeWord_blanks die) fun _ _ => .emit ⟨rfl, fun _ _ => rfl⟩
  · refine .bind frame (M.freeWord_blanks die) fun _ _ => .read (.emit ⟨rfl, fun f hf => ?_⟩)
    have home : homeOf (c.1 * 2 ^ 18) = die := by simpa using (List.mem_filter.mp hc).2
    have other : f ≠ c.1 := fun h => hf (h ▸ home)
    exact congrArg (Option.getD · 0) (aget_aput_other _ other)
  · exact fun _ => ⟨_, _, M.modImg_run _ _, rfl, fun _ _ => rfl⟩

/-- The registers of a repaired die are at their reset values (R361). -/
theorem M.resetDie_ends (die : Nat) (hdie : die < 8) (r : Run s0) : Ends (M.resetDie die) r fun t =>
    t = { r.s with disp := t.disp, host := t.host, bank := t.bank, place := { r.s.place with tables := t.place.tables } }
      ∧ t.disp.jhead = r.s.disp.jhead ∧ (∀ q ∈ t.disp.queues, q.q / 4096 ≠ die) ∧ errsOf t die = .reset ∧ t.tableOf die = .reset := by
  refine .next (M.modDisp_run ..) (.next (M.modPort_run ..) (.next (M.modBank_run ..) (M.modPlace_ends ?_)))
  refine ⟨rfl, rfl, fun q hq => ?_, getD_setIfInBounds _ _ _ _ hdie, getD_setIfInBounds _ _ _ _ hdie⟩
  simpa using (List.mem_filter.mp hq).2

end Sys2Proof.Machine

namespace Sys2Proof.Proofs

/-- The state in which a repaired die is alive again, has the survivors' clocks, and the module is in a new generation. -/
def attached (s : State) (die : Nat) (clk : Clock) : State :=
  { s with fab := { s.fab with
      dies := (s.fab.dies.setIfInBounds die { s.die die with
        alive := true, clock := clk
        covered := Vector.ofFn fun i => if i.val = die then clkAt clk die else clkAt (s.die i.val).clock i.val
        echo := Vector.ofFn fun i => clkAt (s.die i.val).covered die }).map
        fun d => if d.alive then { d with gen := (s.die 0).gen + 1 } else d } }

theorem attached_die_same (s : State) (die : Nat) (clk : Clock) (h : die < 8) : (attached s die clk).die die = {
    alive := true, clock := clk
    covered := Vector.ofFn fun i => if i.val = die then clkAt clk die else clkAt (s.die i.val).clock i.val
    echo := Vector.ofFn fun i => clkAt (s.die i.val).covered die
    gen := (s.die 0).gen + 1 } := by
  simp [die_eq, attached, dieOf_set, h]

theorem attached_die_other (s : State) {die d : Nat} (clk : Clock) (h : d ≠ die) : (attached s die clk).die d =
    if s.alive d = true then { s.die d with gen := (s.die 0).gen + 1 } else s.die d := by
  have old (x : DieFab) : dieOf (s.fab.dies.setIfInBounds die x) d = s.die d := (dieOf_set ..).trans (if_neg fun e => h e.1.symm)
  rw [die_eq, attached, dieOf_map, old, alive_eq]
  by_cases ha : (s.die d).alive = true
  · rw [if_pos (alive_lt ((alive_eq s d).trans ha))]
  · rw [if_neg ha, ite_self]

theorem attached_alive (s : State) (die d : Nat) (clk : Clock) (h : die < 8) :
    (attached s die clk).alive d = (s.alive d || d == die) := by
  rw [alive_eq]
  by_cases he : d = die
  · rw [he, attached_die_same _ _ _ h]
    simp
  · rw [attached_die_other _ _ he]
    split
    · simp_all [alive_eq]
    · simp_all [alive_eq]

theorem attached_gen (s : State) (die d : Nat) (clk : Clock) (h : die < 8) (ha : (attached s die clk).alive d = true) :
    ((attached s die clk).die d).gen = (s.die 0).gen + 1 := by
  by_cases he : d = die
  · rw [he, attached_die_same _ _ _ h]
  · have alive : s.alive d = true := by simpa [attached_alive _ _ _ _ h, he] using ha
    rw [attached_die_other _ _ he, if_pos alive]

/-- The entry-wise maximum of a die's clock and the clocks of the dies alive. -/
def mergedClock (s : State) (die : Nat) : Clock :=
  ((List.range 8).filter s.alive).foldl (fun c d => clkMerge c (s.die d).clock) (s.die die).clock

/-- R361: a repaired die takes the survivors' clocks, and its registers are at their reset values. -/
theorem dieRejoin_leads (s : State) (die : Nat) (hpos : 0 < die) (h8 : die < 8) (hdead : s.alive die = false)
    (hpower : s.host.power ≠ .failed) : Leads s (.dieRejoin die) fun t =>
      (∀ d, t.alive d = (s.alive d || d == die)) ∧ (t.die die).clock = mergedClock s die
      ∧ (∀ i < 8, i ≠ die → clkAt (t.die die).covered i = clkAt (s.die i).clock i ∧ clkAt (t.die die).echo i = clkAt (s.die i).covered die)
      ∧ (∀ i < 8, s.alive i = true → clkAt (t.die i).echo die = clkAt (s.die i).clock i)
      ∧ (t.place.publishing = s.place.publishing.map fun b => (0, b.2))
      ∧ (∀ d, t.alive d = true → (t.die d).gen = (s.die 0).gen + 1) ∧ t.tableOf die = .reset ∧ Journaled s t
      ∧ (∀ q ∈ t.disp.queues, q.q / 4096 ≠ die) ∧ errsOf t die = .reset
      ∧ ∀ f, homeOf (f * 2 ^ 18) ≠ die → t.countOf f = s.countOf f := by
  refine Ends.leads rfl (.next ((M.need_run _ _).trans (if_pos (by simp [h8, hdead, hpower]))) ?_)
  refine .next (M.modDie_run ..) (.next (M.modFab_run ..) (.bind (M.echoes_ends die _ h8 _ _) fun _ r1 ⟨h1, kept, echoes⟩ => ?_))
  refine .bind (M.loseContents_blanks die r1) fun _ r2 h2 =>
    .bind (M.resetDie_ends die h8 r2) fun _ r3 ⟨h3, jhead, queues, errs, table⟩ => ?_
  refine .next (M.modPlace_run ..) ((M.report_enters _ _ _ _ _).mono fun t ⟨h4, journaled⟩ => ?_)
  have fab : r3.s.fab = r1.s.fab := by rw [h3, h2.same]
  have place : r3.s.place = { s.place with tables := r3.s.place.tables } := by rw [h3, h2.same, h1.fab]; rfl
  have number : r3.s.disp.jhead = s.disp.jhead := by rw [jhead, h2.same, h1.fab]; rfl
  have counts : r3.s.counts = r2.s.counts := by rw [h3]
  have own : t.die die = (attached s die (mergedClock s die)).die die := by
    rw [h4.others die (by omega), die_eq, Run.emit_s, placement_fab, fab, ← die_eq, kept die (by simp [hdead])]; rfl
  have known (d : Nat) : t.alive d = (attached s die (mergedClock s die)).alive d
      ∧ (t.die d).gen = ((attached s die (mergedClock s die)).die d).gen
      ∧ (t.die d).echo = (r1.s.die d).echo := by
    obtain ⟨c, v, hv⟩ := h4.die d
    obtain ⟨e, he⟩ := h1.die d
    rw [die_eq (r3.emit _).s, Run.emit_s, placement_fab, fab, ← die_eq] at hv
    rw [alive_eq, alive_eq, hv, he]
    exact ⟨rfl, rfl, rfl⟩
  rw [attached_die_same s die _ h8] at own
  refine ⟨fun d => (known d).1.trans (attached_alive s die d _ h8), by rw [own], fun i hi hne => ?_,
    fun i hi ha => ?_, ?_, fun d hd => ?_, ?_, journaled.trans (congrArg (· + 1) number), ?_, ?_, fun f hf => ?_⟩
  · rw [own]
    exact ⟨(clkAt_ofFn _ i hi).trans (if_neg hne), clkAt_ofFn _ i hi⟩
  · rw [(known i).2.2]
    exact echoes i (List.mem_filter.mpr ⟨List.mem_range.mpr hi, ha⟩) hi
  · rw [h4.place, Run.emit_s, placement_place, place]
  · rw [(known d).1] at hd
    exact (known d).2.1.trans (attached_gen s die d _ h8 hd)
  · rw [State.tableOf, h4.place]
    exact table
  · obtain ⟨n, hn⟩ := h4.disp
    rw [hn]
    exact queues
  · rw [errsOf, h4.errs]
    exact errs
  · rw [State.countOf, h4.counts, Run.emit_s, placement_counts, counts, ← State.countOf, h2.counts f hf, h1.fab]
    rfl

/-- Settles O49: an event of the links marks channels and dies, a removal lets what the lost die has to do with only leave, and a rejoined
die takes what the survivors know. -/
theorem linksAndDiesFailAndRejoin : Obligations.LinksAndDiesFailAndRejoin := by
  intro s src dst
  exact ⟨flitCrcFail_leads s src dst, linkRetrain_leads s,
    fun hr => ⟨linkRetrainEnd_trained s src dst hr, linkRetrainEnd_failed s src dst hr⟩,
    linkFail_exec s, dieSilent_exec s src dst, dieFatalError_exec s src, dieRemoval_leads s, dieRejoin_leads s, moduleFailure_exec s⟩

end Sys2Proof.Proofs
end

section
/-!
PROOFS. A command of the host ring that fails its statement (O52). The statement of HC_COPY says that no byte of memory changes but those
copied and the journal entry. It asks nothing of the caches: where the journal entry lies in a line that an L1 holds and the home slice has
no room, the recall drops the copy. A clean byte that an engine has changed in the arrays (R190) then reads as in the arrays.
-/

open Sys2Proof Sys2Proof.Machine Sys2Proof.Claim

namespace Sys2Proof.Proofs

/-- A clean copy of line 0 in an L1. The two images differ in its byte 32: the live one has 1 there, the arrays 0 (R190). -/
def divergedCopy : Line :=
  { addr := 0, data := BitVec.ofNat 512 (2 ^ 256), dirty := 0, poison := false, level := .l1 0, key := none }

/-- Clean lines that fill the home slice of line 0. -/
def fillingLines : List Line := (List.range 4096).map fun i =>
  { addr := 384 * (i + 1), data := 0, dirty := 0, poison := false, level := .l2, key := none }

/-- The ring holds command 0x04 with length 0, and the journal begins at the line of `divergedCopy`. -/
def emptyCopyState : State :=
  { State.reset with
    cells := [(0x10000, 4)], img := { Images.reset with cache := divergedCopy :: fillingLines },
    host := { HostPort.reset with hcbase := 0x10000, hctail := 1 } }

theorem emptyCopyState_command :
    emptyCopyState.hostCmd = some (HostCmd.ofBits 4) ∧ emptyCopyState.hostCmdListed (HostCmd.ofBits 4) = true := by
  decide +kernel

theorem emptyCopyState_ready :
    (∀ d < 8, (emptyCopyState.tableOf d).inbox = none) ∧ emptyCopyState.windowShut 0 2 = [] := by
  decide +kernel

theorem emptyCopyState_byte : liveByte emptyCopyState true 32 = 1 := by decide +kernel

/-- After the command the byte behind the journal entry reads as in the arrays. -/
theorem emptyCopyState_byte_lost (t : State) (h : exec (.hcCopy []) emptyCopyState = .next t) : liveByte t true 32 = 0 := by
  have run : (match exec (.hcCopy []) emptyCopyState with | .next t => liveByte t true 32 == 0 | _ => false) = true := by
    decide +kernel
  rw [h] at run
  exact eq_of_beq run

/-- Refutes O52: HC_COPY with length 0 writes its journal entry into a line that an L1 holds and that the full home slice cannot take back,
so that a byte outside the entry reads as in the arrays from then on. -/
theorem not_hostCommandsDoWhatTheirOpcodesSay : ¬ Obligations.HostCommandsDoWhatTheirOpcodesSay := by
  unfold Obligations.HostCommandsDoWhatTheirOpcodesSay
  intro h
  obtain ⟨hcmd, hlisted⟩ := emptyCopyState_command
  obtain ⟨hinbox, hwindow⟩ := emptyCopyState_ready
  obtain ⟨-, -, -, -, hcopy, -⟩ := h emptyCopyState (HostCmd.ofBits 4) hcmd
  obtain ⟨t, hexec, -, -, hbytes⟩ := (hcopy [] (.inl ⟨rfl, rfl, hlisted, rfl⟩)).2 rfl rfl (by decide) (by decide) (fun _ => .inr rfl)
    (by decide) hinbox (by simp) hwindow
  have hkept : liveByte t true 32 = liveByte emptyCopyState true 32 := hbytes 32 (by decide) (.inr (by decide))
  rw [emptyCopyState_byte_lost t hexec, emptyCopyState_byte] at hkept
  exact absurd hkept (by decide)

end Sys2Proof.Proofs
end

section
/-!
PROOFS. The fetch of a scalar word (R84, R113), and what a step is on each of its turns.
-/

open Sys2Proof Sys2Proof.Machine Sys2Proof.Claim

namespace Sys2Proof.Machine

variable {s0 : State}

/-- An aligned access that the translation and the permissions grant is answered with the access. -/
theorem M.check_granted (va : Word) (n : Nat) (k : Kind) (r : Run s0) (a : Acc) (hal : va.toNat % n = 0)
    (h : accessOf r.s va n k = .ok a) : ∃ r' : Run s0, M.check va n k r = .ok (.ok a, r') ∧
      r'.s = { r.s with fresh := r'.s.fresh, img := { r.s.img with tlb := r'.s.img.tlb, keys := r'.s.img.keys } } := by
  obtain ⟨r', h1, h2⟩ := M.translate_run r.s.hart.id.vf va.toNat r
  have nopoison (pa : Nat) : used r.s r.s.hart.id.vf va.toNat ≠ .poison pa := fun hh => by
    simp [accessOf, hh, State.checkLeaf] at h
  have h2 := h2 nopoison
  have ok : r'.s.checkLeaf r.s.hart.id.tenant va.toNat n k (used r.s r.s.hart.id.vf va.toNat) = .ok a := by
    rw [h2]; exact h
  refine ⟨r'.emit (.img { r'.s.img with keys := aput r'.s.img.keys (a.pa / 2 ^ 18) a.leaf.tkey }), ?_, ?_⟩
  · simp [M.check, M.checkAs, hal, h1, ok]
  · simp only [Run.emit_s, Upd.apply]; rw [h2]

/-- An aligned access whose check fails otherwise than by poison is answered with the cause. -/
theorem M.check_refused (va : Word) (n : Nat) (k : Kind) (r : Run s0) (c : BitVec 8) (hal : va.toNat % n = 0)
    (h : accessOf r.s va n k = .error c) (hc : c ≠ 0x0E) : ∃ r' : Run s0, M.check va n k r = .ok (.error c, r') ∧
      r'.s = { r.s with fresh := r'.s.fresh, img := { r.s.img with tlb := r'.s.img.tlb } } := by
  obtain ⟨r', h1, h2⟩ := M.translate_run r.s.hart.id.vf va.toNat r
  have nopoison (pa : Nat) : used r.s r.s.hart.id.vf va.toNat ≠ .poison pa := fun hh => by
    simp only [accessOf, hh, State.checkLeaf, Except.error.injEq] at h
    exact hc h.symm
  have h2 := h2 nopoison
  have no : r'.s.checkLeaf r.s.hart.id.tenant va.toNat n k (used r.s r.s.hart.id.vf va.toNat) = .error c := by
    rw [h2]; exact h
  exact ⟨r', by simp [M.check, M.checkAs, hal, h1, no], h2⟩

theorem M.needTails_run {r : Run s0} (h : r.s.tailPending r.s.hart.key = none) : M.needTails r = .ok (⟨⟩, r) := by
  simp [M.needTails, h]

theorem M.needCoveredBy_run {c : Clock} {r : Run s0} (h : r.s.uncovered r.s.hart.id.did c (fun _ => false) = []) :
    M.needCoveredBy c r = .ok (⟨⟩, r) := by
  simp [M.needCoveredBy, h]

theorem M.needOpen_run {d home k : Nat} {r : Run s0} (h : Open r.s d home k) : M.needOpen d home k r = .ok (⟨⟩, r) := by
  obtain ⟨held, retry⟩ := h
  have free : ¬ ((d ≠ home && ((r.s.chan d home).held ≥ 16 || (r.s.chan d home).retry.length + k > 2048)) = true) := by
    simp only [Bool.and_eq_true, Bool.or_eq_true, decide_eq_true_eq]
    omega
  rw [M.needOpen, M.bind_run, M.st_run]
  exact congrFun (if_neg free) r

theorem M.needChannel_run {home : Nat} {c : Clock} {r : Run s0}
    (empty : ∀ k ∈ r.s.fab.chans, k.src = r.s.hart.id.did → k.dst = home → k.reqs = [])
    (covered : r.s.uncovered home c (fun i => i == r.s.hart.id.did) = []) : M.needChannel home c r = .ok (⟨⟩, r) := by
  have none_ : (r.s.fab.chans.find? fun k => k.src == r.s.hart.id.did && k.dst == home && !k.reqs.isEmpty) = none := by
    rw [List.find?_eq_none]
    intro k hk hp
    simp only [Bool.and_eq_true, beq_iff_eq] at hp
    simp [empty k hk hp.1.1 hp.1.2] at hp
  simp [M.needChannel, none_, covered]

/-- A home that is reached lets the access go on. -/
theorem M.needServed_run (home : Nat) (r : Run s0) (h : Reached r.s home) : M.needServed home r = .ok (⟨⟩, r) := by
  obtain ⟨tails, own, far⟩ := h
  simp only [M.needServed, M.needServedBy, M.bind_run, M.hart_run, M.needTails_run tails, M.ite_run]
  by_cases hd : home = r.s.hart.id.did
  · rw [if_pos hd]
    exact M.needCoveredBy_run (hd ▸ own hd)
  · obtain ⟨opened, empty, covered⟩ := far hd
    rw [if_neg hd, M.needOpen_run opened]
    exact M.needChannel_run empty covered

theorem findLine_map (c : List Line) (f : Line → Line) (la : Nat) (hf : ∀ l, (f l).addr = l.addr) :
    findLine (c.map f) la = (findLine c la).map f := by
  induction c with
  | nil => rfl
  | cons l c ih =>
    simp only [List.map_cons, findLine, hf, ih]
    split <;> rfl

/-- Only the caches have changed, and every line of the live image is as before. -/
structure Moved (s t : State) : Prop where
  same : t = { s with img := { s.img with cache := t.img.cache } }
  line : ∀ la ww, t.liveLine la ww = s.liveLine la ww

/-- A line that has room in its home slice comes back to it with what it holds. -/
theorem M.toSlice_moves (la : Nat) (r : Run s0) (h : Roomy r.s la 1) : Ends (M.toSlice la) r (Moved r.s) := by
  have room : r.s.cacheRoom la .l2 = true := by
    refine decide_eq_true (Nat.lt_of_le_of_lt (List.Sublist.length_le (List.monotone_filter_right _ fun l hl => ?_)) h)
    exact (Bool.and_eq_true .. ▸ hl : _ ∧ _).2
  refine .read (.ite (fun _ => .emit ⟨rfl, fun k ww => ?_⟩) fun h => absurd (Bool.or_eq_true_iff.mpr (.inl room)) h)
  simp only [State.liveLine, img_img]
  rw [findLine_map _ _ _ fun l => by split <;> rfl]
  cases findLine r.s.img.cache k with
  | none => rfl
  | some l => simp only [Option.map_some]; split <;> rfl

/-- An engine's access to a line that has room in its home slice changes nothing of the live image. -/
theorem M.openLine_moves (la : Nat) (ww : Bool) (r : Run s0) (h : Roomy r.s la 1) : Ends (M.openLine la .engine ww) r (Moved r.s) := by
  have recalled : Ends (M.recallLine la .engine) r (Moved r.s) := by
    refine .read ?_
    cases findLine r.s.img.cache la with
    | none => exact .pure ⟨rfl, fun _ _ => rfl⟩
    | some l =>
      dsimp only
      cases l.level with
      | l1 c => exact M.toSlice_moves la r h
      | l2 => exact .pure ⟨rfl, fun _ _ => rfl⟩
      | l3 => exact .pure ⟨rfl, fun _ _ => rfl⟩
      | host => exact .pure ⟨rfl, fun _ _ => rfl⟩
  exact recalled.bind fun _ _ h => .pure h

/-- Bytes that lie in one line. -/
theorem linesOf_aligned {pa : Nat} (h : pa % 4 = 0) : rangeFrom (pa / 64) ((pa + 4 - 1) / 64 + 1 - pa / 64) = [pa / 64] := by
  have : (pa + 4 - 1) / 64 + 1 - pa / 64 = 1 := by omega
  rw [this]
  rfl

theorem Moved.liveBytes {s t : State} (h : Moved s t) (pa n : Nat) (ww : Bool) : t.liveBytes pa n ww = s.liveBytes pa n ww := by
  simp only [State.liveBytes, h.line]

/-- A word read at its home is what is seen there (R84). -/
theorem M.readHome_word (a : Acc) (r : Run s0) (bs : List Byte) (hal : a.pa % 4 = 0) (hroom : Roomy r.s (a.pa / 64) 1)
    (hseen : seen r.s a 4 = some bs) : ∃ r' : Run s0, M.readHome a.pa 4 .engine a.leaf.ww r = .ok (some bs, r')
      ∧ r'.s = { r.s with img := { r.s.img with cache := r'.s.img.cache } } := by
  by_cases hdev : regionOf a.pa = .device
  · rw [seen, if_pos hdev] at hseen
    exact ⟨r, by simp [M.readHome, hdev, hseen], rfl⟩
  · rw [seen, if_neg hdev] at hseen
    split at hseen
    · cases hseen
    · rename_i hpoison
      have clean : r.s.firstPoison a.pa 4 = none := by simpa using hpoison
      obtain ⟨_, r', hopen, moved⟩ := M.openLine_moves (a.pa / 64) a.leaf.ww r hroom
      have bytes : r'.s.liveBytes a.pa 4 a.leaf.ww = bs := (moved.liveBytes ..).trans (Option.some.inj hseen)
      refine ⟨r', ?_, moved.same⟩
      have each_ : M.each [a.pa / 64] (fun la => M.openLine la .engine a.leaf.ww) r = .ok (⟨⟩, r') := by
        rw [M.each_cons_run, hopen]
        rfl
      simp only [M.readHome, M.ite_run, beq_iff_eq, if_neg hdev, M.bind_run, M.st_run, clean, linesOf_aligned hal, each_, M.pure_run, bytes]

/-- A word that the hart has buffered no other value of is fetched as it stands, and buffered (R113). -/
theorem M.fetched_run (a : Word) (w : BitVec 32) (r : Run s0) (h : ∀ p ∈ r.s.hart.ibuf, p.1 = a → p.2 = w) :
    ∃ r' : Run s0, M.fetched a w r = .ok (w, r') ∧ r'.s = { r.s with hart := { r.s.hart with ibuf := r'.s.hart.ibuf } } := by
  refine ⟨r.emit (.hart { r.s.hart with ibuf := (a, w) :: r.s.hart.ibuf.filter fun p => p.1 ≠ a }), ?_, rfl⟩
  cases hf : r.s.hart.ibuf.find? fun p => p.1 == a with
  | none => simp [M.fetched, hf]
  | some p =>
    have same : p.2 = w := h p (List.mem_of_find?_eq_some hf) (by simpa using List.find?_some hf)
    simp [M.fetched, hf, same]

/-! ## The word at the program counter -/

/-- What a fetch leaves: copies of translations and lines, the key of a frame, the buffered word, and the counter of free values. -/
def Fetches (s t : State) : Prop :=
  t = { s with hart := { s.hart with ibuf := t.hart.ibuf }, fresh := t.fresh
               img := { s.img with tlb := t.img.tlb, cache := t.img.cache, keys := t.img.keys } }

/-- R84: an aligned word that passes the checks, is served and holds no poison is fetched as it stands. -/
theorem M.fetchBytes_word (va : Word) (r : Run s0) (a : Acc) (bs : List Byte) (hva : va.toNat % 4 = 0)
    (hacc : accessOf r.s va 4 .fetch = .ok a) (hreach : Reached r.s a.leaf.home) (hroom : Roomy r.s (a.pa / 64) 1)
    (hseen : seen r.s a 4 = some bs) (hpa : a.pa % 4 = 0) : ∃ r' : Run s0, M.fetchBytes va 4 r = .ok (.ok (ofBytes bs), r')
      ∧ r'.s.hart = r.s.hart ∧ Fetches r.s r'.s := by
  obtain ⟨r1, hcheck, h1⟩ := M.check_granted va 4 .fetch r a hva hacc
  have reach : Reached r1.s a.leaf.home := by rw [h1]; exact ⟨hreach.tails, hreach.own, hreach.far⟩
  have room : Roomy r1.s (a.pa / 64) 1 := by rw [h1]; exact hroom
  have sees : seen r1.s a 4 = some bs := by rw [h1]; exact hseen
  obtain ⟨r2, hread, h2⟩ := M.readHome_word a r1 bs hpa room sees
  refine ⟨r2, ?_, by rw [h2, h1], ?_⟩
  · simp only [M.fetchBytes, M.bind_run, hcheck, M.needServed_run _ _ reach, hread, M.pure_run]
  · rw [Fetches, h2, h1]

/-- The fetch of a scalar word: the instruction that it decodes to, or a trap with cause 0x01 and the word. -/
theorem M.fetchScalar_word (r : Run s0) (a : Acc) (bs : List Byte) (hpc : r.s.hart.pc.toNat % 4 = 0)
    (hacc : accessOf r.s r.s.hart.pc 4 .fetch = .ok a) (hreach : Reached r.s a.leaf.home) (hroom : Roomy r.s (a.pa / 64) 1)
    (hseen : seen r.s a 4 = some bs) (hbuf : ∀ p ∈ r.s.hart.ibuf, p.1 = r.s.hart.pc → p.2 = BitVec.ofNat 32 (ofBytes bs))
    (hpa : a.pa % 4 = 0) : ∃ r' : Run s0, Fetches r.s r'.s ∧ (M.fetchScalar : M s0 Instr) r
      = (match decodeScalar (BitVec.ofNat 32 (ofBytes bs)) with
        | .ok i => (pure i : M s0 Instr)
        | .error _ => M.trap 0x01 ((BitVec.ofNat 32 (ofBytes bs)).setWidth 64)) r' := by
  obtain ⟨r1, hfetch, hhart, h1⟩ := M.fetchBytes_word _ r a bs hpc hacc hreach hroom hseen hpa
  obtain ⟨r2, hword, h2⟩ := M.fetched_run r.s.hart.pc (BitVec.ofNat 32 (ofBytes bs)) r1 (hhart ▸ hbuf)
  refine ⟨r2, ?_, ?_⟩
  · rw [Fetches, h2, h1]
  · simp only [M.fetchScalar, M.bind_run, M.pc_run, hfetch, hword] <;> rfl

end Sys2Proof.Machine

namespace Sys2Proof.Proofs

theorem step_eq (s : State) : step s = andThen (runTurn s.plan.turn (s.applyAll s.plan.pre)) (finish s.plan.own) := rfl

/-- R37, R84: on the scalar stream a step runs the instruction that the word at the program counter decodes to. The word has to lie in one
line, as it does wherever the translation keeps the offset in the page. -/
theorem fetchAtPc_word (m : State) (a : Acc) (bs : List Byte) (hpc : m.hart.pc.toNat % 4 = 0)
    (hacc : accessOf m m.hart.pc 4 .fetch = .ok a) (hreach : Reached m a.leaf.home) (hroom : Roomy m (a.pa / 64) 1)
    (hseen : seen m a 4 = some bs) (hbuf : ∀ p ∈ m.hart.ibuf, p.1 = m.hart.pc → p.2 = BitVec.ofNat 32 (ofBytes bs))
    (hpa : a.pa % 4 = 0) : ∃ t, Fetches m t
      ∧ (∀ i, decodeScalar (BitVec.ofNat 32 (ofBytes bs)) = .ok i → runFetched (fetchAtPc m) = exec i t)
      ∧ ((∀ i, decodeScalar (BitVec.ofNat 32 (ofBytes bs)) ≠ .ok i) → m.hart.sr.tvec ≠ 0 →
        runFetched (fetchAtPc m) = .next (trapped t 0x01 (BitVec.ofNat 64 (ofBytes bs % 2 ^ 32)))) := by
  obtain ⟨r, hfetches, hrun⟩ := M.fetchScalar_word (Run.start m) a bs hpc hacc hreach hroom hseen hbuf hpa
  refine ⟨r.s, hfetches, fun i hi => ?_, fun hno htvec => ?_⟩
  · rw [fetchAtPc, fetchWith, hrun, hi]
    rfl
  · have tvec : r.s.hart.sr.tvec ≠ 0 := by rw [hfetches]; exact htvec
    have clock : ((m.hartOf r.s.hart.key).getD r.s.hart).sr.vclk = r.s.hart.sr.vclk := by
      rw [hfetches]
      simp [State.hartOf, Hart.key]
    obtain ⟨r', htrap, hs⟩ := M.trap_run (α := Instr) 0x01 ((BitVec.ofNat 32 (ofBytes bs)).setWidth 64) r tvec clock
    have value : (BitVec.ofNat 32 (ofBytes bs)).setWidth 64 = BitVec.ofNat 64 (ofBytes bs % 2 ^ 32) :=
      BitVec.eq_of_toNat_eq (by simp)
    cases hd : decodeScalar (BitVec.ofNat 32 (ofBytes bs)) with
    | ok i => exact absurd hd (hno i)
    | error e =>
      rw [← value, ← hs, fetchAtPc, fetchWith, hrun, hd]
      simp only [htrap, runFetched]

/-- R84, R91: a fetch whose check fails otherwise than by poison traps with the cause and the address. -/
theorem fetchAtPc_refused (m : State) (c : BitVec 8) (htvec : m.hart.sr.tvec ≠ 0) (hpc : m.hart.pc.toNat % 4 = 0)
    (hacc : accessOf m m.hart.pc 4 .fetch = .error c) (hc : c ≠ 0x0E) :
    ∃ t, t = { m with fresh := t.fresh, img := { m.img with tlb := t.img.tlb } }
      ∧ runFetched (fetchAtPc m) = .next (trapped t c m.hart.pc) := by
  obtain ⟨r, hcheck, h⟩ := M.check_refused m.hart.pc 4 .fetch (Run.start m) c hpc hacc hc
  have hart : r.s.hart = m.hart := by rw [h]; rfl
  have clock : ((m.hartOf r.s.hart.key).getD r.s.hart).sr.vclk = r.s.hart.sr.vclk := by simp [hart, State.hartOf]
  obtain ⟨r', htrap, hs⟩ := M.trap_run (α := Instr) c m.hart.pc r (hart ▸ htvec) clock
  refine ⟨r.s, h, ?_⟩
  simp only [fetchAtPc, fetchWith, M.fetchScalar, M.fetchBytes, M.bind_run, M.pc_run, Run.start_s, hcheck, M.pure_run, htrap, runFetched, hs]

/-- R50: time passes after a step. -/
theorem finish_eq (t : State) : finish false t = .next { t with
    time := t.time + BitVec.ofNat 64 (Config.ticks t.fresh)
    cycle := if t.host.power ∈ [.shuttered, .reduced, .off] then t.cycle else t.cycle + BitVec.ofNat 64 (Config.cycles t.fresh)
    fresh := t.fresh + 1, rounds := t.rounds + 1 } := by
  rw [finish, exec1_eq]
  cases hp : t.host.power <;> simp [M.tick, Upd.apply, hp]

end Sys2Proof.Proofs
end

section
/-!
PROOFS. On what O58 turns. Its first clause holds where the fetched word lies in one line; the page tables give no other address, and a
translation copy does where the device chooses to use it (R187). So the statement is equivalent to a claim about that free choice.
-/

open Sys2Proof Sys2Proof.Machine Sys2Proof.Claim

namespace Sys2Proof.Proofs

/-! ## The page tables give aligned words -/

theorem leafOf_page {e size pte : Nat} {l : Leaf} (h : leafOf e size pte = .leaf l) : l.base = pteFrame e ∧ l.size = size := by
  simp only [leafOf] at h
  split at h
  · cases h
  · split at h
    · cases h
    · split at h
      · cases h
      · split at h
        · cases h
        · cases h
          exact ⟨rfl, rfl⟩

/-- A page of the tables keeps an aligned word aligned. -/
def KeepsWords (w : WalkRes) : Prop := ∀ l, w = .leaf l → ∀ va, va % 4 = 0 → l.pa va % 4 = 0

theorem leafOf_keepsWords (e size pte : Nat) (h : size % 4 = 0) : KeepsWords (leafOf e size pte) := by
  intro l hl va hva
  obtain ⟨hbase, hsize⟩ := leafOf_page hl
  have offset : va % size % 4 = 0 := by
    rw [Nat.mod_mod_of_dvd va (Nat.dvd_of_mod_eq_zero h), hva]
  rw [Leaf.pa, hbase, hsize, pteFrame]
  omega

theorem fault_keepsWords : KeepsWords .fault := fun _ h => nomatch h

theorem poison_keepsWords (pa : Nat) : KeepsWords (.poison pa) := fun _ h => nomatch h

theorem KeepsWords.ite {c : Prop} [Decidable c] {v w : WalkRes} (hv : KeepsWords v) (hw : KeepsWords w) : KeepsWords (if c then v else w) := by
  split
  · exact hv
  · exact hw

/-- The levels of the table in their order: each entry faults, is poison, is a page, or leads to the next table (R186). -/
theorem walkFrom_keepsWords (s : State) (root va : Nat) : KeepsWords (s.walkFrom root va) := by
  refine .ite fault_keepsWords (.ite (poison_keepsWords _) ?_)
  split
  · exact fault_keepsWords
  refine .ite (poison_keepsWords _) ?_
  split
  · exact fault_keepsWords
  refine .ite fault_keepsWords (.ite (leafOf_keepsWords _ _ _ (by norm_num)) ?_)
  split
  · exact fault_keepsWords
  refine .ite (poison_keepsWords _) ?_
  split
  · exact fault_keepsWords
  · exact .ite fault_keepsWords (.ite (leafOf_keepsWords _ _ _ (by norm_num))
      (.ite (.ite (leafOf_keepsWords _ _ _ (by norm_num)) fault_keepsWords) fault_keepsWords))

/-- Where the device never chooses an old translation, an access uses the walk as the tables stand. -/
theorem taken_tables (h : ∀ k, Config.freeBool k = false) (now : WalkRes) (k : Nat) (l : List (Option Leaf)) : taken now k l = now := by
  induction l generalizing k with
  | nil => rfl
  | cons old l ih => simp [taken, h, ih]

/-- Where the device never chooses an old translation, a word is accessed at an aligned physical address. -/
theorem accessOf_aligned (h : ∀ k, Config.freeBool k = false) {s : State} {va : Word} {n : Nat} {k : Kind} {a : Acc} (hva : va.toNat % 4 = 0)
    (hacc : accessOf s va n k = .ok a) : a.pa % 4 = 0 := by
  rw [accessOf, used, taken_tables h] at hacc
  cases hw : s.walk s.hart.id.vf va.toNat with
  | fault => rw [hw] at hacc; cases hacc
  | poison pa => rw [hw] at hacc; cases hacc
  | leaf l =>
    have aligned : l.pa va.toNat % 4 = 0 := walkFrom_keepsWords _ _ _ l hw _ hva
    rw [hw] at hacc
    simp only [State.checkLeaf] at hacc
    split_ifs at hacc
    cases hacc
    exact aligned

/-- Where the device never chooses an old translation, a step runs the decoded instruction as O58 says. -/
theorem stepRuns_of_tables (h : ∀ k, Config.freeBool k = false) : Obligations.AStepRunsTheDecodedInstruction := by
  intro s m last
  refine ⟨fun hturn a bs hpc hacc hreach hroom hseen hbuf => ?_, fun hturn c htvec hpc hacc hc => ?_, fun c i hturn hctx hi => ?_,
    fun i hturn => ?_, fun k hturn => ?_, fun hturn => ?_, finish_eq⟩
  · obtain ⟨t, hfetches, hruns, htraps⟩ := fetchAtPc_word m a bs hpc hacc hreach hroom hseen hbuf (accessOf_aligned h hpc hacc)
    refine ⟨t, hfetches, fun i hi => ?_, fun hno htvec => ?_⟩
    · rw [step_eq, hturn, ← hruns i hi]; rfl
    · rw [step_eq, hturn, ← htraps hno htvec]; rfl
  · obtain ⟨t, ht, htraps⟩ := fetchAtPc_refused m c htvec hpc hacc hc
    exact ⟨t, ht, by rw [step_eq, hturn, ← htraps]; rfl⟩
  · have word : fetchWord m = .run i m := by simp only [fetchWord, hctx, hi]
    rw [step_eq, hturn]
    exact congrArg (fun f => andThen (runFetched f) (finish s.plan.own)) word
  · rw [step_eq, hturn]; rfl
  · rw [step_eq, hturn]; rfl
  · rw [step_eq, hturn]; rfl

end Sys2Proof.Proofs
end

section
/-!
PROOFS. The old translation that O58 does not exclude: its page begins two bytes before the end of a line, so that the fetched word lies in
two lines. O58 asks for room in the home slice of the first alone; where that of the second is full, the fetch writes bytes of the arrays.
-/

open Sys2Proof Sys2Proof.Machine Sys2Proof.Claim

namespace Sys2Proof.Machine

variable {s0 : State}

/-! ## A line that its home slice cannot take back -/

/-- The arrays after the dirty bytes of a line have gone down to them. -/
def lowered (c : Memory) (l : Line) : Memory :=
  ((List.range 64).filter fun i => l.dirty.getLsbD i).foldl (fun c i => c.writes (64 * l.addr + i) [l.byte i]) c

theorem M.eachCells_run (pa : Nat → Nat) (bs : Nat → List Byte) (is : List Nat) (r : Run s0) :
    ∃ r' : Run s0, M.each is (fun i => M.emit (.cells (pa i) (bs i))) r = .ok (⟨⟩, r')
      ∧ r'.s = { r.s with cells := is.foldl (fun c i => c.writes (pa i) (bs i)) r.s.cells } := by
  induction is generalizing r with
  | nil => exact ⟨r, rfl, rfl⟩
  | cons i is ih =>
    obtain ⟨r', hrun, hs⟩ := ih (r.emit (.cells (pa i) (bs i)))
    exact ⟨r', by rw [M.each_cons_run, M.emit_run]; exact hrun, hs⟩

/-- A write that no read made ahead can meet leaves everything as it is. -/
theorem M.noteHit_none (pa n : Nat) (num : Option (Nat × BitVec 16)) (r : Run s0) (h : ∀ g ∈ r.s.harts, g.early = []) :
    M.noteHit pa n num r = .ok (⟨⟩, r) := by
  have none_ (p : Early → Bool) : (r.s.harts.filter fun g => g.early.any p) = [] :=
    List.filter_eq_nil_iff.mpr fun g hg => by simp [h g hg]
  simp only [M.noteHit, M.bind_run, M.st_run, none_, M.each_nil_run]

/-- R138: where the slice has no room, the dirty bytes go down to the arrays and the copy is gone. -/
theorem M.toSlice_lowers {l : Line} (r : Run s0) (hfind : findLine r.s.img.cache l.addr = some l) (hroom : r.s.cacheRoom l.addr .l2 = false)
    (hregion : regionOf (64 * l.addr) ≠ .weights) (hpoison : l.poison = false) (hdirty : l.dirty ≠ BitVec.allOnes 64)
    (hearly : ∀ g ∈ r.s.harts, g.early = []) : ∃ r' : Run s0, M.toSlice l.addr r = .ok (⟨⟩, r')
      ∧ r'.s = { r.s with cells := lowered r.s.cells l, img := { r.s.img with cache := delLine r.s.img.cache l.addr } } := by
  obtain ⟨r1, hcells, h1⟩ := M.eachCells_run (64 * l.addr + ·) (fun i => [l.byte i]) ((List.range 64).filter fun i => l.dirty.getLsbD i) r
  let r2 := r1.emit (.img { r1.s.img with cache := delLine r1.s.img.cache l.addr })
  have h2 : r2.s = { r.s with cells := lowered r.s.cells l, img := { r.s.img with cache := delLine r.s.img.cache l.addr } } := by
    simp only [r2, Run.emit_s, Upd.apply, h1]
    rfl
  have hit : M.noteHit (64 * l.addr) 64 none r2 = .ok (⟨⟩, r2) := M.noteHit_none _ _ _ _ (by rw [h2]; exact hearly)
  refine ⟨r2, ?_, h2⟩
  simp only [M.toSlice, M.bind_run, M.st_run, M.ite_run, hroom, beq_eq_false_iff_ne.mpr hregion, hfind, hcells, hpoison, hdirty,
    M.modImg_run, Bool.false_and, Bool.or_false, Bool.false_eq_true, if_false]
  exact hit

theorem liveBytes_congr {s t : State} (hcells : s.cells = t.cells) (hcache : s.img.cache = t.img.cache) (pa n : Nat) (ww : Bool) :
    s.liveBytes pa n ww = t.liveBytes pa n ww := by
  simp only [State.liveBytes, State.liveLine, State.arrayLine, hcells, hcache]

end Sys2Proof.Machine

namespace Sys2Proof.Proofs

/-- A copy of a translation whose page does not begin at a multiple of 4: address 0 lies at 62, two bytes before the end of line 0. -/
def shiftedLeaf : Leaf :=
  { base := 62, size := 2 ^ 18, home := 0, ww := true, wset := 0, tkey := 0, sh := false, pin := false, cc := false, wb := false
    x := true, w := false, r := false, pte := 0 }

/-- The second line of the word in an L1, its first two bytes dirty: with the last two bytes of line 0 they are `addi s6, s1, -16`. -/
def secondLine : Line := { addr := 1, data := 0x08C1, dirty := 3, poison := false, level := .l1 0, key := none }

/-- Clean lines that fill the home slice of the second line. -/
def sliceLines : List Line := (List.range 4096).map fun i =>
  { addr := 384 * (i + 1) + 1, data := 0, dirty := 0, poison := false, level := .l2, key := none }

/-- A hart runs at address 0. Its page tables map nothing there. -/
def straddling : State :=
  { State.reset with
    hart := { Hart.free 0 0 with phase := .run }
    cells := [(62, 0xF0), (63, 0xFF)]
    img := { Images.reset with cache := secondLine :: sliceLines, tlb := [{ vf := 0, page := 0, leaf := some shiftedLeaf }] }
    host := { HostPort.reset with keys := HostPort.reset.keys.set 0 { key := 0, loaded := some 0 } }
    inputs := [.scalar 0] }

/-- The same hart once the move of the environment has been taken up. -/
def standing : State := { straddling with inputs := [] }

/-- The state when the free value with number k is the next. -/
def withFresh (s : State) (k : Nat) : State := { s with fresh := k }

theorem plan_withFresh (s : State) (k : Nat) : (withFresh s k).plan = s.plan := rfl

theorem used_withFresh (s : State) (k vf va : Nat) : used (withFresh s k) vf va = taken (s.walk vf va) k (s.tlbOf vf va) := rfl

theorem accessOf_withFresh (s : State) (k : Nat) (va : Word) (n : Nat) (kind : Kind) : accessOf (withFresh s k) va n kind
    = s.checkLeaf s.hart.id.tenant va.toNat n kind (used (withFresh s k) s.hart.id.vf va.toNat) := rfl

theorem roomy_withFresh {s : State} {k la n : Nat} (h : Roomy s la n) : Roomy (withFresh s k) la n := h

theorem seen_withFresh (s : State) (k : Nat) (a : Acc) (n : Nat) : seen (withFresh s k) a n = seen s a n := rfl

/-! ## What the hypotheses of O58 ask for -/

theorem straddling_turn : straddling.plan.turn = .scalar ∧ straddling.plan.own = false := by decide +kernel

theorem straddling_pre : straddling.plan.pre = [.inputs [], .focus 0] := by rfl

theorem straddling_taken_up (k : Nat) : (withFresh straddling k).applyAll (withFresh straddling k).plan.pre = withFresh standing k := by
  have key : (withFresh straddling k).hart.key = 0 := rfl
  rw [plan_withFresh, straddling_pre]
  simp only [State.applyAll, List.foldl, Upd.apply, key, if_true]
  rfl

/-- The access that the old translation gives. -/
def shiftedAcc : Acc := { va := 0, pa := 62, leaf := shiftedLeaf }

/-- The four bytes of `addi s6, s1, -16`. -/
def addiBytes : List Byte := [0xF0, 0xFF, 0xC1, 0x08]

theorem standing_walk : standing.walk 0 0 = .fault ∧ standing.tlbOf 0 0 = [some shiftedLeaf] := by decide +kernel

theorem standing_checkLeaf :
    (match standing.checkLeaf 0 0 4 .fetch (.leaf shiftedLeaf) with | .ok a => a == shiftedAcc | .error _ => false) = true := by
  decide +kernel

/-- Where the device chooses the old translation, the word at address 0 lies at 62. -/
theorem standing_accessOf (k : Nat) (h : Config.freeBool k = true) :
    accessOf (withFresh standing k) (withFresh standing k).hart.pc 4 .fetch = .ok shiftedAcc := by
  obtain ⟨walk, tlb⟩ := standing_walk
  have old : used (withFresh standing k) 0 0 = .leaf shiftedLeaf := by
    rw [used_withFresh, walk, tlb]
    simp [taken, WalkRes.cached, walkOfCached, h]
  have here : standing.hart.id.tenant = 0 ∧ standing.hart.id.vf = 0 ∧ standing.hart.pc.toNat = 0 := by decide +kernel
  obtain ⟨tenant, vf, pc⟩ := here
  rw [accessOf_withFresh, tenant, vf, show (withFresh standing k).hart.pc.toNat = 0 from pc, old]
  have check := standing_checkLeaf
  split at check
  · rename_i a ha
    rw [ha, eq_of_beq check]
  · cases check

theorem standing_reached : Reached standing 0 where
  tails := by decide +kernel
  own := fun _ => by decide +kernel
  far := fun h => absurd rfl h

theorem standing_roomy : Roomy standing 0 1 := by
  unfold Roomy
  decide +kernel

theorem standing_seen : seen standing shiftedAcc 4 = some addiBytes := by decide +kernel

/-! ## What the fetch does -/

theorem standing_lines : findLine standing.img.cache 0 = none ∧ findLine standing.img.cache 1 = some secondLine
    ∧ standing.cacheRoom 1 .l2 = false ∧ standing.firstPoison 62 4 = none := by decide +kernel

/-- The arrays and the caches once the second line has gone down. -/
def settled : State :=
  { standing with
    cells := lowered standing.cells secondLine, img := { standing.img with cache := delLine standing.img.cache 1 } }

theorem settled_bytes : settled.liveBytes 62 4 true = addiBytes ∧ settled.cells.read 64 = 0xC1 ∧ standing.cells.read 64 = 0 := by
  decide +kernel

/-- A state that differs from `standing` in nothing that the read of the word uses. -/
def Stands (t : State) : Prop :=
  ∃ f tlb keys, t = { standing with fresh := f, img := { standing.img with tlb := tlb, keys := keys } }

/-- The read of the word recalls its second line, which goes down to the arrays. -/
theorem readHome_straddling {s0 : State} (r : Run s0) (h : Stands r.s) :
    ∃ r' : Run s0, M.readHome 62 4 .engine true r = .ok (some addiBytes, r') ∧ r'.s.cells = settled.cells ∧ r'.s.hart = standing.hart := by
  obtain ⟨f, tlb, keys, hr⟩ := h
  obtain ⟨first, second, room, clean⟩ := standing_lines
  have cache : r.s.img.cache = standing.img.cache := by rw [hr]
  have full : r.s.cacheRoom 1 .l2 = false := by rw [hr]; exact room
  have poison : r.s.firstPoison 62 4 = none := by rw [hr]; exact clean
  have early : ∀ g ∈ r.s.harts, g.early = [] := by
    rw [hr]
    intro g hg
    rw [List.mem_singleton.mp hg]
    rfl
  obtain ⟨r', hslice, hs⟩ := M.toSlice_lowers (l := secondLine) r (cache ▸ second) full (by decide) rfl (by decide) early
  have line0 : M.openLine 0 .engine true r = .ok (⟨⟩, r) := by
    simp only [M.openLine, M.recallLine, M.bind_run, M.st_run, cache, first, M.pure_run]
    rfl
  have line1 : M.openLine 1 .engine true r = .ok (⟨⟩, r') := by
    have level : secondLine.level = .l1 0 := rfl
    have way : Path.engine.through 1 0 = false := rfl
    simp only [M.openLine, M.recallLine, M.bind_run, M.st_run, cache, second, level, way, Bool.false_eq_true, if_false]
    rw [show secondLine.addr = 1 from rfl] at hslice
    rw [hslice]
    rfl
  have lines : rangeFrom (62 / 64) ((62 + 4 - 1) / 64 + 1 - 62 / 64) = [0, 1] := by decide
  have cells : r'.s.cells = settled.cells := by rw [hs, hr]; rfl
  have bytes : r'.s.liveBytes 62 4 true = addiBytes :=
    (liveBytes_congr cells (by rw [hs, hr]; rfl) ..).trans settled_bytes.1
  refine ⟨r', ?_, cells, by rw [hs, hr]⟩
  have device : ¬ (regionOf 62 == Region.device) = true := by decide
  simp only [M.readHome, M.ite_run, if_neg device, M.bind_run, M.st_run, poison, lines, M.each_cons_run, M.each_nil_run, line0, line1, M.pure_run,
    bytes]

theorem addi_decodes : decodeScalar (BitVec.ofNat 32 (ofBytes addiBytes)) = .ok (.addi 6 1 0xFFF0) := by decide +kernel

/-- Where the device chooses the old translation, the fetch writes bytes of the arrays. -/
theorem fetchAtPc_straddling (k : Nat) (h : Config.freeBool k = true) :
    ∃ t, fetchAtPc (withFresh standing k) = .run (.addi 6 1 0xFFF0) t ∧ t.cells = settled.cells := by
  let r0 : Run (withFresh standing k) := Run.start _
  obtain ⟨r1, hcheck, h1⟩ := M.check_granted r0.s.hart.pc 4 .fetch r0 shiftedAcc rfl (standing_accessOf k h)
  have reach : Reached r1.s 0 := by
    rw [h1]
    exact ⟨standing_reached.tails, standing_reached.own, standing_reached.far⟩
  obtain ⟨r2, hread, hcells, hhart⟩ := readHome_straddling r1 ⟨_, _, _, h1⟩
  obtain ⟨r3, hword, h3⟩ := M.fetched_run r0.s.hart.pc (BitVec.ofNat 32 (ofBytes addiBytes)) r2 (by
    rw [hhart]
    exact fun _ hp => absurd hp List.not_mem_nil)
  refine ⟨r3.s, ?_, by rw [h3, ← hcells]⟩
  have run : (M.fetchScalar : M _ Instr) r0 = .ok (.addi 6 1 0xFFF0, r3) := by
    have read : M.readHome shiftedAcc.pa 4 .engine shiftedAcc.leaf.ww r1 = .ok (some addiBytes, r2) := hread
    have served : M.needServed shiftedAcc.leaf.home r1 = .ok (⟨⟩, r1) := M.needServed_run _ _ reach
    simp only [M.fetchScalar, M.fetchBytes, M.bind_run, M.pc_run, hcheck, served, read, M.pure_run, hword, addi_decodes]
  simp only [fetchAtPc, fetchWith, run, r0]

/-- An immediate addition and the passing of time write no byte of the arrays. -/
theorem addi_keeps_cells (t : State) : ∃ u, andThen (exec (.addi 6 1 0xFFF0) t) (finish false) = .next u ∧ u.cells = t.cells := by
  have run : exec (.addi 6 1 0xFFF0) t = .next (wrote t 6 (t.hart.reg 1 + immS 0xFFF0)) := exec1_aluImm t _ 6 1
  rw [run, andThen, finish_eq]
  exact ⟨_, rfl, rfl⟩

/-- O58 makes a claim about a choice that the model leaves open: that the device never uses an old translation. -/
theorem tables_of_stepRuns (h : Obligations.AStepRunsTheDecodedInstruction) (k : Nat) : Config.freeBool k = false := by
  by_contra hk
  have chosen : Config.freeBool k = true := by simpa using hk
  obtain ⟨turn, own⟩ := straddling_turn
  have step_ : step (withFresh straddling k) = andThen (runFetched (fetchAtPc (withFresh standing k))) (finish false) := by
    rw [step_eq, straddling_taken_up, plan_withFresh, turn, own]
    rfl
  have clause := (h (withFresh straddling k)).1 (by rw [plan_withFresh]; exact turn)
  rw [straddling_taken_up, plan_withFresh, own] at clause
  have reached : Reached (withFresh standing k) 0 := ⟨standing_reached.tails, standing_reached.own, standing_reached.far⟩
  have roomy : Roomy (withFresh standing k) 0 1 := roomy_withFresh standing_roomy
  have sees : seen (withFresh standing k) shiftedAcc 4 = some addiBytes := (seen_withFresh ..).trans standing_seen
  obtain ⟨t, ht, hruns, -⟩ := clause shiftedAcc addiBytes rfl (standing_accessOf k chosen) reached roomy sees
    fun _ hp => absurd hp List.not_mem_nil
  obtain ⟨t', hfetch, hcells⟩ := fetchAtPc_straddling k chosen
  obtain ⟨u, hu, ucells⟩ := addi_keeps_cells t
  obtain ⟨u', hu', ucells'⟩ := addi_keeps_cells t'
  have same : u' = u := by
    have claimed : step (withFresh straddling k) = andThen (exec (.addi 6 1 0xFFF0) t) (finish false) := hruns _ addi_decodes
    rw [step_, hfetch, runFetched, hu', hu] at claimed
    exact Host.Outcome.next.inj claimed
  have kept : u.cells = standing.cells := by rw [ucells, ht]; rfl
  have changed : u.cells = settled.cells := by rw [← same, ucells', hcells]
  obtain ⟨-, after, before⟩ := settled_bytes
  rw [← changed, kept, before] at after
  exact absurd after (by decide)

/-- O58 says no less and no more than that the device never chooses an old translation: `Config.freeBool` is opaque, so that neither the
statement nor its negation follows from the model. -/
theorem stepRuns_iff_tables : Obligations.AStepRunsTheDecodedInstruction ↔ ∀ k, Config.freeBool k = false :=
  ⟨tables_of_stepRuns, stepRuns_of_tables⟩

end Sys2Proof.Proofs
end

section
/-!
PROOFS. The vector queue from the scalar side: how an entry takes its place, waits for one or traps (R17, R98, R99, R104), and how the state
registers are read and written, at once or by an entry of the queue (R19, R50, R51, R110).
-/

open Sys2Proof Sys2Proof.Machine Sys2Proof.Claim

namespace Sys2Proof.Machine

variable {s0 : State} {α : Type}

/-- A part of a meaning that ends the step in the state in which it began. -/
def Stalls (m : M s0 α) (r : Run s0) : Prop := m r = .error (Run.start s0)

/-- An instruction whose meaning stalls leaves the state as it is. -/
theorem Stalls.exec {i : Instr} {s : State} {m : M s PUnit} (he : Machine.exec i s = exec1 s m) (h : Stalls m (Run.start s)) :
    Machine.exec i s = .next s := by
  rw [he, exec1_eq, h]
  rfl

/-- An instruction whose meaning runs to its end answers the state there. -/
theorem exec_of_run {i : Instr} {s t : State} {m : M s PUnit} {r : Run s} (he : exec i s = exec1 s m)
    (hm : m (Run.start s) = .ok (⟨⟩, r)) (ht : r.s = t) : exec i s = .next t := by
  rw [he, exec1_eq, hm, ended_ok, ht]

/-- An instruction whose meaning ends early answers the state there. -/
theorem exec_of_end {i : Instr} {s t : State} {m : M s PUnit} {r : Run s} (he : exec i s = exec1 s m)
    (hm : m (Run.start s) = .error r) (ht : r.s = t) : exec i s = .next t := by
  rw [he, exec1_eq, hm, ended_error, ht]

/-- A part of a meaning that ends early ends the whole. -/
theorem M.bind_error {β : Type} {m : M s0 α} {f : α → M s0 β} {r r' : Run s0} (h : m r = .error r') : (m >>= f) r = .error r' := by
  rw [M.bind_run, h]

/-- A part of a meaning that goes on hands over to the rest. -/
theorem M.bind_ok {β : Type} {m : M s0 α} {f : α → M s0 β} {r r' : Run s0} {a : α} (h : m r = .ok (a, r')) : (m >>= f) r = f a r' := by
  rw [M.bind_run, h]

/-- The first word of an instruction traps with a handler set (R84, R302). -/
theorem M.trap_start {s : State} (c : BitVec 8) (v : Word) (h : s.hart.sr.tvec ≠ 0) :
    ∃ r', (M.trap c v : M s α) (Run.start s) = .error r' ∧ r'.s = trapped s c v :=
  M.trap_run c v (Run.start s) h (by simp [State.hartOf])

/-- A queue with room takes an entry of its kind at its tail, and the scalar stream goes on (R98). -/
theorem enqueue_run (k : QKind) (word : BitVec 32) (b : Bool) (hb : ∀ e : QEntry, e.kind = k → e.isBlock = b) (r : Run s0)
    (room : Room r.s b) : ∃ r', enqueue k word r = .ok (⟨⟩, r') ∧ r'.s = queued r.s k word := by
  have kind (snap seq mark sup pc) : QEntry.isBlock ⟨k, snap, seq, mark, sup, pc, word⟩ = b := hb _ rfl
  have free : ¬ 64 ≤ (r.s.hart.entries.filter fun e => e.isBlock == b).length := Nat.not_le.mpr room
  simp only [enqueue, M.bind_run, M.hart_run, kind, M.ite_run, ge_iff_le, if_neg free, M.modHart_run, M.advance_run]
  exact ⟨_, rfl, rfl⟩

/-- A full queue holds the scalar stream (R98). -/
theorem enqueue_stalls (k : QKind) (word : BitVec 32) (b : Bool) (hb : ∀ e : QEntry, e.kind = k → e.isBlock = b) (r : Run s0)
    (full : ¬ Room r.s b) : Stalls (enqueue k word) r := by
  have kind (snap seq mark sup pc) : QEntry.isBlock ⟨k, snap, seq, mark, sup, pc, word⟩ = b := hb _ rfl
  have taken : 64 ≤ (r.s.hart.entries.filter fun e => e.isBlock == b).length := Nat.not_lt.mp full
  simp only [Stalls, enqueue, M.bind_run, M.hart_run, kind, M.ite_run, ge_iff_le, if_pos taken, M.stall_run]

theorem isBlock_block (t : Word) (n : Option Word) : ∀ e : QEntry, e.kind = .block t n → e.isBlock = true := by
  intro e h
  rw [QEntry.isBlock, h]

theorem isBlock_op {k : QKind} (hk : ∀ t n, k ≠ .block t n) : ∀ e : QEntry, e.kind = k → e.isBlock = false := by
  intro e h
  rw [QEntry.isBlock, h]
  cases k with
  | block t n => exact absurd rfl (hk t n)
  | _ => rfl

/-- The low three bits say whether an address is a multiple of 8. -/
theorem low3_zero (t : Word) : t.extractLsb' 0 3 = 0 ↔ t.toNat % 8 = 0 := by
  rw [← BitVec.toNat_inj]
  simp

/-- A block whose target is a multiple of 8 is only queued. -/
theorem enqueueBlock_aligned (off : BitVec 21) (n : Option Word) (word : BitVec 32) (r : Run s0)
    (h : (jumpTarget r.s.hart.pc off).toNat % 8 = 0) :
    enqueueBlock off n word r = enqueue (.block (jumpTarget r.s.hart.pc off) n) word r := by
  simp [enqueueBlock, (low3_zero _).mpr h]

/-- Any other target traps with cause 0x03 (R98). -/
theorem enqueueBlock_traps {s : State} (off : BitVec 21) (n : Option Word) (word : BitVec 32) (htvec : s.hart.sr.tvec ≠ 0)
    (h : (jumpTarget s.hart.pc off).toNat % 8 ≠ 0) : ∃ r', enqueueBlock off n word (Run.start s) = .error r'
      ∧ r'.s = trapped s 0x03 (jumpTarget s.hart.pc off) := by
  obtain ⟨r', hr, hs⟩ := M.trap_start (α := PUnit) 0x03 (jumpTarget s.hart.pc off) htvec
  refine ⟨r', ?_, hs⟩
  simp only [enqueueBlock, M.bind_run, M.pc_run, Run.start_s, ne_eq, low3_zero, h, not_false_eq_true, if_true, hr]

end Sys2Proof.Machine

namespace Sys2Proof.Proofs

/-- The fields of `vsetl` name a width and a grouping (R17, R36). -/
theorem sewOfField_bits (f : BitVec 2) : (sewOfField f).bits = 8 * 2 ^ f.toNat := by
  revert f
  decide

theorem grpOfField_n (f : BitVec 2) : (grpOfField f).n = 2 ^ f.toNat := by
  revert f
  decide

/-- R98: a block with an aligned target takes its place or waits for one. -/
theorem enqueueBlock_exec {s : State} {i : Instr} (off : BitVec 21) (n : Option Word)
    (he : exec i s = exec1 s (enqueueBlock off n (scalarWord i))) :
    let t := jumpTarget s.hart.pc off
    (t.toNat % 8 = 0 → Room s true → exec i s = .next (queued s (.block t n) (scalarWord i)))
    ∧ (t.toNat % 8 = 0 → ¬ Room s true → exec i s = .next s)
    ∧ (t.toNat % 8 ≠ 0 → s.hart.sr.tvec ≠ 0 → exec i s = .next (trapped s 0x03 t)) := by
  refine ⟨fun h8 room => ?_, fun h8 full => ?_, fun h8 htvec => ?_⟩
  · obtain ⟨r, hr, hs⟩ := enqueue_run (.block _ n) (scalarWord i) true (isBlock_block _ _) (Run.start s) room
    exact exec_of_run he ((enqueueBlock_aligned off n _ _ h8).trans hr) hs
  · exact Stalls.exec he ((enqueueBlock_aligned off n _ _ h8).trans (enqueue_stalls _ _ true (isBlock_block _ _) (Run.start s) full))
  · obtain ⟨r, hr, hs⟩ := enqueueBlock_traps off n (scalarWord i) htvec h8
    exact exec_of_end he hr hs

/-- R17, R99: a grant goes into d at once, and its entry takes a place in the queue. -/
theorem vsetl_exec (s : State) (sew grp : BitVec 2) (d a : Reg) (room : Room s false) :
    let vl := BitVec.ofNat 64 (min (s.hart.reg a).toNat (vlmax (sewOfField sew) (grpOfField grp) s.hart.id.cap))
    exec (.vsetl sew grp d a) s
      = .next (withReg (queued s (.setl vl (sewOfField sew) (grpOfField grp)) (scalarWord (.vsetl sew grp d a))) d vl) := by
  intro vl
  obtain ⟨r, hr, hs⟩ := enqueue_run (.setl vl (sewOfField sew) (grpOfField grp)) (scalarWord (.vsetl sew grp d a)) false
    (isBlock_op (by simp)) (Run.start s) room
  refine exec_of_run rfl ((M.bind_ok (M.hart_run _)).trans ((M.bind_ok hr).trans (M.setReg_run ..))) ?_
  rw [Run.emit_s, hs]
  rfl

theorem vsetl_stalls (s : State) (sew grp : BitVec 2) (d a : Reg) (full : ¬ Room s false) : exec (.vsetl sew grp d a) s = .next s := by
  have stalls := enqueue_stalls (.setl (BitVec.ofNat 64 (min (s.hart.reg a).toNat (vlmax (sewOfField sew) (grpOfField grp) s.hart.id.cap)))
    (sewOfField sew) (grpOfField grp)) (scalarWord (.vsetl sew grp d a)) false (isBlock_op (by simp)) (Run.start s) full
  exact Stalls.exec rfl ((M.bind_ok (M.hart_run _)).trans (M.bind_error stalls))

theorem mxon_traps (s : State) (hrows : s.hart.sr.mgrant = 0) (htvec : s.hart.sr.tvec ≠ 0) :
    exec .mxon s = .next (trapped s 0x08 0) := by
  obtain ⟨r, hr, hs⟩ := M.trap_start (α := PUnit) 0x08 0 htvec
  refine exec_of_end (m := do
    if (← M.hart).sr.mgrant = 0 then M.trap 0x08 0
    enqueue .mxon (scalarWord .mxon)) rfl ?_ hs
  simp only [M.bind_run, M.hart_run, M.ite_run, Run.start_s, hrows, if_true, hr]

theorem mxon_exec (s : State) (hrows : s.hart.sr.mgrant ≠ 0) (room : Room s false) :
    exec .mxon s = .next (queued s .mxon (scalarWord .mxon)) := by
  obtain ⟨r, hr, hs⟩ := enqueue_run .mxon (scalarWord .mxon) false (isBlock_op (by simp)) (Run.start s) room
  refine exec_of_run (m := do
    if (← M.hart).sr.mgrant = 0 then M.trap 0x08 0
    enqueue .mxon (scalarWord .mxon)) rfl ?_ hs
  simp only [M.bind_run, M.hart_run, M.ite_run, Run.start_s, hrows, if_false, hr]

/-- Settles O5: a place in the queue is taken by the one operation that all of these words share. -/
theorem queueOperationsTakeTheirPlace : Obligations.QueueOperationsTakeTheirPlace := by
  intro s d a off sew grp t w width regs vl
  obtain ⟨fbPlace, fbWait, fbTrap⟩ := enqueueBlock_exec (s := s) (i := .vfb off) off none rfl
  obtain ⟨loopPlace, loopWait, loopTrap⟩ := enqueueBlock_exec (s := s) (i := .vloop a off) off (some (s.hart.reg a)) rfl
  refine ⟨fun h8 room => ⟨fbPlace h8 room, loopPlace h8 room⟩, fun h8 full => ⟨fbWait h8 full, loopWait h8 full⟩,
    fun h8 htvec => ⟨fbTrap h8 htvec, loopTrap h8 htvec⟩, fun room => ?_, fun room => ?_, fun room hrows => mxon_exec s hrows room,
    mxon_traps s, fun full => ⟨?_, ?_⟩⟩
  · refine ⟨sewOfField sew, grpOfField grp, sewOfField_bits sew, grpOfField_n grp, ?_⟩
    rw [vsetl_exec s sew grp d a room, vlmax, sewOfField_bits, grpOfField_n]
    rfl
  · obtain ⟨r, hr, hs⟩ := enqueue_run .mxoff (scalarWord .mxoff) false (isBlock_op (by simp)) (Run.start s) room
    exact exec_of_run rfl hr hs
  · exact Stalls.exec rfl (enqueue_stalls .mxoff (scalarWord .mxoff) false (isBlock_op (by simp)) _ full)
  · exact vsetl_stalls s sew grp d a full

end Sys2Proof.Proofs
end

section
/-!
PROOFS. The state registers (R50, R51, R110): which numbers the table lists, what an access to each may do, and what a write leaves.
-/

open Sys2Proof Sys2Proof.Machine Sys2Proof.Claim

namespace Sys2Proof.Machine

variable {s0 : State}

/-- The numbers of R50. -/
def srNumbers : List Nat :=
  [0x000, 0x001, 0x002, 0x003, 0x004, 0x010, 0x011, 0x012, 0x013, 0x014, 0x015, 0x016, 0x020, 0x021, 0x030, 0x031, 0x040, 0x041, 0x042,
   0x043, 0x044, 0x045, 0x046, 0x047, 0x050, 0x051, 0x052, 0x053, 0x054, 0x055, 0x056, 0x057, 0x058, 0x060, 0x070, 0x071, 0x080, 0x081]

/-- The table of R50 lists what the model reads. -/
theorem srValues_eq (s : State) : srValues s = srNumbers.map fun n => (n, s.srRead n) := rfl

theorem mem_srValues {s : State} {n : Nat} {v : Word} (h : (n, v) ∈ srValues s) : n ∈ srNumbers ∧ s.srRead n = v := by
  rw [srValues_eq, List.mem_map] at h
  obtain ⟨k, hk, he⟩ := h
  obtain ⟨rfl, rfl⟩ := Prod.mk.inj he
  exact ⟨hk, rfl⟩

/-- The user reads every register of the table but those of the traps. -/
theorem srAccess_listed : ∀ n ∈ srNumbers, ∃ uw w, srAccess n = some (!(decide (0x040 ≤ n) && decide (n ≤ 0x047)), uw, w) := by
  decide

theorem srAccess_readOnly {n : Nat} (h : readOnly n) : srAccess n = some (true, false, false) := by
  rcases h with h | rfl | rfl | rfl | rfl | rfl
  · simp [srAccess, h]
  all_goals rfl

theorem srAccess_ordered {n : Nat} (h : ordered n) : srAccess n = some (true, true, true) := by
  rcases h with h | rfl | rfl
  · have low : ¬ n ≤ 4 := by omega
    simp [srAccess, h, low]
  all_goals rfl

theorem srQueued_iff (n : Nat) : srQueued n = true ↔ ordered n := by
  simp [srQueued, ordered, or_assoc]

theorem not_ordered_of_readOnly {n : Nat} (h : readOnly n) : ¬ ordered n := by
  simp only [readOnly, ordered] at *
  omega

/-- A register that a write changes at once, without the queue and without an action of its own. -/
structure PlainSr (n : Nat) : Prop where
  access : ∃ ur uw, srAccess n = some (ur, uw, true)
  unordered : ¬ ordered n
  notVown : n ≠ 0x016
  notSavep : n ≠ 0x046

/-- The table of plain writes lists plain registers, and what the model writes. -/
theorem mem_srWritten {r r' : SRegs} {v : Word} {n : Nat} (h : (n, r') ∈ srWritten r v) : PlainSr n ∧ r.write n v = r' := by
  have plain (k : Nat) (ha : ∃ ur uw, srAccess k = some (ur, uw, true)) (hq : srQueued k = false) (h1 : k ≠ 0x016) (h2 : k ≠ 0x046) :
      PlainSr k := ⟨ha, by rw [← srQueued_iff, hq]; simp, h1, h2⟩
  rcases List.mem_append.mp h with h | h
  · simp only [List.mem_cons, Prod.mk.injEq, List.not_mem_nil, or_false] at h
    rcases h with ⟨rfl, rfl⟩ | ⟨rfl, rfl⟩ | ⟨rfl, rfl⟩ | ⟨rfl, rfl⟩ | ⟨rfl, rfl⟩ | ⟨rfl, rfl⟩ | ⟨rfl, rfl⟩ | ⟨rfl, rfl⟩ <;>
      exact ⟨plain _ ⟨_, _, rfl⟩ rfl (by decide) (by decide), rfl⟩
  · obtain ⟨k, hk, he⟩ := List.mem_map.mp h
    obtain ⟨rfl, rfl⟩ := Prod.mk.inj he
    have hk : k < 8 := List.mem_range.mp hk
    interval_cases k <;> exact ⟨plain _ ⟨_, _, rfl⟩ rfl (by decide) (by decide), rfl⟩

/-- A value that a write may give the register (R51). -/
def SrValueOk (n : Nat) (v : Word) : Prop := (n = 0x011 → v.toNat ∈ [1, 2, 4, 8]) ∧ (n = 0x012 → v.toNat ∈ [8, 16, 32, 64])

theorem grpOfNat_isNone : ∀ k ∈ [1, 2, 4, 8], (grpOfNat k).isNone = false := by decide

theorem sewOfNat_isNone : ∀ k ∈ [8, 16, 32, 64], (sewOfNat k).isNone = false := by decide

/-- The checks of an access pass where the mode allows it and a written value is legal (R51). -/
theorem srCheck_passes {n : Nat} {write ur uw w : Bool} {v word : Word} {r : Run s0} (ha : srAccess n = some (ur, uw, w))
    (mode : r.s.hart.sr.status.sv = true ∨ (ur = true ∧ write = false)) (value : write = true → SrValueOk n v) :
    srCheck n write v word r = .ok (⟨⟩, r) := by
  have allowed : (!r.s.hart.sup && (!ur || (write && !uw))) = false := by
    rcases mode with sv | ⟨rfl, rfl⟩
    · simp [Hart.sup, sv]
    · simp
  have legal : (write && ((decide (n = 0x011) && (grpOfNat v.toNat).isNone) || (decide (n = 0x012) && (sewOfNat v.toNat).isNone)))
      = false := by
    cases write
    · rfl
    · obtain ⟨grp, sew⟩ := value rfl
      by_cases h1 : n = 0x011
      · simp [h1, grpOfNat_isNone _ (grp h1)]
      · by_cases h2 : n = 0x012
        · simp [h2, sewOfNat_isNone _ (sew h2)]
        · simp [h1, h2]
  simp only [srCheck, ha, M.bind_run, M.hart_run, M.ite_run, allowed, legal]
  rfl

/-- A read goes on where nothing of the queue is before it (R19). -/
theorem srWait_passes {n : Nat} {r : Run s0} (h : ordered n → r.s.hart.queue = [] ∧ r.s.hart.ctx = none) : srWait n r = .ok (⟨⟩, r) := by
  by_cases hn : ordered n
  · simp [srWait, h hn]
  · have hq : srQueued n = false := by simpa [← srQueued_iff] using hn
    simp [srWait, hq]

theorem srWait_stalls {n : Nat} {r : Run s0} (hn : ordered n) (h : ¬ (r.s.hart.queue = [] ∧ r.s.hart.ctx = none)) :
    Stalls (srWait n) r := by
  have busy : r.s.hart.queue = [] → ¬ r.s.hart.ctx = none := fun hq hc => h ⟨hq, hc⟩
  simpa [Stalls, srWait, (srQueued_iff n).mpr hn] using busy

/-- A read-only register ignores the write (R50). -/
theorem srWrite_readOnly {n : Nat} (h : readOnly n) (v : Word) (word : BitVec 32) (r : Run s0) :
    ∃ r', srWrite n v word r = .ok (⟨⟩, r') ∧ r'.s = onward r.s := by
  simp only [srWrite, srAccess_readOnly h]
  exact ⟨_, rfl, rfl⟩

/-- A register of R19 is written by an entry of the queue. -/
theorem srWrite_ordered {n : Nat} (h : ordered n) (v : Word) (word : BitVec 32) (r : Run s0) (room : Room r.s false) :
    ∃ r', srWrite n v word r = .ok (⟨⟩, r') ∧ r'.s = queued r.s (.write n v) word := by
  simp only [srWrite, srAccess_ordered h, (srQueued_iff n).mpr h, if_true]
  exact enqueue_run _ _ false (isBlock_op (by simp)) r room

/-- A plain register takes its value at once (R51). -/
theorem srWrite_plain {n : Nat} (h : PlainSr n) (v : Word) (word : BitVec 32) (r : Run s0) :
    ∃ r', srWrite n v word r = .ok (⟨⟩, r') ∧ r'.s = onward { r.s with hart := { r.s.hart with sr := r.s.hart.sr.write n v } } := by
  obtain ⟨⟨ur, uw, ha⟩, hord, hvown, hsavep⟩ := h
  have hq : srQueued n = false := by simpa [← srQueued_iff] using hord
  simp only [srWrite, ha, hq, hvown, hsavep]
  exact ⟨_, rfl, rfl⟩

/-- It is the same to go on before or after a register is written. -/
theorem withReg_onward (s : State) (d : Reg) (v : Word) : withReg (onward s) d v = wrote s d v := by
  simp only [wrote, withReg, onward, goTo]
  split <;> rfl

end Sys2Proof.Machine

namespace Sys2Proof.Proofs

/-- R110: a register that may be read is read once the queue lets it. -/
theorem getsr_exec {s : State} {d : Reg} {n : BitVec 12} {v : Word} (hv : (n.toNat, v) ∈ srValues s)
    (mode : s.hart.sr.status.sv = true ∨ ¬ supOnly n.toNat) :
    ((ordered n.toNat → s.hart.queue = [] ∧ s.hart.ctx = none) → exec (.getsr d n) s = .next (wrote s d v))
    ∧ (ordered n.toNat → ¬ (s.hart.queue = [] ∧ s.hart.ctx = none) → exec (.getsr d n) s = .next s) := by
  obtain ⟨listed, rfl⟩ := mem_srValues hv
  obtain ⟨uw, w, ha⟩ := srAccess_listed _ listed
  have check : srCheck n.toNat false 0 (tvalOf (.getsr d n)) (Run.start s) = .ok (⟨⟩, Run.start s) :=
    srCheck_passes ha (mode.imp_right fun h => ⟨by simpa [supOnly, imp_iff_not_or] using h, rfl⟩) nofun
  refine ⟨fun free => ?_, fun hn busy => ?_⟩
  · refine exec_of_run rfl ((M.bind_ok check).trans ((M.bind_ok (srWait_passes free)).trans rfl)) ?_
    rfl
  · exact Stalls.exec rfl ((M.bind_ok check).trans (M.bind_error (srWait_stalls hn busy)))

/-- R110: `setsr` in supervisor mode leaves what the write of its register leaves. -/
theorem setsr_exec {s t : State} {a : Reg} {n : BitVec 12} {ur uw w : Bool} (ha : srAccess n.toNat = some (ur, uw, w))
    (sv : s.hart.sr.status.sv = true) (value : SrValueOk n.toNat (s.hart.reg a))
    (hw : ∃ r', srWrite n.toNat (s.hart.reg a) (scalarWord (.setsr a n)) (Run.start s) = .ok (⟨⟩, r') ∧ r'.s = t) :
    exec (.setsr a n) s = .next t := by
  obtain ⟨r, hr, hs⟩ := hw
  have check := srCheck_passes (word := tvalOf (.setsr a n)) (r := Run.start s) ha (.inl sv) fun _ : true = true => value
  exact exec_of_run rfl ((M.bind_ok (M.rd_run _ _)).trans ((M.bind_ok check).trans hr)) hs

/-- R110: `swapsr` leaves the same, and the old value in d. -/
theorem swapsr_exec {s t : State} {d a : Reg} {n : BitVec 12} {ur uw w : Bool} (ha : srAccess n.toNat = some (ur, uw, w))
    (sv : s.hart.sr.status.sv = true) (value : SrValueOk n.toNat (s.hart.reg a))
    (free : ordered n.toNat → s.hart.queue = [] ∧ s.hart.ctx = none)
    (hw : ∃ r', srWrite n.toNat (s.hart.reg a) (scalarWord (.swapsr d a n)) (Run.start s) = .ok (⟨⟩, r') ∧ r'.s = t) :
    exec (.swapsr d a n) s = .next (withReg t d (s.srRead n.toNat)) := by
  obtain ⟨r, hr, rfl⟩ := hw
  have check := srCheck_passes (word := tvalOf (.swapsr d a n)) (r := Run.start s) ha (.inl sv) fun _ : true = true => value
  have wait := srWait_passes (r := Run.start s) free
  exact exec_of_run rfl ((M.bind_ok (M.rd_run _ _)).trans ((M.bind_ok check).trans ((M.bind_ok wait).trans
    ((M.bind_ok (M.st_run _)).trans ((M.bind_ok hr).trans (M.setReg_run ..)))))) rfl

/-- Settles O8: the checks of an access and the three effects of a write are those of the shared operations. -/
theorem stateRegistersReadAndTakeWrites : Obligations.StateRegistersReadAndTakeWrites := by
  refine ⟨fun s d n v hv mode => getsr_exec hv mode, fun s d a n old sv hold => ?_⟩
  obtain ⟨-, rfl⟩ := mem_srValues hold
  have other (h : ¬ ordered n.toNat) (v : Word) : SrValueOk n.toNat v := by
    simp only [ordered, SrValueOk] at *
    omega
  refine ⟨fun r hr => ?_, fun hro => ?_, fun hord room grp sew => ?_⟩
  · obtain ⟨plain, rfl⟩ := mem_srWritten hr
    obtain ⟨ur, uw, ha⟩ := plain.access
    have value := other plain.unordered (s.hart.reg a)
    exact ⟨setsr_exec ha sv value (srWrite_plain plain _ _ _),
      swapsr_exec ha sv value (fun h => absurd h plain.unordered) (srWrite_plain plain _ _ _)⟩
  · have ha := srAccess_readOnly hro
    have value := other (not_ordered_of_readOnly hro) (s.hart.reg a)
    refine ⟨setsr_exec ha sv value (srWrite_readOnly hro _ _ _), ?_⟩
    rw [swapsr_exec ha sv value (fun h => absurd h (not_ordered_of_readOnly hro)) (srWrite_readOnly hro _ _ _), withReg_onward]
    rfl
  · have ha := srAccess_ordered hord
    exact ⟨setsr_exec ha sv ⟨grp, sew⟩ (srWrite_ordered hord _ _ _ room),
      fun hq hc => swapsr_exec ha sv ⟨grp, sew⟩ (fun _ => ⟨hq, hc⟩) (srWrite_ordered hord _ _ _ room)⟩

end Sys2Proof.Proofs
end

section
/-!
PROOFS. Elements in vector registers (R16): what a write of some elements leaves of the others and of the other registers (R116).
-/

open Sys2Proof Sys2Proof.Machine Sys2Proof.Claim

namespace Sys2Proof.Machine

/-- The bits of a register after w bits at an offset have been replaced. -/
theorem getLsbD_putField (r : VReg) (off w v i : Nat) (hi : i < 8192) :
    (putField r off w v).getLsbD i = if off ≤ i ∧ i < off + w then v.testBit (i - off) else r.getLsbD i := by
  simp only [putField, BitVec.getLsbD_or, BitVec.getLsbD_and, BitVec.getLsbD_not, BitVec.getLsbD_shiftLeft, BitVec.getLsbD_ofNat,
    Nat.testBit_two_pow_sub_one, Nat.testBit_mod_two_pow, hi, decide_true, Bool.true_and]
  by_cases h1 : i < off
  · simp [h1, Nat.not_le.mpr h1]
  · by_cases h2 : i - off < w
    · have : i < off + w := by omega
      simp [h1, h2, this, Nat.not_lt.mp h1, show i - off < 8192 by omega]
    · have : ¬ i < off + w := by omega
      simp [h2, this]

/-- A replaced field reads as what was put there. -/
theorem extract_putField_same (r : VReg) (off w v : Nat) (h : off + w ≤ 8192) :
    ((putField r off w v).extractLsb' off w).toNat = v % 2 ^ w := by
  have : (putField r off w v).extractLsb' off w = BitVec.ofNat w v := by
    ext i hi
    rw [BitVec.getElem_extractLsb', getLsbD_putField _ _ _ _ _ (by omega), if_pos (by omega), Nat.add_sub_cancel_left, ← BitVec.getLsbD_eq_getElem,
      BitVec.getLsbD_ofNat]
    simp [hi]
  rw [this, BitVec.toNat_ofNat]

/-- A field apart from the replaced one reads as before. -/
theorem extract_putField_apart (r : VReg) (off off' w v : Nat) (h : off' + w ≤ 8192) (apart : off + w ≤ off' ∨ off' + w ≤ off) :
    (putField r off w v).extractLsb' off' w = r.extractLsb' off' w := by
  ext i hi
  rw [BitVec.getElem_extractLsb', BitVec.getElem_extractLsb', getLsbD_putField _ _ _ _ _ (by omega), if_neg (by omega)]

namespace VecState

/-- A write of bits changes the register where they lie. -/
theorem reg_putBits (vs : VecState) (n off w v r : Nat) (h : n + off / 8192 < 32) :
    (vs.putBits n off w v).reg r = if r = n + off / 8192 then putField (vs.reg r) (off % 8192) w v else vs.reg r := by
  simp only [putBits, reg, List.getD_eq_getElem?_getD, Vector.toList_setIfInBounds, List.getElem?_set, Vector.length_toList]
  by_cases hr : r = n + off / 8192
  · simp [hr, h]
  · simp [hr, Ne.symm hr]

/-- One element written: read back at its place, and every other element of the group as before. -/
theorem elem_setElem (vs : VecState) {vd w e e' : Nat} (v : Nat) (hw : w ∈ [8, 16, 32, 64]) (he : vd + e * w / 8192 < 32) :
    (vs.setElem vd w e v).elem vd w e' = if e' = e then v % 2 ^ w else vs.elem vd w e' := by
  simp only [setElem, elem, bitsAt, reg_putBits _ _ _ _ _ _ he]
  have fits : e' * w % 8192 + w ≤ 8192 := by
    simp only [List.mem_cons, List.not_mem_nil, or_false] at hw
    rcases hw with rfl | rfl | rfl | rfl <;> omega
  by_cases hee : e' = e
  · subst hee
    rw [if_pos rfl, if_pos rfl, extract_putField_same _ _ _ _ fits]
  · rw [if_neg hee]
    by_cases hr : vd + e' * w / 8192 = vd + e * w / 8192
    · rw [if_pos hr, extract_putField_apart _ _ _ _ _ fits]
      simp only [List.mem_cons, List.not_mem_nil, or_false] at hw
      rcases hw with rfl | rfl | rfl | rfl <;> omega
    · rw [if_neg hr]

theorem putElems_cons (vs : VecState) (vd w e : Nat) (es : List Nat) (g : Nat → Nat) :
    vs.putElems vd w (e :: es) g = (vs.setElem vd w e (g e)).putElems vd w es g := rfl

theorem elem_putElems (vs : VecState) {vd w : Nat} (es : List Nat) (g : Nat → Nat) (hw : w ∈ [8, 16, 32, 64])
    (hes : ∀ e ∈ es, vd + e * w / 8192 < 32) (e : Nat) :
    (vs.putElems vd w es g).elem vd w e = if e ∈ es then g e % 2 ^ w else vs.elem vd w e := by
  induction es generalizing vs with
  | nil => simp [putElems]
  | cons k es ih =>
    rw [putElems_cons, ih _ fun e he => hes e (List.mem_cons_of_mem _ he), elem_setElem _ _ hw (hes k List.mem_cons_self)]
    by_cases hk : e = k
    · simp [hk]
    · simp [hk]

theorem reg_putElems (vs : VecState) {vd w r : Nat} (es : List Nat) (g : Nat → Nat) (hes : ∀ e ∈ es, vd + e * w / 8192 < 32)
    (hr : ∀ e ∈ es, r ≠ vd + e * w / 8192) : (vs.putElems vd w es g).reg r = vs.reg r := by
  induction es generalizing vs with
  | nil => rfl
  | cons k es ih =>
    rw [putElems_cons, ih _ (fun e he => hes e (List.mem_cons_of_mem _ he)) fun e he => hr e (List.mem_cons_of_mem _ he), setElem,
      reg_putBits _ _ _ _ _ _ (hes k List.mem_cons_self), if_neg (hr k List.mem_cons_self)]

/-- Element writes leave the mask registers and the return slots. -/
theorem putElems_rest (vs : VecState) (vd w : Nat) (es : List Nat) (g : Nat → Nat) :
    (vs.putElems vd w es g).m = vs.m ∧ (vs.putElems vd w es g).vq = vs.vq := by
  induction es generalizing vs with
  | nil => exact ⟨rfl, rfl⟩
  | cons k es ih => exact ih _

end VecState

end Sys2Proof.Machine

namespace Sys2Proof.Proofs

/-- Settles O19, by induction on the list of written elements. -/
theorem elementWritesTouchOnlyTheirElement : Obligations.ElementWritesTouchOnlyTheirElement := by
  intro vs vd w es g hw hes
  exact ⟨fun e _ => vs.elem_putElems es g hw hes e, fun r hr => vs.reg_putElems es g hes hr, vs.putElems_rest vd w es g⟩

end Sys2Proof.Proofs
end

section
/-!
PROOFS. A vector word that is issued for the whole strip (R116, R172, R380): its frame, the checks it passes, and where it leaves the block;
then the words that steer a block (R20, R21, R23, R24, R154, R156, R158, R160).
-/

open Sys2Proof Sys2Proof.Machine Sys2Proof.Claim

namespace Sys2Proof.Machine

variable {s0 : State} {α : Type}

/-- The frame of a word issued for the whole strip. -/
def stripEnv (s : State) : VEnv := { lim := limit s, act := none, region := false, probe := false }

theorem M.frame_run (r : Run s0) : M.frame r = .ok (stripEnv r.s, r) := rfl

/-- The elements of a mask that the frame of the strip performs. -/
theorem stripEnv_elems (s : State) (m : Mask) : (stripEnv s).elems m = (List.range (limit s)).filter fun e => m.getLsbD e := rfl

theorem stripEnv_performed (s : State) (m : Mask) (e : Nat) : (stripEnv s).performed m e = (decide (e < limit s) && m.getLsbD e) := by
  rw [VEnv.performed, VEnv.active, stripEnv, Bool.and_true]

/-- A word that reads no destination of an earlier `vamo` passes the guard of R380. -/
theorem M.vamoGuard_run {r : Run s0} (env : VEnv) (h : Unguarded r.s) : M.vamoGuard env r = .ok (⟨⟩, r) := by
  rw [Unguarded] at h
  simp only [M.vamoGuard, M.bind_run, M.hart_run]
  cases hc : r.s.hart.ctx with
  | none => rfl
  | some c =>
    simp only [hc] at h
    have off : ¬ (decide (r.s.hart.sr.vl ≠ 0) && c.exitAhead
        && spansMeet (M.readsAt c r.s.hart.sr.vgrp.n r.s.hart.sr.vl.toNat) (M.vamoDests c r.s.hart.sr.vgrp.n)) = true := by
      simpa only [Bool.and_eq_true, decide_eq_true_eq, and_assoc] using h
    exact congrFun (if_neg off) r

/-- Outside matrix mode and outside a region the mode checks pass (R162, R172). -/
theorem M.modeCheck_run {r : Run s0} {env : VEnv} (l : M.Legal) (hregion : env.region = false) (hmode : r.s.hart.sr.mmode = false) :
    M.modeCheck env l none r = .ok (⟨⟩, r) := by
  simp [M.modeCheck, hregion, hmode]

theorem M.needSew_run {r : Run s0} {w : Nat} (env : VEnv) (h : r.s.hart.sr.sew.bits = w) : M.needSew env w r = .ok (⟨⟩, r) := by
  simp [M.needSew, h]

theorem M.needGroups_run {r : Run s0} {rs : List Reg} (env : VEnv) (h : ∀ q ∈ rs, q.toNat % r.s.hart.sr.vgrp.n = 0) :
    M.needGroups env rs r = .ok (⟨⟩, r) := by
  have none_ : (rs.any fun q => decide (q.toNat % r.s.hart.sr.vgrp.n ≠ 0)) = false := by
    simpa using h
  simp only [M.needGroups, M.bind_run, M.hart_run, M.ite_run, none_]
  rfl

@[simp] theorem M.vec_run (r : Run s0) : M.vec r = .ok (r.s.hart.vec, r) := rfl

@[simp] theorem M.vecAdvance_run (r : Run s0) : M.vecAdvance r
    = .ok (⟨⟩, r.emit (.hart { r.s.hart with ctx := r.s.hart.ctx.map fun c => { c with idx := c.idx + 1 } })) := rfl

/-- A word whose core goes on leaves the block at the next word. -/
theorem vexec_next {s : State} {core : VEnv → M s PUnit} {r : Run s} (h : Unguarded s)
    (hcore : core (stripEnv s) (Run.start s) = .ok (⟨⟩, r)) : vexec s core = .next (vecNext r.s r.s.hart.vec) := by
  rw [vexec, exec1_eq, M.bind_ok (M.frame_run _), Run.start_s, M.bind_ok (M.vamoGuard_run _ h), M.bind_ok hcore]
  rfl

/-- A word that sets the next word itself leaves the state where its core ends. -/
theorem vexecJump_next {s : State} {core : VEnv → M s PUnit} {r : Run s} (h : Unguarded s)
    (hcore : core (stripEnv s) (Run.start s) = .ok (⟨⟩, r)) : vexecJump s core = .next r.s := by
  rw [vexecJump, exec1_eq, M.bind_ok (M.frame_run _), Run.start_s, M.bind_ok (M.vamoGuard_run _ h), hcore]
  rfl

/-- The next word of a running block. -/
theorem vecNext_some {s : State} {c : LoopCtx} (h : s.hart.ctx = some c) : vecNext s s.hart.vec = inBlock s { c with idx := c.idx + 1 } := by
  simp [vecNext, inBlock, h]

/-! ## Branches of a block -/

@[simp] theorem M.gangOf_run (h : Hart) (r : Run s0) :
    M.gangOf h r = .ok (r.s.disp.gangs.find? (fun g => g.die == h.id.did && g.gid == h.id.gid), r) := rfl

/-- A taken branch goes to its target, and stops there where a pre-emption is pending (R156, R157). -/
theorem takeBranch_run (f : VWord) {r : Run s0} {c : LoopCtx} (hc : r.s.hart.ctx = some c) :
    ∃ r', takeBranch f r = .ok (⟨⟩, r') ∧ r'.s = branched r.s c f true := by
  simp only [takeBranch, M.bind_run, M.hart_run, hc, M.goTo, M.modHart_run, M.ite_run, M.gangOf_run]
  by_cases back : (decide (branchTarget f c.idx < c.idx) && c.parked.isEmpty) = true
  · simp only [back, if_true, Run.emit_s, hart_disp]
    cases hg : r.s.disp.gangs.find? fun g => g.die == r.s.hart.id.did && g.gid == r.s.hart.id.gid with
    | none => exact ⟨_, rfl, by simp [branched, inBlock, pausing, hg, Upd.apply]⟩
    | some g =>
      cases hp : g.phase <;> simp only [hp] <;> exact ⟨_, rfl, by simp [branched, inBlock, pausing, hg, hp, Upd.apply, back]⟩
  · simp only [back]
    exact ⟨_, rfl, by simp [branched, inBlock, Upd.apply, back]⟩

/-- A branch that is not taken goes on at the next word (R156). -/
theorem vecAdvance_branched (f : VWord) {r : Run s0} {c : LoopCtx} (hc : r.s.hart.ctx = some c) :
    ∃ r', M.vecAdvance r = .ok (⟨⟩, r') ∧ r'.s = branched r.s c f false :=
  ⟨_, rfl, by simp [branched, inBlock, hc, Upd.apply]⟩

/-- The elements that a uniform branch tests (R23). -/
def branchTested (s : State) (c : LoopCtx) (f : VWord) : List Nat :=
  (List.range (min (if c.fired then min s.hart.sr.vl.toNat (c.stop.getD 8192) else s.hart.sr.vl.toNat) 8192)).filter
    fun e => (s.hart.vec.mask f.m.toNat).getLsbD e

/-- How a uniform branch goes: as it went when the exit of the strip was resolved, or else by the tested bits (R24). -/
def branchAnswer (c : LoopCtx) (now : Bool) : Bool :=
  match c.taken.find? fun t => t.1 == c.idx with
  | some t => if c.exitAhead then t.2 else now
  | none => now

/-- A uniform branch goes by the bits of its mask over the tested elements (R23). -/
theorem uniform_run (f : VWord) (g : Bool → Bool → Bool) {r : Run s0} {c : LoopCtx} (hc : r.s.hart.ctx = some c)
    (hmode : r.s.hart.sr.mmode = false) :
    let m := r.s.hart.vec.mask (f.va.toNat % 8)
    let tested := branchTested r.s c f
    ∃ r', uniform f (stripEnv r.s) g r = .ok (⟨⟩, r')
      ∧ r'.s = branched r.s c f (branchAnswer c (g (tested.any fun e => m.getLsbD e) (tested.all fun e => m.getLsbD e))) := by
  intro m tested
  have goes (take : Bool) : ∃ r', (if take then takeBranch f else M.vecAdvance) r = .ok (⟨⟩, r') ∧ r'.s = branched r.s c f take := by
    cases take
    · exact vecAdvance_branched f hc
    · exact takeBranch_run f hc
  rw [uniform, M.bind_ok (M.modeCheck_run (env := stripEnv r.s) M.plain rfl hmode), M.bind_ok (M.hart_run r), M.bind_ok (M.vec_run r)]
  simp only [hc, stripEnv, branchAnswer]
  cases c.exitAhead <;> cases c.taken.find? (fun t => t.1 == c.idx) <;> exact goes _

/-! ## Exits and the end of a strip -/

/-- A strip that has not run towards a trap has nothing to close (R24). -/
theorem M.closePass_none {r : Run s0} {c : LoopCtx} (hc : r.s.hart.ctx = some c) (hp : c.pass = none) (stop : Option Nat) :
    M.closePass stop r = .ok (⟨⟩, r) := by
  simp [M.closePass, hc, hp]

/-- The answer of a `vexit`: as resolved with the exit of the strip, or else the first element whose bit is set (R24). -/
def exitAnswer (c : LoopCtx) (now : Option Nat) : Option Nat :=
  match c.taken.find? fun t => t.1 == c.idx with
  | some t => if c.resolved then (if t.2 then c.stop else none) else now
  | none => now

/-- The state behind a `vexit` that fires at an element, or at none (R24, R158). -/
def exited (s : State) (c : LoopCtx) : Option Nat → State
  | none => inBlock s { c with idx := c.idx + 1, kept := if c.exitAhead then c.kept else [] }
  | some e => { s with hart := { s.hart with
      sr := { s.hart.sr with xstop := s.hart.sr.sb + BitVec.ofNat 64 e },
      ctx := some { c with idx := c.idx + 1, kept := [], resolved := true, stop := some e, fired := true } } }

/-- A `vexit` that has fired in the strip does nothing more (R158). -/
theorem vexitCore_fired (f : VWord) {r : Run s0} {c : LoopCtx} (hc : r.s.hart.ctx = some c) (hmode : r.s.hart.sr.mmode = false)
    (hf : c.fired = true) : vexitCore f (stripEnv r.s) r = .ok (⟨⟩, r) := by
  rw [vexitCore, M.bind_ok (M.modeCheck_run (env := stripEnv r.s) M.plain rfl hmode), M.bind_ok (M.hart_run r)]
  simp [hc, hf]

/-- What a `vexit` does with its answer. -/
def M.takeExit (c : LoopCtx) (answer : Option Nat) : M s0 PUnit := do
  if answer.isSome || !c.exitAhead then M.closePass answer
  match answer with
  | none => if c.exitAhead then pure ⟨⟩ else M.modHart fun h => { h with ctx := h.ctx.map fun c => { c with kept := [] } }
  | some e =>
    M.modHart fun h => { h with
      ctx := h.ctx.map fun c => { c with kept := [], resolved := true, stop := some e, fired := true },
      sr := { h.sr with xstop := h.sr.sb + BitVec.ofNat 64 e } }

theorem M.takeExit_run {r : Run s0} {c : LoopCtx} (hc : r.s.hart.ctx = some c) (hp : c.pass = none) (answer : Option Nat) :
    ∃ r', M.takeExit c answer r = .ok (⟨⟩, r') ∧ vecNext r'.s r'.s.hart.vec = exited r.s c answer := by
  simp only [M.takeExit, M.ite_run, M.bind_run, M.closePass_none hc hp]
  cases answer with
  | none =>
    cases hx : c.exitAhead
    · exact ⟨_, rfl, by simp [vecNext, exited, inBlock, hc, hx]⟩
    · exact ⟨r, rfl, by simp [vecNext, exited, inBlock, hc, hx]⟩
  | some e => exact ⟨_, rfl, by simp [vecNext, exited, hc]⟩

theorem vexitCore_run (f : VWord) {r : Run s0} {c : LoopCtx} (hc : r.s.hart.ctx = some c) (hmode : r.s.hart.sr.mmode = false)
    (hf : c.fired = false) (hp : c.pass = none) :
    let now := (List.range (limit r.s)).find? fun e => (r.s.hart.vec.mask (f.va.toNat % 8)).getLsbD e
    ∃ r', vexitCore f (stripEnv r.s) r = .ok (⟨⟩, r') ∧ vecNext r'.s r'.s.hart.vec = exited r.s c (exitAnswer c now) := by
  intro now
  rw [vexitCore, M.bind_ok (M.modeCheck_run (env := stripEnv r.s) M.plain rfl hmode), M.bind_ok (M.hart_run r)]
  simp only [hc, hf, stripEnv, exitAnswer]
  cases c.resolved <;> cases c.taken.find? (fun t => t.1 == c.idx) <;> exact M.takeExit_run hc hp _

@[simp] theorem M.snap_run (k : Nat) (r : Run s0) : M.snap k r = .ok (snapped r.s k, r) := by
  simp only [M.snap, snapped, M.bind_run, M.hart_run]
  cases r.s.hart.ctx <;> rfl

@[simp] theorem LoopCtx.indep_idx (c : LoopCtx) (i : Nat) : LoopCtx.indep { c with idx := i } = c.indep := rfl

/-- A return slot is written unless a later strip has written it (R21, R160). -/
theorem M.putSlot_run (k : Nat) (v : Word) (r : Run s0) :
    ∃ r', M.putSlot k v r = .ok (⟨⟩, r') ∧ vecNext r'.s r'.s.hart.vec = slotWritten r.s k v := by
  cases hc : r.s.hart.ctx with
  | none =>
    simp only [M.putSlot, M.bind_run, M.hart_run, hc]
    exact ⟨_, rfl, by simp [vecNext, slotWritten, hc, Upd.apply]⟩
  | some c =>
    simp only [M.putSlot, M.bind_run, M.hart_run, hc, M.ite_run]
    by_cases later : (c.indep && decide ((aget c.slotBy k).getD 0 > c.k)) = true
    · simp only [later, if_true]
      exact ⟨r, rfl, by simp only [slotWritten, hc, Option.any_some, later, if_true]⟩
    · simp only [later]
      refine ⟨_, rfl, ?_⟩
      simp only [slotWritten, hc, Option.any_some, later]
      cases hi : c.indep <;> simp [vecNext, hc, Upd.apply, hi]

theorem loadValue_eq (t : BitVec 4) (n v : Nat) : loadValue n (tySigned t) v = extended n (decide (t.toNat < 4)) v := rfl

/-- The state behind a `vtoq` of element i (R160). -/
def movedToSlot (s : State) (f : VWord) (i : Nat) : State :=
  if i < limit s ∧ (s.hart.vec.mask f.m.toNat).getLsbD i = true then
    slotWritten s (f.vd.toNat % 8) (extended (tyBits f.ty / 8) (decide (f.ty.toNat < 4)) (el s f.va (tyBits f.ty) i))
  else vecNext s s.hart.vec

/-- An element that is performed goes into its slot. -/
theorem M.moveToSlot_run (f : VWord) (i : Nat) (r : Run s0) :
    ∃ r', (if (stripEnv r.s).performed (r.s.hart.vec.mask f.m.toNat) i then
        M.putSlot (f.vd.toNat % 8) (loadValue (tyBits f.ty / 8) (tySigned f.ty) (r.s.hart.vec.elem f.va.toNat (tyBits f.ty) i))
      else pure ⟨⟩) r = .ok (⟨⟩, r') ∧ vecNext r'.s r'.s.hart.vec = movedToSlot r.s f i := by
  have performed : (stripEnv r.s).performed (r.s.hart.vec.mask f.m.toNat) i = true
      ↔ i < limit r.s ∧ (r.s.hart.vec.mask f.m.toNat).getLsbD i = true := by
    rw [stripEnv_performed, Bool.and_eq_true, decide_eq_true_eq]
  by_cases h : i < limit r.s ∧ (r.s.hart.vec.mask f.m.toNat).getLsbD i = true
  · rw [if_pos (performed.mpr h), movedToSlot, if_pos h]
    exact M.putSlot_run _ _ r
  · rw [if_neg (mt performed.mp h), movedToSlot, if_neg h]
    exact ⟨r, rfl, rfl⟩

/-- `vtoq` moves the element that the scalar or the immediate names (R160). -/
theorem vtoqCore_run (f : VWord) {r : Run s0} (hmode : r.s.hart.sr.mmode = false) (hsew : r.s.hart.sr.sew.bits = tyBits f.ty)
    (hgroup : f.va.toNat % r.s.hart.sr.vgrp.n = 0) :
    ∃ r', vtoqCore f (stripEnv r.s) r = .ok (⟨⟩, r') ∧ vecNext r'.s r'.s.hart.vec
      = movedToSlot r.s f (if f.form = 1 then (snapped r.s (f.x.toNat % 32)).toNat else f.x.toNat % 8192) := by
  rw [vtoqCore, M.bind_ok (M.modeCheck_run (env := stripEnv r.s) M.plain rfl hmode), M.bind_ok (M.needSew_run _ hsew),
    M.bind_ok (M.needGroups_run _ (by simpa using hgroup))]
  by_cases hform : f.form = 1
  · simp only [hform, if_true, M.bind_run, M.snap_run, M.pure_run, M.vec_run]
    exact M.moveToSlot_run f _ r
  · simp only [hform, if_false, M.bind_run, M.pure_run, M.vec_run]
    exact M.moveToSlot_run f _ r

/-- The end of a strip leaves the scalar registers. -/
theorem endStrip_x (h : Hart) : (endStrip h).x = h.x := by
  unfold endStrip
  repeat' split
  all_goals rfl

/-- Outside a region and with no strip set aside that has met a trap, `vstop` ends the strip (R154, R162). -/
theorem vstop_exec {s : State} {c : LoopCtx} (hc : s.hart.ctx = some c) (ht : c.threads = none)
    (hp : c.parked = [] ∨ c.parked.all (·.fail.isSome) = false) : exec .vstop s = .next { s with hart := endStrip s.hart } := by
  have off : (!c.parked.isEmpty && c.parked.all (·.fail.isSome)) = false := by
    rcases hp with h | h <;> simp [h]
  show execVstop s = _
  rw [execVstop, exec1_eq]
  simp only [M.bind_run, M.hart_run, Run.start_s, hc, ht, off]
  show Host.Outcome.next { s with hart := { endStrip s.hart with x := s.hart.x } } = _
  rw [← endStrip_x s.hart]

/-- The end of the strip of a block that is no loop ends the block (R154). -/
theorem endStrip_block {h : Hart} {c : LoopCtx} {t : Word} (hc : h.ctx = some c) (hk : c.entry.kind = .block t none) :
    endStrip h = { h with ctx := none } := by
  simp only [endStrip, hc, hk]

/-- With no strip set aside a loop ends at its exit, goes on with the next strip, or ends behind its last one (R20, R24). -/
theorem endStrip_loop {h : Hart} {c : LoopCtx} {t n : Word} (hc : h.ctx = some c) (hk : c.entry.kind = .block t (some n))
    (hp : c.parked = []) (hr : c.ran = []) : endStrip h
      = if c.fired then { h with ctx := none, sr := { h.sr with vl := c.g, sb := h.sr.xstop } }
        else if (c.k + 1) * c.g.toNat < n.toNat then { h with ctx := some { c.fresh 0 with k := c.k + 1 } }
        else { h with ctx := none, sr := { h.sr with vl := c.g, sb := c.b0 + n, xstop := c.b0 + n } } := by
  have next : c.nextStrip = c.k + 1 := by simp [LoopCtx.nextStrip, hp, hr]
  simp [endStrip, hc, hk, hp, hr, next, LoopCtx.fresh]

/-- A strip that was set aside and has met no trap goes on (R21). -/
theorem endStrip_takes {h : Hart} {c : LoopCtx} {t n : Word} {p : Strip} (hc : h.ctx = some c) (hk : c.entry.kind = .block t (some n))
    (hf : c.fired = false) (hp : (c.parked.find? fun p => p.fail.isNone) = some p) :
    endStrip h = h.takeStrip { c with ran := c.ran ++ [c.k] } p := by
  have some_ : c.parked.isEmpty = false := by
    cases hl : c.parked with
    | nil => rw [hl] at hp; cases hp
    | cons q l => rfl
  simp [endStrip, hc, hk, hf, hp, some_]

end Sys2Proof.Machine

namespace Sys2Proof.Proofs

/-- R23, R156: the words that branch. -/
theorem branches_exec {s : State} (f : VWord) {c : LoopCtx} (hc : s.hart.ctx = some c) (free : Unguarded s)
    (hmode : s.hart.sr.mmode = false) :
    let m := s.hart.vec.mask (f.va.toNat % 8)
    let tested := branchTested s c f
    exec (.vbany f) s = .next (branched s c f (branchAnswer c (tested.any fun e => m.getLsbD e)))
    ∧ exec (.vball f) s = .next (branched s c f (branchAnswer c (tested.all fun e => m.getLsbD e)))
    ∧ exec (.vbnone f) s = .next (branched s c f (branchAnswer c (!tested.any fun e => m.getLsbD e)))
    ∧ exec (.vjmp f) s = .next (branched s c f true) := by
  intro m tested
  obtain ⟨r1, h1, e1⟩ := uniform_run (r := Run.start s) f (fun any _ => any) hc hmode
  obtain ⟨r2, h2, e2⟩ := uniform_run (r := Run.start s) f (fun _ all => all) hc hmode
  obtain ⟨r3, h3, e3⟩ := uniform_run (r := Run.start s) f (fun any _ => !any) hc hmode
  obtain ⟨r4, h4, e4⟩ := takeBranch_run (r := Run.start s) f hc
  have jump := (M.bind_ok (f := fun _ => takeBranch f) (M.modeCheck_run (env := stripEnv s) (r := Run.start s) M.plain rfl hmode)).trans h4
  exact ⟨(vexecJump_next free h1).trans (congrArg _ e1), (vexecJump_next free h2).trans (congrArg _ e2),
    (vexecJump_next free h3).trans (congrArg _ e3), (vexecJump_next free jump).trans (congrArg _ e4)⟩

/-- R24, R158: `vexit`. -/
theorem vexit_exec {s : State} (f : VWord) {c : LoopCtx} (hc : s.hart.ctx = some c) (free : Unguarded s)
    (hmode : s.hart.sr.mmode = false) :
    let now := (List.range (limit s)).find? fun e => (s.hart.vec.mask (f.va.toNat % 8)).getLsbD e
    (c.fired = true → exec (.vexit f) s = .next (vecNext s s.hart.vec))
    ∧ (c.fired = false → c.pass = none → exec (.vexit f) s = .next (exited s c (exitAnswer c now))) := by
  intro now
  refine ⟨fun hf => vexec_next free (vexitCore_fired f hc hmode hf), fun hf hp => ?_⟩
  obtain ⟨r, hr, hs⟩ := vexitCore_run (r := Run.start s) f hc hmode hf hp
  exact (vexec_next free hr).trans (congrArg _ hs)

/-- R160: `vtoq`. -/
theorem vtoq_exec {s : State} (f : VWord) (h : Legal s { f with rep := false } (tyBits f.ty) [f.va]) : exec (.vtoq f) s
    = .next (movedToSlot s f (if f.form = 1 then (snapped s (f.x.toNat % 32)).toNat else f.x.toNat % 8192)) := by
  obtain ⟨free, mode, sew, groups, -⟩ := h
  have hmode : s.hart.sr.mmode = false := by
    cases hm : s.hart.sr.mmode
    · rfl
    · exact nomatch (mode hm).1
  obtain ⟨r, hr, hs⟩ := vtoqCore_run (r := Run.start s) f hmode sew (groups _ (List.mem_singleton.mpr rfl))
  exact (vexec_next free hr).trans (congrArg _ hs)

/-- Settles O33: each word runs in the frame of the strip or ends it. -/
theorem controlWordsSteerTheBlock : Obligations.ControlWordsSteerTheBlock := by
  intro s f c hc vs r m lim tested noted now answer w i done
  refine ⟨fun free => vexec_next free (r := Run.start s) rfl, fun free hmode => ?_, vtoq_exec f, fun ht hp => ⟨fun t hk => ?_, fun t n hk hr => ?_⟩,
    fun t n p ht hk hf hp => ?_⟩
  · obtain ⟨hany, hall, hnone, hjmp⟩ := branches_exec f hc free hmode
    obtain ⟨hfired, hexit⟩ := vexit_exec f hc free hmode
    refine ⟨hany, hall, hnone, hjmp, hfired, fun hf hpass => (hexit hf hpass).trans ?_⟩
    change Host.Outcome.next (exited s c answer) = _
    cases answer <;> rfl
  · rw [vstop_exec hc ht (.inl hp), endStrip_block hc hk]
  · rw [vstop_exec hc ht (.inl hp), endStrip_loop hc hk hp hr]
    by_cases hf : c.fired = true
    · simp only [hf, if_true]
      rfl
    · by_cases more : (c.k + 1) * c.g.toNat < n.toNat <;> simp only [hf, more, if_true, if_false] <;> rfl
  · have open_ : c.parked.all (·.fail.isSome) = false := by
      have open_p := List.find?_some hp
      exact List.all_eq_false.mpr ⟨p, List.mem_of_find?_eq_some hp, by simpa using open_p⟩
    rw [vstop_exec hc ht (.inr open_), endStrip_takes hc hk hf hp]

end Sys2Proof.Proofs
end

section
/-!
PROOFS. The element threads of a lane-threading region (R22, R161): how they start, go their own ways and form the vector again.
-/

open Sys2Proof Sys2Proof.Machine Sys2Proof.Claim

namespace Sys2Proof.Machine

variable {s0 : State}

/-- The least of some numbers is the one among them that bounds them below. -/
theorem foldl_min_eq {l : List Nat} {a p : Nat} (mem : p ∈ a :: l) (least : ∀ k ∈ a :: l, p ≤ k) : l.foldl min a = p := by
  induction l generalizing a with
  | nil => exact (List.mem_singleton.mp mem).symm
  | cons b l ih =>
    rw [List.foldl_cons]
    refine ih ?_ fun k hk => ?_
    · have ha := least a (by simp)
      have hb := least b (by simp)
      rcases List.mem_cons.mp mem with rfl | mem
      · simp [hb]
      · rcases List.mem_cons.mp mem with rfl | mem
        · simp [ha]
        · simp [mem]
    · rcases List.mem_cons.mp hk with rfl | hk
      · exact le_min (least a (by simp)) (least b (by simp))
      · exact least k (by simp [hk])

/-- A thread that has not joined stands at a word. -/
def Thread.standsAt (t : Thread) (p : Nat) : Bool := !t.joined && t.idx == p

/-- The threads that a control word of the region is executed for stand at the lowest word where some wait (R161). -/
theorem LoopCtx.lowestPc_eq {c : LoopCtx} {i p : Nat} {ts : List Thread} (hc : c.threads = some (i, ts))
    (some_ : ∃ t ∈ ts, t.joined = false ∧ t.idx = p) (least : ∀ t ∈ ts, t.joined = false → p ≤ t.idx) :
    c.lowestPc = some (p, (ts.filter (Thread.standsAt · p)).map (·.e)) := by
  obtain ⟨t, ht, hj, rfl⟩ := some_
  have mem : t.idx ∈ (ts.filter fun t => !t.joined).map (·.idx) := List.mem_map.mpr ⟨t, List.mem_filter.mpr ⟨ht, by simp [hj]⟩, rfl⟩
  have low : ∀ k ∈ (ts.filter fun t => !t.joined).map (·.idx), t.idx ≤ k := by
    intro k hk
    obtain ⟨u, hu, rfl⟩ := List.mem_map.mp hk
    obtain ⟨hu, hw⟩ := List.mem_filter.mp hu
    exact least u hu (by simpa using hw)
  simp only [LoopCtx.lowestPc, hc]
  cases hl : (ts.filter fun t => !t.joined).map (·.idx) with
  | nil =>
    rw [hl] at mem
    cases mem
  | cons a l =>
    rw [hl] at mem low
    simp only [foldl_min_eq mem low]
    rfl

/-- An element has a thread that stands at a word. -/
theorem contains_standing (ts : List Thread) (p e : Nat) :
    ((ts.filter (Thread.standsAt · p)).map (·.e)).contains e = ts.any fun u => u.e == e && !u.joined && u.idx == p := by
  rw [Bool.eq_iff_iff]
  simp only [List.contains_iff_mem, List.mem_map, List.mem_filter, Thread.standsAt, List.any_eq_true, Bool.and_eq_true, beq_iff_eq]
  constructor
  · rintro ⟨u, ⟨hu, hj, hi⟩, rfl⟩
    exact ⟨u, hu, ⟨rfl, hj⟩, hi⟩
  · rintro ⟨u, hu, ⟨rfl, hj⟩, hi⟩
    exact ⟨u, ⟨hu, hj, hi⟩, rfl⟩

/-- A control word of a region is executed for the threads at the lowest word. -/
theorem standing_run {r : Run s0} {c : LoopCtx} {p : Nat} {es : List Nat} (hc : r.s.hart.ctx = some c) (h : c.lowestPc = some (p, es)) :
    standing r = .ok (es, r) := by
  simp [standing, hc, h]

theorem M.modThreads_run {r : Run s0} {c : LoopCtx} {i : Nat} {ts : List Thread} (hc : r.s.hart.ctx = some c)
    (ht : c.threads = some (i, ts)) (es : List Nat) (f : Thread → Thread) : ∃ r', M.modThreads es f r = .ok (⟨⟩, r')
      ∧ r'.s = inBlock r.s { c with threads := some (i, ts.map fun t => if es.contains t.e then f t else t) } :=
  ⟨_, rfl, by simp [inBlock, hc, ht, Upd.apply]⟩

/-- With the last thread at `vjoin` the vector forms again behind it (R161). -/
theorem M.rejoin_run {r : Run s0} {c : LoopCtx} {i : Nat} {ts : List Thread} (hc : r.s.hart.ctx = some c)
    (ht : c.threads = some (i, ts)) : ∃ r', M.rejoin r = .ok (⟨⟩, r')
      ∧ r'.s = inBlock r.s (if ts.all (·.joined) then { c with threads := none, idx := c.findOp 0xA7#8 i + 1 } else c) :=
  ⟨_, rfl, by simp [inBlock, hc, ht, Upd.apply]⟩

theorem inBlock_ctx (s : State) (c : LoopCtx) : (inBlock s c).hart.ctx = some c := rfl

theorem inBlock_inBlock (s : State) (c d : LoopCtx) : inBlock (inBlock s c) d = inBlock s d := rfl

end Sys2Proof.Machine

namespace Sys2Proof.Proofs

/-- R161: `vsplit` starts a thread for each performed element, or goes behind the `vjoin`. -/
theorem vsplit_exec {s : State} (f : VWord) {c : LoopCtx} (hc : s.hart.ctx = some c) (free : Unguarded s)
    (hmode : s.hart.sr.mmode = false) : exec (.vsplit f) s = .next (inBlock s (
      if acted s f = [] then { c with idx := c.findOp 0xA7#8 c.idx + 1 }
      else { c with
        picked := [], threads := some (c.idx, (acted s f).map fun e => { e := e, idx := c.idx + 1, joined := false }) })) := by
  have check := M.modeCheck_run (env := stripEnv s) (r := Run.start s) M.plain rfl hmode
  refine (vexecJump_next (core := vsplitCore f) free ((M.bind_ok check).trans rfl)).trans ?_
  simp only [Run.emit_s, Upd.apply, Run.start_s, hc, inBlock, stripEnv_elems, List.isEmpty_iff]
  rfl

/-- R161: `lbr` sends each thread that stands at it on its own way. -/
theorem lbr_exec {s : State} (f : VWord) {c : LoopCtx} {i p : Nat} {ts : List Thread} {es : List Nat} (hc : s.hart.ctx = some c)
    (ht : c.threads = some (i, ts)) (hp : c.lowestPc = some (p, es)) :
    exec (.lbr f) s = .next (inBlock s { c with threads := some (i, ts.map fun t =>
      if es.contains t.e then { t with idx := if (s.hart.vec.mask (f.va.toNat % 8)).getLsbD t.e then branchTarget f t.idx else t.idx + 1 }
      else t) }) := by
  obtain ⟨r, hr, hs⟩ := M.modThreads_run (r := Run.start s) hc ht es fun t =>
    { t with idx := if (s.hart.vec.mask (f.va.toNat % 8)).getLsbD t.e then branchTarget f t.idx else t.idx + 1 }
  exact exec_of_run rfl ((M.bind_ok (standing_run (r := Run.start s) hc hp)).trans ((M.bind_ok (M.vec_run _)).trans hr)) hs

/-- R161: threads at `vjoin` wait there; with the last one the vector forms again. -/
theorem vjoin_exec {s : State} {c : LoopCtx} {i p : Nat} {ts : List Thread} {es : List Nat} (hc : s.hart.ctx = some c)
    (ht : c.threads = some (i, ts)) (hp : c.lowestPc = some (p, es)) :
    let joined := ts.map fun t => if es.contains t.e then { t with joined := true } else t
    exec .vjoin s = .next (inBlock s (
      if joined.all (·.joined) then { c with threads := none, idx := c.findOp 0xA7#8 i + 1 } else { c with threads := some (i, joined) })) := by
  intro joined
  obtain ⟨r, hr, hs⟩ := M.modThreads_run (r := Run.start s) hc ht es fun t => { t with joined := true }
  obtain ⟨r', hr', hs'⟩ := M.rejoin_run (r := r) (c := { c with threads := some (i, joined) }) (by rw [hs]; rfl) rfl
  refine exec_of_run rfl ((M.bind_ok (standing_run (r := Run.start s) hc hp)).trans ((M.bind_ok hr).trans hr')) (hs'.trans ?_)
  rw [hs]
  rfl

/-- Settles O34. -/
theorem laneThreadsSplitBranchAndJoin : Obligations.LaneThreadsSplitBranchAndJoin := by
  intro s f c hc es behind m
  refine ⟨vsplit_exec f hc, ?_⟩
  intro i ts p ht some_ least here joined
  have low := LoopCtx.lowestPc_eq ht some_ least
  have hlbr := lbr_exec f hc ht low
  have hjoin := vjoin_exec hc ht low
  simp only [contains_standing] at hlbr hjoin
  exact ⟨hlbr, hjoin⟩

end Sys2Proof.Proofs
end

section
/-!
PROOFS. What takes effect at the head of the vector queue (R19, R51, R104, R331), and a word that a lane group runs for some of its element
threads (R22, R161).
-/

open Sys2Proof Sys2Proof.Machine Sys2Proof.Claim

namespace Sys2Proof.Machine

variable {s0 : State} {α : Type}

/-- A run is known by its state. -/
theorem Run.ext_s {r r' : Run s0} (h : r.s = r'.s) : r = r' := by
  cases r
  cases r'
  cases h
  rfl

/-- The hart in focus is brought into focus without a change. -/
theorem M.focus_self {r : Run s0} {k : Nat} (h : r.s.hart.key = k) : M.focus k r = .ok (⟨⟩, r) := by
  have same : r.emit (.focus k) = r := Run.ext_s (by simp [Upd.apply, h])
  simp [M.focus, State.hartOf, h, same]

theorem M.focus_start (s : State) : M.focus s.hart.key (Run.start s) = .ok (⟨⟩, Run.start s) := M.focus_self rfl

/-- A condition that holds lets the step go on. -/
theorem M.need_true {r : Run s0} {p : Bool} (h : p = true) : M.need p r = .ok (⟨⟩, r) := by
  rw [M.need_run, if_pos h]

/-- No transfer in flight lets the step go on. -/
theorem M.needTransfers_run {r : Run s0} (h : Idle r.s) : M.needTransfers r = .ok (⟨⟩, r) := by
  have none_ : (r.s.hart.streams.toList.any fun k => k.xfer.isSome) = false := by
    rw [List.any_eq_false]
    intro k hk
    simp [h k hk]
  simp only [M.needTransfers, M.bind_run, M.hart_run, M.ite_run, none_]
  rfl

/-- With no `ord.sv` outstanding the head of the queue does not wait (R105). -/
theorem M.needSv_run {r : Run s0} (e : QEntry) (h : r.s.hart.svBound = none) : M.needSv e r = .ok (⟨⟩, r) := by
  simp [M.needSv, h]

/-- What an operation of the queue does at its position (R104, R331). -/
def M.takeEffect (x : Hart) (e : QEntry) (rest : List QEntry) : M s0 PUnit := do
  let word : Word := e.word.setWidth 64
  match e.kind with
  | .block _ _ => M.stall
  | .setl vl sew grp => do
    if x.sr.mmode && grp ≠ .g1 then M.headTrap e rest 0x02 word e.pc
    M.modSr fun r => { r with vl := vl, sew := sew, vgrp := grp }
  | .mxon => enterMatrix
  | .mxoff => M.modHart leaveMatrix
  | .write n v => do
    if x.sr.mmode && n = 0x011 && v ≠ 1 then M.headTrap e rest 0x02 word e.pc
    M.modSr fun r => r.writeQueued x.id.cap n v
  M.modHart fun h => { h with queue := rest }

/-- An operation at the head of the queue takes effect once the transfers are done. -/
theorem queuePositionEffect_exec {s t : State} {e : QEntry} {rest : List QEntry} (h : AtHead s e rest) (idle : Idle s)
    (hr : ∃ r, M.takeEffect s.hart e rest (Run.start s) = .ok (⟨⟩, r) ∧ r.s = t) : exec (.queuePositionEffect s.hart.key) s = .next t := by
  obtain ⟨run, ctx, queue, fence⟩ := h
  obtain ⟨r, hr, rfl⟩ := hr
  show execQueuePositionEffect s.hart.key s = _
  rw [execQueuePositionEffect, exec1_eq, M.bind_ok (M.focus_start s), M.bind_ok (M.hart_run _),
    M.bind_ok (M.need_true (by rw [Run.start_s, run, ctx]; rfl))]
  simp only [Run.start_s, queue]
  rw [M.bind_ok (M.needSv_run _ fence), M.bind_ok (M.needTransfers_run idle)]
  exact congrArg (fun x => Host.Outcome.next (ended x)) hr

/-- Four registers that nothing defines (R5, R172). -/
theorem M.collectFreeVRegs_run (is : List Nat) (r : Run s0) : ∃ vs r', M.collect is (fun _ => M.freeVReg) r = .ok (vs, r')
    ∧ r'.s = { r.s with fresh := r'.s.fresh } := by
  induction is generalizing r with
  | nil => exact ⟨[], r, rfl, rfl⟩
  | cons i is ih =>
    obtain ⟨vs, r', hr, hs⟩ := ih (r.emit (.fresh (r.s.fresh + 1)))
    refine ⟨Config.freeVReg r.s.fresh :: vs, r', ?_, ?_⟩
    · simp only [M.collect, M.bind_run, M.freeVReg_run, hr, M.pure_run]
    · rw [hs]
      rfl

/-- The hart once it has entered matrix mode, with these vector registers (R104). -/
def inMatrixMode (h : Hart) (v : Vector VReg 32) : Hart :=
  { h with
    tile := { h.tile with svl := h.sr.vl, sgrp := h.sr.vgrp, ssew := h.sr.sew }, vec := { h.vec with v := v },
    sr := { h.sr with vl := 128, vgrp := .g1, sew := .w16, mmode := true } }

/-- `mxon` outside matrix mode enters it; only v28 to v31 are not defined (R104, R172). -/
theorem enterMatrix_run {r : Run s0} (hmode : r.s.hart.sr.mmode = false) : ∃ v r', enterMatrix r = .ok (⟨⟩, r')
    ∧ r'.s = { r.s with hart := inMatrixMode r.s.hart v, fresh := r'.s.fresh }
    ∧ ∀ k < 28, r'.s.hart.vec.reg k = r.s.hart.vec.reg k := by
  obtain ⟨vs, r1, h1, hs⟩ := M.collectFreeVRegs_run (List.range 4) r
  have hart : r1.s.hart = r.s.hart := by rw [hs]
  let v : Vector VReg 32 := Vector.ofFn fun i => if i.val < 28 then r.s.hart.vec.reg i.val else vs.getD (i.val - 28) 0
  refine ⟨v, r1.emit (.hart (inMatrixMode r.s.hart v)), ?_, ?_, fun k hk => ?_⟩
  · simp only [enterMatrix, M.bind_run, M.hart_run, hmode, M.ite_run, h1, M.modHart_run, hart]
    rfl
  · simp only [Run.emit_s, Upd.apply, hart]
    rw [hs]
    rfl
  · simp [inMatrixMode, v, VecState.reg, show k < 32 by omega, hk]

end Sys2Proof.Machine

namespace Sys2Proof.Proofs

variable {s0 : State}

section
variable {s : State} {e : QEntry} {rest : List QEntry}

/-- R17, R99: the grant of a `vsetl` takes effect. -/
theorem setl_effect (h : AtHead s e rest) (idle : Idle s) {vl : Word} {sew : Sew} {grp : Grp}
    (hk : e.kind = .setl vl sew grp) (legal : s.hart.sr.mmode = true → grp = .g1) : exec (.queuePositionEffect s.hart.key) s
      = .next (popped s rest { s.hart.sr with vl := vl, sew := sew, vgrp := grp }) := by
  have off : (s.hart.sr.mmode && decide (grp ≠ .g1)) = false := by
    cases hm : s.hart.sr.mmode
    · rfl
    · simp [legal hm]
  refine queuePositionEffect_exec h idle ?_
  simp only [M.takeEffect, hk, off]
  exact ⟨_, rfl, rfl⟩

/-- R19, R51: a state write takes effect. -/
theorem write_effect (h : AtHead s e rest) (idle : Idle s) {n : Nat} {v : Word} (hk : e.kind = .write n v)
    (legal : s.hart.sr.mmode = true → n = 0x011 → v = 1) : exec (.queuePositionEffect s.hart.key) s
      = .next (popped s rest (s.hart.sr.writeQueued s.hart.id.cap n v)) := by
  have off : (s.hart.sr.mmode && decide (n = 0x011) && decide (v ≠ 1)) = false := by
    cases hm : s.hart.sr.mmode
    · rfl
    · by_cases hn : n = 0x011
      · simp [legal hm hn]
      · simp [hn]
  refine queuePositionEffect_exec h idle ?_
  simp only [M.takeEffect, hk, off]
  exact ⟨_, rfl, rfl⟩

/-- R104: in matrix mode `mxon` changes nothing. -/
theorem mxon_effect_in (h : AtHead s e rest) (idle : Idle s) (hk : e.kind = .mxon) (hmode : s.hart.sr.mmode = true) :
    exec (.queuePositionEffect s.hart.key) s = .next (popped s rest s.hart.sr) := by
  refine queuePositionEffect_exec h idle ?_
  simp only [M.takeEffect, hk, enterMatrix, M.bind_run, M.hart_run, Run.start_s, hmode]
  exact ⟨_, rfl, rfl⟩

/-- R104: outside it `mxon` enters matrix mode. -/
theorem mxon_effect_out (h : AtHead s e rest) (idle : Idle s) (hk : e.kind = .mxon) (hmode : s.hart.sr.mmode = false) :
    Leads s (.queuePositionEffect s.hart.key) fun t =>
      (∃ v, t = { popped s rest s.hart.sr with hart := { inMatrixMode s.hart v with queue := rest }, fresh := t.fresh })
      ∧ ∀ k < 28, t.hart.vec.reg k = s.hart.vec.reg k := by
  obtain ⟨v, r, hr, hs, kept⟩ := enterMatrix_run (r := Run.start s) hmode
  have effect := queuePositionEffect_exec (t := Upd.apply r.s (.hart { r.s.hart with queue := rest })) h idle (by
    simp only [M.takeEffect, hk, M.bind_run, hr]
    exact ⟨_, rfl, rfl⟩)
  refine ⟨_, effect, ⟨v, ?_⟩, kept⟩
  rw [hs]
  rfl

/-- R104: `mxoff` leaves matrix mode. -/
theorem mxoff_effect (h : AtHead s e rest) (idle : Idle s) (hk : e.kind = .mxoff) : exec (.queuePositionEffect s.hart.key) s
    = .next (popped s rest (if s.hart.sr.mmode
      then { s.hart.sr with vl := s.hart.tile.svl, vgrp := s.hart.tile.sgrp, sew := s.hart.tile.ssew, mmode := false } else s.hart.sr)) := by
  refine queuePositionEffect_exec h idle ?_
  simp only [M.takeEffect, hk, M.bind_run, M.modHart_run]
  refine ⟨_, rfl, ?_⟩
  cases hm : s.hart.sr.mmode <;> simp [leaveMatrix, hm, popped, Upd.apply]

end

/-- A grouping and a width by the number that a write gives (R50). -/
theorem grpOfNat_n (g : Grp) : grpOfNat g.n = some g := by
  cases g <;> rfl

theorem sewOfNat_bits (g : Sew) : sewOfNat g.bits = some g := by
  cases g <;> rfl

/-! ## A word for element threads -/

/-- The threads that a lane group issues for stand where it has picked (R161). -/
theorem standAt_eq (s : State) (ts : List Thread) (g p : Nat) :
    (ts.filter fun t => t.waits s.hart.sr.sew.bits g && t.idx == p).map (·.e) = standAt s ts g p := by
  rw [standAt]
  congr 2
  funext t
  rw [Thread.waits, Bool.and_assoc, Bool.and_assoc, Bool.and_comm (t.idx == p)]

/-- A word of a region that is no control word, for some threads. -/
def M.regionWord (env : VEnv) (es : List Nat) (i : Instr) : M s0 PUnit :=
  match regionCore i with
  | none => M.illegal env
  | some core => do
    core env
    M.modThreads es fun t => { t with idx := t.idx + 1 }

/-- The word that a lane group has picked. -/
def M.threadWord (es : List Nat) : M s0 PUnit := do
  let env ← M.threadFrame es
  let w ← M.vecWord
  match decodeVector w with
  | .error _ => M.vecTrap env 0x01 w none
  | .ok .vjoin => joinThreads es
  | .ok (.lbr f) => branchThreads f es
  | .ok i => M.regionWord env es i

/-- A lane group issues the word that it picks, for the threads that stand there (R161). -/
theorem elementThreadIssue_exec {s t : State} {c : LoopCtx} {k g p : Nat} {ts : List Thread} (hrun : s.hart.phase = .run)
    (hc : s.hart.ctx = some c) (hwords : c.words ≠ []) (ht : c.threads = some (k, ts)) (hnext : c.nextPc s.hart.sr.sew.bits g = some p)
    (hw : ∀ r0 : Run s, r0.s = inBlock s { c.pick g p with idx := p } →
      ∃ r, M.threadWord (standAt s ts g p) r0 = .ok (⟨⟩, r) ∧ r.s = t) : exec (.elementThreadIssue s.hart.key g p) s = .next t := by
  have ready : (s.hart.phase == .run && !((s.hart.ctx.map (·.words)).getD []).isEmpty) = true := by
    simp [hrun, hc, hwords]
  have picked : (((s.hart.ctx.bind fun c => c.nextPc s.hart.sr.sew.bits g) == some p) : Bool) = true := by
    simp [hc, hnext]
  have threads : s.hart.ctx.bind (·.threads) = some (k, ts) := by
    rw [hc, Option.bind_some, ht]
  let r1 : Run s := (Run.start s).emit (.hart { s.hart with ctx := s.hart.ctx.map fun c => c.pick g p })
  let r0 : Run s := r1.emit (.hart { r1.s.hart with ctx := r1.s.hart.ctx.map fun c => { c with idx := p } })
  obtain ⟨r, hr, rfl⟩ := hw r0 (by simp [r0, r1, inBlock, hc, Upd.apply])
  show execElementThreadIssue s.hart.key g p s = _
  rw [execElementThreadIssue, exec1_eq, M.bind_ok (M.focus_start s), M.bind_ok (M.hart_run _), Run.start_s,
    M.bind_ok (M.need_true ready)]
  simp only [threads]
  rw [M.bind_ok (M.need_true picked), standAt_eq]
  exact congrArg (fun x => Host.Outcome.next (ended x)) hr

/-- The word at which a running block stands. -/
theorem M.vecWord_run {r : Run s0} {c : LoopCtx} (hc : r.s.hart.ctx = some c) : M.vecWord r = .ok (c.words.getD c.idx 0, r) := by
  simp [M.vecWord, hc]

/-- Threads at `lbr` go their own ways (R161). -/
theorem threadWord_lbr {r : Run s0} {c : LoopCtx} {k : Nat} {ts : List Thread} {f : VWord} (es : List Nat) (hc : r.s.hart.ctx = some c)
    (ht : c.threads = some (k, ts)) (hw : decodeVector (c.words.getD c.idx 0) = .ok (.lbr f)) :
    let m := r.s.hart.vec.mask (f.va.toNat % 8)
    ∃ r', M.threadWord es r = .ok (⟨⟩, r') ∧ r'.s = inBlock r.s { c with threads := some (k, ts.map fun t =>
      if es.contains t.e then { t with idx := if m.getLsbD t.e then branchTarget f t.idx else t.idx + 1 } else t) } := by
  intro m
  obtain ⟨r', hr, hs⟩ := M.modThreads_run hc ht es fun t =>
    { t with idx := if m.getLsbD t.e then branchTarget f t.idx else t.idx + 1 }
  have frame : ∃ env, M.threadFrame es r = .ok (env, r) := ⟨_, rfl⟩
  obtain ⟨env, henv⟩ := frame
  refine ⟨r', ?_, hs⟩
  rw [M.threadWord, M.bind_ok henv, M.bind_ok (M.vecWord_run hc)]
  simp only [hw]
  exact hr

theorem regionCore_vjoin : (regionCore .vjoin : Option (VEnv → M s0 PUnit)) = none := rfl

theorem regionCore_lbr (f : VWord) : (regionCore (.lbr f) : Option (VEnv → M s0 PUnit)) = none := rfl

/-- Threads at any other word of a region run it and go on (R161). -/
theorem threadWord_core {r r1 : Run s0} {c : LoopCtx} {i : Instr} {core : VEnv → M s0 PUnit} (es : List Nat) (hc : r.s.hart.ctx = some c)
    (hw : decodeVector (c.words.getD c.idx 0) = .ok i) (hcore : regionCore i = some core)
    (hr : (do core (← M.threadFrame es) : M s0 PUnit) r = .ok (⟨⟩, r1)) :
    M.threadWord es r = M.modThreads es (fun t => { t with idx := t.idx + 1 }) r1 := by
  have frame : ∃ env, M.threadFrame es r = .ok (env, r) := ⟨_, rfl⟩
  obtain ⟨env, henv⟩ := frame
  rw [M.bind_ok henv] at hr
  rw [M.threadWord, M.bind_ok henv, M.bind_ok (M.vecWord_run hc)]
  have go : M.regionWord env es i r = M.modThreads es (fun t => { t with idx := t.idx + 1 }) r1 := by
    rw [M.regionWord, hcore]
    exact M.bind_ok hr
  rw [hw]
  cases i
  case vjoin => exact nomatch regionCore_vjoin.symm.trans hcore
  case lbr f => exact nomatch (regionCore_lbr f).symm.trans hcore
  all_goals exact go

/-- Settles O40: each kind of entry at its position, and a word of a region for the threads that stand at it. -/
theorem queuedOperationsAndThreadsTakeEffect : Obligations.QueuedOperationsAndThreadsTakeEffect := by
  intro s e rest h r i cap writes
  refine ⟨fun head idle => ⟨fun vl sew grp hk legal => setl_effect head idle hk legal, mxon_effect_in head idle, fun hk hmode => ?_,
    mxoff_effect head idle, fun n v x hk hx => ?_, fun v g hk hv legal => ?_, fun v g hk hv => ?_⟩, ?_⟩
  · obtain ⟨t, ht, ⟨v, hv⟩, kept⟩ := mxon_effect_out head idle hk hmode
    exact ⟨t, ht, ⟨v, hv⟩, kept⟩
  · have plain : x = r.writeQueued h.id.cap n v ∧ n ≠ 0x011 := by
      simp only [writes, List.mem_cons, Prod.mk.injEq, List.not_mem_nil, or_false] at hx
      rcases hx with ⟨rfl, rfl⟩ | ⟨rfl, rfl⟩ | ⟨rfl, rfl⟩ | ⟨rfl, rfl⟩ | ⟨rfl, rfl⟩ | ⟨rfl, rfl⟩ <;> exact ⟨rfl, by decide⟩
    rw [plain.1]
    exact write_effect head idle hk fun _ h11 => absurd h11 plain.2
  · have written : r.writeQueued h.id.cap 0x011 v = { r with vgrp := g } := by
      simp only [SRegs.writeQueued, hv, grpOfNat_n, Option.getD_some]
    rw [← written]
    exact write_effect head idle hk fun hmode _ => legal hmode
  · have written : r.writeQueued h.id.cap 0x012 v = { r with sew := g } := by
      simp only [SRegs.writeQueued, hv, sewOfNat_bits, Option.getD_some]
    rw [← written]
    exact write_effect head idle hk fun _ h11 => nomatch h11
  · intro c k g p ts f t1 hrun hc hwords ht hnext es m go
    refine ⟨fun hw => elementThreadIssue_exec hrun hc hwords ht hnext fun r0 h0 => ?_,
      fun i core hw hcore hr => elementThreadIssue_exec hrun hc hwords ht hnext fun r0 h0 => ?_⟩
    · obtain ⟨r', hr, hs⟩ := threadWord_lbr (r := r0) (c := { c.pick g p with idx := p }) (f := f) es (by rw [h0]; rfl) ht hw
      refine ⟨r', hr, hs.trans ?_⟩
      simp only [List.contains_iff_mem, h0]
      rfl
    · obtain ⟨r1, hrun1, rfl⟩ := hr
      let q1 : Run s := (Run.start s).emit (.hart { s.hart with ctx := s.hart.ctx.map fun c => c.pick g p })
      have same : r0 = q1.emit (.hart { q1.s.hart with ctx := q1.s.hart.ctx.map fun c => { c with idx := p } }) :=
        Run.ext_s (by rw [h0]; simp [q1, inBlock, show s.hart.ctx = some c from hc, Upd.apply])
      have word : (do core (← M.threadFrame es) : M s PUnit) r0 = .ok (⟨⟩, r1) := by
        rw [same]
        exact hrun1
      rw [threadWord_core (c := { c.pick g p with idx := p }) es (by rw [h0]; rfl) hw hcore word]
      refine ⟨_, rfl, ?_⟩
      simp only [Run.emit_s, Upd.apply, List.contains_iff_mem]
      rfl

end Sys2Proof.Proofs
end

section
/-!
PROOFS. How the waits of a hart end (R106, R111), a pending trap is taken (R302), and a hart is killed (R32, R319).
-/

open Sys2Proof Sys2Proof.Machine Sys2Proof.Claim

namespace Sys2Proof.Machine

variable {s0 : State} {α β : Type}

/-- Nothing but free values has been drawn. -/
def Drew (s t : State) : Prop := t = { s with fresh := t.fresh }

theorem drew_frame : Frame Drew where
  refl _ := rfl
  trans {a b c} h k := by rw [Drew] at *; rw [k, h]

theorem Does.collect {R : State → State → Prop} (hR : Frame R) {f : β → M s0 α} {bs : List β} (h : ∀ b ∈ bs, Does (f b) R) :
    Does (M.collect bs f) R := by
  induction bs with
  | nil => exact fun r => .pure (hR.refl _)
  | cons b bs ih => exact Does.bind hR (h b (by simp)) fun _ => Does.bind hR (ih fun c hc => h c (by simp [hc])) fun _ => Does.pure hR _

theorem M.freeVReg_draws : Does (s0 := s0) M.freeVReg Drew := fun r => ⟨_, _, M.freeVReg_run r, rfl⟩

theorem M.freeWord_draws : Does (s0 := s0) M.freeWord Drew := fun r => ⟨_, _, M.freeWord_run r, rfl⟩

/-- Vector state that nothing defines takes free values only (R5). -/
theorem M.freeVec_draws : Does (s0 := s0) M.freeVec Drew := by
  have regs (is : List Nat) : Does (s0 := s0) (M.collect is fun _ => M.freeVReg) Drew := .collect drew_frame fun _ _ => M.freeVReg_draws
  refine .bind drew_frame (regs _) fun _ => .bind drew_frame (regs _) fun _ => .bind drew_frame ?_ fun _ =>
    .bind drew_frame (regs _) fun _ => .bind drew_frame (regs _) fun _ => .pure drew_frame _
  exact .collect drew_frame fun _ _ => M.freeWord_draws

/-! ## Changes of gangs and launches -/

theorem M.modHart_ends {f : Hart → Hart} {r : Run s0} {p : State → Prop} (h : p (Upd.apply r.s (.hart (f r.s.hart)))) :
    Ends (M.modHart f) r p := ⟨⟨⟩, _, rfl, h⟩

theorem M.setPc_ends {v : Word} {r : Run s0} {p : State → Prop} (h : p (Upd.apply r.s (.pc v))) : Ends (M.setPc v) r p := ⟨⟨⟩, _, rfl, h⟩

/-- The gangs after a change of those with a name. -/
def onGang (die gid : Nat) (f : Gang → Gang) (gs : List Gang) : List Gang := gs.map fun g => if g.die = die && g.gid = gid then f g else g

/-- The gang of a name. -/
def gangNamed (gs : List Gang) (die gid : Nat) : Option Gang := gs.find? fun g => g.die == die && g.gid == gid

theorem M.modGang_ends {die gid : Nat} {f : Gang → Gang} {r : Run s0} {p : State → Prop}
    (h : p (Upd.apply r.s (.disp { r.s.disp with gangs := onGang die gid f r.s.disp.gangs }))) : Ends (M.modGang die gid f) r p := ⟨⟨⟩, _, rfl, h⟩

/-- A change that keeps a gang's name is seen at that name. -/
theorem gangNamed_onGang {gs : List Gang} {die gid : Nat} {f : Gang → Gang} (hf : ∀ g, (f g).die = g.die ∧ (f g).gid = g.gid) :
    gangNamed (onGang die gid f gs) die gid = (gangNamed gs die gid).map f := by
  have same : ((fun g : Gang => g.die == die && g.gid == gid) ∘ fun g => if g.die = die && g.gid = gid then f g else g)
      = fun g => g.die == die && g.gid == gid := funext fun g => by
    simp only [Function.comp]
    split
    · simp [hf g]
    · rfl
  simp only [gangNamed, onGang, List.find?_map, same]
  cases hg : gs.find? fun g => g.die == die && g.gid == gid with
  | none => rfl
  | some g =>
    have name := List.find?_some hg
    simp_all

/-- Nothing but background steps has been asked for. -/
def Asked (s t : State) : Prop := t = { s with work := t.work }

theorem asked_frame : Frame Asked where
  refl _ := rfl
  trans {a b c} h k := by rw [Asked] at *; rw [k, h]

theorem M.push_asks (i : Instr) : Does (s0 := s0) (M.push i) Asked := fun _ => M.push_ends rfl

theorem M.checkBarrier_asks (g : Gang) : Does (s0 := s0) (M.checkBarrier g) Asked := by
  intro r
  apply Ends.read
  split
  · exact .pure rfl
  · exact Ends.read (.ite (fun _ => M.push_asks _ r) fun _ => .pure rfl)

/-! ## Retiring and killing (R26, R319) -/

/-- A hart that has retired. -/
def Hart.retired (h : Hart) : Hart :=
  { h with
    phase := .halted, wait := .none, queue := [], ctx := none, held := none, aside := none, tile := .reset,
    early := [], sr := { h.sr with mgrant := 0, mmode := false } }

/-- A gang without a hart that has retired. -/
def Gang.without (h : Hart) (g : Gang) : Gang :=
  { g with halted := g.halted + 1, harts := g.harts.filter (· ≠ h.key), barrier := g.barrier ||| BitVec.ofNat 64 (2 ^ h.id.gidx) }

theorem onGang_none {gs : List Gang} {die gid : Nat} (f : Gang → Gang) (h : gangNamed gs die gid = none) : onGang die gid f gs = gs := by
  have no : ∀ g ∈ gs, ¬ (g.die = die ∧ g.gid = gid) := by simpa [gangNamed] using h
  have same : ∀ g ∈ gs, (if g.die = die && g.gid = gid then f g else g) = g := fun g hg => by simp [no g hg]
  exact (List.map_congr_left same).trans (List.map_id'' (fun _ => rfl) gs)

/-- A retiring hart leaves its gang. -/
def M.leaveGang (h : Hart) : M s0 PUnit := do
  match ← gangOf h with
  | none => pure ⟨⟩
  | some g =>
    modGang g.die g.gid (Gang.without h)
    if g.halted + 1 ≥ g.size then push .gangRetire
    else if g.barrier.toNat ≠ 0 then checkBarrier g else pure ⟨⟩

theorem M.leaveGang_ends (h : Hart) (r : Run s0) : Ends (M.leaveGang h) r fun t =>
    t = { r.s with
      work := t.work, disp := { r.s.disp with gangs := onGang h.id.did h.id.gid (Gang.without h) r.s.disp.gangs } } := by
  refine .next (M.gangOf_run h r) ?_
  cases hg : r.s.disp.gangs.find? fun g => g.die == h.id.did && g.gid == h.id.gid with
  | none =>
    refine .pure ?_
    rw [onGang_none _ hg]
  | some g =>
    have name := List.find?_some hg
    simp only [Bool.and_eq_true, beq_iff_eq] at name
    refine .bind (p := (· = { r.s with disp := { r.s.disp with gangs := onGang h.id.did h.id.gid (Gang.without h) r.s.disp.gangs } }))
      (M.modGang_ends (by rw [name.1, name.2]; rfl)) fun _ r1 h1 => ?_
    have asks (t : State) (ht : Asked r1.s t) : t = { r.s with
        work := t.work, disp := { r.s.disp with gangs := onGang h.id.did h.id.gid (Gang.without h) r.s.disp.gangs } } := by
      rw [ht, h1]
    exact .ite (fun _ => (M.push_asks _ _).mono asks) fun _ => .ite (fun _ => (M.checkBarrier_asks _ _).mono asks) fun _ => .pure (asks _ rfl)

theorem M.retireHart_ends (r : Run s0) : Ends M.retireHart r fun t =>
    t = { r.s with
      hart := r.s.hart.retired, fab := t.fab, work := t.work,
      disp := { r.s.disp with gangs := onGang r.s.hart.id.did r.s.hart.id.gid (Gang.without r.s.hart) r.s.disp.gangs } } := by
  refine .next (M.hart_run r) (.next (M.modDie_run _ _ _) (.next (M.modHart_run _ _) ?_))
  exact (M.leaveGang_ends r.s.hart _).mono fun t ht => by rw [ht]; rfl

/-! ## Killing a hart (R32, R319) -/

/-- A hart that has been killed, with this vector state, before it goes on or retires. -/
def Hart.killed (h : Hart) (led : BitVec 8) (v : VecState) : Hart :=
  { h with
    wait := .none, queue := [], ctx := none, held := none, aside := none, tile := .reset, vec := v,
    streams := h.streams.map fun k => { k with xfer := none },
    svBound := none,
    sr := { h.sr with
      vl := 0, vown := 0, mgrant := 0, mmode := false, cause := 0x13, tval := led.setWidth 64,
      status := { h.sr.status with sv := true, blk := false, spl := false, xf := false, walk := false } } }

/-- The launches once a hart of a gang has been killed (R371). -/
def launchesKilled (g : Option Gang) (ls : List Launch) : List Launch :=
  match g with
  | none => ls
  | some x => ls.map fun l => if l.id = x.launch ∧ statusRank 0x13 < statusRank l.status then { l with status := 0x13 } else l

/-- The dispatchers once a hart of a gang has been killed and before it goes on or retires. -/
def Dispatch.afterKill (h : Hart) (d : Dispatch) : Dispatch :=
  { d with launches := launchesKilled (gangNamed d.gangs h.id.did h.id.gid) d.launches }

/-- Where a kill leaves a hart: at `kexit`, or retired with its gang the smaller (R32, R319). -/
structure Killed (s : State) (led : BitVec 8) (t : State) : Prop where
  goesOn : s.hart.sr.kexit ≠ 0 → ∃ v, t = { s with
    hart := { s.hart.killed led v with pc := s.hart.sr.kexit }, fresh := t.fresh, disp := s.disp.afterKill s.hart }
  retires : s.hart.sr.kexit = 0 → ∃ v, t = { s with
    hart := (s.hart.killed led v).retired, fresh := t.fresh, fab := t.fab, work := t.work,
    disp := { s.disp.afterKill s.hart with gangs := onGang s.hart.id.did s.hart.id.gid (Gang.without (s.hart.killed led v)) s.disp.gangs } }

/-- A killed hart goes on at `kexit` or retires. -/
theorem M.leaves_ends {s : State} {led : BitVec 8} {v : VecState} {r : Run s0}
    (state : r.s = { s with hart := s.hart.killed led v, fresh := r.s.fresh, disp := s.disp.afterKill s.hart }) :
    Ends (if s.hart.sr.kexit = 0 then M.retireHart else M.setPc s.hart.sr.kexit) r (Killed s led) := by
  refine .ite (fun h0 => ?_) fun h0 => ?_
  · refine (M.retireHart_ends r).mono fun t ht => ⟨fun h => absurd h0 h, fun _ => ⟨v, ?_⟩⟩
    rw [ht, state]
    rfl
  · refine M.setPc_ends ⟨fun _ => ⟨v, ?_⟩, fun h => absurd h h0⟩
    rw [state]
    rfl

theorem M.killHart_ends (led : BitVec 8) (r : Run s0) : Ends (M.killHart led) r (Killed r.s led) := by
  obtain ⟨v, r1, h1, d1⟩ := M.freeVec_draws r
  refine .next h1 (.next (M.modHart_run _ _) (.next (M.hart_run _) ?_))
  let r2 := r1.emit (.hart (r1.s.hart.killed led v))
  have state : r2.s = { r.s with hart := r.s.hart.killed led v, fresh := r2.s.fresh } := by
    simp only [r2, Run.emit_s]
    rw [d1]
    rfl
  have key : r2.s.hart = r.s.hart.killed led v := by rw [state]
  have names : M.gangOf r2.s.hart r2 = .ok (gangNamed r.s.disp.gangs r.s.hart.id.did r.s.hart.id.gid, r2) := by
    rw [M.gangOf_run, state]
    rfl
  have leaves {r3 : Run s0} (h3 : r3.s = { r2.s with disp := r.s.disp.afterKill r.s.hart }) :
      Ends (if r2.s.hart.sr.kexit = 0 then M.retireHart else M.setPc r2.s.hart.sr.kexit) r3 (Killed r.s led) := by
    rw [key]
    exact M.leaves_ends (by rw [h3, state])
  cases hg : gangNamed r.s.disp.gangs r.s.hart.id.did r.s.hart.id.gid with
  | none =>
    rw [hg] at names
    exact .next names (leaves (by rw [Dispatch.afterKill, hg, state]; rfl))
  | some g =>
    rw [hg] at names
    have tells : M.launchStatus g.launch 0x13 r2 = .ok (⟨⟩, r2.emit (.disp (r.s.disp.afterKill r.s.hart))) := by
      simp only [M.launchStatus, M.modDisp, Dispatch.afterKill, launchesKilled, hg, Bool.and_eq_true, decide_eq_true_eq]
      rw [M.bind_run, M.st_run, state]
      rfl
    exact .next names (.next tells (leaves rfl))

/-! ## Taking a trap between instructions (R302) -/

/-- At an instruction boundary a trap is not held up. -/
theorem M.atBoundary_run {r : Run s0} (h : Between r.s) : M.atBoundary r = .ok (⟨⟩, r) := by
  obtain ⟨hresponse, hrenew, hnbx⟩ := h
  simp only [M.atBoundary, M.bind_run, M.hart_run]
  cases hw : r.s.hart.wait with
  | response n => exact absurd hw (hresponse n)
  | renew n => exact absurd hw (hrenew n)
  | nbx b n c => exact absurd hw (hnbx b n c)
  | _ => rfl

/-! ## Focus, and changes of several harts -/

/-- A hart that has a slot comes into focus. -/
theorem focus_hart {s : State} {k : Nat} {h : Hart} (hk : s.hartOf k = some h) : (Upd.apply s (.focus k)).hart = h := by
  simp only [State.hartOf] at hk
  simp only [Upd.apply]
  split at hk
  · simp_all
  · simp_all

theorem M.focus_run {r : Run s0} {k : Nat} {h : Hart} (hk : r.s.hartOf k = some h) : M.focus k r = .ok (⟨⟩, r.emit (.focus k)) := by
  simp only [M.focus, M.bind_run, M.st_run, hk]
  rfl

/-- Bringing a hart into focus moves harts only. -/
theorem focus_eq (s : State) (k : Nat) :
    Upd.apply s (.focus k) = { s with hart := (Upd.apply s (.focus k)).hart, others := (Upd.apply s (.focus k)).others } := by
  simp only [Upd.apply]
  split
  · rfl
  · split <;> rfl

theorem M.focus_finds {r : Run s0} {k : Nat} {h : Hart} (hk : r.s.hartOf k = some h) :
    ∃ r', M.focus k r = .ok (⟨⟩, r') ∧ r'.s = { r.s with hart := h, others := r'.s.others } :=
  ⟨_, M.focus_run hk, (focus_eq r.s k).trans (by rw [focus_hart hk]; rfl)⟩

theorem reg_zeroFirst (h : Hart) (r : Reg) : ({ h with x := zeroFirst h.x } : Hart).reg r = h.reg r := by
  by_cases hr : r = 0
  · simp only [Hart.reg, if_pos hr]
  · have pos : 0 ≠ r.toNat := fun h0 => hr (BitVec.eq_of_toNat_eq h0.symm)
    simp only [Hart.reg, if_neg hr, zeroFirst]
    exact Vector.getElem_set_ne _ _ pos

theorem place_eq (s : State) (h : Hart) :
    Upd.apply s (.place h) = { s with hart := (Upd.apply s (.place h)).hart, others := (Upd.apply s (.place h)).others } := by
  simp only [Upd.apply]
  split <;> rfl

/-- A hart learns what its die knows (R239). -/
theorem M.mergeDie_run (r : Run s0) : M.mergeDie r = .ok (⟨⟩, r.emit (.hart { r.s.hart with
    sr := { r.s.hart.sr with vclk := clkMerge r.s.hart.sr.vclk (r.s.die r.s.hart.id.did).clock } })) := rfl

/-- What a change of some harts does: each of them is changed, every other hart and the rest of the state is as before. -/
structure Changed (f : Hart → Hart) (hs : List Hart) (s t : State) : Prop where
  them : ∀ h ∈ hs, t.hartOf h.key = some { f h with x := zeroFirst (f h).x }
  others : ∀ k, k ∉ hs.map Hart.key → t.hartOf k = s.hartOf k
  rest : t = { s with hart := t.hart, others := t.others }

theorem M.eachOther_ends {f : Hart → Hart} (hf : ∀ h, (f h).key = h.key) (hs : List Hart) (nodup : (hs.map Hart.key).Nodup)
    (r : Run s0) (found : ∀ h ∈ hs, r.s.hartOf h.key = some h) :
    Ends (M.each hs fun h => M.modOther h.key f) r (Changed f hs r.s) := by
  induction hs generalizing r with
  | nil => exact .pure ⟨by simp, fun _ _ => rfl, rfl⟩
  | cons h hs ih =>
    obtain ⟨fresh, nodup⟩ := List.nodup_cons.1 nodup
    have mod : M.modOther h.key f r = .ok (⟨⟩, r.emit (.place (f h))) := by
      simp only [M.modOther, M.bind_run, M.st_run, found h (by simp)]
      rfl
    have apart : ∀ g ∈ hs, h.key ≠ g.key := fun g hg e => fresh (e ▸ List.mem_map_of_mem hg)
    refine .next mod ((ih nodup (r.emit (.place (f h))) fun g hg => ?_).mono fun t ht => ?_)
    · rw [Run.emit_s, hartOf_place, hf, if_neg (apart g hg), found g (by simp [hg])]
    · refine ⟨fun g hg => ?_, fun k hk => ?_, ?_⟩
      · rcases List.mem_cons.1 hg with rfl | hg
        · rw [ht.others _ fresh, Run.emit_s, hartOf_place, hf, if_pos rfl]
        · exact ht.them g hg
      · rw [List.map_cons, List.mem_cons, not_or] at hk
        obtain ⟨hkh, hk⟩ := hk
        rw [ht.others k hk, Run.emit_s, hartOf_place, hf, if_neg (Ne.symm hkh)]
      · rw [ht.rest, Run.emit_s, place_eq]

/-- The count that a hart waits for in `swait` has been reached. -/
def State.waitMet (s : State) (h : Hart) : Bool :=
  match h.wait with
  | .swait f t => h.phase == .run && countReached (s.countOf f) t
  | _ => false

/-- The first of the harts whose counts have been reached goes on. -/
def M.countOut (s : State) : List Hart → M s PUnit
  | [] => M.stall
  | h :: others => do
    M.focus h.key
    match h.wait with
    | .swait f _ => M.mergeClk (s.die (homeOf (f * 2 ^ 18))).clock
    | _ => pure ⟨⟩
    M.mergeDie
    M.modHart fun h => { h with wait := .none }
    M.advance
    if !others.isEmpty then M.push .swaitSatisfied

/-- A hart that leaves the gang barrier, knowing what all its members know (R106, R239). -/
def Hart.released (clk : Clock) (h : Hart) : Hart :=
  { h with wait := .none, pc := h.pc + 4, vknown := clk, sr := { h.sr with vclk := clk } }

/-- The members of a gang that wait at its barrier. -/
def State.atBarrier (s : State) (g : Gang) : List Hart := (s.members g).filter fun h => h.wait == .barrier && h.phase == .run

/-- What the members at the barrier and the die know together (R239). -/
def State.barrierClock (s : State) (g : Gang) : Clock := (s.atBarrier g).foldl (fun c h => clkMerge c h.sr.vclk) (s.die g.die).clock

/-- The members of a gang have keys of their own. -/
theorem members_keys {s : State} {g : Gang} (nodup : g.harts.Nodup) : ((s.members g).map Hart.key).Nodup := by
  have keys (ks : List Nat) : (ks.filterMap s.hartOf).map Hart.key = ks.filter fun k => (s.hartOf k).isSome := by
    induction ks with
    | nil => rfl
    | cons k ks ih =>
      cases hk : s.hartOf k with
      | none => simp [hk, ih]
      | some h => simp [hk, ih, (hartOf_key hk).2]
  rw [State.members, keys]
  exact nodup.filter _

theorem members_found {s : State} {g : Gang} {h : Hart} (hh : h ∈ s.members g) : s.hartOf h.key = some h := by
  obtain ⟨k, _, hk⟩ := List.mem_filterMap.1 hh
  rw [(hartOf_key hk).2, hk]

end Sys2Proof.Machine

namespace Sys2Proof.Proofs


/-- A kill works on the hart that it names. -/
theorem kill_leads {s : State} {k : Nat} {c : BitVec 8} {h : Hart} (hk : s.hartOf k = some h) (live : slotTaken h = true) :
    Leads s (.kill k c) (Killed (Upd.apply s (.focus k)) c) := by
  refine Ends.leads rfl (.next (M.focus_run hk) (.next (M.hart_run _) (.next (M.need_true ?_) (M.killHart_ends c _))))
  rw [Run.emit_s, Run.start_s, focus_hart hk]
  exact live

theorem trapEntry_exec {s : State} (c v a vec) (run : s.hart.phase = .run) (between : Between s) (tvec : s.hart.sr.tvec ≠ 0) :
    exec (.trapEntry s.hart.key c v a vec) s = .next (handled { s with hart := { s.hart with wait := .none } } c v a vec) := by
  obtain ⟨r', hr, hs⟩ := M.takeTrap_run c v a vec ((Run.start s).emit (.hart { s.hart with wait := .none })) tvec
  show execTrapEntry _ _ _ _ _ _ = _
  rw [execTrapEntry, exec1_eq, M.bind_ok (M.focus_start s), M.bind_ok (M.hart_run _), M.bind_ok (M.need_true (by simp [run])),
    M.bind_ok (M.atBoundary_run between), M.bind_ok (M.modHart_run _ _)]
  exact (congrArg (fun x => Host.Outcome.next (ended x)) hr).trans (congrArg _ hs)

theorem idleTimeout_exec {s : State} (run : s.hart.phase = .run) (idle : s.hart.wait = .idle) (late : s.time.toNat ≥ s.hart.idleAt + 10000) :
    exec (.idleTimeout s.hart.key) s = .next (onward { s with hart := { s.hart with wait := .none } }) := by
  show execIdleTimeout _ _ = _
  rw [execIdleTimeout, exec1_eq, M.bind_ok (M.focus_start s), M.bind_ok (M.hart_run _), M.bind_ok (M.need_true (by simp [run, idle, late]))]
  rfl

theorem trapEntry_kills {s : State} (c v a vec) (run : s.hart.phase = .run) (between : Between s) (tvec : s.hart.sr.tvec = 0) :
    Leads s (.trapEntry s.hart.key c v a vec) (Killed { s with hart := { s.hart with wait := .none } } c) := by
  refine Ends.leads rfl (.next (M.focus_start s) (.next (M.hart_run _) (.next (M.need_true (by simp [run]))
    (.next (M.atBoundary_run between) (.next (M.modHart_run _ _) (.next (M.hart_run _) (.ite (fun _ => ?_) fun h => absurd tvec h)))))))
  exact M.killHart_ends c _

/-- The line that an idle hart watches has been written: it goes on (R111). -/
theorem idleWake_leads {s : State} {h : Hart} {rest : List Hart}
    (waits : s.harts.filter (fun h => h.phase == .run && h.wait == .idle && h.watchHit) = h :: rest) (slot : s.hartOf h.key = some h) :
    Leads s .idleWake fun t => t = { s with
      hart := { h with wait := .none, pc := h.pc + 4 }, others := t.others, work := t.work } := by
  obtain ⟨r1, focused, d1⟩ := M.focus_finds (r := Run.start s) slot
  have hart : r1.s.hart = h := by rw [d1]
  refine Ends.leads rfl ?_
  rw [waits]
  refine .next focused (.next (M.modHart_run _ _) (.next (M.advance_run _) ?_))
  refine .ite (fun _ => (M.push_asks _ _).mono fun t ht => ?_) fun _ => .pure ?_
  · rw [ht]
    simp only [Run.emit_s, Upd.apply, hart]
    rw [d1]
    rfl
  · simp only [Run.emit_s, Upd.apply, hart]
    rw [d1]
    rfl

/-- A settlement count has reached what a hart waits for: the hart goes on and knows what the count's dies know (R196, R219, R239). -/
theorem swaitSatisfied_leads {s : State} {h : Hart} {rest : List Hart} {f : Nat} {c : BitVec 32}
    (waits : s.harts.filter s.waitMet = h :: rest) (slot : s.hartOf h.key = some h) (hw : h.wait = .swait f c) :
    Leads s .swaitSatisfied fun t => t = { s with
      hart := { h with
        wait := .none, pc := h.pc + 4,
        sr := { h.sr with
          vclk := clkMerge (clkMerge h.sr.vclk (s.die (homeOf (f * 2 ^ 18))).clock) (s.die h.id.did).clock } },
      others := t.others, work := t.work } := by
  obtain ⟨r1, focused, d1⟩ := M.focus_finds (r := Run.start s) slot
  have hart : r1.s.hart = h := by rw [d1]
  refine Ends.leads (m := M.countOut s (s.harts.filter s.waitMet)) rfl ?_
  rw [waits, M.countOut, hw]
  refine .next focused (.next (M.modSr_run _ _) (.next (M.mergeDie_run _) (.next (M.modHart_run _ _) (.next (M.advance_run _) ?_))))
  refine .ite (fun _ => (M.push_asks _ _).mono fun t ht => ?_) fun _ => .pure ?_
  · rw [ht]
    simp only [Run.emit_s, Upd.apply, hart]
    rw [d1]
    rfl
  · simp only [Run.emit_s, Upd.apply, hart]
    rw [d1]
    rfl

/-- The gang barrier lets its members go on (R106, R239). -/
theorem barrierRelease_leads {s : State} {g : Gang}
    (full : s.disp.gangs.find? (fun g => g.full && g.gathered s && (g.harts.filterMap s.hartOf).any fun h => h.wait == .barrier) = some g)
    (nodup : g.harts.Nodup) :
    Leads s .barrierRelease fun t => ∃ u, Changed (Hart.released (s.barrierClock g)) (s.atBarrier g) s u
      ∧ t = { u with disp := { u.disp with gangs := onGang g.die g.gid (fun x => { x with barrier := s.haltedBits g }) u.disp.gangs } } := by
  have keys : ((s.atBarrier g).map Hart.key).Nodup := (members_keys nodup).sublist (List.filter_sublist.map _)
  have found : ∀ h ∈ s.atBarrier g, s.hartOf h.key = some h := fun h hh => members_found (List.mem_filter.1 hh).1
  refine Ends.leads rfl ?_
  rw [full]
  exact .bind (M.eachOther_ends (f := Hart.released (s.barrierClock g)) (fun _ => rfl) _ keys (Run.start s) found) fun _ r1 h1 =>
    M.modGang_ends ⟨r1.s, h1, rfl⟩

/-- The gang of a hart that retires counts one halted member more, and holds the hart no more (R26). -/
theorem retired_gang {gs : List Gang} {x : Gang} (h : Hart) (hx : gangNamed gs h.id.did h.id.gid = some x) :
    ∃ y, gangNamed (onGang h.id.did h.id.gid (Gang.without h) gs) h.id.did h.id.gid = some y ∧ y.halted = x.halted + 1 ∧ h.key ∉ y.harts := by
  refine ⟨Gang.without h x, ?_, rfl, fun hin => (of_decide_eq_true (List.mem_filter.1 hin).2 : h.key ≠ h.key) rfl⟩
  rw [gangNamed_onGang (f := Gang.without h) fun _ => ⟨rfl, rfl⟩, hx]
  rfl

/-- A killed hart has no transfer in flight. -/
theorem idle_of_killed (h : Hart) : ∀ x ∈ (h.streams.map fun k => { k with xfer := none }).toList, x.xfer = none := by
  intro x hx
  rw [Vector.toList_map] at hx
  obtain ⟨y, _, rfl⟩ := List.mem_map.1 hx
  rfl

/-- Settles O45, clause by clause: what a kill leaves is stated once, as `Killed`, and a trap without a handler is a kill. -/
theorem waitsEndAndHartsAreKilled : Obligations.WaitsEndAndHartsAreKilled := by
  intro s
  refine ⟨fun k c h hk live => ?_, fun c v a vec run between tvec => trapEntry_exec c v a vec run between tvec,
    fun c v a vec run between tvec kexit => ?_, fun run idle late => idleTimeout_exec run idle late, fun h rest waits slot => ?_,
    fun g full nodup => ?_, fun h rest f c waits slot hw => ?_⟩
  · obtain ⟨t, ht, killed⟩ := kill_leads (c := c) hk live
    have key : h.key = k := (hartOf_key hk).2
    have hart := focus_hart hk
    refine ⟨t, ht, ?_⟩
    by_cases kexit : h.sr.kexit = 0
    · obtain ⟨v, hv⟩ := killed.retires (by rw [hart]; exact kexit)
      rw [hart, focus_disp] at hv
      rw [hv]
      refine ⟨key, fun _ => rfl, rfl, rfl, rfl, rfl, rfl, rfl, rfl, rfl, rfl, rfl, rfl, rfl, rfl, idle_of_killed h, focus_cells _ k,
        focus_counts _ k, fun h0 => absurd kexit h0, fun _ => ⟨rfl, fun x hx => ?_⟩, rfl⟩
      exact key ▸ retired_gang (h.killed c v) hx
    · obtain ⟨v, hv⟩ := killed.goesOn (by rw [hart]; exact kexit)
      rw [hart, focus_disp] at hv
      rw [hv]
      exact ⟨key, fun _ => rfl, rfl, rfl, rfl, rfl, rfl, rfl, rfl, rfl, rfl, rfl, rfl, rfl, rfl, idle_of_killed h, focus_cells _ k,
        focus_counts _ k, fun _ => ⟨rfl, rfl, rfl⟩, fun h0 => absurd h0 kexit, rfl⟩
  · obtain ⟨t, ht, killed⟩ := trapEntry_kills c v a vec run between tvec
    obtain ⟨v, hv⟩ := killed.goesOn kexit
    refine ⟨t, ht, ?_⟩
    rw [hv]
    exact ⟨rfl, rfl, rfl, rfl⟩
  · obtain ⟨t, ht, hs⟩ := idleWake_leads waits slot
    refine ⟨t, ht, ?_⟩
    rw [hs]
    exact ⟨rfl, rfl, rfl⟩
  · obtain ⟨t, ht, u, changed, rfl⟩ := barrierRelease_leads full nodup
    refine ⟨_, ht, fun h hh => ⟨_, changed.them h hh, rfl, rfl, rfl, rfl, fun r => reg_zeroFirst _ r⟩, ?_, ?_⟩
    · intro x hx die gid
      obtain ⟨y, _, rfl⟩ := List.mem_map.1 hx
      by_cases hy : (y.die = g.die && y.gid = g.gid) = true
      · rw [if_pos hy]
      · rw [if_neg hy] at die gid
        simp [die, gid] at hy
    · rw [changed.rest]
  · obtain ⟨t, ht, hs⟩ := swaitSatisfied_leads waits slot hw
    refine ⟨t, ht, ?_⟩
    rw [hs]
    exact ⟨rfl, rfl, rfl⟩

end Sys2Proof.Proofs
end

section
/-!
PROOFS. An admission that fails its statement (O43). The statement asks that no hart and no launch stands twice in the state, but not that of
the queues. Where a queue has two entries, the first unbound from the launch's virtual function and the second bound to it, a spread launch has
a die to go to until the dispatcher writes a deficit: that write keeps the first entry alone, and with it no die is bound to the function (R278).
-/

open Sys2Proof Sys2Proof.Machine Sys2Proof.Claim

namespace Sys2Proof.Proofs

/-- A record of one spread gang of one hart, for virtual function 0. -/
def spreadRecord : BitVec 1024 :=
  putRecordField (putRecordField (putRecordField (putRecordField (putRecordField 0 32 2 1) 34 1 1) 35 1 1) 37 1 2) 40 8 1000000

def spreadLaunch : Launch :=
  { id := 0, die := 0, num := 4096, q := 0, record := spreadRecord, deps := [], admitted := 0, retired := 0, stopped := false, cycles := 0,
    status := 0, journaled := false, clk := Clock.zero, waited := 0 }

/-- An empty queue 0 of die 0 bound to a virtual function. -/
def queueBoundTo (vf : Nat) : Queue := { q := 0, vf := some vf, field := 0, next := 0, latched := [], busy := [], deficit := 0 }

/-- A running module without harts, whose queue 0 has an entry for virtual function 1 and then one for virtual function 0. -/
def twiceBoundState : State :=
  { State.reset with
    host := { HostPort.reset with power := .run, vfs := HostPort.reset.vfs.setIfInBounds 0 { en := true, root := 0, tkey := 0 } },
    disp := { State.reset.disp with launches := [spreadLaunch], queues := [queueBoundTo 1, queueBoundTo 0] } }

/-- The dispatcher of die 0 chooses the launch, and there is a place for its gang. -/
theorem twiceBoundState_ready :
    ((ranked twiceBoundState).choose 0).map Choice.launch = some spreadLaunch
    ∧ twiceBoundState.rerunAhead 0 (recPriority spreadRecord) = false
    ∧ gangsFit spreadRecord (twiceBoundState.tenantOf (recVf spreadRecord)) (gangsAtOnce spreadRecord) (twiceBoundState.rooms spreadLaunch) = true
    ∧ (twiceBoundState.nextPlace spreadLaunch).map (fun p => (p.1, p.2.1)) = some (0, [0])
    ∧ recPreload spreadRecord = 0 ∧ gangsAtOnce spreadRecord = 1
    ∧ (twiceBoundState.harts.map Hart.key).Nodup ∧ (twiceBoundState.disp.launches.map (·.id)).Nodup := by
  decide +kernel

/-- Once the deficit of queue 0 has been written, no die is bound to virtual function 0, and no gang is admitted. -/
theorem twiceBoundState_admits_none (t : State) (h : exec (.gangAdmit 0) twiceBoundState = .next t) : t.disp.launches.map Launch.admitted = [0] := by
  have run : (match exec (.gangAdmit 0) twiceBoundState with | .next t => t.disp.launches.map Launch.admitted == [0] | _ => false) = true := by
    decide +kernel
  rw [h] at run
  exact eq_of_beq run

/-- Refutes O43: the launch of `twiceBoundState` is the highest-ranked one and its gang fits, but GANG_ADMIT admits no gang. -/
theorem not_launchesAreAcceptedAndAdmitted : ¬ Obligations.LaunchesAreAcceptedAndAdmitted := by
  unfold Obligations.LaunchesAreAcceptedAndAdmitted
  intro h
  obtain ⟨hchoose, hrerun, hfit, hplace, hpreload, honce, hkeys, hunique⟩ := twiceBoundState_ready
  obtain ⟨c, hc, hlaunch⟩ := Option.map_eq_some_iff.1 hchoose
  obtain ⟨⟨d, hids, o⟩, hnext, hpair⟩ := Option.map_eq_some_iff.1 hplace
  obtain ⟨rfl, rfl⟩ : d = 0 ∧ hids = [0] := by simpa using hpair
  obtain ⟨-, -, -, -, -, hadmit⟩ := h twiceBoundState 0 0 0 0
  have admits := hadmit c [0] o (by decide) hc
  rw [hlaunch] at admits
  have free : ∀ g, twiceBoundState.hartOf (384 * 0 + 0) = some g → g.sr.vown = 0 := fun g hg => by
    cases hg
    decide
  obtain ⟨t, hexec, -, -, hlaunches, -⟩ := (admits hrerun (.inr hfit) hnext hpreload (by decide) hkeys hunique).2 honce
    fun hid hhid g hg => free g (by rwa [List.mem_singleton.1 hhid] at hg)
  have none_ := twiceBoundState_admits_none t hexec
  rw [hlaunches] at none_
  exact absurd none_ (by decide +kernel)

end Sys2Proof.Proofs
end

section
/-!
PROOFS. A retirement that fails its statement (O44). The statement says that the write of a completion flag changes no byte of host memory but
those of the flag (R26). It asks nothing of the caches: where an L1 holds the flag's line and the home slice has no room, the recall drops the
copy. A clean byte that differs from the arrays then reads as in the arrays.
-/

open Sys2Proof Sys2Proof.Machine Sys2Proof.Claim

namespace Sys2Proof.Proofs

/-- A clean copy of line 0x1FFF in an L1. The two images differ in its byte 32: the live one has 1 there, the arrays 0 (R190). -/
def flagLine : Line :=
  { addr := 0x1FFF, data := BitVec.ofNat 512 (2 ^ 256), dirty := 0, poison := false, level := .l1 0, key := none }

/-- Clean lines that fill the home slice of line 0x1FFF. -/
def flagSlice : List Line := (List.range 4096).map fun i =>
  { addr := 0x1FFF + 384 * (i + 1), data := 0, dirty := 0, poison := false, level := .l2, key := none }

/-- A launch whose one gang has retired, with its entry in the journal and its completion flag at 0x3FFF8 still to be written. -/
def flagLaunch : Launch :=
  { id := 0, die := 0, num := 4096, q := 0, record := putRecordField (putRecordField 0 32 2 1) 16 8 0x3FFF8, deps := [], admitted := 1,
    retired := 1, stopped := false, cycles := 0, status := 0, journaled := true, clk := Clock.zero, waited := 0 }

/-- The first page of virtual function 0 is mapped to physical address 0x40000, so that the flag lies in line 0x1FFF. -/
def flagState : State :=
  let s := State.reset.placeScalar 0
  { s with img := { s.img with cache := flagLine :: flagSlice }, disp := { s.disp with launches := [flagLaunch] } }

/-- What the access to the flag is granted. -/
def flagAcc : Acc :=
  { va := 0x3FFF8, pa := 0x7FFF8,
    leaf := { base := 0x40000, size := 0x40000, home := 0, ww := false, wset := 0, tkey := 0, sh := false, pin := false, cc := false, wb := false,
              x := true, w := true, r := true, pte := 0x18000 } }

theorem flagState_retires : flagState.disp.launches.find? (·.over) = some flagLaunch ∧ flagLaunch.journaled = true ∧ flagState.cells.wf = true := by
  decide +kernel

/-- The flag is granted, its write is at its turn, and it lies in host memory without a tail word. -/
theorem flagState_ready :
    let vf := recVf flagLaunch.record
    let va := recFlag flagLaunch.record
    va % 8 = 0 ∧ (∀ old ∈ flagState.tlbOf vf va, some old = (flagState.walk vf va).cached)
    ∧ flagState.checkLeaf (flagState.tenantOf vf) va 8 .store (flagState.walk vf va) = .ok flagAcc
    ∧ isHostMem flagAcc.pa = true ∧ flagAcc.pa % 8 = 0 ∧ flagState.tailAt flagAcc.pa = none := by
  decide +kernel

theorem flagState_turn : DieReady flagState flagLaunch.die flagAcc.leaf.home :=
  ⟨by decide +kernel, by decide +kernel, by decide +kernel⟩

theorem flagState_byte : liveByte flagState true 0x7FFE0 = 1 := by decide +kernel

/-- After the retirement byte 32 of the flag's line reads as in the arrays. -/
theorem flagState_byte_lost (t : State) (h : exec .launchRetire flagState = .next t) : liveByte t true 0x7FFE0 = 0 := by
  have run : (match exec .launchRetire flagState with | .next t => liveByte t true 0x7FFE0 == 0 | _ => false) = true := by
    decide +kernel
  rw [h] at run
  exact eq_of_beq run

/-- Refutes O44: in `flagState` the write of the completion flag drops the copy of the flag's line, and a byte outside the flag reads otherwise. -/
theorem not_gangsRetireAndAreRestored : ¬ Obligations.GangsRetireAndAreRestored := by
  unfold Obligations.GangsRetireAndAreRestored
  intro h
  obtain ⟨hover, hjournaled, hwf⟩ := flagState_retires
  obtain ⟨hva, hfresh, hleaf, hmem, hpa, htail⟩ := flagState_ready
  obtain ⟨-, hretire, -⟩ := h flagState flagState
  obtain ⟨t, hexec, -, -, hbytes⟩ := (hretire flagLaunch hover).2.2 flagAcc hjournaled hwf hva hfresh hleaf flagState_turn hmem hpa htail
  have kept : liveByte t true 0x7FFE0 = liveByte flagState true 0x7FFE0 := (hbytes 0x7FFE0 (by decide)).trans (if_neg (by decide))
  rw [flagState_byte_lost t hexec, flagState_byte] at kept
  exact absurd kept (by decide)

end Sys2Proof.Proofs
end

section
/-!
PROOFS. The fetch of a block (R98, R113): what it leaves in the caches and in the buffer, and that nothing it leaves changes what the next
word is.
-/

open Sys2Proof Sys2Proof.Machine Sys2Proof.Claim

namespace Sys2Proof.Machine

variable {s0 : State}

/-! ## The walk of a page (R186, R187) -/

/-- The walk of an address is that of its page. -/
theorem walk_page {s : State} {vf va vb : Nat} (h : va / 2 ^ 18 = vb / 2 ^ 18) : s.walk vf va = s.walk vf vb := by
  have field (hi lo : Nat) (h18 : 18 ≤ lo) : bits va hi lo = bits vb hi lo := by
    obtain ⟨k, rfl⟩ := Nat.exists_eq_add_of_le h18
    simp only [bits, Nat.pow_add, ← Nat.div_div_eq_div_mul, h]
  have range : va ≥ 2 ^ 54 ↔ vb ≥ 2 ^ 54 := by omega
  simp only [State.walk, State.walkFrom, field 53 42 (by omega), field 41 30 (by omega), field 29 18 (by omega), range]

/-- A walk that ends at a page ends at one whose base and size are multiples of 8. -/
def KeepsDoublewords (w : WalkRes) : Prop := ∀ l, w = .leaf l → ∀ va, va % 8 = 0 → l.pa va % 8 = 0

theorem leafOf_keepsDoublewords (e size pte : Nat) (h : size % 8 = 0) : KeepsDoublewords (leafOf e size pte) := by
  intro l hl va hva
  obtain ⟨hbase, hsize⟩ := Proofs.leafOf_page hl
  have offset : va % size % 8 = 0 := by rw [Nat.mod_mod_of_dvd va (Nat.dvd_of_mod_eq_zero h), hva]
  rw [Leaf.pa, hbase, hsize, pteFrame]
  omega

theorem fault_keepsDoublewords : KeepsDoublewords .fault := fun _ h => nomatch h

theorem KeepsDoublewords.ite {c : Prop} [Decidable c] {v w : WalkRes} (hv : KeepsDoublewords v) (hw : KeepsDoublewords w) :
    KeepsDoublewords (if c then v else w) := by
  split
  · exact hv
  · exact hw

/-- The levels of the table in their order (R186). -/
theorem walkFrom_keepsDoublewords (s : State) (root va : Nat) : KeepsDoublewords (s.walkFrom root va) := by
  have poison (pa : Nat) : KeepsDoublewords (.poison pa) := fun _ h => nomatch h
  refine .ite fault_keepsDoublewords (.ite (poison _) ?_)
  split
  · exact fault_keepsDoublewords
  refine .ite (poison _) ?_
  split
  · exact fault_keepsDoublewords
  refine .ite fault_keepsDoublewords (.ite (leafOf_keepsDoublewords _ _ _ (by norm_num)) ?_)
  split
  · exact fault_keepsDoublewords
  refine .ite (poison _) ?_
  split
  · exact fault_keepsDoublewords
  · exact .ite fault_keepsDoublewords (.ite (leafOf_keepsDoublewords _ _ _ (by norm_num))
      (.ite (.ite (leafOf_keepsDoublewords _ _ _ (by norm_num)) fault_keepsDoublewords) fault_keepsDoublewords))

/-- An aligned access of 8 bytes lies at a multiple of 8. -/
theorem pageOk_aligned8 {s : State} {va : Word} {k : Kind} {a : Acc} (h : PageOk s va 8 k a) : a.pa % 8 = 0 := by
  have allowed := h.allowed
  cases hw : s.walk s.hart.id.vf va.toNat with
  | fault => simp [hw, State.checkLeaf] at allowed
  | poison pa => simp [hw, State.checkLeaf] at allowed
  | leaf l =>
    rw [hw] at allowed
    have pa : a.pa = l.pa va.toNat := by
      simp only [State.checkLeaf] at allowed
      split at allowed
      · cases allowed
      · split at allowed
        · cases allowed
        · split at allowed
          · cases allowed
          · split at allowed
            · cases allowed
            · cases allowed
              rfl
    rw [pa]
    exact walkFrom_keepsDoublewords _ _ _ l hw _ h.aligned

/-- Where every cached walk is the walk of the tables, that walk is used and nothing is drawn. -/
theorem M.pickWalk_agree {now : WalkRes} {l : List (Option Leaf)} (h : ∀ old ∈ l, some old = now.cached) (r : Run s0) :
    M.pickWalk now l r = .ok (now, r) := by
  induction l with
  | nil => rfl
  | cons old l ih =>
    rw [M.pickWalk, if_pos (h old (by simp))]
    exact ih fun o ho => h o (by simp [ho])

/-! ## What a fetch leaves -/

/-- Every translation copy of the hart's function that agreed with the tables of a state still does so. -/
def Agrees (s t : State) : Prop :=
  ∀ va, (∀ old ∈ s.tlbOf s.hart.id.vf va, some old = (s.walk s.hart.id.vf va).cached) →
    ∀ old ∈ t.tlbOf s.hart.id.vf va, some old = (s.walk s.hart.id.vf va).cached

/-- Nothing has changed but translation copies that agree with the tables, keys of frames, the places of cached lines, and the buffer. -/
structure Kept (s t : State) : Prop where
  same : t = fetchedInto s t
  line : ∀ la ww, t.liveLine la ww = s.liveLine la ww
  poison : ∀ la, t.livePoison la = s.livePoison la
  addrs : t.img.cache.map Line.addr = s.img.cache.map Line.addr
  agrees : Agrees s t

theorem Kept.walk {s t : State} (h : Kept s t) (vf va : Nat) : t.walk vf va = s.walk vf va := by
  have host : t.host = s.host := by rw [h.same]; rfl
  have bytes (pa n : Nat) : t.liveVal pa n = s.liveVal pa n := by simp only [State.liveVal, State.liveBytes, h.line]
  have pte (table i : Nat) : t.pte table i = s.pte table i := by simp only [State.pte, bytes]
  have agree (table i e : Nat) : t.agree table i e = s.agree table i e := by simp only [State.agree, pte]
  simp only [State.walk, State.walkFrom, host, h.poison, pte, agree]

theorem Kept.vf {s t : State} (h : Kept s t) : t.hart.id.vf = s.hart.id.vf := by rw [h.same]; rfl

theorem kept_frame : Frame Kept where
  refl s := ⟨rfl, fun _ _ => rfl, fun _ => rfl, rfl, fun _ h => h⟩
  trans {a b c} h k := {
    same := by rw [k.same, h.same]; rfl
    line := fun la ww => (k.line la ww).trans (h.line la ww)
    poison := fun la => (k.poison la).trans (h.poison la)
    addrs := k.addrs.trans h.addrs
    agrees := fun va fresh => by
      have := k.agrees va
      rw [h.vf, h.walk] at this
      exact this (h.agrees va fresh) }

theorem Kept.roomy {s t : State} (h : Kept s t) {la k : Nat} (hr : Roomy s la k) : Roomy t la k := by
  have count (c : List Line) (p : Nat → Bool) : (c.filter fun l => p l.addr).length = ((c.map Line.addr).filter p).length := by
    rw [List.filter_map, List.length_map]
    rfl
  rw [Roomy, count _ fun a => cachePlace a .l2 == cachePlace la .l2, h.addrs, ← count _ fun a => cachePlace a .l2 == cachePlace la .l2]
  exact hr

theorem Kept.seen {s t : State} (h : Kept s t) (a : Acc) (n : Nat) : seen t a n = seen s a n := by
  have dev : t.devBytes a.pa n = s.devBytes a.pa n := by rw [h.same]; rfl
  simp only [Claim.seen, dev, State.firstPoison, h.poison, State.liveBytes, h.line]

theorem Kept.page {s t : State} (h : Kept s t) {va : Word} {n : Nat} {k : Kind} {a : Acc} (p : PageOk s va n k a) : PageOk t va n k a where
  aligned := p.aligned
  fresh := by
    rw [h.vf, h.walk]
    exact h.agrees _ p.fresh
  allowed := by
    rw [h.vf, h.walk, ← p.allowed, h.same]
    rfl

theorem Kept.reached {s t : State} (h : Kept s t) {home : Nat} (hr : Reached s home) : Reached t home := by
  rw [h.same]
  exact ⟨hr.tails, hr.own, hr.far⟩

/-! ## The parts of a fetch -/

/-- A check of a page whose cached walks agree with the tables is granted, and adds to the copies the walk alone. -/
theorem M.check_keeps {va : Word} {n : Nat} {k : Kind} {r : Run s0} {a : Acc} (p : PageOk r.s va n k a) :
    ∃ r', M.check va n k r = .ok (.ok a, r') ∧ Kept r.s r'.s ∧ r'.s.hart = r.s.hart := by
  obtain ⟨aligned, fresh, allowed⟩ := p
  cases hw : r.s.walk r.s.hart.id.vf va.toNat with
  | fault => simp [hw, State.checkLeaf] at allowed
  | poison pa => simp [hw, State.checkLeaf] at allowed
  | leaf l =>
    have picks := M.pickWalk_agree fresh r
    rw [hw] at picks allowed
    let e : TlbEntry := { vf := r.s.hart.id.vf, page := va.toNat / 2 ^ 18, leaf := some l }
    let r1 := r.emit (.img { r.s.img with tlb := if r.s.img.tlb.contains e then r.s.img.tlb else e :: r.s.img.tlb })
    have trans : M.translate r.s.hart.id.vf va.toNat r = .ok (.leaf l, r1) := by
      simp only [M.translate, M.bind_run, M.st_run, hw, picks]
      rfl
    have granted : r1.s.checkLeaf r.s.hart.id.tenant va.toNat n k (.leaf l) = .ok a := allowed
    refine ⟨r1.emit (.img { r1.s.img with keys := aput r1.s.img.keys (a.pa / 2 ^ 18) a.leaf.tkey }), ?_, ⟨rfl, fun _ _ => rfl, fun _ => rfl, rfl, ?_⟩, rfl⟩
    · simp [M.check, M.checkAs, aligned, trans, granted]
    · intro vb agree old hold
      obtain ⟨x, hx, rfl⟩ := List.mem_map.1 hold
      obtain ⟨hx, key⟩ := List.mem_filter.1 hx
      have cases_ : x ∈ r.s.img.tlb ∨ x = e := by
        change x ∈ (if r.s.img.tlb.contains e then r.s.img.tlb else e :: r.s.img.tlb) at hx
        split at hx
        · exact .inl hx
        · exact (List.mem_cons.1 hx).symm
      rcases cases_ with hx | rfl
      · exact agree _ (List.mem_map.2 ⟨x, List.mem_filter.2 ⟨hx, key⟩, rfl⟩)
      · have page : va.toNat / 2 ^ 18 = vb / 2 ^ 18 := eq_of_beq (Bool.and_eq_true_iff.1 key).2
        rw [← walk_page page, hw]
        rfl

/-- A line that comes back to its home slice holds what it held. -/
theorem kept_slice (s : State) (la : Nat) :
    Kept s (Upd.apply s (.img { s.img with cache := s.img.cache.map fun l => if l.addr = la then { l with level := .l2 } else l })) := by
  refine ⟨rfl, fun k ww => ?_, fun k => ?_, ?_, fun _ h => h⟩
  · simp only [State.liveLine, img_img]
    rw [findLine_map _ _ _ fun l => by split <;> rfl]
    cases findLine s.img.cache k with
    | none => rfl
    | some l => simp only [Option.map_some]; split <;> rfl
  · simp only [State.livePoison, img_img]
    rw [findLine_map _ _ _ fun l => by split <;> rfl]
    cases findLine s.img.cache k with
    | none => rfl
    | some l => simp only [Option.map_some]; split <;> rfl
  · simp only [img_img, List.map_map]
    refine List.map_congr_left fun l _ => ?_
    simp only [Function.comp]
    split <;> rfl

/-- An engine's access to a line that has room in its home slice moves the line at most. -/
theorem M.openLine_keeps (la : Nat) (ww : Bool) (r : Run s0) (h : Roomy r.s la 1) :
    Ends (M.openLine la .engine ww) r fun t => Kept r.s t ∧ t.hart = r.s.hart := by
  have slice : Ends (M.toSlice la) r fun t => Kept r.s t ∧ t.hart = r.s.hart := by
    have room : r.s.cacheRoom la .l2 = true := by
      refine decide_eq_true (Nat.lt_of_le_of_lt (List.Sublist.length_le (List.monotone_filter_right _ fun l hl => ?_)) h)
      exact (Bool.and_eq_true .. ▸ hl : _ ∧ _).2
    exact .read (.ite (fun _ => ⟨⟨⟩, _, rfl, kept_slice _ _, rfl⟩) fun h => absurd (Bool.or_eq_true_iff.mpr (.inl room)) h)
  have stays : Ends (Pure.pure ⟨⟩ : M s0 PUnit) r fun t => Kept r.s t ∧ t.hart = r.s.hart := .pure ⟨kept_frame.refl _, rfl⟩
  have recalled : Ends (M.recallLine la .engine) r fun t => Kept r.s t ∧ t.hart = r.s.hart := by
    refine .read ?_
    cases findLine r.s.img.cache la with
    | none => exact stays
    | some l =>
      dsimp only
      cases l.level with
      | l1 c => exact slice
      | l2 => exact stays
      | l3 => exact stays
      | host => exact stays
  exact recalled.bind fun _ _ h => .pure h

/-- A doubleword read at its home is what is seen there. -/
theorem M.readHome_keeps {a : Acc} {r : Run s0} {bs : List Byte} (hal : a.pa % 8 = 0) (hroom : Roomy r.s (a.pa / 64) 1)
    (hseen : seen r.s a 8 = some bs) : ∃ r' : Run s0, M.readHome a.pa 8 .engine a.leaf.ww r = .ok (some bs, r')
      ∧ Kept r.s r'.s ∧ r'.s.hart = r.s.hart := by
  by_cases hdev : regionOf a.pa = .device
  · rw [seen, if_pos hdev] at hseen
    exact ⟨r, by simp [M.readHome, hdev, hseen], kept_frame.refl _, rfl⟩
  · rw [seen, if_neg hdev] at hseen
    split at hseen
    · cases hseen
    · rename_i hpoison
      have clean : r.s.firstPoison a.pa 8 = none := by simpa using hpoison
      obtain ⟨_, r', hopen, kept, hart⟩ := M.openLine_keeps (a.pa / 64) a.leaf.ww r hroom
      have bytes : r'.s.liveBytes a.pa 8 a.leaf.ww = bs := by
        simp only [State.liveBytes, kept.line]
        exact Option.some.inj hseen
      have lines : rangeFrom (a.pa / 64) ((a.pa + 8 - 1) / 64 + 1 - a.pa / 64) = [a.pa / 64] := by
        rw [show (a.pa + 8 - 1) / 64 + 1 - a.pa / 64 = 1 by omega]
        rfl
      have each_ : M.each [a.pa / 64] (fun la => M.openLine la .engine a.leaf.ww) r = .ok (⟨⟩, r') := by
        rw [M.each_cons_run, hopen]
        rfl
      refine ⟨r', ?_, kept, hart⟩
      simp only [M.readHome, M.ite_run, beq_iff_eq, if_neg hdev, M.bind_run, M.st_run, clean, lines, each_, M.pure_run, bytes]

/-- A word of a block as `BlockAt` asks for it: on a page of the hart's own die, whose checks pass, with room in the home slice. -/
def WordAt (s : State) (va : Word) (w : BitVec 64) : Prop :=
  ∃ a, PageOk s va 8 .fetch a ∧ Reached s a.leaf.home ∧ Roomy s (a.pa / 64) 1 ∧ seen s a 8 = some (toBytes 8 w.toNat)

theorem Kept.word {s t : State} (h : Kept s t) {va : Word} {w : BitVec 64} : WordAt s va w → WordAt t va w := by
  rintro ⟨a, page, reached, roomy, sees⟩
  exact ⟨a, h.page page, h.reached reached, h.roomy roomy, (h.seen a 8).trans sees⟩

theorem ofBytes_toBytes (n v : Nat) : ofBytes (toBytes n v) = v % 256 ^ n := by
  induction n generalizing v with
  | zero => simp [toBytes, ofBytes, Nat.mod_one]
  | succ n ih =>
    have low : (BitVec.ofNat 8 v).toNat = v % 256 := BitVec.toNat_ofNat v 8
    rw [toBytes, ofBytes, ih, low, Nat.pow_succ', Nat.mod_mul]

theorem M.fetchBytes_keeps {va : Word} {w : BitVec 64} {r : Run s0} (h : WordAt r.s va w) :
    ∃ r', M.fetchBytes va 8 r = .ok (.ok w.toNat, r') ∧ Kept r.s r'.s ∧ r'.s.hart = r.s.hart := by
  obtain ⟨a, page, reached, roomy, sees⟩ := h
  obtain ⟨r1, checks, kept1, hart1⟩ := M.check_keeps page
  obtain ⟨r2, reads, kept2, hart2⟩ := M.readHome_keeps (pageOk_aligned8 page) (kept1.roomy roomy) ((kept1.seen a 8).trans sees)
  have value : ofBytes (toBytes 8 w.toNat) = w.toNat := by
    rw [ofBytes_toBytes]
    exact Nat.mod_eq_of_lt w.isLt
  refine ⟨r2, ?_, kept_frame.trans kept1 kept2, hart2.trans hart1⟩
  simp only [M.fetchBytes, M.bind_run, checks, M.needServed_run _ _ (kept1.reached reached), reads, M.pure_run, value]

/-! ## The words of a block -/

theorem append_halves (w : BitVec 64) : BitVec.ofNat 32 (w.toNat / 2 ^ 32) ++ BitVec.ofNat 32 w.toNat = w := by
  apply BitVec.eq_of_toNat_eq
  rw [BitVec.toNat_append, BitVec.toNat_ofNat, BitVec.toNat_ofNat, ← Nat.shiftLeft_add_eq_or_of_lt (Nat.mod_lt _ (by decide)), Nat.shiftLeft_eq]
  have := w.isLt
  omega

/-- The hart holds no word at an address. -/
def NotBuffered (s : State) (a : Word) : Prop := ∀ p ∈ s.hart.ibuf, p.1 ≠ a

theorem M.fetched_keeps {a : Word} {w : BitVec 32} {r : Run s0} (h : NotBuffered r.s a) :
    ∃ r', M.fetched a w r = .ok (w, r') ∧ Kept r.s r'.s ∧ ∀ b, b ≠ a → NotBuffered r.s b → NotBuffered r'.s b := by
  have none_ : r.s.hart.ibuf.find? (fun p => p.1 == a) = none := List.find?_eq_none.2 fun p hp => by simpa using h p hp
  refine ⟨r.emit (.hart { r.s.hart with ibuf := (a, w) :: r.s.hart.ibuf.filter fun p => p.1 ≠ a }), ?_,
    ⟨rfl, fun _ _ => rfl, fun _ => rfl, rfl, fun _ h => h⟩, fun b hb free p hp => ?_⟩
  · simp only [M.fetched, M.bind_run, M.hart_run, none_, Option.map_none, M.pure_run, M.modHart_run]
  · rcases List.mem_cons.1 hp with rfl | hp
    · exact hb.symm
    · exact free p (List.mem_filter.1 hp).1

theorem M.fetchVector_keeps {a : Word} {w : BitVec 64} {r : Run s0} (h : WordAt r.s a w) (lo : NotBuffered r.s a)
    (hi : NotBuffered r.s (a + 4)) : ∃ r', M.fetchVector a r = .ok (.ok w, r') ∧ Kept r.s r'.s
      ∧ ∀ b, b ≠ a → b ≠ a + 4 → NotBuffered r.s b → NotBuffered r'.s b := by
  have apart : a + 4 ≠ a := by bv_omega
  obtain ⟨r1, bytes, kept1, hart1⟩ := M.fetchBytes_keeps h
  have same1 (b : Word) : NotBuffered r1.s b ↔ NotBuffered r.s b := by rw [NotBuffered, hart1, NotBuffered]
  obtain ⟨r2, low, kept2, free2⟩ := M.fetched_keeps (w := BitVec.ofNat 32 w.toNat) ((same1 a).2 lo)
  obtain ⟨r3, high, kept3, free3⟩ := M.fetched_keeps (w := BitVec.ofNat 32 (w.toNat / 2 ^ 32)) (free2 _ apart ((same1 _).2 hi))
  refine ⟨r3, ?_, kept_frame.trans kept1 (kept_frame.trans kept2 kept3), fun b hb hb4 free => free3 b hb4 (free2 b hb ((same1 b).2 free))⟩
  simp only [M.fetchVector, M.bind_run, bytes, low, high, M.pure_run, append_halves]

/-- The addresses of a block do not meet before the address space wraps around. -/
theorem block_addr_ne {a : Word} {i : Nat} (h : i < 510) : a + 8 + BitVec.ofNat 64 (4 * i) ≠ a ∧ a + 8 + BitVec.ofNat 64 (4 * i) ≠ a + 4 := by
  constructor <;> bv_omega

/-- A block is fetched up to its `vstop` (R98). -/
theorem M.fetchBlock_keeps (ws : List (BitVec 64)) (n : Nat) (a : Word) (r : Run s0) (hn : ws.length ≤ n) (h256 : ws.length ≤ 256)
    (last : ws.getLast? = some vstopWord) (ends : ∀ i, i + 1 < ws.length → ws.getD i 0 ≠ vstopWord)
    (words : ∀ i w, ws[i]? = some w → WordAt r.s (a + BitVec.ofNat 64 (8 * i)) w)
    (buffer : ∀ i < 2 * ws.length, NotBuffered r.s (a + BitVec.ofNat 64 (4 * i))) :
    ∃ r', M.fetchBlock n a r = .ok ((ws, none), r') ∧ Kept r.s r'.s := by
  induction ws generalizing n a r with
  | nil => simp at last
  | cons w ws ih =>
    obtain ⟨n, rfl⟩ : ∃ m, n = m + 1 := ⟨n - 1, by simp at hn; omega⟩
    have here : WordAt r.s a w := by simpa using words 0 w rfl
    have lo : NotBuffered r.s a := by simpa using buffer 0 (by simp)
    have hi : NotBuffered r.s (a + 4) := by simpa using buffer 1 (by simp; omega)
    obtain ⟨r1, fetches, kept, free⟩ := M.fetchVector_keeps here lo hi
    cases ws with
    | nil =>
      have stop : w = vstopWord := by simpa using last
      exact ⟨r1, by simp [M.fetchBlock, fetches, stop], kept⟩
    | cons w' ws' =>
      have more : w ≠ vstopWord := by simpa using ends 0 (by simp)
      have next (k i : Nat) : a + 8 + BitVec.ofNat 64 (k * i) = a + BitVec.ofNat 64 (8 + k * i) := by
        rw [BitVec.ofNat_add, BitVec.add_assoc]
        rfl
      simp only [List.length_cons] at hn h256
      obtain ⟨r2, rest, kept'⟩ := ih n (a + 8) r1 (by simp; omega) (by simp; omega) (by simpa using last)
        (fun i hi => by simpa using ends (i + 1) (by simp at hi ⊢; omega))
        (fun i x hx => kept.word (by rw [next]; simpa [Nat.mul_add, Nat.add_comm] using words (i + 1) x (by simpa using hx)))
        (fun i hi => by
          simp only [List.length_cons] at hi
          obtain ⟨ne, ne4⟩ := block_addr_ne (a := a) (i := i) (by omega)
          refine free _ ne ne4 ?_
          rw [next]
          simpa [Nat.mul_add, Nat.add_comm] using buffer (i + 2) (by simp; omega))
      refine ⟨r2, ?_, kept_frame.trans kept kept'⟩
      simp only [M.fetchBlock, M.bind_run, fetches, M.ite_run, if_neg more, rest, M.pure_run]

/-- A well-formed block is fetched whole, and passes its checks (R98, R321). -/
theorem M.fetchWhole_good {t : Word} {ws : List (BitVec 64)} {r : Run s0} (h : BlockAt r.s t ws) :
    ∃ r', M.fetchWhole t r = .ok (.good ws, r') ∧ Kept r.s r'.s := by
  obtain ⟨h256, last, ends⟩ := h.ends
  have pos : 0 < ws.length := by
    cases ws with
    | nil => simp at last
    | cons w ws => simp
  have words (i : Nat) (w : BitVec 64) (hw : ws[i]? = some w) : WordAt r.s (t + BitVec.ofNat 64 (8 * i)) w := by
    obtain ⟨a, page, own, roomy, sees⟩ := h.words i w hw
    exact ⟨a, page, ⟨h.tails, fun _ => by rw [own]; exact h.covered, fun far => absurd own far⟩, Nat.le_trans (Nat.add_le_add_left pos _) roomy, sees⟩
  obtain ⟨r', fetches, kept⟩ := M.fetchBlock_keeps ws 256 t r h256 h256 last ends words fun i hi p hp => h.buffer p hp i hi
  refine ⟨r', ?_, kept⟩
  obtain ⟨f, first⟩ := h.first
  have head : (decodeWords ws).getD 0 none = some (.vhead f) := by
    cases ws with
    | nil => simp at pos
    | cons w ws => exact congrArg Except.toOption first
  have full : ws.isEmpty = false := by
    cases ws with
    | nil => simp at pos
    | cons w ws => rfl
  simp only [M.fetchWhole, M.bind_run, fetches, M.pure_run, head, isVhead, full, last, h.legal]
  rfl

end Sys2Proof.Machine

namespace Sys2Proof.Proofs

/-! ## The head of the queue (R98, R113, R314) -/

/-- A hart after a block has been put into operation, when its count is known (R20, R154). -/
def started (h : Hart) (e : QEntry) (rest : List QEntry) (t : Word) (count : Option Word) (ws : List (BitVec 64)) : Hart :=
  let ctx (n : Word) (i : Nat) : LoopCtx := .start e t ws i h.sr.vl h.sr.sb n
  match count with
  | none => { h with queue := rest, ctx := some (ctx 0 1) }
  | some n =>
    if h.sr.vl = 0 ∨ n = 0 then { h with queue := rest, sr := { h.sr with xstop := h.sr.sb + n } }
    else { h with queue := rest, ctx := some (ctx n 0) }

theorem startBlock_run {s0 : State} (r : Run s0) {e : QEntry} {rest : List QEntry} (t : Word) (count : Option Word) (ws : List (BitVec 64))
    (hq : r.s.hart.queue = e :: rest) : ∃ r', M.startBlock e t count ws r = .ok (⟨⟩, r')
      ∧ r'.s = { r.s with hart := started r.s.hart e rest t count ws } := by
  cases count with
  | none =>
    refine ⟨r.emit (.hart (started r.s.hart e rest t none ws)), ?_, rfl⟩
    simp only [M.startBlock, M.bind_run, M.hart_run, hq]
    rfl
  | some n =>
    by_cases hn : r.s.hart.sr.vl = 0 ∨ n = 0
    · refine ⟨r.emit (.hart { r.s.hart with queue := rest, sr := { r.s.hart.sr with xstop := r.s.hart.sr.sb + n } }), ?_, ?_⟩
      · simp only [M.startBlock, M.bind_run, M.hart_run, hq]
        rw [if_pos (by simpa using hn)]
        rfl
      · rw [started, if_pos hn]
        rfl
    · refine ⟨r.emit (.hart { r.s.hart with queue := rest, ctx := some (.start e t ws 0 r.s.hart.sr.vl r.s.hart.sr.sb n) }), ?_, ?_⟩
      · simp only [M.startBlock, M.bind_run, M.hart_run, hq]
        rw [if_neg (by simpa using hn)]
        rfl
      · rw [started, if_neg hn]
        rfl

end Sys2Proof.Proofs
end

section
/-!
PROOFS. The start of a block and of its strips (O39).
-/

open Sys2Proof Sys2Proof.Machine Sys2Proof.Claim

namespace Sys2Proof.Proofs

variable {s : State} {e : QEntry} {rest : List QEntry} {t : Word} {count : Option Word} {ws : List (BitVec 64)}

/-- The start of a block does not look at the buffer. -/
theorem started_buffer (h : Hart) (b : List (Word × BitVec 32)) :
    started { h with ibuf := b } e rest t count ws = { started h e rest t count ws with ibuf := b } := by
  cases count with
  | none => rfl
  | some n =>
    by_cases hn : h.sr.vl = 0 ∨ n = 0
    · simp only [started, if_pos hn]
    · simp only [started, if_neg hn]

/-- What a fetch leaves and what the start of a block does are apart. -/
theorem started_fetched {u t1 : State} (h : u = fetchedInto s u) (ht : t1 = { u with hart := started u.hart e rest t count ws }) :
    t1 = fetchedInto { s with hart := started s.hart e rest t count ws } t1 := by
  have hart : u.hart = { s.hart with ibuf := u.hart.ibuf } := by rw [h]; rfl
  have state : t1 = { u with hart := { started s.hart e rest t count ws with ibuf := u.hart.ibuf } } := by
    rw [ht, ← started_buffer, ← hart]
  rw [state, h]
  rfl

theorem blockAtQueueHead_starts (head : AtHead s e rest) (hk : e.kind = .block t count) (own : e.sup = true ∨ s.hart.sr.vown = s.hart.sr.savep)
    (block : BlockAt s t ws) : ∃ t1, exec (.blockAtQueueHead s.hart.key) s = .next t1
      ∧ t1 = fetchedInto { s with hart := started s.hart e rest t count ws } t1 := by
  obtain ⟨run, idle, queue, fence⟩ := head
  obtain ⟨r1, fetches, kept⟩ := M.fetchWhole_good (r := Run.start s) block
  have hq : r1.s.hart.queue = e :: rest := by rw [kept.same]; exact queue
  obtain ⟨r2, starts, state⟩ := startBlock_run r1 t count ws hq
  refine ⟨r2.s, ?_, started_fetched kept.same state⟩
  have sv : M.needSv e (Run.start s) = .ok (⟨⟩, Run.start s) := M.needSv_run e fence
  show execBlockAtQueueHead _ _ = _
  rw [execBlockAtQueueHead, exec1_eq, M.bind_ok (M.focus_start s), M.bind_ok (M.hart_run _), Run.start_s,
    M.bind_ok (M.need_true (by simp [run]))]
  simp only [idle, queue, hk]
  rw [M.bind_ok sv, if_neg (by rcases own with own | own <;> simp [own]), M.bind_ok fetches]
  exact congrArg (fun x => Host.Outcome.next (ended x)) starts

/-- A block that is in operation has its words fetched again and goes on where it stood (R113). -/
theorem blockAtQueueHead_fetches {c : LoopCtx} (run : s.hart.phase = .run) (hc : s.hart.ctx = some c) (empty : c.words = [])
    (own : c.entry.sup = true ∨ s.hart.sr.vown = s.hart.sr.savep) (block : BlockAt s c.base ws) :
    ∃ t1, exec (.blockAtQueueHead s.hart.key) s = .next t1 ∧ t1 = fetchedInto (inBlock s { c with words := ws }) t1 := by
  obtain ⟨r1, fetches, kept⟩ := M.fetchWhole_good (r := Run.start s) block
  refine ⟨{ r1.s with hart := { r1.s.hart with ctx := some { c with words := ws } } }, ?_, ?_⟩
  · have need : M.need c.words.isEmpty (Run.start s) = .ok (⟨⟩, Run.start s) := M.need_true (by simp [empty])
    show execBlockAtQueueHead _ _ = _
    rw [execBlockAtQueueHead, exec1_eq, M.bind_ok (M.focus_start s), M.bind_ok (M.hart_run _), Run.start_s,
      M.bind_ok (M.need_true (by simp [run]))]
    simp only [hc]
    rw [M.bind_ok need, if_neg (by rcases own with own | own <;> simp [own]), M.bind_ok fetches]
    rfl
  · rw [kept.same]
    rfl

end Sys2Proof.Proofs

namespace Sys2Proof.Machine

variable {s0 : State} {α : Type}

/-- With no handler running a trap of the vector stream forms the held image and enters the handler (R303). -/
theorem M.vecTrapWith_run {r : Run s0} (c : BitVec 8) (v a : Word) (behind rest : List QEntry) (blk : r.s.hart.sr.status.blk = false)
    (tvec : r.s.hart.sr.tvec ≠ 0) : ∃ r', M.vecTrapWith c v a none false behind rest r = .ok (⟨⟩, r')
      ∧ r'.s = held r.s c v a none (behind ++ rest) false := by
  let h1 : Hart := { r.s.hart with
    ctx := none, queue := [], wait := .none,
    held := some { ctx := none, behind := behind ++ rest, resume := if r.s.hart.wait = .idle then r.s.hart.pc + 4 else r.s.hart.pc },
    sr := { r.s.hart.sr with status := { r.s.hart.sr.status with blk := true, spl := false, xf := false } } }
  obtain ⟨r', traps, state⟩ := M.takeTrap_run c v a true (r.emit (.hart h1)) tvec
  refine ⟨r', ?_, state⟩
  simp only [M.vecTrapWith, M.bind_run, M.hart_run, blk, Bool.false_eq_true, if_false, M.modHart_run, beq_iff_eq]
  exact traps

/-- A trap at the head of the queue: the entry and what stands behind it are the held image (R303). -/
theorem M.headTrap_run {r : Run s0} (e : QEntry) (rest : List QEntry) (c : BitVec 8) (v a : Word) (idle : Idle r.s) (between : Between r.s)
    (blk : r.s.hart.sr.status.blk = false) (mark : e.mark = false) (tvec : r.s.hart.sr.tvec ≠ 0) :
    ∃ r', (M.headTrap e rest c v a : M s0 α) r = .error r' ∧ r'.s = held r.s c v a none (e :: rest) false := by
  obtain ⟨r', traps, state⟩ := M.vecTrapWith_run c v a [e] rest blk tvec
  refine ⟨r', ?_, state⟩
  rw [M.headTrap, M.bind_ok (M.needTransfers_run idle), M.bind_ok (M.atBoundary_run between), mark, M.bind_ok traps]
  rfl

end Sys2Proof.Machine

namespace Sys2Proof.Proofs

variable {s : State} {e : QEntry} {rest : List QEntry} {t : Word} {count : Option Word} {ws : List (BitVec 64)}

/-- A block of a user whose vector state is not in the slot traps with cause 0x07 (R314). -/
theorem blockAtQueueHead_traps (head : AtHead s e rest) (hk : e.kind = .block t count) (user : e.sup = false)
    (foreign : s.hart.sr.vown ≠ s.hart.sr.savep) (quiet : Idle s) (between : Between s) (blk : s.hart.sr.status.blk = false)
    (mark : e.mark = false) (tvec : s.hart.sr.tvec ≠ 0) :
    exec (.blockAtQueueHead s.hart.key) s = .next (held s 0x07 s.hart.sr.vown t none (e :: rest) false) := by
  obtain ⟨run, idle, queue, fence⟩ := head
  have sv : M.needSv e (Run.start s) = .ok (⟨⟩, Run.start s) := M.needSv_run e fence
  obtain ⟨r', traps, state⟩ := M.headTrap_run (α := PUnit) (r := Run.start s) e rest 0x07 s.hart.sr.vown t quiet between blk mark tvec
  show execBlockAtQueueHead _ _ = _
  rw [execBlockAtQueueHead, exec1_eq, M.bind_ok (M.focus_start s), M.bind_ok (M.hart_run _), Run.start_s,
    M.bind_ok (M.need_true (by simp [run]))]
  simp only [idle, queue, hk]
  rw [M.bind_ok sv, if_pos (by simp [user, foreign]), M.bind_error traps]
  exact congrArg Host.Outcome.next state

/-! ## The strips of a loop (R20, R24, R307) -/

/-- The state in which the next strip of a loop stands at its first word. -/
def stripStart (s : State) (c : LoopCtx) : State :=
  let at_ := BitVec.ofNat 64 c.k * c.g
  inBlock { s with hart := { s.hart with sr := { s.hart.sr with
    sb := c.b0 + at_, vl := BitVec.ofNat 64 (min c.g.toNat (c.n - at_).toNat) } } } (c.fresh 1)

/-- A strip at its start has its exit settled from the state of its first word on. -/
theorem vloopStrip_exec {c : LoopCtx} (run : s.hart.phase = .run) (hc : s.hart.ctx = some c) (words : c.words ≠ []) (threads : c.threads = none)
    (owed : c.owed = []) (idx : c.idx = 0) : ∃ r : Run s, r.s = stripStart s c
      ∧ exec (.vloopStrip s.hart.key) s = .next (ended (M.settleExit r)) := by
  let h1 : Hart := { s.hart with sr := (stripStart s c).hart.sr }
  have fresh : h1.ctx.map (·.fresh 1) = some (c.fresh 1) := congrArg (Option.map (·.fresh 1)) hc
  refine ⟨((Run.start s).emit (.hart h1)).emit (.hart { h1 with ctx := h1.ctx.map (·.fresh 1) }), by rw [fresh]; rfl, ?_⟩
  have need : (!c.words.isEmpty && c.threads.isNone && c.needsStrip) = true := by
    simp [words, threads, LoopCtx.needsStrip, idx]
  show execVloopStrip _ _ = _
  rw [execVloopStrip, exec1_eq, M.bind_ok (M.focus_start s), M.bind_ok (M.hart_run _), Run.start_s,
    M.bind_ok (M.need_true (by simp [run]))]
  simp only [hc]
  rw [M.bind_ok (M.need_true need), if_neg (by simp [owed]), if_pos idx]
  rfl

/-- What the hart knows behind the look ahead, and the context that it leaves (R239, R307). -/
def learnedAhead (s : State) (clk : Clock) (c : LoopCtx) : State :=
  inBlock { s with hart := { s.hart with sr := { s.hart.sr with
    vclk := clkPut (clkMerge s.hart.sr.vclk clk) s.hart.id.did (clkAt s.hart.sr.vclk s.hart.id.did) } } } c

/-- A strip without a `vexit` has nothing to settle. -/
theorem settleExit_none {r : Run s} {c : LoopCtx} (hc : r.s.hart.ctx = some c) (left : c.exitLeft = false) :
    M.settleExit r = .ok (⟨⟩, r) := by
  simp only [M.settleExit, M.bind_run, M.hart_run, hc, left]
  rfl

/-- The exit resolves with a stop element, or with none. -/
theorem settleExit_resolved {r : Run s} {c x : LoopCtx} {clk : Clock} (hc : r.s.hart.ctx = some c) (left : c.exitLeft = true)
    (pass : c.pass = none)
    (resolves : M.resolveExit (min r.s.hart.sr.vl.toNat 8192 + 1) (min r.s.hart.sr.vl.toNat 8192) r = .ok (.resolved x clk, r)) :
    ended (M.settleExit r) = learnedAhead r.s clk { c with stop := x.stop, taken := x.taken, seen := x.seen, resolved := true } := by
  simp only [M.settleExit, M.bind_run, M.hart_run, hc, left, if_true, resolves, M.closePass_none hc pass]
  simp [M.learnAhead, learnedAhead, inBlock, hc, Upd.apply]

/-- A check fails at or below the stop element: the words before it run over the whole strip first. -/
theorem settleExit_trap {r : Run s} {c x : LoopCtx} {clk : Clock} (hc : r.s.hart.ctx = some c) (left : c.exitLeft = true)
    (pass : c.pass = none)
    (resolves : M.resolveExit (min r.s.hart.sr.vl.toNat 8192 + 1) (min r.s.hart.sr.vl.toNat 8192) r = .ok (.trap x clk, r)) :
    ended (M.settleExit r) = learnedAhead r.s clk { c with
      taken := x.taken, seen := x.seen,
      pass := some { undo := r.s.hart.vec, stores := [], counts := [], owed := [], looked := true } } := by
  simp only [M.settleExit, M.bind_run, M.hart_run, hc, left, if_true, resolves]
  simp [M.learnAhead, learnedAhead, inBlock, hc, Upd.apply, pass]

/-- Elements of the next strip (R20). -/
def stripLength (c : LoopCtx) : Nat := min c.g.toNat (c.n - BitVec.ofNat 64 c.k * c.g).toNat

theorem stripStart_vl (s : State) (c : LoopCtx) : (stripStart s c).hart.sr.vl.toNat = stripLength c :=
  (BitVec.toNat_ofNat _ _).trans (Nat.mod_eq_of_lt (Nat.lt_of_le_of_lt (Nat.min_le_left _ _) c.g.isLt))

/-- What the exit of the next strip resolves to, looked at from the strip's first word. -/
def Resolves (s : State) (c : LoopCtx) (x : M.Exit) : Prop :=
  Answers s (do
    M.modSr fun _ => (stripStart s c).hart.sr
    M.modHart fun h => { h with ctx := (stripStart s c).hart.ctx }
    M.resolveExit (min (stripLength c) 8192 + 1) (min (stripLength c) 8192)) x (stripStart s c)

/-- The look ahead answers the same wherever the strip has been started. -/
theorem Resolves.run {c : LoopCtx} {x : M.Exit} (h : Resolves s c x) {r : Run s} (hr : r.s = stripStart s c) :
    M.resolveExit (min r.s.hart.sr.vl.toNat 8192 + 1) (min r.s.hart.sr.vl.toNat 8192) r = .ok (x, r) := by
  obtain ⟨r', answers, state⟩ := h
  have same : r' = r := Run.ext_s (state.trans hr.symm)
  rw [same] at answers
  let h1 : Hart := { s.hart with sr := (stripStart s c).hart.sr }
  have start : r = ((Run.start s).emit (.hart h1)).emit (.hart { h1 with ctx := (stripStart s c).hart.ctx }) := Run.ext_s hr
  rw [hr, stripStart_vl]
  rw [start] at answers ⊢
  exact answers

/-- Settles O39: a block starts or is fetched again once its words have been fetched, traps where the vector state is another context's, and
the exit of a strip is settled as the look ahead from its first word says. -/
theorem blocksAndStripsStart : Obligations.BlocksAndStripsStart := by
  intro s e rest t count ws
  refine ⟨fun head hk own block => blockAtQueueHead_starts head hk own block,
    fun c run hc empty own block => blockAtQueueHead_fetches run hc empty own block,
    fun head hk user foreign quiet between blk mark tvec => blockAtQueueHead_traps head hk user foreign quiet between blk mark tvec,
    fun c run hc words threads owed idx => ?_⟩
  obtain ⟨r, start, hexec⟩ := vloopStrip_exec run hc words threads owed idx
  intro at_ s2 left lim known resolves
  have hctx : r.s.hart.ctx = some (c.fresh 1) := by rw [start]; rfl
  refine ⟨fun hleft => ?_, fun x clk hleft hx => ?_, fun x clk hleft hx => ?_⟩
  · rw [hexec, settleExit_none hctx hleft]
    exact congrArg Host.Outcome.next start
  · rw [hexec, settleExit_resolved hctx hleft rfl (Resolves.run hx start), start]
    rfl
  · rw [hexec, settleExit_trap hctx hleft rfl (Resolves.run hx start), start]
    rfl

end Sys2Proof.Proofs
end

section
/-!
PROOFS. The encoding: the fields of the scalar and vector words, the word of each instruction decoded, and the word that each row of the
decoder accepts (R33 to R46).
-/

namespace Sys2Proof

/-! ## The fields of a scalar word (R33) -/

section
variable (op : BitVec 6) (d a b : Reg) (fn : BitVec 11) (imm : BitVec 16) (off : BitVec 21) (sel : BitVec 4) (num : BitVec 12)

@[simp] theorem fOp_srWord : fOp (srWord op d a b fn) = op := by ext; unfold fOp srWord; grind
@[simp] theorem fD_srWord : fD (srWord op d a b fn) = d := by ext; unfold fD srWord; grind
@[simp] theorem fA_srWord : fA (srWord op d a b fn) = a := by ext; unfold fA srWord; grind
@[simp] theorem fB_srWord : fB (srWord op d a b fn) = b := by ext; unfold fB srWord; grind
@[simp] theorem fFn_srWord : fFn (srWord op d a b fn) = fn := by ext; unfold fFn srWord; grind
@[simp] theorem fOp_siWord : fOp (siWord op d a imm) = op := by ext; unfold fOp siWord; grind
@[simp] theorem fD_siWord : fD (siWord op d a imm) = d := by ext; unfold fD siWord; grind
@[simp] theorem fA_siWord : fA (siWord op d a imm) = a := by ext; unfold fA siWord; grind
@[simp] theorem fImm_siWord : fImm (siWord op d a imm) = imm := by ext; unfold fImm siWord; grind
@[simp] theorem fOp_sjWord : fOp (sjWord op d off) = op := by ext; unfold fOp sjWord; grind
@[simp] theorem fD_sjWord : fD (sjWord op d off) = d := by ext; unfold fD sjWord; grind
@[simp] theorem fOff21_sjWord : fOff21 (sjWord op d off) = off := by ext; unfold fOff21 sjWord; grind
@[simp] theorem fOp_ssWord : fOp (ssWord d a sel num) = 0x3C#6 := by ext; unfold fOp ssWord; grind
@[simp] theorem fD_ssWord : fD (ssWord d a sel num) = d := by ext; unfold fD ssWord; grind
@[simp] theorem fA_ssWord : fA (ssWord d a sel num) = a := by ext; unfold fA ssWord; grind
@[simp] theorem fSel_ssWord : fSel (ssWord d a sel num) = sel := by ext; unfold fSel ssWord; grind
@[simp] theorem fNum_ssWord : fNum (ssWord d a sel num) = num := by ext; unfold fNum ssWord; grind
end

section
variable (w : BitVec 32)

theorem srWord_fields : srWord (fOp w) (fD w) (fA w) (fB w) (fFn w) = w := by
  ext; unfold srWord fOp fD fA fB fFn; grind

theorem siWord_fields : siWord (fOp w) (fD w) (fA w) (fImm w) = w := by
  ext; unfold siWord fOp fD fA fImm; grind

theorem sjWord_fields : sjWord (fOp w) (fD w) (fOff21 w) = w := by
  ext; unfold sjWord fOp fD fOff21; grind

theorem ssWord_fields (h : fOp w = 0x3C#6) : ssWord (fD w) (fA w) (fSel w) (fNum w) = w := by
  unfold ssWord
  rw [← h]
  ext; unfold fOp fD fA fSel fNum; grind

end


/-! ## The selectors (R36) -/

section
variable (w dw sc na by_ : Bool) (wd : BitVec 3) (wd2 scale : BitVec 2)
@[simp] theorem aluFn_select (sel) : (aluFn w sel).extractLsb' 0 5 = sel := by ext; unfold aluFn bit; grind
@[simp] theorem aluFn_zero (sel) : (aluFn w sel).extractLsb' 5 5 = 0#5 := by ext; unfold aluFn bit; grind
@[simp] theorem aluFn_narrow (sel) : (aluFn w sel).getLsbD 10 = w := by unfold aluFn bit; grind
@[simp] theorem shiftImm_amount (sel n) : (shiftImm w sel n).extractLsb' 0 6 = n := by ext; unfold shiftImm bit; grind
@[simp] theorem shiftImm_select (sel n) : (shiftImm w sel n).extractLsb' 6 2 = sel := by ext; unfold shiftImm bit; grind
@[simp] theorem shiftImm_narrow (sel n) : (shiftImm w sel n).getLsbD 8 = w := by unfold shiftImm bit; grind
@[simp] theorem shiftImm_zero (sel n) : (shiftImm w sel n).extractLsb' 9 7 = 0#7 := by ext; unfold shiftImm bit; grind
@[simp] theorem atomicFn_select (sel) : (atomicFn dw sc sel).extractLsb' 0 4 = sel := by ext; unfold atomicFn bit; grind
@[simp] theorem atomicFn_wide (sel) : (atomicFn dw sc sel).getLsbD 4 = dw := by unfold atomicFn bit; grind
@[simp] theorem atomicFn_sc (sel) : (atomicFn dw sc sel).getLsbD 5 = sc := by unfold atomicFn bit; grind
@[simp] theorem atomicFn_zero (sel) : (atomicFn dw sc sel).extractLsb' 6 5 = 0#5 := by ext; unfold atomicFn bit; grind
@[simp] theorem ldxFn_width : (ldxFn wd na by_ scale).extractLsb' 0 3 = wd := by ext; unfold ldxFn bit; grind
@[simp] theorem ldxFn_na : (ldxFn wd na by_ scale).getLsbD 3 = na := by unfold ldxFn bit; grind
@[simp] theorem ldxFn_by : (ldxFn wd na by_ scale).getLsbD 4 = by_ := by unfold ldxFn bit; grind
@[simp] theorem ldxFn_scale : (ldxFn wd na by_ scale).extractLsb' 5 2 = scale := by ext; unfold ldxFn bit; grind
@[simp] theorem ldxFn_zero : (ldxFn wd na by_ scale).extractLsb' 7 4 = 0#4 := by ext; unfold ldxFn bit; grind
@[simp] theorem stxFn_width : (stxFn wd2 na by_ scale).extractLsb' 0 2 = wd2 := by ext; unfold stxFn bit; grind
@[simp] theorem stxFn_zero2 : (stxFn wd2 na by_ scale).getLsbD 2 = false := by unfold stxFn bit; grind
@[simp] theorem stxFn_na : (stxFn wd2 na by_ scale).getLsbD 3 = na := by unfold stxFn bit; grind
@[simp] theorem stxFn_by : (stxFn wd2 na by_ scale).getLsbD 4 = by_ := by unfold stxFn bit; grind
@[simp] theorem stxFn_scale : (stxFn wd2 na by_ scale).extractLsb' 5 2 = scale := by ext; unfold stxFn bit; grind
@[simp] theorem stxFn_zero : (stxFn wd2 na by_ scale).extractLsb' 7 4 = 0#4 := by ext; unfold stxFn bit; grind
theorem vsetlFn_sew (sew grp : BitVec 2) : (0#7 ++ grp ++ sew).extractLsb' 0 2 = sew := by ext; grind
theorem vsetlFn_grp (sew grp : BitVec 2) : (0#7 ++ grp ++ sew).extractLsb' 2 2 = grp := by ext; grind
theorem vsetlFn_zero (sew grp : BitVec 2) : (0#7 ++ grp ++ sew).extractLsb' 4 7 = 0#7 := by ext; grind
theorem qgetFn_zero (slot : BitVec 3) : (0#8 ++ slot).extractLsb' 3 8 = 0#8 := by ext; grind
end

/-! ## Decoding the word of an instruction -/

section
variable {op : BitVec 6} {d a b : Reg} {fn : BitVec 11} {imm : BitVec 16} {off : BitVec 21} {sel : BitVec 4} {num : BitVec 12}
  {r : Except DecodeError Instr}

/-- A word of the SR format decodes as its row of the major-opcode map says of its fields (R33, R35). -/
theorem decodeScalar_srWord (dec : Reg → Reg → Reg → BitVec 11 → Except DecodeError Instr)
    (row : ∀ w, decodeFields op.toNat w = dec (fD w) (fA w) (fB w) (fFn w)) (h : dec d a b fn = r) :
    decodeScalar (srWord op d a b fn) = r := by
  rw [decodeScalar, fOp_srWord, row, fD_srWord, fA_srWord, fB_srWord, fFn_srWord, h]

theorem decodeScalar_siWord (dec : Reg → Reg → BitVec 16 → Except DecodeError Instr)
    (row : ∀ w, decodeFields op.toNat w = dec (fD w) (fA w) (fImm w)) (h : dec d a imm = r) :
    decodeScalar (siWord op d a imm) = r := by
  rw [decodeScalar, fOp_siWord, row, fD_siWord, fA_siWord, fImm_siWord, h]

theorem decodeScalar_siWord_ok {mk : Reg → Reg → BitVec 16 → Instr}
    (row : ∀ w, decodeFields op.toNat w = .ok (mk (fD w) (fA w) (fImm w))) : decodeScalar (siWord op d a imm) = .ok (mk d a imm) :=
  decodeScalar_siWord (fun d a imm => .ok (mk d a imm)) row rfl

theorem decodeScalar_sjWord (dec : Reg → BitVec 21 → Except DecodeError Instr)
    (row : ∀ w, decodeFields op.toNat w = dec (fD w) (fOff21 w)) (h : dec d off = r) :
    decodeScalar (sjWord op d off) = r := by
  rw [decodeScalar, fOp_sjWord, row, fD_sjWord, fOff21_sjWord, h]

theorem decodeScalar_ssWord (h : decodeSystem d a sel num = r) : decodeScalar (ssWord d a sel num) = r := by
  have row (w) : decodeFields (0x3C#6).toNat w = decodeSystem (fD w) (fA w) (fSel w) (fNum w) := rfl
  rw [decodeScalar, fOp_ssWord, row, fD_ssWord, fA_ssWord, fSel_ssWord, fNum_ssWord, h]

end

theorem decodeSystem_setsr {a : Reg} {n : BitVec 12} (wf : (Instr.setsr a n).wf = true) :
    decodeSystem 0#5 a 3#4 n = .ok (.setsr a n) := by
  simp only [Instr.wf, Bool.and_eq_true, decide_eq_true_eq] at wf
  simp [decodeSystem, zeroThen, wf]

theorem decodeScalar_encodeScalar {i : Instr} {w : BitVec 32} (wf : i.wf = true) (h : encodeScalar i = some w) :
    decodeScalar w = .ok i := by
  cases i <;> cases h
  case add | sub | and | or | xor | shl | shr | sra | slt | sltu | min | max | minu | maxu | mul | mulh | mulhu | div | divu | rem | remu
      | clz | popc =>
    refine decodeScalar_srWord decodeAlu (fun _ => rfl) ?_
    rw [decodeAlu, aluFn_select, aluFn_zero, aluFn_narrow]; rfl
  case aadd | aswap | aand | aor | axor | amin | amax | aminu | amaxu | acas =>
    refine decodeScalar_srWord decodeAtomic (fun _ => rfl) ?_
    rw [decodeAtomic, atomicFn_select, atomicFn_zero, atomicFn_wide, atomicFn_sc]; rfl
  case shli | shri | srai =>
    refine decodeScalar_siWord decodeShift (fun _ => rfl) ?_
    rw [decodeShift, shiftImm_select, shiftImm_zero, shiftImm_narrow, shiftImm_amount]; rfl
  case addi | andi | ori | xori | slti | sltiu | ldhi | ldb | ldbu | ldh | ldhu | ldw | ldwu | ldd | stb | sth | stw | std
      | beq | bne | blt | bge | bltu | bgeu | jalr =>
    exact decodeScalar_siWord_ok fun _ => rfl
  case addpc => exact decodeScalar_siWord (fun d a imm => zeroThen (a == 0#5) (.addpc d imm)) (fun _ => rfl) rfl
  case jmp => exact decodeScalar_sjWord (fun d off => zeroThen (d == 0#5) (.jmp off)) (fun _ => rfl) rfl
  case jal => exact decodeScalar_sjWord (fun d off => .ok (.jal d off)) (fun _ => rfl) rfl
  case vfb => exact decodeScalar_sjWord (fun d off => zeroThen (d == 0#5) (.vfb off)) (fun _ => rfl) rfl
  case vloop => exact decodeScalar_sjWord (fun d off => .ok (.vloop d off)) (fun _ => rfl) rfl
  case ldx =>
    refine decodeScalar_srWord decodeLdx (fun _ => rfl) ?_
    rw [decodeLdx, ldxFn_width, ldxFn_zero, ldxFn_na, ldxFn_by, ldxFn_scale]
    simp_all [Instr.wf, zeroThen]
  case stx =>
    refine decodeScalar_srWord decodeStx (fun _ => rfl) ?_
    rw [decodeStx, stxFn_zero, stxFn_zero2, stxFn_width, stxFn_na, stxFn_by, stxFn_scale]; rfl
  case vsetl =>
    refine decodeScalar_srWord (fun d a b fn => zeroThen (b == 0#5 && fn.extractLsb' 4 7 == 0#7)
      (.vsetl (fn.extractLsb' 0 2) (fn.extractLsb' 2 2) d a)) (fun _ => rfl) ?_
    rw [vsetlFn_zero, vsetlFn_sew, vsetlFn_grp]; rfl
  case vwait =>
    exact decodeScalar_srWord (fun d a b fn => zeroThen (d == 0#5 && a == 0#5 && b == 0#5 && fn == 0#11) .vwait) (fun _ => rfl) rfl
  case qget =>
    refine decodeScalar_srWord (fun d a b fn => zeroThen (a == 0#5 && b == 0#5 && fn.extractLsb' 3 8 == 0#8)
      (.qget d (fn.extractLsb' 0 3))) (fun _ => rfl) ?_
    rw [qgetFn_zero, BitVec.extractLsb'_append_eq_right]; rfl
  case mxatt | mxdet | mxon | mxoff => exact decodeScalar_srWord decodeMatrixControl (fun _ => rfl) rfl
  case ordSv | ordVs | ordAll | gbar => exact decodeScalar_srWord decodeOrder (fun _ => rfl) rfl
  case settle | renew | scnt | swait => exact decodeScalar_srWord decodeImages (fun _ => rfl) rfl
  case nbx | nbflush | bred | wcalModel | wcalEarly => exact decodeScalar_srWord decodeInPlace (fun _ => rfl) rfl
  case nbadd f32 _ _ => cases f32 <;> exact decodeScalar_srWord decodeInPlace (fun _ => rfl) rfl
  case xver | xcount | xmerge | xpol => exact decodeScalar_srWord decodePlacement (fun _ => rfl) rfl
  case lpatch | larm => exact decodeScalar_srWord decodeLaunch (fun _ => rfl) rfl
  case setsr => exact decodeScalar_ssWord (decodeSystem_setsr wf)
  case trap | tret | getsr | setsrVown | setsrSavep | swapsr | idle | yield | syncins | halt => exact decodeScalar_ssWord rfl

/-! ## The word of a decoded instruction -/

section
variable (fn : BitVec 11)

theorem aluFn_fields {k : ℕ} (hs : (fn.extractLsb' 0 5).toNat = k) (hz : fn.extractLsb' 5 5 = 0#5) :
    aluFn (fn.getLsbD 10) (BitVec.ofNat 5 k) = fn := by
  subst hs
  unfold aluFn bit
  rw [← hz, BitVec.ofNat_toNat, BitVec.setWidth_eq]; ext; grind

theorem shiftImm_fields {imm : BitVec 16} {k : ℕ} (hs : (imm.extractLsb' 6 2).toNat = k) (hz : imm.extractLsb' 9 7 = 0#7) :
    shiftImm (imm.getLsbD 8) (BitVec.ofNat 2 k) (imm.extractLsb' 0 6) = imm := by
  subst hs
  unfold shiftImm bit
  rw [← hz, BitVec.ofNat_toNat, BitVec.setWidth_eq]; ext; grind

theorem atomicFn_fields {k : ℕ} (hs : (fn.extractLsb' 0 4).toNat = k) (hz : fn.extractLsb' 6 5 = 0#5) :
    atomicFn (fn.getLsbD 4) (fn.getLsbD 5) (BitVec.ofNat 4 k) = fn := by
  subst hs
  unfold atomicFn bit
  rw [← hz, BitVec.ofNat_toNat, BitVec.setWidth_eq]; ext; grind

theorem ldxFn_fields (hz : fn.extractLsb' 7 4 = 0#4) :
    ldxFn (fn.extractLsb' 0 3) (fn.getLsbD 3) (fn.getLsbD 4) (fn.extractLsb' 5 2) = fn := by
  unfold ldxFn bit
  rw [← hz]; ext; grind

theorem stxFn_fields (hz : fn.extractLsb' 7 4 = 0#4) (h2 : fn.getLsbD 2 = false) :
    stxFn (fn.extractLsb' 0 2) (fn.getLsbD 3) (fn.getLsbD 4) (fn.extractLsb' 5 2) = fn := by
  unfold stxFn bit
  rw [← hz, show 0#1 = BitVec.ofBool (fn.getLsbD 2) by rw [h2]; rfl]; ext; grind

theorem vsetlFn_fields (hz : fn.extractLsb' 4 7 = 0#7) : 0#7 ++ fn.extractLsb' 2 2 ++ fn.extractLsb' 0 2 = fn := by
  rw [← hz]; ext; grind

theorem qgetFn_fields (hz : fn.extractLsb' 3 8 = 0#8) : 0#8 ++ fn.extractLsb' 0 3 = fn := by
  rw [← hz]; ext; grind

theorem inPlaceFn_fields (hz : fn.extractLsb' 5 6 = 0#6) : 0#6 ++ fn.extractLsb' 3 2 ++ fn.extractLsb' 0 3 = fn := by
  rw [← hz]; ext; grind

end

theorem eq_ofNat_of_toNat {n k : ℕ} {x : BitVec n} (h : x.toNat = k) : x = BitVec.ofNat n k := by
  rw [← h, BitVec.ofNat_toNat, BitVec.setWidth_eq]

/-- A function field whose two low bits select and whose other bits are zero. -/
theorem ofNat_selector2 {fn : BitVec 11} {k : ℕ} (hs : (fn.extractLsb' 0 2).toNat = k) (hz : fn.extractLsb' 2 9 = 0#9) :
    BitVec.ofNat 11 k = fn := by
  have split : fn.extractLsb' 2 9 ++ fn.extractLsb' 0 2 = fn := by ext; grind
  rw [← split, hz, ← hs]
  generalize fn.extractLsb' 0 2 = sel
  revert sel
  decide

/-- Whatever r decodes is well formed and has w as its word. -/
def Inverts (r : Except DecodeError Instr) (w : BitVec 32) : Prop := ∀ i, r = .ok i → i.wf = true ∧ encodeScalar i = some w

section
variable {w : BitVec 32} {d a b : Reg} {fn : BitVec 11} {imm : BitVec 16} {i : Instr} {z : Bool} {k : ℕ}

theorem Inverts.ok {v : BitVec 32} (hw : i.wf = true) (he : encodeScalar i = some v) (hv : v = w) : Inverts (.ok i) w := by
  rintro _ ⟨⟩
  exact ⟨hw, hv ▸ he⟩

theorem Inverts.error {e : DecodeError} : Inverts (.error e) w := by rintro _ ⟨⟩

theorem Inverts.zeroThen {v : BitVec 32} (hw : i.wf = true) (he : encodeScalar i = some v) (hv : z = true → v = w) :
    Inverts (zeroThen z i) w := by
  cases z
  · exact .error
  · exact .ok hw he (hv rfl)

theorem Inverts.of_eq {r : Except DecodeError Instr} {v : BitVec 32} (h : Inverts r v) (hv : v = w) : Inverts r w := hv ▸ h

theorem srWord_of_op (hop : (fOp w).toNat = k) : srWord (BitVec.ofNat 6 k) (fD w) (fA w) (fB w) (fFn w) = w := by
  rw [← hop, BitVec.ofNat_toNat, BitVec.setWidth_eq, srWord_fields]

theorem siWord_of_op (hop : (fOp w).toNat = k) : siWord (BitVec.ofNat 6 k) (fD w) (fA w) (fImm w) = w := by
  rw [← hop, BitVec.ofNat_toNat, BitVec.setWidth_eq, siWord_fields]

theorem sjWord_of_op (hop : (fOp w).toNat = k) : sjWord (BitVec.ofNat 6 k) (fD w) (fOff21 w) = w := by
  rw [← hop, BitVec.ofNat_toNat, BitVec.setWidth_eq, sjWord_fields]

theorem decodeAlu_inverts : Inverts (decodeAlu d a b fn) (srWord 0x01#6 d a b fn) := by
  simp only [decodeAlu]
  split
  case h_24 => exact .error
  -- `clz` and `popc` have no second source
  case h_22 | h_23 =>
    refine .zeroThen rfl rfl fun hz => ?_
    simp only [Bool.and_eq_true, beq_iff_eq] at hz
    rw [aluFn_fields fn ‹_› hz.1, hz.2]
  all_goals exact .zeroThen rfl rfl fun hz => by rw [aluFn_fields fn ‹_› (eq_of_beq hz)]

theorem decodeAtomic_inverts : Inverts (decodeAtomic d a b fn) (srWord 0x1C#6 d a b fn) := by
  simp only [decodeAtomic]
  split
  case h_11 => exact .error
  all_goals exact .zeroThen rfl rfl fun hz => by rw [atomicFn_fields fn ‹_› (eq_of_beq hz)]

theorem decodeShift_inverts : Inverts (decodeShift d a imm) (siWord 0x08#6 d a imm) := by
  simp only [decodeShift]
  split
  case h_4 => exact .error
  all_goals exact .zeroThen rfl rfl fun hz => by rw [shiftImm_fields ‹_› (eq_of_beq hz)]

theorem decodeLdx_inverts : Inverts (decodeLdx d a b fn) (srWord 0x17#6 d a b fn) := by
  unfold decodeLdx
  split
  case isTrue => exact .error
  case isFalse h =>
    exact .zeroThen (by simpa [Instr.wf] using h) rfl fun hz => by rw [ldxFn_fields fn (eq_of_beq hz)]

theorem decodeStx_inverts : Inverts (decodeStx d a b fn) (srWord 0x1F#6 d a b fn) :=
  .zeroThen rfl rfl fun hz => by
    simp only [Bool.and_eq_true, beq_iff_eq, Bool.not_eq_true'] at hz
    rw [stxFn_fields fn hz.1 hz.2]

/-- The last of the four values of a selector of two bits. -/
theorem selector2_last {x : BitVec 2} (h0 : x.toNat ≠ 0) (h1 : x.toNat ≠ 1) (h2 : x.toNat ≠ 2) : x.toNat = 3 := by omega

theorem decodeMatrixControl_inverts : Inverts (decodeMatrixControl d a b fn) (srWord 0x35#6 d a b fn) := by
  simp only [decodeMatrixControl]
  split
  case h_1 hs =>
    refine .zeroThen rfl rfl fun hz => ?_
    simp only [Bool.and_eq_true, beq_iff_eq] at hz
    rw [← ofNat_selector2 hs hz.1, hz.2]
  case' h_4 => have hs := selector2_last ‹_› ‹_› ‹_›
  all_goals
    refine .zeroThen rfl rfl fun hz => ?_
    simp only [Bool.and_eq_true, beq_iff_eq] at hz
    obtain ⟨⟨⟨hz, rfl⟩, rfl⟩, rfl⟩ := hz
    rw [← ofNat_selector2 ‹_› hz]

theorem decodeOrder_inverts : Inverts (decodeOrder d a b fn) (srWord 0x36#6 d a b fn) := by
  simp only [decodeOrder]
  split
  case' h_4 => have hs := selector2_last ‹_› ‹_› ‹_›
  all_goals
    refine .zeroThen rfl rfl fun hz => ?_
    simp only [Bool.and_eq_true, beq_iff_eq] at hz
    obtain ⟨⟨⟨hz, rfl⟩, rfl⟩, rfl⟩ := hz
    rw [← ofNat_selector2 ‹_› hz]

theorem decodeImages_inverts : Inverts (decodeImages d a b fn) (srWord 0x37#6 d a b fn) := by
  simp only [decodeImages]
  split
  case' h_4 => have hs := selector2_last ‹_› ‹_› ‹_›
  all_goals
    refine .zeroThen rfl rfl fun hz => ?_
    simp only [Bool.and_eq_true, beq_iff_eq] at hz
    rw [← ofNat_selector2 ‹_› hz.1, hz.2]

theorem decodePlacement_inverts : Inverts (decodePlacement d a b fn) (srWord 0x39#6 d a b fn) := by
  simp only [decodePlacement]
  split
  case h_2 hs =>
    refine .zeroThen rfl rfl fun hz => ?_
    simp only [Bool.and_eq_true, beq_iff_eq] at hz
    rw [← ofNat_selector2 hs hz.1, hz.2]
  case' h_4 => have hs := selector2_last ‹_› ‹_› ‹_›
  all_goals
    refine .zeroThen rfl rfl fun hz => ?_
    simp only [Bool.and_eq_true, beq_iff_eq] at hz
    obtain ⟨⟨hz, rfl⟩, rfl⟩ := hz
    rw [← ofNat_selector2 ‹_› hz]

/-- Selector 1 of the in-place opcode keeps its narrow bit where `nbadd` writes it. -/
theorem nbaddFn_fields {sub : BitVec 2} (h : ¬ sub ≥ 2#2) : 0#7 ++ bit (sub == 1#2) ++ 1#3 = 0#6 ++ sub ++ 1#3 := by
  revert sub
  decide

theorem wcalEarly_sub {sub : BitVec 2} (h2 : ¬ sub ≥ 2#2) (h0 : sub ≠ 0#2) : sub = 1#2 := by
  revert sub
  decide

theorem decodeInPlace_inverts : Inverts (decodeInPlace d a b fn) (srWord 0x38#6 d a b fn) := by
  have whole := inPlaceFn_fields fn
  simp only [decodeInPlace]
  generalize fn.extractLsb' 0 3 = sel at *
  generalize fn.extractLsb' 3 2 = sub at *
  split
  case h_1 hs | h_3 hs | h_4 hs =>
    obtain rfl := eq_ofNat_of_toNat hs
    refine .zeroThen rfl rfl fun hz => ?_
    simp only [Bool.and_eq_true, beq_iff_eq] at hz
    rw [← whole (by simp only [hz])]
    simp only [hz]
    rfl
  case h_2 hs =>
    obtain rfl := eq_ofNat_of_toNat hs
    split
    case isTrue => exact .error
    case isFalse h =>
      refine .zeroThen rfl rfl fun hz => ?_
      simp only [Bool.and_eq_true, beq_iff_eq] at hz
      rw [nbaddFn_fields h, whole hz.1, hz.2]
  case h_5 hs =>
    obtain rfl := eq_ofNat_of_toNat hs
    split
    case isTrue => exact .error
    case isFalse h =>
    split
    case isTrue h0 =>
      refine .zeroThen rfl rfl fun hz => ?_
      simp only [Bool.and_eq_true, beq_iff_eq] at hz h0
      rw [← whole hz.1, hz.2, h0]
      rfl
    case isFalse h0 =>
      refine .zeroThen rfl rfl fun hz => ?_
      simp only [Bool.and_eq_true, beq_iff_eq] at hz h0
      rw [← whole hz.1.1, hz.1.2, hz.2, wcalEarly_sub h h0]
      rfl
  case h_6 => exact .error

theorem decodeLaunch_inverts : Inverts (decodeLaunch d a b fn) (srWord 0x3A#6 d a b fn) := by
  have split (hz : fn.extractLsb' 1 10 = 0#10) : 0#10 ++ BitVec.ofBool (fn.getLsbD 0) = fn := by rw [← hz]; ext; grind
  simp only [decodeLaunch]
  split
  case isTrue h =>
    refine .zeroThen rfl rfl fun hz => ?_
    simp only [Bool.and_eq_true, beq_iff_eq] at hz
    rw [← split hz.1, h, hz.2]; rfl
  case isFalse h =>
    refine .zeroThen rfl rfl fun hz => ?_
    rw [← split (eq_of_beq hz), Bool.eq_false_iff.mpr h]; rfl

theorem decodeSystem_inverts {sel : BitVec 4} {num : BitVec 12} : Inverts (decodeSystem d a sel num) (ssWord d a sel num) := by
  simp only [decodeSystem]
  split
  case h_10 => exact .error
  case h_4 hs =>
    obtain rfl := eq_ofNat_of_toNat hs
    split
    case isTrue h => exact .zeroThen rfl rfl fun hz => by rw [eq_of_beq hz, eq_of_beq h]
    case isFalse hv =>
    split
    case isTrue h => exact .zeroThen rfl rfl fun hz => by rw [eq_of_beq hz, eq_of_beq h]
    case isFalse hp => exact .zeroThen (by simp_all [Instr.wf]) rfl fun hz => by rw [eq_of_beq hz]
  all_goals
    rename_i hs
    obtain rfl := eq_ofNat_of_toNat hs
    refine .zeroThen rfl rfl fun hz => ?_
    simp only [Bool.and_eq_true, beq_iff_eq] at hz
    simp only [hz]

theorem decodeFields_inverts {op : ℕ} (hop : (fOp w).toNat = op) : Inverts (decodeFields op w) w := by
  have sr := srWord_of_op hop
  simp only [decodeFields]
  split
  -- the rows of the SI, SM and SB formats, whose fields are all used
  case h_2 | h_3 | h_4 | h_5 | h_6 | h_7 | h_9 | h_11 | h_12 | h_13 | h_14 | h_15 | h_16 | h_17 | h_19 | h_20 | h_21 | h_22
      | h_25 | h_26 | h_27 | h_28 | h_29 | h_30 | h_33 =>
    exact .ok rfl rfl (siWord_of_op hop)
  case h_1 => exact decodeAlu_inverts.of_eq sr
  case h_8 => exact decodeShift_inverts.of_eq (siWord_of_op hop)
  -- `addpc`
  case h_10 => exact .zeroThen rfl rfl fun hz => by rw [← eq_of_beq hz, siWord_of_op hop]
  case h_18 => exact decodeLdx_inverts.of_eq sr
  case h_23 => exact decodeAtomic_inverts.of_eq sr
  case h_24 => exact decodeStx_inverts.of_eq sr
  -- the SJ format: `jmp` and `vfb`, then `jal` and `vloop`
  case h_31 | h_34 => exact .zeroThen rfl rfl fun hz => by rw [← eq_of_beq hz, sjWord_of_op hop]
  case h_32 | h_35 => exact .ok rfl rfl (sjWord_of_op hop)
  -- `vsetl`, `vwait` and `qget`
  case h_36 =>
    refine .zeroThen rfl rfl fun hz => ?_
    simp only [Bool.and_eq_true, beq_iff_eq] at hz
    rw [vsetlFn_fields _ hz.2, ← hz.1, sr]
  case h_37 =>
    refine .zeroThen rfl rfl fun hz => ?_
    simp only [Bool.and_eq_true, beq_iff_eq] at hz
    obtain ⟨⟨⟨hd, ha⟩, hb⟩, hf⟩ := hz
    rwa [hd, ha, hb, hf] at sr
  case h_38 =>
    refine .zeroThen rfl rfl fun hz => ?_
    simp only [Bool.and_eq_true, beq_iff_eq] at hz
    obtain ⟨⟨ha, hb⟩, hf⟩ := hz
    rw [ha, hb] at sr
    rwa [qgetFn_fields _ hf]
  case h_39 => exact decodeMatrixControl_inverts.of_eq sr
  case h_40 => exact decodeOrder_inverts.of_eq sr
  case h_41 => exact decodeImages_inverts.of_eq sr
  case h_42 => exact decodeInPlace_inverts.of_eq sr
  case h_43 => exact decodePlacement_inverts.of_eq sr
  case h_44 => exact decodeLaunch_inverts.of_eq sr
  case h_45 => exact decodeSystem_inverts.of_eq (ssWord_fields w (eq_ofNat_of_toNat hop))
  case h_46 => exact .error
end

/-! ## Vector words (R39, R44) -/

section
variable (op : BitVec 8) (f : VWord) (w : BitVec 64)

theorem opcode_toBits : (VWord.toBits op f).extractLsb' 56 8 = op := by
  ext i hi
  simp only [VWord.toBits, BitVec.getElem_extractLsb', BitVec.getLsbD_append]
  grind

theorem ofBits_toBits : VWord.ofBits (VWord.toBits op f) = f := by
  obtain ⟨form, vd, va, vb, m, rep, rsz, ridx, ty, ctl, x⟩ := f
  simp only [VWord.ofBits, VWord.mk.injEq]
  refine ⟨?_, ?_, ?_, ?_, ?_, ?_, ?_, ?_, ?_, ?_, ?_⟩
  case refine_6 =>
    simp only [VWord.toBits, BitVec.getLsbD_append]
    grind
  all_goals
    ext i hi
    simp only [VWord.toBits, BitVec.getElem_extractLsb', BitVec.getLsbD_append]
    grind

theorem ofBool_getLsbD {n : ℕ} (x : BitVec n) (k : ℕ) : BitVec.ofBool (x.getLsbD k) = x.extractLsb' k 1 := by
  ext; grind

theorem toBits_ofBits : VWord.toBits (w.extractLsb' 56 8) (VWord.ofBits w) = w := by
  simp (disch := decide) only [VWord.toBits, VWord.ofBits, ofBool_getLsbD, BitVec.extractLsb'_append_extractLsb'_eq_extractLsb']
  exact BitVec.extractLsb'_eq_self

/-- `vstop` and `vjoin` admit one word each (R46). -/
theorem eq_ofControl (h : f.bare = true) : f = VWord.ofControl := by
  simp only [VWord.bare, VWord.control, VWord.special, VWord.noRep, Bool.and_eq_true, beq_iff_eq, Bool.not_eq_true'] at h
  obtain ⟨form, vd, va, vb, m, rep, rsz, ridx, ty, ctl, x⟩ := f
  simp_all [VWord.ofControl]

end

theorem vectorOp_vectorFields {i : Instr} {op : BitVec 8} {f : VWord} (h : vectorFields i = some (op, f)) :
    vectorOp op.toNat f = .ok i := by
  cases i <;> cases h <;> rfl

theorem ok_of_ite_ok {b : Bool} {i j : Instr} {e : DecodeError} (h : (if b then Except.ok j else .error e) = .ok i) :
    b = true ∧ j = i := by
  cases b
  · cases h
  · cases h
    exact ⟨rfl, rfl⟩

theorem vectorFields_vectorOp {i : Instr} {op : ℕ} {f : VWord} (h : vectorOp op f = .ok i) :
    vectorFields i = some (BitVec.ofNat 8 op, f) := by
  unfold vectorOp at h
  split at h
  -- a dot of the opcode map
  case h_105 => cases h
  -- `vstop` and `vjoin`
  case h_86 | h_93 =>
    obtain ⟨hb, rfl⟩ := ok_of_ite_ok h
    rw [eq_ofControl f hb]
    rfl
  all_goals cases h; rfl

theorem decodeScalar_inverts {i : Instr} {w : BitVec 32} (h : decodeScalar w = .ok i) : i.wf = true ∧ encodeScalar i = some w :=
  decodeFields_inverts rfl i h

theorem decodeVector_encodeVector {i : Instr} {w : BitVec 64} (wf : i.wf = true) (h : encodeVector i = some w) :
    decodeVector w = .ok i := by
  obtain ⟨⟨op, f⟩, hf, rfl⟩ := Option.map_eq_some_iff.mp h
  rw [decodeVector, opcode_toBits, ofBits_toBits, vectorOp_vectorFields hf]
  exact if_pos wf

theorem decodeVector_inverts {i : Instr} {w : BitVec 64} (h : decodeVector w = .ok i) : i.wf = true ∧ encodeVector i = some w := by
  unfold decodeVector at h
  split at h
  case h_1 => cases h
  case h_2 j hj =>
    obtain ⟨wf, rfl⟩ := ok_of_ite_ok h
    refine ⟨wf, ?_⟩
    rw [encodeVector, vectorFields_vectorOp hj, BitVec.ofNat_toNat, BitVec.setWidth_eq, Option.map_some, toBits_ofBits]

end Sys2Proof

namespace Sys2Proof.Proofs

/-- Settles O60: the decoder gives back each row of the encoder's tables, and each row of the decoder accepts only that row's word. -/
theorem decodingInvertsEncoding : Obligations.DecodingInvertsEncoding :=
  ⟨fun _ _ => decodeScalar_encodeScalar, fun _ _ => decodeVector_encodeVector, fun _ _ => decodeScalar_inverts,
    fun _ _ => decodeVector_inverts⟩

/-- Settles O59: each worked encoding is the word that the encoder gives its instruction; the refused words are evaluated. -/
theorem wordsDecodeToTheirInstructions : Obligations.WordsDecodeToTheirInstructions :=
  ⟨decodeScalar_encodeScalar rfl rfl, decodeScalar_encodeScalar rfl rfl, decodeScalar_encodeScalar rfl rfl, decodeScalar_encodeScalar rfl rfl,
    decodeScalar_encodeScalar rfl rfl, decodeScalar_encodeScalar rfl rfl, decodeVector_encodeVector rfl rfl,
    rfl, rfl, rfl, rfl, rfl⟩

end Sys2Proof.Proofs
end

section
/-!
PROOFS. What reset leaves, register table by register table.
-/

open Sys2Proof Sys2Proof.Machine Sys2Proof.Claim

namespace Sys2Proof.Proofs

/-- What holds of the value that fills a table, and of the value read beside the table where i lies there, holds of whatever is read. -/
theorem getD_replicate_of {α : Type} (P : α → Prop) {n : ℕ} {a d : α} (i : ℕ) (ha : P a) (hd : n ≤ i → P d) :
    P ((Vector.replicate n a).toList.getD i d) := by
  rw [Vector.toList_replicate]
  rcases lt_or_ge i n with inside | beside
  · rwa [List.getD_replicate _ inside]
  · rw [List.getD_eq_default _ _ (by simpa using beside)]
    exact hd beside

theorem reset_vfEnabled (v : ℕ) : State.reset.vfEnabled v = false :=
  getD_replicate_of (fun f : Vf => f.en = false) v rfl fun _ => rfl

theorem reset_keys : ∀ k ∈ State.reset.host.keys.toList, k.loaded = none := by
  intro k hk
  obtain ⟨-, rfl⟩ : 64 ≠ 0 ∧ k = _ := List.mem_replicate.mp (Vector.toList_replicate ▸ hk)
  rfl

theorem reset_die (d : ℕ) :
    (State.reset.die d).clock = Clock.zero ∧ (State.reset.die d).covered = Clock.zero ∧ (State.reset.die d).gen = 0 :=
  getD_replicate_of (fun f : DieFab => f.clock = Clock.zero ∧ f.covered = Clock.zero ∧ f.gen = 0) d ⟨rfl, rfl, rfl⟩
    fun _ => ⟨rfl, rfl, rfl⟩

theorem reset_die_alive {d : ℕ} (hd : d < 8) : (State.reset.die d).alive = true :=
  getD_replicate_of (fun f : DieFab => f.alive = true) d rfl fun beside => absurd hd (not_lt_of_ge beside)

theorem reset_tableOf (d : ℕ) : State.reset.tableOf d = .reset :=
  getD_replicate_of (fun t : DieTable => t = .reset) d rfl fun _ => rfl

theorem reset_errsOf (d : ℕ) : errsOf State.reset d = .reset :=
  getD_replicate_of (fun e : ErrRegs => e = .reset) d rfl fun _ => rfl

theorem reset_harts : ∀ h ∈ State.reset.harts, h.phase = .free := by
  intro h hh
  obtain rfl := List.mem_singleton.mp hh
  rfl

/-- Settles O54: each table of registers is filled with the value of its register table, and the lists of what runs are empty. -/
theorem resetLeavesTheListedValues : Obligations.ResetLeavesTheListedValues :=
  ⟨rfl, rfl, fun _ => rfl, fun v _ => reset_vfEnabled v, reset_keys, fun _ => rfl, reset_die, fun _ => reset_die_alive,
    fun d => reset_tableOf d ▸ ⟨rfl, rfl, rfl⟩, reset_errsOf, rfl, rfl, rfl, rfl, rfl, rfl, reset_harts⟩

end Sys2Proof.Proofs
end

section
/-!
PROOFS. What an access to a state register may not do: the checks of R51 trap before anything of the access has happened.
-/

open Sys2Proof Sys2Proof.Machine Sys2Proof.Claim

namespace Sys2Proof.Machine

variable {s0 : State}

/-- A part of a meaning that traps with cause c and value v where it begins. -/
def Traps {α : Type} (s : State) (m : M s α) (c : BitVec 8) (v : Word) : Prop :=
  ∃ r, m (Run.start s) = .error r ∧ r.s = trapped s c v

theorem Traps.bind {α β : Type} {s : State} {m : M s α} {f : α → M s β} {c : BitVec 8} {v : Word} (h : Traps s m c v) :
    Traps s (m >>= f) c v := by
  obtain ⟨r, hr, hs⟩ := h
  exact ⟨r, M.bind_error hr, hs⟩

/-- What is read before a trap does not matter. -/
theorem Traps.next {α β : Type} {s : State} {m : M s α} {f : α → M s β} {a : α} {c : BitVec 8} {v : Word}
    (hm : m (Run.start s) = .ok (a, Run.start s)) (h : Traps s (f a) c v) : Traps s (m >>= f) c v := by
  obtain ⟨r, hr, hs⟩ := h
  exact ⟨r, (M.bind_ok hm).trans hr, hs⟩

theorem Traps.exec {s : State} {i : Instr} {m : M s PUnit} {c : BitVec 8} {v : Word} (he : Machine.exec i s = exec1 s m)
    (h : Traps s m c v) : Machine.exec i s = .next (trapped s c v) := by
  obtain ⟨r, hr, hs⟩ := h
  exact exec_of_end he hr hs

/-- A number that the table of R50 does not list has no access. -/
theorem srAccess_unlisted {n : Nat} (h : n ∉ srNumbers) : srAccess n = none := by
  simp only [srNumbers, List.mem_cons, List.not_mem_nil, or_false, not_or] at h
  simp only [srAccess, Bool.and_eq_true, Bool.or_eq_true, decide_eq_true_eq]
  split_ifs
  any_goals omega
  rfl

theorem srAccess_supOnly {n : Nat} (h : supOnly n) : srAccess n = some (false, false, true) := by
  obtain ⟨low, high⟩ := h
  interval_cases n <;> rfl

/-- The user writes no register of the supervisor and no read-only one. -/
theorem srAccess_noUserWrite {n : Nat} (h : supWrites n ∨ readOnly n) : ∃ ur w, srAccess n = some (ur, false, w) := by
  rcases h with (h | rfl | rfl | rfl | ⟨low, high⟩) | h
  · exact ⟨_, _, srAccess_supOnly h⟩
  · exact ⟨_, _, rfl⟩
  · exact ⟨_, _, rfl⟩
  · exact ⟨_, _, rfl⟩
  · interval_cases n <;> exact ⟨_, _, rfl⟩
  · exact ⟨_, _, srAccess_readOnly h⟩

theorem grpOfNat_illegal {k : Nat} (h : k ∉ [1, 2, 4, 8]) : grpOfNat k = none := by
  unfold grpOfNat
  split
  case h_5 => rfl
  all_goals simp at h

theorem sewOfNat_illegal {k : Nat} (h : k ∉ [8, 16, 32, 64]) : sewOfNat k = none := by
  unfold sewOfNat
  split
  case h_5 => rfl
  all_goals simp at h

variable {s : State} {n : Nat} {write ur uw w : Bool} {v word : Word}

theorem srCheck_unlisted (tvec : s.hart.sr.tvec ≠ 0) (ha : srAccess n = none) : Traps s (srCheck n write v word) 0x01 word := by
  simp only [srCheck, ha]
  exact M.trap_start _ _ tvec

theorem srCheck_forbidden (tvec : s.hart.sr.tvec ≠ 0) (ha : srAccess n = some (ur, uw, w)) (user : s.hart.sr.status.sv = false)
    (no : ur = false ∨ (write = true ∧ uw = false)) : Traps s (srCheck n write v word) 0x05 word := by
  obtain ⟨r, hr, hs⟩ := M.trap_start (α := PUnit) 0x05 word tvec
  have forbidden : (!s.hart.sup && (!ur || (write && !uw))) = true := by
    rcases no with rfl | ⟨rfl, rfl⟩ <;> simp [Hart.sup, user]
  refine ⟨r, ?_, hs⟩
  simp only [srCheck, ha, M.bind_run, M.hart_run, M.ite_run, Run.start_s, forbidden, if_true, hr]

theorem srCheck_illegal (tvec : s.hart.sr.tvec ≠ 0) (ha : srAccess n = some (true, true, w))
    (illegal : n = 0x011 ∧ v.toNat ∉ [1, 2, 4, 8] ∨ n = 0x012 ∧ v.toNat ∉ [8, 16, 32, 64]) :
    Traps s (srCheck n true v word) 0x01 word := by
  obtain ⟨r, hr, hs⟩ := M.trap_start (α := PUnit) 0x01 word tvec
  have refused : (true && ((decide (n = 0x011) && (grpOfNat v.toNat).isNone) || (decide (n = 0x012) && (sewOfNat v.toNat).isNone)))
      = true := by
    rcases illegal with ⟨rfl, h⟩ | ⟨rfl, h⟩
    · simp [grpOfNat_illegal h]
    · simp [sewOfNat_illegal h]
  refine ⟨r, ?_, hs⟩
  simp only [srCheck, ha, M.bind_run, M.hart_run, M.ite_run, Bool.not_true, Bool.and_false, Bool.or_false, refused, if_true]
  exact hr

/-! ## The three instructions of R110 trap where their check does -/

variable {d a : Reg} {k : BitVec 12} {c : BitVec 8}

theorem getsr_traps (h : Traps s (srCheck k.toNat false 0 (tvalOf (.getsr d k))) c (tvalOf (.getsr d k))) :
    exec (.getsr d k) s = .next (trapped s c (tvalOf (.getsr d k))) :=
  Traps.exec rfl h.bind

theorem setsr_traps (h : Traps s (srCheck k.toNat true (s.hart.reg a) (tvalOf (.setsr a k))) c (tvalOf (.setsr a k))) :
    exec (.setsr a k) s = .next (trapped s c (tvalOf (.setsr a k))) :=
  Traps.exec rfl (.next (M.rd_run _ _) h.bind)

theorem swapsr_traps (h : Traps s (srCheck k.toNat true (s.hart.reg a) (tvalOf (.swapsr d a k))) c (tvalOf (.swapsr d a k))) :
    exec (.swapsr d a k) s = .next (trapped s c (tvalOf (.swapsr d a k))) :=
  Traps.exec rfl (.next (M.rd_run _ _) h.bind)

/-- What only the supervisor may run traps at once in user mode. -/
theorem supervisor_traps {i : Instr} {m : M s PUnit} {word : Word} (tvec : s.hart.sr.tvec ≠ 0) (user : s.hart.sr.status.sv = false)
    (he : exec i s = exec1 s (do
      if !(← M.hart).sup then M.trap 0x05 word
      m)) : exec i s = .next (trapped s 0x05 word) := by
  have no : (!s.hart.sup) = true := by simp [Hart.sup, user]
  obtain ⟨r, hr, hs⟩ := M.trap_start (α := PUnit) 0x05 word tvec
  refine exec_of_end he ?_ hs
  simp only [M.bind_run, M.hart_run, M.ite_run, Run.start_s, no, if_true, hr]

end Sys2Proof.Machine

namespace Sys2Proof.Proofs

/-- Settles O9: the check of an access, or of the mode, comes before everything else that the instruction does. -/
theorem forbiddenAccessesTrap : Obligations.ForbiddenAccessesTrap := by
  intro s d a n tvec w
  refine ⟨fun unlisted => ?_, fun user sup => ?_, fun user no => ?_, fun illegal => ?_, fun user => ⟨?_, ?_, ?_, ?_⟩⟩
  · have ha : srAccess n.toNat = none := srAccess_unlisted fun listed =>
      unlisted (s.srRead n.toNat) (srValues_eq s ▸ List.mem_map.mpr ⟨_, listed, rfl⟩)
    exact ⟨getsr_traps (srCheck_unlisted tvec ha), setsr_traps (srCheck_unlisted tvec ha), swapsr_traps (srCheck_unlisted tvec ha)⟩
  · exact getsr_traps (srCheck_forbidden tvec (srAccess_supOnly sup) user (.inl rfl))
  · obtain ⟨ur, w, ha⟩ := srAccess_noUserWrite no
    exact ⟨setsr_traps (srCheck_forbidden tvec ha user (.inr ⟨rfl, rfl⟩)), swapsr_traps (srCheck_forbidden tvec ha user (.inr ⟨rfl, rfl⟩))⟩
  · have ha : srAccess n.toNat = some (true, true, true) := by
      rcases illegal with ⟨h, -⟩ | ⟨h, -⟩ <;> rw [h] <;> rfl
    exact setsr_traps (srCheck_illegal tvec ha illegal)
  · exact supervisor_traps tvec user rfl
  · exact supervisor_traps tvec user rfl
  · exact Traps.exec rfl (.next (M.rd_run _ _) (srCheck_forbidden tvec rfl user (.inr ⟨rfl, rfl⟩)).bind)
  · exact Traps.exec rfl (.next (M.rd_run _ _) (srCheck_forbidden tvec rfl user (.inr ⟨rfl, rfl⟩)).bind)

end Sys2Proof.Proofs
end

section
/-!
PROOFS. The compares and the mask words (R41, R43, R122 to R124): the checks and the second operand of an arithmetic word, and what each word
writes.
-/

open Sys2Proof Sys2Proof.Machine Sys2Proof.Claim

namespace Sys2Proof.Machine

variable {s0 : State}

/-! ## What an arithmetic word checks and reads -/

/-- The second operand in each of its forms (R39 to R41). -/
theorem M.operandB_run (f : VWord) (w : Nat) (r : Run s0) : M.operandB f w r = .ok (second r.s f w, r) := by
  unfold M.operandB second
  by_cases vv : f.form = 0
  · simp only [vv, if_true]
    rfl
  · by_cases vs : f.form = 1 <;> simp only [vv, vs, if_true, if_false, M.bind_run, M.vec_run, M.snap_run, M.ite_run] <;> rfl

/-- Outside matrix mode a destination needs no check either. -/
theorem M.needBelow28_run {r : Run s0} {f : VWord} {mx : Bool} (env : VEnv) (mode : ModeOk r.s f mx) :
    M.needBelow28 env f.vd (min r.s.hart.sr.vl.toNat 8192) r.s.hart.sr.sew.bits r = .ok (⟨⟩, r) := by
  have below : (r.s.hart.sr.mmode
      && decide (f.vd.toNat + max 1 (ceilDiv (min r.s.hart.sr.vl.toNat 8192 * r.s.hart.sr.sew.bits) 8192) > 28)) = false := by
    rw [Bool.and_eq_false_imp]
    intro on
    simpa [ceilDiv] using (mode on).2
  simp only [M.needBelow28, M.bind_run, M.hart_run, M.ite_run, below]
  rfl

/-- A word that is legal in matrix mode passes the mode checks with its destination below v28 (R172, R329). -/
theorem M.modeCheck_dest_run {r : Run s0} {env : VEnv} {f : VWord} {l : M.Legal} (hregion : env.region = false)
    (mode : ModeOk r.s f l.matrix) : M.modeCheck env l (some f.vd) r = .ok (⟨⟩, r) := by
  have allowed : (r.s.hart.sr.mmode && !l.matrix) = false := by
    rw [Bool.and_eq_false_imp]
    intro on
    rw [(mode on).1]
    rfl
  simp only [M.modeCheck, M.bind_run, M.hart_run, M.ite_run, allowed, hregion, Bool.false_and, M.needBelow28_run env mode]
  rfl

/-- The replicated unit lies within vlmax (R41). -/
theorem M.needUnit_run {r : Run s0} {f : VWord} (env : VEnv) (h : UnitOk r.s f) : M.needUnit env f r = .ok (⟨⟩, r) := by
  have within : (f.rep && decide (f.ridx.toNat * repUnit f + repUnit f
      > vlmax r.s.hart.sr.sew r.s.hart.sr.vgrp r.s.hart.id.cap)) = false := by
    rw [Bool.and_eq_false_imp]
    intro rep
    simpa using h rep
  simp only [M.needUnit, M.hartVlmax, M.bind_run, M.hart_run, M.ite_run, M.pure_run, within]
  rfl

/-- A legal word passes the checks of its width, its groups and its replicated unit (R41, R115). -/
theorem M.arithCheck_run {r : Run s0} {env : VEnv} {f : VWord} {l : M.Legal} {dest : Option Reg} {srcs : List Reg} {mx : Bool}
    (mode : M.modeCheck env l dest r = .ok (⟨⟩, r)) (legal : Claim.Legal r.s f (tyBits f.ty) (dest.toList ++ srcs ++ bOf f) mx) :
    M.arithCheck env l f dest srcs r = .ok (⟨⟩, r) := by
  have groups : M.needGroups env (dest.toList ++ srcs ++ M.bRegs f) r = .ok (⟨⟩, r) := M.needGroups_run env legal.groups
  rw [M.arithCheck, M.bind_ok mode, M.bind_ok (M.needSew_run env legal.sew), M.bind_ok groups, M.needUnit_run env legal.unit]

/-- A word that is legal outside matrix mode only finds the mode off. -/
theorem mmode_of_legal {s : State} {f : VWord} {w : Nat} {rs : List Reg} (legal : Claim.Legal s f w rs) : s.hart.sr.mmode = false := by
  cases on : s.hart.sr.mmode
  · rfl
  · exact nomatch (legal.mode on).1

/-! ## What the mask words leave -/

/-- A word that writes the vector state and nothing else leaves the state at the next word with it. -/
theorem vexec_putVec {s : State} {core : VEnv → M s PUnit} {v : VecState} (h : Unguarded s)
    (hcore : core (stripEnv s) (Run.start s) = M.putVec v (Run.start s)) : vexec s core = .next (vecNext s v) :=
  vexec_next h (hcore.trans rfl)

/-- A word that writes one return slot. -/
theorem vexec_putSlot {s : State} {core : VEnv → M s PUnit} {k : Nat} {v : Word} (h : Unguarded s)
    (hcore : core (stripEnv s) (Run.start s) = M.putSlot k v (Run.start s)) : vexec s core = .next (slotWritten s k v) := by
  obtain ⟨r, hr, hs⟩ := M.putSlot_run k v (Run.start s)
  rw [vexec_next h (hcore.trans hr), hs]
  rfl

theorem maskOp_vexec {s : State} {f : VWord} (g : Bool → Bool → Bool) (h : Unguarded s) (hmode : s.hart.sr.mmode = false)
    (unit : UnitOk s f) : vexec s (fun env => maskOp f env g) = .next (maskwise s f (f.vd.toNat % 8) fun e =>
      g ((s.hart.vec.mask (f.va.toNat % 8)).getLsbD e) ((s.hart.vec.mask (f.vb.toNat % 8)).getLsbD (vbPos f e))) := by
  refine vexec_putVec h ?_
  rw [maskOp, M.bind_ok (M.modeCheck_run (env := stripEnv s) M.threaded rfl hmode), M.bind_ok (M.needUnit_run _ unit),
    M.bind_ok (M.vec_run _)]
  rfl

/-- The answer of a word over the performed elements whose bit is set; for vl = 0 there is none (R116). -/
theorem slotOp_vexec {s : State} {f : VWord} (g : Nat → List Nat → Word) (h : Unguarded s) (hmode : s.hart.sr.mmode = false) :
    vexec s (fun env => slotOp f env g) = .next (
      if s.hart.sr.vl = 0 then vecNext s s.hart.vec
      else slotWritten s (f.vd.toNat % 8) (g s.hart.sr.sb.toNat
        ((acted s f).filter fun e => (s.hart.vec.mask (f.va.toNat % 8)).getLsbD e))) := by
  have start : slotOp f (stripEnv s) g (Run.start s) = (if s.hart.sr.vl = 0 then pure ⟨⟩
      else M.sbase >>= fun b => M.putSlot (f.vd.toNat % 8) (g b
        ((acted s f).filter fun e => (s.hart.vec.mask (f.va.toNat % 8)).getLsbD e))) (Run.start s) := by
    rw [slotOp, M.bind_ok (M.modeCheck_run (env := stripEnv s) M.plain rfl hmode), M.bind_ok (M.vec_run _), M.bind_ok (M.hart_run _)]
    rfl
  by_cases empty : s.hart.sr.vl = 0
  · rw [if_pos empty] at start ⊢
    exact vexec_next h (r := Run.start s) start
  · rw [if_neg empty] at start ⊢
    exact vexec_putSlot h (start.trans rfl)

theorem vcmp_exec {s : State} {f : VWord} (legal : Claim.Legal s f (tyBits f.ty) ([f.va] ++ bOf f)) :
    exec (.vcmp f) s = .next (maskwise s f (f.vd.toNat % 8) fun e =>
      condOf f.ty (f.ctl.toNat % 8) (el s f.va (tyBits f.ty) e) (second s f (tyBits f.ty) e)) := by
  have mode := M.modeCheck_run (r := Run.start s) (env := stripEnv s) M.threaded rfl (mmode_of_legal legal)
  refine vexec_putVec (core := vcmpCore f) legal.free ?_
  rw [vcmpCore, M.bind_ok (M.arithCheck_run mode legal)]
  rw [M.bind_ok (M.operandB_run _ _ _), M.bind_ok (M.vec_run _)]
  rfl

/-- m0 selects every element. -/
theorem stripEnv_elems_all (s : State) : (stripEnv s).elems (s.hart.vec.mask 0) = List.range (limit s) := by
  rw [stripEnv_elems, List.filter_eq_self]
  intro e he
  have inside : e < 8192 := (List.mem_range.mp he).trans_le (Nat.min_le_right _ _)
  rw [VecState.mask, if_pos rfl, BitVec.getLsbD_allOnes, decide_eq_true inside]

theorem vmsel_exec {s : State} {f : VWord} (legal : Claim.Legal s f (tyBits f.ty) ([f.vd, f.va] ++ bOf f) true) :
    exec (.vmsel f) s = .next (vecNext s (s.hart.vec.putElems f.vd.toNat (tyBits f.ty) (List.range (limit s)) fun e =>
      if (s.hart.vec.mask f.m.toNat).getLsbD e then el s f.va (tyBits f.ty) e else second s f (tyBits f.ty) e)) := by
  have mode := M.modeCheck_dest_run (r := Run.start s) (env := stripEnv s) (l := M.anywhere) rfl legal.mode
  refine vexec_putVec (core := vmselCore f) legal.free ?_
  rw [vmselCore, M.bind_ok (M.arithCheck_run mode legal)]
  rw [M.bind_ok (M.operandB_run _ _ _), M.bind_ok (M.vec_run _), Run.start_s, stripEnv_elems_all]
  rfl

end Sys2Proof.Machine

namespace Sys2Proof.Proofs

/-- Settles O23: `vcmp` and `vmsel` check as arithmetic words do; the mask words share one meaning, and so do the two words that answer in a
slot. -/
theorem maskOperationsWriteTheirBits : Obligations.MaskOperationsWriteTheirBits := by
  intro s f w vs a b set slot
  refine ⟨vcmp_exec, fun h hmode unit => ?_, fun h hmode => ⟨?_, ?_⟩, vmsel_exec⟩
  · exact ⟨maskOp_vexec (fun a b => a && b) h hmode unit, maskOp_vexec (fun a b => a || b) h hmode unit,
      maskOp_vexec (fun a b => a != b) h hmode unit, maskOp_vexec (fun a _ => !a) h hmode unit⟩
  · exact slotOp_vexec (fun _ es => BitVec.ofNat 64 es.length) h hmode
  · exact slotOp_vexec (fun sb es => match es with
      | [] => BitVec.allOnes 64
      | e :: _ => BitVec.ofNat 64 (sb + e)) h hmode

end Sys2Proof.Proofs
end

section
/-!
PROOFS. A broadcast command that fails its statement (O37). The statement takes each doubleword of the command and of its program as its own page
shows the line before the step. Two pages of one weight row may show it differently: the upper bytes of a row read as zero on an INT4 page and
not on an INT8 page (R203, R204). The load of the command leaves a copy of the row in the L1, and the load of the program reads that copy.
-/

open Sys2Proof Sys2Proof.Machine Sys2Proof.Claim

namespace Sys2Proof.Proofs

/-- The page at 4 MiB (INT8) or at 4 MiB + 256 KiB (INT4) of the first weight row of die 0, readable and cached. -/
def rowPage (int8 : Bool) : Leaf :=
  { base := 0x5000000000, size := 2 ^ 18, home := 0, ww := int8, wset := 1, tkey := 0, sh := false, pin := false, cc := false, wb := true,
    x := false, w := false, r := true, pte := if int8 then 0x18080 else 0x18088 }

/-- The mapping at 2 MiB: pinned, compute-capable, at the first channel-linear bytes of die 0. -/
def channelPage : Leaf :=
  { base := 0x800000000, size := 2 ^ 21, home := 0, ww := false, wset := 0, tkey := 0, sh := false, pin := true, cc := true, wb := false,
    x := false, w := true, r := true, pte := 0x18040 }

/-- The entries of the three leaves: the mapping's eight, the INT8 page and the INT4 page (R186). -/
def leafEntries : List Byte :=
  (List.range 8).flatMap (fun _ => toBytes 8 (0x800000000 + 2 ^ 8 + 0x67))
    ++ toBytes 8 (0x1001 * 2 ^ 48 + 0x5000000000 + 0x13) ++ toBytes 8 (2 ^ 48 + 0x5000000000 + 0x13)

/-- The doublewords of a command of channel 0 for row 0, column 0 and bank 0, with the program at 4 MiB + 256 KiB + 40 and the mapping at 2 MiB. -/
def commandWords : List Nat := [0, 1, 0x440028, 0x200000]

/-- A reserved bank word: it has no arithmetic operation, but bit 24 is set (R324). -/
def programWord : Nat := 0x1000000

/-- A hart in an `nbx` of two commands. The command lies at the start of the row and is read on the INT8 page; its program lies behind it in the
row, at byte 40, and is read on the INT4 page, where bits 63 to 20 of the word are zero. -/
def twoPagesState : State :=
  let s := (State.reset.placeScalar 0).placeBytes 0x18040 leafEntries
  let s := s.placeBytes 0x5000000000 (commandWords.flatMap (toBytes 8) ++ toBytes 8 0 ++ toBytes 8 programWord)
  { s with hart := { s.hart with wait := .nbx 0x400000 2 0, sr := { s.hart.sr with tvec := 0x1000 } } }

/-- The loads of doubleword i of the command and of the program, and the check of the mapping. -/
def commandAcc (i : Nat) : Acc := { va := 0x400000 + 8 * i, pa := 0x5000000000 + 8 * i, leaf := rowPage true }

@[inherit_doc commandAcc]
def programAcc : Acc := { va := 0x440028, pa := 0x5000000028, leaf := rowPage false }

@[inherit_doc commandAcc]
def mappingAcc : Acc := { va := 0x200000, pa := 0x800000000, leaf := channelPage }

theorem roomy_twoPages (la k : Nat) (hk : k ≤ 4096) : Roomy twoPagesState la k := by
  have empty : twoPagesState.img.cache = [] := by decide +kernel
  rw [Roomy, empty]
  simpa [cacheLines] using hk

theorem commandBlock : Block twoPagesState 12 (0x400000 + BitVec.ofNat 64 (32 * 0)) 4 (ofBytes (commandWords.flatMap (toBytes 8))) := by
  refine ⟨commandAcc, fun i => toBytes 8 (commandWords.getD i 0), fun i hi => ?_, by decide +kernel⟩
  refine ⟨⟨?_, ?_, ?_⟩, ?_, rfl, roomy_twoPages _ _ (by decide), ?_, ?_⟩
  all_goals interval_cases i <;> decide +kernel

theorem programBlock : Block twoPagesState 12 0x440028 1 0 := by
  refine ⟨fun _ => programAcc, fun _ => toBytes 8 0, fun i hi => ?_, by decide +kernel⟩
  obtain rfl : i = 0 := by omega
  exact ⟨⟨by decide +kernel, by decide +kernel, by decide +kernel⟩, by decide +kernel, rfl, roomy_twoPages _ _ (by decide), by decide +kernel,
    by decide +kernel⟩

theorem mappingPage : PageOk twoPagesState 0x200000 1 .atomic mappingAcc :=
  ⟨by decide +kernel, by decide +kernel, by decide +kernel⟩

/-- The command traps instead of running: its `nbx` waits for no second command. -/
theorem twoPagesState_stops (t : State) (h : exec (.broadcastCommand twoPagesState.hart.key) twoPagesState = .next t) :
    t.hart.wait = .none ∧ t.hart.sr.cause = 0x01 := by
  have run : (match exec (.broadcastCommand twoPagesState.hart.key) twoPagesState with
      | .next t => decide (t.hart.wait = .none ∧ t.hart.sr.cause = 0x01)
      | _ => false) = true := by
    decide +kernel
  rw [h] at run
  exact of_decide_eq_true run

/-- Refutes O37: the program of `twoPagesState` passes its checks as the INT4 page shows it, but `nbx` reads bits of it that page does not show,
and stops with cause 0x01. -/
theorem not_broadcastCommandsRunInTheirMapping : ¬ Obligations.BroadcastCommandsRunInTheirMapping := by
  unfold Obligations.BroadcastCommandsRunInTheirMapping
  intro h
  have reached : ReachedBy twoPagesState (learned twoPagesState) mappingAcc.leaf.home :=
    ⟨by decide +kernel, fun _ => by decide +kernel, fun far => absurd (by decide +kernel) far⟩
  obtain ⟨t, run, next, -⟩ := h twoPagesState 0x400000 2 0 (ofBytes (commandWords.flatMap (toBytes 8))) 0 mappingAcc
    (by decide +kernel) (by decide +kernel) (by decide +kernel) (by decide +kernel) (by decide +kernel) (by decide +kernel) (by decide +kernel)
    commandBlock (by decide +kernel) programBlock mappingPage (by decide +kernel) (by decide +kernel) (by decide +kernel) (by decide +kernel) reached
  rw [if_pos (by decide)] at next
  exact nomatch next.2.symm.trans (twoPagesState_stops t run).1

end Sys2Proof.Proofs
end

section
/-!
PROOFS. The vector words of the number formats (R68 to R83, R119 to R121, R125 to R128, R132 to R135): the rounding that a word reads, the
spans and blocks that it checks, and what each word writes.
-/

open Sys2Proof Sys2Proof.Machine Sys2Proof.Claim

namespace Sys2Proof.Machine

variable {s0 : State}

/-! ## What a word reads and checks -/

/-- The rounding of a word for a generator index (R43, R81); `roundAt` is the one for the global index of an element. -/
def wordRnd (s : State) (f : VWord) (k : Option Nat) (i : Nat) : Rnd :=
  let mode := f.ctl.toNat % 8
  { mode := mode, sat := f.ctl.getLsbD 3, zero := f.ctl.getLsbD 4, k := k,
    rho := if mode = 4 then (chash s.hart.sr.seed (genCtr s.hart.sr.stag i)).toNat else 0 }

theorem M.rounding_run (f : VWord) (k : Option Nat) (r : Run s0) : M.rounding f k r = .ok (wordRnd r.s f k, r) := by
  have mode : (f.ctl.extractLsb' 0 3).toNat = f.ctl.toNat % 8 := by simp
  simp only [M.rounding, M.bind_run, M.hart_run, mode]
  rfl

theorem M.sbase_run (r : Run s0) : M.sbase r = .ok (r.s.hart.sr.sb.toNat, r) := rfl

/-- An operand whose span is right passes the check of its span (R117). -/
theorem M.needSpan_run {r : Run s0} {d : Reg} {n w : Nat} (env : VEnv) (h : SpanOk r.s d n w) : M.needSpan env d n w r = .ok (⟨⟩, r) := by
  obtain ⟨start, last⟩ := h
  have within : ¬ d.toNat + max 1 (ceilDiv (n * w) 8192) > 32 := Nat.not_lt.mpr last
  rw [M.needSpan, M.bind_ok (M.needGroups_run env (by simpa using start))]
  simp only [M.ite_run, within, if_false]
  rfl

/-- The blocks of a length that is a multiple of 16 and fits the layout (R77). -/
theorem M.needBlocks_run {r : Run s0} (env : VEnv) (fp4 : Bool) (whole : blockCount fp4 r.s.hart.sr.vl.toNat % 16 = 0)
    (fits : blockCount fp4 r.s.hart.sr.vl.toNat ≤ 16 * blocksPerReg fp4 * r.s.hart.sr.vgrp.n) : M.needBlocks env fp4 r = .ok (⟨⟩, r) := by
  have good : (decide (blockCount fp4 r.s.hart.sr.vl.toNat % 16 ≠ 0)
      || decide (blockCount fp4 r.s.hart.sr.vl.toNat > 16 * blocksPerReg fp4 * r.s.hart.sr.vgrp.n)) = false := by
    simpa [whole] using fits
  simp only [M.needBlocks, M.bind_run, M.hart_run, M.ite_run, good]
  rfl

/-- A word passes its mode checks where it is legal in the current mode. -/
theorem M.modeCheck_legal {s : State} {f : VWord} (l : M.Legal) (mode : ModeOk s f l.matrix) :
    M.modeCheck (stripEnv s) l (some f.vd) (Run.start s) = .ok (⟨⟩, Run.start s) :=
  M.modeCheck_dest_run rfl mode

/-- An arithmetic word with a destination and one source passes its checks where it is legal. -/
theorem M.arithCheck_legal {s : State} {f : VWord} (l : M.Legal)
    (legal : Claim.Legal s f (tyBits f.ty) ([f.vd, f.va] ++ bOf f) l.matrix) :
    M.arithCheck (stripEnv s) l f (some f.vd) [f.va] (Run.start s) = .ok (⟨⟩, Run.start s) :=
  M.arithCheck_run (M.modeCheck_legal l legal.mode) legal

/-- A word with one source is legal as the word that names its source twice. -/
theorem legal_oneSrc {s : State} {f : VWord} (legal : Claim.Legal s f (tyBits f.ty) [f.vd, f.va]) :
    Claim.Legal s (oneSrc f) (tyBits f.ty) ([f.vd, f.va] ++ bOf (oneSrc f)) := by
  obtain ⟨free, mode, sew, groups, unit⟩ := legal
  refine ⟨free, mode, sew, fun r hr => groups r ?_, unit⟩
  simpa [bOf, oneSrc] using hr

/-- Nothing past vl is performed. -/
theorem limit_le (s : State) : limit s ≤ min s.hart.sr.vl.toNat 8192 := by
  unfold limit
  cases s.hart.ctx with
  | none => exact le_rfl
  | some c =>
    have cut : c.limit s.hart.sr.vl.toNat ≤ s.hart.sr.vl.toNat := by
      cases hstop : c.stop <;> simp [LoopCtx.limit, hstop]
    exact min_le_min_right 8192 cut

/-! ## Floating-point words (R120, R121) -/

theorem floatOp_vexec {s : State} {f : VWord} (l : M.Legal) (g : Rnd → FVal → FVal → FVal → FRes)
    (legal : Claim.Legal s f (tyBits f.ty) ([f.vd, f.va] ++ bOf f) l.matrix) :
    vexec s (fun env => floatOp f env l g) = .next (elementwise s f (tyBits f.ty) fun e =>
      (fmtOf f.ty).round (roundAt s f (some 32) e) (g (roundAt s f (some 32) e) ((fmtOf f.ty).decode (el s f.va (tyBits f.ty) e))
        ((fmtOf f.ty).decode (second s f (tyBits f.ty) e)) ((fmtOf f.ty).decode (el s f.vd (tyBits f.ty) e)))) := by
  refine vexec_putVec legal.free ?_
  rw [floatOp, M.bind_ok (M.arithCheck_legal l legal), M.bind_ok (M.operandB_run _ _ _), M.bind_ok (M.vec_run _),
    M.bind_ok (M.sbase_run _), M.bind_ok (M.rounding_run _ _ _)]
  rfl

theorem bitsOp_vexec {s : State} {f : VWord} (g : Fmt → Nat → Nat → Nat)
    (legal : Claim.Legal s f (tyBits f.ty) ([f.vd, f.va] ++ bOf f)) :
    vexec s (fun env => bitsOp f env g) = .next (elementwise s f (tyBits f.ty) fun e =>
      g (fmtOf f.ty) (el s f.va (tyBits f.ty) e) (second s f (tyBits f.ty) e)) := by
  refine vexec_putVec legal.free ?_
  rw [bitsOp, M.bind_ok (M.arithCheck_legal M.threaded legal), M.bind_ok (M.operandB_run _ _ _), M.bind_ok (M.vec_run _)]
  rfl

theorem unaryOp_vexec {s : State} {f : VWord} (op : Nat) (g : FVal → FRes) (legal : Claim.Legal s f (tyBits f.ty) [f.vd, f.va]) :
    vexec s (fun env => unaryOp op f env g) = .next (elementwise s f (tyBits f.ty) fun e =>
      roundR74 op (fmtOf f.ty) (roundAt s f (some 32) e) (el s f.va (tyBits f.ty) e)
        (g ((fmtOf f.ty).decode (el s f.va (tyBits f.ty) e)))) := by
  have check : M.arithCheck (stripEnv s) M.threaded (oneSrc f) (some f.vd) [f.va] (Run.start s) = .ok (⟨⟩, Run.start s) :=
    M.arithCheck_legal (f := oneSrc f) M.threaded (legal_oneSrc legal)
  refine vexec_putVec legal.free ?_
  rw [unaryOp, M.bind_ok check, M.bind_ok (M.vec_run _), M.bind_ok (M.sbase_run _), M.bind_ok (M.rounding_run _ _ _)]
  rfl

theorem vfclamp_exec {s : State} {f : VWord} (legal : Claim.Legal s f (tyBits f.ty) ([f.vd, f.va] ++ bOf f))
    (pair : f.vb.toNat + 2 * s.hart.sr.vgrp.n ≤ 32) :
    exec (.vfclamp f) s = .next (elementwise s f (tyBits f.ty) fun e =>
      (fmtOf f.ty).min ((fmtOf f.ty).max (el s f.va (tyBits f.ty) e) (el s f.vb (tyBits f.ty) (vbPos f e)))
        (s.hart.vec.elem (f.vb.toNat + s.hart.sr.vgrp.n) (tyBits f.ty) (vbPos f e))) := by
  have within : ¬ f.vb.toNat + 2 * s.hart.sr.vgrp.n > 32 := Nat.not_lt.mpr pair
  refine vexec_putVec (core := vfclampCore f) legal.free ?_
  rw [vfclampCore, M.bind_ok (M.arithCheck_legal M.threaded legal), M.bind_ok (M.hart_run _), Run.start_s]
  simp only [within, if_false]
  rfl

/-! ## `vclip` and the bit-plane words (R119, R127, R128) -/

theorem vclip_exec {s : State} {f : VWord} (legal : Claim.Legal s { f with rep := false } (2 * tyBits f.ty) [])
    (hvd : SpanOk s f.vd s.hart.sr.vl.toNat (tyBits f.ty)) (hva : SpanOk s f.va s.hart.sr.vl.toNat (2 * tyBits f.ty)) :
    exec (.vclip f) s = .next (elementwise s f (tyBits f.ty) fun e =>
      let v := clipRound (roundAt s f (some (min (f.x.toNat % 64) 32)) e) (tyInt f.ty (2 * tyBits f.ty) (el s f.va (2 * tyBits f.ty) e))
        (f.x.toNat % 64)
      wrapInt (tyBits f.ty) (if f.ctl.getLsbD 3 then clampInt (tySigned f.ty) (tyBits f.ty) v else v)) := by
  refine vexec_putVec (core := vclipCore f) legal.free ?_
  rw [vclipCore, M.bind_ok (M.modeCheck_legal M.threaded legal.mode), M.bind_ok (M.needSew_run _ legal.sew), M.bind_ok (M.hart_run _),
    M.bind_ok (M.needSpan_run _ hvd), M.bind_ok (M.needSpan_run _ hva), M.bind_ok (M.vec_run _), M.bind_ok (M.sbase_run _),
    M.bind_ok (M.rounding_run _ _ _)]
  rfl

/-- Position e of n destination planes becomes g e for every performed e. -/
def planewise (s : State) (f : VWord) (n : Nat) (g : Nat → Nat) : State :=
  vecNext s ((acted s f).foldl (fun acc e => acc.putPlanes f.vd.toNat n e (g e)) s.hart.vec)

theorem planeOp_run {s : State} {f : VWord} (n : Nat) (g : VecState → Nat → Nat) (legal : Claim.Legal s { f with rep := false } 8 []) :
    planeOp f (stripEnv s) n g (Run.start s)
      = M.putVec ((acted s f).foldl (fun acc e => acc.putPlanes f.vd.toNat n e (g s.hart.vec e)) s.hart.vec) (Run.start s) := by
  rw [planeOp, M.bind_ok (M.modeCheck_legal M.plain legal.mode), M.bind_ok (M.needSew_run _ legal.sew), M.bind_ok (M.vec_run _)]
  rfl

theorem planeOp_vexec {s : State} {f : VWord} (n : Nat) (g : VecState → Nat → Nat) (legal : Claim.Legal s { f with rep := false } 8 []) :
    vexec s (fun env => planeOp f env n g) = .next (planewise s f n (g s.hart.vec)) :=
  vexec_putVec legal.free (planeOp_run n g legal)

theorem vpadd_exec {s : State} {f : VWord} (legal : Claim.Legal s f 8 []) : exec (.vpadd f) s = .next (planewise s f f.planesOut fun e =>
    s.hart.vec.planes f.va.toNat f.planes e + s.hart.vec.planes f.vb.toNat f.planes (vbPos f e)) := by
  obtain ⟨free, mode, sew, groups, unit⟩ := legal
  refine vexec_putVec (core := vpaddCore f) free ?_
  rw [vpaddCore, M.bind_ok (M.needUnit_run _ unit)]
  exact planeOp_run _ _ ⟨free, mode, sew, groups, nofun⟩

theorem vbpl_exec {s : State} {f : VWord} (legal : Claim.Legal s { f with rep := false } (tyBits f.srcTy) [])
    (hva : SpanOk s f.va s.hart.sr.vl.toNat (tyBits f.srcTy)) :
    exec (.vbpl f) s = .next (planewise s f f.planes fun e => el s f.va (tyBits f.srcTy) e) := by
  refine vexec_putVec (core := vbplCore f) legal.free ?_
  rw [vbplCore, M.bind_ok (M.modeCheck_legal M.plain legal.mode), M.bind_ok (M.needSew_run _ legal.sew), M.bind_ok (M.hart_run _),
    M.bind_ok (M.needSpan_run _ hva), M.bind_ok (M.vec_run _)]
  rfl

theorem vbunpl_exec {s : State} {f : VWord} (legal : Claim.Legal s { f with rep := false } (tyBits f.ty) [])
    (hvd : SpanOk s f.vd s.hart.sr.vl.toNat (tyBits f.ty)) :
    exec (.vbunpl f) s = .next (elementwise s f (tyBits f.ty) fun e => s.hart.vec.planes f.va.toNat f.planes e) := by
  refine vexec_putVec (core := vbunplCore f) legal.free ?_
  rw [vbunplCore, M.bind_ok (M.modeCheck_legal M.plain legal.mode), M.bind_ok (M.needSew_run _ legal.sew), M.bind_ok (M.hart_run _),
    M.bind_ok (M.needSpan_run _ hvd), M.bind_ok (M.vec_run _)]
  rfl

/-! ## Conversion and packing (R125, R126) -/

/-- A destination no wider than the granted width stays below v28 where one of the granted width does (R172). -/
theorem M.needBelow28_narrow {r : Run s0} {f : VWord} {mx : Bool} {w : Nat} (env : VEnv) (mode : ModeOk r.s f mx)
    (narrow : w ≤ r.s.hart.sr.sew.bits) : M.needBelow28 env f.vd (min r.s.hart.sr.vl.toNat 8192) w r = .ok (⟨⟩, r) := by
  have fewer : ceilDiv (min r.s.hart.sr.vl.toNat 8192 * w) 8192 ≤ ceilDiv (min r.s.hart.sr.vl.toNat 8192 * r.s.hart.sr.sew.bits) 8192 :=
    Nat.div_le_div_right (Nat.sub_le_sub_right (Nat.add_le_add_right (Nat.mul_le_mul_left _ narrow) _) _)
  have below : (r.s.hart.sr.mmode
      && decide (f.vd.toNat + max 1 (ceilDiv (min r.s.hart.sr.vl.toNat 8192 * w) 8192) > 28)) = false := by
    rw [Bool.and_eq_false_imp]
    intro on
    exact decide_eq_false (Nat.not_lt.mpr ((Nat.add_le_add_left (max_le_max_left 1 fewer) _).trans (mode on).2))
  simp only [M.needBelow28, M.bind_run, M.hart_run, M.ite_run, below]
  rfl

theorem vcvt_exec {s : State} {f : VWord} (legal : Claim.Legal s { f with rep := false } (max (tyBits f.srcTy) (tyBits f.ty)) [] true)
    (hvd : SpanOk s f.vd s.hart.sr.vl.toNat (tyBits f.ty)) (hva : SpanOk s f.va s.hart.sr.vl.toNat (tyBits f.srcTy)) :
    exec (.vcvt f) s = .next (elementwise s f (tyBits f.ty) fun e =>
      convertElem f.srcTy f.ty (roundAt s f none e) (el s f.va (tyBits f.srcTy) e)) := by
  have mode : ModeOk s f true := legal.mode
  have narrow : tyBits f.ty ≤ s.hart.sr.sew.bits := legal.sew ▸ le_max_right _ _
  refine vexec_putVec (core := vcvtCore f) legal.free ?_
  rw [vcvtCore, M.bind_ok (M.modeCheck_legal M.anywhere mode), M.bind_ok (M.needSew_run _ legal.sew), M.bind_ok (M.hart_run _),
    M.bind_ok (M.needBelow28_narrow _ mode narrow), M.bind_ok (M.needSpan_run _ hvd), M.bind_ok (M.needSpan_run _ hva),
    M.bind_ok (M.vec_run _), M.bind_ok (M.sbase_run _), M.bind_ok (M.rounding_run _ _ _)]
  rfl

/-- The performed blocks of a word (R77). -/
def actedBlocks (s : State) (f : VWord) (fp4 : Bool) : List Nat :=
  (List.range (blockCount fp4 (limit s) / 16)).filter fun b => f.m = 0 ∨ (s.hart.vec.mask f.m.toNat).getLsbD (16 * b)

theorem stripEnv_blocks (s : State) (f : VWord) (fp4 : Bool) :
    (stripEnv s).blocks fp4 s.hart.vec f.m.toNat = actedBlocks s f fp4 := by
  have m0 : (f.m.toNat == 0) = decide (f.m = 0) := decide_eq_decide.mpr (BitVec.toNat_eq (y := 0)).symm
  exact List.filter_congr fun b _ => by rw [m0, Bool.decide_or, Bool.decide_eq_true]

theorem vqpack_exec {s : State} {f : VWord} (legal : Claim.Legal s { f with rep := false } 8 [f.vd])
    (hva : SpanOk s f.va (blockCount (f.ty == 14#4) s.hart.sr.vl.toNat) (tyBits f.srcTy))
    (whole : blockCount (f.ty == 14#4) s.hart.sr.vl.toNat % 16 = 0)
    (fits : blockCount (f.ty == 14#4) s.hart.sr.vl.toNat ≤ 16 * blocksPerReg (f.ty == 14#4) * s.hart.sr.vgrp.n) :
    exec (.vqpack f) s = .next (vecNext s ((actedBlocks s f (f.ty == 14#4)).foldl (fun acc b =>
      let p := packBlock (fmtOf f.ty) (fun i => wordRnd s f none (blockCount (f.ty == 14#4) s.hart.sr.sb.toNat + 16 * b + i))
        ((List.range 16).map fun i => (fmtOf f.srcTy).decode (el s f.va (tyBits f.srcTy) (16 * b + i)))
      acc.putBlock (f.ty == 14#4) f.vd.toNat b p.1 fun i => p.2.getD i 0) s.hart.vec)) := by
  refine vexec_putVec (core := vqpackCore f) legal.free ?_
  rw [vqpackCore, M.bind_ok (M.modeCheck_legal M.plain legal.mode), M.bind_ok (M.needSew_run _ legal.sew),
    M.bind_ok (M.needGroups_run _ legal.groups), M.bind_ok (M.hart_run _), M.bind_ok (M.needSpan_run _ hva),
    M.bind_ok (M.needBlocks_run _ _ whole fits), M.bind_ok (M.vec_run _), M.bind_ok (M.sbase_run _), M.bind_ok (M.rounding_run _ _ _),
    Run.start_s, stripEnv_blocks]
  rfl

theorem vqunpack_exec {s : State} {f : VWord} (legal : Claim.Legal s { f with rep := false } 8 [f.va])
    (hvd : SpanOk s f.vd (blockCount (f.srcTy == 14#4) s.hart.sr.vl.toNat) (tyBits f.ty))
    (whole : blockCount (f.srcTy == 14#4) s.hart.sr.vl.toNat % 16 = 0)
    (fits : blockCount (f.srcTy == 14#4) s.hart.sr.vl.toNat ≤ 16 * blocksPerReg (f.srcTy == 14#4) * s.hart.sr.vgrp.n) :
    exec (.vqunpack f) s = .next (vecNext s ((actedBlocks s f (f.srcTy == 14#4)).foldl (fun acc b =>
      acc.putElems f.vd.toNat (tyBits f.ty) ((List.range 16).map (16 * b + ·)) fun e =>
        (fmtOf f.ty).round (wordRnd s f none (blockCount (f.srcTy == 14#4) s.hart.sr.sb.toNat + e))
          (fmul (e8m0 (s.hart.vec.blockScale (f.srcTy == 14#4) f.va.toNat b))
            ((fmtOf f.srcTy).decode (s.hart.vec.blockElem (f.srcTy == 14#4) f.va.toNat b (e % 16)))).res) s.hart.vec)) := by
  refine vexec_putVec (core := vqunpackCore f) legal.free ?_
  rw [vqunpackCore, M.bind_ok (M.modeCheck_legal M.plain legal.mode), M.bind_ok (M.needSew_run _ legal.sew),
    M.bind_ok (M.needGroups_run _ legal.groups), M.bind_ok (M.hart_run _), M.bind_ok (M.needSpan_run _ hvd),
    M.bind_ok (M.needBlocks_run _ _ whole fits), M.bind_ok (M.vec_run _), M.bind_ok (M.sbase_run _), M.bind_ok (M.rounding_run _ _ _),
    Run.start_s, stripEnv_blocks]
  rfl

/-! ## Reductions and scans (R132, R133) -/

/-- The positions of the length with their performed marks and their encodings. -/
def marked (s : State) (f : VWord) : List (Bool × Nat) :=
  (List.range (min s.hart.sr.vl.toNat 8192)).map fun e =>
    ((stripEnv s).performed (s.hart.vec.mask f.m.toNat) e, el s f.va (tyBits f.ty) e)

theorem mem_acted (s : State) (f : VWord) (e : Nat) : e ∈ acted s f ↔ (stripEnv s).performed (s.hart.vec.mask f.m.toNat) e = true := by
  simp [acted, stripEnv_performed]

/-- What enters the tree: the performed elements, and the identity elsewhere (R83). -/
theorem treeSum_marked (s : State) (f : VWord) (r : Rnd) (b0 : Nat) : treeSum f.ty r b0 (marked s f)
    = addBits f.ty r b0 (tree (addBits f.ty r) (addIdentity f.ty) ((List.range (min s.hart.sr.vl.toNat 8192)).map fun e =>
        if e ∈ acted s f then el s f.va (tyBits f.ty) e else addIdentity f.ty)) := by
  simp only [treeSum, marked, List.map_map, Function.comp_def, mem_acted]

/-- The performed elements lie within the length: nothing past vl is performed (R116). -/
theorem filter_performed (s : State) (f : VWord) :
    (List.range (min s.hart.sr.vl.toNat 8192)).filter ((stripEnv s).performed (s.hart.vec.mask f.m.toNat)) = acted s f := by
  have below : (List.range (min s.hart.sr.vl.toNat 8192)).filter (fun e => decide (e < limit s)) = List.range (limit s) := by
    rw [← List.Ico.zero_bot, ← List.Ico.zero_bot, List.Ico.filter_lt_of_ge (limit_le s)]
  rw [acted, ← below, List.filter_filter]
  exact List.filter_congr fun e _ => (stripEnv_performed s _ e).trans (Bool.and_comm _ _)

theorem marked_performed (s : State) (f : VWord) :
    (marked s f).filter (·.1) = (acted s f).map fun e => (true, el s f.va (tyBits f.ty) e) := by
  rw [marked, List.filter_map, Function.comp_def, filter_performed]
  exact List.map_congr_left fun e he => by rw [(mem_acted s f e).mp he]

theorem reduceOp_vexec {s : State} {f : VWord} (g : Rnd → Nat → List (Bool × Nat) → Nat)
    (legal : Claim.Legal s f (tyBits f.ty) ([f.vd, f.va] ++ bOf f)) :
    vexec s (fun env => reduceOp f env g) = .next (vecNext s (if s.hart.sr.vl = 0 then s.hart.vec
      else s.hart.vec.setElem f.vd.toNat (tyBits f.ty) 0
        (g (wordRnd s f none 0) (second s f (tyBits f.ty) 0) (marked s f)))) := by
  have start : reduceOp f (stripEnv s) g (Run.start s) = (if s.hart.sr.vl = 0 then pure ⟨⟩
      else M.putVec (s.hart.vec.setElem f.vd.toNat (tyBits f.ty) 0
        (g (wordRnd s f none 0) (second s f (tyBits f.ty) 0) (marked s f)))) (Run.start s) := by
    rw [reduceOp, M.bind_ok (M.arithCheck_legal M.plain legal), M.bind_ok (M.operandB_run _ _ _), M.bind_ok (M.vec_run _),
      M.bind_ok (M.rounding_run _ _ _), M.bind_ok (M.hart_run _)]
    rfl
  by_cases empty : s.hart.sr.vl = 0
  · rw [if_pos empty] at start ⊢
    exact vexec_next legal.free (r := Run.start s) start
  · rw [if_neg empty] at start ⊢
    exact vexec_putVec legal.free start

/-- `vredmin` and `vredmax`: a fold over the performed elements in index order. -/
theorem reduceOp_fold_vexec {s : State} {f : VWord} (op : Nat → Nat → Nat)
    (legal : Claim.Legal s f (tyBits f.ty) ([f.vd, f.va] ++ bOf f)) :
    vexec s (fun env => reduceOp f env fun _ b0 xs => (xs.filter (·.1)).foldl (fun acc x => op acc x.2) b0)
      = .next (vecNext s (if s.hart.sr.vl = 0 then s.hart.vec else s.hart.vec.setElem f.vd.toNat (tyBits f.ty) 0
        ((acted s f).foldl (fun acc e => op acc (el s f.va (tyBits f.ty) e)) (second s f (tyBits f.ty) 0)))) := by
  rw [reduceOp_vexec _ legal, marked_performed, List.foldl_map]

theorem reduceOp_tree_vexec {s : State} {f : VWord} (legal : Claim.Legal s f (tyBits f.ty) ([f.vd, f.va] ++ bOf f)) :
    vexec s (fun env => reduceOp f env fun r b0 xs => treeSum f.ty r b0 xs)
      = .next (vecNext s (if s.hart.sr.vl = 0 then s.hart.vec else s.hart.vec.setElem f.vd.toNat (tyBits f.ty) 0
        (addBits f.ty (wordRnd s f none 0) (second s f (tyBits f.ty) 0)
          (tree (addBits f.ty (wordRnd s f none 0)) (addIdentity f.ty) ((List.range (min s.hart.sr.vl.toNat 8192)).map fun e =>
            if e ∈ acted s f then el s f.va (tyBits f.ty) e else addIdentity f.ty))))) := by
  rw [reduceOp_vexec _ legal, treeSum_marked]

theorem vscan_exec {s : State} {f : VWord} (legal : Claim.Legal s f (tyBits f.ty) ([f.vd, f.va] ++ bOf f)) :
    exec (.vscan f) s = .next (vecNext s ((acted s f).foldl (fun (acc : Nat × VecState) e =>
      (addBits f.ty (wordRnd s f none 0) acc.1 (el s f.va (tyBits f.ty) e),
        acc.2.setElem f.vd.toNat (tyBits f.ty) e (addBits f.ty (wordRnd s f none 0) acc.1 (el s f.va (tyBits f.ty) e))))
          (second s f (tyBits f.ty) 0, s.hart.vec)).2) := by
  refine vexec_putVec (core := vscanCore f) legal.free ?_
  rw [vscanCore, M.bind_ok (M.arithCheck_legal M.plain legal), M.bind_ok (M.operandB_run _ _ _), M.bind_ok (M.vec_run _),
    M.bind_ok (M.rounding_run _ _ _)]
  rfl

/-! ## Generator draws (R134, R135) -/

/-- The tag that `vrand` draws under: a scalar or the immediate (R134). -/
def drawTag (s : State) (f : VWord) : BitVec 16 :=
  if f.form = 1 then (snapped s (f.x.toNat % 32)).setWidth 16 else BitVec.ofNat 16 (f.x.toNat % 65536)

theorem vrand_exec {s : State} {f : VWord} (legal : Claim.Legal s { f with rep := false } (tyBits f.ty) [f.vd]) :
    exec (.vrand f) s = .next (elementwise s f (tyBits f.ty) fun e =>
      drawValue f.ty (chash s.hart.sr.seed (genCtr (drawTag s f) (s.hart.sr.sb.toNat + e)))) := by
  refine vexec_putVec (core := vrandCore f) legal.free ?_
  rw [vrandCore, M.bind_ok (M.modeCheck_legal M.plain legal.mode), M.bind_ok (M.needSew_run _ legal.sew),
    M.bind_ok (M.needGroups_run _ legal.groups)]
  by_cases vs : f.form = 1
  · have tag : drawTag s f = (snapped s (f.x.toNat % 32)).setWidth 16 := if_pos vs
    rw [if_pos vs, M.bind_ok (M.snap_run _ _), tag]
    rfl
  · have tag : drawTag s f = (BitVec.ofNat 64 (f.x.toNat % 65536)).setWidth 16 := by
      rw [drawTag, if_neg vs, BitVec.setWidth_ofNat_of_le (by decide)]
    rw [if_neg vs, M.bind_ok (M.pure_run _ _), tag]
    rfl

theorem vnoise_exec {s : State} {f : VWord} (legal : Claim.Legal s f (tyBits f.ty) ([f.vd, f.va] ++ bOf f)) :
    exec (.vnoise f) s = .next (elementwise s f (tyBits f.ty) fun e =>
      (fmtOf f.ty).round (roundAt s f (some 32) e) (fadd (roundAt s f (some 32) e) ((fmtOf f.ty).decode (el s f.va (tyBits f.ty) e))
        (fmul ((fmtOf f.ty).decode (second s f (tyBits f.ty) e))
          (noiseOf s.hart.sr.seed (genCtr (s.hart.sr.stag ^^^ 0x8000#16) (s.hart.sr.sb.toNat + e)))))) := by
  refine vexec_putVec (core := vnoiseCore f) legal.free ?_
  rw [vnoiseCore, M.bind_ok (M.arithCheck_legal M.plain legal), M.bind_ok (M.operandB_run _ _ _), M.bind_ok (M.vec_run _),
    M.bind_ok (M.sbase_run _), M.bind_ok (M.rounding_run _ _ _), M.bind_ok (M.hart_run _)]
  rfl

end Sys2Proof.Machine

namespace Sys2Proof.Proofs

/-- Settles O21: `vclip` rounds each element by its own index; the words that write planes share one way to write positions. That the replicate
modifier may stand on `vpadd` is the model's choice (log 28). -/
theorem clipAndBitPlanesWriteTheirElements : Obligations.ClipAndBitPlanesWriteTheirElements := by
  intro s f vs vl w ws planes put prod
  refine ⟨vclip_exec, vpadd_exec, fun legal => ⟨?_, ?_⟩, vbpl_exec, vbunpl_exec⟩
  · exact planeOp_vexec f.planesOut (planeProduct f) legal
  · exact planeOp_vexec f.planesOut (fun vs e => vs.planes f.vd.toNat f.planes e + planeProduct f vs e) legal

/-- Settles O22: the words share three meanings, an operation rounded once, an operation on encodings, and a function of R74. Two choices
of the model stand in it: an infinite quotient under `sat` (log 103) and the conversion of an immediate (log 104). -/
theorem floatingVectorOperationsRoundOnce : Obligations.FloatingVectorOperationsRoundOnce := by
  intro s f w fmt x y z r runs puts
  refine ⟨fun legal => ⟨?_, ?_, ?_⟩, fun legal => ⟨?_, ?_, ?_, ?_, ?_, ?_, vfclamp_exec legal⟩, fun legal => ⟨?_, ?_, ?_, ?_, ?_, ?_, ?_⟩⟩
  · exact floatOp_vexec M.anywhere (fun r a b _ => fadd r a b) legal
  · exact floatOp_vexec M.anywhere (fun _ a b _ => (fmul a b).res) legal
  · exact floatOp_vexec M.anywhere (fun r a b c => fadd r (fmul a b) c) legal
  · exact floatOp_vexec M.threaded (fun r a b _ => fadd r a b.neg) legal
  · exact floatOp_vexec M.threaded (fun r a b c => fadd r (fmul a b) c.neg) legal
  · exact floatOp_vexec M.threaded (fun r a b c => fadd r c (fmul a b).neg) legal
  · exact floatOp_vexec M.threaded (fun _ a b _ => fdiv a b) legal
  · exact bitsOp_vexec (fun fmt a b => fmt.min a b) legal
  · exact bitsOp_vexec (fun fmt a b => fmt.max a b) legal
  · exact floatOp_vexec (f := oneSrc f) M.threaded (fun _ a _ _ => fsqrt a) (legal_oneSrc legal)
  · exact bitsOp_vexec (f := oneSrc f) (fun fmt a _ => a % 2 ^ (fmt.width - 1)) (legal_oneSrc legal)
  · exact bitsOp_vexec (f := oneSrc f) (fun fmt a _ => a ^^^ 2 ^ (fmt.width - 1)) (legal_oneSrc legal)
  · exact unaryOp_vexec 0x2C frcp legal
  · exact unaryOp_vexec 0x30 frsq legal
  · exact unaryOp_vexec 0x2D fexp2 legal
  · exact unaryOp_vexec 0x2E flog2 legal

/-- Settles O24: each word checks its widths and spans, then writes from the state before it. -/
theorem conversionsAndPackingWriteTheirElements : Obligations.ConversionsAndPackingWriteTheirElements := by
  intro s f vs vl ws wt fits blocks rnd
  exact ⟨vcvt_exec, fun legal hva ⟨whole, fit⟩ => vqpack_exec legal hva whole fit,
    fun legal hvd ⟨whole, fit⟩ => vqunpack_exec legal hvd whole fit⟩

/-- Settles O26: the sums share the tree over every position, the extremes fold over the performed elements, and `vscan` carries its sum. -/
theorem reductionsAndScansFollowTheirOrder : Obligations.ReductionsAndScansFollowTheirOrder := by
  intro s f w r n leaf put total legal
  exact ⟨reduceOp_tree_vexec legal, reduceOp_tree_vexec legal, reduceOp_fold_vexec (minBits f.ty) legal,
    reduceOp_fold_vexec (maxBits f.ty) legal, vscan_exec legal⟩

/-- Settles O27: both words draw by the global index of the element, `vrand` under its own tag and `vnoise` under `stag` with bit 15 inverted. -/
theorem generatorWordsDraw : Obligations.GeneratorWordsDraw := by
  intro s f w fmt tag idx
  exact ⟨vrand_exec, vnoise_exec⟩

end Sys2Proof.Proofs
end

section
/-!
PROOFS. The invariant holds at reset and every step keeps it, and the one way in which a step does not go on.
-/

open Sys2Proof Sys2Proof.Machine Sys2Proof.Claim

namespace Sys2Proof.Machine

/-! ## What every update keeps -/

theorem zero_zeroFirst (x : Vector Word 32) : (zeroFirst x)[0] = 0 := by simp [zeroFirst]

theorem mem_putHart {l : List Hart} {h g : Hart} (hg : g ∈ putHart l h) : g = h ∨ g ∈ l := by
  induction l with
  | nil => simpa [putHart] using hg
  | cons k l ih =>
    simp only [putHart] at hg
    split at hg
    · simp only [List.mem_cons] at hg ⊢
      tauto
    · simp only [List.mem_cons] at hg ⊢
      rcases hg with rfl | hg
      · simp
      · have := ih hg
        tauto

/-- Every register file of the module starts with 0. -/
def ZeroFirst (s : State) : Prop := ∀ h ∈ s.harts, h.x[0] = 0

theorem zeroFirst_of {s t : State} (hart : t.hart.x[0] = s.hart.x[0]) (others : t.others = s.others) (h : ZeroFirst s) : ZeroFirst t := by
  simp only [ZeroFirst, State.harts, List.forall_mem_cons] at h ⊢
  exact ⟨hart.trans h.1, others ▸ h.2⟩

theorem focus_zeroFirst {s : State} (k : Nat) (h : ZeroFirst s) : ZeroFirst (Upd.apply s (.focus k)) := by
  simp only [Upd.apply]
  split
  · exact h
  · split
    · exact h
    next g hg =>
      obtain ⟨hmem, -⟩ := findHart_key hg
      have hall : ∀ x ∈ s.hart :: s.others, x.x[0] = 0 := h
      refine List.forall_mem_cons.mpr ⟨hall g (by simp [hmem]), fun x hx => ?_⟩
      rcases mem_putHart hx with rfl | hx
      · exact hall _ (by simp)
      · exact hall x (by simp [List.mem_of_mem_filter hx])

theorem place_zeroFirst {s : State} (g : Hart) (h : ZeroFirst s) : ZeroFirst (Upd.apply s (.place g)) := by
  have hall : ∀ x ∈ s.hart :: s.others, x.x[0] = 0 := h
  simp only [Upd.apply]
  split
  · exact List.forall_mem_cons.mpr ⟨zero_zeroFirst g.x, fun x hx => hall x (by simp [hx])⟩
  · refine List.forall_mem_cons.mpr ⟨hall _ (by simp), fun x hx => ?_⟩
    rcases mem_putHart hx with rfl | hx
    · exact zero_zeroFirst g.x
    · exact hall x (by simp [hx])

theorem reset_inv : Inv State.reset where
  cells := rfl
  scratch := rfl
  zero := by decide

theorem apply_zeroFirst (u : Upd) {s : State} (h : ZeroFirst s) : ZeroFirst (u.apply s) := by
  cases u with
  | reg d v =>
    refine zeroFirst_of ?_ (reg_others s d v) h
    simp only [Upd.apply]
    split
    · rfl
    next hd => exact Vector.getElem_set_ne d.isLt (by omega) fun h0 => hd (BitVec.eq_of_toNat_eq h0)
  | focus k => exact focus_zeroFirst k h
  | place g => exact place_zeroFirst g h
  | reset => exact reset_inv.zero
  | dropHarts => exact (by decide : ∀ g ∈ [Hart.free 0 0], g.x[0] = 0)
  | _ => exact zeroFirst_of (s := s) rfl rfl h

/-- Every update keeps the invariant. -/
theorem apply_inv (u : Upd) {s : State} (h : Inv s) : Inv (u.apply s) where
  zero := apply_zeroFirst u h.zero
  cells := by
    cases u with
    | cells pa bs => exact Memory.writes_wf bs _ pa h.cells
    | reg d v => rw [reg_cells]; exact h.cells
    | focus k => rw [focus_cells]; exact h.cells
    | place g => rw [place_cells]; exact h.cells
    | reset => rfl
    | _ => exact h.cells
  scratch := by
    cases u with
    | scratch a bs => exact Memory.writes_wf bs _ a h.scratch
    | reg d v => rw [reg_scratch]; exact h.scratch
    | focus k => rw [focus_scratch]; exact h.scratch
    | place g => rw [place_scratch]; exact h.scratch
    | reset => rfl
    | dropHarts => rfl
    | _ => exact h.scratch

/-! ## What a step runs is made of updates, and goes on -/

/-- An outcome is a next state that is reached by primitive updates alone. -/
def Goes.From (s : State) (o : Host.Outcome State Fault Refusal) : Prop := ∃ t, o = .next t ∧ Reach s t

theorem exec1_from (s : State) (m : M s PUnit) : Goes.From s (exec1 s m) := ⟨_, rfl, m.run.reach⟩

theorem exec_from (i : Instr) (s : State) : Goes.From s (exec i s) := by
  cases i <;> exact exec1_from s _

theorem execMove_from (m : Move) (s : State) : Goes.From s (execMove m s) := by
  cases m with
  | event | scalar | vector | strip => exact ⟨s, rfl, .refl⟩
  | _ => exact exec1_from s _

theorem fetchAtPc_from (s : State) : Goes.From s (runFetched (fetchAtPc s)) := by
  unfold fetchAtPc fetchWith
  split
  next i r _ =>
    obtain ⟨t, ht, hreach⟩ := exec_from i r.s
    exact ⟨t, ht, r.reach.trans hreach⟩
  next r _ => exact ⟨r.s, rfl, r.reach⟩

theorem fetchWord_from (s : State) : Goes.From s (runFetched (fetchWord s)) := by
  unfold fetchWord
  split
  · exact ⟨s, rfl, .refl⟩
  · split
    next i _ => exact exec_from i s
    next => exact exec1_from s _

/-- Every turn but that of a module without power goes on, by primitive updates alone. -/
theorem runTurn_from {u : Turn} (h : u ≠ .off) (s : State) : Goes.From s (runTurn u s) := by
  cases u with
  | rest => exact ⟨s, rfl, .refl⟩
  | event i => exact exec_from i s
  | own m => exact execMove_from m s
  | scalar => exact fetchAtPc_from s
  | word => exact fetchWord_from s
  | off => exact absurd rfl h

/-- A step that goes on is made of primitive updates alone. -/
theorem step_reach {s t : State} (h : step s = .next t) : Reach s t := by
  by_cases hu : s.plan.turn = .off
  · rw [Proofs.step_eq, hu] at h
    exact nomatch h
  · obtain ⟨t1, hrun, hreach⟩ := runTurn_from hu (s.applyAll s.plan.pre)
    rw [Proofs.step_eq, hrun] at h
    exact (reach_applyAll s.plan.pre s).trans (hreach.trans (finish_reach h))

end Sys2Proof.Machine

namespace Sys2Proof.Proofs

/-- Settles O55: at reset every array is empty and no register is set. -/
theorem resetMeetsTheInvariant : Obligations.ResetMeetsTheInvariant := reset_inv

/-- Settles O56: a step is a sequence of primitive updates, and each of them keeps the invariant. -/
theorem everyStepKeepsTheInvariant : Obligations.EveryStepKeepsTheInvariant :=
  fun _ _ hs h => (step_reach h).keeps (fun u _ => apply_inv u) hs

/-- A module without power for which the environment has chosen a turn of hart 0, which is no event of the table. -/
def unpoweredState : State :=
  { State.reset with host := { State.reset.host with power := .off }, inputs := [.scalar 0] }

/-- Only an event of the table is taken up without power: for any other move of the environment the plan is to stop. -/
theorem unpoweredState_stops : step unpoweredState = .fault .powerOff := rfl

/-- Refutes O57: without power a move of the environment that is no event of the table does not go on; the step stops with `powerOff`,
although the environment has chosen a move. -/
theorem not_everyStepGoesOnUnlessThePowerIsOff : ¬ Obligations.EveryStepGoesOnUnlessThePowerIsOff := by
  unfold Obligations.EveryStepGoesOnUnlessThePowerIsOff
  intro h
  obtain ⟨t, ht⟩ := (h unpoweredState).2 fun hoff => absurd hoff.2 (by decide)
  rw [unpoweredState_stops] at ht
  exact nomatch ht

end Sys2Proof.Proofs
end

section
/-!
PROOFS. The scalar register and immediate words, the branches and the jumps (R86 to R89, R96, R97).
-/

open Sys2Proof Sys2Proof.Machine Sys2Proof.Claim

namespace Sys2Proof.Machine

/-! ## The operations at a width, as the rules write them -/

section

variable {n : Nat} (a b : BitVec n)

theorem opBool_decide (p : Prop) [Decidable p] : (opBool (decide p) : BitVec n) = flag p := by simp [opBool, flag]

theorem opSlt_eq : opSlt a b = flag (a.toInt < b.toInt) := opBool_decide _

theorem opSltu_eq : opSltu a b = flag (a.toNat < b.toNat) := opBool_decide _

theorem opMin_eq : opMin a b = if a.toInt ≤ b.toInt then a else b := by
  by_cases h : b.toInt < a.toInt
  · simp [opMin, BitVec.slt, h, Int.not_le.mpr h]
  · simp [opMin, BitVec.slt, h, Int.not_lt.mp h]

theorem opMinu_eq : opMinu a b = if a.toNat ≤ b.toNat then a else b := by
  by_cases h : b.toNat < a.toNat
  · simp [opMinu, BitVec.ult, h, Nat.not_le.mpr h]
  · simp [opMinu, BitVec.ult, h, Nat.not_lt.mp h]

/-- Of two equal values either is the larger. -/
theorem opMax_eq : opMax a b = if a.toInt ≤ b.toInt then b else a := by
  rcases Int.lt_trichotomy a.toInt b.toInt with h | h | h
  · simp [opMax, BitVec.slt, h, Int.le_of_lt h]
  · simp [opMax, BitVec.toInt_inj.mp h]
  · simp [opMax, BitVec.slt, Int.not_lt.mpr (Int.le_of_lt h), Int.not_le.mpr h]

theorem opMaxu_eq : opMaxu a b = if a.toNat ≤ b.toNat then b else a := by
  rcases Nat.lt_trichotomy a.toNat b.toNat with h | h | h
  · simp [opMaxu, BitVec.ult, h, Nat.le_of_lt h]
  · simp [opMaxu, BitVec.toNat_inj.mp h]
  · simp [opMaxu, BitVec.ult, Nat.not_lt.mpr (Nat.le_of_lt h), Nat.not_le.mpr h]

theorem opDiv_eq : opDiv a b = quotS a b := by rw [opDiv, quotS, ofInt_tdiv_eq_sdiv]

theorem opDivu_eq : opDivu a b = quotU a b := by rw [opDivu, quotU, ← BitVec.toNat_udiv, BitVec.ofNat_toNat, BitVec.setWidth_eq]

theorem opRem_eq : opRem a b = a - b * quotS a b := by
  rw [opRem, opDiv_eq]
  split
  next hb => simp [hb]
  next => rfl

theorem opRemu_eq : opRemu a b = a - b * quotU a b := by
  rw [opRemu, opDivu_eq]
  split
  next hb => simp [hb]
  next => rfl

/-- The leading zeros of a value that is not 0 end at its highest bit. -/
theorem opClz_eq : opClz a = a.clz := by
  by_cases ha : a = 0
  · rw [ha, opClz, if_pos rfl, eq_comm]
    exact BitVec.clz_eq_iff_eq_zero.mpr rfl
  · have hlt := BitVec.clz_lt_iff_ne_zero.mpr ha
    have hlow := BitVec.two_pow_sub_clz_le_toNat_of_ne_zero (by grind) ha
    have hhigh := BitVec.toNat_lt_two_pow_sub_clz (x := a)
    have hn : a.clz.toNat < n := by
      have : n < 2 ^ n := Nat.lt_two_pow_self
      simpa [BitVec.lt_def, Nat.mod_eq_of_lt this] using hlt
    have hlog : a.toNat.log2 = n - a.clz.toNat - 1 := by
      rw [Nat.log2_eq_iff fun h0 => ha (BitVec.eq_of_toNat_eq h0)]
      exact ⟨by rwa [Nat.sub_right_comm], by rwa [Nat.sub_add_cancel (by omega)]⟩
    rw [opClz, if_neg ha, log2, hlog]
    apply BitVec.eq_of_toNat_eq
    rw [BitVec.toNat_ofNat, show n - 1 - (n - a.clz.toNat - 1) = a.clz.toNat by omega, Nat.mod_eq_of_lt a.clz.isLt]

end

theorem shAmt_lo32 (y : Word) : shAmt (lo32 y) = y.toNat % 32 := by
  simp only [shAmt, lo32, BitVec.toNat_setWidth]
  omega

theorem shAmt_imm (n : BitVec 6) : shAmt (n.setWidth 64 : Word) = n.toNat := by
  have := n.isLt
  simp only [shAmt, BitVec.toNat_setWidth]
  omega

theorem shAmt_lo32_imm (n : BitVec 6) : shAmt (lo32 (n.setWidth 64)) = n.toNat % 32 := by
  have := n.isLt
  rw [shAmt_lo32, BitVec.toNat_setWidth]
  omega

/-! ## Words that write one register or the program counter -/

section

variable {s : State} {i : Instr}

/-- A register word writes its result at the form that w names. -/
theorem exec_alu {w : Bool} {f g} {d a b : Reg} {v : Word} {n : BitVec 32} (he : exec i s = exec1 s (alu w f g d a b))
    (hv : f (s.hart.reg a) (s.hart.reg b) = v) (hn : g (lo32 (s.hart.reg a)) (lo32 (s.hart.reg b)) = n) :
    exec i s = .next (wrote s d (formed w v n)) := by
  rw [he, exec1_alu, ← hv, ← hn]
  rfl

theorem exec_wide {f g} {d a b : Reg} {v : Word} (he : exec i s = exec1 s (alu false f g d a b))
    (hv : f (s.hart.reg a) (s.hart.reg b) = v) : exec i s = .next (wrote s d v) := exec_alu he hv rfl

theorem exec_aluImm {f} {d a : Reg} {v : Word} (he : exec i s = exec1 s (aluImm f d a)) (hv : f (s.hart.reg a) = v) :
    exec i s = .next (wrote s d v) := by
  rw [he, exec1_aluImm, hv]

/-- A shift by an immediate writes its result at the form that w names. -/
theorem exec_shiftImm {w : Bool} {f : Word → Word → Word} {g : BitVec 32 → BitVec 32 → BitVec 32} {d a : Reg} {k v : Word} {n : BitVec 32}
    (he : exec i s = exec1 s (aluImm (fun x => aluOp w f g x k) d a)) (hv : f (s.hart.reg a) k = v)
    (hn : g (lo32 (s.hart.reg a)) (lo32 k) = n) : exec i s = .next (wrote s d (formed w v n)) :=
  exec_aluImm he (by rw [← hv, ← hn]; rfl)

/-- A branch goes to its target when its condition holds and on otherwise. -/
theorem exec_branch {c : Word → Word → Bool} {a b : Reg} {off : BitVec 16} {p : Prop} [Decidable p]
    (he : exec i s = exec1 s (branch c a b off)) (hp : c (s.hart.reg a) (s.hart.reg b) = true ↔ p) :
    exec i s = .next (goTo s (if p then s.hart.pc + off.signExtend 64 * 4 else s.hart.pc + 4)) := by
  rw [he, exec1_eq]
  by_cases h : p
  · simp [branch, hp.mpr h, h, goTo, Upd.apply, immS]
  · simp [branch, Bool.eq_false_iff.mpr (mt hp.mp h), h, goTo, Upd.apply]

end

theorem low2_zero (t : Word) : t.extractLsb' 0 2 = 0 ↔ t.toNat % 4 = 0 := by
  rw [← BitVec.toNat_inj]
  simp

theorem jal_exec (s : State) (d : Reg) (far : BitVec 21) :
    exec (.jal d far) s = .next (goTo (withReg s d (s.hart.pc + 4)) (s.hart.pc + far.signExtend 64 * 4)) := rfl

theorem jalr_exec {s : State} (d a : Reg) (imm : BitVec 16) (h : (s.hart.reg a + imm.signExtend 64).toNat % 4 = 0) :
    exec (.jalr d a imm) s = .next (goTo (withReg s d (s.hart.pc + 4)) (s.hart.reg a + imm.signExtend 64)) := by
  show execJalr d a imm s = _
  rw [execJalr, exec1_eq]
  simp [immS, (low2_zero _).mpr h]
  rfl

theorem jalr_traps {s : State} (d a : Reg) (imm : BitVec 16) (h : (s.hart.reg a + imm.signExtend 64).toNat % 4 ≠ 0)
    (tvec : s.hart.sr.tvec ≠ 0) : exec (.jalr d a imm) s = .next (trapped s 0x03 (s.hart.reg a + imm.signExtend 64)) := by
  obtain ⟨r, hr, ht⟩ := M.trap_start (α := PUnit) 0x03 (s.hart.reg a + imm.signExtend 64) tvec
  show execJalr d a imm s = _
  rw [execJalr, exec1_eq, ← ht]
  simp only [M.bind_run, M.pc_run, M.rd_run, Run.start_s, immS, ne_eq, low2_zero, h, not_false_eq_true, if_true, hr, ended_error]

end Sys2Proof.Machine

namespace Sys2Proof.Proofs

/-- Settles O1: each word is one operation at the width of its form, and each operation is that of its rule. -/
theorem scalarWordsComputeAndBranch : Obligations.ScalarWordsComputeAndBranch := by
  unfold Obligations.ScalarWordsComputeAndBranch
  refine ⟨fun s w d a b => ?_, fun s d a b => ⟨fun hb => ?_, fun ha hb => ?_⟩, fun s w d a imm n => ?_, fun s d a b off imm far => ?_⟩
  · exact ⟨exec_alu rfl rfl rfl, exec_alu rfl rfl rfl, exec_alu rfl rfl rfl, exec_alu rfl rfl rfl, exec_alu rfl rfl rfl,
      exec_alu rfl rfl (by rw [opShl, shAmt_lo32]), exec_alu rfl rfl (by rw [opShr, shAmt_lo32]), exec_alu rfl rfl (by rw [opSra, shAmt_lo32]),
      exec_alu rfl (opSlt_eq _ _) (opSlt_eq _ _), exec_alu rfl (opSltu_eq _ _) (opSltu_eq _ _),
      exec_alu rfl (opMin_eq _ _) (opMin_eq _ _), exec_alu rfl (opMax_eq _ _) (opMax_eq _ _),
      exec_alu rfl (opMinu_eq _ _) (opMinu_eq _ _), exec_alu rfl (opMaxu_eq _ _) (opMaxu_eq _ _),
      exec_alu rfl rfl rfl, exec_alu rfl rfl rfl, exec_alu rfl rfl rfl,
      exec_alu rfl (opDiv_eq _ _) (opDiv_eq _ _), exec_alu rfl (opDivu_eq _ _) (opDivu_eq _ _),
      exec_alu rfl (opRem_eq _ _) (opRem_eq _ _), exec_alu rfl (opRemu_eq _ _) (opRemu_eq _ _),
      exec_alu rfl (opClz_eq _) (opClz_eq _), exec_alu rfl rfl rfl⟩
  · exact ⟨exec_wide rfl (if_pos hb), exec_wide rfl (if_pos hb), exec_wide rfl (if_pos hb), exec_wide rfl (if_pos hb)⟩
  · exact ⟨exec_wide rfl (by rw [ha, hb]; decide), exec_wide rfl (by rw [ha, hb]; decide)⟩
  · exact ⟨exec_aluImm rfl rfl, exec_aluImm rfl rfl, exec_aluImm rfl rfl, exec_aluImm rfl rfl,
      exec_aluImm rfl (opSlt_eq _ _), exec_aluImm rfl (opSltu_eq _ _),
      exec_shiftImm rfl (by rw [opShl, shAmt_imm]) (by rw [opShl, shAmt_lo32_imm]),
      exec_shiftImm rfl (by rw [opShr, shAmt_imm]) (by rw [opShr, shAmt_lo32_imm]),
      exec_shiftImm rfl (by rw [opSra, shAmt_imm]) (by rw [opSra, shAmt_lo32_imm]),
      exec_aluImm rfl rfl, rfl⟩
  · exact ⟨exec_branch rfl (by simp), exec_branch rfl (by simp), exec_branch rfl (by simp [BitVec.slt]),
      exec_branch rfl (by simp [BitVec.slt]), exec_branch rfl (by simp [BitVec.ult]), exec_branch rfl (by simp [BitVec.ult]), rfl,
      jal_exec s d far, jalr_exec d a imm, jalr_traps d a imm⟩

end Sys2Proof.Proofs
end

section
/-!
PROOFS. `trap`, and the words that wait or end: `yield`, `idle`, `syncins`, `halt` (R109, R111 to R114, R302, R319).
-/

open Sys2Proof Sys2Proof.Machine Sys2Proof.Claim

namespace Sys2Proof.Machine

variable {s0 : State} {α : Type}

/-- Without a handler a scalar trap kills the hart (R302). -/
theorem M.trap_kills {s : State} (c : BitVec 8) (v : Word) (tvec : s.hart.sr.tvec = 0) :
    ∃ r, (M.trap c v : M s α) (Run.start s) = .error r ∧ Killed s c r.s := by
  -- at the start of a step the hart's clock is what the trap puts back
  have clock : M.modSr (fun r => { r with vclk := ((s.hartOf s.hart.key).getD s.hart).sr.vclk }) (Run.start s) = .ok (⟨⟩, Run.start s) := by
    rw [M.modSr_run, show (Run.start s).emit _ = Run.start s from Run.ext_s (by simp [State.hartOf, Upd.apply])]
  obtain ⟨_, r, hr, hk⟩ := M.killHart_ends c (Run.start s)
  have take : M.takeTrap c v s.hart.pc false (Run.start s) = .ok (⟨⟩, r) := by simp [M.takeTrap, tvec, hr]
  refine ⟨r, ?_, hk⟩
  calc (M.trap c v : M s α) (Run.start s)
    _ = (M.pc >>= fun a => M.takeTrap c v a false >>= fun _ => M.done) (Run.start s) := (M.bind_ok (M.hart_run _)).trans (M.bind_ok clock)
    _ = .error r := (M.bind_ok (M.pc_run _)).trans (M.bind_ok take)

end Sys2Proof.Machine

namespace Sys2Proof.Proofs

variable (s : State)

theorem trap_exec (code : BitVec 12) (tvec : s.hart.sr.tvec ≠ 0) : exec (.trap code) s = .next (trapped s 0x40 (code.setWidth 64)) := by
  obtain ⟨r, hr, ht⟩ := M.trap_start (α := PUnit) 0x40 (code.setWidth 64) tvec
  exact exec_of_end rfl hr ht

theorem trap_kills (code : BitVec 12) (tvec : s.hart.sr.tvec = 0) : ∃ t, exec (.trap code) s = .next t ∧ Killed s 0x40 t := by
  obtain ⟨r, hr, hk⟩ := M.trap_kills (α := PUnit) 0x40 (code.setWidth 64) tvec
  exact ⟨r.s, exec_of_end rfl hr rfl, hk⟩

theorem idle_exec : exec .idle s = .next (if s.hart.watch.isSome ∧ s.hart.watchHit then onward s
    else { s with hart := { s.hart with wait := .idle, idleAt := s.time.toNat } }) := by
  show execIdle s = _
  rw [execIdle, exec1_eq]
  by_cases h : s.hart.watch.isSome ∧ s.hart.watchHit
  · simp [h, onward, goTo, Upd.apply]
  · simp [h, Upd.apply]

/-- The words of a stopped block are discarded (R113). -/
def dropWords (c : Option LoopCtx) : Option LoopCtx := c.map fun c => { c with words := [] }

theorem syncins_exec (h : s.hart.queue = [] ∧ s.hart.ctx = none) : exec .syncins s = .next (onward { s with hart := { s.hart with
    ibuf := [], held := s.hart.held.map fun k => { k with ctx := dropWords k.ctx },
    aside := s.hart.aside.map fun k => { k with ctx := dropWords k.ctx } } }) := by
  show execSyncins s = _
  rw [execSyncins, exec1_eq]
  simp [h.1, h.2, onward, goTo, Upd.apply, dropWords]

theorem syncins_waits (h : ¬ (s.hart.queue = [] ∧ s.hart.ctx = none)) : exec .syncins s = .next s := by
  have busy : (s.hart.queue.isEmpty && s.hart.ctx.isNone) = false := Bool.eq_false_iff.mpr (by simpa using h)
  show execSyncins s = _
  rw [execSyncins, exec1_eq]
  simp only [M.bind_run, M.hart_run, Run.start_s, busy, Bool.not_false, if_true, M.stall_run, ended_error]

theorem halt_waits (h : s.hart.vectorDone = false) : exec .halt s = .next s := by
  show execHalt s = _
  rw [execHalt, exec1_eq]
  simp [h]

theorem halt_leads (h : s.hart.vectorDone = true) : Leads s .halt fun t => t = { s with
    hart := s.hart.retired, fab := t.fab, work := t.work,
    disp := { s.disp with gangs := onGang s.hart.id.did s.hart.id.gid (Gang.without s.hart) s.disp.gangs } } :=
  Ends.leads (m := do
    if !(← M.hart).vectorDone then M.stall
    M.retireHart) rfl (.next (M.hart_run _) (by simpa [h] using M.retireHart_ends (Run.start s)))

/-- Settles O11: a trap enters the handler or kills, and each of the other words goes one of the ways that its lemmas name. -/
theorem trapYieldIdleSyncAndHaltAct : Obligations.TrapYieldIdleSyncAndHaltAct := by
  refine ⟨fun s code => ⟨trap_exec s code, fun tvec kexit => ?_⟩, fun s => ⟨rfl, idle_exec s, fun hq hc => syncins_exec s ⟨hq, hc⟩,
    syncins_waits s, halt_waits s, fun done => ?_⟩⟩
  · obtain ⟨t, ht, killed⟩ := trap_kills s code tvec
    obtain ⟨v, hv⟩ := killed.goesOn kexit
    refine ⟨t, ht, ?_⟩
    rw [hv]
    exact ⟨rfl, rfl, rfl, rfl, rfl, rfl, rfl, rfl, rfl, rfl⟩
  · obtain ⟨t, ht, hs⟩ := halt_leads s done
    refine ⟨t, ht, ?_⟩
    rw [hs]
    refine ⟨rfl, rfl, rfl, rfl, ?_⟩
    simp [onGang, Gang.without]

end Sys2Proof.Proofs
end

section
/-!
PROOFS. Scalar memory words whose check fails (R84, R91).
-/

open Sys2Proof Sys2Proof.Machine Sys2Proof.Claim

namespace Sys2Proof.Machine

variable {s0 s : State}

/-- A scalar memory word whose turn it is does not wait (R105, R263). -/
theorem M.needVs_run {r : Run s0} (h : Claim.Turn r.s) : M.needVs r = .ok (⟨⟩, r) := by
  simp [M.needVs, h.quiet, M.needTails_run h.tails]

/-- A misaligned address traps before it is translated (R91). -/
theorem M.checkOr_misaligned {va : Word} {n : Nat} (k : Kind) (tvec : s.hart.sr.tvec ≠ 0) (h : va.toNat % n ≠ 0) :
    Traps s (M.checkOr va n k) 0x03 va := by
  obtain ⟨r, hr, ht⟩ := M.trap_start (α := Acc) 0x03 va tvec
  exact ⟨r, by simp only [M.checkOr, M.check, M.checkAs, M.bind_run, M.hart_run, ne_eq, h, not_false_eq_true, if_true, M.pure_run, hr], ht⟩

/-- A check that fails otherwise than by poison traps with its cause; only the choice of a walk and the translation copies stay of it. -/
theorem M.checkOr_refused {va : Word} {n : Nat} {k : Kind} {c : BitVec 8} (tvec : s.hart.sr.tvec ≠ 0) (hal : va.toNat % n = 0)
    (h : accessOf s va n k = .error c) (hc : c ≠ 0x0E) : ∃ r, M.checkOr va n k (Run.start s) = .error r
      ∧ r.s = { trapped s c va with fresh := r.s.fresh, img := { s.img with tlb := r.s.img.tlb } } := by
  obtain ⟨r1, h1, hs⟩ := M.check_refused va n k (Run.start s) c hal h hc
  have hart : r1.s.hart = s.hart := by rw [hs]; rfl
  obtain ⟨r, hr, ht⟩ := M.trap_run (α := Acc) c va r1 (hart ▸ tvec) (by simp [hart, State.hartOf])
  refine ⟨r, by simp only [M.checkOr, M.bind_run, h1, hr], ?_⟩
  rw [ht, hs]
  rfl

/-- A word that, once its turn has come, begins with the check of an access refuses what the check refuses. -/
theorem refuses_of {i : Instr} {m : M s PUnit} {va : Word} {n : Nat} {k : Kind} (he : exec i s = exec1 s m)
    (hm : Claim.Turn s → ∃ f : Acc → M s PUnit, m (Run.start s) = (M.checkOr va n k >>= f) (Run.start s)) : Refuses s i va n k := by
  intro turn tvec
  obtain ⟨f, begins⟩ := hm turn
  refine ⟨fun mis => ?_, fun c hal hacc hc => ?_⟩
  · obtain ⟨r, hr, ht⟩ := M.checkOr_misaligned k tvec mis
    exact exec_of_end he (begins.trans (M.bind_error hr)) ht
  · obtain ⟨r, hr, ht⟩ := M.checkOr_refused tvec hal hacc hc
    exact ⟨r.s, exec_of_end he (begins.trans (M.bind_error hr)) rfl, ht⟩

theorem smAddr_run (a : Reg) (imm : BitVec 16) : smAddr a imm (Run.start s) = .ok (at_ s a imm, Run.start s) := rfl

theorem sxAddr_run (a b : Reg) (sc : BitVec 2) :
    sxAddr a b sc (Run.start s) = .ok (s.hart.reg a + s.hart.reg b <<< sc.toNat, Run.start s) := rfl

theorem load_refuses {i : Instr} {addr : M s Word} {va : Word} {n : Nat} {g b c : Bool} {d : Reg}
    (he : exec i s = exec1 s (addr >>= fun va => scalarLoad va n g d b c)) (ha : addr (Run.start s) = .ok (va, Run.start s)) :
    Refuses s i va n .load :=
  refuses_of he fun turn => ⟨_, (M.bind_ok ha).trans (M.bind_ok (M.needVs_run turn))⟩

theorem scalarStore_begins {va : Word} {n : Nat} {v : Word} {b c : Bool} (turn : Claim.Turn s) :
    ∃ f, scalarStore va n v b c (Run.start s) = (M.checkOr va n .store >>= f) (Run.start s) := ⟨_, M.bind_ok (M.needVs_run turn)⟩

theorem store_refuses {i : Instr} {addr : M s Word} {va : Word} {n : Nat} {b c : Bool} {d : Reg}
    (he : exec i s = exec1 s (addr >>= fun va => M.rd d >>= fun v => scalarStore va n v b c))
    (ha : addr (Run.start s) = .ok (va, Run.start s)) : Refuses s i va n .store :=
  refuses_of he fun turn => (scalarStore_begins turn).imp fun _ hf => (M.bind_ok ha).trans ((M.bind_ok (M.rd_run _ _)).trans hf)

/-- What an atomic does once its access has passed the checks (R94, R95). -/
def atomicGranted (op n : Nat) (sc : Bool) (d b : Reg) (va : Word) (acc : Acc) : M s0 PUnit := do
  let h ← M.hart
  M.needDrained
  M.needSc sc
  M.needWindow h.id.did 1
  let v ← M.rd b
  let cmp ← M.rd d
  let clk := M.scClock sc h.sr.vclk (← M.st)
  if acc.leaf.home = h.id.did then
    M.needCoveredBy clk
    if regionOf acc.pa != .device && ((← M.st).firstPoison acc.pa n).isSome then
      M.notePoison va acc.pa true
      M.trap 0x0E va
    let num ← M.hartNumber
    M.learnAt h.id.did clk
    match ← M.atomicHome acc.pa op n v.toNat cmp.toNat (M.slicePath acc) acc.leaf.ww (some h.key) (some (h.id.did, num)) with
    | none => M.advance
    | some old => do
      M.noteSc sc (clkPut (clkMerge clk ((← M.st).die h.id.did).clock) h.id.did num)
      M.mergeDie
      M.setReg d (loadValue n true old)
      M.advance
  else
    M.needOpen h.id.did acc.leaf.home 1
    let num ← M.hartNumber
    sendAndWait acc (.atomic op n v cmp sc) clk (some num) d n true false

theorem scalarAtomic_eq (op : Nat) (dw sc : Bool) (d a b : Reg) : (scalarAtomic op dw sc d a b : M s0 PUnit) = (do
    M.needVs
    let va ← M.rd a
    let acc ← M.checkOr va (if dw then 8 else 4) .atomic
    atomicGranted op (if dw then 8 else 4) sc d b va acc) := rfl

theorem atomic_begins {op : Nat} {dw sc : Bool} {d a b : Reg} (turn : Claim.Turn s) : scalarAtomic op dw sc d a b (Run.start s)
    = (M.checkOr (s.hart.reg a) (if dw then 8 else 4) .atomic >>= atomicGranted op (if dw then 8 else 4) sc d b (s.hart.reg a)) (Run.start s) := by
  rw [scalarAtomic_eq]
  exact (M.bind_ok (M.needVs_run turn)).trans (M.bind_ok (M.rd_run _ _))

theorem atomic_refuses {i : Instr} {op : Nat} {dw sc : Bool} {d a b : Reg} (he : exec i s = exec1 s (scalarAtomic op dw sc d a b)) :
    Refuses s i (s.hart.reg a) (if dw then 8 else 4) .atomic :=
  refuses_of he fun turn => ⟨_, atomic_begins turn⟩

/-- The selectors of `ldx` name the widths of R36. -/
theorem ldxWidth_of_widths {wd : BitVec 3} {n : Nat} {g : Bool} (h : widths[wd.toNat]? = some (n, g)) : ldxWidth wd = (n, g) := by
  revert h
  generalize hk : wd.toNat = k
  have hlt : k < 8 := hk ▸ wd.isLt
  unfold ldxWidth
  rw [hk]
  interval_cases k <;> simp [widths]

end Sys2Proof.Machine

namespace Sys2Proof.Proofs

/-- Settles O4: a load, a store or an atomic begins, once its turn has come, with the check of its access. -/
theorem failedChecksTrapWithoutEffect : Obligations.FailedChecksTrapWithoutEffect := by
  intro s d a b imm na by_ dw sc sh wd ws i
  refine ⟨?_, ?_, ?_, ?_, fun n g hw => ?_, ?_, ?_, ?_, ?_, ?_, ?_⟩
  · simp only [List.mem_cons, List.not_mem_nil, or_false]
    rintro (rfl | rfl) <;> exact load_refuses rfl (smAddr_run a imm)
  · simp only [List.mem_cons, List.not_mem_nil, or_false]
    rintro (rfl | rfl) <;> exact load_refuses rfl (smAddr_run a imm)
  · simp only [List.mem_cons, List.not_mem_nil, or_false]
    rintro (rfl | rfl) <;> exact load_refuses rfl (smAddr_run a imm)
  · rintro rfl
    exact load_refuses rfl (smAddr_run a imm)
  · rintro rfl
    have width : n = (ldxWidth wd).1 := by rw [ldxWidth_of_widths hw]
    exact width ▸ load_refuses rfl (sxAddr_run a b sh)
  · rintro rfl
    exact store_refuses rfl (smAddr_run a imm)
  · rintro rfl
    exact store_refuses rfl (smAddr_run a imm)
  · rintro rfl
    exact store_refuses rfl (smAddr_run a imm)
  · rintro rfl
    exact store_refuses rfl (smAddr_run a imm)
  · rintro rfl
    exact store_refuses rfl (sxAddr_run a b sh)
  · simp only [List.mem_cons, List.not_mem_nil, or_false]
    rintro (rfl | rfl | rfl | rfl | rfl | rfl | rfl | rfl | rfl | rfl) <;> exact atomic_refuses rfl

end Sys2Proof.Proofs
end


section
/-!
PROOFS. A peer's atomic that fails its statement (O50). The statement says that the atomic answers the value that stands in the live image. It
asks nothing of the caches: the access recalls the line from the L1 that holds it, and where the home slice has no room the clean copy is
dropped. A byte that differs from the arrays (R190) then reads as in the arrays.
-/

open Sys2Proof Sys2Proof.Machine Sys2Proof.Claim

namespace Sys2Proof.Proofs

/-- A running module whose line 0 stands in an L1 alone, as `divergedCopy`, and whose home slice has no room for it. -/
def peerAtomicState : State :=
  { State.reset with
    img := { Images.reset with cache := divergedCopy :: fillingLines }, host := { HostPort.reset with power := .run } }

/-- The device performs a peer's atomic on bytes 32 to 39: nothing there is poisoned, held at a tail, or behind what the peer knows. -/
theorem peerAtomicState_ready :
    peerAtomicState.hostServed = true ∧ hostRange 32 8 = true ∧ isHostMem 32 = true ∧ peerAtomicState.alive (homeOf 32) = true
    ∧ peerAtomicState.scFlying = none
    ∧ peerAtomicState.uncovered (homeOf 32) (clkMerge peerAtomicState.host.clk peerAtomicState.fab.sc) (fun _ => false) = []
    ∧ peerAtomicState.firstPoison 32 8 = none ∧ peerAtomicState.cells.wf = true ∧ peerAtomicState.tailAt (32 / 8 * 8) = none := by
  decide +kernel

theorem peerAtomicState_old : toBytes 8 (wordAt (liveByte peerAtomicState true) 32 8) = [1, 0, 0, 0, 0, 0, 0, 0] := by decide +kernel

/-- The atomic answers what the arrays hold. -/
theorem peerAtomicState_answer (t : State) (h : exec (.peerAtomic 0 true 32 0 0) peerAtomicState = .next t) :
    t.host.hostData = List.replicate 8 0 := by
  have run : (match exec (.peerAtomic 0 true 32 0 0) peerAtomicState with
      | .next t => t.host.hostData == List.replicate 8 0 | _ => false) = true := by
    decide +kernel
  rw [h] at run
  exact eq_of_beq run

/-- Refutes O50: where bytes 32 to 39 of `peerAtomicState` read as 1, a peer's atomic add answers 0. -/
theorem not_hostAccessesReachDeviceMemory : ¬ Obligations.HostAccessesReachDeviceMemory := by
  unfold Obligations.HostAccessesReachDeviceMemory
  intro h
  obtain ⟨served, range, mem, alive, flying, covered, poison, wf, tail⟩ := peerAtomicState_ready
  obtain ⟨-, -, hatomic, -⟩ := h peerAtomicState 32 8
  obtain ⟨-, performs⟩ := hatomic 0 true 0 0 served range (by decide) (by decide)
  obtain ⟨t, hexec, answer, -⟩ := performs ⟨mem, alive⟩ flying covered poison wf tail
  rw [peerAtomicState_answer t hexec] at answer
  exact absurd (answer.trans peerAtomicState_old) (by decide)

end Sys2Proof.Proofs
end

section
/-!
PROOFS. A `vlsp` that fails its statement (O30). The statement says that under `.follow` with vl = 0 no group counts as performed afterwards. Where
the exit of the strip has been resolved and the word's reads were noted then, the word takes its elements from that note (R159) and
leaves the count of performed groups as it is.
-/

open Sys2Proof Sys2Proof.Machine Sys2Proof.Claim

namespace Sys2Proof.Proofs

/-- A `vlsp.follow` of byte elements on stream 0. -/
def followWord : VWord := { form := 3, vd := 0, va := 0, vb := 0, m := 0, rep := false, rsz := 0, ridx := 0, ty := 0, ctl := 16, x := 0 }

/-- A strip at its first word, with a `vexit` behind that word that has not fired, a note of no read for the word, and five performed groups. -/
def notedStrip : LoopCtx :=
  let e : QEntry :=
    { kind := .block 0x2000 (some 6), snap := Vector.replicate 32 0, seq := 0, mark := false, sup := true, pc := 0, word := 0 }
  { LoopCtx.start e 0x2000 [vheadWord, VWord.toBits 0x77 followWord, 0xA1C0200000000000, vstopWord] 1 4 0 6 with seen := [(1, [])], part := 5 }

/-- A hart with vl = 0 in that strip. -/
def notedState : State := { State.reset with hart := { State.reset.hart with ctx := some notedStrip } }

theorem notedState_unguarded : Unguarded notedState := fun ⟨hvl, _⟩ => hvl (by decide)

theorem notedState_mmode_vl : notedState.hart.sr.mmode = false ∧ notedState.hart.sr.vl = 0 := by decide +kernel

/-- The word leaves the count of performed groups. -/
theorem notedState_part (t : State) (h : exec (.vlsp followWord) notedState = .next t) : t.hart.ctx.map LoopCtx.part = some 5 := by
  have run : (match exec (.vlsp followWord) notedState with | .next t => t.hart.ctx.map LoopCtx.part == some 5 | _ => false) = true := by
    decide +kernel
  rw [h] at run
  exact eq_of_beq run

/-- Refutes O30: after `vlsp.follow` with vl = 0 the strip of `notedState` counts five performed groups, not none. -/
theorem not_vectorAtomicsAndScratchpadAccessTheirElements : ¬ Obligations.VectorAtomicsAndScratchpadAccessTheirElements := by
  unfold Obligations.VectorAtomicsAndScratchpadAccessTheirElements
  intro h
  obtain ⟨hmmode, hvl⟩ := notedState_mmode_vl
  obtain ⟨hempty, -⟩ := h notedState followWord notedState_unguarded hmmode
  obtain ⟨-, hvlsp, -⟩ := hempty hvl
  exact absurd (notedState_part _ hvlsp) (by decide +kernel)

end Sys2Proof.Proofs
end

section
/-!
PROOFS. A device launch that fails its statement (O18). The statement says that `larm` extends the list of launches where the record could be
admitted on empty dies. It does not ask that a queue has one entry. Where the second of two entries of a queue makes a die one of the record's
function, and a gang of that queue runs, accepting the record first counts that gang's time into the deficit of its queue (R275). This
write keeps the first entry alone, and without the die the record never fits (R274).
-/

open Sys2Proof Sys2Proof.Machine Sys2Proof.Claim

namespace Sys2Proof.Proofs

/-- A record of virtual function 0 whose 7 gangs of 64 harts run at once and may spread: they need two dies of 384 slots. -/
def pairRecord : BitVec 1024 :=
  putRecordField (putRecordField (putRecordField (putRecordField (putRecordField (putRecordField 0 32 2 7) 34 1 64) 35 1 1) 37 1 3) 40 8 1000000)
    127 1 1

/-- An empty queue bound to a virtual function. -/
def boundQueue (q vf : Nat) : Queue := { queueBoundTo vf with q := q }

/-- A launch of queue 4096 of die 1, with one gang on the cores. -/
def farLaunch : Launch := { spreadLaunch with die := 1, q := 4096, admitted := 1 }

def farGang : Gang :=
  { die := 1, gid := 0, launch := 0, index := 0, size := 1, phase := .run, barrier := 0, charge := 0, hids := [0], harts := [], areas := [],
    halted := 0, reserved := false, since := 0, cycleAt := 0, killed := false, stops := [] }

/-- A running module where queue 4096 has an entry for virtual function 1 and then one for virtual function 0. -/
def pairState : State :=
  { State.reset with
    host := { HostPort.reset with power := .run, vfs := HostPort.reset.vfs.setIfInBounds 0 { en := true, root := 0, tkey := 0 } },
    disp := { State.reset.disp with
      launches := [farLaunch], gangs := [farGang], queues := [boundQueue 0 0, boundQueue 4096 1, boundQueue 4096 0],
      pool := [(0, { record := pairRecord, armed := false })] } }

/-- The hart has nothing to wait for, and record 0 may go to queue 0. -/
theorem pairState_ready :
    pairState.hart.vectorDone = true ∧ pairState.tailPending pairState.hart.key = none ∧ (pairState.hart.reg 0).toNat = 0
    ∧ pairState.hart.id.did = 0 ∧ pairState.hart.id.vf = 0 ∧ (pairState.queueOf 0).vf = some 0 := by
  decide +kernel

/-- The record keeps the limits and fits on empty dies. -/
theorem pairState_fits :
    (pairState.poolOf 0 0).armed = false ∧ (pairState.poolOf 0 0).record = pairRecord ∧ recVf pairRecord = 0
    ∧ pairState.queueLoad 0 < 64 ∧ recordOk pairRecord 0 = true ∧ pairState.vfEnabled 0 = true ∧ pairState.everFits 0 pairRecord = true
    ∧ ∀ k < 4, pairState.depLost (recDep pairRecord k) = false := by
  decide +kernel

/-- No launch is added. -/
theorem pairState_launches (t : State) (h : exec (.larm 0 0) pairState = .next t) : t.disp.launches.length = 1 := by
  have run : (match exec (.larm 0 0) pairState with | .next t => t.disp.launches.length == 1 | _ => false) = true := by
    decide +kernel
  rw [h] at run
  exact eq_of_beq run

/-- Refutes O18: `larm` on record 0 and queue 0 of `pairState` leaves the list of launches with one member. -/
theorem not_deviceLaunchesPatchAndArm : ¬ Obligations.DeviceLaunchesPatchAndArm := by
  unfold Obligations.DeviceLaunchesPatchAndArm
  intro h
  obtain ⟨done, tails, reg, did, vf, queue⟩ := pairState_ready
  obtain ⟨unarmed, record, recvf, load, ok, enabled, fits, deps⟩ := pairState_fits
  obtain ⟨-, -, -, harm, -⟩ := h pairState 0 0 0
  simp only [reg, did, vf, record] at harm
  obtain ⟨t, l, hexec, -, -, -, hlaunches, -⟩ := harm done tails (by decide) (by decide) (by decide) queue unarmed recvf load ok enabled fits deps
  have extended : t.disp.launches.length = pairState.disp.launches.length + 1 := by simpa using congrArg List.length hlaunches
  exact absurd (extended.symm.trans (pairState_launches t hexec)) (by decide)

end Sys2Proof.Proofs
end

section
/-!
PROOFS. What an access does to the copies of a line (R9, R90, R138, R190): the live image is as before, and a read at the home gives what is
seen there.
-/

open Sys2Proof Sys2Proof.Machine Sys2Proof.Claim

namespace Sys2Proof.Machine

variable {s0 : State}

/-! ## Bytes of a line -/

@[simp] theorem toBytes_length (n v : Nat) : (toBytes n v).length = n := by
  induction n generalizing v with
  | zero => rfl
  | succ n ih => rw [toBytes, List.length_cons, ih]

theorem toBytes_ofBytes (bs : List Byte) : toBytes bs.length (ofBytes bs) = bs := by
  induction bs with
  | nil => rfl
  | cons b bs ih =>
    have low : BitVec.ofNat 8 (b.toNat + 256 * ofBytes bs) = b := by
      apply BitVec.eq_of_toNat_eq
      have := b.isLt
      rw [BitVec.toNat_ofNat]
      omega
    have high : (b.toNat + 256 * ofBytes bs) / 256 = ofBytes bs := by
      have := b.isLt
      omega
    rw [List.length_cons, ofBytes, toBytes, low, high, ih]

theorem ofBytes_lt (bs : List Byte) : ofBytes bs < 2 ^ (8 * bs.length) := by
  induction bs with
  | nil => simp [ofBytes]
  | cons b bs ih =>
    have := b.isLt
    rw [ofBytes, List.length_cons, Nat.mul_succ, Nat.pow_add]
    omega

theorem toNat_ofBytes {bs : List Byte} {w : Nat} (h : 8 * bs.length = w) : (BitVec.ofNat w (ofBytes bs)).toNat = ofBytes bs := by
  subst h
  rw [BitVec.toNat_ofNat, Nat.mod_eq_of_lt (ofBytes_lt bs)]

theorem bytesOfLine_lineOfBytes {bs : List Byte} (h : bs.length = 64) : bytesOfLine (lineOfBytes bs) = bs := by
  rw [bytesOfLine, lineOfBytes, toNat_ofBytes (by rw [h]), ← h, toBytes_ofBytes]

theorem arrayLine_length (s : State) (la : Nat) (ww : Bool) : (s.arrayLine la ww).length = 64 := by
  simp only [State.arrayLine, Memory.reads]
  split <;> simp

theorem liveLine_length (s : State) (la : Nat) (ww : Bool) : (s.liveLine la ww).length = 64 := by
  rw [State.liveLine]
  split
  · exact toBytes_length _ _
  · exact arrayLine_length _ _ _

theorem findLine_putLine (c : List Line) (l : Line) (la : Nat) :
    findLine (putLine c l) la = if l.addr = la then some l else findLine c la := by
  induction c with
  | nil => rfl
  | cons k ks ih =>
    by_cases hlt : l.addr < k.addr
    · simp only [putLine, if_pos hlt, findLine]
    · by_cases heq : l.addr = k.addr
      · simp only [putLine, if_neg hlt, if_pos heq, findLine]
        split <;> simp_all
      · simp only [putLine, if_neg hlt, if_neg heq, findLine, ih]
        split <;> split <;> simp_all

/-! ## A line that is opened -/

/-- Only the caches have changed, and the live image that words of a width see is as before. -/
structure Opened (ww : Bool) (s t : State) : Prop where
  same : t = { s with img := { s.img with cache := t.img.cache } }
  line : ∀ la, t.liveLine la ww = s.liveLine la ww

theorem opened_frame (ww : Bool) : Frame (Opened ww) where
  refl _ := ⟨rfl, fun _ => rfl⟩
  trans {a b c} h k := ⟨by rw [k.same, h.same], fun la => (k.line la).trans (h.line la)⟩

theorem Opened.liveBytes {ww : Bool} {s t : State} (h : Opened ww s t) (pa n : Nat) : t.liveBytes pa n ww = s.liveBytes pa n ww := by
  simp only [State.liveBytes, h.line]

theorem Opened.liveByte {ww : Bool} {s t : State} (h : Opened ww s t) (pa : Nat) : liveByte t ww pa = liveByte s ww pa := by
  simp only [Claim.liveByte, h.line]

/-- A line lies in no L1. -/
def AtSlice (s : State) (la : Nat) : Prop := ∀ l, findLine s.img.cache la = some l → ∀ c, l.level ≠ .l1 c

/-- A line that an access of the module recalls has room in its home slice, or is there. -/
def Recallable (s : State) (la : Nat) : Prop := Roomy s la 1 ∨ AtSlice s la

theorem M.recallLine_opens (la : Nat) (p : Path) (ww : Bool) (r : Run s0) (hp : p.host = false) (h : Recallable r.s la) :
    Ends (M.recallLine la p) r fun t => Opened ww r.s t ∧ (p.l1 = none → AtSlice t la) := by
  refine .read ?_
  cases hfind : findLine r.s.img.cache la with
  | none => exact .pure ⟨(opened_frame ww).refl _, fun _ l hl => by rw [hfind] at hl; cases hl⟩
  | some l =>
    have stays (hl : ∀ c, l.level ≠ .l1 c) : Opened ww r.s r.s ∧ (p.l1 = none → AtSlice r.s la) :=
      ⟨(opened_frame ww).refl _, fun _ k hk => by rw [hfind] at hk; cases hk; exact hl⟩
    dsimp only
    cases hlevel : l.level with
    | l2 => exact .pure (stays fun c hc => by rw [hlevel] at hc; cases hc)
    | host => exact .pure (stays fun c hc => by rw [hlevel] at hc; cases hc)
    | l3 =>
      dsimp only
      rw [hp]
      exact .pure (stays fun c hc => by rw [hlevel] at hc; cases hc)
    | l1 c =>
      dsimp only
      refine .ite (fun through => .pure ⟨(opened_frame ww).refl _, fun hl1 => ?_⟩) fun _ => ?_
      · simp [Path.through, hl1] at through
      · have roomy : Roomy r.s la 1 := h.resolve_right fun hs => hs l hfind c hlevel
        have room : r.s.cacheRoom la .l2 = true := by
          refine decide_eq_true (Nat.lt_of_le_of_lt (List.Sublist.length_le (List.monotone_filter_right _ fun l hl => ?_)) roomy)
          exact (Bool.and_eq_true .. ▸ hl : _ ∧ _).2
        refine .read (.ite (fun _ => ⟨⟨⟩, _, rfl, ?_⟩) fun hno => absurd (Bool.or_eq_true_iff.mpr (.inl room)) hno)
        have kept := kept_slice r.s la
        refine ⟨⟨rfl, fun k => kept.line k ww⟩, fun _ k hk c' => ?_⟩
        change findLine (r.s.img.cache.map _) la = some k at hk
        rw [findLine_map _ _ _ fun l => by split <;> rfl, hfind] at hk
        cases hk
        simp [(findLine_some hfind).2]

theorem fill_opens {s : State} {l : Line} {la : Nat} {ww : Bool} (hfind : findLine s.img.cache la = none) (haddr : l.addr = la)
    (hdata : l.data = lineOfBytes (s.arrayLine la ww)) : Opened ww s (Upd.apply s (.img { s.img with cache := putLine s.img.cache l })) := by
  refine ⟨rfl, fun k => ?_⟩
  simp only [State.liveLine, img_img, findLine_putLine, haddr]
  by_cases hk : la = k
  · subst hk
    rw [if_pos rfl, hfind]
    simp only [hdata]
    exact bytesOfLine_lineOfBytes (arrayLine_length _ _ _)
  · rw [if_neg hk]
    rfl

theorem allocAt_slice {s : State} {la : Nat} {lvl : Level} (h : s.allocAt la .l2 = some lvl) : lvl = .l2 := by
  simp only [State.allocAt] at h
  split at h
  · exact (Option.some.inj h).symm
  · split at h
    · exact (Option.some.inj h).symm
    · cases h

theorem M.fillLine_opens (la : Nat) (lvl : Level) (ww : Bool) (r : Run s0) :
    Ends (M.fillLine la lvl ww) r fun t => Opened ww r.s t ∧ (lvl = .l2 → AtSlice r.s la → AtSlice t la) := by
  refine .read ?_
  cases hfind : findLine r.s.img.cache la with
  | some l => exact .pure ⟨(opened_frame ww).refl _, fun _ h => h⟩
  | none =>
    cases halloc : r.s.allocAt la lvl with
    | none => exact .pure ⟨(opened_frame ww).refl _, fun _ h => h⟩
    | some lvl' =>
      refine ⟨⟨⟩, _, rfl, fill_opens hfind rfl rfl, fun hl2 _ l hl c => ?_⟩
      change findLine (putLine r.s.img.cache _) la = some l at hl
      rw [findLine_putLine, if_pos rfl] at hl
      cases hl
      rw [hl2] at halloc
      simp [allocAt_slice halloc]

/-- A path by the home slice: through no L1, and a copy is allocated in the slice at most. -/
def Path.BySlice (p : Path) : Prop := p.l1 = none ∧ (p.alloc = none ∨ p.alloc = some .l2)

/-- An access to a line that can be recalled changes nothing of the live image. -/
theorem M.openLine_opens (la : Nat) (p : Path) (ww : Bool) (r : Run s0) (hp : p.host = false) (h : Recallable r.s la) :
    Ends (M.openLine la p ww) r fun t => Opened ww r.s t ∧ (p.BySlice → AtSlice t la) := by
  refine (M.recallLine_opens la p ww r hp h).bind fun _ r' hr => ?_
  obtain ⟨opened, slice⟩ := hr
  cases halloc : p.alloc with
  | none => exact .pure ⟨opened, fun by_ => slice by_.1⟩
  | some lvl =>
    refine (M.fillLine_opens la lvl ww r').mono fun t ⟨h1, h2⟩ => ⟨(opened_frame ww).trans opened h1, fun by_ => h2 ?_ (slice by_.1)⟩
    simpa [halloc] using by_.2

/-! ## A read at the home -/

/-- Bytes that lie in one line. -/
def InLine (pa n : Nat) : Prop := 0 < n ∧ pa % 64 + n ≤ 64

theorem InLine.of_aligned {pa n : Nat} (hn : n ∈ [1, 2, 4, 8]) (h : pa % n = 0) : InLine pa n := by
  simp only [List.mem_cons, List.not_mem_nil, or_false] at hn
  rcases hn with rfl | rfl | rfl | rfl <;> exact ⟨by omega, by omega⟩

theorem InLine.lines {pa n : Nat} (h : InLine pa n) : rangeFrom (pa / 64) ((pa + n - 1) / 64 + 1 - pa / 64) = [pa / 64] := by
  obtain ⟨pos, fits⟩ := h
  rw [show (pa + n - 1) / 64 + 1 - pa / 64 = 1 by omega]
  rfl

/-- What is seen of memory at its home is read there. -/
theorem M.readHome_seen {a : Acc} {n : Nat} {p : Path} {r : Run s0} {bs : List Byte} (hline : InLine a.pa n) (hp : p.host = false)
    (hroom : Recallable r.s (a.pa / 64)) (hseen : seen r.s a n = some bs) : ∃ r' : Run s0,
      M.readHome a.pa n p a.leaf.ww r = .ok (some bs, r') ∧ Opened a.leaf.ww r.s r'.s
      ∧ (regionOf a.pa ≠ .device → p.BySlice → AtSlice r'.s (a.pa / 64)) := by
  by_cases hdev : regionOf a.pa = .device
  · rw [seen, if_pos hdev] at hseen
    exact ⟨r, by simp [M.readHome, hdev, hseen], (opened_frame _).refl _, fun h => absurd hdev h⟩
  · rw [seen, if_neg hdev] at hseen
    split at hseen
    · cases hseen
    · rename_i hpoison
      have clean : r.s.firstPoison a.pa n = none := by simpa using hpoison
      obtain ⟨_, r', hopen, opened, slice⟩ := M.openLine_opens (a.pa / 64) p a.leaf.ww r hp hroom
      have bytes : r'.s.liveBytes a.pa n a.leaf.ww = bs := (opened.liveBytes _ _).trans (Option.some.inj hseen)
      have each_ : M.each [a.pa / 64] (fun la => M.openLine la p a.leaf.ww) r = .ok (⟨⟩, r') := by
        rw [M.each_cons_run, hopen]
        rfl
      refine ⟨r', ?_, opened, fun _ => slice⟩
      simp only [M.readHome, M.ite_run, beq_iff_eq, if_neg hdev, M.bind_run, M.st_run, clean, hline.lines, each_, M.pure_run, bytes]

end Sys2Proof.Machine
end

section
/-!
PROOFS. The scalar loads (R90, R92).
-/

open Sys2Proof Sys2Proof.Machine Sys2Proof.Claim

namespace Sys2Proof.Machine

variable {s0 s : State}

/-- A load reads memory where the hart has not read the bytes ahead (R217). -/
theorem M.earlyRead_none {pa n : Nat} {r : Run s0} (h : ∀ e ∈ r.s.hart.early, e.vec = false → e.pa ≠ pa) :
    M.earlyRead false pa n r = .ok (none, r) := by
  have none_ : (r.s.hart.early.find? fun e => e.vec == false && e.pa == pa && e.bytes.length == n
      && e.hits.all fun k => !geClk (clkAt r.s.hart.sr.vclk k.1) k.2) = none := by
    rw [List.find?_eq_none]
    intro e he hp
    simp only [Bool.and_eq_true, beq_iff_eq] at hp
    exact h e he hp.1.1.1 hp.1.1.2
  simp only [M.earlyRead, M.bind_run, M.hart_run, Bool.false_eq_true, if_false, none_, M.pure_run]

theorem slicePath_host (a : Acc) : (M.slicePath a).host = false := by
  rw [M.slicePath]
  split <;> rfl

/-- The host uses none of the ways of a scalar access. -/
theorem M.scalarPath_run (a : Acc) (by_ na : Bool) (r : Run s0) : ∃ p, M.scalarPath a by_ na r = .ok (p, r) ∧ p.host = false := by
  by_cases hc : (a.leaf.home ≠ r.s.hart.id.did || !a.leaf.wb || regionOf a.pa == .device) = true
  · exact ⟨_, by simp only [M.scalarPath, M.bind_run, M.hart_run, hc, if_true, M.pure_run], slicePath_host a⟩
  · refine ⟨{ l1 := some r.s.hart.l1, alloc := if na then none else if by_ then some .l2 else some (.l1 (l1Core r.s.hart.l1 (a.pa / 64))),
              host := false }, ?_, rfl⟩
    simp only [M.scalarPath, M.bind_run, M.hart_run, hc, Bool.false_eq_true, if_false, M.pure_run]

theorem withReg_x {s t : State} (h : s.hart.x = t.hart.x) (d : Reg) (v : Word) : (withReg s d v).hart.x = (withReg t d v).hart.x := by
  by_cases hd : d = 0
  · simpa only [withReg, if_pos hd] using h
  · simp only [withReg, if_neg hd, h]

theorem loadDone_run (n : Nat) (signed : Bool) (d : Reg) (pa : Nat) (bs : List Byte) (r : Run s0) : ∃ r' : Run s0,
    loadDone n signed d pa bs false r = .ok (⟨⟩, r')
      ∧ r'.s = { r.s with hart := { r.s.hart with
          pc := r.s.hart.pc + 4, x := (withReg r.s d (extended n signed (ofBytes bs))).hart.x, watch := some (pa / 64), watchHit := false } } := by
  refine ⟨_, rfl, ?_⟩
  by_cases hd : d = 0
  · subst hd
    rfl
  · simp only [Run.emit_s, Upd.apply, if_neg hd, withReg]
    rfl

/-- What a granted check leaves: a choice of a walk, translation copies, and the key of a frame. -/
def Granted (s t : State) : Prop :=
  t = { s with fresh := t.fresh, img := { s.img with tlb := t.img.tlb, keys := t.img.keys } }

theorem Granted.hart {s t : State} (h : Granted s t) : t.hart = s.hart := by rw [h]

theorem Granted.recallable {s t : State} (h : Granted s t) {la : Nat} (hr : Roomy s la 1) : Recallable t la := by
  rw [h]
  exact .inl hr

theorem Granted.seen {s t : State} (h : Granted s t) (a : Acc) (n : Nat) : seen t a n = seen s a n := by
  rw [h]
  rfl

theorem Granted.uncovered {s t : State} (h : Granted s t) (d : Nat) (c : Clock) (skip : Nat → Bool) :
    t.uncovered d c skip = s.uncovered d c skip := by
  rw [h]
  rfl

theorem M.needCovered_run {r : Run s0} (h : r.s.uncovered r.s.hart.id.did r.s.hart.sr.vclk (fun _ => false) = []) :
    M.needCovered r = .ok (⟨⟩, r) :=
  (M.bind_ok (M.hart_run r)).trans (M.needCoveredBy_run h)

/-- A scalar load on the hart's own die from memory: the value that is seen there. -/
theorem scalarLoad_run {va : Word} {n : Nat} {signed by_ na : Bool} {d : Reg} {a : Acc} {bs : List Byte} (hn : n ∈ [1, 2, 4, 8])
    (hal : va.toNat % n = 0) (hacc : accessOf s va n .load = .ok a) (served : Served s a n s.hart.sr.vclk) (hseen : seen s a n = some bs) :
    ∃ r : Run s, scalarLoad va n signed d by_ na (Run.start s) = .ok (⟨⟩, r)
      ∧ r.s = { s with
          hart := { s.hart with
            pc := s.hart.pc + 4, x := (withReg s d (extended n signed (ofBytes bs))).hart.x, watch := some (a.pa / 64), watchHit := false,
            sr := { s.hart.sr with vclk := clkMerge s.hart.sr.vclk (s.die s.hart.id.did).clock } },
          fresh := r.s.fresh, img := { s.img with tlb := r.s.img.tlb, cache := r.s.img.cache, keys := r.s.img.keys } }
      ∧ ∀ pa, liveByte r.s a.leaf.ww pa = liveByte s a.leaf.ww pa := by
  obtain ⟨turn, own, covered, aligned, room, early⟩ := served
  obtain ⟨r1, checks, h1⟩ := M.checkOr_granted va n .load (Run.start s) a hal hacc
  have granted : Granted s r1.s := h1
  have unread : M.earlyRead false a.pa n r1 = .ok (none, r1) := M.earlyRead_none (by rw [granted.hart]; exact early)
  have cover : M.needCovered r1 = .ok (⟨⟩, r1) := M.needCovered_run (by rw [granted.hart, granted.uncovered]; exact covered)
  obtain ⟨p, path, hp⟩ := M.scalarPath_run a by_ na r1
  obtain ⟨r2, reads, opened, -⟩ := M.readHome_seen (p := p) (InLine.of_aligned hn aligned) hp (granted.recallable room)
    ((granted.seen a n).trans hseen)
  obtain ⟨r3, ends, h3⟩ := loadDone_run n signed d a.pa bs (r2.emit (.hart { r2.s.hart with
    sr := { r2.s.hart.sr with vclk := clkMerge r2.s.hart.sr.vclk (r2.s.die r2.s.hart.id.did).clock } }))
  refine ⟨r3, ?_, ?_, fun pa => ?_⟩
  · have home : a.leaf.home = r1.s.hart.id.did := by rw [granted.hart]; exact own
    rw [scalarLoad, M.bind_ok (M.needVs_run turn), M.bind_ok checks, M.bind_ok (M.hart_run r1), M.bind_ok unread]
    simp only [if_pos home]
    rw [M.bind_ok cover, M.bind_ok path, M.bind_ok reads]
    exact (M.bind_ok (M.mergeDie_run r2)).trans ends
  · have h2 : r2.s = { s with fresh := r2.s.fresh, img := { s.img with tlb := r2.s.img.tlb, cache := r2.s.img.cache, keys := r2.s.img.keys } } := by
      rw [opened.same, granted]
    rw [h3, withReg_x (t := s) (by rw [Run.emit_s, h2]; rfl), Run.emit_s, h2]
    rfl
  · have lines : r3.s.liveLine (pa / 64) a.leaf.ww = r2.s.liveLine (pa / 64) a.leaf.ww := by
      rw [h3]
      rfl
    have first : r1.s.liveLine (pa / 64) a.leaf.ww = s.liveLine (pa / 64) a.leaf.ww := by
      rw [granted]
      rfl
    rw [liveByte, liveByte, lines, opened.line, first]

theorem loads_of {i : Instr} {addr : M s Word} {va : Word} {n : Nat} {signed by_ na : Bool} {d : Reg} (hn : n ∈ [1, 2, 4, 8])
    (he : exec i s = exec1 s (addr >>= fun va => scalarLoad va n signed d by_ na)) (ha : addr (Run.start s) = .ok (va, Run.start s)) :
    Loads s i va n signed d := by
  intro a bs hal hacc served hseen
  obtain ⟨r, run, state, bytes⟩ := scalarLoad_run (signed := signed) (by_ := by_) (na := na) (d := d) hn hal hacc served hseen
  exact ⟨r.s, exec_of_run he ((M.bind_ok ha).trans run) rfl, state, bytes⟩

end Sys2Proof.Machine
end

section
/-!
PROOFS. What write numbers, clocks and the notes of a write leave as it is (R111, R217, R239, R242).
-/

open Sys2Proof Sys2Proof.Machine Sys2Proof.Claim

namespace Sys2Proof.Machine

variable {s0 : State}

theorem othersKept_of_same {s t : State} (h : t.others = s.others) : OthersKept s t :=
  fun x hx => ⟨x, h ▸ hx, rfl, rfl, rfl, rfl, rfl, rfl, rfl, rfl, rfl, fun _ => rfl⟩

theorem othersKept_trans {s t u : State} (h : OthersKept s t) (k : OthersKept t u) : OthersKept s u := by
  intro x hx
  obtain ⟨y, hy, key, pc, sr, vec, tile, queue, ctx, held, wait, regs⟩ := k x hx
  obtain ⟨z, hz, key', pc', sr', vec', tile', queue', ctx', held', wait', regs'⟩ := h y hy
  exact ⟨z, hz, key'.trans key, pc'.trans pc, sr'.trans sr, vec'.trans vec, tile'.trans tile, queue'.trans queue, ctx'.trans ctx,
    held'.trans held, wait'.trans wait, fun r => (regs' r).trans (regs r)⟩

/-- A write and what goes with it have changed nothing but memory, clocks and write numbers, what harts note of writes, what is to be done
next, and the host port. -/
structure Beside (s t : State) : Prop where
  hart : ∃ x y c, t.hart = { s.hart with x := x, early := y, sr := { s.hart.sr with vclk := c } }
  regs : ∀ r, t.hart.reg r = s.hart.reg r
  others : OthersKept s t
  scratch : t.scratch = s.scratch
  counts : t.counts = s.counts
  bank : t.bank = s.bank
  disp : t.disp = s.disp
  place : t.place = s.place
  time : t.time = s.time ∧ t.cycle = s.cycle

theorem beside_frame : Frame Beside where
  refl s := ⟨⟨s.hart.x, s.hart.early, s.hart.sr.vclk, rfl⟩, fun _ => rfl, othersKept_of_same rfl, rfl, rfl, rfl, rfl, rfl, rfl, rfl⟩
  trans {a b c} h k := {
    hart := by
      obtain ⟨_, _, _, hx⟩ := h.hart
      obtain ⟨x, y, v, hy⟩ := k.hart
      exact ⟨x, y, v, by rw [hy, hx]⟩
    regs := fun r => (k.regs r).trans (h.regs r)
    others := othersKept_trans h.others k.others
    scratch := k.scratch.trans h.scratch
    counts := k.counts.trans h.counts
    bank := k.bank.trans h.bank
    disp := k.disp.trans h.disp
    place := k.place.trans h.place
    time := ⟨k.time.1.trans h.time.1, k.time.2.trans h.time.2⟩ }

theorem Beside.id {s t : State} (h : Beside s t) : t.hart.id = s.hart.id := by
  obtain ⟨_, _, _, hart⟩ := h.hart
  rw [hart]

theorem Beside.key {s t : State} (h : Beside s t) : t.hart.key = s.hart.key := by rw [Hart.key, Hart.key, h.id]

theorem Beside.tailAt {s t : State} (h : Beside s t) (pa : Nat) : t.tailAt pa = s.tailAt pa := by
  simp only [State.tailAt, h.place]

/-- The same, and nothing of memory. -/
structure Clocked (s t : State) : Prop extends Beside s t where
  img : t.img = s.img
  cells : t.cells = s.cells

theorem clocked_frame : Frame Clocked where
  refl s := ⟨beside_frame.refl s, rfl, rfl⟩
  trans h k := ⟨beside_frame.trans h.toBeside k.toBeside, k.img.trans h.img, k.cells.trans h.cells⟩

theorem Clocked.liveLine {s t : State} (h : Clocked s t) (la : Nat) (ww : Bool) : t.liveLine la ww = s.liveLine la ww := by
  simp only [State.liveLine, State.arrayLine, h.img, h.cells]

theorem Clocked.liveByte {s t : State} (h : Clocked s t) (ww : Bool) (pa : Nat) : liveByte t ww pa = liveByte s ww pa := by
  simp only [Claim.liveByte, h.liveLine]

theorem Clocked.recallable {s t : State} (h : Clocked s t) {la : Nat} (hr : Recallable s la) : Recallable t la := by
  rw [Recallable, Roomy, AtSlice, h.img]
  exact hr

/-! ## Primitive updates -/

theorem clocked_fab (s : State) (f : Fabric) : Clocked s (Upd.apply s (.fab f)) := { clocked_frame.refl s with }

theorem clocked_port (s : State) (p : HostPort) : Clocked s (Upd.apply s (.port p)) := { clocked_frame.refl s with }

theorem clocked_work (s : State) (l : List Instr) : Clocked s (Upd.apply s (.work l)) := { clocked_frame.refl s with }

theorem clocked_vclk (s : State) (c : Clock) : Clocked s (Upd.apply s (.hart { s.hart with sr := { s.hart.sr with vclk := c } })) :=
  { clocked_frame.refl s with hart := ⟨s.hart.x, s.hart.early, c, rfl⟩, regs := fun _ => rfl }

/-- A hart whose notes have changed is put back into its slot; the hart in focus keeps its watch bit. -/
theorem clocked_place {s : State} {g : Hart} {y : List Early} {w : Bool} (hg : s.hartOf g.key = some g)
    (hw : g.key = s.hart.key → w = g.watchHit) : Clocked s (Upd.apply s (.place { g with early := y, watchHit := w })) := by
  have key : ({ g with early := y, watchHit := w } : Hart).key = g.key := rfl
  by_cases focus : s.hart.key = g.key
  · have same : s.hart = g := by
      rw [State.hartOf, if_pos focus] at hg
      exact Option.some.inj hg
    have watch := hw focus.symm
    subst same watch
    simp only [Upd.apply, key, if_pos]
    exact { clocked_frame.refl s with hart := ⟨_, y, _, rfl⟩, regs := fun r => reg_zeroFirst _ r }
  · have found : g ∈ s.others := by
      rw [State.hartOf, if_neg focus] at hg
      exact (findHart_key hg).1
    simp only [Upd.apply, key, if_neg focus]
    refine { clocked_frame.refl s with others := fun x hx => ?_ }
    rcases mem_putHart hx with rfl | hx
    · exact ⟨g, found, rfl, rfl, rfl, rfl, rfl, rfl, rfl, rfl, rfl, fun r => (reg_zeroFirst _ r).symm⟩
    · exact ⟨x, hx, rfl, rfl, rfl, rfl, rfl, rfl, rfl, rfl, rfl, fun _ => rfl⟩

/-! ## Notes -/

/-- A change of a hart's reads made ahead alone. -/
def EarlyOnly (f : Hart → Hart) : Prop := ∀ h, ∃ y, f h = { h with early := y }

theorem M.modOther_clocks {key : Nat} {f : Hart → Hart} (hf : EarlyOnly f) : Does (M.modOther key f : M s0 PUnit) Clocked := fun r => by
  refine .read ?_
  cases hk : r.s.hartOf key with
  | none => exact .pure (clocked_frame.refl _)
  | some h =>
    obtain ⟨y, hy⟩ := hf h
    refine .emit ?_
    rw [hy]
    exact clocked_place ((hartOf_key hk).2 ▸ hk) fun _ => rfl

theorem M.noteHit_clocks (pa n : Nat) (num : Option (Nat × BitVec 16)) : Does (M.noteHit pa n num : M s0 PUnit) Clocked := fun r =>
  .read (Does.each clocked_frame (fun _ _ => M.modOther_clocks fun _ => ⟨_, rfl⟩) r)

/-- The same of the hart k in focus. -/
def ClockedOf (k : Nat) (s t : State) : Prop := s.hart.key = k → Clocked s t

theorem clockedOf_frame (k : Nat) : Frame (ClockedOf k) where
  refl s _ := clocked_frame.refl s
  trans h l key := clocked_frame.trans (h key) (l ((h key).key.trans key))

theorem M.watchHit_clocks {k key : Nat} (hk : key ≠ k) :
    Does (M.modOther key fun g => { g with watchHit := true } : M s0 PUnit) (ClockedOf k) := fun r => by
  refine .read ?_
  cases hfind : r.s.hartOf key with
  | none => exact .pure fun _ => clocked_frame.refl _
  | some h =>
    have self : h.key = key := (hartOf_key hfind).2
    exact .emit fun focus => clocked_place (self ▸ hfind) fun same => absurd (self.symm.trans (same.trans focus)) hk

/-- The writer's own watch bit stays (R111). -/
theorem M.noteWatch_clocks (la k : Nat) : Does (M.noteWatch la (some k) : M s0 PUnit) (ClockedOf k) := fun r => by
  have stale : Does (M.each (r.s.harts.filter fun h => some h.key != some k && h.early.any fun e => e.pa / 64 == la && !e.stale) fun h =>
      M.modOther h.key fun h => { h with
        early := h.early.map fun e => if e.pa / 64 == la && !e.stale then { e with stale := true } else e } : M s0 PUnit) Clocked :=
    Does.each clocked_frame fun _ _ => M.modOther_clocks fun _ => ⟨_, rfl⟩
  refine .read (.bind (stale.mono (fun _ _ h _ => h) r) fun _ r' h => .read (Ends.mono (Does.each (clockedOf_frame k) (fun g hg => ?_) r')
    fun _ => (clockedOf_frame k).trans h))
  have other : g.key ≠ k := by
    have := (List.mem_filter.1 hg).2
    simp only [Bool.and_eq_true, bne_iff_ne, ne_eq, Option.some.injEq] at this
    exact this.1.2
  refine Does.bind (clockedOf_frame k) (M.watchHit_clocks other) fun _ => Does.ite (fun _ r => ?_) fun _ => Does.pure (clockedOf_frame k) _
  exact .emit fun _ => clocked_work _ _

/-! ## Numbers and clocks -/

theorem M.modDie_clocks (d : Nat) (f : DieFab → DieFab) : Does (M.modDie d f : M s0 PUnit) Clocked := fun _ => M.modDie_ends (clocked_fab _ _)

theorem M.learnAt_clocks (d : Nat) (c : Clock) : Does (M.learnAt d c : M s0 PUnit) Clocked := M.modDie_clocks _ _

theorem M.number_clocks (d : Nat) : Does (M.number d : M s0 (BitVec 16)) Clocked := fun r => by
  refine .read (Does.bind clocked_frame (M.modDie_clocks _ _) (fun _ => ?_) r)
  refine Does.bind clocked_frame (fun _ => .emit (clocked_fab _ _)) fun _ => ?_
  refine Does.bind clocked_frame (fun _ => .emit (clocked_port _ _)) fun _ r' => .read ?_
  exact Does.bind clocked_frame (Does.each clocked_frame fun _ _ => M.modOther_clocks fun _ => ⟨_, rfl⟩)
    (fun _ => Does.pure clocked_frame _) r'

theorem M.hartNumber_clocks : Does (M.hartNumber : M s0 (BitVec 16)) Clocked := fun r => by
  refine .next (M.hart_run r) (Does.bind clocked_frame (M.number_clocks _) (fun _ => ?_) r)
  exact Does.bind clocked_frame (fun _ => .emit (clocked_vclk _ _)) fun _ => Does.pure clocked_frame _

theorem M.noteSc_clocks (sc : Bool) (c : Clock) : Does (M.noteSc sc c : M s0 PUnit) Clocked :=
  Does.ite (fun _ _ => .emit (clocked_fab _ _)) fun _ => Does.pure clocked_frame _

theorem M.mergeDie_clocks : Does (M.mergeDie : M s0 PUnit) Clocked := fun _ => .emit (clocked_vclk _ _)

end Sys2Proof.Machine
end

section
/-!
PROOFS. What a store of a hart to memory changes (R90, R93, R190): its bytes of the live image, in a copy or in the arrays.
-/

open Sys2Proof Sys2Proof.Machine Sys2Proof.Claim

namespace Sys2Proof.Machine

variable {s0 : State}

/-! ## Bytes laid over a line -/

/-- Bytes laid over others from an offset on. -/
def splice (old : List Byte) (off : Nat) (bs : List Byte) : List Byte := old.take off ++ bs ++ old.drop (off + bs.length)

theorem splice_length {old bs : List Byte} {off : Nat} (h : off + bs.length ≤ old.length) : (splice old off bs).length = old.length := by
  simp only [splice, List.length_append, List.length_take, List.length_drop]
  omega

theorem splice_getD {old bs : List Byte} {off : Nat} (h : off + bs.length ≤ old.length) (i : Nat) :
    (splice old off bs).getD i 0 = if off ≤ i ∧ i < off + bs.length then bs.getD (i - off) 0 else old.getD i 0 := by
  simp only [splice, List.getD_eq_getElem?_getD, List.append_assoc, List.getElem?_append, List.length_take, List.getElem?_take,
    List.getElem?_drop]
  by_cases below : i < off
  · rw [if_pos (by omega), if_pos below, if_neg (by omega)]
  · rw [if_neg (by omega)]
    by_cases inside : i < off + bs.length
    · rw [if_pos (by omega), if_pos (by omega), show i - min off old.length = i - off by omega]
    · rw [if_neg (by omega), if_neg (by omega), show off + bs.length + (i - min off old.length - bs.length) = i by omega]

theorem reads_length (m : Memory) (k n : Nat) : (m.reads k n).length = n := by simp [Memory.reads]

theorem reads_getD {m : Memory} {k n i : Nat} (hi : i < n) : (m.reads k n).getD i 0 = m.read (k + i) := by
  simp [Memory.reads, List.getD_eq_getElem?_getD, hi]

theorem list_ext_getD {as bs : List Byte} (hl : as.length = bs.length) (h : ∀ i < as.length, as.getD i 0 = bs.getD i 0) : as = bs := by
  refine List.ext_getElem hl fun i h1 h2 => ?_
  simpa [List.getD_eq_getElem?_getD, h1, h2] using h i h1

theorem reads_writes {m : Memory} (hm : m.wf = true) {k n off : Nat} {bs : List Byte} (h : off + bs.length ≤ n) :
    (m.writes (k + off) bs).reads k n = splice (m.reads k n) off bs := by
  have fits : off + bs.length ≤ (m.reads k n).length := by rw [reads_length]; exact h
  refine list_ext_getD (by rw [splice_length fits, reads_length, reads_length]) fun i hi => ?_
  rw [reads_length] at hi
  rw [splice_getD fits, reads_getD hi, reads_getD hi, Memory.read_writes _ _ _ _ hm]
  by_cases inside : off ≤ i ∧ i < off + bs.length
  · rw [if_pos inside, if_pos (by omega), show k + i - (k + off) = i - off by omega]
  · rw [if_neg inside, if_neg (by omega)]

theorem reads_writes_apart {m : Memory} (hm : m.wf = true) {j k n : Nat} {bs : List Byte} (h : j + bs.length ≤ k ∨ k + n ≤ j) :
    (m.writes j bs).reads k n = m.reads k n := by
  refine List.map_congr_left fun i hi => ?_
  have := List.mem_range.1 hi
  rw [Memory.read_writes _ _ _ _ hm, if_neg (by omega)]

/-! ## A store to one line -/

/-- Bytes have been laid over one line of the live image; memory apart, only the host port may have changed. -/
structure LineStored (ww : Bool) (la off : Nat) (bs : List Byte) (s t : State) : Prop where
  same : t = { s with cells := t.cells, img := t.img, host := t.host }
  line : ∀ k, t.liveLine k ww = if k = la then splice (s.liveLine la ww) off bs else s.liveLine k ww

theorem LineStored.after_opened {ww : Bool} {la off : Nat} {bs : List Byte} {s t u : State} (h : Opened ww s t) (k : LineStored ww la off bs t u) :
    LineStored ww la off bs s u := by
  refine ⟨by rw [k.same, h.same], fun j => ?_⟩
  rw [k.line, h.line, h.line]

theorem LineStored.beside {ww : Bool} {la off : Nat} {bs : List Byte} {s t : State} (h : LineStored ww la off bs s t) : Beside s t := by
  rw [h.same]
  exact { beside_frame.refl s with }

/-- A store to a line that a cache holds. -/
theorem lineStored_hit {s : State} {ww : Bool} {la off : Nat} {bs : List Byte} {l l' : Line} {order : List Nat} {p : HostPort}
    (hfind : findLine s.img.cache la = some l) (haddr : l'.addr = la) (hdata : l'.data = (l.merge off bs).data) (fits : off + bs.length ≤ 64) :
    LineStored ww la off bs s (Upd.apply (Upd.apply s (.img { s.img with cache := putLine s.img.cache l', hostOrder := order })) (.port p)) := by
  refine ⟨rfl, fun k => ?_⟩
  have length : (splice (bytesOfLine l.data) off bs).length = 64 := by
    have whole : (bytesOfLine l.data).length = 64 := toBytes_length _ _
    rw [splice_length (by rw [whole]; exact fits), whole]
  have merged : bytesOfLine l'.data = splice (bytesOfLine l.data) off bs := by
    rw [hdata]
    exact bytesOfLine_lineOfBytes length
  simp only [State.liveLine, port_img, img_img, findLine_putLine, haddr]
  by_cases hk : la = k
  · subst hk
    rw [if_pos rfl, if_pos rfl, hfind]
    exact merged
  · rw [if_neg hk, if_neg (Ne.symm hk)]
    rfl

/-- A store to a line that no cache holds. -/
theorem lineStored_miss {s : State} {ww : Bool} {la off : Nat} {bs : List Byte} (hfind : findLine s.img.cache la = none)
    (hwf : s.cells.wf = true) (hreg : regionOf (64 * la) ≠ .weights) (fits : off + bs.length ≤ 64) :
    LineStored ww la off bs s (Upd.apply s (.cells (64 * la + off) bs)) := by
  refine ⟨rfl, fun k => ?_⟩
  simp only [State.liveLine, cells_img]
  by_cases hk : k = la
  · subst hk
    rw [if_pos rfl, hfind]
    simp only [State.arrayLine, beq_iff_eq, if_neg hreg]
    exact reads_writes hwf fits
  · rw [if_neg hk]
    have apart : 64 * la + off + bs.length ≤ 64 * k ∨ 64 * k + 64 ≤ 64 * la + off := by omega
    have reads : (Upd.apply s (.cells (64 * la + off) bs)).arrayLine k ww = s.arrayLine k ww := by
      simp only [State.arrayLine, Upd.apply, reads_writes_apart hwf apart]
    rw [reads]

theorem M.setArrayPoison_run (la : Nat) (p : Bool) (r : Run s0) : ∃ r' : Run s0, M.setArrayPoison la p r = .ok (⟨⟩, r')
    ∧ r'.s = { r.s with img := r'.s.img } ∧ r'.s.img.cache = r.s.img.cache := ⟨_, rfl, rfl, rfl⟩

theorem M.storeLine_stores {la off : Nat} {bs : List Byte} {p : Path} {ww : Bool} {r : Run s0} (hp : p.host = false)
    (hroom : Recallable r.s la) (hwf : r.s.cells.wf = true) (hreg : regionOf (64 * la) ≠ .weights) (fits : off + bs.length ≤ 64) :
    Ends (M.storeLine la off bs p ww) r (LineStored ww la off bs r.s) := by
  refine (M.openLine_opens la p ww r hp hroom).bind fun _ r' hr => ?_
  obtain ⟨opened, -⟩ := hr
  refine Ends.mono (p := LineStored ww la off bs r'.s) (.read ?_) fun _ => LineStored.after_opened opened
  cases hfind : findLine r'.s.img.cache la with
  | some l =>
    refine .read ⟨⟨⟩, _, rfl, lineStored_hit hfind ?_ ?_ fits⟩
    · dsimp only
      split <;> split <;> exact (findLine_some hfind).2
    · dsimp only
      split <;> split <;> rfl
  | none =>
    have wf : r'.s.cells.wf = true := by rw [opened.same]; exact hwf
    have stored := lineStored_miss (ww := ww) hfind wf hreg fits
    refine .next (M.emit_run _ r') (.ite (fun _ => ?_) fun _ => .pure stored)
    obtain ⟨r'', run, same, cache⟩ := M.setArrayPoison_run la false (r'.emit (.cells (64 * la + off) bs))
    refine ⟨⟨⟩, r'', run, ?_, fun k => ?_⟩
    · rw [same]
      rfl
    · rw [← stored.line, same]
      simp only [State.liveLine, cache]
      rfl

/-! ## A store at its home -/

/-- Bytes of memory have been stored, and what goes with it has happened. -/
def Stored (ww : Bool) (pa : Nat) (bs : List Byte) (s t : State) : Prop := Beside s t ∧ ∀ q, liveByte t ww q = overlaid (liveByte s ww) pa bs q

theorem LineStored.stored {ww : Bool} {pa : Nat} {bs : List Byte} {s t : State} (h : LineStored ww (pa / 64) (pa % 64) bs s t)
    (fits : pa % 64 + bs.length ≤ 64) : Stored ww pa bs s t := by
  refine ⟨h.beside, fun q => ?_⟩
  rw [liveByte, h.line, overlaid]
  by_cases hq : q / 64 = pa / 64
  · rw [if_pos hq, splice_getD (by rw [liveLine_length]; exact fits)]
    by_cases inside : pa ≤ q ∧ q < pa + bs.length
    · rw [if_pos inside, if_pos (by omega), show q % 64 - pa % 64 = q - pa by omega]
    · rw [if_neg inside, if_neg (by omega), ← hq]
      rfl
  · rw [if_neg hq, if_neg (by omega)]
    rfl

theorem Stored.then_clocked {ww : Bool} {pa : Nat} {bs : List Byte} {s t u : State} (h : Stored ww pa bs s t) (k : Clocked t u) :
    Stored ww pa bs s u := ⟨beside_frame.trans h.1 k.toBeside, fun q => (k.liveByte ww q).trans (h.2 q)⟩

theorem Stored.after_clocked {ww : Bool} {pa : Nat} {bs : List Byte} {s t u : State} (h : Clocked s t) (k : Stored ww pa bs t u) :
    Stored ww pa bs s u := by
  refine ⟨beside_frame.trans h.toBeside k.1, fun q => ?_⟩
  rw [k.2, overlaid, overlaid, h.liveByte]

theorem Opened.beside {ww : Bool} {s t : State} (h : Opened ww s t) : Beside s t := by
  rw [h.same]
  exact { beside_frame.refl s with }

theorem Stored.after_opened {ww : Bool} {pa : Nat} {bs : List Byte} {s t u : State} (h : Opened ww s t) (k : Stored ww pa bs t u) :
    Stored ww pa bs s u := by
  refine ⟨beside_frame.trans h.beside k.1, fun q => ?_⟩
  rw [k.2, overlaid, overlaid, h.liveByte]

theorem cutLines_inLine {pa : Nat} {bs : List Byte} (h : InLine pa bs.length) : cutLines pa bs = [(pa / 64, pa % 64, bs)] := by
  obtain ⟨pos, fits⟩ := h
  have full : bs.isEmpty = false := by
    cases bs with
    | nil => simp at pos
    | cons b bs => rfl
  have offset : max pa (64 * (pa / 64)) - 64 * (pa / 64) = pa % 64 := by omega
  have from_ : max pa (64 * (pa / 64)) - pa = 0 := by omega
  have upto : min (pa + bs.length) (64 * (pa / 64) + 64) - max pa (64 * (pa / 64)) = bs.length := by omega
  simp only [cutLines, full, Bool.false_eq_true, if_false, InLine.lines ⟨pos, fits⟩, List.map_cons, List.map_nil, offset, from_, upto,
    List.drop_zero, List.take_length]

/-- The boundaries of the regions are boundaries of lines. -/
theorem regionOf_line (pa : Nat) : regionOf (64 * (pa / 64)) = regionOf pa := by
  have offset : 64 * (pa / 64) % 2 ^ 45 = 64 * (pa % 2 ^ 45 / 64) := by omega
  have below (x b : Nat) (hb : b % 64 = 0) : (64 * (x / 64) < b) = (x < b) := propext (by omega)
  have above (x b : Nat) (hb : b % 64 = 0) : (64 * (x / 64) ≥ b) = (x ≥ b) := propext (by omega)
  simp only [regionOf, offset, above pa (2 ^ 48) (by decide), below _ 0x800000000 (by decide), below _ 0x1000000000 (by decide),
    below _ 0x5000000000 (by decide), below _ 0x5010000000 (by decide), below _ 0x6000000000 (by decide)]

theorem regionOf_hostMem {pa : Nat} (h : isHostMem pa = true) : regionOf pa ≠ .device ∧ regionOf (64 * (pa / 64)) ≠ .weights := by
  rw [regionOf_line]
  constructor <;> intro hr <;> simp [isHostMem, isHbm, hr] at h

/-- Memory, none of it a registered tail word, that a store of a hart may write. -/
structure Storable (s : State) (pa : Nat) (bs : List Byte) : Prop where
  inLine : InLine pa bs.length
  mem : isHostMem pa = true
  wf : s.cells.wf = true
  tails : ∀ c ∈ cutWords pa bs, s.tailAt (8 * c.1) = none
  room : Recallable s (pa / 64)

theorem Storable.of_clocked {s t : State} {pa : Nat} {bs : List Byte} (h : Clocked s t) (k : Storable s pa bs) : Storable t pa bs :=
  ⟨k.inLine, k.mem, h.cells ▸ k.wf, fun c hc => (h.tailAt _).trans (k.tails c hc), h.recallable k.room⟩

/-- A store of a hart to memory performs at its home. -/
theorem M.performStore_stores {pa : Nat} {bs : List Byte} {p : Path} {ww : Bool} {k : Nat} {num : Option (Nat × BitVec 16)} {r : Run s0}
    (hp : p.host = false) (hk : r.s.hart.key = k) (h : Storable r.s pa bs) :
    Ends (M.performStore pa bs p ww (some k) num) r (Stored ww pa bs r.s) := by
  obtain ⟨memory, noWeights⟩ := regionOf_hostMem h.mem
  have noTails : ((cutWords pa bs).any fun c => (r.s.tailAt (8 * c.1)).isSome) = false :=
    List.any_eq_false.2 fun c hc => by rw [h.tails c hc]; simp
  refine .ite (fun hd => absurd (eq_of_beq hd) memory) fun _ => .read (.ite (fun ht => by rw [noTails] at ht; cases ht) fun _ => ?_)
  rw [M.storeLive, cutLines_inLine h.inLine]
  have line := M.storeLine_stores (p := p) (ww := ww) hp h.room h.wf noWeights h.inLine.2
  refine .bind (p := Stored ww pa bs r.s) ?_ fun _ _ h => .pure h
  refine line.bind fun _ r1 h1 => ?_
  have stored := h1.stored h.inLine.2
  refine (M.noteHit_clocks _ _ _ r1).bind fun _ r2 h2 => ?_
  have key : r2.s.hart.key = k := h2.key.trans (stored.1.key.trans hk)
  exact (M.noteWatch_clocks _ k r2).mono fun t h3 => (stored.then_clocked h2).then_clocked (h3 key)

end Sys2Proof.Machine
end

section
/-!
PROOFS. The scalar stores, and what the loads and stores of each width and form do (R90, R92, R93).
-/

open Sys2Proof Sys2Proof.Machine Sys2Proof.Claim

namespace Sys2Proof.Machine

variable {s0 s : State}

theorem M.needWindow_run {d k : Nat} {r : Run s0} (h : r.s.windowShut d k = []) : M.needWindow d k r = .ok (⟨⟩, r) := by
  simp only [M.needWindow, M.bind_run, M.st_run, h, M.pure_run]

/-- Bytes that are aligned to their number lie in one word of 8 bytes. -/
theorem cutWords_aligned {pa : Nat} {bs : List Byte} (hn : bs.length ∈ [1, 2, 4, 8]) (h : pa % bs.length = 0) :
    ∀ c ∈ cutWords pa bs, 8 * c.1 = pa / 8 * 8 := by
  have one : (pa + bs.length + 7) / 8 - pa / 8 = 1 := by
    simp only [List.mem_cons, List.not_mem_nil, or_false] at hn
    rcases hn with hl | hl | hl | hl <;> rw [hl] at h ⊢ <;> omega
  intro c hc
  rw [cutWords, one] at hc
  obtain ⟨w, hw, rfl⟩ := List.mem_map.1 hc
  obtain rfl : w = pa / 8 := by simpa [rangeFrom] using hw
  exact Nat.mul_comm _ _

theorem Granted.storable {u : State} {a : Acc} {bs : List Byte} (g : Granted s u) (hn : bs.length ∈ [1, 2, 4, 8])
    (aligned : a.pa % bs.length = 0) (room : Roomy s (a.pa / 64) 1) (plain : Plain s a) : Storable u a.pa bs := by
  refine ⟨.of_aligned hn aligned, plain.mem, ?_, fun c hc => ?_, g.recallable room⟩
  · rw [g]
    exact plain.wf
  · rw [cutWords_aligned hn aligned c hc, g]
    exact plain.tail

/-- What a hart's store leaves once the hart has gone on, whatever it has written into a register. -/
theorem storeFrame_of {u v : State} {a : Acc} {n : Nat} {bs : List Byte} (x : Vector Word 32) (g : Granted s u) (hn : bs.length = n)
    (h : Stored a.leaf.ww a.pa bs u v) : StoreFrame s { v with hart := { v.hart with pc := v.hart.pc + 4, x := x } } a n bs := by
  obtain ⟨beside, bytes⟩ := h
  rw [g] at beside bytes
  subst hn
  refine ⟨bytes, ?_, beside.others, beside.scratch, beside.counts, beside.bank, beside.disp, beside.place, beside.time⟩
  obtain ⟨_, y, c, hart⟩ := beside.hart
  exact ⟨x, c, y, by rw [hart]⟩

/-- A scalar store on the hart's own die to memory. -/
theorem scalarStore_ends {va : Word} {n : Nat} {v : Word} {by_ na : Bool} {a : Acc} (hn : n ∈ [1, 2, 4, 8]) (hal : va.toNat % n = 0)
    (hacc : accessOf s va n .store = .ok a) (served : Served s a n s.hart.sr.vclk) (plain : Plain s a) :
    Ends (scalarStore va n v by_ na) (Run.start s) fun t => StoreFrame s t a n (toBytes n v.toNat) ∧ ∀ r, t.hart.reg r = s.hart.reg r := by
  obtain ⟨turn, own, covered, aligned, room, -⟩ := served
  obtain ⟨r1, checks, granted⟩ := M.checkOr_granted va n .store (Run.start s) a hal hacc
  have g : Granted s r1.s := granted
  have length : (toBytes n v.toNat).length = n := toBytes_length _ _
  have storable : Storable r1.s a.pa (toBytes n v.toNat) := g.storable (by rw [length]; exact hn) (by rw [length]; exact aligned) room plain
  have home : a.leaf.home = r1.s.hart.id.did := by rw [g.hart]; exact own
  have cover : M.needCovered r1 = .ok (⟨⟩, r1) := M.needCovered_run (by rw [g.hart, g.uncovered]; exact covered)
  have window : M.needWindow r1.s.hart.id.did 1 r1 = .ok (⟨⟩, r1) := M.needWindow_run (by rw [g.hart, g]; exact plain.window)
  have admits : M.needStore a.leaf.home 1 r1 = .ok (⟨⟩, r1) := by
    rw [M.needStore, M.bind_ok (M.hart_run r1), M.bind_ok window, M.ite_run, if_pos home, cover]
  have puts : Ends (M.putStore a (toBytes n v.toNat) by_ na) r1 (Stored a.leaf.ww a.pa (toBytes n v.toNat) r1.s) := by
    refine .next (M.hart_run r1) ((M.hartNumber_clocks r1).bind fun num r2 h2 => .ite (fun _ => ?_) fun far => absurd home far)
    refine (M.learnAt_clocks _ _ r2).bind fun _ r3 h3 => ?_
    have clocked := clocked_frame.trans h2 h3
    obtain ⟨p, path, hp⟩ := M.scalarPath_run a by_ na r3
    exact .next path ((M.performStore_stores hp clocked.key (storable.of_clocked clocked)).mono fun t h => h.after_clocked clocked)
  refine .next (M.needVs_run turn) (.next checks ?_)
  refine Ends.bind (.next admits puts) fun _ r4 stored => ?_
  refine .next (M.pc_run r4) (.emit ⟨storeFrame_of r4.s.hart.x g length stored, fun r => (stored.1.regs r).trans (by rw [g.hart])⟩)

theorem stores_of {i : Instr} {addr : M s Word} {va : Word} {n : Nat} {by_ na : Bool} {d : Reg} (hn : n ∈ [1, 2, 4, 8])
    (he : exec i s = exec1 s (addr >>= fun va => M.rd d >>= fun v => scalarStore va n v by_ na))
    (ha : addr (Run.start s) = .ok (va, Run.start s)) : Stores s i va n (s.hart.reg d) := fun _ hal hacc served plain =>
  (Ends.next ha (.next (M.rd_run d _) (scalarStore_ends hn hal hacc served plain))).leads he

end Sys2Proof.Machine

namespace Sys2Proof.Proofs

/-- The widths that `ldx` selects (R36). -/
theorem widths_mem {k n : Nat} {signed : Bool} (h : widths[k]? = some (n, signed)) : n ∈ [1, 2, 4, 8] := by
  have all : ∀ p ∈ widths, p.1 ∈ [1, 2, 4, 8] := by decide
  exact all _ (List.mem_of_getElem? h)

theorem ldx_loads (s : State) (d a b : Reg) (na by_ : Bool) (sc : BitVec 2) (wd : BitVec 3) {n : Nat} {signed : Bool}
    (h : widths[wd.toNat]? = some (n, signed)) :
    Loads s (.ldx wd na by_ sc d a b) (s.hart.reg a + s.hart.reg b <<< sc.toNat) n signed d := by
  have width := ldxWidth_of_widths h
  have loads : Loads s (.ldx wd na by_ sc d a b) (s.hart.reg a + s.hart.reg b <<< sc.toNat) (ldxWidth wd).1 (ldxWidth wd).2 d :=
    loads_of (by rw [width]; exact widths_mem h) rfl (sxAddr_run a b sc)
  rwa [width] at loads

/-- Settles O2: each load and each store runs as one part, after the address of its form. -/
theorem loadsAndStoresAccessTheLiveImage : Obligations.LoadsAndStoresAccessTheLiveImage := by
  refine ⟨fun s d a b imm na by_ sc => ?_, fun s d a b imm na by_ sc wd => ?_⟩
  · exact ⟨loads_of (by decide) rfl (smAddr_run a imm), loads_of (by decide) rfl (smAddr_run a imm),
      loads_of (by decide) rfl (smAddr_run a imm), loads_of (by decide) rfl (smAddr_run a imm),
      loads_of (by decide) rfl (smAddr_run a imm), loads_of (by decide) rfl (smAddr_run a imm),
      loads_of (by decide) rfl (smAddr_run a imm), fun wd n signed h => ldx_loads s d a b na by_ sc wd h⟩
  · have width : 2 ^ wd.toNat ∈ [1, 2, 4, 8] := by
      have := wd.isLt
      interval_cases wd.toNat <;> decide
    exact ⟨stores_of (by decide) rfl (smAddr_run a imm), stores_of (by decide) rfl (smAddr_run a imm),
      stores_of (by decide) rfl (smAddr_run a imm), stores_of (by decide) rfl (smAddr_run a imm),
      stores_of width rfl (sxAddr_run a b sc)⟩

end Sys2Proof.Proofs
end

section
/-!
PROOFS. The scalar atomics (R94, R95).
-/

open Sys2Proof Sys2Proof.Machine Sys2Proof.Claim

namespace Sys2Proof.Machine

variable {s0 s : State}

theorem slicePath_bySlice (a : Acc) : (M.slicePath a).BySlice := by
  rw [M.slicePath]
  split
  · exact ⟨rfl, .inl rfl⟩
  · exact ⟨rfl, .inr rfl⟩

/-- What is seen of memory are bytes of the live image without poison. -/
theorem seen_memory {a : Acc} {n : Nat} {bs : List Byte} (hmem : isHostMem a.pa = true) (hseen : seen s a n = some bs) :
    s.firstPoison a.pa n = none ∧ s.liveBytes a.pa n a.leaf.ww = bs := by
  rw [seen, if_neg (regionOf_hostMem hmem).1] at hseen
  split at hseen
  · cases hseen
  · rename_i hpoison
    exact ⟨by simpa using hpoison, Option.some.inj hseen⟩

theorem InLine.liveBytes {pa n : Nat} (h : InLine pa n) (ww : Bool) : s.liveBytes pa n ww = ((s.liveLine (pa / 64) ww).drop (pa % 64)).take n := by
  have pos : n ≠ 0 := Nat.ne_of_gt h.1
  simp only [State.liveBytes, if_neg pos, h.lines, List.flatMap_singleton]

theorem InLine.liveBytes_length {pa n : Nat} (h : InLine pa n) (ww : Bool) : (s.liveBytes pa n ww).length = n := by
  have fits := h.2
  rw [h.liveBytes, List.length_take, List.length_drop, liveLine_length]
  omega

/-- The bytes that are seen of memory lie over it already. -/
theorem overlaid_seen {a : Acc} {n : Nat} {bs : List Byte} (hline : InLine a.pa n) (hmem : isHostMem a.pa = true)
    (hseen : seen s a n = some bs) : overlaid (liveByte s a.leaf.ww) a.pa bs = liveByte s a.leaf.ww := by
  have bytes := (seen_memory hmem hseen).2
  have length := bytes ▸ hline.liveBytes_length (s := s) a.leaf.ww
  rw [hline.liveBytes] at bytes
  have fits := hline.2
  funext q
  rw [overlaid]
  split
  · rename_i inside
    have at_ : a.pa % 64 + (q - a.pa) = q % 64 := by omega
    have line : q / 64 = a.pa / 64 := by omega
    rw [← bytes, liveByte, line, List.getD_eq_getElem?_getD, List.getElem?_take_of_lt (by omega), List.getElem?_drop, at_,
      List.getD_eq_getElem?_getD]
  · rfl

/-- The bytes of the word after an atomic. -/
def atomicBytes (op n : Nat) (bs : List Byte) (b d : Nat) : List Byte :=
  match atomicNew op n (ofBytes bs) b d with
  | some v => toBytes n v
  | none => bs

/-- An atomic on memory answers what is seen there. -/
theorem M.atomicHome_ends {a : Acc} {op n b d k : Nat} {num : Option (Nat × BitVec 16)} {bs : List Byte} {r : Run s0}
    (hn : n ∈ [1, 2, 4, 8]) (aligned : a.pa % n = 0) (hk : r.s.hart.key = k) (hmem : isHostMem a.pa = true) (hwf : r.s.cells.wf = true)
    (htail : r.s.tailAt (a.pa / 8 * 8) = none) (hroom : Recallable r.s (a.pa / 64)) (hseen : seen r.s a n = some bs) : ∃ r' : Run s0,
      M.atomicHome a.pa op n b d (M.slicePath a) a.leaf.ww (some k) num r = .ok (some (ofBytes bs), r')
      ∧ Stored a.leaf.ww a.pa (atomicBytes op n bs b d) r.s r'.s := by
  have hline : InLine a.pa n := .of_aligned hn aligned
  obtain ⟨r1, reads, opened, slice⟩ := M.readHome_seen hline (slicePath_host a) hroom hseen
  have tail : r1.s.tailAt (a.pa / 8 * 8) = none := (opened.beside.tailAt _).trans htail
  cases hnew : atomicNew op n (ofBytes bs) b d with
  | none =>
    refine ⟨r1, ?_, opened.beside, fun q => ?_⟩
    · simp only [M.atomicHome, M.bind_run, reads, M.st_run, tail, hnew, M.pure_run]
    · rw [atomicBytes, hnew, overlaid_seen hline hmem hseen, opened.liveByte]
  | some v =>
    have length : (toBytes n v).length = n := toBytes_length _ _
    have storable : Storable r1.s a.pa (toBytes n v) := by
      refine ⟨by rwa [length], hmem, by rw [opened.same]; exact hwf, fun c hc => ?_, .inr (slice (regionOf_hostMem hmem).1 (slicePath_bySlice a))⟩
      rw [cutWords_aligned (by rwa [length]) (by rwa [length]) c hc, tail]
    obtain ⟨_, r2, stores, stored⟩ := M.performStore_stores (p := M.slicePath a) (ww := a.leaf.ww) (num := num) (slicePath_host a)
      (opened.beside.key.trans hk) storable
    refine ⟨r2, ?_, ?_⟩
    · simp only [M.atomicHome, M.bind_run, reads, M.st_run, tail, hnew, stores, M.pure_run]
    · rw [atomicBytes, hnew]
      exact stored.after_opened opened

theorem M.needDrained_run {r : Run s0} (h : r.s.inFlight r.s.hart.id.did (clkAt r.s.hart.sr.vclk r.s.hart.id.did) = none) :
    M.needDrained r = .ok (⟨⟩, r) := by
  simp only [M.needDrained, M.bind_run, M.hart_run, M.st_run, h, M.pure_run]

theorem M.needSc_run {sc : Bool} {r : Run s0} (h : sc = true → r.s.scFlying = none) : M.needSc sc r = .ok (⟨⟩, r) := by
  cases sc with
  | false => rfl
  | true => simp only [M.needSc, M.bind_run, M.st_run, h rfl, if_true, M.pure_run]

theorem Clocked.seen {u : State} {a : Acc} (h : Clocked s u) (hmem : isHostMem a.pa = true) (n : Nat) : seen u a n = seen s a n := by
  have poison : u.firstPoison a.pa n = s.firstPoison a.pa n := by
    simp only [State.firstPoison, State.livePoison, State.arrayPoison, State.weightLost, State.macroAt, h.img, h.bank]
  have bytes : u.liveBytes a.pa n a.leaf.ww = s.liveBytes a.pa n a.leaf.ww := by simp only [State.liveBytes, h.liveLine]
  simp only [Claim.seen, if_neg (regionOf_hostMem hmem).1, poison, bytes]

/-- A register written before the hart goes on. -/
theorem wrote_state (v : State) (d : Reg) (w : Word) : Upd.apply (Upd.apply v (.reg d w)) (.pc ((Upd.apply v (.reg d w)).hart.pc + 4))
    = { v with hart := { v.hart with pc := v.hart.pc + 4, x := (withReg v d w).hart.x } } := by
  by_cases hd : d = 0
  · subst hd
    rfl
  · simp only [Upd.apply, withReg, if_neg hd]

/-- What the registers hold after a write depends on what they held before alone. -/
theorem withReg_reg {v : State} (h : ∀ q, v.hart.reg q = s.hart.reg q) (d : Reg) (w : Word) (q : Reg) :
    (withReg v d w).hart.reg q = (withReg s d w).hart.reg q := by
  by_cases hq : q = d
  · subst hq
    exact (reg_read v q w).trans (reg_read s q w).symm
  · exact (reg_read_other v d q w hq).trans ((h q).trans (reg_read_other s d q w hq).symm)

theorem atomicBytes_length {op n b d : Nat} {bs : List Byte} (h : bs.length = n) : (atomicBytes op n bs b d).length = n := by
  rw [atomicBytes]
  split
  · exact toBytes_length _ _
  · exact h

/-- An atomic on the hart's own die to memory, once it has passed the checks. -/
theorem atomicGranted_ends {op n : Nat} {sc : Bool} {d b : Reg} {va : Word} {acc : Acc} {bs : List Byte} {r : Run s} (g : Granted s r.s)
    (hn : n ∈ [1, 2, 4, 8]) (served : Served s acc n (carried s sc)) (plain : Plain s acc) (flying : sc = true → s.scFlying = none)
    (drained : s.inFlight s.hart.id.did (clkAt s.hart.sr.vclk s.hart.id.did) = none) (hseen : seen s acc n = some bs) :
    Ends (atomicGranted op n sc d b va acc) r fun t =>
      StoreFrame s t acc n (atomicBytes op n bs (s.hart.reg b).toNat (s.hart.reg d).toNat)
      ∧ ∀ q, t.hart.reg q = (withReg s d (extended n true (ofBytes bs))).hart.reg q := by
  obtain ⟨-, own, covered, aligned, room, -⟩ := served
  have home : acc.leaf.home = r.s.hart.id.did := by rw [g.hart]; exact own
  have drain : M.needDrained r = .ok (⟨⟩, r) := M.needDrained_run (by rw [g]; exact drained)
  have order : M.needSc sc r = .ok (⟨⟩, r) := M.needSc_run (by rw [g]; exact flying)
  have window : M.needWindow r.s.hart.id.did 1 r = .ok (⟨⟩, r) := M.needWindow_run (by rw [g]; exact plain.window)
  have cover : M.needCoveredBy (M.scClock sc r.s.hart.sr.vclk r.s) r = .ok (⟨⟩, r) := M.needCoveredBy_run (by rw [g]; exact covered)
  have memory : regionOf acc.pa ≠ .device := (regionOf_hostMem plain.mem).1
  obtain ⟨clean, bytes⟩ := seen_memory plain.mem ((g.seen acc n).trans hseen)
  have length : bs.length = n := bytes ▸ (InLine.of_aligned hn aligned).liveBytes_length acc.leaf.ww
  refine .next (M.hart_run r) (.next drain (.next order (.next window (.next (M.rd_run b r) (.next (M.rd_run d r) (.read ?_))))))
  refine .ite (fun _ => ?_) fun far => absurd home far
  refine .next cover (.read (.ite (fun bad => ?_) fun _ => ?_))
  · simp [clean] at bad
  refine (M.hartNumber_clocks r).bind fun num r2 h2 => (M.learnAt_clocks _ _ r2).bind fun _ r3 h3 => ?_
  have clocked : Clocked r.s r3.s := clocked_frame.trans h2 h3
  obtain ⟨r4, run, stored⟩ := M.atomicHome_ends (op := op) (b := (r.s.hart.reg b).toNat) (d := (r.s.hart.reg d).toNat)
    (num := some (r.s.hart.id.did, num)) hn aligned clocked.key plain.mem (by rw [clocked.cells, g]; exact plain.wf)
    (by rw [clocked.tailAt, g]; exact plain.tail) (clocked.recallable (g.recallable room))
    ((clocked.seen plain.mem n).trans ((g.seen acc n).trans hseen))
  refine .next run (.read ((M.noteSc_clocks sc _ r4).bind fun _ r5 h5 => (M.mergeDie_clocks r5).bind fun _ r6 h6 => ?_))
  have all : Stored acc.leaf.ww acc.pa (atomicBytes op n bs (s.hart.reg b).toNat (s.hart.reg d).toNat) r.s r6.s := by
    rw [← g.hart]
    exact .after_clocked clocked ((stored.then_clocked h5).then_clocked h6)
  refine .next (M.setReg_run d _ r6) (.next (M.pc_run _) (.emit ?_))
  rw [Run.emit_s, wrote_state]
  exact ⟨storeFrame_of _ g (atomicBytes_length length) all, fun q => withReg_reg (fun q => (all.1.regs q).trans (by rw [g.hart])) d _ q⟩

/-- An atomic whose new value is that of the rule does what the rule says. -/
theorem swaps_of {i : Instr} {op : Nat} {dw sc : Bool} {d a b : Reg} {new : Nat → Option Nat} (he : exec i s = exec1 s (scalarAtomic op dw sc d a b))
    (hnew : ∀ old < 2 ^ (8 * if dw then 8 else 4), atomicNew op (if dw then 8 else 4) old (s.hart.reg b).toNat (s.hart.reg d).toNat = new old) :
    Swaps s i sc (if dw then 8 else 4) d a new := by
  intro acc bs hal hacc served plain flying drained hseen
  have hn : (if dw then 8 else 4) ∈ [1, 2, 4, 8] := by cases dw <;> decide
  obtain ⟨r, checks, granted⟩ := M.checkOr_granted (s.hart.reg a) _ .atomic (Run.start s) acc hal hacc
  obtain ⟨_, r', run, frame, regs⟩ := atomicGranted_ends (op := op) (d := d) (b := b) (va := s.hart.reg a) granted hn served plain flying drained hseen
  have length : bs.length = if dw then 8 else 4 :=
    (seen_memory plain.mem hseen).2 ▸ (InLine.of_aligned hn served.aligned).liveBytes_length acc.leaf.ww
  rw [atomicBytes, hnew _ (length ▸ ofBytes_lt bs)] at frame
  exact ⟨r'.s, exec_of_run he ((atomic_begins served.turn).trans ((M.bind_ok checks).trans run)) rfl, frame, regs⟩

/-- A bit pattern and its low bits are the same signed value. -/
theorem toSigned_mod (w v : Nat) : toSigned w (v % 2 ^ w) = toSigned w v := by
  rw [toSigned, toSigned]
  congr 1
  exact BitVec.eq_of_toNat_eq (by simp)

/-- Two patterns of a width with one signed value are the same. -/
theorem toSigned_inj {w x y : Nat} (hx : x < 2 ^ w) (hy : y < 2 ^ w) (h : toSigned w x = toSigned w y) : x = y := by
  have same := congrArg BitVec.toNat (BitVec.toInt_inj.1 h)
  rwa [BitVec.toNat_ofNat, BitVec.toNat_ofNat, Nat.mod_eq_of_lt hx, Nat.mod_eq_of_lt hy] at same

/-- The larger of two patterns by signed value, whichever is named where the values are equal. -/
theorem signedMax_eq {w x y : Nat} (hx : x < 2 ^ w) (hy : y < 2 ^ w) :
    (if toSigned w x < toSigned w y then y else x) = if toSigned w x ≤ toSigned w y then y else x := by
  rcases lt_trichotomy (toSigned w x) (toSigned w y) with h | h | h
  · rw [if_pos h, if_pos h.le]
  · rw [if_neg h.not_lt, if_pos h.le, toSigned_inj hx hy h]
  · rw [if_neg h.not_gt, if_neg h.not_ge]

end Sys2Proof.Machine

namespace Sys2Proof.Proofs

/-- Settles O3: an atomic runs as one part, and each operation's new value is that of its rule. -/
theorem atomicsReadModifyWrite : Obligations.AtomicsReadModifyWrite := by
  intro s dw sc d a b n m y z sgn
  have signed : toSigned (8 * n) (s.hart.reg b).toNat = toSigned (8 * n) y := (toSigned_mod _ _).symm
  have low : y < 2 ^ (8 * n) := Nat.mod_lt _ (Nat.two_pow_pos _)
  have smaller (old : Nat) : atomicNew 5 n old (s.hart.reg b).toNat (s.hart.reg d).toNat = some (if sgn old ≤ sgn y then old else y) := by
    simp only [atomicNew, signed, ← not_le, ite_not]
    rfl
  have larger (old : Nat) (h : old < 2 ^ (8 * n)) :
      atomicNew 6 n old (s.hart.reg b).toNat (s.hart.reg d).toNat = some (if sgn old ≤ sgn y then y else old) := by
    simp only [atomicNew, signed]
    exact congrArg some (signedMax_eq h low)
  exact ⟨swaps_of rfl fun old _ => congrArg some (Nat.add_mod_mod old _ m).symm, swaps_of rfl fun _ _ => rfl, swaps_of rfl fun _ _ => rfl,
    swaps_of rfl fun _ _ => rfl, swaps_of rfl fun _ _ => rfl, swaps_of rfl fun old _ => smaller old, swaps_of rfl larger,
    swaps_of rfl fun old _ => congrArg some Nat.min_def, swaps_of rfl fun old _ => congrArg some Nat.max_def, swaps_of rfl fun _ _ => rfl⟩

end Sys2Proof.Proofs
end

section
/-!
PROOFS. Integer vector arithmetic (R118): what each operation makes of two patterns under the type of the word, as the rule writes it.
-/

open Sys2Proof Sys2Proof.Machine Sys2Proof.Claim

namespace Sys2Proof.Machine

/-- The value of a pattern under a type (R42). -/
def typed (t : BitVec 4) {w : Nat} (x : BitVec w) : Int := if t.toNat < 4 then x.toInt else x.toNat

/-! ## The operations whose signedness follows the type -/

section

variable {w : Nat} (t : BitVec 4) (a b : BitVec w)

theorem tySigned_eq : tySigned t = decide (t.toNat < 4) := rfl

theorem byType_eq {α : Type} (x y : α) : byType t x y = if t.toNat < 4 then x else y := by
  simp only [byType, tySigned_eq, decide_eq_true_eq]

theorem byType_mulh : byType t (opMulh a b) (opMulhu a b) = BitVec.ofInt w (typed t a * typed t b / 2 ^ w) := by
  rw [byType_eq, typed, typed]
  split
  · rfl
  · rw [opMulhu, ← BitVec.ofInt_natCast]
    push_cast
    rfl

/-- The quotient toward zero, all ones for a zero divisor (R88). -/
def quotOf (t : BitVec 4) (a b : BitVec w) : BitVec w :=
  if b = 0 then BitVec.allOnes w else BitVec.ofInt w ((typed t a).tdiv (typed t b))

theorem quotOf_eq : quotOf t a b = byType t (opDiv a b) (opDivu a b) := by
  rw [byType_eq, quotOf, typed, typed]
  split
  next zero => simp only [opDiv, opDivu, if_pos zero, ite_self]
  next nonzero => simp only [opDiv, opDivu, if_neg nonzero, ← BitVec.ofInt_natCast]; split <;> rfl

theorem byType_rem : byType t (opRem a b) (opRemu a b) = a - b * quotOf t a b := by
  rw [quotOf_eq, byType_eq, byType_eq, opRem, opRemu]
  by_cases zero : b = 0
  · simp [zero]
  · simp only [if_neg zero]
    split <;> rfl

theorem byType_min : byType t (opMin a b) (opMinu a b) = if typed t a ≤ typed t b then a else b := by
  rw [byType_eq, opMin_eq, opMinu_eq, typed, typed]
  split
  · rfl
  · simp only [Int.ofNat_le]

theorem byType_max : byType t (opMax a b) (opMaxu a b) = if typed t a ≤ typed t b then b else a := by
  rw [byType_eq, opMax_eq, opMaxu_eq, typed, typed]
  split
  · rfl
  · simp only [Int.ofNat_le]

theorem tyInt_toNat : tyInt t w a.toNat = typed t a := by
  simp only [tyInt, typed, tySigned_eq, decide_eq_true_eq, toSigned, BitVec.ofNat_toNat, BitVec.setWidth_eq, Nat.mod_eq_of_lt a.isLt]

/-- The nearest value of a range. -/
theorem nearest_eq {lo hi : Int} (v : Int) (h : lo ≤ hi) : (if v < lo then lo else if v > hi then hi else v) = max lo (min hi v) := by
  split
  next below => rw [min_eq_right (below.le.trans h), max_eq_left below.le]
  next inside =>
    split
    next above => rw [min_eq_left (le_of_lt above), max_eq_right h]
    next within => rw [min_eq_right (not_lt.mp within), max_eq_right (not_lt.mp inside)]

/-- A sum or difference kept to the type's range. -/
theorem satOp_eq (v : Int) : satOp t w v = BitVec.ofInt w (max (if t.toNat < 4 then -(2 ^ (w - 1)) else 0)
    (min (if t.toNat < 4 then 2 ^ (w - 1) - 1 else 2 ^ w - 1) v)) := by
  have half : (0 : Int) < 2 ^ (w - 1) := Int.pow_pos (by decide)
  have all : (0 : Int) < 2 ^ w := Int.pow_pos (by decide)
  simp only [satOp, clampInt, tySigned_eq, decide_eq_true_eq]
  rw [nearest_eq]
  split <;> omega

theorem satOp_add : satOp t w (tyInt t w a.toNat + tyInt t w b.toNat)
    = BitVec.ofInt w (max (if t.toNat < 4 then -(2 ^ (w - 1)) else 0)
      (min (if t.toNat < 4 then 2 ^ (w - 1) - 1 else 2 ^ w - 1) (typed t a + typed t b))) := by
  rw [tyInt_toNat, tyInt_toNat, satOp_eq]

theorem satOp_sub : satOp t w (tyInt t w a.toNat - tyInt t w b.toNat)
    = BitVec.ofInt w (max (if t.toNat < 4 then -(2 ^ (w - 1)) else 0)
      (min (if t.toNat < 4 then 2 ^ (w - 1) - 1 else 2 ^ w - 1) (typed t a - typed t b))) := by
  rw [tyInt_toNat, tyInt_toNat, satOp_eq]

/-- The sign of a pattern of a signed type is its top bit. -/
theorem abs_eq : (if tySigned t && a.msb then -a else a) = if typed t a < 0 then -a else a := by
  rw [tySigned_eq, typed, BitVec.msb_eq_toInt]
  by_cases signed : t.toNat < 4
  · simp [signed]
  · have nonneg : ¬ (a.toNat : Int) < 0 := by omega
    simp [signed]

end

/-! ## Words of one integer operation -/

/-- Element e of vd becomes an operation of the elements of va, of the second operand and of vd, as patterns of the type's width. -/
def integerwise (s : State) (f : VWord) (g : BitVec (tyBits f.ty) → BitVec (tyBits f.ty) → BitVec (tyBits f.ty) → BitVec (tyBits f.ty)) : State :=
  elementwise s f (tyBits f.ty) fun e =>
    (g (BitVec.ofNat _ (el s f.va (tyBits f.ty) e)) (BitVec.ofNat _ (second s f (tyBits f.ty) e))
      (BitVec.ofNat _ (el s f.vd (tyBits f.ty) e))).toNat

theorem intOp_vexec {s : State} {f : VWord} {g : (w : Nat) → BitVec w → BitVec w → BitVec w → BitVec w}
    (op : BitVec (tyBits f.ty) → BitVec (tyBits f.ty) → BitVec (tyBits f.ty) → BitVec (tyBits f.ty))
    (legal : Claim.Legal s f (tyBits f.ty) ([f.vd, f.va] ++ bOf f)) (hop : ∀ a b c, g (tyBits f.ty) a b c = op a b c) :
    vexec s (fun env => intOp f env g) = .next (integerwise s f op) := by
  obtain rfl : g (tyBits f.ty) = op := by funext a b c; exact hop a b c
  refine vexec_putVec legal.free ?_
  rw [intOp, M.bind_ok (M.arithCheck_legal M.threaded legal), M.bind_ok (M.operandB_run _ _ _), M.bind_ok (M.vec_run _)]
  rfl

theorem vabs_exec {s : State} {f : VWord} (legal : Claim.Legal s f (tyBits f.ty) [f.vd, f.va]) :
    exec (.vabs f) s = .next (integerwise s f fun a _ _ => if typed f.ty a < 0 then -a else a) :=
  intOp_vexec (f := oneSrc f) (fun a _ _ => if typed f.ty a < 0 then -a else a) (legal_oneSrc legal) fun a _ _ => abs_eq f.ty a

end Sys2Proof.Machine

namespace Sys2Proof.Proofs

/-- Settles O20: the words share one meaning, `intOp`, and differ in the operation, which `byType_mulh` to `abs_eq` bring into the form of R118. -/
theorem integerVectorOperationsWriteTheirElements : Obligations.IntegerVectorOperationsWriteTheirElements := by
  intro s f w sg val lo hi quot runs
  refine ⟨fun legal => ?_, vabs_exec⟩
  refine ⟨?_, ?_, ?_, ?_, ?_, ?_, ?_, ?_, ?_, ?_, ?_, ?_, ?_, ?_, ?_, ?_, ?_⟩
  · exact intOp_vexec (fun x y _ => x + y) legal fun _ _ _ => rfl
  · exact intOp_vexec (fun x y _ => x - y) legal fun _ _ _ => rfl
  · exact intOp_vexec (fun x y _ => x * y) legal fun _ _ _ => rfl
  · exact intOp_vexec (fun x y _ => BitVec.ofInt w (val x * val y / 2 ^ w)) legal fun x y _ => byType_mulh f.ty x y
  · exact intOp_vexec (fun x y z => x * y + z) legal fun _ _ _ => rfl
  · exact intOp_vexec (fun x y _ => quot x y) legal fun x y _ => (quotOf_eq f.ty x y).symm
  · exact intOp_vexec (fun x y _ => x - y * quot x y) legal fun x y _ => byType_rem f.ty x y
  · exact intOp_vexec (fun x y _ => if val x ≤ val y then x else y) legal fun x y _ => byType_min f.ty x y
  · exact intOp_vexec (fun x y _ => if val x ≤ val y then y else x) legal fun x y _ => byType_max f.ty x y
  · exact intOp_vexec (fun x y _ => x &&& y) legal fun _ _ _ => rfl
  · exact intOp_vexec (fun x y _ => x ||| y) legal fun _ _ _ => rfl
  · exact intOp_vexec (fun x y _ => x ^^^ y) legal fun _ _ _ => rfl
  · exact intOp_vexec (fun x y _ => x <<< (y.toNat % w)) legal fun _ _ _ => rfl
  · exact intOp_vexec (fun x y _ => x >>> (y.toNat % w)) legal fun _ _ _ => rfl
  · exact intOp_vexec (fun x y _ => x.sshiftRight (y.toNat % w)) legal fun _ _ _ => rfl
  · exact intOp_vexec (fun x y _ => BitVec.ofInt w (max lo (min hi (val x + val y)))) legal fun x y _ => satOp_add f.ty x y
  · exact intOp_vexec (fun x y _ => BitVec.ofInt w (max lo (min hi (val x - val y)))) legal fun x y _ => satOp_sub f.ty x y

end Sys2Proof.Proofs
end

section
/-!
PROOFS. The permutes, moves and index generation (R129 to R131): what a permute checks, and the elements or blocks that it moves.
-/

open Sys2Proof Sys2Proof.Machine Sys2Proof.Claim

namespace Sys2Proof.Machine

/-- A map over a list that was made with indices. -/
theorem map_mapIdx {α β γ : Type} (f : Nat → α → β) (g : β → γ) (l : List α) : (l.mapIdx f).map g = l.mapIdx fun i a => g (f i a) := by
  rw [List.mapIdx_eq_zipIdx_map, List.mapIdx_eq_zipIdx_map, List.map_map]
  rfl

/-! ## Checks and offsets -/

/-- A permute of elements passes its checks where it is legal. -/
theorem permCheck_elems {s : State} {f : VWord} {rs : List Reg} (elems : f.ty ≠ 14) (legal : Claim.Legal s f (tyBits f.ty) rs) :
    permCheck f (stripEnv s) rs (Run.start s) = .ok (⟨⟩, Run.start s) := by
  rw [permCheck, M.bind_ok (M.modeCheck_legal M.plain legal.mode), M.bind_ok (M.needSew_run _ legal.sew),
    M.bind_ok (M.needGroups_run _ legal.groups), M.bind_ok (M.needUnit_run _ legal.unit), if_neg elems]
  rfl

/-- The whole blocks of fp4 in the length of the strip (R77). -/
structure WholeBlocks (s : State) : Prop where
  whole : blockCount true s.hart.sr.vl.toNat % 16 = 0
  fits : blockCount true s.hart.sr.vl.toNat ≤ 16 * blocksPerReg true * s.hart.sr.vgrp.n

/-- A permute of fp4 checks the blocks of its length too. -/
theorem permCheck_blocks {s : State} {f : VWord} {rs all : List Reg} (fp4 : f.ty = 14) (legal : Claim.Legal s f 8 all)
    (hrs : ∀ r ∈ rs, r ∈ all) (blocks : WholeBlocks s) : permCheck f (stripEnv s) rs (Run.start s) = .ok (⟨⟩, Run.start s) := by
  have width : s.hart.sr.sew.bits = tyBits f.ty := by rw [fp4]; exact legal.sew
  rw [permCheck, M.bind_ok (M.modeCheck_legal M.plain legal.mode), M.bind_ok (M.needSew_run _ width),
    M.bind_ok (M.needGroups_run _ fun r hr => legal.groups r (hrs r hr)), M.bind_ok (M.needUnit_run _ legal.unit), if_pos fp4,
    M.needBlocks_run _ _ blocks.whole blocks.fits]

theorem M.hartVlmax_run {s0 : State} (r : Run s0) : (M.hartVlmax : M s0 Nat) r
    = .ok (vlmax r.s.hart.sr.sew r.s.hart.sr.vgrp r.s.hart.id.cap, r) := rfl

/-- The offset of a slide: a snapshotted scalar or the immediate (R129). -/
def slideOf (s : State) (f : VWord) : Nat :=
  if f.x.getLsbD 17 then (snapped s (f.x.toNat % 32)).toNat else f.x.toNat % 8192

theorem slideOffset_run {s0 : State} (f : VWord) (r : Run s0) : slideOffset f r = .ok (slideOf r.s f, r) := by
  rw [slideOffset, slideOf, M.ite_run]
  split
  · rw [M.bind_ok (M.snap_run _ _)]
    rfl
  · rfl

/-! ## Moved units -/

section

variable {s : State} {f : VWord}

/-- The state after a permute: each listed unit of vd becomes a unit of the sources, or zeros. -/
def permuted (s : State) (f : VWord) (ps : List (Nat × Option (Reg × Nat))) : State := vecNext s (s.hart.vec.putMoved f ps)

/-- With another type than fp4 the units are elements (R129). -/
theorem permuted_elems (elems : f.ty ≠ 14) {ps : List (Nat × Option (Reg × Nat))} {l : List (Nat × Nat)}
    (hl : (ps.map fun p => (p.1, match p.2 with
      | none => 0
      | some (r, i) => el s r (tyBits f.ty) i)) = l) :
    permuted s f ps = vecNext s (l.foldl (fun acc p => acc.setElem f.vd.toNat (tyBits f.ty) p.1 p.2) s.hart.vec) := by
  rw [permuted, ← hl, List.foldl_map, VecState.putMoved]
  refine congrArg (fun g => vecNext s (ps.foldl g s.hart.vec)) ?_
  funext acc ⟨d, src⟩
  cases src <;> exact if_neg elems

/-- A block of vd becomes a block of a source with its scale (R129). -/
def blockMoved (s : State) (f : VWord) (acc : VecState) (d : Nat) (r : Reg) (i : Nat) : VecState :=
  acc.putBlock true f.vd.toNat d (s.hart.vec.blockScale true r.toNat i) fun k => s.hart.vec.blockElem true r.toNat i k

/-- With type fp4 the units are blocks with their scales (R129). -/
theorem permuted_blocks (fp4 : f.ty = 14) (ps : List (Nat × Option (Reg × Nat))) :
    permuted s f ps = vecNext s (ps.foldl (fun acc p => match p.2 with
      | none => acc.putBlock true f.vd.toNat p.1 0 fun _ => 0
      | some (r, i) => blockMoved s f acc p.1 r i) s.hart.vec) := by
  rw [permuted, VecState.putMoved]
  refine congrArg (fun g => vecNext s (ps.foldl g s.hart.vec)) ?_
  funext acc ⟨d, src⟩
  cases src <;> exact if_pos fp4

theorem movedElems_elems (elems : f.ty ≠ 14) : movedElems f (stripEnv s) s.hart.vec = acted s f := if_neg elems

theorem movedElems_blocks (fp4 : f.ty = 14) : movedElems f (stripEnv s) s.hart.vec = actedBlocks s f true := by
  rw [movedElems, if_pos fp4, stripEnv_blocks]

/-! ## The words -/

/-- A word that passes the checks of a permute on these operands. -/
structure Permutes (s : State) (f : VWord) (rs : List Reg) : Prop where
  free : Unguarded s
  check : permCheck f (stripEnv s) rs (Run.start s) = .ok (⟨⟩, Run.start s)

/-- The units of the length of the strip. -/
def unitsOf (s : State) (f : VWord) : Nat := moved f s.hart.sr.vl.toNat

theorem vperm_exec (h : Permutes s f ([f.vd, f.va] ++ bOf f)) :
    exec (.vperm f) s = .next (permuted s f ((movedElems f (stripEnv s) s.hart.vec).map fun e =>
      (e, if second s f (tyBits f.ty) e % 2 ^ tyBits f.ty
          < (if f.ty = 14 then min (moved f (vlmax s.hart.sr.sew s.hart.sr.vgrp s.hart.id.cap)) (blocksPerReg true * s.hart.sr.vgrp.n)
            else vlmax s.hart.sr.sew s.hart.sr.vgrp s.hart.id.cap)
        then some (f.va, second s f (tyBits f.ty) e % 2 ^ tyBits f.ty) else none))) := by
  have check : permCheck f (stripEnv s) ([f.vd, f.va] ++ M.bRegs f) (Run.start s) = .ok (⟨⟩, Run.start s) := h.check
  refine vexec_putVec (core := vpermCore f) h.free ?_
  rw [vpermCore, M.bind_ok check, M.bind_ok (M.operandB_run _ _ _), M.bind_ok (M.vec_run _), M.bind_ok (M.hart_run _),
    M.bind_ok (M.hartVlmax_run _)]
  rfl

theorem vslup_exec (h : Permutes s f [f.vd, f.va, f.vb]) :
    exec (.vslup f) s = .next (permuted s f ((movedElems f (stripEnv s) s.hart.vec).map fun e =>
      (e, some (if e ≥ min (slideOf s f) (unitsOf s f) then (f.va, e - min (slideOf s f) (unitsOf s f))
        else (f.vb, unitsOf s f - min (slideOf s f) (unitsOf s f) + e))))) := by
  refine vexec_putVec (core := vslupCore f) h.free ?_
  rw [vslupCore, M.bind_ok h.check, M.bind_ok (M.hart_run _), M.bind_ok (slideOffset_run _ _), M.bind_ok (M.vec_run _)]
  rfl

theorem vsldn_exec (h : Permutes s f [f.vd, f.va, f.vb]) :
    exec (.vsldn f) s = .next (permuted s f ((movedElems f (stripEnv s) s.hart.vec).map fun e =>
      (e, some (if e + min (slideOf s f) (unitsOf s f) < unitsOf s f then (f.va, e + min (slideOf s f) (unitsOf s f))
        else (f.vb, e + min (slideOf s f) (unitsOf s f) - unitsOf s f))))) := by
  refine vexec_putVec (core := vsldnCore f) h.free ?_
  rw [vsldnCore, M.bind_ok h.check, M.bind_ok (M.hart_run _), M.bind_ok (slideOffset_run _ _), M.bind_ok (M.vec_run _)]
  rfl

theorem vcompress_exec (h : Permutes s f [f.vd, f.va]) :
    exec (.vcompress f) s = .next (permuted s f ((movedElems f (stripEnv s) s.hart.vec).mapIdx fun i e => (i, some (f.va, e)))) := by
  refine vexec_putVec (core := vcompressCore f) h.free ?_
  rw [vcompressCore, M.bind_ok h.check, M.bind_ok (M.vec_run _)]
  rfl

theorem vexpand_exec (h : Permutes s f [f.vd, f.va]) :
    exec (.vexpand f) s = .next (permuted s f ((movedElems f (stripEnv s) s.hart.vec).mapIdx fun i e => (e, some (f.va, i)))) := by
  refine vexec_putVec (core := vexpandCore f) h.free ?_
  rw [vexpandCore, M.bind_ok h.check, M.bind_ok (M.vec_run _)]
  rfl

theorem vmv_exec (legal : Claim.Legal s f (tyBits f.ty) (f.vd :: bOf f) true) :
    exec (.vmv f) s = .next (elementwise s f (tyBits f.ty) (second s f (tyBits f.ty))) := by
  have check : M.arithCheck (stripEnv s) M.anywhere f (some f.vd) [] (Run.start s) = .ok (⟨⟩, Run.start s) :=
    M.arithCheck_run (M.modeCheck_legal M.anywhere legal.mode) legal
  refine vexec_putVec (core := vmvCore f) legal.free ?_
  rw [vmvCore, M.bind_ok check, M.bind_ok (M.operandB_run _ _ _), M.bind_ok (M.vec_run _)]
  rfl

theorem vid_exec (legal : Claim.Legal s { f with rep := false } (tyBits f.ty) [f.vd]) :
    exec (.vid f) s = .next (elementwise s f (tyBits f.ty) fun e => (s.hart.sr.sb.toNat + e) % 2 ^ tyBits f.ty) := by
  refine vexec_putVec (core := vidCore f) legal.free ?_
  rw [vidCore, M.bind_ok (M.modeCheck_legal M.threaded legal.mode), M.bind_ok (M.needSew_run _ legal.sew),
    M.bind_ok (M.needGroups_run _ legal.groups), M.bind_ok (M.vec_run _), M.bind_ok (M.sbase_run _)]
  rfl

end

end Sys2Proof.Machine

namespace Sys2Proof.Proofs

variable {s : State} {f : VWord}

/-! ## Permutes of elements -/

theorem vperm_elems (elems : f.ty ≠ 14) (legal : Claim.Legal s f (tyBits f.ty) ([f.vd, f.va] ++ bOf f)) :
    exec (.vperm f) s = .next (vecNext s (((acted s f).map fun e =>
      (e, if second s f (tyBits f.ty) e % 2 ^ tyBits f.ty < vlmax s.hart.sr.sew s.hart.sr.vgrp s.hart.id.cap
        then el s f.va (tyBits f.ty) (second s f (tyBits f.ty) e % 2 ^ tyBits f.ty) else 0)).foldl
          (fun acc p => acc.setElem f.vd.toNat (tyBits f.ty) p.1 p.2) s.hart.vec)) := by
  rw [vperm_exec ⟨legal.free, permCheck_elems elems legal⟩, movedElems_elems elems]
  refine congrArg Host.Outcome.next (permuted_elems elems ?_)
  rw [List.map_map]
  refine List.map_congr_left fun e _ => ?_
  simp only [Function.comp, if_neg elems]
  by_cases inside : second s f (tyBits f.ty) e % 2 ^ tyBits f.ty < vlmax s.hart.sr.sew s.hart.sr.vgrp s.hart.id.cap
  · simp only [if_pos inside]
  · simp only [if_neg inside]

/-- A slide takes each element from one of two registers. -/
theorem permuted_slide (elems : f.ty ≠ 14) (es : List Nat) (first : Nat → Prop) [DecidablePred first] (r q : Reg) (i j : Nat → Nat) :
    permuted s f (es.map fun e => (e, some (if first e then (r, i e) else (q, j e))))
      = vecNext s ((es.map fun e => (e, if first e then el s r (tyBits f.ty) (i e) else el s q (tyBits f.ty) (j e))).foldl
        (fun acc p => acc.setElem f.vd.toNat (tyBits f.ty) p.1 p.2) s.hart.vec) := by
  refine permuted_elems elems ?_
  rw [List.map_map]
  refine List.map_congr_left fun e _ => ?_
  simp only [Function.comp]
  split <;> rfl

theorem unitsOf_elems (elems : f.ty ≠ 14) : unitsOf s f = s.hart.sr.vl.toNat := if_neg elems

theorem unitsOf_blocks (fp4 : f.ty = 14) : unitsOf s f = 2 * s.hart.sr.vl.toNat / 16 := if_pos fp4

/-! ## Permutes of blocks -/

/-- Blocks with a source each. -/
theorem permuted_sources (fp4 : f.ty = 14) (l : List (Nat × Reg × Nat)) :
    permuted s f (l.map fun p => (p.1, some p.2)) = vecNext s (l.foldl (fun acc p => blockMoved s f acc p.1 p.2.1 p.2.2) s.hart.vec) := by
  rw [permuted_blocks fp4, List.foldl_map]

theorem vperm_blocks (fp4 : f.ty = 14) (h : Permutes s f ([f.vd, f.va] ++ bOf f)) :
    exec (.vperm f) s = .next (vecNext s ((actedBlocks s f true).foldl (fun acc b =>
      if second s f 8 b % 2 ^ 8
        < min (2 * vlmax s.hart.sr.sew s.hart.sr.vgrp s.hart.id.cap / 16) (blocksPerReg true * s.hart.sr.vgrp.n)
      then blockMoved s f acc b f.va (second s f 8 b % 2 ^ 8) else acc.putBlock true f.vd.toNat b 0 fun _ => 0) s.hart.vec)) := by
  have width : tyBits f.ty = 8 := by rw [fp4]; rfl
  have count (n : Nat) : moved f n = 2 * n / 16 := if_pos fp4
  rw [vperm_exec h, movedElems_blocks fp4, permuted_blocks fp4, List.foldl_map, width, if_pos fp4, count]
  refine congrArg (fun g => Host.Outcome.next (vecNext s ((actedBlocks s f true).foldl g s.hart.vec))) ?_
  funext acc b
  by_cases inside : second s f 8 b % 2 ^ 8
      < min (2 * vlmax s.hart.sr.sew s.hart.sr.vgrp s.hart.id.cap / 16) (blocksPerReg true * s.hart.sr.vgrp.n)
  · simp only [if_pos inside]
  · simp only [if_neg inside]

/-- Settles O25: the words share one meaning, `permuted`, on elements or on blocks, and name the unit that each performed unit takes.
Two choices of the model stand in it: the immediate of `vperm` with fp4 (log 105) and that of `vmv` (log 104). -/
theorem permutesMoveElementsAndBlocks : Obligations.PermutesMoveElementsAndBlocks := by
  constructor
  · intro s f w vl top off put
    refine ⟨vperm_elems, fun elems legal => ?_, fun elems legal => ?_, vmv_exec, vid_exec⟩
    · have slides : Permutes s f [f.vd, f.va, f.vb] := ⟨legal.free, permCheck_elems elems legal⟩
      rw [vslup_exec slides, vsldn_exec slides, movedElems_elems elems, permuted_slide elems, permuted_slide elems, unitsOf_elems elems]
      exact ⟨rfl, rfl⟩
    · have packs : Permutes s f [f.vd, f.va] := ⟨legal.free, permCheck_elems elems legal⟩
      rw [vcompress_exec packs, vexpand_exec packs, movedElems_elems elems]
      exact ⟨congrArg Host.Outcome.next (permuted_elems elems (map_mapIdx ..)),
        congrArg Host.Outcome.next (permuted_elems elems (map_mapIdx ..))⟩
  · intro s f fp4 legal vs n count off bs put whole fits
    have permutes (rs : List Reg) (hrs : ∀ r ∈ rs, r ∈ [f.vd, f.va, f.vb] ++ bOf f) : Permutes s f rs :=
      ⟨legal.free, permCheck_blocks fp4 legal hrs ⟨whole, fits⟩⟩
    have slides : Permutes s f [f.vd, f.va, f.vb] := permutes _ (by simp)
    have packs : Permutes s f [f.vd, f.va] := permutes _ (by simp)
    have gathers : Permutes s f ([f.vd, f.va] ++ bOf f) := permutes _ (by simp; tauto)
    have moves {l : List (Nat × Reg × Nat)} {ps : List (Nat × Option (Reg × Nat))} (hl : (l.map fun p => (p.1, some p.2)) = ps) :
        Host.Outcome.next (permuted s f ps) = (.next (put l) : Host.Outcome State Fault Refusal) := by
      rw [← hl, permuted_sources fp4]
      rfl
    refine ⟨?_, ?_, ?_, ?_, vperm_blocks fp4 gathers⟩
    · rw [vslup_exec slides, movedElems_blocks fp4, unitsOf_blocks fp4]
      exact moves (l := bs.map fun b => (b, if b ≥ off then (f.va, b - off) else (f.vb, count - off + b))) (List.map_map ..)
    · rw [vsldn_exec slides, movedElems_blocks fp4, unitsOf_blocks fp4]
      exact moves (l := bs.map fun b => (b, if b + off < count then (f.va, b + off) else (f.vb, b + off - count))) (List.map_map ..)
    · rw [vcompress_exec packs, movedElems_blocks fp4]
      exact moves (l := bs.mapIdx fun i b => (i, f.va, b)) (map_mapIdx ..)
    · rw [vexpand_exec packs, movedElems_blocks fp4]
      exact moves (l := bs.mapIdx fun i b => (b, f.va, i)) (map_mapIdx ..)

end Sys2Proof.Proofs
end

section
/-!
PROOFS. Words that are not legal in matrix mode (R115, R172, R303, R331): the check that each of them fails, and the trap of the vector stream.
-/

open Sys2Proof Sys2Proof.Machine Sys2Proof.Claim

namespace Sys2Proof.Machine

variable {s : State} {c : LoopCtx} {α : Type}

/-! ## The trap of a block -/

/-- With no handler running the trap of a block forms the held image and enters the handler (R303). -/
theorem M.vecTrapWith_block {s0 : State} {r : Run s0} (c : BitVec 8) (v a : Word) (k : LoopCtx) (rest : List QEntry)
    (threads : k.threads = none) (blk : r.s.hart.sr.status.blk = false) (tvec : r.s.hart.sr.tvec ≠ 0) :
    ∃ r', M.vecTrapWith c v a (some k) false [] rest r = .ok (⟨⟩, r') ∧ r'.s = held r.s c v a (some k) rest k.stop.isSome := by
  let h1 : Hart := { r.s.hart with
    ctx := none, queue := [], wait := .none,
    held := some { ctx := some k.stopped, behind := rest, resume := if r.s.hart.wait = .idle then r.s.hart.pc + 4 else r.s.hart.pc },
    sr := { r.s.hart.sr with status := { r.s.hart.sr.status with blk := true, spl := false, xf := k.stop.isSome } } }
  obtain ⟨r', traps, state⟩ := M.takeTrap_run c v a true (r.emit (.hart h1)) tvec
  refine ⟨r', ?_, state⟩
  simp only [M.vecTrapWith, M.bind_run, M.hart_run, blk, Bool.false_eq_true, if_false, M.modHart_run, beq_iff_eq, threads]
  exact traps

/-- With no handler running the trap of a marked block is set aside (R303). -/
theorem M.vecTrapWith_aside {s0 : State} {r : Run s0} (c : BitVec 8) (v a : Word) (k : LoopCtx) (rest : List QEntry)
    (threads : k.threads = none) (blk : r.s.hart.sr.status.blk = false) :
    ∃ r', M.vecTrapWith c v a (some k) true [] rest r = .ok (⟨⟩, r') ∧ r'.s = { r.s with hart := { r.s.hart with
      ctx := none, queue := rest.filter (fun e => !e.mark),
      aside := some { cause := c, tval := v, epc := a, ctx := some k.stopped, behind := rest.filter (·.mark), spl := false,
                      xf := k.stop.isSome } } } := by
  refine ⟨r.emit (.hart { r.s.hart with
      ctx := none, queue := rest.filter (fun e => !e.mark),
      aside := some { cause := c, tval := v, epc := a, ctx := some k.stopped, behind := rest.filter (·.mark), spl := false,
                      xf := k.stop.isSome } }), ?_, rfl⟩
  simp only [M.vecTrapWith, M.bind_run, M.hart_run, blk, Bool.false_eq_true, if_false, if_true, M.modHart_run, threads]
  rfl

/-- A second held image kills the hart (R303). -/
theorem M.vecTrapWith_kills {s0 : State} {r : Run s0} (c : BitVec 8) (v a : Word) (ctx : Option LoopCtx) (mark : Bool)
    (behind rest : List QEntry) (blk : r.s.hart.sr.status.blk = true) :
    M.vecTrapWith c v a ctx mark behind rest r = M.killHart c r := by
  simp only [M.vecTrapWith, M.bind_run, M.hart_run, blk, if_true]

/-! ## The trap of the executing word -/

/-- The executing word of a block, and its address. -/
def LoopCtx.word (c : LoopCtx) : Word := c.words.getD c.idx 0

/-- A block stands at a word outside a region, no other strip of it runs, and nothing holds a trap up. -/
structure AtWord (s : State) (c : LoopCtx) : Prop where
  free : Unguarded s
  ctx : s.hart.ctx = some c
  threads : c.threads = none
  parked : c.parked = []
  idle : Idle s
  between : Between s

theorem M.vecWord_run (h : AtWord s c) : M.vecWord (Run.start s) = .ok (c.word, Run.start s) := by
  simp only [M.vecWord, M.bind_run, M.hart_run, Run.start_s, h.ctx]
  rfl

theorem M.vecTrapNow_run (h : AtWord s c) (cause : BitVec 8) (v : Word) :
    M.vecTrapNow cause v (Run.start s) = M.vecTrapWith cause v (c.addr c.idx) (some c) c.entry.mark [] s.hart.queue (Run.start s) := by
  have addr : M.vecAddr (Run.start s) = .ok (c.addr c.idx, Run.start s) := by
    simp only [M.vecAddr, M.bind_run, M.hart_run, Run.start_s, h.ctx, LoopCtx.at, h.threads]
    rfl
  rw [M.vecTrapNow, M.bind_ok (M.needTransfers_run h.idle), M.bind_ok (M.atBoundary_run h.between), M.bind_ok addr,
    M.bind_ok (M.hart_run _)]
  simp only [Run.start_s, h.ctx, h.parked, List.isEmpty_nil, if_true]

/-- A word that is not legal takes its trap and ends the step (R320). -/
theorem M.illegal_run (h : AtWord s c) {r : Run s} (traps : M.vecTrapNow 0x02 c.word (Run.start s) = .ok (⟨⟩, r)) :
    (M.illegal (stripEnv s) : M s α) (Run.start s) = .error r := by
  have strip : (stripEnv s).probe = false ∧ (stripEnv s).region = false := ⟨rfl, rfl⟩
  rw [M.illegal, M.bind_ok (M.vecWord_run h), M.vecTrap]
  simp only [strip, Bool.false_and, Bool.false_eq_true, if_false, M.bind_run, traps]
  rfl

/-! ## Words that matrix mode refuses -/

/-- In matrix mode a word takes its trap at its first check and ends the step there. -/
structure MatrixRefuses (s : State) (r : Run s) : Prop where
  mode : s.hart.sr.mmode = true
  illegal : ∀ {β : Type}, (M.illegal (stripEnv s) : M s β) (Run.start s) = .error r

section

variable {r : Run s} {f : VWord} {l : M.Legal} {dest : Option Reg} {rs : List Reg}

theorem MatrixRefuses.modeCheck (h : MatrixRefuses s r) (hl : l.matrix = false) : M.modeCheck (stripEnv s) l dest (Run.start s) = .error r := by
  simp only [M.modeCheck, M.bind_run, M.hart_run, M.ite_run, Run.start_s, h.mode, hl, Bool.not_false, Bool.and_true, if_true, h.illegal]

theorem MatrixRefuses.arithCheck (h : MatrixRefuses s r) (hl : l.matrix = false) : M.arithCheck (stripEnv s) l f dest rs (Run.start s) = .error r :=
  M.bind_error (h.modeCheck hl)

theorem MatrixRefuses.memElems (h : MatrixRefuses s r) (hl : l.matrix = false) (some_ : s.hart.sr.vl ≠ 0) :
    M.memElems (stripEnv s) f l dest rs (Run.start s) = .error r := by
  simp only [M.memElems, M.bind_run, M.hart_run, M.ite_run, Run.start_s, some_, if_false, h.modeCheck hl]

theorem MatrixRefuses.transferCheck (h : MatrixRefuses s r) (some_ : s.hart.sr.vl ≠ 0) :
    M.transferCheck (stripEnv s) f rs (Run.start s) = .error r := by
  simp only [M.transferCheck, M.bind_run, M.hart_run, M.ite_run, Run.start_s, some_, if_false, h.modeCheck (l := M.plain) rfl]

end

/-- A vector word whose core ends the step answers the state there. -/
theorem vexec_end {core : VEnv → M s PUnit} {r : Run s} (h : Unguarded s) (hcore : core (stripEnv s) (Run.start s) = .error r) :
    vexec s core = .next r.s := by
  rw [vexec, exec1_eq, M.bind_ok (M.frame_run _), Run.start_s, M.bind_ok (M.vamoGuard_run _ h), M.bind_error hcore]
  rfl

theorem vexecJump_end {core : VEnv → M s PUnit} {r : Run s} (h : Unguarded s) (hcore : core (stripEnv s) (Run.start s) = .error r) :
    vexecJump s core = .next r.s := by
  rw [vexecJump, exec1_eq, M.bind_ok (M.frame_run _), Run.start_s, M.bind_ok (M.vamoGuard_run _ h), hcore]
  rfl

/-- Words that are not legal in matrix mode, some of each kind (R172). -/
def refusedWords (f : VWord) : List Instr :=
  [.vadd f, .vfsub f, .vcmp f, .vmand f, .vredsum f, .vrand f, .vlds f, .vamo f, .vlsp f, .vgath f, .vavail f, .xroute f, .wmv f, .vbany f,
    .vsplit f, .vbrk f, .vtoq f]

/-- Each of them fails its first check; a memory word with vl = 0 checks nothing (R139). -/
theorem exec_refused {r : Run s} {f : VWord} {i : Instr} (free : Unguarded s) (h : MatrixRefuses s r) (hi : i ∈ refusedWords f)
    (some_ : i ∈ [Instr.vlds f, .vamo f, .vlsp f, .vgath f] → s.hart.sr.vl ≠ 0) : exec i s = .next r.s := by
  simp only [refusedWords, List.mem_cons, List.not_mem_nil, or_false] at hi
  rcases hi with rfl | rfl | rfl | rfl | rfl | rfl | rfl | rfl | rfl | rfl | rfl | rfl | rfl | rfl | rfl | rfl | rfl
  · exact vexec_end (core := vaddCore f) free (M.bind_error (h.arithCheck rfl))
  · exact vexec_end (core := vfsubCore f) free (M.bind_error (h.arithCheck rfl))
  · exact vexec_end (core := vcmpCore f) free (M.bind_error (h.arithCheck rfl))
  · exact vexec_end (core := vmandCore f) free (M.bind_error (h.modeCheck rfl))
  · exact vexec_end (core := vredsumCore f) free (M.bind_error (h.arithCheck rfl))
  · exact vexec_end (core := vrandCore f) free (M.bind_error (h.modeCheck rfl))
  · exact vexec_end (core := vldsCore f) free (M.bind_error (h.memElems rfl (some_ (by simp))))
  · exact vexec_end (core := vamoCore f) free (M.bind_error (h.memElems rfl (some_ (by simp))))
  · exact vexec_end (core := vlspCore f) free (M.bind_error (h.memElems rfl (some_ (by simp))))
  · exact vexec_end (core := vgathCore f) free (M.bind_error (h.transferCheck (some_ (by simp))))
  · exact vexec_end (core := vavailCore f) free (M.bind_error (h.modeCheck rfl))
  · exact vexec_end (core := xrouteCore f) free (M.bind_error (h.modeCheck rfl))
  · exact vexec_end (core := wmvCore f) free (M.bind_error (h.modeCheck rfl))
  · exact vexecJump_end (core := vbanyCore f) free (M.bind_error (h.modeCheck rfl))
  · exact vexecJump_end (core := vsplitCore f) free (M.bind_error (h.modeCheck rfl))
  · exact vexec_end (core := vbrkCore f) free (M.bind_error (h.modeCheck rfl))
  · exact vexec_end (core := vtoqCore f) free (M.bind_error (h.modeCheck rfl))

/-- A refused word leaves the state in which its trap ends. -/
theorem refused_traps {f : VWord} {i : Instr} {r : Run s} (h : AtWord s c) (mode : s.hart.sr.mmode = true) (hi : i ∈ refusedWords f)
    (some_ : i ∈ [Instr.vlds f, .vamo f, .vlsp f, .vgath f] → s.hart.sr.vl ≠ 0)
    (traps : M.vecTrapWith 0x02 c.word (c.addr c.idx) (some c) c.entry.mark [] s.hart.queue (Run.start s) = .ok (⟨⟩, r)) :
    exec i s = .next r.s :=
  exec_refused h.free ⟨mode, M.illegal_run h ((M.vecTrapNow_run h _ _).trans traps)⟩ hi some_

end Sys2Proof.Machine

namespace Sys2Proof.Proofs

/-- Settles O38: each word fails the check of its mode, and the trap forms the held image, is set aside or kills. -/
theorem vectorTrapFormsTheHeldImage : Obligations.VectorTrapFormsTheHeldImage := by
  intro s f c i ctx threads parked idle between hi free mode some_ h v a
  have word : AtWord s c := ⟨free, ctx, threads, parked, idle, between⟩
  refine ⟨fun blk mark tvec => ?_, fun blk mark => ?_, fun blk kexit => ?_⟩
  · obtain ⟨r, traps, state⟩ := M.vecTrapWith_block (r := Run.start s) 0x02 c.word (c.addr c.idx) c s.hart.queue threads blk tvec
    rw [refused_traps word mode hi some_ (mark ▸ traps), state]
    rfl
  · obtain ⟨r, traps, state⟩ := M.vecTrapWith_aside (r := Run.start s) 0x02 c.word (c.addr c.idx) c s.hart.queue threads blk
    rw [refused_traps word mode hi some_ (mark ▸ traps), state]
    rfl
  · obtain ⟨_, r, kills, killed⟩ := M.killHart_ends 0x02 (Run.start s)
    have traps := (M.vecTrapWith_kills 0x02 c.word (c.addr c.idx) (some c) c.entry.mark [] s.hart.queue blk).trans kills
    obtain ⟨vec, state⟩ := killed.goesOn kexit
    refine ⟨r.s, refused_traps word mode hi some_ traps, ?_⟩
    rw [state]
    exact ⟨rfl, rfl, rfl, rfl, rfl, rfl, rfl, rfl⟩

end Sys2Proof.Proofs
end

section
/-!
PROOFS. A line that a vector access opens at its home slice (R9, R90, R138): the copy that it may move or bring in, and that memory shows the same
bytes and the same poison at every width.
-/

open Sys2Proof Sys2Proof.Machine Sys2Proof.Claim

namespace Sys2Proof.Machine

variable {s0 s t : State}

/-! ## Lines of one place -/

/-- Lines in the caches whose home slice is that of a line (R138). -/
def crowd (c : List Line) (la : Nat) : Nat := (c.filter fun l => cachePlace l.addr .l2 == cachePlace la .l2).length

theorem crowd_addrs {c d : List Line} (h : d.map Line.addr = c.map Line.addr) (la : Nat) : crowd d la = crowd c la := by
  have count (c : List Line) : crowd c la = ((c.map Line.addr).filter fun a => cachePlace a .l2 == cachePlace la .l2).length := by
    rw [List.filter_map, List.length_map]
    rfl
  rw [count, h, count]

theorem crowd_putLine (c : List Line) (l : Line) (la : Nat) : crowd (putLine c l) la ≤ crowd c la + 1 := by
  have cons (k : Line) (d : List Line) : crowd (k :: d) la = crowd d la + if cachePlace k.addr .l2 == cachePlace la .l2 then 1 else 0 := by
    rw [crowd, List.filter_cons]
    split <;> simp_all [crowd]
  induction c with
  | nil =>
    rw [putLine, cons]
    split <;> simp
  | cons k ks ih =>
    rw [putLine]
    split
    · rw [cons]
      split <;> omega
    · split
      next same => rw [cons, cons, same]; omega
      next => rw [cons, cons]; omega

/-- A line that is put twice stands where it was put first. -/
theorem putLine_putLine {l k : Line} (h : k.addr = l.addr) (c : List Line) : putLine (putLine c l) k = putLine c k := by
  induction c with
  | nil => simp [putLine, h]
  | cons j js ih =>
    rcases Nat.lt_trichotomy l.addr j.addr with lt | eq | gt
    · simp [putLine, h, lt]
    · simp [putLine, h, eq]
    · simp [putLine, h, Nat.not_lt.mpr gt.le, Nat.ne_of_gt gt, ih]

/-- The caches hold the lines of before at their addresses, with one line put to them at most. -/
def PutOne (la : Nat) (c d : List Line) : Prop :=
  ∃ b, b.map Line.addr = c.map Line.addr ∧ (d = b ∨ ∃ l, l.addr = la ∧ d = putLine b l)

theorem PutOne.refl (la : Nat) (c : List Line) : PutOne la c c := ⟨c, rfl, .inl rfl⟩

theorem PutOne.crowd {la : Nat} {c d : List Line} (h : PutOne la c d) (k : Nat) : crowd d k ≤ crowd c k + 1 := by
  obtain ⟨b, addrs, rfl | ⟨l, -, rfl⟩⟩ := h
  · rw [crowd_addrs addrs]
    exact Nat.le_succ _
  · exact (crowd_putLine b l k).trans (by rw [crowd_addrs addrs])

/-- A copy that is put in the place of the line that was put leaves one line more at most. -/
theorem PutOne.put {la : Nat} {c d : List Line} (h : PutOne la c d) {l : Line} (hl : l.addr = la) : PutOne la c (putLine d l) := by
  obtain ⟨b, addrs, rfl | ⟨k, hk, rfl⟩⟩ := h
  · exact ⟨d, addrs, .inr ⟨l, hl, rfl⟩⟩
  · exact ⟨b, addrs, .inr ⟨l, hl, putLine_putLine (hl.trans hk.symm) b⟩⟩

/-! ## Opening a line -/

/-- The arrays give a line of memory that holds no weights alike for words of both widths (R203, R204). -/
theorem arrayLine_memory {la : Nat} (h : regionOf (64 * la) ≠ .weights) (v w : Bool) : s.arrayLine la v = s.arrayLine la w := by
  simp only [State.arrayLine, beq_iff_eq, if_neg h]

theorem liveLine_memory {la : Nat} (h : regionOf (64 * la) ≠ .weights) (v w : Bool) : s.liveLine la v = s.liveLine la w := by
  simp only [State.liveLine, arrayLine_memory h v w]

/-- A line of memory has been opened: the caches alone have changed, and memory shows the same bytes and the same poison. -/
structure LineOpened (la : Nat) (s t : State) : Prop where
  same : t = { s with img := { s.img with cache := t.img.cache } }
  line : ∀ k ww, t.liveLine k ww = s.liveLine k ww
  poison : ∀ k, t.livePoison k = s.livePoison k
  put : PutOne la s.img.cache t.img.cache

theorem LineOpened.refl (la : Nat) (s : State) : LineOpened la s s := ⟨rfl, fun _ _ => rfl, fun _ => rfl, .refl _ _⟩

theorem LineOpened.trans {la : Nat} {s t u : State} (h : LineOpened la s t) (addrs : t.img.cache.map Line.addr = s.img.cache.map Line.addr)
    (k : LineOpened la t u) : LineOpened la s u := by
  obtain ⟨b, hb, put⟩ := k.put
  exact ⟨by rw [k.same, h.same], fun j v => (k.line j v).trans (h.line j v), fun j => (k.poison j).trans (h.poison j),
    b, hb.trans addrs, put⟩

theorem roomy_cacheRoom {la : Nat} (h : Roomy s la 1) : s.cacheRoom la .l2 = true := by
  refine decide_eq_true (Nat.lt_of_le_of_lt (List.Sublist.length_le (List.monotone_filter_right _ fun l hl => ?_)) h)
  exact (Bool.and_eq_true .. ▸ hl : _ ∧ _).2

/-- A line that is recalled to its home slice keeps what it holds. -/
theorem M.recallLine_opens_line (la : Nat) {p : Path} (r : Run s0) (hp : p.BySlice) (hhost : p.host = false) (room : Roomy r.s la 1) :
    Ends (M.recallLine la p) r fun t => LineOpened la r.s t ∧ t.img.cache.map Line.addr = r.s.img.cache.map Line.addr := by
  have stays : Ends (Pure.pure ⟨⟩ : M s0 PUnit) r fun t => LineOpened la r.s t ∧ t.img.cache.map Line.addr = r.s.img.cache.map Line.addr :=
    .pure ⟨.refl _ _, rfl⟩
  refine .read ?_
  cases findLine r.s.img.cache la with
  | none => exact stays
  | some l =>
    dsimp only
    cases l.level with
    | l1 c =>
      refine .ite (fun through => ?_) fun _ => ?_
      · simp [Path.through, hp.1] at through
      · refine .read (.ite (fun _ => ⟨⟨⟩, _, rfl, ?_⟩) fun full => absurd (Bool.or_eq_true_iff.mpr (.inl (roomy_cacheRoom room))) full)
        have kept := kept_slice r.s la
        exact ⟨⟨rfl, kept.line, kept.poison, _, kept.addrs, .inl rfl⟩, kept.addrs⟩
    | l2 => exact stays
    | l3 =>
      dsimp only
      rw [hhost]
      exact stays
    | host => exact stays

/-- A clean copy of what the arrays give holds what memory shows. -/
theorem lineOpened_fill {l : Line} {la : Nat} {ww : Bool} (hfind : findLine s.img.cache la = none) (haddr : l.addr = la)
    (hdata : l.data = lineOfBytes (s.arrayLine la ww)) (hpoison : l.poison = s.arrayPoison la) (hmem : regionOf (64 * la) ≠ .weights) :
    LineOpened la s (Upd.apply s (.img { s.img with cache := putLine s.img.cache l })) where
  same := rfl
  line k v := by
    by_cases hk : regionOf (64 * k) = .weights
    · have other : la ≠ k := fun h => hmem (h ▸ hk)
      simp only [State.liveLine, img_img, findLine_putLine, haddr, if_neg other]
      rfl
    · rw [liveLine_memory hk v ww, liveLine_memory hk v ww]
      exact (fill_opens hfind haddr hdata).line k
  poison k := by
    simp only [State.livePoison, img_img, findLine_putLine, haddr]
    by_cases hk : la = k
    · subst hk
      rw [if_pos rfl, hfind]
      change (l.poison || (s.arrayPoison la && !s.img.poison.contains la)) = s.arrayPoison la
      rw [hpoison]
      cases s.arrayPoison la <;> rfl
    · rw [if_neg hk]
      rfl
  put := ⟨s.img.cache, rfl, .inr ⟨l, haddr, rfl⟩⟩

/-- A line that is opened by the home slice may move there or be copied there. -/
theorem M.openLine_opens_line {la : Nat} {p : Path} (ww : Bool) {r : Run s0} (hp : p.BySlice) (hhost : p.host = false) (room : Roomy r.s la 1)
    (hmem : regionOf (64 * la) ≠ .weights) : Ends (M.openLine la p ww) r (LineOpened la r.s) := by
  refine (M.recallLine_opens_line la r hp hhost room).bind fun _ r' ⟨opened, addrs⟩ => ?_
  cases p.alloc with
  | none => exact .pure opened
  | some lvl =>
    refine .read ?_
    cases hfind : findLine r'.s.img.cache la with
    | some l => exact .pure opened
    | none =>
      cases r'.s.allocAt la lvl with
      | none => exact .pure opened
      | some lvl' =>
        refine ⟨⟨⟩, _, rfl, ?_⟩
        exact opened.trans addrs (lineOpened_fill (ww := ww) hfind rfl rfl rfl hmem)

end Sys2Proof.Machine
end

section
/-!
PROOFS. The vector loads (R116, R139 to R142): the elements are checked in index order, and each reads its bytes as memory shows them before the
word, whatever lines the elements before it have opened.
-/

open Sys2Proof Sys2Proof.Machine Sys2Proof.Claim

namespace Sys2Proof.Machine

variable {s0 s t u : State}

/-! ## What loads leave -/

/-- Up to k lines have been opened, and clocks have merged: memory shows the same bytes and the same poison. -/
structure Looked (k : Nat) (s t : State) : Prop where
  same : ∃ c d, t = { s with
    hart := { s.hart with vknown := d, sr := { s.hart.sr with vclk := c } },
    fab := t.fab, img := { s.img with tlb := t.img.tlb, cache := t.img.cache, keys := t.img.keys } }
  line : ∀ la ww, t.liveLine la ww = s.liveLine la ww
  poison : ∀ la, t.livePoison la = s.livePoison la
  room : ∀ la, crowd t.img.cache la ≤ crowd s.img.cache la + k

theorem Looked.trans {j k : Nat} (h : Looked j s t) (l : Looked k t u) : Looked (j + k) s u where
  same := by
    obtain ⟨_, _, hst⟩ := h.same
    obtain ⟨c, d, htu⟩ := l.same
    refine ⟨c, d, ?_⟩
    rw [htu, hst]
  line la ww := (l.line la ww).trans (h.line la ww)
  poison la := (l.poison la).trans (h.poison la)
  room la := (l.room la).trans (by have := h.room la; omega)

/-- A change of clocks and of the fabric opens no line. -/
theorem looked_clocks (s : State) (c d : Clock) (f : Fabric) :
    Looked 0 s { s with hart := { s.hart with vknown := d, sr := { s.hart.sr with vclk := c } }, fab := f } :=
  ⟨⟨c, d, rfl⟩, fun _ _ => rfl, fun _ => rfl, fun _ => le_rfl⟩

theorem LineOpened.looked {la : Nat} (h : LineOpened la s t) : Looked 1 s t where
  same := ⟨s.hart.sr.vclk, s.hart.vknown, by rw [h.same]⟩
  line := h.line
  poison := h.poison
  room := h.put.crowd

theorem Kept.looked (h : Kept s t) (hart : t.hart = s.hart) : Looked 0 s t where
  same := by
    have fab : t.fab = s.fab := by rw [h.same]; rfl
    refine ⟨s.hart.sr.vclk, s.hart.vknown, ?_⟩
    rw [fab]
    exact h.same.trans (by rw [fetchedInto, hart])
  line := h.line
  poison := h.poison
  room la := (crowd_addrs h.addrs la).le

/-- Bytes in one line of memory are seen as before. -/
theorem Looked.seen {k n : Nat} {a : Acc} (h : Looked k s t) (hmem : isHostMem a.pa = true) : seen t a n = seen s a n := by
  simp only [Claim.seen, if_neg (regionOf_hostMem hmem).1, State.firstPoison, State.liveBytes, h.line, h.poison]

theorem Looked.early {k : Nat} (h : Looked k s t) : t.hart.early = s.hart.early := by
  obtain ⟨_, _, same⟩ := h.same
  rw [same]

/-! ## One element -/

/-- An element of n bytes that a load may read: m lines more have room in its home slice, and its bytes are seen without poison. -/
structure Readable (s : State) (m n : Nat) (a : Acc) (bs : List Byte) : Prop where
  aligned : a.pa % n = 0
  mem : isHostMem a.pa = true
  room : Roomy s (a.pa / 64) m
  early : ∀ e ∈ s.hart.early, e.vec = true → e.pa ≠ a.pa
  val : seen s a n = some bs

theorem Readable.after {k m n : Nat} {a : Acc} {bs : List Byte} (h : Readable s (k + m) n a bs) (l : Looked k s t) : Readable t m n a bs where
  aligned := h.aligned
  mem := h.mem
  room := by
    have before : crowd s.img.cache (a.pa / 64) + (k + m) ≤ cacheLines .l2 := h.room
    have grown := l.room (a.pa / 64)
    show crowd t.img.cache (a.pa / 64) + m ≤ cacheLines .l2
    omega
  early := by rw [l.early]; exact h.early
  val := (l.seen h.mem).trans h.val

/-- A vector load reads memory where the hart has not read the bytes ahead (R217). -/
theorem M.earlyRead_vec_none {pa n : Nat} {r : Run s0} (h : ∀ e ∈ r.s.hart.early, e.vec = true → e.pa ≠ pa) :
    M.earlyRead true pa n r = .ok (none, r) := by
  have none_ : (r.s.hart.early.find? fun e => e.vec == true && e.pa == pa && e.bytes.length == n
      && e.hits.all fun k => !geClk (clkAt r.s.hart.vknown k.1) k.2) = none := by
    rw [List.find?_eq_none]
    intro e he hp
    simp only [Bool.and_eq_true, beq_iff_eq] at hp
    exact h e he hp.1.1.1 hp.1.1.2
  simp only [M.earlyRead, M.bind_run, M.hart_run, if_true, none_, M.pure_run]

/-- Bytes of memory in one line are read at their home as they are seen. -/
theorem M.readHome_looks {n : Nat} {a : Acc} {bs : List Byte} {r : Run s0} (hn : n ∈ [1, 2, 4, 8]) (h : Readable r.s 1 n a bs) :
    ∃ r' : Run s0, M.readHome a.pa n (M.slicePath a) a.leaf.ww r = .ok (some bs, r') ∧ Looked 1 r.s r'.s := by
  obtain ⟨memory, noWeights⟩ := regionOf_hostMem h.mem
  obtain ⟨clean, bytes⟩ := seen_memory h.mem h.val
  have hline : InLine a.pa n := .of_aligned hn h.aligned
  obtain ⟨_, r', opens, opened⟩ := M.openLine_opens_line a.leaf.ww (slicePath_bySlice a) (slicePath_host a) h.room noWeights
  refine ⟨r', ?_, opened.looked⟩
  have each_ : M.each [a.pa / 64] (fun la => M.openLine la (M.slicePath a) a.leaf.ww) r = .ok (⟨⟩, r') := by
    rw [M.each_cons_run, opens]
    rfl
  have after : r'.s.liveBytes a.pa n a.leaf.ww = bs := by
    rw [← bytes]
    simp only [State.liveBytes, opened.line]
  simp only [M.readHome, M.ite_run, beq_iff_eq, if_neg memory, M.bind_run, M.st_run, clean, hline.lines, each_, M.pure_run, after]

/-- A load reaches its home, whose clock merges what the hart knows (R239). -/
theorem M.arrive_looks (home : Nat) (stamp : Clock) (r : Run s0) :
    ∃ r' : Run s0, M.arrive home none stamp r = .ok (⟨⟩, r') ∧ Looked 0 r.s r'.s :=
  ⟨_, rfl, looked_clocks r.s r.s.hart.sr.vclk r.s.hart.vknown _⟩

/-- A load is served: it answers what is seen, and the hart's clock merges that of the home. -/
theorem M.serveLoad_looks {n : Nat} {a : Acc} {bs : List Byte} {r : Run s0} (hn : n ∈ [1, 2, 4, 8]) (h : Readable r.s 1 n a bs) :
    ∃ r' : Run s0, M.serveLoad a n (M.slicePath a) r = .ok (some bs, r') ∧ Looked 1 r.s r'.s := by
  have rest (r1 : Run s0) (reached : Looked 0 r.s r1.s) : ∃ r' : Run s0, (do
      let v ← M.readHome a.pa n (M.slicePath a) a.leaf.ww
      M.mergeClk ((← M.st).die a.leaf.home).clock
      return v : M s0 (Option (List Byte))) r1 = .ok (some bs, r') ∧ Looked 1 r.s r'.s := by
    obtain ⟨r2, reads, looked⟩ := M.readHome_looks (n := n) hn (Readable.after (k := 0) h reached)
    exact ⟨_, M.bind_ok reads, (reached.trans looked).trans (looked_clocks r2.s _ r2.s.hart.vknown r2.s.fab)⟩
  rw [M.serveLoad, M.bind_ok (M.hart_run r), M.ite_run]
  split
  · obtain ⟨r1, meets, reached⟩ := M.arrive_looks a.leaf.home r.s.hart.sr.vclk r
    rw [M.bind_ok meets]
    exact rest r1 reached
  · exact rest r (looked_clocks r.s r.s.hart.sr.vclk r.s.hart.vknown r.s.fab)

/-- A load of the vector stream answers what is seen. -/
theorem M.loadNow_looks {n : Nat} {a : Acc} {bs : List Byte} {r : Run s0} (hn : n ∈ [1, 2, 4, 8]) (h : Readable r.s 1 n a bs) :
    ∃ r' : Run s0, M.loadNow a n true r = .ok (some bs, r') ∧ Looked 1 r.s r'.s := by
  let r1 := r.emit (.hart { r.s.hart with vknown := clkMerge r.s.hart.vknown (r.s.die a.leaf.home).clock })
  have learns : Looked 0 r.s r1.s := looked_clocks r.s r.s.hart.sr.vclk _ r.s.fab
  obtain ⟨r2, serves, looked⟩ := M.serveLoad_looks (r := r1) hn (Readable.after (k := 0) h learns)
  refine ⟨r2, ?_, learns.trans looked⟩
  rw [M.loadNow, M.bind_ok (M.earlyRead_vec_none h.early)]
  exact serves

/-! ## The elements of a word -/

/-- A part that loads one element answers its value. -/
def LoadsOne (n : Nat) (f : Nat × Acc → M s0 (Nat × Nat)) : Prop :=
  ∀ p bs (r r' : Run s0), M.loadNow p.2 n true r = .ok (some bs, r') → f p r = .ok ((p.1, ofBytes bs), r')

/-- Elements are read one after another, each as memory shows it before the word. -/
theorem M.collect_looks {n : Nat} {f : Nat × Acc → M s0 (Nat × Nat)} {acc : Nat → Acc} {val : Nat → List Byte} (hn : n ∈ [1, 2, 4, 8])
    (hf : LoadsOne n f) (es : List Nat) (r : Run s0) (h : ∀ e ∈ es, Readable r.s es.length n (acc e) (val e)) :
    ∃ r' : Run s0, M.collect (es.map fun e => (e, acc e)) f r = .ok (es.map fun e => (e, ofBytes (val e)), r')
      ∧ Looked es.length r.s r'.s := by
  induction es generalizing r with
  | nil => exact ⟨r, rfl, looked_clocks r.s r.s.hart.sr.vclk r.s.hart.vknown r.s.fab⟩
  | cons e es ih =>
    have first := h e (by simp)
    have room : Roomy r.s ((acc e).pa / 64) 1 := (Nat.add_le_add_left (Nat.succ_le_succ (Nat.zero_le _)) _).trans first.room
    obtain ⟨r1, loads, looked⟩ := M.loadNow_looks hn { first with room := room }
    have later (d : Nat) (hd : d ∈ es) : Readable r1.s es.length n (acc d) (val d) := by
      have before : Readable r.s (1 + es.length) n (acc d) (val d) := Nat.add_comm _ _ ▸ h d (by simp [hd])
      exact before.after looked
    obtain ⟨r2, rest, looked'⟩ := ih r1 later
    refine ⟨r2, ?_, by rw [List.length_cons, Nat.add_comm]; exact looked.trans looked'⟩
    rw [List.map_cons, M.collect, M.bind_ok (hf (e, acc e) (val e) r r1 loads), M.bind_ok rest]
    rfl

/-- Elements are checked one after another, on the tables as they stand (R141, R187). -/
theorem M.checkElems_run {n : Nat} {k : Kind} {addr : Nat → Word} {acc : Nat → Acc} (env : VEnv) (es : List Nat) (r : Run s0)
    (h : ∀ e ∈ es, PageOk r.s (addr e) n k (acc e)) : ∃ r' : Run s0,
      M.checkElems env n k (es.map fun e => (e, addr e)) r = .ok (es.map fun e => (e, acc e), r') ∧ Kept r.s r'.s ∧ r'.s.hart = r.s.hart := by
  induction es generalizing r with
  | nil => exact ⟨r, rfl, kept_frame.refl _, rfl⟩
  | cons e es ih =>
    obtain ⟨r1, checks, kept, hart⟩ := M.check_keeps (h e (by simp))
    obtain ⟨r2, rest, kept', hart'⟩ := ih r1 fun d hd => kept.page (h d (by simp [hd]))
    refine ⟨r2, ?_, kept_frame.trans kept kept', hart'.trans hart⟩
    rw [List.map_cons, M.checkElems, M.bind_ok checks]
    show (M.checkElems env n k _ >>= fun l => pure ((e, acc e) :: l)) r1 = _
    rw [M.bind_ok rest]
    rfl

/-- Every home of the elements serves the hart, and their numbers lie in the window (R240, R242). -/
theorem M.readyFor_run {acc : Nat → Acc} {numbered : Bool} (env : VEnv) (es : List Nat) (r : Run s0)
    (reached : ∀ e ∈ es, Reached r.s (acc e).leaf.home)
    (window : numbered = true → r.s.windowShut r.s.hart.id.did es.length = []) :
    M.readyFor env (es.map fun e => (e, acc e)) numbered r = .ok (⟨⟩, r) := by
  have homes (l : List Nat) (hl : ∀ d ∈ l, Reached r.s d) : M.each l M.needServed r = .ok (⟨⟩, r) := by
    induction l with
    | nil => rfl
    | cons d l ih =>
      rw [M.each_cons_run, M.needServed_run d r (hl d (by simp))]
      exact ih fun d hd => hl d (by simp [hd])
  have served : M.each ((es.map fun e => (e, acc e)).map fun a => a.2.leaf.home).eraseDups M.needServed r = .ok (⟨⟩, r) := by
    refine homes _ fun d hd => ?_
    obtain ⟨p, hp, rfl⟩ := List.mem_map.mp (List.mem_eraseDups.mp hd)
    obtain ⟨e, he, rfl⟩ := List.mem_map.mp hp
    exact reached e he
  rw [M.readyFor, M.ite_run]
  split
  next shut =>
    have opens := window (by simp only [Bool.and_eq_true] at shut; exact shut.1.1)
    rw [M.bind_ok (M.hart_run r), M.bind_ok (M.needWindow_run (by rw [List.length_map]; exact opens))]
    exact served
  next => exact served

end Sys2Proof.Machine
end

section
/-!
PROOFS. What a vector memory word checks before its first access (R115, R116, R139, R151, R159), and what a vector load writes.
-/

open Sys2Proof Sys2Proof.Machine Sys2Proof.Claim

namespace Sys2Proof.Machine

variable {s : State} {f : VWord}

/-! ## The elements of a memory word -/

/-- With vl = 0 nothing is performed (R116). -/
theorem acted_empty (h : s.hart.sr.vl = 0) : acted s f = [] := by
  have none_ : limit s = 0 := Nat.eq_zero_of_le_zero ((limit_le s).trans (by rw [h]; exact Nat.zero_le _))
  rw [acted, none_]
  rfl

theorem masked_empty (h : s.hart.sr.vl = 0) : masked s f = [] := by
  rw [masked, h]
  rfl

theorem M.memElems_empty {env : VEnv} {l : M.Legal} {dest : Option Reg} {rs : List Reg} (h : s.hart.sr.vl = 0) :
    M.memElems env f l dest rs (Run.start s) = .ok ([], Run.start s) := by
  rw [M.memElems, M.bind_ok (M.hart_run _), Run.start_s, if_pos h]
  rfl

/-- A memory word that passes its checks answers its performed elements, none where vl = 0 (R115, R139). -/
theorem M.memElems_run {l : M.Legal} {dest : Option Reg} {rs : List Reg} (mode : M.modeCheck (stripEnv s) l dest (Run.start s) = .ok (⟨⟩, Run.start s))
    (grouped : Grouped s f rs) : M.memElems (stripEnv s) f l dest rs (Run.start s) = .ok (acted s f, Run.start s) := by
  by_cases h : s.hart.sr.vl = 0
  · rw [M.memElems_empty h, acted_empty h]
  · obtain ⟨width, groups⟩ := grouped
    rw [M.memElems, M.bind_ok (M.hart_run _), Run.start_s, if_neg h, M.bind_ok mode, M.bind_ok (M.needSew_run _ width),
      M.bind_ok (M.needGroups_run _ groups)]
    rfl

theorem M.allElems_run : M.allElems f (Run.start s) = .ok (masked s f, Run.start s) := rfl

/-! ## The interlock -/

/-- Ranges that share no byte with a transfer before an exit pass the guard of R159. -/
theorem M.keptGuard_run {env : VEnv} {sp : Bool} {ranges : M s (List (Nat × Nat) × List (Nat × Nat))} {rd wr : List (Nat × Nat)}
    (hranges : ranges (Run.start s) = .ok ((rd, wr), Run.start s))
    (apart : ∀ c, s.hart.ctx = some c → c.exitAhead = true → ∀ p ∈ c.kept, p.1 < c.idx → p.2.holds sp rd wr = false) :
    M.keptGuard env sp ranges (Run.start s) = .ok (⟨⟩, Run.start s) := by
  rw [M.keptGuard, M.bind_ok (M.hart_run _), Run.start_s]
  cases hctx : s.hart.ctx with
  | none => rfl
  | some c =>
    dsimp only
    rw [M.ite_run]
    split
    next ahead =>
      have free : ((c.kept.filter fun p => decide (p.1 < c.idx)).any fun p => p.2.holds sp rd wr) = false := by
        rw [List.any_eq_false]
        intro p hp
        obtain ⟨member, before⟩ := List.mem_filter.mp hp
        simp [apart c hctx (Bool.and_eq_true_iff.mp ahead).1 p member (of_decide_eq_true before)]
      rw [M.bind_ok hranges]
      simp only [free, Bool.false_eq_true, if_false, M.pure_run]
    next => rfl

/-- Ranges that share no byte with a transfer in flight pass the interlock (R151). -/
theorem M.interlock_run {sp : Bool} {rd wr : List (Nat × Nat)} {skip : Option Nat}
    (apart : ∀ k ∈ s.hart.streams.toList.zipIdx, some k.2 ≠ skip → ∀ t, k.1.xfer = some t → t.fail = none → t.hulls.holds sp rd wr = false) :
    M.interlock sp rd wr skip (Run.start s) = .ok (⟨⟩, Run.start s) := by
  rw [M.interlock, M.bind_ok (M.hart_run _), Run.start_s, M.ite_run]
  split
  next held =>
    obtain ⟨⟨k, i⟩, hk, waits⟩ := List.any_eq_true.mp held
    obtain ⟨other, shares⟩ := Bool.and_eq_true_iff.mp waits
    cases hx : k.xfer with
    | none => simp [hx] at shares
    | some t =>
      simp only [hx, Bool.and_eq_true, Option.isNone_iff_eq_none] at shares
      have clear := apart (k, i) hk (by simpa using other) t hx shares.1
      exact absurd shares.2 (by simp [clear])
  next => rfl

/-- No range shares a byte with anything. -/
theorem holds_nil (h : Hulls) (sp : Bool) : h.holds sp [] [] = false := by
  cases sp <;> rfl

/-! ## Vector loads -/

/-- A part that gives the address of each element and changes nothing. -/
def Addresses (s : State) (addrs : List Nat → M s (List (Nat × Word))) (addr : Nat → Word) : Prop :=
  ∀ es, addrs es (Run.start s) = .ok (es.map fun e => (e, addr e), Run.start s)

theorem rangesOf_map (n : Nat) (addr : Nat → Word) (es : List Nat) :
    M.rangesOf n (es.map fun e => (e, addr e)) = es.map fun e => ((addr e).toNat, n) := List.map_map ..

/-- The loaded values lie in the elements of vd. -/
theorem putLoaded_vec {n w : Nat} (hw : 8 * n = w) (vs : VecState) (vd : Reg) (es : List Nat) (g : Nat → Nat) :
    (es.map fun e => (e, g e)).foldl (fun acc p => acc.setElem vd.toNat (8 * n) p.1 p.2) vs = vs.putElems vd.toNat w es g := by
  rw [List.foldl_map, hw]
  rfl

/-- The widths of memory words (R115). -/
theorem grouped_width {rs : List Reg} (h : Grouped s f rs) : tyBits f.ty / 8 ∈ [1, 2, 4, 8] ∧ 8 * (tyBits f.ty / 8) = tyBits f.ty := by
  rw [← h.1]
  cases s.hart.sr.sew <;> decide

/-- Nothing was read ahead of an exit for this word, and nothing of it is held (R24, R159). -/
theorem clear_notKnown {sp : Bool} {rd wr rdAll wrAll : List (Nat × Nat)} {skip : Option Nat} (h : Clear s sp rd wr rdAll wrAll skip) :
    s.hart.ctx.bind LoopCtx.known = none := by
  cases hctx : s.hart.ctx with
  | none => rfl
  | some c => exact (h.known c hctx).1

/-- The load of one element past its checks (R141, R338). -/
def M.loadOne {s0 : State} (env : VEnv) (f : VWord) (n : Nat) : Nat × Acc → M s0 (Nat × Nat) := fun (e, a) => do
  match ← M.loadNow a n true with
  | some bs => return (e, ofBytes bs)
  | none => M.loadPoison env f e (BitVec.ofNat 64 a.va) (some a.pa)

theorem loadOne_loads {s0 : State} (env : VEnv) (f : VWord) (n : Nat) : LoadsOne n (M.loadOne env f n : Nat × Acc → M s0 (Nat × Nat)) :=
  fun _ _ _ _ h => M.bind_ok h

section

variable {n : Nat} {addrs : List Nat → M s (List (Nat × Word))} {addr : Nat → Word}

/-- The performed elements are loaded as memory shows them before the word. -/
theorem M.loadElems_run {es : List Nat} {acc : Nat → Acc} {val : Nat → List Byte} (haddr : Addresses s addrs addr) (hn : n ∈ [1, 2, 4, 8])
    (clear : Clear s false (es.map fun e => ((addr e).toNat, n)) [] ((masked s f).map fun e => ((addr e).toNat, n)) [] none)
    (ok : ∀ e ∈ es, ElemOk s s.hart.sr.vclk (addr e) n es.length .load (acc e) ∧ seen s (acc e) n = some (val e)) :
    ∃ r u, M.loadElems (stripEnv s) f n addrs es (Run.start s) = .ok (⟨⟩, r) ∧ Looked es.length s u
      ∧ r.s = { u with hart := { u.hart with vec :=
          (es.map fun e => (e, ofBytes (val e))).foldl (fun acc p => acc.setElem f.vd.toNat (8 * n) p.1 p.2) u.hart.vec } } := by
  have kept : M.keptGuard (stripEnv s) false (do return (M.rangesOf n (← addrs (← M.allElems f)), [])) (Run.start s)
      = .ok (⟨⟩, Run.start s) := by
    refine M.keptGuard_run (rd := (masked s f).map fun e => ((addr e).toNat, n)) (wr := []) ?_ clear.kept
    rw [M.bind_ok M.allElems_run, M.bind_ok (haddr _), rangesOf_map]
    rfl
  have apart : M.interlock false (M.rangesOf n (es.map fun e => (e, addr e))) [] none (Run.start s) = .ok (⟨⟩, Run.start s) :=
    M.interlock_run (by rw [rangesOf_map]; exact clear.flying)
  obtain ⟨r1, checks, checked, hart1⟩ := M.checkElems_run (n := n) (k := .load) (stripEnv s) es (Run.start s)
    fun e he => ⟨(ok e he).1.aligned.1, (ok e he).1.fresh, (ok e he).1.allowed⟩
  have ready : M.readyFor (stripEnv s) (es.map fun e => (e, acc e)) false r1 = .ok (⟨⟩, r1) :=
    M.readyFor_run _ es r1 (fun e he => checked.reached (ok e he).1.served) nofun
  have looked0 : Looked 0 s r1.s := checked.looked hart1
  have readable (e : Nat) (he : e ∈ es) : Readable r1.s es.length n (acc e) (val e) := by
    obtain ⟨elem, value⟩ := ok e he
    exact Readable.after (k := 0) ⟨elem.aligned.2, elem.mem, by rw [Nat.zero_add]; exact elem.room, elem.early, value⟩ looked0
  obtain ⟨r2, collects, looked⟩ := M.collect_looks hn (loadOne_loads (stripEnv s) f n) es r1 readable
  let v := (es.map fun e => (e, ofBytes (val e))).foldl (fun acc p => acc.setElem f.vd.toNat (8 * n) p.1 p.2) r2.s.hart.vec
  refine ⟨r2.emit (.hart { r2.s.hart with vec := v }), r2.s, ?_, by rw [← Nat.zero_add es.length]; exact looked0.trans looked, rfl⟩
  rw [M.loadElems, M.bind_ok kept, M.bind_ok (M.hart_run _), Run.start_s, clear_notKnown clear]
  dsimp only
  rw [M.bind_ok (haddr es), M.bind_ok apart, M.bind_ok checks, M.bind_ok ready]
  exact (M.bind_ok collects).trans rfl

/-- With no element there is nothing to load (R139). -/
theorem M.loadElems_empty (haddr : Addresses s addrs addr) (empty : s.hart.sr.vl = 0) :
    M.loadElems (stripEnv s) f n addrs [] (Run.start s) = .ok (⟨⟩, (Run.start s).emit (.hart s.hart)) := by
  have kept : M.keptGuard (stripEnv s) false (do return (M.rangesOf n (← addrs (← M.allElems f)), [])) (Run.start s)
      = .ok (⟨⟩, Run.start s) := by
    refine M.keptGuard_run (rd := []) (wr := []) ?_ fun _ _ _ p _ _ => holds_nil p.2 false
    rw [M.bind_ok M.allElems_run, masked_empty empty, M.bind_ok (haddr _)]
    rfl
  have apart : M.interlock false (M.rangesOf n []) [] none (Run.start s) = .ok (⟨⟩, Run.start s) :=
    M.interlock_run fun _ _ _ t _ _ => holds_nil t.hulls false
  rw [M.loadElems, M.bind_ok kept, M.bind_ok (M.hart_run _), Run.start_s]
  cases s.hart.ctx.bind LoopCtx.known with
  | some vals =>
    have nothing : vals.filter (fun p => [].contains p.1) = ([] : List (Nat × Nat)) := by simp
    dsimp only
    rw [nothing]
    rfl
  | none =>
    dsimp only
    rw [M.bind_ok (haddr []), List.map_nil, M.bind_ok apart]
    rfl

variable {i : Instr} {l : M.Legal} {rs : List Reg}

/-- What a load leaves: its performed elements, copies in the caches, and clocks (R116, R139, R239). -/
theorem vload_leads {n : Nat} (hw : tyBits f.ty / 8 = n)
    (he : exec i s = vexec s fun env => M.memElems env f l (some f.vd) rs >>= M.loadElems env f n addrs) (free : Unguarded s)
    (mode : M.modeCheck (stripEnv s) l (some f.vd) (Run.start s) = .ok (⟨⟩, Run.start s)) (haddr : Addresses s addrs addr)
    {acc : Nat → Acc} {val : Nat → List Byte} (grouped : Grouped s f rs)
    (clear : Clear s false ((acted s f).map fun e => ((addr e).toNat, n)) [] ((masked s f).map fun e => ((addr e).toNat, n)) [] none)
    (ok : ∀ e ∈ acted s f, ElemOk s s.hart.sr.vclk (addr e) n (acted s f).length .load (acc e) ∧ seen s (acc e) n = some (val e)) :
    Leads s i fun t =>
      (∃ c d, t = { s with
        hart := { (elementwise s f (tyBits f.ty) fun e => ofBytes (val e)).hart with vknown := d, sr := { s.hart.sr with vclk := c } },
        fab := t.fab, img := { s.img with tlb := t.img.tlb, cache := t.img.cache, keys := t.img.keys } })
      ∧ ∀ pa, isHostMem pa = true → liveByte t true pa = liveByte s true pa := by
  subst hw
  obtain ⟨hn, width⟩ := grouped_width grouped
  obtain ⟨r, u, loads, looked, state⟩ := M.loadElems_run haddr hn clear ok
  refine ⟨vecNext r.s r.s.hart.vec, ?_, ?_, fun pa _ => ?_⟩
  · rw [he]
    exact vexec_next free ((M.bind_ok (M.memElems_run mode grouped)).trans loads)
  · obtain ⟨c, d, same⟩ := looked.same
    refine ⟨c, d, ?_⟩
    rw [state, putLoaded_vec width, same]
    rfl
  · have lines (k : Nat) (ww : Bool) : (vecNext r.s r.s.hart.vec).liveLine k ww = u.liveLine k ww := by
      rw [state]
      rfl
    rw [liveByte, liveByte, lines, looked.line]

theorem vload_empty {n : Nat} (he : exec i s = vexec s fun env => M.memElems env f l (some f.vd) rs >>= M.loadElems env f n addrs)
    (free : Unguarded s) (haddr : Addresses s addrs addr) (empty : s.hart.sr.vl = 0) : exec i s = .next (vecNext s s.hart.vec) := by
  have runs : (M.memElems (stripEnv s) f l (some f.vd) rs >>= M.loadElems (stripEnv s) f n addrs) (Run.start s)
      = .ok (⟨⟩, (Run.start s).emit (.hart s.hart)) := (M.bind_ok (M.memElems_empty empty)).trans (M.loadElems_empty haddr empty)
  exact he.trans ((vexec_next free runs).trans rfl)

end

end Sys2Proof.Machine
end

section
/-!
PROOFS. The vector stores (R90, R139 to R142, R337): the elements are written in index order, each over what memory holds by then, and nothing
else of the hart, of its registers and of the other harts changes.
-/

open Sys2Proof Sys2Proof.Machine Sys2Proof.Claim

namespace Sys2Proof.Machine

variable {s0 s t u : State} {f : VWord}

/-- What two readings of one run say of its end holds of it together. -/
theorem Ends.and {α : Type} {m : M s0 α} {r : Run s0} {p q : State → Prop} (h : Ends m r p) (k : Ends m r q) : Ends m r fun t => p t ∧ q t := by
  obtain ⟨a, r', run, hp⟩ := h
  obtain ⟨b, r'', run', hq⟩ := k
  obtain ⟨-, rfl⟩ := Prod.mk.inj (Except.ok.inj (run.symm.trans run'))
  exact ⟨a, r', run, hp, hq⟩

/-! ## The copies that a store leaves -/

/-- A primitive update keeps the memory arrays in order. -/
theorem apply_cells_wf (v : Upd) (h : s.cells.wf = true) : (v.apply s).cells.wf = true := by
  cases v with
  | cells pa bs => exact Memory.writes_wf bs _ pa h
  | reg d w => rw [reg_cells]; exact h
  | focus k => rw [focus_cells]; exact h
  | place g => rw [place_cells]; exact h
  | reset => rfl
  | _ => exact h

/-- A store puts the line that it writes to the caches at most. -/
theorem M.storeLine_puts {la off : Nat} {bs : List Byte} {p : Path} {ww : Bool} {r : Run s0} (hp : p.BySlice) (hhost : p.host = false)
    (room : Roomy r.s la 1) (hmem : regionOf (64 * la) ≠ .weights) :
    Ends (M.storeLine la off bs p ww) r fun t => PutOne la r.s.img.cache t.img.cache := by
  refine (M.openLine_opens_line ww hp hhost room hmem).bind fun _ r' opened => .read ?_
  cases hfind : findLine r'.s.img.cache la with
  | some l =>
    refine .read ⟨⟨⟩, _, rfl, opened.put.put ?_⟩
    dsimp only
    split <;> split <;> exact (findLine_some hfind).2
  | none =>
    refine .next (M.emit_run _ r') (.ite (fun _ => ?_) fun _ => .pure opened.put)
    obtain ⟨r'', run, -, cache⟩ := M.setArrayPoison_run la false (r'.emit (.cells (64 * la + off) bs))
    exact ⟨⟨⟩, r'', run, (congrArg (PutOne la r.s.img.cache) cache).mpr opened.put⟩

/-- A store at its home slice to memory leaves one line more in the caches at most. -/
theorem M.performStore_puts {pa : Nat} {bs : List Byte} {p : Path} {ww : Bool} {k : Nat} {num : Option (Nat × BitVec 16)} {r : Run s0}
    (hp : p.BySlice) (hhost : p.host = false) (hk : r.s.hart.key = k) (h : Storable r.s pa bs) (room : Roomy r.s (pa / 64) 1) :
    Ends (M.performStore pa bs p ww (some k) num) r fun t => PutOne (pa / 64) r.s.img.cache t.img.cache := by
  obtain ⟨memory, noWeights⟩ := regionOf_hostMem h.mem
  have noTails : ((cutWords pa bs).any fun c => (r.s.tailAt (8 * c.1)).isSome) = false :=
    List.any_eq_false.2 fun c hc => by rw [h.tails c hc]; simp
  refine .ite (fun hd => absurd (eq_of_beq hd) memory) fun _ => .read (.ite (fun ht => by rw [noTails] at ht; cases ht) fun _ => ?_)
  rw [M.storeLive, cutLines_inLine h.inLine]
  have line := (M.storeLine_puts (off := pa % 64) (bs := bs) (ww := ww) hp hhost room noWeights).and
    (M.storeLine_stores (p := p) (ww := ww) hhost h.room h.wf noWeights h.inLine.2)
  refine .bind (p := fun t => PutOne (pa / 64) r.s.img.cache t.img.cache) ?_ fun _ _ h => .pure h
  refine line.bind fun _ r1 ⟨put, stored⟩ => (M.noteHit_clocks _ _ _ r1).bind fun _ r2 h2 => ?_
  have key : r2.s.hart.key = k := h2.key.trans (stored.beside.key.trans hk)
  exact (M.noteWatch_clocks _ k r2).mono fun t h3 => by rw [(h3 key).img, h2.img]; exact put

/-! ## One element -/

/-- The hart knows other writes. -/
def withKnown (s : State) (d : Clock) : State := { s with hart := { s.hart with vknown := d } }

theorem Beside.knowing (h : Beside s t) (d : Clock) : Beside (withKnown s d) (withKnown t d) where
  hart := by
    obtain ⟨x, y, c, hart⟩ := h.hart
    exact ⟨x, y, c, by rw [withKnown, withKnown, hart]⟩
  regs := h.regs
  others := h.others
  scratch := h.scratch
  counts := h.counts
  bank := h.bank
  disp := h.disp
  place := h.place
  time := h.time

/-- Up to k elements have been stored: memory and the caches apart, only what goes with writes has changed. -/
structure Wrote (k : Nat) (s t : State) : Prop where
  beside : ∃ d, Beside (withKnown s d) t
  room : ∀ la, crowd t.img.cache la ≤ crowd s.img.cache la + k

theorem Wrote.refl (s : State) : Wrote 0 s s := ⟨⟨s.hart.vknown, beside_frame.refl s⟩, fun _ => le_rfl⟩

theorem Wrote.trans {j k : Nat} (h : Wrote j s t) (l : Wrote k t u) : Wrote (j + k) s u where
  beside := by
    obtain ⟨_, first⟩ := h.beside
    obtain ⟨d, second⟩ := l.beside
    exact ⟨d, beside_frame.trans (first.knowing d) second⟩
  room la := (l.room la).trans (by have := h.room la; omega)

theorem Wrote.tailAt {k : Nat} (h : Wrote k s t) (pa : Nat) : t.tailAt pa = s.tailAt pa := by
  obtain ⟨_, beside⟩ := h.beside
  exact beside.tailAt pa

/-- Bytes of memory have been stored: every byte of memory is as the stored ones leave it. -/
def MemStored (pa : Nat) (bs : List Byte) (s t : State) : Prop :=
  ∀ q, isHostMem q = true → liveByte t true q = overlaid (liveByte s true) pa bs q

theorem liveByte_memory {q : Nat} (h : isHostMem q = true) (v w : Bool) : liveByte s v q = liveByte s w q := by
  rw [liveByte, liveByte, liveLine_memory (regionOf_hostMem h).2 v w]

/-- A byte of an overlaid image depends on that byte of the image below alone. -/
theorem overlaid_congr {m m' : Nat → Byte} {q : Nat} (h : m q = m' q) (pa : Nat) (bs : List Byte) : overlaid m pa bs q = overlaid m' pa bs q := by
  rw [overlaid, overlaid, h]

theorem overlaid_foldl_congr {m m' : Nat → Byte} {q : Nat} (h : m q = m' q) (pa : Nat → Nat) (data : Nat → List Byte) (es : List Nat) :
    es.foldl (fun m e => overlaid m (pa e) (data e)) m q = es.foldl (fun m e => overlaid m (pa e) (data e)) m' q := by
  induction es generalizing m m' with
  | nil => exact h
  | cons e es ih => exact ih (overlaid_congr h (pa e) (data e))

theorem Stored.memStored {ww : Bool} {pa : Nat} {bs : List Byte} (h : Stored ww pa bs s t) : MemStored pa bs s t := fun q hq => by
  rw [liveByte_memory hq true ww, h.2 q]
  exact overlaid_congr (liveByte_memory hq ww true) pa bs

/-- An element of n bytes that a store may write: m lines more have room in its home slice, and it is no registered tail word. -/
structure Writable (s : State) (m n : Nat) (a : Acc) : Prop where
  aligned : a.pa % n = 0
  mem : isHostMem a.pa = true
  room : Roomy s (a.pa / 64) m
  tail : s.tailAt (a.pa / 8 * 8) = none

theorem Writable.after {k m n : Nat} {a : Acc} (h : Writable s (k + m) n a) (l : Wrote k s t) : Writable t m n a where
  aligned := h.aligned
  mem := h.mem
  room := by
    have before : crowd s.img.cache (a.pa / 64) + (k + m) ≤ cacheLines .l2 := h.room
    have grown := l.room (a.pa / 64)
    show crowd t.img.cache (a.pa / 64) + m ≤ cacheLines .l2
    omega
  tail := (l.tailAt _).trans h.tail

theorem Writable.storable {n : Nat} {a : Acc} {bs : List Byte} (h : Writable s 1 n a) (hn : n ∈ [1, 2, 4, 8]) (length : bs.length = n)
    (wf : s.cells.wf = true) : Storable s a.pa bs where
  inLine := by rw [length]; exact .of_aligned hn h.aligned
  mem := h.mem
  wf := wf
  tails c hc := by rw [cutWords_aligned (by rwa [length]) (by rw [length]; exact h.aligned) c hc, h.tail]
  room := .inl h.room

theorem M.arrive_clocks (home : Nat) (n : Option (BitVec 16)) (c : Clock) : Does (M.arrive home n c : M s0 PUnit) Clocked := fun r => by
  refine .next (M.hart_run r) ?_
  cases n with
  | none => exact M.learnAt_clocks _ _ r
  | some n =>
    exact .ite (fun _ => Does.bind clocked_frame (M.modDie_clocks _ _) (fun _ => M.learnAt_clocks _ _) r) fun _ => M.learnAt_clocks _ _ r

/-- A store of the vector stream writes its bytes. -/
theorem M.storeNow_writes {n : Nat} {a : Acc} {bs : List Byte} {r : Run s0} (wf : s0.cells.wf = true) (hn : n ∈ [1, 2, 4, 8])
    (length : bs.length = n) (h : Writable r.s 1 n a) : Ends (M.storeNow a bs) r fun t => Wrote 1 r.s t ∧ MemStored a.pa bs r.s t := by
  refine .next (M.hart_run r) (.next (M.hart_run r) ?_)
  refine (M.hartNumber_clocks r).bind fun num r1 h1 => (M.arrive_clocks _ _ _ r1).bind fun _ r2 h2 => ?_
  have clocked : Clocked r.s r2.s := clocked_frame.trans h1 h2
  have cells : r.s.cells.wf = true := Reach.keeps (p := fun s => s.cells.wf = true) (fun u _ => apply_cells_wf u) r.reach wf
  have storable : Storable r2.s a.pa bs := (h.storable hn length cells).of_clocked clocked
  have room : Roomy r2.s (a.pa / 64) 1 := by rw [Roomy, clocked.img]; exact h.room
  refine ((M.performStore_stores (slicePath_host a) clocked.key storable).and
    (M.performStore_puts (slicePath_bySlice a) (slicePath_host a) clocked.key storable room)).bind fun _ r3 ⟨stored, put⟩ => ?_
  have all : Stored a.leaf.ww a.pa bs r.s r3.s := .after_clocked clocked stored
  refine .next (M.hart_run r3) (.emit ⟨⟨⟨_, all.1.knowing _⟩, fun la => ?_⟩, all.memStored⟩)
  rw [← clocked.img]
  exact put.crowd la

/-! ## The elements of a word -/

/-- Elements are written one after another. -/
theorem M.each_writes {n : Nat} {acc : Nat → Acc} {data : Nat → List Byte} (wf : s0.cells.wf = true) (hn : n ∈ [1, 2, 4, 8])
    (length : ∀ e, (data e).length = n) (es : List Nat) (r : Run s0) (h : ∀ e ∈ es, Writable r.s es.length n (acc e)) :
    Ends (M.each (es.map fun e => (e, acc e)) fun p => M.storeNow p.2 (data p.1)) r fun t => Wrote es.length r.s t
      ∧ ∀ q, isHostMem q = true → liveByte t true q = es.foldl (fun m e => overlaid m (acc e).pa (data e)) (liveByte r.s true) q := by
  induction es generalizing r with
  | nil => exact .pure ⟨.refl _, fun _ _ => rfl⟩
  | cons e es ih =>
    have first := h e (by simp)
    have room : Roomy r.s ((acc e).pa / 64) 1 := (Nat.add_le_add_left (Nat.succ_le_succ (Nat.zero_le _)) _).trans first.room
    refine (M.storeNow_writes wf hn (length e) { first with room := room }).bind fun _ r1 ⟨wrote, bytes⟩ => ?_
    have later (d : Nat) (hd : d ∈ es) : Writable r1.s es.length n (acc d) := by
      have before : Writable r.s (1 + es.length) n (acc d) := Nat.add_comm _ _ ▸ h d (by simp [hd])
      exact before.after wrote
    refine (ih r1 later).mono fun t ⟨rest, image⟩ => ⟨by rw [List.length_cons, Nat.add_comm]; exact wrote.trans rest, fun q hq => ?_⟩
    rw [image q hq, List.foldl_cons]
    exact overlaid_foldl_congr (bytes q hq) (fun e => (acc e).pa) data es

/-! ## Poison of lines written in full -/

/-- Marks of poison have been cleared: memory and the harts are as before. -/
def Washed (s t : State) : Prop := Beside s t ∧ t.hart = s.hart ∧ ∀ la ww, t.liveLine la ww = s.liveLine la ww

theorem washed_frame : Frame Washed where
  refl s := ⟨beside_frame.refl s, rfl, fun _ _ => rfl⟩
  trans := fun ⟨h, hart, line⟩ ⟨k, hart', line'⟩ =>
    ⟨beside_frame.trans h k, hart'.trans hart, fun la ww => (line' la ww).trans (line la ww)⟩

/-- A copy with the same bytes in the place of a held line shows the same bytes. -/
theorem washed_copy {la : Nat} {l l' : Line} (hfind : findLine s.img.cache la = some l) (haddr : l'.addr = la) (hdata : l'.data = l.data) :
    Washed s (Upd.apply s (.img { s.img with cache := putLine s.img.cache l' })) := by
  refine ⟨{ beside_frame.refl s with }, rfl, fun k ww => ?_⟩
  simp only [State.liveLine, img_img, findLine_putLine, haddr]
  by_cases hk : la = k
  · subst hk
    rw [if_pos rfl, hfind]
    exact congrArg bytesOfLine hdata
  · rw [if_neg hk]
    rfl

theorem M.setArrayPoison_washes (la : Nat) (p : Bool) : Does (M.setArrayPoison la p : M s0 PUnit) Washed := fun r =>
  .emit ⟨{ beside_frame.refl r.s with }, rfl, fun _ _ => rfl⟩

theorem M.clearCovered_washes (ws : List (Nat × Nat)) : Does (M.clearCovered ws : M s0 PUnit) Washed := fun r => by
  refine .read (Does.each washed_frame (fun la _ r => .read ?_) r)
  cases hfind : findLine r.s.img.cache la with
  | some l => exact .emit (washed_copy hfind (findLine_some hfind).2 rfl)
  | none => exact M.setArrayPoison_washes la false r

end Sys2Proof.Machine
end

section
/-!
PROOFS. What a vector store leaves, and the addresses of the vector loads and stores (R90, R116, R139 to R142).
-/

open Sys2Proof Sys2Proof.Machine Sys2Proof.Claim

namespace Sys2Proof.Machine

variable {s : State} {f : VWord}

/-! ## Vector stores -/

/-- What stays while elements are stored makes the state at the next word keep what a store keeps. -/
theorem Beside.storeKeeps {t : State} {d : Clock} (h : Beside (withKnown s d) t) : StoreKeeps s (vecNext t t.hart.vec) := by
  obtain ⟨x, y, c, hart⟩ := h.hart
  exact {
    hart := ⟨c, d, y, x, by rw [vecNext, hart]; rfl⟩
    regs := h.regs
    others := h.others
    scratch := h.scratch
    counts := h.counts
    bank := h.bank
    disp := h.disp
    place := h.place
    time := h.time }

theorem Kept.beside {t : State} (h : Kept s t) (hart : t.hart = s.hart) : Beside s t := by
  have same : t = { s with img := t.img } := by
    rw [h.same, fetchedInto, hart]
  rw [same]
  exact { beside_frame.refl s with }

section

variable {n : Nat} {addrs : List Nat → M s (List (Nat × Word))} {addr : Nat → Word}

/-- The bytes of the element e of a vector register group. -/
def elemBytes (v : VecState) (r : Reg) (n e : Nat) : List Byte := toBytes n (v.elem r.toNat (8 * n) e)

/-- The performed elements are stored in index order. -/
theorem M.storeElems_run {es : List Nat} {acc : Nat → Acc} (haddr : Addresses s addrs addr) (hn : n ∈ [1, 2, 4, 8]) (wf : s.cells.wf = true)
    (clear : Clear s false [] (es.map fun e => ((addr e).toNat, n)) [] ((masked s f).map fun e => ((addr e).toNat, n)) none)
    (ok : ∀ e ∈ es, ElemOk s s.hart.sr.vclk (addr e) n es.length .store (acc e) ∧ s.tailAt ((acc e).pa / 8 * 8) = none)
    (window : s.windowShut s.hart.id.did es.length = []) :
    Ends (M.storeElems (stripEnv s) f n addrs es) (Run.start s) fun t => (∃ d, Beside (withKnown s d) t)
      ∧ ∀ q, isHostMem q = true →
        liveByte t true q = es.foldl (fun m e => overlaid m (acc e).pa (elemBytes s.hart.vec f.vd n e)) (liveByte s true) q := by
  have kept : M.keptGuard (stripEnv s) false (do return ([], M.rangesOf n (← addrs (← M.allElems f)))) (Run.start s)
      = .ok (⟨⟩, Run.start s) := by
    refine M.keptGuard_run (rd := []) (wr := (masked s f).map fun e => ((addr e).toNat, n)) ?_ clear.kept
    rw [M.bind_ok M.allElems_run, M.bind_ok (haddr _), rangesOf_map]
    rfl
  have apart : M.interlock false [] (M.rangesOf n (es.map fun e => (e, addr e))) none (Run.start s) = .ok (⟨⟩, Run.start s) :=
    M.interlock_run (by rw [rangesOf_map]; exact clear.flying)
  obtain ⟨r1, checks, checked, hart1⟩ := M.checkElems_run (n := n) (k := .store) (stripEnv s) es (Run.start s)
    fun e he => ⟨(ok e he).1.aligned.1, (ok e he).1.fresh, (ok e he).1.allowed⟩
  have ready : M.readyFor (stripEnv s) (es.map fun e => (e, acc e)) true r1 = .ok (⟨⟩, r1) := by
    refine M.readyFor_run _ es r1 (fun e he => checked.reached (ok e he).1.served) fun _ => ?_
    rw [hart1, checked.same]
    exact window
  have writable (e : Nat) (he : e ∈ es) : Writable r1.s es.length n (acc e) := by
    obtain ⟨elem, tail⟩ := ok e he
    exact ⟨elem.aligned.2, elem.mem, checked.roomy elem.room, by rw [checked.same]; exact tail⟩
  have free : M.holding r1 = .ok (false, r1) := by
    have none_ : (r1.s.hart.ctx.map LoopCtx.holding).getD false = false := by
      rw [hart1]
      cases hctx : s.hart.ctx with
      | none => exact congrArg (fun c => (Option.map LoopCtx.holding c).getD false) hctx
      | some c => exact (congrArg (fun c => (Option.map LoopCtx.holding c).getD false) hctx).trans (clear.known c hctx).2
    exact congrArg (fun b => Except.ok (b, r1)) none_
  refine .next kept (.next (haddr es) (.next apart (.next checks (.next ready ?_))))
  refine .next (M.vec_run r1) (.next free ?_)
  have writes := M.each_writes wf hn (data := elemBytes s.hart.vec f.vd n) (fun _ => toBytes_length _ _) es r1 writable
  rw [hart1]
  refine writes.bind fun _ r2 ⟨wrote, image⟩ => (M.clearCovered_washes _ r2).mono fun t ⟨washed, _, lines⟩ => ⟨?_, fun q hq => ?_⟩
  · obtain ⟨d, beside⟩ := wrote.beside
    exact ⟨d, beside_frame.trans ((checked.beside hart1).knowing d) (beside_frame.trans beside washed)⟩
  · have before : liveByte r1.s true q = liveByte s true q := by rw [liveByte, liveByte, checked.line]; rfl
    rw [liveByte, lines]
    exact (image q hq).trans (overlaid_foldl_congr before (fun e => (acc e).pa) (elemBytes s.hart.vec f.vd n) es)

/-- No store is held where none is given. -/
theorem M.holdStores_nil {s0 : State} (r : Run s0) : Ends (M.holdStores []) r fun t => t = r.s := by
  have same (c : LoopCtx) : ({ c with pass := c.pass.map fun p => { p with stores := p.stores ++ [] } } : LoopCtx) = c := by
    cases hpass : c.pass <;> simp [← hpass]
  refine .next (M.hart_run r) (.emit ?_)
  simp only [same, Option.map_id']
  rfl

/-- With no element there is nothing to store (R139). -/
theorem M.storeElems_empty (haddr : Addresses s addrs addr) (empty : s.hart.sr.vl = 0) : ∃ r : Run s,
    M.storeElems (stripEnv s) f n addrs [] (Run.start s) = .ok (⟨⟩, r) ∧ r.s = s := by
  have kept : M.keptGuard (stripEnv s) false (do return ([], M.rangesOf n (← addrs (← M.allElems f)))) (Run.start s)
      = .ok (⟨⟩, Run.start s) := by
    refine M.keptGuard_run (rd := []) (wr := []) ?_ fun _ _ _ p _ _ => holds_nil p.2 false
    rw [M.bind_ok M.allElems_run, masked_empty empty, M.bind_ok (haddr _)]
    rfl
  have apart : M.interlock false [] (M.rangesOf n []) none (Run.start s) = .ok (⟨⟩, Run.start s) :=
    M.interlock_run fun _ _ _ t _ _ => holds_nil t.hulls false
  have nothing : Ends (M.storeElems (stripEnv s) f n addrs []) (Run.start s) fun t => t = s := by
    refine .next kept (.next (haddr []) (.next apart (.next rfl (.next rfl (.next (M.vec_run _) (.next rfl (.ite (fun _ => ?_) fun _ => ?_)))))))
    · exact M.holdStores_nil _
    · exact .pure rfl
  obtain ⟨_, r, run, state⟩ := nothing
  exact ⟨r, run, state⟩

variable {i : Instr} {l : M.Legal} {rs : List Reg}

/-- What a store leaves: the bytes of its performed elements, in index order (R116, R139 to R141). -/
theorem vstore_leads {n : Nat} (hw : tyBits f.ty / 8 = n)
    (he : exec i s = vexec s fun env => M.memElems env f l none rs >>= M.storeElems env f n addrs) (free : Unguarded s)
    (mode : M.modeCheck (stripEnv s) l none (Run.start s) = .ok (⟨⟩, Run.start s)) (haddr : Addresses s addrs addr)
    {acc : Nat → Acc} (grouped : Grouped s f rs) (wf : s.cells.wf = true)
    (clear : Clear s false [] ((acted s f).map fun e => ((addr e).toNat, n)) [] ((masked s f).map fun e => ((addr e).toNat, n)) none)
    (ok : ∀ e ∈ acted s f, ElemOk s s.hart.sr.vclk (addr e) n (acted s f).length .store (acc e) ∧ s.tailAt ((acc e).pa / 8 * 8) = none)
    (window : s.windowShut s.hart.id.did (acted s f).length = []) :
    Leads s i fun t => StoreKeeps s t
      ∧ ∀ pa, isHostMem pa = true → liveByte t true pa = stored s n (acted s f) (fun e => (acc e).pa) (el s f.vd (tyBits f.ty)) pa := by
  subst hw
  obtain ⟨hn, width⟩ := grouped_width grouped
  obtain ⟨_, r, stores, ⟨_, beside⟩, image⟩ := M.storeElems_run haddr hn wf clear ok window
  refine ⟨vecNext r.s r.s.hart.vec, ?_, beside.storeKeeps, fun pa hpa => (image pa hpa).trans ?_⟩
  · rw [he]
    exact vexec_next free ((M.bind_ok (M.memElems_run mode grouped)).trans stores)
  · simp only [stored, elemBytes, el, width]

theorem vstore_empty {n : Nat} (he : exec i s = vexec s fun env => M.memElems env f l none rs >>= M.storeElems env f n addrs)
    (free : Unguarded s) (haddr : Addresses s addrs addr) (empty : s.hart.sr.vl = 0) : exec i s = .next (vecNext s s.hart.vec) := by
  obtain ⟨r, stores, state⟩ := M.storeElems_empty (f := f) (n := n) haddr empty
  rw [he, vexec_next free ((M.bind_ok (M.memElems_empty empty)).trans stores), state]

end

/-! ## Addresses (R142) -/

theorem unitAddrs_addresses (s : State) (f : VWord) (n : Nat) : Addresses s (M.unitAddrs f n)
    fun e => snapped s (f.x.toNat % 32) + (s.hart.sr.sb + BitVec.ofNat 64 e) * BitVec.ofNat 64 n := fun es => by
  simp only [M.unitAddrs, M.bind_run, M.snap_run, M.hart_run, M.pure_run, Run.start_s, xBase]

theorem strideAddrs_addresses (s : State) (f : VWord) : Addresses s (M.strideAddrs f)
    fun e => snapped s (f.x.toNat % 32) + (s.hart.sr.sb + BitVec.ofNat 64 e) * snapped s (f.x.toNat / 32 % 32) := fun es => by
  simp only [M.strideAddrs, M.bind_run, M.snap_run, M.hart_run, M.pure_run, Run.start_s, xBase, xSecond]

theorem indexAddrs_addresses (s : State) (f : VWord) (n : Nat) : Addresses s (M.indexAddrs f n)
    fun e => snapped s (f.x.toNat % 32) + BitVec.ofNat 64 (el s f.vb (8 * n) e) <<< (f.x.toNat / 32 % 4) := fun es => by
  simp only [M.indexAddrs, M.bind_run, M.snap_run, M.vec_run, M.pure_run, Run.start_s, xBase, xScale, el]

/-! ## The words -/

/-- A word without a destination passes its mode checks where it is legal in the current mode (R172). -/
theorem M.modeCheck_source_run {l : M.Legal} (mode : s.hart.sr.mmode = true → l.matrix = true) :
    M.modeCheck (stripEnv s) l none (Run.start s) = .ok (⟨⟩, Run.start s) := by
  have allowed : (s.hart.sr.mmode && !l.matrix) = false := by
    rw [Bool.and_eq_false_imp]
    intro on
    rw [mode on]
    rfl
  simp only [M.modeCheck, M.bind_run, M.hart_run, M.ite_run, Run.start_s, allowed]
  rfl

section

variable {i : Instr} {l : M.Legal} {rs : List Reg} {addrs : List Nat → M s (List (Nat × Word))} {addr : Nat → Word}

theorem vloads_of (he : exec i s = vexec s fun env => M.memElems env f l (some f.vd) rs >>= M.loadElems env f (tyBits f.ty / 8) addrs)
    (free : Unguarded s) (mode : ModeOk s f l.matrix) (defined : ∃ a, Addresses s addrs a)
    (haddr : Grouped s f rs → Addresses s addrs addr) : VLoads s i f rs addr := by
  obtain ⟨_, some_⟩ := defined
  exact ⟨vload_empty he free some_, fun _ _ grouped => vload_leads rfl he free (M.modeCheck_legal l mode) (haddr grouped) grouped⟩

theorem vstores_of (he : exec i s = vexec s fun env => M.memElems env f l none rs >>= M.storeElems env f (tyBits f.ty / 8) addrs)
    (free : Unguarded s) (mode : s.hart.sr.mmode = true → l.matrix = true) (defined : ∃ a, Addresses s addrs a)
    (haddr : Grouped s f rs → Addresses s addrs addr) : VStores s i f rs addr := by
  obtain ⟨_, some_⟩ := defined
  exact ⟨vstore_empty he free some_, fun _ grouped clear wf ok window =>
    vstore_leads rfl he free (M.modeCheck_source_run mode) (haddr grouped) grouped wf clear ok window⟩

end

end Sys2Proof.Machine

namespace Sys2Proof.Proofs

/-- Settles O29: a load reads each performed element as memory shows it before the word, whatever the elements before it have brought into the
caches, and a store writes each over what the elements before it have left. Choices of the model in it: logs 42, 93 and 110. -/
theorem vectorLoadsAndStoresAccessTheirElements : Obligations.VectorLoadsAndStoresAccessTheirElements := by
  intro s f free n base at_ unit stride index
  have hunit : Addresses s (M.unitAddrs f n) unit := unitAddrs_addresses s f n
  have hstride : Addresses s (M.strideAddrs f) stride := strideAddrs_addresses s f
  have hindex := indexAddrs_addresses s f n
  have typed (grouped : Grouped s f [f.vd, f.vb]) : Addresses s (M.indexAddrs f n) index := by
    rw [show 8 * n = tyBits f.ty from (grouped_width grouped).2] at hindex
    exact hindex
  refine ⟨fun mode => vloads_of rfl free mode ⟨_, hunit⟩ fun _ => hunit, fun empty => ?_, ?_, fun mmode => ?_⟩
  · simp only [List.forall_mem_cons, List.not_mem_nil, false_imp_iff, implies_true, and_true]
    exact ⟨vload_empty rfl free hunit empty, vstore_empty rfl free hunit empty, vload_empty rfl free hstride empty,
      vstore_empty rfl free hstride empty, vload_empty rfl free hindex empty, vstore_empty rfl free hindex empty⟩
  · exact vstores_of (l := M.anywhere) rfl free (fun _ => rfl) ⟨_, hunit⟩ fun _ => hunit
  · have mode : ModeOk s f M.threaded.matrix := fun on => absurd (mmode.symm.trans on) Bool.false_ne_true
    have source : s.hart.sr.mmode = true → M.threaded.matrix = true := fun on => absurd (mmode.symm.trans on) Bool.false_ne_true
    exact ⟨vloads_of rfl free mode ⟨_, hstride⟩ fun _ => hstride, vstores_of rfl free source ⟨_, hstride⟩ fun _ => hstride,
      vloads_of rfl free mode ⟨_, hindex⟩ typed, vstores_of rfl free source ⟨_, hindex⟩ typed⟩

end Sys2Proof.Proofs
end

section
/-!
PROOFS. The engine transfers of the vector stream (R145, R147 to R152, R159): a word that begins one, and the words that look at a stream.
-/

open Sys2Proof Sys2Proof.Machine Sys2Proof.Claim

namespace Sys2Proof.Machine

variable {s0 s : State} {f : VWord} {k : Nat}

/-! ## Streams of a hart -/

/-- A stream that holds a transfer is one of the eight. -/
theorem strm_lt {x : Transfer} (h : (strm s k).xfer = some x) : k < 8 := by
  by_contra high
  have none_ : strm s k = Stream.reset := by
    simp only [strm, List.getD_eq_getElem?_getD, Vector.getElem?_toList, Vector.getElem?_eq_none (Nat.not_lt.mp high), Option.getD_none]
  rw [none_] at h
  cases h

/-- The state with one stream of the hart in focus replaced. -/
def withStream (s : State) (k : Nat) (st : Stream) : State :=
  { s with hart := { s.hart with streams := s.hart.streams.setIfInBounds k st } }

theorem strm_setIfInBounds (v : Vector Stream 8) (st : Stream) (hk : k < 8) : (v.setIfInBounds k st).toList.getD k .reset = st := by
  simp [List.getD_eq_getElem?_getD, hk]

theorem strm_setIfInBounds_other (v : Vector Stream 8) (st : Stream) {j : Nat} (h : j ≠ k) :
    (v.setIfInBounds k st).toList.getD j .reset = v.toList.getD j .reset := by
  simp [List.getD_eq_getElem?_getD, h.symm]

theorem strm_withStream (st : Stream) (hk : k < 8) : strm (withStream s k st) k = st := strm_setIfInBounds _ st hk

theorem strm_withStream_other (st : Stream) {j : Nat} (h : j ≠ k) : strm (withStream s k st) j = strm s j := strm_setIfInBounds_other _ st h

@[simp] theorem M.modStream_run (g : Stream → Stream) (r : Run s0) : M.modStream k g r
    = .ok (⟨⟩, r.emit (.hart { r.s.hart with streams := r.s.hart.streams.setIfInBounds k (g (strm r.s k)) })) := rfl

/-! ## The checks of a transfer word (R115, R139) -/

/-- A transfer word that passes its checks goes on. -/
theorem M.transferCheck_run {rs : List Reg} (mode : s.hart.sr.mmode = false) (some_ : s.hart.sr.vl ≠ 0) (grouped : Grouped s f rs) :
    M.transferCheck (stripEnv s) f rs (Run.start s) = .ok (true, Run.start s) := by
  obtain ⟨width, groups⟩ := grouped
  rw [M.transferCheck, M.bind_ok (M.hart_run _), Run.start_s, if_neg some_, M.bind_ok (M.modeCheck_run M.plain rfl mode),
    M.bind_ok (M.needSew_run _ width), M.bind_ok (M.needGroups_run _ groups)]
  rfl

/-- The state with stream k at the end of a transfer without elements (R139, R145). -/
def emptied (s : State) (k : Nat) : State :=
  let t := withStream s k { strm s k with avail := s.hart.sr.sb, fin := s.hart.sr.sb }
  { t with hart := { t.hart with sr := { s.hart.sr with estart := 0 } } }

/-- With vl = 0 a transfer completes at once. -/
theorem M.transferCheck_empty {rs : List Reg} (empty : s.hart.sr.vl = 0) (free : (strm s (f.ctl.toNat % 8)).xfer = none) :
    ∃ r, M.transferCheck (stripEnv s) f rs (Run.start s) = .ok (false, r) ∧ r.s = emptied s (f.ctl.toNat % 8) := by
  have idle : ¬ (s.hart.streams.toList.getD (f.ctl.toNat % 8) .reset).xfer.isSome = true := by
    rw [← strm, free]
    exact Bool.false_ne_true
  rw [M.transferCheck, M.bind_ok (M.hart_run _), Run.start_s, if_pos empty]
  simp only [stripEnv, Bool.not_false, if_true, if_neg idle]
  exact ⟨_, rfl, rfl⟩

/-- With vl = 0 a transfer waits for its stream all the same. -/
theorem M.transferCheck_stalls {rs : List Reg} (empty : s.hart.sr.vl = 0) (busy : (strm s (f.ctl.toNat % 8)).xfer.isSome = true) :
    M.transferCheck (stripEnv s) f rs (Run.start s) = .error (Run.start s) := by
  have taken : (s.hart.streams.toList.getD (f.ctl.toNat % 8) .reset).xfer.isSome = true := busy
  rw [M.transferCheck, M.bind_ok (M.hart_run _), Run.start_s, if_pos empty]
  simp only [stripEnv, Bool.not_false, if_true, if_pos taken]
  rfl

/-! ## A transfer begins (R145, R147, R151, R159) -/

/-- The elements of a transfer that are still to be moved: those from `estart` on (R145). -/
def pending (s : State) (l : List (Nat × Word × Word)) : List (Nat × Word × Word) :=
  l.filter fun p => s.hart.sr.sb + BitVec.ofNat 64 p.1 ≥ s.hart.sr.estart

/-- A transfer of these elements as it begins: with the strip, the clock and the place in the block of its word (R147, R239). -/
structure Opening (s : State) (kind : TransferKind) (size : Nat) (todo : List (Nat × Word × Word)) (x : Transfer) : Prop where
  kind : x.kind = kind
  todo : x.todo = todo
  size : x.size = size
  sb : x.sb = s.hart.sr.sb
  vl : x.vl = s.hart.sr.vl
  clk : x.clk = s.hart.sr.vclk
  at_ : x.at_ = s.hart.ctx
  fail : x.fail = none

/-- A stream on which a transfer of these elements has begun; with none it has completed at once (R145, R147). -/
structure Started (s : State) (kind : TransferKind) (size : Nat) (todo : List (Nat × Word × Word)) (st : Stream) : Prop where
  fin : st.fin = s.hart.sr.sb + BitVec.ofNat 64 (limit s)
  done : todo = [] → st.avail = st.fin ∧ st.xfer = none
  begun : ∀ p rest, todo = p :: rest → st.avail = s.hart.sr.sb + BitVec.ofNat 64 p.1 ∧ ∃ x, st.xfer = some x ∧ Opening s kind size todo x

/-- The state with a transfer begun on stream k, and the ranges that the block keeps for its exit (R159). -/
def withTransfer (s : State) (k : Nat) (todo : List (Nat × Word × Word)) (st : Stream) (kept : List (Nat × Hulls)) : State :=
  { s with hart := { s.hart with
      streams := s.hart.streams.setIfInBounds k st, sr := { s.hart.sr with estart := if todo = [] then 0 else s.hart.sr.estart },
      ctx := s.hart.ctx.map fun c => { c with kept := kept } } }

/-- A transfer of these elements has begun on stream k, from `estart` on. -/
def TransferBegun (s : State) (kind : TransferKind) (k size : Nat) (es : List (Nat × Word × Word)) (t : State) : Prop :=
  ∃ st, Started s kind size (pending s es) st ∧ ∃ kept, t = withTransfer s k (pending s es) st kept

/-- The stream of a transfer that begins. -/
theorem started_of {kind : TransferKind} {size : Nat} {todo : List (Nat × Word × Word)} {x : Transfer} {st : Stream}
    (xfer : st.xfer = if todo.isEmpty then none else some x) (fin : st.fin = s.hart.sr.sb + BitVec.ofNat 64 (limit s))
    (avail : st.avail = x.avail st.fin) (h : Opening s kind size todo x) : Started s kind size todo st where
  fin := fin
  done empty := by
    subst empty
    exact ⟨by rw [avail, Transfer.avail, h.todo, h.fail], xfer⟩
  begun p rest some_ := by
    subst some_
    exact ⟨by rw [avail, Transfer.avail, h.todo, h.sb], x, xfer, h⟩

/-- The block keeps the ranges of a transfer that stands before an exit (R159). -/
theorem withTransfer_of {t : State} {todo : List (Nat × Word × Word)} {st : Stream} {more : List (Nat × Hulls)} (estart : Word)
    (hstart : estart = if todo = [] then 0 else s.hart.sr.estart)
    (same : t = { s with hart := { s.hart with
      streams := s.hart.streams.setIfInBounds k st, sr := { s.hart.sr with estart := estart },
      ctx := s.hart.ctx.map fun c => if c.exitAhead then { c with kept := c.kept ++ more } else c } }) :
    ∃ kept, t = withTransfer s k todo st kept := by
  subst same hstart
  cases hctx : s.hart.ctx with
  | none => exact ⟨[], by simp [withTransfer, hctx]⟩
  | some c => exact ⟨if c.exitAhead then c.kept ++ more else c.kept, by cases h : c.exitAhead <;> simp [withTransfer, hctx, h]⟩

/-- Nothing of the executing word is held where its strip runs towards no trap (R159). -/
theorem M.holding_false (h : ∀ c, s.hart.ctx = some c → c.holding = false) : M.holding (Run.start s) = .ok (false, Run.start s) := by
  have none_ : (s.hart.ctx.map LoopCtx.holding).getD false = false := by
    cases hctx : s.hart.ctx with
    | none => rfl
    | some c => exact h c hctx
  exact congrArg (fun b => Except.ok (b, Run.start s)) none_

/-- A transfer whose stream is free and whose ranges clash with nothing begins. -/
theorem M.beginTransfer_begins {kind : TransferKind} {size : Nat} {ranges : List (Nat × Word × Word) → Hulls} {clash : Bool}
    {all es : List (Nat × Word × Word)} (begin_ : Begin s (f.ctl.toNat % 8) (ranges (pending s es)) (ranges (pending s all))) :
    Ends (M.beginTransfer (stripEnv s) f kind size ranges clash all es) (Run.start s)
      (TransferBegun s kind (f.ctl.toNat % 8) size es) := by
  obtain ⟨free, flying, apart⟩ := begin_
  have unheld := M.holding_false fun c hctx => (apart c hctx).1
  have others (t : Transfer) (ht : t ∈ s.hart.streams.toList.filterMap (·.xfer)) :
      s.hart.sr.estart = 0 ∧ t.hulls.clashes (ranges (pending s es)) = false := by
    obtain ⟨j, hj, hx⟩ := List.mem_filterMap.mp ht
    exact flying j hj t hx
  refine .next (M.hart_run _) ?_
  split
  case' h_1 c hctx =>
    refine .ite (fun guarded => ?_) fun _ => ?_
    · obtain ⟨ahead, meets⟩ := Bool.and_eq_true_iff.mp guarded
      obtain ⟨p, hp, shares⟩ := List.any_eq_true.mp meets
      obtain ⟨before, clashes⟩ := Bool.and_eq_true_iff.mp shares
      have clear : p.2.clashes (ranges (pending s all)) = false := (apart c hctx).2 ahead p hp (of_decide_eq_true before)
      exact absurd (clashes.symm.trans clear) (by decide)
  all_goals
    refine .ite (fun probe => nomatch probe) fun _ => .next unheld (.ite (fun h => nomatch h) fun _ => .ite (fun busy => ?_) fun _ =>
      .ite (fun waits => ?_) fun _ => .ite (fun meets => ?_) fun _ => .next (M.modHart_run _ _) (.next (M.modStream_run _ _) ?_))
    · have taken : (strm s (f.ctl.toNat % 8)).xfer.isSome = true := busy
      rw [free] at taken
      cases taken
    · obtain ⟨some_, resumes⟩ := Bool.and_eq_true_iff.mp waits
      cases hb : s.hart.streams.toList.filterMap (·.xfer) with
      | nil => simp [hb] at some_
      | cons t ts => exact absurd (others t (by simp [hb])).1 (of_decide_eq_true resumes)
    · obtain ⟨t, ht, clashes⟩ := List.any_eq_true.mp meets
      have clear : t.hulls.clashes (ranges (pending s es)) = false := (others t ht).2
      exact absurd (clashes.symm.trans clear) (by decide)
    · refine .ite (fun none_ => ?_) fun some_ => ?_
      · have empty : pending s es = [] := List.isEmpty_iff.mp none_
        exact ⟨⟨⟩, _, rfl, _, started_of rfl rfl rfl ⟨rfl, rfl, rfl, rfl, rfl, rfl, rfl, rfl⟩, withTransfer_of 0 (if_pos empty).symm rfl⟩
      · have full : pending s es ≠ [] := fun h => some_ (List.isEmpty_iff.mpr h)
        exact .pure ⟨_, started_of rfl rfl rfl ⟨rfl, rfl, rfl, rfl, rfl, rfl, rfl, rfl⟩,
          withTransfer_of s.hart.sr.estart (if_neg full).symm rfl⟩

/-- A transfer without an exit ahead waits while its stream is busy (R147). -/
theorem M.beginTransfer_stalls {kind : TransferKind} {size : Nat} {ranges : List (Nat × Word × Word) → Hulls} {clash : Bool}
    {all es : List (Nat × Word × Word)} (busy : (strm s (f.ctl.toNat % 8)).xfer.isSome = true)
    (near : ∀ c, s.hart.ctx = some c → c.exitAhead = false) :
    M.beginTransfer (stripEnv s) f kind size ranges clash all es (Run.start s) = .error (Run.start s) := by
  have taken : (s.hart.streams.toList.getD (f.ctl.toNat % 8) .reset).xfer.isSome = true := busy
  have unheld := M.holding_false fun c hctx => by rw [LoopCtx.holding, near c hctx, Bool.and_false, Bool.false_and]
  have free : (stripEnv s).probe = false := rfl
  rw [M.beginTransfer, M.bind_ok (M.hart_run _)]
  simp only [Run.start_s, free, Bool.false_eq_true, if_false, taken, if_true]
  cases hctx : s.hart.ctx with
  | none => exact (M.bind_ok unheld).trans rfl
  | some c =>
    simp only [near c hctx, Bool.false_and, Bool.false_eq_true, if_false]
    exact (M.bind_ok unheld).trans rfl

/-! ## The transfer words -/

/-- A word whose core begins a transfer begins it and goes on (R147). -/
theorem begins_of {i : Instr} {core : VEnv → M s PUnit} {kind : TransferKind} {size : Nat} {es : List (Nat × Word × Word)} (hk : k < 8)
    (he : exec i s = vexec s core) (free : Unguarded s) (h : Ends (core (stripEnv s)) (Run.start s) (TransferBegun s kind k size es)) :
    Begins s i kind k size es := by
  obtain ⟨_, r, run, st, started, kept, state⟩ := h
  have next : vecNext r.s r.s.hart.vec = { s with hart := { s.hart with
      streams := s.hart.streams.setIfInBounds k st,
      sr := { s.hart.sr with estart := if pending s es = [] then 0 else s.hart.sr.estart },
      ctx := s.hart.ctx.map fun c => { c with idx := c.idx + 1, kept := kept } } } := by
    rw [state]
    cases hctx : s.hart.ctx <;> simp [vecNext, withTransfer, hctx]
  have own : strm (vecNext r.s r.s.hart.vec) k = st := by
    rw [next]
    exact strm_setIfInBounds _ st hk
  refine ⟨_, he.trans (vexec_next free run), ⟨kept, by rw [next]; rfl⟩, fun j hj => ?_, own ▸ started.fin, ?_⟩
  · rw [next]
    exact strm_setIfInBounds_other _ st hj
  · rw [own]
    change match pending s es with
      | [] => st.avail = _ ∧ st.xfer = none
      | (e, _, _) :: _ => st.avail = _ ∧ _
    cases htodo : pending s es with
    | nil =>
      obtain ⟨avail, xfer⟩ := started.done htodo
      exact ⟨avail.trans started.fin, xfer⟩
    | cons p rest =>
      obtain ⟨avail, x, xfer, h⟩ := started.begun p rest htodo
      exact ⟨avail, x, xfer, h.kind, h.todo, h.size, h.sb, h.vl, h.clk, h.at_, h.fail⟩

/-- Source and destination of an element of a copy (R149). -/
def copied (s : State) (f : VWord) (n e : Nat) : Nat × Word × Word :=
  let o := (s.hart.sr.sb + BitVec.ofNat 64 e) * BitVec.ofNat 64 n
  (e, snapped s (f.x.toNat / 32 % 32) + o, snapped s (f.x.toNat % 32) + o)

theorem M.copyAddrs_run (n : Nat) (es : List Nat) : M.copyAddrs f n es (Run.start s) = .ok (es.map (copied s f n), Run.start s) := by
  rw [M.copyAddrs, M.bind_ok (M.snap_run _ _), M.bind_ok (M.snap_run _ _)]
  rfl

/-- The ranges of a copy (R151): a combining copy reads its destination too. -/
def copyRanges (kind : TransferKind) (n : Nat) (l : List (Nat × Word × Word)) : Hulls :=
  let srcs := l.map fun p => p.2.1.toNat
  let dsts := l.map fun p => p.2.2.toNat
  { rd := if kind = .rcopy then hullOf (srcs ++ dsts) n else hullOf srcs n, wr := hullOf dsts n, sp := (0, 0) }

/-- A copy of its performed elements begins (R149). -/
theorem M.copyOp_begins {kind : TransferKind} {n : Nat} (hn : tyBits f.ty / 8 = n) (mode : s.hart.sr.mmode = false) (some_ : s.hart.sr.vl ≠ 0)
    (grouped : Grouped s f []) (begin_ : Begin s (f.ctl.toNat % 8) (copyRanges kind n (pending s ((acted s f).map (copied s f n))))
      (copyRanges kind n (pending s ((masked s f).map (copied s f n))))) :
    Ends (M.copyOp (stripEnv s) f kind) (Run.start s)
      (TransferBegun s kind (f.ctl.toNat % 8) n ((acted s f).map (copied s f n))) := by
  subst hn
  refine .next (M.transferCheck_run mode some_ grouped) (.ite (fun _ => ?_) fun h => absurd rfl h)
  refine .next M.allElems_run (.next (M.copyAddrs_run _ _) (.next rfl (.next (M.copyAddrs_run _ _) ?_)))
  exact M.beginTransfer_begins (ranges := copyRanges kind (tyBits f.ty / 8)) begin_

/-- A copy waits while its stream is busy (R147). -/
theorem M.copyOp_stalls {kind : TransferKind} (mode : s.hart.sr.mmode = false) (busy : (strm s (f.ctl.toNat % 8)).xfer.isSome = true)
    (grouped : s.hart.sr.vl = 0 ∨ Grouped s f []) (near : ∀ c, s.hart.ctx = some c → c.exitAhead = false) :
    M.copyOp (stripEnv s) f kind (Run.start s) = .error (Run.start s) := by
  by_cases empty : s.hart.sr.vl = 0
  · exact M.bind_error (M.transferCheck_stalls empty busy)
  · refine (M.bind_ok (M.transferCheck_run mode empty (grouped.resolve_left empty))).trans ((M.bind_ok M.allElems_run).trans ?_)
    refine (M.bind_ok (M.copyAddrs_run _ _)).trans ((M.bind_ok rfl).trans ((M.bind_ok (M.copyAddrs_run _ _)).trans ?_))
    exact M.beginTransfer_stalls busy near

/-- Source and scratchpad key of a row of a gather (R148). -/
def gathered (s : State) (f : VWord) (e : Nat) : Nat × Word × Word :=
  (e, snapped s (f.x.toNat % 32) + BitVec.ofNat 64 (el s f.vb (tyBits f.ty) e * M.rowBytes f),
    BitVec.ofNat 64 (spKeyOf s f e (M.rowBase f + ordinalOf (tyBits f.ty) e * M.rowBytes f)))

theorem M.rowAddrs_run (es : List Nat) : M.rowAddrs f es (Run.start s) = .ok (es.map (gathered s f), Run.start s) := by
  rw [M.rowAddrs, M.bind_ok (M.snap_run _ _)]
  rfl

/-- The ranges of a gather (R151). -/
def rowRanges (f : VWord) (l : List (Nat × Word × Word)) : Hulls :=
  { rd := hullOf (l.map fun p => p.2.1.toNat) (M.rowBytes f), wr := (0, 0),
    sp := if l.isEmpty then (0, 0) else (M.rowBase f, M.rowEnd f (l.map (·.1))) }

theorem rowRanges_eq (l : List (Nat × Word × Word)) : rowRanges f l =
    { rd := hullOf (l.map fun p => p.2.1.toNat) (M.rowBytes f), wr := (0, 0),
      sp := if l = [] then (0, 0) else (M.rowBase f, M.rowEnd f (l.map (·.1))) } := by
  cases l <;> rfl

/-- The largest of some numbers is one of them. -/
theorem foldl_max_keeps {p : Nat → Prop} {l : List Nat} {a : Nat} (ha : p a) (h : ∀ x ∈ l, p x) : p (l.foldl max a) := by
  induction l generalizing a with
  | nil => exact ha
  | cons x l ih =>
    refine ih ?_ fun y hy => h y (by simp [hy])
    rcases max_choice a x with first | second
    · rwa [first]
    · rw [second]
      exact h x (by simp)

/-- Rows that all lie in the slice end there together (R148). -/
theorem rowEnd_le {es : List Nat} (h : ∀ e ∈ es, M.rowBase f + ordinalOf (tyBits f.ty) e * M.rowBytes f + M.rowBytes f ≤ 8192) :
    M.rowEnd f es ≤ 8192 := by
  cases es with
  | nil =>
    show f.x.toNat / 512 % 512 * 16 ≤ 8192
    omega
  | cons d es =>
    have first : M.rowBase f + 0 * M.rowBytes f + M.rowBytes f ≤ 8192 := by
      have := h d (by simp)
      omega
    have last := foldl_max_keeps (p := fun o => M.rowBase f + o * M.rowBytes f + M.rowBytes f ≤ 8192)
      (l := (d :: es).map fun e => ordinalOf (tyBits f.ty) e) first fun o ho => by
        obtain ⟨e, he, rfl⟩ := List.mem_map.mp ho
        exact h e he
    show M.rowBase f + (((d :: es).map fun e => ordinalOf (tyBits f.ty) e).foldl max 0 + 1) * M.rowBytes f ≤ 8192
    rw [Nat.succ_mul, ← Nat.add_assoc]
    exact last

/-- A gather of its performed elements begins where its rows lie in the scratchpad slices (R148). -/
theorem vgathCore_begins (mode : s.hart.sr.mmode = false) (some_ : s.hart.sr.vl ≠ 0)
    (grouped : Grouped s f [f.vb]) (inside : M.rowEnd f (acted s f) ≤ 8192)
    (begin_ : Begin s (f.ctl.toNat % 8) (rowRanges f (pending s ((acted s f).map (gathered s f))))
      (rowRanges f (pending s ((masked s f).map (gathered s f))))) :
    Ends (vgathCore f (stripEnv s)) (Run.start s)
      (TransferBegun s .gath (f.ctl.toNat % 8) (M.rowBytes f) ((acted s f).map (gathered s f))) := by
  refine .next (M.transferCheck_run mode some_ grouped) (.ite (fun _ => ?_) fun h => absurd rfl h)
  refine .next M.allElems_run (.next rfl (.ite (fun outside => ?_) fun _ => ?_))
  · exact absurd inside (Nat.not_le.mpr (of_decide_eq_true outside))
  · exact .next (M.rowAddrs_run _) (.next (M.rowAddrs_run _) (M.beginTransfer_begins (ranges := rowRanges f) begin_))

/-! ## Words that look at a stream (R150) -/

/-- Whether or not the slot takes the value, its bit is set once it is noted as written by `vavail` (R239). -/
theorem slotWritten_availSlots (k : Nat) (v : Word) :
    (slotWritten s k v).hart.availSlots ||| BitVec.ofNat 8 (2 ^ k) = s.hart.availSlots ||| BitVec.ofNat 8 (2 ^ k) := by
  have cleared (a b : BitVec 8) : a &&& ~~~b ||| b = a ||| b := by
    ext i hi
    simp only [BitVec.getElem_or, BitVec.getElem_and, BitVec.getElem_not]
    cases a[i] <;> cases b[i] <;> rfl
  rw [slotWritten]
  split
  · rfl
  · exact cleared _ _

/-- `vavail` puts avail into a return slot, and notes that it did. -/
theorem vavail_exec (free : Unguarded s) (mode : s.hart.sr.mmode = false) :
    exec (.vavail f) s = .next { slotWritten s (f.vd.toNat % 8) (strm s (f.ctl.toNat % 8)).avail with
      hart := { (slotWritten s (f.vd.toNat % 8) (strm s (f.ctl.toNat % 8)).avail).hart with
        availSlots := s.hart.availSlots ||| BitVec.ofNat 8 (2 ^ (f.vd.toNat % 8)) } } := by
  obtain ⟨r, writes, state⟩ := M.putSlot_run (f.vd.toNat % 8) (strm s (f.ctl.toNat % 8)).avail (Run.start s)
  have run : vavailCore f (stripEnv s) (Run.start s) = .ok (⟨⟩, r.emit (.hart { r.s.hart with
      availSlots := r.s.hart.availSlots ||| BitVec.ofNat 8 (2 ^ (f.vd.toNat % 8)) })) :=
    (M.bind_ok (M.modeCheck_run M.plain rfl mode)).trans ((M.bind_ok (M.hart_run _)).trans (M.bind_ok writes))
  rw [Run.start_s] at state
  refine (vexec_next (core := vavailCore f) free run).trans (congrArg _ ?_)
  rw [← slotWritten_availSlots (s := s) _ (strm s (f.ctl.toNat % 8)).avail, ← state]
  rfl

/-- `vcwait` goes on when no transfer is on its stream; what the die knows is learned. -/
theorem vcwait_exec (free : Unguarded s) (mode : s.hart.sr.mmode = false) (done : (strm s (f.ctl.toNat % 8)).xfer = none) :
    exec (.vcwait f) s = .next { vecNext (merged s) s.hart.vec with
      hart := { (vecNext (merged s) s.hart.vec).hart with vknown := clkMerge s.hart.vknown (s.die s.hart.id.did).clock } } := by
  have idle : ¬ (s.hart.streams.toList.getD (f.ctl.toNat % 8) .reset).xfer.isSome = true := by
    rw [← strm, done]
    exact Bool.false_ne_true
  have runs : Ends (vcwaitCore f (stripEnv s)) (Run.start s) fun t => t = { merged s with hart := { (merged s).hart with
      vknown := clkMerge s.hart.vknown (s.die s.hart.id.did).clock } } :=
    .next (M.modeCheck_run M.plain rfl mode) (.next (M.hart_run _) (.ite (fun busy => absurd busy idle) fun _ =>
      .ite (fun probe => nomatch probe) fun _ => .next (M.mergeDie_run _) (.read ⟨⟨⟩, _, rfl, rfl⟩)))
  obtain ⟨_, r, run, state⟩ := runs
  exact (vexec_next (core := vcwaitCore f) free run).trans (by rw [state]; rfl)

theorem vcwait_stalls (free : Unguarded s) (mode : s.hart.sr.mmode = false) (busy : (strm s (f.ctl.toNat % 8)).xfer.isSome = true) :
    exec (.vcwait f) s = .next s := by
  have taken : (s.hart.streams.toList.getD (f.ctl.toNat % 8) .reset).xfer.isSome = true := busy
  refine vexec_end (core := vcwaitCore f) (r := Run.start s) free ?_
  refine (M.bind_ok (M.modeCheck_run M.plain rfl mode)).trans ((M.bind_ok (M.hart_run _)).trans ?_)
  exact (congrFun (if_pos taken) (Run.start s)).trans rfl

/-- With vl = 0 a transfer word completes at once, and the block goes on (R139, R145). -/
theorem transfer_empty {i : Instr} {core : VEnv → M s PUnit} {rs : List Reg} {rest : Bool → M s PUnit} (he : exec i s = vexec s core)
    (check : core (stripEnv s) = M.transferCheck (stripEnv s) f rs >>= rest) (ends : rest false = pure ⟨⟩)
    (free : Unguarded s) (empty : s.hart.sr.vl = 0) (idle : (strm s (f.ctl.toNat % 8)).xfer = none) :
    exec i s = .next (vecNext (emptied s (f.ctl.toNat % 8)) s.hart.vec) := by
  obtain ⟨r, run, state⟩ := M.transferCheck_empty (rs := rs) empty idle
  have runs : core (stripEnv s) (Run.start s) = .ok (⟨⟩, r) := by
    rw [check, M.bind_ok run, ends]
    rfl
  rw [he, vexec_next free runs, state]
  rfl

end Sys2Proof.Machine

namespace Sys2Proof.Proofs

/-- Settles O31: a transfer word passes its checks, finds its stream free, and leaves a transfer of its pending elements on it. Choice of the
model in it: log 39. -/
theorem transfersBeginOnTheirStream : Obligations.TransfersBeginOnTheirStream := by
  intro s f free mode w n k es dst src moved size row rows q live copyHulls rowHulls put
  have hk : k < 8 := Nat.mod_lt _ (by decide)
  refine ⟨fun empty idle => ?_, fun some_ grouped => ⟨fun begin_ => ?_, fun begin_ => ?_, fun group inside begin_ => ?_⟩,
    fun busy grouped near => ⟨?_, ?_, ?_⟩, vavail_exec free mode, fun done => vcwait_exec free mode done⟩
  · simp only [List.forall_mem_cons, List.not_mem_nil, false_imp_iff, implies_true, and_true]
    exact ⟨transfer_empty (core := vgathCore f) rfl rfl rfl free empty idle, transfer_empty (core := vcopyCore f) rfl rfl rfl free empty idle,
      transfer_empty (core := vrcopyCore f) rfl rfl rfl free empty idle⟩
  · exact begins_of (core := vcopyCore f) hk rfl free (M.copyOp_begins rfl mode some_ grouped begin_)
  · exact begins_of (core := vrcopyCore f) hk rfl free (M.copyOp_begins rfl mode some_ grouped begin_)
  · have grouped' : Grouped s f [f.vb] := ⟨grouped.1, by simpa using group⟩
    exact begins_of (core := vgathCore f) hk rfl free (vgathCore_begins mode some_ grouped' (rowEnd_le inside)
      (by rw [rowRanges_eq, rowRanges_eq]; exact begin_))
  · exact vexec_end (core := vcopyCore f) (r := Run.start s) free (M.copyOp_stalls mode busy grouped near)
  · exact vexec_end (core := vrcopyCore f) (r := Run.start s) free (M.copyOp_stalls mode busy grouped near)
  · exact vcwait_stalls free mode busy

end Sys2Proof.Proofs
end

section
/-!
PROOFS. One element of an engine transfer that is copied or combined (R91, R145, R149, R239, R240): its two checks, what it reads, and its store.
-/

open Sys2Proof Sys2Proof.Machine Sys2Proof.Claim

namespace Sys2Proof.Machine

variable {s0 s t u : State}

/-! ## Reads of the engine -/

/-- A home that a clock reaches lets the access go on (R236, R240). -/
theorem M.needServedBy_run {c : Clock} {home : Nat} {r : Run s0} (h : ReachedBy r.s c home) : M.needServedBy c home r = .ok (⟨⟩, r) := by
  obtain ⟨tails, own, far⟩ := h
  rw [M.needServedBy, M.bind_ok (M.needTails_run tails), M.bind_ok (M.hart_run r), M.ite_run]
  by_cases hd : home = r.s.hart.id.did
  · rw [if_pos hd]
    exact M.needCoveredBy_run (hd ▸ own hd)
  · obtain ⟨opened, empty, covered⟩ := far hd
    rw [if_neg hd, M.bind_ok (M.hart_run r), M.bind_ok (M.needOpen_run opened)]
    exact M.needChannel_run empty covered

theorem Kept.reachedBy {c : Clock} {home : Nat} (h : Kept s t) (hr : ReachedBy s c home) : ReachedBy t c home := by
  rw [h.same]
  exact ⟨hr.tails, hr.own, hr.far⟩

/-- A packet without a number tells its home a clock, and changes the fabric alone. -/
theorem M.arrive_run (home : Nat) (c : Clock) (r : Run s0) :
    ∃ r' : Run s0, M.arrive home none c r = .ok (⟨⟩, r') ∧ r'.s = { r.s with fab := r'.s.fab } := ⟨_, rfl, rfl⟩

/-- A read of the engine is a read at the home, whose clock has learned what the transfer knows (R239). -/
theorem M.engineRead_run (x : Transfer) (a : Acc) (n : Nat) (r : Run s0) : ∃ r1 : Run s0, r1.s = { r.s with fab := r1.s.fab }
    ∧ M.engineRead x a n r = M.readHome a.pa n (M.slicePath a) a.leaf.ww r1 := by
  rw [M.engineRead, M.bind_ok (M.hart_run r), M.ite_run]
  split
  · obtain ⟨r1, arrives, fab⟩ := M.arrive_run a.leaf.home x.clk r
    exact ⟨r1, fab, M.bind_ok arrives⟩
  · exact ⟨r, rfl, rfl⟩

theorem looked_fab (same : t = { s with fab := t.fab }) : Looked 0 s t := by
  rw [same]
  exact looked_clocks s s.hart.sr.vclk s.hart.vknown t.fab

/-- An element of memory is read as it is seen; its line then lies in no L1. -/
theorem M.engineRead_looks {x : Transfer} {n : Nat} {a : Acc} {bs : List Byte} {r : Run s0} (hn : n ∈ [1, 2, 4, 8]) (h : Readable r.s 1 n a bs) :
    ∃ r' : Run s0, M.engineRead x a n r = .ok (some bs, r') ∧ Looked 1 r.s r'.s ∧ AtSlice r'.s (a.pa / 64) := by
  obtain ⟨r1, fab, reads⟩ := M.engineRead_run x a n r
  have reached : Readable r1.s 1 n a bs := Readable.after (k := 0) h (looked_fab fab)
  obtain ⟨r2, home, looked⟩ := M.readHome_looks hn reached
  obtain ⟨r3, home', -, slice⟩ := M.readHome_seen (.of_aligned hn h.aligned) (slicePath_host a) (.inl reached.room) reached.val
  obtain ⟨-, rfl⟩ := Prod.mk.inj (Except.ok.inj (home.symm.trans home'))
  exact ⟨r2, reads.trans home, Nat.zero_add 1 ▸ (looked_fab fab).trans looked,
    slice (regionOf_hostMem h.mem).1 (slicePath_bySlice a)⟩

/-! ## Stores of the engine -/

/-- The engine has stored bytes of memory; what goes with a write has happened, and no more. -/
def EngineStored (pa : Nat) (bs : List Byte) (s t : State) : Prop := (∃ d, Beside (withKnown s d) t) ∧ MemStored pa bs s t

theorem Looked.beside {k : Nat} (h : Looked k s t) : ∃ d, Beside (withKnown s d) t := by
  obtain ⟨c, d, same⟩ := h.same
  refine ⟨d, ?_⟩
  rw [same]
  exact { beside_frame.refl _ with hart := ⟨s.hart.x, s.hart.early, c, rfl⟩, regs := fun _ => rfl }

theorem EngineStored.after_looked {k pa : Nat} {bs : List Byte} (h : Looked k s t) (l : EngineStored pa bs t u) : EngineStored pa bs s u := by
  obtain ⟨_, before⟩ := h.beside
  obtain ⟨⟨d, beside⟩, bytes⟩ := l
  refine ⟨⟨d, beside_frame.trans (before.knowing d) beside⟩, fun q hq => (bytes q hq).trans (overlaid_congr ?_ pa bs)⟩
  rw [liveByte, liveByte, h.line]

/-- A store of the engine writes its bytes, with a number of the hart's die (R238). -/
theorem M.storeNowBy_stores {c : Clock} {a : Acc} {bs : List Byte} {r : Run s0} (h : Storable r.s a.pa bs) :
    Ends (M.storeNowBy c a bs) r (EngineStored a.pa bs r.s) := by
  refine .next (M.hart_run r) ?_
  refine (M.hartNumber_clocks r).bind fun num r1 h1 => (M.arrive_clocks _ _ _ r1).bind fun _ r2 h2 => ?_
  have clocked : Clocked r.s r2.s := clocked_frame.trans h1 h2
  refine (M.performStore_stores (slicePath_host a) clocked.key (h.of_clocked clocked)).bind fun _ r3 stored => ?_
  have all : Stored a.leaf.ww a.pa bs r.s r3.s := .after_clocked clocked stored
  exact .next (M.hart_run r3) (.emit ⟨⟨_, all.1.knowing _⟩, all.memStored⟩)

/-! ## Copies -/

/-- An element that the engine may copy: both accesses pass their checks and are served, its bytes are seen, and its store is of memory,
with a number in the window. -/
structure Movable (s : State) (x : Transfer) (src dst : Word) (k : Kind) (a d : Acc) (bs : List Byte) : Prop where
  clash : x.clash = false
  size : x.size ∈ [1, 2, 4, 8]
  source : ElemOk s x.clk src x.size 2 .load a
  target : ElemOk s x.clk dst x.size 2 k d
  bytes : seen s a x.size = some bs
  wf : s.cells.wf = true
  tail : s.tailAt (d.pa / 8 * 8) = none
  window : s.windowShut s.hart.id.did 1 = []

theorem elemOk_page {c : Clock} {va : Word} {n m : Nat} {k : Kind} {a : Acc} (h : ElemOk s c va n m k a) : PageOk s va n k a :=
  ⟨h.aligned.1, h.fresh, h.allowed⟩

theorem elemOk_readable {c : Clock} {va : Word} {n m : Nat} {k : Kind} {a : Acc} {bs : List Byte} (h : ElemOk s c va n m k a)
    (val : seen s a n = some bs) : Readable s m n a bs := ⟨h.aligned.2, h.mem, h.room, h.early, val⟩

theorem Looked.roomy {j m la : Nat} (h : Looked j s t) (room : Roomy s la (j + m)) : Roomy t la m := by
  have before : crowd s.img.cache la + (j + m) ≤ cacheLines .l2 := room
  have grown := h.room la
  show crowd t.img.cache la + m ≤ cacheLines .l2
  omega

section

variable {x : Transfer} {src dst : Word} {k : Kind} {a d : Acc} {bs ob : List Byte}

/-- The checks of an element and the read of its source, in their order (R149). -/
theorem Movable.reads (h : Movable s x src dst k a d bs) : ∃ r1 r2 r3 : Run s,
    M.check src x.size .load (Run.start s) = .ok (.ok a, r1) ∧ M.check dst x.size k r1 = .ok (.ok d, r2)
    ∧ M.needWindow r2.s.hart.id.did 1 r2 = .ok (⟨⟩, r2) ∧ M.needServedBy x.clk a.leaf.home r2 = .ok (⟨⟩, r2)
    ∧ M.needServedBy x.clk d.leaf.home r2 = .ok (⟨⟩, r2) ∧ M.engineRead x a x.size r2 = .ok (some bs, r3) ∧ Looked 1 s r3.s := by
  obtain ⟨r1, first, kept1, hart1⟩ := M.check_keeps (r := Run.start s) (elemOk_page h.source)
  obtain ⟨r2, second, kept2, hart2⟩ := M.check_keeps (kept1.page (elemOk_page h.target))
  have kept : Kept s r2.s := kept_frame.trans kept1 kept2
  have hart : r2.s.hart = s.hart := hart2.trans hart1
  have looked0 : Looked 0 s r2.s := kept.looked hart
  have window : r2.s.windowShut r2.s.hart.id.did 1 = [] := by
    rw [hart, kept.same]
    exact h.window
  obtain ⟨r3, reads, looked, -⟩ := M.engineRead_looks (x := x) h.size (Readable.after (k := 0)
    { elemOk_readable h.source h.bytes with room := (Nat.le_succ _).trans h.source.room } looked0)
  exact ⟨r1, r2, r3, first, second, M.needWindow_run window, M.needServedBy_run (kept.reachedBy h.source.served),
    M.needServedBy_run (kept.reachedBy h.target.served), reads, looked0.trans looked⟩

/-- The bytes of an element may be stored over its destination. -/
theorem Movable.storable {j : Nat} {vs : List Byte} {r : Run s} (h : Movable s x src dst k a d bs) (looked : Looked j s r.s)
    (room : Recallable r.s (d.pa / 64)) (length : vs.length = x.size) : Storable r.s d.pa vs where
  inLine := by rw [length]; exact .of_aligned h.size h.target.aligned.2
  mem := h.target.mem
  wf := Reach.keeps (p := fun s => s.cells.wf = true) (fun u _ => apply_cells_wf u) r.reach h.wf
  tails c hc := by
    obtain ⟨_, beside⟩ := looked.beside
    rw [cutWords_aligned (by rw [length]; exact h.size) (by rw [length]; exact h.target.aligned.2) c hc, beside.tailAt]
    exact h.tail
  room := room

/-- Bytes that are seen of an element are as many as it has. -/
theorem Movable.length (h : Movable s x src dst k a d bs) : bs.length = x.size := by
  rw [← (seen_memory h.source.mem h.bytes).2]
  exact InLine.liveBytes_length (.of_aligned h.size h.source.aligned.2) _

/-- An element of a `vcopy` is copied (R149). -/
theorem M.performElement_copies (kind : x.kind = .copy) (h : Movable s x src dst .store a d bs) :
    ∃ r, M.performElement x src dst (Run.start s) = .ok (none, r) ∧ EngineStored d.pa bs s r.s := by
  obtain ⟨r1, r2, r3, first, second, window, near, far, reads, looked⟩ := h.reads
  have bytes : toBytes x.size (ofBytes bs) = bs := by rw [← h.length, toBytes_ofBytes]
  obtain ⟨_, r4, stores, stored⟩ := M.storeNowBy_stores (c := x.clk) (h.storable looked (.inl (looked.roomy h.target.room)) h.length)
  rw [← bytes] at stores
  refine ⟨r4, ?_, stored.after_looked looked⟩
  rw [M.performElement, kind]
  refine (M.bind_ok first).trans ((M.bind_ok second).trans ((M.bind_ok (M.hart_run _)).trans ((M.bind_ok window).trans ?_)))
  refine (M.bind_ok near).trans ((M.bind_ok far).trans ((M.bind_ok reads).trans ?_))
  simp only [reduceCtorEq, if_false, h.clash, Bool.false_eq_true, M.bind_run, M.pure_run, stores]

/-- An element of a `vrcopy` is combined with what its destination holds (R149). -/
theorem M.performElement_combines (kind : x.kind = .rcopy) (h : Movable s x src dst .atomic a d bs) (old : seen s d x.size = some ob) :
    ∃ r, M.performElement x src dst (Run.start s) = .ok (none, r)
      ∧ EngineStored d.pa (toBytes x.size (combine x.ty x.op (ofBytes ob) (ofBytes bs))) s r.s := by
  obtain ⟨r1, r2, r3, first, second, window, near, far, reads, looked⟩ := h.reads
  obtain ⟨r4, again, looked', slice⟩ := M.engineRead_looks (x := x) h.size ((elemOk_readable h.target old).after (k := 1) looked)
  have both := looked.trans looked'
  obtain ⟨_, r5, stores, stored⟩ := M.storeNowBy_stores (c := x.clk) (h.storable both (.inr slice) (toBytes_length x.size
    (combine x.ty x.op (ofBytes ob) (ofBytes bs))))
  refine ⟨r5, ?_, stored.after_looked both⟩
  rw [M.performElement, kind]
  refine (M.bind_ok first).trans ((M.bind_ok second).trans ((M.bind_ok (M.hart_run _)).trans ((M.bind_ok window).trans ?_)))
  refine (M.bind_ok near).trans ((M.bind_ok far).trans ((M.bind_ok reads).trans ((M.bind_ok again).trans ?_)))
  simp only [if_true, h.clash, Bool.false_eq_true, if_false, M.bind_run, M.pure_run, stores]

end

end Sys2Proof.Machine
end

section
/-!
PROOFS. One row of a gather (R148): its check, the lines of memory that it is read from, and its place in the scratchpad.
-/

open Sys2Proof Sys2Proof.Machine Sys2Proof.Claim

namespace Sys2Proof.Machine

variable {s0 s t u : State}

/-! ## Rows of several lines -/

/-- An access by the home slice puts the line that it opens to the caches at most. -/
theorem M.openLine_puts {la : Nat} {p : Path} (ww : Bool) {r : Run s0} (hp : p.BySlice) (hhost : p.host = false) (room : Roomy r.s la 1) :
    Ends (M.openLine la p ww) r fun t => PutOne la r.s.img.cache t.img.cache := by
  refine (M.recallLine_opens_line la r hp hhost room).bind fun _ r' ⟨opened, addrs⟩ => ?_
  cases p.alloc with
  | none => exact .pure opened.put
  | some lvl =>
    refine .read ?_
    split
    · exact ⟨⟨⟩, _, rfl, r'.s.img.cache, addrs, .inr ⟨_, rfl, rfl⟩⟩
    · exact .pure opened.put

/-- Up to k lines have been opened for words of a width: the live image that they see is as before. -/
structure Scanned (ww : Bool) (k : Nat) (s t : State) : Prop where
  opened : Opened ww s t
  room : ∀ la, crowd t.img.cache la ≤ crowd s.img.cache la + k

/-- Lines that have room together are opened one after another. -/
theorem M.openLines_scan {p : Path} (ww : Bool) (hp : p.BySlice) (hhost : p.host = false) (las : List Nat) (r : Run s0)
    (room : ∀ la ∈ las, Roomy r.s la las.length) : Ends (M.each las fun la => M.openLine la p ww) r (Scanned ww las.length r.s) := by
  induction las generalizing r with
  | nil => exact .pure ⟨(opened_frame ww).refl _, fun _ => le_rfl⟩
  | cons la las ih =>
    have first : Roomy r.s la 1 := (Nat.add_le_add_left (Nat.succ_le_succ (Nat.zero_le _)) _).trans (room la (by simp))
    refine ((M.openLine_opens la p ww r hhost (.inl first)).and (M.openLine_puts ww hp hhost first)).bind fun _ r1 ⟨⟨opened, _⟩, put⟩ => ?_
    refine (ih r1 fun lb hlb => ?_).mono fun t rest => ⟨(opened_frame ww).trans opened rest.opened, fun lb => ?_⟩
    · have before : crowd r.s.img.cache lb + (las.length + 1) ≤ cacheLines .l2 := room lb (by simp [hlb])
      have grown := put.crowd lb
      show crowd r1.s.img.cache lb + las.length ≤ cacheLines .l2
      omega
    · have grown := put.crowd lb
      have more := rest.room lb
      simp only [List.length_cons]
      omega

@[simp] theorem rangeFrom_length (a n : Nat) : (rangeFrom a n).length = n := by
  rw [rangeFrom, List.length_map, List.length_range]

theorem mem_rangeFrom {a n x : Nat} : x ∈ rangeFrom a n ↔ a ≤ x ∧ x < a + n := by
  simp only [rangeFrom, List.mem_map, List.mem_range]
  exact ⟨fun ⟨i, hi, hx⟩ => by omega, fun h => ⟨x - a, by omega, by omega⟩⟩

/-- n bytes of memory, in however many lines, are read at their home as they are seen. -/
theorem M.readHome_scans {n : Nat} {a : Acc} {bs : List Byte} {r : Run s0} (mem : isHostMem a.pa = true) (some_ : 0 < n)
    (room : ∀ la, a.pa / 64 ≤ la → la ≤ (a.pa + n - 1) / 64 → Roomy r.s la (n / 64 + 2)) (val : seen r.s a n = some bs) :
    ∃ r' : Run s0, M.readHome a.pa n (M.slicePath a) a.leaf.ww r = .ok (some bs, r') ∧ Opened a.leaf.ww r.s r'.s := by
  obtain ⟨clean, bytes⟩ := seen_memory mem val
  have lines : (a.pa + n - 1) / 64 + 1 - a.pa / 64 ≤ n / 64 + 2 := by omega
  have roomy (la : Nat) (hla : la ∈ rangeFrom (a.pa / 64) ((a.pa + n - 1) / 64 + 1 - a.pa / 64)) :
      Roomy r.s la (rangeFrom (a.pa / 64) ((a.pa + n - 1) / 64 + 1 - a.pa / 64)).length := by
    obtain ⟨low, high⟩ := mem_rangeFrom.mp hla
    rw [rangeFrom_length]
    exact (Nat.add_le_add_left lines _).trans (room la low (by omega))
  obtain ⟨_, r', opens, scanned⟩ := M.openLines_scan a.leaf.ww (slicePath_bySlice a) (slicePath_host a) _ r roomy
  refine ⟨r', ?_, scanned.opened⟩
  have after : r'.s.liveBytes a.pa n a.leaf.ww = bs := (scanned.opened.liveBytes _ _).trans bytes
  simp only [M.readHome, M.ite_run, beq_iff_eq, if_neg (regionOf_hostMem mem).1, M.bind_run, M.st_run, clean, opens, M.pure_run, after]

/-! ## Rows of a gather -/

/-- A row of a gather that the engine may move: its check passes on its first 16 bytes, it lies in one page, its home serves it, its lines have
room, and its bytes are seen (R91, R148). -/
structure Gatherable (s : State) (x : Transfer) (src : Word) (a : Acc) (bs : List Byte) : Prop where
  source : ElemOk s x.clk src 16 1 .load a
  bytes : seen s a x.size = some bs
  some_ : 0 < x.size
  room : ∀ la, a.pa / 64 ≤ la → la ≤ (a.pa + x.size - 1) / 64 → Roomy s la (x.size / 64 + 2)
  inPage : src.toNat % 2 ^ 18 + x.size ≤ 2 ^ 18

/-- A row has been put into the scratchpad; memory, the harts and the streams are as before. -/
structure RowPut (s t : State) (key : Nat) (bs : List Byte) : Prop where
  hart : t.hart = s.hart
  others : t.others = s.others
  scratch : t.scratch = s.scratch.writes key bs
  memory : ∀ q, isHostMem q = true → liveByte t true q = liveByte s true q

section

variable {x : Transfer} {src dst : Word} {a : Acc} {bs : List Byte}

/-- A row in one page is one piece (R148). -/
theorem M.rowPieces_run (h : Gatherable s x src a bs) : ∃ r1 : Run s,
    M.rowPieces 2 src.toNat x.size (Run.start s) = .ok (.ok [(a, x.size)], r1) ∧ Kept s r1.s ∧ r1.s.hart = s.hart := by
  obtain ⟨r1, checks, kept, hart⟩ := M.check_keeps (r := Run.start s) (elemOk_page h.source)
  refine ⟨r1, ?_, kept, hart⟩
  have whole : min x.size (2 ^ 18 - src.toNat % 2 ^ 18) = x.size := by
    have := h.inPage
    omega
  have same : BitVec.ofNat 64 src.toNat = src := by simp
  have pos : x.size ≠ 0 := h.some_.ne'
  rw [M.rowPieces, if_neg pos, whole, same, M.bind_ok checks]
  dsimp only
  rw [Nat.sub_self]
  rfl

/-- The engine reads a row as it is seen, whatever lines it opens for it. -/
theorem M.engineRead_row {r : Run s} (h : Gatherable s x src a bs) (kept : Kept s r.s) : ∃ r' : Run s,
    M.engineRead x a x.size r = .ok (some bs, r') ∧ r'.s.hart = r.s.hart ∧ r'.s.others = r.s.others ∧ r'.s.scratch = r.s.scratch
      ∧ ∀ k, r'.s.liveLine k a.leaf.ww = s.liveLine k a.leaf.ww := by
  obtain ⟨r1, fab, reads⟩ := M.engineRead_run x a x.size r
  have looked := looked_fab fab
  have val : seen r1.s a x.size = some bs := (looked.seen h.source.mem).trans ((kept.seen a x.size).trans h.bytes)
  obtain ⟨r2, home, opened⟩ := M.readHome_scans h.source.mem h.some_ (fun la low high =>
    looked.roomy (by rw [Nat.zero_add]; exact kept.roomy (h.room la low high))) val
  refine ⟨r2, reads.trans home, ?_, ?_, ?_, fun k => (opened.line k).trans ((looked.line k _).trans (kept.line k _))⟩ <;>
    rw [opened.same, fab]

/-- A row of a `vgath` goes into the scratchpad (R148). -/
theorem M.performElement_gathers (kind : x.kind = .gath) (h : Gatherable s x src a bs) :
    ∃ r, M.performElement x src dst (Run.start s) = .ok (none, r) ∧ RowPut s r.s dst.toNat bs := by
  obtain ⟨r1, pieces, kept, hart1⟩ := M.rowPieces_run h
  obtain ⟨r2, reads, hart2, others, scratch, lines⟩ := M.engineRead_row h kept
  have served : M.each [(a, x.size)] (fun p => M.needServedBy x.clk p.1.leaf.home) r1 = .ok (⟨⟩, r1) := by
    rw [M.each_cons_run, M.needServedBy_run (kept.reachedBy h.source.served)]
    rfl
  have row : M.collect [(a, x.size)] (fun p => do return (p.1, ← M.engineRead x p.1 p.2)) r1 = .ok ([(a, some bs)], r2) := by
    rw [M.collect, M.bind_ok (M.bind_ok reads)]
    rfl
  have bytes : ([(a, some bs)].flatMap fun p => p.2.getD []) = bs := by simp
  rw [M.performElement, kind]
  refine ⟨_, (M.bind_ok pieces).trans ((M.bind_ok served).trans ((M.bind_ok row).trans rfl)), ?_, ?_, ?_, fun q hq => ?_⟩
  · exact hart2.trans hart1
  · rw [kept.same] at others
    exact others
  · rw [kept.same] at scratch
    show Memory.writes r2.s.scratch _ _ = _
    rw [scratch, bytes]
    rfl
  · rw [liveByte_memory hq true a.leaf.ww, liveByte_memory (s := s) hq true a.leaf.ww, liveByte, liveByte, ← lines]
    rfl

end

end Sys2Proof.Machine
end

section
/-!
PROOFS. The engine's events (R145, R147 to R149, R337): an element is performed and leaves its transfer, and a transfer completes.
-/

open Sys2Proof Sys2Proof.Machine Sys2Proof.Claim

namespace Sys2Proof.Machine

variable {s0 s t u : State} {k e : Nat} {x y : Transfer} {src dst : Word}

/-- A transfer that has performed its last element completes (R147). -/
theorem transferComplete_exec (xfer : (strm s k).xfer = some x) (todo : x.todo = []) (fail : x.fail = none) :
    exec (.engineTransferComplete s.hart.key k) s = .next { s with hart := { s.hart with
      streams := s.hart.streams.setIfInBounds k { strm s k with avail := (strm s k).fin, xfer := none },
      sr := { s.hart.sr with estart := 0 } } } := by
  have held : (s.hart.streams.toList.getD k .reset).xfer = some x := xfer
  have finished : (x.todo.isEmpty && x.fail.isNone) = true := by rw [todo, fail]; rfl
  show exec1 s _ = _
  rw [exec1_eq, M.bind_ok (M.focus_start s), M.bind_ok (M.hart_run _), Run.start_s, held]
  dsimp only
  rw [M.bind_ok (M.need_true finished)]
  rfl

/-! ## What an element leaves of its transfer -/

/-- The transfer without an element. -/
def Transfer.without (x : Transfer) (e : Nat) : Transfer := { x with todo := x.todo.filter fun p => p.1 ≠ e }

/-- The stream behind an element that has been performed: `avail` follows (R145). -/
def movedPast (s : State) (k e : Nat) (x : Transfer) : Stream :=
  { strm s k with avail := (x.without e).avail (strm s k).fin, xfer := some (x.without e) }

/-- The engine may perform an element now: elements of a `vrcopy` go in index order, behind every earlier transfer (R149). -/
def InTurn (s : State) (x : Transfer) (e : Nat) : Prop :=
  x.kind = .rcopy → (x.todo.map (·.1)).head? = some e ∧ ∀ st ∈ s.hart.streams.toList, ∀ y, st.xfer = some y → y.order ≥ x.order

/-- An element that is performed without a failure leaves its transfer; then its line may lose its poison (R145, R337). -/
theorem element_leads {p : State → Prop} {r : Run s} (xfer : (strm s k).xfer = some x) (fail : x.fail = none)
    (find : x.todo.find? (fun p => p.1 == e) = some (e, src, dst)) (turn : InTurn s x e)
    (performs : M.performElement x src dst (Run.start s) = .ok (none, r)) (streams : r.s.hart.streams = s.hart.streams)
    (rest : ∀ r1 : Run s, r1.s = withStream r.s k (movedPast s k e x) → Ends (M.noteWrote k (x.without e) dst) r1 p) :
    Leads s (.engineElementPerformed s.hart.key k e) p := by
  have held : (s.hart.streams.toList.getD k .reset).xfer = some x := xfer
  refine Ends.leads rfl (.next (M.focus_start s) (.next (M.hart_run _) ?_))
  rw [Run.start_s, held]
  dsimp only
  rw [find]
  have same : strm r.s k = strm s k := by rw [strm, strm, streams]
  refine .ite (fun kind => ?_) fun _ => ?_
  case' refine_1 =>
    obtain ⟨first, behind⟩ := turn kind
    refine .next (M.need_true (beq_iff_eq.mpr first)) (.next (M.need_true (List.all_eq_true.mpr fun st hst => ?_)) ?_)
    · cases hx : st.xfer with
      | none => rfl
      | some y => exact decide_eq_true (behind st hst y hx)
  all_goals
    refine .next performs (.next (M.modStream_run _ _) (.ite (fun _ => ?_) fun failed => absurd rfl failed))
    refine (rest _ (by rw [movedPast, ← same]; rfl)).bind fun _ r2 h => ?_
    split
    next trap => exact absurd (fail.symm.trans trap) (by simp)
    next => exact .pure h

/-! ## Poison of the lines that a transfer has written (R337) -/

theorem washed_img {m : Images} (cache : m.cache = s.img.cache) : Washed s (Upd.apply s (.img m)) := by
  refine ⟨{ beside_frame.refl s with }, rfl, fun la ww => ?_⟩
  simp only [State.liveLine, img_img, cache]
  rfl

theorem washed_port (s : State) (p : HostPort) : Washed s (Upd.apply s (.port p)) :=
  ⟨{ beside_frame.refl s with }, rfl, fun _ _ => rfl⟩

theorem washed_fresh (same : t = { s with fresh := t.fresh }) : Washed s t := by
  rw [same]
  exact ⟨{ beside_frame.refl s with }, rfl, fun _ _ => rfl⟩

theorem Washed.hart (h : Washed s t) : t.hart = s.hart := h.2.1

/-- A translation, whatever it finds, leaves memory and the harts. -/
theorem M.translate_washes (vf va : Nat) : Does (M.translate vf va : M s0 WalkRes) Washed := fun r => by
  obtain ⟨r1, picks, same⟩ := M.pickWalk_run (r.s.walk vf va) (r.s.tlbOf vf va) r
  refine .read (.next picks (Ends.mono (p := Washed r1.s) ?_ fun _ => washed_frame.trans (washed_fresh same)))
  cases taken (r.s.walk vf va) r.s.fresh (r.s.tlbOf vf va) with
  | leaf l => exact ⟨_, _, rfl, washed_img rfl⟩
  | fault => exact ⟨_, _, rfl, washed_img rfl⟩
  | poison pa => exact ⟨_, _, rfl, washed_port _ _⟩

/-- A check, whatever it answers, leaves memory and the harts. -/
theorem M.check_washes (va : Word) (n : Nat) (k : Kind) : Does (M.check va n k : M s0 (Except (BitVec 8) Acc)) Washed := fun r => by
  refine .next (M.hart_run r) (.ite (fun _ => .pure (washed_frame.refl _)) fun _ => ?_)
  refine Does.bind washed_frame (M.translate_washes _ _) (fun w r1 => .read ?_) r
  cases r1.s.checkLeaf r.s.hart.id.tenant va.toNat n k w with
  | ok a => exact ⟨_, _, rfl, washed_img rfl⟩
  | error c => exact .pure (washed_frame.refl _)

/-- The state with the streams of the hart in focus replaced. -/
def withStreams (s : State) (v : Vector Stream 8) : State := { s with hart := { s.hart with streams := v } }

theorem Washed.withStreams (h : Washed s t) (v : Vector Stream 8) : Washed (withStreams s v) (withStreams t v) := by
  obtain ⟨beside, hart, line⟩ := h
  have same : (Machine.withStreams t v).hart = (Machine.withStreams s v).hart := by rw [Machine.withStreams, hart]; rfl
  refine ⟨{ beside with hart := ⟨_, _, _, same⟩, regs := fun r => by rw [same] }, same, line⟩

/-- A transfer on stream k may have noted a line that it writes, and marks of poison may have been cleared; nothing else has changed. -/
structure Noting (k : Nat) (y : Transfer) (s t : State) : Prop where
  washed : Washed (withStreams s t.hart.streams) t
  others : ∀ j, j ≠ k → strm t j = strm s j
  own : ∃ w, strm t k = { strm s k with xfer := some { y with wrote := w } }

theorem Noting.of_washed (held : (strm s k).xfer = some y) (h : Washed s t) : Noting k y s t where
  washed := by
    have same : withStreams s t.hart.streams = s := by rw [h.hart]; rfl
    rw [same]
    exact h
  others j _ := by rw [strm, strm, h.hart]
  own := ⟨y.wrote, by rw [strm, h.hart, ← strm]; exact congrArg (fun x => { strm s k with xfer := x }) held⟩

/-- Noting what an element has written changes no more than the transfer's own notes and marks of poison. -/
theorem M.noteWrote_notes {r : Run s0} (held : (strm r.s k).xfer = some y) : Ends (M.noteWrote k y dst) r (Noting k y r.s) := by
  refine .ite (fun _ => .pure (.of_washed held (washed_frame.refl _))) fun _ => ?_
  refine (M.check_washes _ _ _ r).bind fun c r1 checked => ?_
  cases c with
  | error c => exact .pure (.of_washed held checked)
  | ok d =>
    refine .read (.ite (fun _ => ?_) fun _ => .pure (.of_washed held checked))
    refine .next (M.modStream_run _ _) ((M.clearCovered_washes _ _).mono fun t cleared => ?_)
    have same : strm r1.s k = strm r.s k := by rw [strm, strm, checked.hart]
    have streams : t.hart.streams = r.s.hart.streams.setIfInBounds k
        { strm r.s k with xfer := some { y with wrote := d.pa :: y.wrote } } := by
      rw [cleared.hart]
      show r1.s.hart.streams.setIfInBounds k { strm r1.s k with xfer := (strm r1.s k).xfer.map _ } = _
      rw [same, held, checked.hart]
      rfl
    exact {
      washed := washed_frame.trans (checked.withStreams t.hart.streams) (by
        rw [cleared.hart]
        exact cleared)
      others := fun j hj => by
        rw [strm, streams]
        exact strm_setIfInBounds_other _ _ hj
      own := ⟨d.pa :: y.wrote, by
        rw [strm, streams]
        exact strm_setIfInBounds _ _ (strm_lt held)⟩ }

/-! ## One element -/

/-- What an element has left of the hart, and what is noted of it, are what R145 says of an element that is performed. -/
theorem elementDone_of {r : State} (hk : k < 8) (fail : x.fail = none)
    (hart : ∃ c d y z, r.hart = { s.hart with x := z, early := y, vknown := d, sr := { s.hart.sr with vclk := c } })
    (regs : ∀ q, r.hart.reg q = s.hart.reg q) (h : Noting k (x.without e) (withStream r k (movedPast s k e x)) t) : ElementDone s t k e x := by
  obtain ⟨washed, others, w, own⟩ := h
  obtain ⟨c, d, y, z, hart⟩ := hart
  have left : t.hart = (withStreams (withStream r k (movedPast s k e x)) t.hart.streams).hart := washed.hart
  have behind : strm (withStream r k (movedPast s k e x)) k = movedPast s k e x := strm_withStream _ hk
  rw [behind] at own
  refine ⟨⟨c, d, y, z, ?_⟩, fun q => ?_, fun j hj => ?_, ?_, { x.without e with wrote := w }, ?_, rfl, fail, ?_⟩
  · refine left.trans ?_
    show { r.hart with streams := t.hart.streams } = _
    rw [hart]
  · rw [← regs q]
    exact (congrArg (Hart.reg · q) left).trans rfl
  · rw [others j hj]
    exact (strm_withStream_other _ hj).trans (by rw [strm, hart]; rfl)
  · rw [own]
    rfl
  · rw [own]
  · rw [own]
    show (x.without e).avail (strm s k).fin = _
    rw [Transfer.avail, show (x.without e).fail = none from fail]
    cases (x.without e).todo with
    | nil => rfl
    | cons p l => rfl

/-- An element whose bytes the engine has stored is done, and memory shows them. -/
theorem stored_leads {pa : Nat} {vs : List Byte} (xfer : (strm s k).xfer = some x) (fail : x.fail = none)
    (find : x.todo.find? (fun p => p.1 == e) = some (e, src, dst)) (turn : InTurn s x e)
    (performs : ∃ r, M.performElement x src dst (Run.start s) = .ok (none, r) ∧ EngineStored pa vs s r.s) :
    Leads s (.engineElementPerformed s.hart.key k e) fun t => ElementDone s t k e x ∧ OthersKept s t
      ∧ (∀ p, isHostMem p = true → liveByte t true p = overlaid (liveByte s true) pa vs p) ∧ t.scratch = s.scratch := by
  obtain ⟨r, run, ⟨d, beside⟩, bytes⟩ := performs
  obtain ⟨z, y, c, hart⟩ := beside.hart
  have streams : r.s.hart.streams = s.hart.streams := by rw [hart]; rfl
  refine element_leads xfer fail find turn run streams fun r1 h1 => ?_
  have held : (strm r1.s k).xfer = some (x.without e) := by
    rw [h1, strm_withStream _ (strm_lt xfer)]
    rfl
  refine (M.noteWrote_notes held).mono fun t noting => ?_
  rw [h1] at noting
  obtain ⟨left, -, lines⟩ := noting.washed
  refine ⟨elementDone_of (strm_lt xfer) fail ⟨c, d, y, z, hart⟩ beside.regs noting, othersKept_trans beside.others left.others,
    fun p hp => Eq.trans ?_ (bytes p hp), left.scratch.trans beside.scratch⟩
  rw [liveByte, lines]
  rfl

/-- A row that the engine has put into the scratchpad is done. -/
theorem gathered_leads {bs : List Byte} (xfer : (strm s k).xfer = some x) (fail : x.fail = none)
    (find : x.todo.find? (fun p => p.1 == e) = some (e, src, dst)) (kind : x.kind = .gath)
    (performs : ∃ r, M.performElement x src dst (Run.start s) = .ok (none, r) ∧ RowPut s r.s dst.toNat bs) :
    Leads s (.engineElementPerformed s.hart.key k e) fun t => ElementDone s t k e x ∧ t.others = s.others
      ∧ t.scratch = s.scratch.writes dst.toNat bs ∧ ∀ p, isHostMem p = true → liveByte t true p = liveByte s true p := by
  obtain ⟨r, run, row⟩ := performs
  have turn : InTurn s x e := fun combining => nomatch kind.symm.trans combining
  refine element_leads xfer fail find turn run (by rw [row.hart]) fun r1 h1 => .ite (fun _ => .pure ?_) fun other => absurd kind other
  have held : (strm (withStream r.s k (movedPast s k e x)) k).xfer = some (x.without e) :=
    congrArg Stream.xfer (strm_withStream _ (strm_lt xfer))
  rw [h1]
  exact ⟨elementDone_of (strm_lt xfer) fail ⟨s.hart.sr.vclk, s.hart.vknown, s.hart.early, s.hart.x, row.hart⟩ (fun q => by rw [row.hart])
    (.of_washed held (washed_frame.refl _)), row.others, row.scratch, row.memory⟩

end Sys2Proof.Machine

namespace Sys2Proof.Proofs

/-- Settles O32: an element is read as memory shows it, and what goes with its store leaves the transfer and the other harts as the rules say.
Choices of the model in it: logs 25, 39, 41 and 42. -/
theorem transferElementsAreMoved : Obligations.TransferElementsAreMoved := by
  intro s k e x src dst a d bs ob xfer fail
  refine ⟨fun todo => transferComplete_exec xfer todo fail, fun find wf => ⟨?_, ?_, ?_⟩⟩
  · intro kind clash source target bytes tail window size
    have turn : InTurn s x e := fun combining => nomatch kind.symm.trans combining
    exact stored_leads xfer fail find turn (M.performElement_copies kind ⟨clash, size, source, target, bytes, wf, tail, window⟩)
  · intro kind clash source target bytes old tail window size first behind
    exact stored_leads xfer fail find (fun _ => ⟨first, behind⟩)
      (M.performElement_combines kind ⟨clash, size, source, target, bytes, wf, tail, window⟩ old)
  · intro kind source bytes some_ room inPage
    exact gathered_leads xfer fail find kind (M.performElement_gathers kind ⟨source, bytes, some_, room, inPage⟩)

end Sys2Proof.Proofs
end

section
/-!
PROOFS. Brackets (R164, R166): an element written and read back, and the order of the types by which `inv` bisects.
-/

open Sys2Proof Sys2Proof.Machine Sys2Proof.Claim

namespace Sys2Proof.Machine

/-! ## Elements of a bracket -/

/-- The bits of an element of a bracket. -/
theorem testBit_bracketElem (b : Bracket) (w e i : Nat) : (bracketElem b w e).testBit i = (decide (i < w) && b.getLsbD (e * w + i)) := by
  rw [bracketElem, BitVec.testBit_toNat, BitVec.getLsbD_extractLsb']

/-- An element is a pattern of its width. -/
theorem bracketElem_lt (b : Bracket) (w e : Nat) : bracketElem b w e < 2 ^ w := (b.extractLsb' (e * w) w).isLt

/-- The bits of a bracket after an element has been replaced. -/
theorem getLsbD_setBracket (b : Bracket) (w e v i : Nat) (hi : i < 65536) :
    (setBracket b w e v).getLsbD i = if e * w ≤ i ∧ i < e * w + w then v.testBit (i - e * w) else b.getLsbD i := by
  have inside : i - e * w < 65536 := by omega
  simp only [setBracket, BitVec.getLsbD_or, BitVec.getLsbD_and, BitVec.getLsbD_not, BitVec.getLsbD_shiftLeft, BitVec.getLsbD_ofNat,
    Nat.testBit_two_pow_sub_one, Nat.testBit_mod_two_pow, hi, inside, decide_true, Bool.true_and]
  split
  next h => simp [show ¬ i < e * w by omega, show i - e * w < w by omega]
  next h =>
    rcases Nat.lt_or_ge i (e * w) with below | above
    · simp [below]
    · simp [show ¬ i < e * w by omega, show ¬ i - e * w < w by omega]

/-- One element written: read back at its place, and every other element as before. -/
theorem bracketElem_setBracket (b : Bracket) {w e' : Nat} (e v : Nat) (within : e' * w + w ≤ 65536) :
    bracketElem (setBracket b w e v) w e' = if e' = e then v % 2 ^ w else bracketElem b w e' := by
  refine Nat.eq_of_testBit_eq fun i => ?_
  rw [testBit_bracketElem]
  by_cases hi : i < w
  · rw [getLsbD_setBracket _ _ _ _ _ (by omega)]
    by_cases same : e' = e
    · subst same
      simp [hi, Nat.testBit_mod_two_pow]
    · have apart : ¬ (e * w ≤ e' * w + i ∧ e' * w + i < e * w + w) := by
        rintro ⟨low, high⟩
        rcases Nat.lt_or_gt_of_ne same with less | more
        · have := Nat.mul_le_mul_right w (Nat.succ_le_of_lt less)
          rw [Nat.succ_mul] at this
          omega
        · have := Nat.mul_le_mul_right w (Nat.succ_le_of_lt more)
          rw [Nat.succ_mul] at this
          omega
      rw [if_neg apart, if_neg same, testBit_bracketElem]
  · split <;> simp [hi, Nat.testBit_mod_two_pow, testBit_bracketElem]

/-- A bracket with the elements of a list written, each with its value. -/
def setBrackets {γ : Type} (b : Bracket) (w : Nat) (elem val : γ → Nat) (l : List γ) : Bracket :=
  l.foldl (fun b a => setBracket b w (elem a) (val a)) b

section

variable {γ : Type} {elem val : γ → Nat} {l : List γ} {w : Nat}

theorem bracketElem_setBrackets_other {e : Nat} (within : e * w + w ≤ 65536) (other : e ∉ l.map elem) (b : Bracket) :
    bracketElem (setBrackets b w elem val l) w e = bracketElem b w e := by
  induction l generalizing b with
  | nil => rfl
  | cons a l ih =>
    obtain ⟨first, rest⟩ := not_or.mp (List.mem_cons.not.mp other)
    exact (ih rest _).trans ((bracketElem_setBracket b _ _ within).trans (if_neg first))

/-- An element that is written once reads as its value. -/
theorem bracketElem_setBrackets_mem {a : γ} (within : elem a * w + w ≤ 65536) (once : (l.map elem).Nodup) (mem : a ∈ l) (small : val a < 2 ^ w)
    (b : Bracket) : bracketElem (setBrackets b w elem val l) w (elem a) = val a := by
  induction l generalizing b with
  | nil => cases mem
  | cons c l ih =>
    obtain ⟨first, rest⟩ := List.nodup_cons.mp once
    rcases List.mem_cons.mp mem with rfl | mem
    · exact (bracketElem_setBrackets_other within first _).trans
        ((bracketElem_setBracket b _ _ within).trans ((if_pos rfl).trans (Nat.mod_eq_of_lt small)))
    · exact ih rest mem _

end

/-! ## The order of a type -/

section

variable (t : BitVec 4)

theorem tyBits_pos : 0 < tyBits t := by
  unfold tyBits
  split_ifs <;> decide

/-- The order turns at the middle of the width (R166). -/
theorem half_add_half : 2 ^ tyBits t = 2 ^ (tyBits t - 1) + 2 ^ (tyBits t - 1) := by
  rw [← Nat.two_mul, ← Nat.pow_succ', Nat.succ_eq_add_one, Nat.sub_add_cancel (tyBits_pos t)]

theorem invUnord_lt {o : Nat} (h : o < 2 ^ tyBits t) : invUnord t o < 2 ^ tyBits t := by
  have half := half_add_half t
  simp only [invUnord]
  split_ifs with unsigned signed
  · exact h
  · subst signed
    exact Nat.xor_lt_two_pow h (by decide)
  · omega
  · omega

/-- Every number of the width is the place of a pattern in the order (R166). -/
theorem invOrd_invUnord {o : Nat} (h : o < 2 ^ tyBits t) : invOrd t (invUnord t o) = o := by
  have half := half_add_half t
  simp only [invOrd, invUnord]
  split_ifs with unsigned signed
  · rfl
  · exact Nat.xor_xor_cancel_right o _
  all_goals omega

theorem invOrd_lt {b : Nat} (h : b < 2 ^ tyBits t) : invOrd t b < 2 ^ tyBits t := by
  have half := half_add_half t
  simp only [invOrd]
  split_ifs with unsigned signed
  · exact h
  · subst signed
    exact Nat.xor_lt_two_pow h (by decide)
  · omega
  · omega

end

end Sys2Proof.Machine
end

section
/-!
PROOFS. What a part of a step leaves where it goes on: the words of a routine compute in the vector registers and the masks, whatever else is
checked, and so does an evaluation of an `inv` (R165).
-/

open Sys2Proof Sys2Proof.Machine Sys2Proof.Claim

namespace Sys2Proof.Machine

variable {s0 : State} {α β : Type} {s : State}

/-! ## Parts of a step that may end it -/

/-- Where a part of a step goes on from a state, something holds of its answer and of the state that it leaves. -/
def Yields (m : M s0 α) (s : State) (p : α → State → Prop) : Prop :=
  ∀ (r : Run s0) (a : α) (r' : Run s0), r.s = s → m r = .ok (a, r') → p a r'.s

theorem Yields.mono {m : M s0 α} {p q : α → State → Prop} (h : Yields m s p) (hpq : ∀ a t, p a t → q a t) : Yields m s q :=
  fun r a r' hr hm => hpq a _ (h r a r' hr hm)

theorem Yields.pure {a : α} {p : α → State → Prop} (h : p a s) : Yields (Pure.pure a : M s0 α) s p := by
  rintro r b r' rfl hm
  cases hm
  exact h

theorem Yields.bind {m : M s0 α} {f : α → M s0 β} {p : α → State → Prop} {q : β → State → Prop} (h : Yields m s p)
    (hf : ∀ a t, p a t → Yields (f a) t q) : Yields (m >>= f) s q := by
  intro r b r' hr hm
  rw [M.bind_run] at hm
  split at hm
  next a r1 first => exact hf a _ (h r a r1 hr first) r1 b r' rfl hm
  next => cases hm

theorem Yields.ite {c : Prop} [Decidable c] {m n : M s0 α} {p : α → State → Prop} (hm : c → Yields m s p) (hn : ¬ c → Yields n s p) :
    Yields (if c then m else n) s p := by
  split
  next h => exact hm h
  next h => exact hn h

theorem Yields.anything {m : M s0 α} : Yields m s fun _ _ => True := fun _ _ _ _ _ => trivial

/-- A part of a step that never goes on lets nothing behind it happen. -/
theorem Yields.halt {m : M s0 α} {f : α → M s0 β} {p : β → State → Prop} (h : Yields m s fun _ _ => False) : Yields (m >>= f) s p :=
  h.bind fun _ _ no => no.elim

/-- A part of a step that ends it yields whatever is asked. -/
theorem M.done_yields {p : α → State → Prop} : Yields (M.done : M s0 α) s p := fun _ _ _ _ hm => nomatch hm

theorem M.hart_yields {f : Hart → M s0 β} {p : β → State → Prop} (h : Yields (f s.hart) s p) : Yields (M.hart >>= f) s p := by
  rintro r b r' rfl hm
  exact h r b r' rfl hm

theorem M.vec_yields {f : VecState → M s0 β} {p : β → State → Prop} (h : Yields (f s.hart.vec) s p) : Yields (M.vec >>= f) s p := by
  rintro r b r' rfl hm
  exact h r b r' rfl hm

/-- A trap of the vector stream ends the step. -/
theorem M.vecTrap_yields {env : VEnv} {c : BitVec 8} {v : Word} {e : Option Nat} {p : α → State → Prop} :
    Yields (M.vecTrap env c v e : M s0 α) s p := by
  have ends {n : M s0 PUnit} {s : State} : Yields (n >>= fun _ => (M.done : M s0 α)) s p := Yields.anything.bind fun _ _ _ => M.done_yields
  unfold M.vecTrap
  refine .ite (fun _ => Yields.anything.bind fun _ _ _ => M.done_yields.halt) fun _ => ?_
  exact .ite (fun _ => M.hart_yields ends) fun _ => ends

theorem M.illegal_yields {env : VEnv} {p : α → State → Prop} : Yields (M.illegal env : M s0 α) s p :=
  Yields.anything.bind fun _ _ _ => M.vecTrap_yields

/-! ## Checks and reads -/

/-- A part of a step that only looks: where it goes on, it leaves the state. -/
def Looks (m : M s0 α) : Prop := ∀ s, Yields m s fun _ t => t = s

theorem Looks.of_run {m : M s0 α} {f : State → α} (h : ∀ r : Run s0, m r = .ok (f r.s, r)) : Looks m := by
  rintro _ r a r' rfl hm
  rw [h r] at hm
  cases hm
  rfl

theorem Looks.then {m : M s0 α} {f : α → M s0 β} {p : β → State → Prop} (h : Looks m) (hf : ∀ a, Yields (f a) s p) :
    Yields (m >>= f) s p :=
  (h s).bind fun a _ same => same ▸ hf a

theorem Looks.bind {m : M s0 α} {f : α → M s0 β} (h : Looks m) (hf : ∀ a, Looks (f a)) : Looks (m >>= f) := fun s => h.then fun a => hf a s

theorem Looks.pure (a : α) : Looks (Pure.pure a : M s0 α) := fun _ => .pure rfl

/-- A check lets the step go on or ends it. -/
theorem looks_check {env : VEnv} {c : Prop} [Decidable c] : Looks (if c then M.illegal env else Pure.pure ⟨⟩ : M s0 PUnit) :=
  fun s => .ite (fun _ => M.illegal_yields) fun _ => Looks.pure _ s

theorem M.hart_looks : Looks (M.hart : M s0 Hart) := .of_run M.hart_run

theorem M.sbase_looks : Looks (M.sbase : M s0 Nat) := .of_run (f := fun s => s.hart.sr.sb.toNat) M.sbase_run

theorem M.operandB_looks (f : VWord) (w : Nat) : Looks (M.operandB f w : M s0 (Nat → Nat)) :=
  .of_run (f := fun s => second s f w) (M.operandB_run f w)

theorem M.rounding_looks (f : VWord) (k : Option Nat) : Looks (M.rounding f k : M s0 (Nat → Rnd)) :=
  .of_run (f := fun s => wordRnd s f k) (M.rounding_run f k)

section

variable {env : VEnv}

theorem M.needSew_looks {w : Nat} : Looks (M.needSew env w : M s0 PUnit) := M.hart_looks.bind fun _ => looks_check

theorem M.needGroups_looks {rs : List Reg} : Looks (M.needGroups env rs : M s0 PUnit) := M.hart_looks.bind fun _ => looks_check

theorem M.needUnit_looks {f : VWord} : Looks (M.needUnit env f : M s0 PUnit) := by
  unfold M.needUnit
  exact .bind (M.hart_looks.bind fun _ => .pure _) fun _ => looks_check

theorem M.needSpan_looks {d : Reg} {n w : Nat} : Looks (M.needSpan env d n w : M s0 PUnit) := M.needGroups_looks.bind fun _ => looks_check

theorem M.needBelow28_looks {d : Reg} {n w : Nat} : Looks (M.needBelow28 env d n w : M s0 PUnit) := M.hart_looks.bind fun _ => looks_check

theorem M.modeCheck_looks {l : M.Legal} {dest : Option Reg} : Looks (M.modeCheck env l dest : M s0 PUnit) := by
  refine M.hart_looks.bind fun h s => .ite (fun _ => M.illegal_yields.halt) fun _ => ?_
  cases dest with
  | none => exact looks_check s
  | some d => exact M.needBelow28_looks.then fun _ => looks_check s

theorem M.arithCheck_looks {l : M.Legal} {f : VWord} {dest : Option Reg} {srcs : List Reg} :
    Looks (M.arithCheck env l f dest srcs : M s0 PUnit) :=
  M.modeCheck_looks.bind fun _ => M.needSew_looks.bind fun _ => M.needGroups_looks.bind fun _ => M.needUnit_looks

theorem M.vamoGuard_looks : Looks (M.vamoGuard env : M s0 PUnit) := by
  refine M.hart_looks.bind fun h => ?_
  cases h.ctx with
  | none => exact .pure _
  | some c => exact looks_check

end

/-! ## Words that compute -/

/-- The state with the vector state of the hart in focus written. -/
def withVec (s : State) (v : VecState) : State := { s with hart := { s.hart with vec := v } }

/-- One vector state comes from another by writes of vector and mask registers. -/
def Computed (v v' : VecState) : Prop := ∃ x m, v' = { v with v := x, m := m }

theorem Computed.refl (v : VecState) : Computed v v := ⟨v.v, v.m, rfl⟩

theorem Computed.trans {u v v' : VecState} (h : Computed u v) (h' : Computed v v') : Computed u v' := by
  obtain ⟨_, _, rfl⟩ := h
  obtain ⟨x, m, rfl⟩ := h'
  exact ⟨x, m, rfl⟩

theorem Computed.brackets {v v' : VecState} (h : Computed v v') : v'.blo = v.blo ∧ v'.bhi = v.bhi := by
  obtain ⟨_, _, rfl⟩ := h
  exact ⟨rfl, rfl⟩

/-- What every write of a list of elements does, the whole list does. -/
theorem computed_foldl {γ : Type} {g : VecState → γ → VecState} (h : ∀ v a, Computed v (g v a)) (l : List γ) (v : VecState) :
    Computed v (l.foldl g v) := by
  induction l generalizing v with
  | nil => exact .refl v
  | cons a l ih => exact (h v a).trans (ih _)

theorem computed_setElem (v : VecState) (n w e x : Nat) : Computed v (v.setElem n w e x) := ⟨_, v.m, rfl⟩

theorem computed_putElems (v : VecState) (n w : Nat) (es : List Nat) (g : Nat → Nat) : Computed v (v.putElems n w es g) :=
  computed_foldl (fun v e => computed_setElem v n w e (g e)) es v

theorem computed_setMaskBit (v : VecState) (k e : Nat) (b : Bool) : Computed v (v.setMaskBit k e b) := by
  unfold VecState.setMaskBit
  split
  · exact .refl v
  · exact ⟨v.v, _, rfl⟩

theorem computed_putMaskBits (v : VecState) (k : Nat) (es : List Nat) (g : Nat → Bool) : Computed v (v.putMaskBits k es g) :=
  computed_foldl (fun v e => computed_setMaskBit v k e (g e)) es v

/-- A part of a step that writes vector and mask registers and nothing else. -/
def Computes (m : M s0 α) (s : State) : Prop := Yields m s fun _ t => ∃ v, t = withVec s v ∧ Computed s.hart.vec v

theorem Looks.computes {m : M s0 α} (h : Looks m) : Computes m s := (h s).mono fun _ _ same => ⟨s.hart.vec, same, .refl _⟩

theorem Computes.then {m : M s0 α} {f : α → M s0 β} {p : β → State → Prop} (h : Computes m s)
    (hf : ∀ a v, Computed s.hart.vec v → Yields (f a) (withVec s v) p) : Yields (m >>= f) s p := by
  refine Yields.bind h ?_
  rintro a _ ⟨v, rfl, first⟩
  exact hf a v first

theorem Computes.bind {m : M s0 α} {f : α → M s0 β} (h : Computes m s) (hf : ∀ a v, Computes (f a) (withVec s v)) : Computes (m >>= f) s := by
  refine h.then fun a v first => (hf a v).mono ?_
  rintro b _ ⟨v', rfl, second⟩
  exact ⟨v', rfl, first.trans second⟩

theorem M.modVec_computes {g : VecState → VecState} (h : Computed s.hart.vec (g s.hart.vec)) : Computes (M.modVec g : M s0 PUnit) s := by
  rintro r a r' rfl hm
  cases hm
  exact ⟨_, rfl, h⟩

theorem M.putVec_computes {v : VecState} (h : Computed s.hart.vec v) : Computes (M.putVec v : M s0 PUnit) s := M.modVec_computes h

section

variable {env : VEnv} {f : VWord}

/-- A word that reads its second operand and writes the vector state. -/
theorem M.operandB_computes {w : Nat} {g : (Nat → Nat) → VecState → VecState} (h : ∀ b v, Computed v (g b v)) :
    Computes (M.operandB f w >>= fun b => M.vec >>= fun v => M.putVec (g b v) : M s0 PUnit) s :=
  (M.operandB_looks _ _).then fun _ => M.vec_yields (M.putVec_computes (h ..))

/-- A word that reads its rounding and writes the vector state. -/
theorem M.rounding_computes {k : Option Nat} {g : Nat → (Nat → Rnd) → VecState} (h : ∀ b rnd, Computed s.hart.vec (g b rnd)) :
    Computes (M.sbase >>= fun b => M.rounding f k >>= fun rnd => M.putVec (g b rnd) : M s0 PUnit) s :=
  M.sbase_looks.then fun _ => (M.rounding_looks _ _).then fun _ => M.putVec_computes (h ..)

theorem intOp_computes {g : (w : Nat) → BitVec w → BitVec w → BitVec w → BitVec w} : Computes (intOp f env g : M s0 PUnit) s :=
  M.arithCheck_looks.then fun _ => M.operandB_computes fun _ _ => computed_putElems ..

theorem bitsOp_computes {g : Fmt → Nat → Nat → Nat} : Computes (bitsOp f env g : M s0 PUnit) s :=
  M.arithCheck_looks.then fun _ => M.operandB_computes fun _ _ => computed_putElems ..

theorem floatOp_computes {l : M.Legal} {g : Rnd → FVal → FVal → FVal → FRes} : Computes (floatOp f env l g : M s0 PUnit) s :=
  M.arithCheck_looks.then fun _ => (M.operandB_looks _ _).then fun _ => M.vec_yields <|
    M.rounding_computes fun _ _ => computed_putElems ..

theorem unaryOp_computes {op : Nat} {g : FVal → FRes} : Computes (unaryOp op f env g : M s0 PUnit) s :=
  M.arithCheck_looks.then fun _ => M.vec_yields <| M.rounding_computes fun _ _ => computed_putElems ..

theorem vfclampCore_computes : Computes (vfclampCore f env : M s0 PUnit) s := by
  refine M.arithCheck_looks.then fun _ => M.hart_looks.then fun _ => .ite (fun _ => M.illegal_yields.halt) fun _ => ?_
  exact M.vec_yields (M.putVec_computes (computed_putElems ..))

theorem vclipCore_computes : Computes (vclipCore f env : M s0 PUnit) s :=
  M.modeCheck_looks.then fun _ => M.needSew_looks.then fun _ => M.hart_looks.then fun _ => M.needSpan_looks.then fun _ =>
    M.needSpan_looks.then fun _ => M.vec_yields <| M.rounding_computes fun _ _ => computed_putElems ..

theorem vcvtCore_computes : Computes (vcvtCore f env : M s0 PUnit) s :=
  M.modeCheck_looks.then fun _ => M.needSew_looks.then fun _ => M.hart_looks.then fun _ => M.needBelow28_looks.then fun _ =>
    M.needSpan_looks.then fun _ => M.needSpan_looks.then fun _ => M.vec_yields <| M.rounding_computes fun _ _ => computed_putElems ..

theorem maskOp_computes {g : Bool → Bool → Bool} : Computes (maskOp f env g : M s0 PUnit) s :=
  M.modeCheck_looks.then fun _ => M.needUnit_looks.then fun _ => M.vec_yields (M.putVec_computes (computed_putMaskBits ..))

theorem vcmpCore_computes : Computes (vcmpCore f env : M s0 PUnit) s :=
  M.arithCheck_looks.then fun _ => M.operandB_computes fun _ _ => computed_putMaskBits ..

theorem vmselCore_computes : Computes (vmselCore f env : M s0 PUnit) s :=
  M.arithCheck_looks.then fun _ => M.operandB_computes fun _ _ => computed_putElems ..

theorem vmvCore_computes : Computes (vmvCore f env : M s0 PUnit) s :=
  M.arithCheck_looks.then fun _ => M.operandB_computes fun _ _ => computed_putElems ..

theorem vidCore_computes : Computes (vidCore f env : M s0 PUnit) s :=
  M.modeCheck_looks.then fun _ => M.needSew_looks.then fun _ => M.needGroups_looks.then fun _ => M.vec_yields <|
    M.sbase_looks.then fun _ => M.putVec_computes (computed_putElems ..)

/-- Every word that may stand in a routine computes in registers and masks (R165). -/
theorem routineCore_computes {i : Instr} {c : VEnv → M s0 PUnit} (h : routineCore i = some c) : Computes (c env) s := by
  cases i
  case vadd | vsub | vmul | vmulh | vmadd | vdiv | vrem | vmin | vmax | vand | vor | vxor | vshl | vshr | vsra | vsadd | vssub | vabs =>
    cases h; exact intOp_computes
  case vfadd | vfsub | vfmul | vfma | vfms | vfnma | vfdiv | vfsqrt => cases h; exact floatOp_computes
  case vfmin | vfmax | vfabs | vfneg => cases h; exact bitsOp_computes
  case vfrcp | vfexp2 | vflog2 | vfrsq => cases h; exact unaryOp_computes
  case vmand | vmor | vmxor | vmnot => cases h; exact maskOp_computes
  case vclip => cases h; exact vclipCore_computes
  case vfclamp => cases h; exact vfclampCore_computes
  case vcmp => cases h; exact vcmpCore_computes
  case vmsel => cases h; exact vmselCore_computes
  case vcvt => cases h; exact vcvtCore_computes
  case vmv => cases h; exact vmvCore_computes
  case vid => cases h; exact vidCore_computes
  all_goals cases h

theorem M.each_computes {γ : Type} {l : List γ} {g : γ → M s0 PUnit} (h : ∀ a s, Computes (g a) s) : Computes (M.each l g) s := by
  induction l generalizing s with
  | nil => exact (Looks.pure _).computes
  | cons a l ih => exact (h a s).bind fun _ _ => ih

/-- An evaluation writes the arguments and runs the routine. -/
theorem M.invEval_computes {is : List Instr} {xs : List (Nat × Nat)} : Computes (M.invEval env f is xs : M s0 (List (Nat × Nat))) s := by
  refine Computes.bind (M.modVec_computes (computed_foldl (fun v p => computed_setElem v _ _ p.1 p.2) xs _)) fun _ v => ?_
  refine Computes.bind (M.each_computes fun i t => ?_) fun _ v => M.vec_yields (Looks.pure _).computes
  cases hc : routineCore i with
  | none => exact (Looks.pure _).computes
  | some c => exact routineCore_computes hc

end

end Sys2Proof.Machine
end

section
/-!
PROOFS. An inversion keeps each bracket inside the one that it began with (R166, R167), and what it leaves where it goes on.
-/

open Sys2Proof Sys2Proof.Machine Sys2Proof.Claim

namespace Sys2Proof.Machine

variable {s0 : State} {s : State} {v : VecState} {f : VWord} {t : BitVec 4} {x : InvElem} {xs : List InvElem} {es : List Nat}

/-! ## Brackets on the way -/

/-- The bracket of an element on the way lies inside the one of a vector state, in the order of the type. -/
structure Inside (v : VecState) (t : BitVec 4) (x : InvElem) : Prop where
  lo : x.lo < 2 ^ tyBits t
  hi : x.hi < 2 ^ tyBits t
  above : invOrd t (bracketElem v.blo (tyBits t) x.e) ≤ invOrd t x.lo
  sorted : invOrd t x.lo ≤ invOrd t x.hi
  below : invOrd t x.hi ≤ invOrd t (bracketElem v.bhi (tyBits t) x.e)

theorem Inside.start (h : Inside v t x) (a : InvArgs) (target : Nat) : Inside v t (a.start t x target) := by
  obtain ⟨lo, hi, above, sorted, below⟩ := h
  unfold InvArgs.start
  split_ifs
  · exact ⟨hi, hi, above.trans sorted, le_rfl, below⟩
  · exact ⟨lo, hi, above, sorted, below⟩
  · exact ⟨lo, lo, above, le_rfl, sorted.trans below⟩
  · exact ⟨lo, hi, above, sorted, below⟩

/-- The midpoint is a pattern whose place lies between the ends. -/
theorem Inside.mid (h : Inside v t x) : x.mid t < 2 ^ tyBits t ∧ invOrd t x.lo ≤ invOrd t (x.mid t) ∧ invOrd t (x.mid t) ≤ invOrd t x.hi := by
  have sorted := h.sorted
  have top := invOrd_lt t h.hi
  have inside : (invOrd t x.lo + invOrd t x.hi) / 2 < 2 ^ tyBits t := by omega
  refine ⟨invUnord_lt t inside, ?_⟩
  rw [InvElem.mid, invOrd_invUnord t inside]
  omega

theorem Inside.halve (h : Inside v t x) (a : InvArgs) (fm target : Nat) : Inside v t (a.halve t x fm target) := by
  obtain ⟨mid, low, high⟩ := h.mid
  obtain ⟨lo, hi, above, sorted, below⟩ := h
  unfold InvArgs.halve
  split_ifs
  · exact ⟨mid, hi, above.trans low, high, below⟩
  · exact ⟨lo, mid, above, low, high.trans below⟩

/-- The brackets of these elements, each inside the one of a vector state. -/
structure Bracketed (v : VecState) (t : BitVec 4) (es : List Nat) (xs : List InvElem) : Prop where
  keys : xs.map (·.e) = es
  inside : ∀ x ∈ xs, Inside v t x

/-- The brackets of a vector state themselves, where none is turned round. -/
theorem bracketed_of (keys : xs.map (·.e) = es)
    (ends : ∀ x ∈ xs, x.lo = bracketElem v.blo (tyBits t) x.e ∧ x.hi = bracketElem v.bhi (tyBits t) x.e)
    (sorted : ∀ x ∈ xs, invOrd t x.lo ≤ invOrd t x.hi) : Bracketed v t es xs where
  keys := keys
  inside x hx := by
    obtain ⟨lo, hi⟩ := ends x hx
    exact ⟨lo ▸ bracketElem_lt .., hi ▸ bracketElem_lt .., by rw [lo], sorted x hx, by rw [hi]⟩

theorem Bracketed.map (h : Bracketed v t es xs) {g : InvElem → InvElem} (hg : ∀ x, (g x).e = x.e)
    (keeps : ∀ x, Inside v t x → Inside v t (g x)) : Bracketed v t es (xs.map g) where
  keys := by
    rw [List.map_map, ← h.keys]
    exact List.map_congr_left fun x _ => hg x
  inside := by
    rintro _ hx
    obtain ⟨x, mem, rfl⟩ := List.mem_map.mp hx
    exact keeps x (h.inside x mem)

theorem InvArgs.start_e (a : InvArgs) (target : Nat) : (a.start t x target).e = x.e := by
  unfold InvArgs.start
  split_ifs <;> rfl

theorem InvArgs.halve_e (a : InvArgs) (fm target : Nat) : (a.halve t x fm target).e = x.e := by
  unfold InvArgs.halve
  split_ifs <;> rfl

/-! ## The bisection -/

/-- The elements whose bracket is still wider than 2^tol. -/
def wideElems (f : VWord) (xs : List InvElem) : List InvElem := xs.filter fun x => decide (x.width f.ty > 2 ^ (invArgs f).tol)

/-- The arguments of an iteration: the midpoints of the wide brackets. -/
def midpoints (f : VWord) (xs : List InvElem) : List (Nat × Nat) := (wideElems f xs).map fun x => (x.e, x.mid f.ty)

/-- The brackets after an iteration, by the value of each element at its midpoint and its target. -/
def halved (f : VWord) (fm tgt : Nat → Nat) (xs : List InvElem) : List InvElem :=
  xs.map fun x => if x.width f.ty > 2 ^ (invArgs f).tol then (invArgs f).halve f.ty x (fm x.e) (tgt x.e) else x

theorem halved_congr {fm fm' : Nat → Nat} (tgt : Nat → Nat) (same : ∀ x ∈ wideElems f xs, fm x.e = fm' x.e) :
    halved f fm tgt xs = halved f fm' tgt xs := by
  refine List.map_congr_left fun x hx => ?_
  split
  next wide => rw [same x (List.mem_filter.mpr ⟨hx, decide_eq_true wide⟩)]
  next => rfl

theorem Bracketed.halved (h : Bracketed v f.ty es xs) (fm tgt : Nat → Nat) : Bracketed v f.ty es (halved f fm tgt xs) := by
  refine h.map (fun x => ?_) fun x inside => ?_
  · split
    · exact InvArgs.halve_e ..
    · rfl
  · split
    · exact inside.halve ..
    · exact inside

/-- One iteration of the loop of R167. -/
theorem M.invLoop_succ (env : VEnv) (is : List Instr) (tgt : Nat → Nat) (n : Nat) (xs : List InvElem) :
    (M.invLoop env f is tgt (n + 1) xs : M s0 (List InvElem)) = if (wideElems f xs).isEmpty then pure xs
      else M.invEval env f is (midpoints f xs) >>= fun fm =>
        match (wideElems f xs).find? fun x => (invArgs f).broken f.ty x (M.resultOf fm x.e) with
        | some x => M.invTrap env f is 0x0A x.e
        | none => M.invLoop env f is tgt n (halved f (M.resultOf fm) tgt xs) := by
  simp only [M.invLoop, halved, decide_eq_true_eq]
  rfl

/-! ## What an inversion leaves -/

/-- The vector state with the brackets found and their bits of mu (R167). -/
def withBrackets (f : VWord) (xs : List InvElem) (v : VecState) : VecState :=
  xs.foldl (fun v x => { v with blo := setBracket v.blo (tyBits f.ty) x.e x.lo, bhi := setBracket v.bhi (tyBits f.ty) x.e x.hi }.setMaskBit
    (invArgs f).mu x.e (decide (x.width f.ty > 2 ^ (invArgs f).tol))) v

theorem withBrackets_brackets (f : VWord) (xs : List InvElem) (v : VecState) :
    (withBrackets f xs v).blo = setBrackets v.blo (tyBits f.ty) (·.e) (·.lo) xs
    ∧ (withBrackets f xs v).bhi = setBrackets v.bhi (tyBits f.ty) (·.e) (·.hi) xs := by
  induction xs generalizing v with
  | nil => exact ⟨rfl, rfl⟩
  | cons x xs ih =>
    obtain ⟨lo, hi⟩ := ih ({ v with
      blo := setBracket v.blo (tyBits f.ty) x.e x.lo, bhi := setBracket v.bhi (tyBits f.ty) x.e x.hi }.setMaskBit (invArgs f).mu x.e
        (decide (x.width f.ty > 2 ^ (invArgs f).tol)))
    rw [(computed_setMaskBit ..).brackets.1] at lo
    rw [(computed_setMaskBit ..).brackets.2] at hi
    exact ⟨lo, hi⟩

/-- One bit of a mask register written: read back at its place, and every other bit as before. -/
theorem getLsbD_mask_setMaskBit (v : VecState) {k e e' : Nat} (b : Bool) (some_ : k ≠ 0) (hk : k < 8) (he : e' < 8192) :
    ((v.setMaskBit k e b).mask k).getLsbD e' = if e' = e then b else (v.mask k).getLsbD e' := by
  simp only [VecState.setMaskBit, VecState.mask, if_neg some_, getD_setIfInBounds _ _ _ _ hk, getLsbD_putField _ _ _ _ _ he]
  by_cases same : e' = e
  · subst same
    cases b <;> simp
  · rw [if_neg same, if_neg (by omega)]

theorem withBrackets_mask_other (some_ : (invArgs f).mu ≠ 0) (hk : (invArgs f).mu < 8) {e : Nat} (he : e < 8192)
    (other : e ∉ xs.map (·.e)) (v : VecState) :
    ((withBrackets f xs v).mask (invArgs f).mu).getLsbD e = (v.mask (invArgs f).mu).getLsbD e := by
  induction xs generalizing v with
  | nil => rfl
  | cons x xs ih =>
    obtain ⟨first, rest⟩ := not_or.mp (List.mem_cons.not.mp other)
    exact (ih rest _).trans ((getLsbD_mask_setMaskBit _ _ some_ hk he).trans (if_neg first))

theorem withBrackets_mask (some_ : (invArgs f).mu ≠ 0) (hk : (invArgs f).mu < 8) (he : x.e < 8192) (once : (xs.map (·.e)).Nodup)
    (mem : x ∈ xs) (v : VecState) :
    ((withBrackets f xs v).mask (invArgs f).mu).getLsbD x.e = decide (x.width f.ty > 2 ^ (invArgs f).tol) := by
  induction xs generalizing v with
  | nil => cases mem
  | cons y xs ih =>
    obtain ⟨first, rest⟩ := List.nodup_cons.mp once
    rcases List.mem_cons.mp mem with rfl | mem
    · exact (withBrackets_mask_other some_ hk he first _).trans ((getLsbD_mask_setMaskBit _ _ some_ hk he).trans (if_pos rfl))
    · exact ih rest mem _

/-- The block goes on behind the routine (R165). -/
def behindRoutine (s : State) (f : VWord) : State :=
  { s with hart := { s.hart with ctx := s.hart.ctx.map fun c => { c with idx := c.idx + 1 + (invArgs f).n } } }

/-- An inversion has ended: from a state that evaluations have left, with the brackets of the performed elements inside the old ones. -/
def Ended (s : State) (f : VWord) (es : List Nat) (t : State) : Prop :=
  ∃ v xs, Computed s.hart.vec v ∧ Bracketed s.hart.vec f.ty es xs ∧ t = behindRoutine (withVec s (withBrackets f xs v)) f

/-! ## The parts of an inversion -/

/-- The brackets of elements as a vector state holds them. -/
def heldBrackets (v : VecState) (w : Nat) (es : List Nat) : List InvElem :=
  es.map fun e => { e := e, lo := bracketElem v.blo w e, hi := bracketElem v.bhi w e, flo := 0, fhi := 0 }

/-- Brackets with the values of the function at their ends. -/
def valued (flo fhi : Nat → Nat) (xs : List InvElem) : List InvElem := xs.map fun x => { x with flo := flo x.e, fhi := fhi x.e }

/-- A check of the elements in index order: the first that fails traps (R168). -/
def orTrap {α : Type} (env : VEnv) (f : VWord) (is : List Instr) (c : BitVec 8) (p : InvElem → Bool) (xs : List InvElem) (m : Unit → M s0 α) :
    M s0 α :=
  match xs.find? p with
  | some x => M.invTrap env f is c x.e >>= m
  | none => m ⟨⟩

/-- The elements whose brackets are not turned round. -/
def upright (f : VWord) (xs : List InvElem) : List InvElem := xs.filter fun x => decide (invOrd f.ty x.lo ≤ invOrd f.ty x.hi)

/-- An inversion once its routine has been checked, for these elements (R167, R168). -/
def invRun (env : VEnv) (f : VWord) (is : List Instr) (tgt : Nat → Nat) (all : List InvElem) : M s0 PUnit :=
  orTrap env f is 0x0B (fun x => invNan f.ty x.lo || invNan f.ty x.hi) all fun _ => do
    let flo ← M.invEval env f is ((upright f all).map fun x => (x.e, x.lo))
    let fhi ← M.invEval env f is ((upright f all).map fun x => (x.e, x.hi))
    let ends := valued (M.resultOf flo) (M.resultOf fhi) all
    orTrap env f is 0x09 (fun x => decide (invOrd f.ty x.lo > invOrd f.ty x.hi) || (invArgs f).outside f.ty x (tgt x.e)) ends fun _ => do
      let xs ← M.invLoop env f is tgt (invArgs f).cap (ends.map fun x => (invArgs f).start f.ty x (tgt x.e))
      M.invFinish env f is xs
      M.invAdvance f

theorem invCore_eq (f : VWord) (env : VEnv) : (invCore f env : M s0 PUnit) = (do
    M.modeCheck env M.plain (some f.vd)
    M.needSew env (tyBits f.ty)
    M.needGroups env [f.vd, f.va, f.vb]
    match ← M.invRoutine f with
    | none => M.illegal env
    | some is => do
      let v ← M.vec
      invRun env f is (v.elem f.vb.toNat (tyBits f.ty)) (heldBrackets v (tyBits f.ty) (env.elems (v.mask f.m.toNat)))) := rfl

/-! ## What an inversion that goes on leaves -/

section

variable {env : VEnv} {is : List Instr}

theorem M.invTrap_yields {α : Type} {c : BitVec 8} {e : Nat} {p : α → State → Prop} : Yields (M.invTrap env f is c e : M s0 α) s p := by
  unfold M.invTrap
  refine .ite (fun _ => M.vecTrap_yields.halt) fun _ => ?_
  exact Yields.anything.bind fun _ _ _ => Yields.anything.bind fun _ _ _ => M.vecTrap_yields

/-- A check of the elements that goes on yields what the rest yields from elements that have passed. -/
theorem orTrap_yields {α : Type} {c : BitVec 8} {p : InvElem → Bool} {m : Unit → M s0 α} {q : α → State → Prop}
    (h : (∀ x ∈ xs, p x = false) → Yields (m ⟨⟩) s q) : Yields (orTrap env f is c p xs m) s q := by
  unfold orTrap
  split
  · exact M.invTrap_yields.halt
  next none_ => exact h fun x hx => by simpa using List.find?_eq_none.mp none_ x hx

/-- Evaluations and bisections leave the brackets inside the old ones. -/
theorem M.invLoop_yields {v : VecState} {tgt : Nat → Nat} {n : Nat} (h : Bracketed v f.ty es xs) :
    Yields (M.invLoop env f is tgt n xs : M s0 (List InvElem)) s fun ys t =>
      Bracketed v f.ty es ys ∧ ∃ u, t = withVec s u ∧ Computed s.hart.vec u := by
  have here {xs : List InvElem} {s : State} (h : Bracketed v f.ty es xs) :
      Yields (pure xs : M s0 (List InvElem)) s fun ys t => Bracketed v f.ty es ys ∧ ∃ u, t = withVec s u ∧ Computed s.hart.vec u :=
    .pure ⟨h, s.hart.vec, rfl, .refl _⟩
  induction n generalizing xs s with
  | zero => exact here h
  | succ n ih =>
    rw [M.invLoop_succ]
    refine .ite (fun _ => here h) fun _ => M.invEval_computes.then fun fm u first => ?_
    split
    · exact M.invTrap_yields
    · refine (ih (s := withVec s u) (h.halved _ _)).mono ?_
      rintro ys _ ⟨bracketed, u', rfl, second⟩
      exact ⟨bracketed, u', rfl, first.trans second⟩

theorem M.invFinish_yields : Yields (M.invFinish env f is xs : M s0 PUnit) s fun _ t =>
    ∃ v, t = withVec s (withBrackets f xs v) ∧ Computed s.hart.vec v := by
  refine M.invEval_computes.then fun _ v first => ?_
  rintro r a r' hr hm
  cases hm
  refine ⟨v, ?_, first⟩
  rw [Run.emit_s, hr]
  rfl

theorem M.invAdvance_yields : Yields (M.invAdvance f : M s0 PUnit) s fun _ t => t = behindRoutine s f := by
  rintro r a r' rfl hm
  cases hm
  rfl

/-- Every part of an inversion keeps the brackets inside the ones that it began with (R167). -/
theorem invRun_yields {tgt : Nat → Nat} : Yields (invRun env f is tgt (heldBrackets s.hart.vec (tyBits f.ty) es) : M s0 PUnit) s fun _ t =>
    Ended s f es t := by
  refine orTrap_yields fun _ => ?_
  refine M.invEval_computes.then fun flo v1 first => M.invEval_computes.then fun fhi v2 second => ?_
  refine orTrap_yields fun passed => ?_
  have begun : Bracketed s.hart.vec f.ty es (valued (M.resultOf flo) (M.resultOf fhi) (heldBrackets s.hart.vec (tyBits f.ty) es)) :=
    bracketed_of (by simp [valued, heldBrackets, Function.comp_def]) (by simp [valued, heldBrackets]) fun x hx => by
      simpa using (Bool.or_eq_false_iff.mp (passed x hx)).1
  refine (M.invLoop_yields (begun.map (fun x => InvArgs.start_e ..) fun x inside => inside.start ..)).bind ?_
  rintro xs _ ⟨bracketed, v3, rfl, third⟩
  refine M.invFinish_yields.bind ?_
  rintro _ _ ⟨v4, rfl, fourth⟩
  refine M.invAdvance_yields.mono ?_
  rintro _ _ rfl
  exact ⟨v4, xs, ((first.trans second).trans third).trans fourth, bracketed, rfl⟩

/-- An `inv` that goes on has kept every bracket inside the one that it began with. -/
theorem invCore_yields : Yields (invCore f env : M s0 PUnit) s fun _ t => Ended s f (env.elems (s.hart.vec.mask f.m.toNat)) t := by
  rw [invCore_eq]
  refine M.modeCheck_looks.then fun _ => M.needSew_looks.then fun _ => M.needGroups_looks.then fun _ =>
    Looks.then (M.hart_looks.bind fun _ => .pure _) fun routine => ?_
  cases routine with
  | none => exact M.illegal_yields
  | some is => exact M.vec_yields invRun_yields

end

end Sys2Proof.Machine
end

section
/-!
PROOFS. An inversion with a legal routine (R165 to R168): each evaluation runs the words of the routine, and the bisection goes on to its end.
-/

open Sys2Proof Sys2Proof.Machine Sys2Proof.Claim

namespace Sys2Proof.Machine

variable {s0 : State} {α β : Type} {s t : State} {f q : VWord} {env : VEnv} {is : List Instr}

/-! ## Parts of a step that go on -/

/-- A part of a step goes on from a state, with this answer, and leaves another. -/
def Runs (m : M s0 α) (s : State) (a : α) (t : State) : Prop := ∀ r : Run s0, r.s = s → ∃ r' : Run s0, m r = .ok (a, r') ∧ r'.s = t

theorem Runs.of_run {m : M s0 α} {a : α} (h : ∀ r : Run s0, r.s = s → m r = .ok (a, r)) : Runs m s a s := fun r hr => ⟨r, h r hr, hr⟩

theorem Runs.pure (a : α) : Runs (Pure.pure a : M s0 α) s a s := .of_run fun _ _ => rfl

theorem Runs.bind {m : M s0 α} {g : α → M s0 β} {a : α} {b : β} {u : State} (h : Runs m s a t) (hg : Runs (g a) t b u) :
    Runs (m >>= g) s b u := by
  intro r hr
  obtain ⟨r1, first, h1⟩ := h r hr
  obtain ⟨r2, second, h2⟩ := hg r1 h1
  exact ⟨r2, (M.bind_ok first).trans second, h2⟩

theorem M.hart_runs : Runs (M.hart : M s0 Hart) s s.hart s := .of_run fun r hr => hr ▸ M.hart_run r

theorem M.vec_runs : Runs (M.vec : M s0 VecState) s s.hart.vec s := .of_run fun r hr => hr ▸ M.vec_run r

theorem M.modVec_runs (g : VecState → VecState) : Runs (M.modVec g : M s0 PUnit) s ⟨⟩ (withVec s (g s.hart.vec)) := by
  rintro r rfl
  exact ⟨_, rfl, rfl⟩

theorem M.putVec_runs (v : VecState) : Runs (M.putVec v : M s0 PUnit) s ⟨⟩ (withVec s v) := M.modVec_runs _

theorem M.operandB_runs (f : VWord) (w : Nat) : Runs (M.operandB f w : M s0 (Nat → Nat)) s (second s f w) s :=
  .of_run fun r hr => hr ▸ M.operandB_run f w r

theorem M.sbase_runs : Runs (M.sbase : M s0 Nat) s s.hart.sr.sb.toNat s := .of_run fun r hr => hr ▸ M.sbase_run r

theorem M.rounding_runs (f : VWord) (k : Option Nat) : Runs (M.rounding f k : M s0 (Nat → Rnd)) s (wordRnd s f k) s :=
  .of_run fun r hr => hr ▸ M.rounding_run f k r

/-! ## The words of a routine -/

/-- What makes a word legal is not in the vector state. -/
theorem legal_withVec {w : Nat} {rs : List Reg} (legal : Claim.Legal s q w rs) (v : VecState) : Claim.Legal (withVec s v) q w rs :=
  ⟨legal.free, legal.mode, legal.sew, legal.groups, legal.unit⟩

/-- The vector state after a word that makes each performed element from its operands and its old value. -/
def wordRun (s : State) (env : VEnv) (q : VWord) (g : Rnd → Nat → Nat → Nat → Nat) : VecState :=
  s.hart.vec.putElems q.vd.toNat (tyBits q.ty) (env.elems (s.hart.vec.mask q.m.toNat)) fun e =>
    g (roundAt s q (some 32) e) (el s q.va (tyBits q.ty) e) (second s q (tyBits q.ty) e) (el s q.vd (tyBits q.ty) e)

section

variable (legal : Claim.Legal s q (tyBits q.ty) ([q.vd, q.va] ++ bOf q)) (whole : env.region = false)

include legal whole

theorem M.arithCheck_runs (l : M.Legal) {srcs : List Reg} (named : srcs ⊆ [q.va]) :
    Runs (M.arithCheck env l q (some q.vd) srcs : M s0 PUnit) s ⟨⟩ s := by
  refine .of_run ?_
  rintro r rfl
  have mode : ModeOk r.s q l.matrix := fun on => absurd on (by simp [mmode_of_legal legal])
  have groups : (some q.vd).toList ++ srcs ++ bOf q ⊆ [q.vd, q.va] ++ bOf q :=
    List.append_subset.mpr ⟨List.append_subset.mpr ⟨by simp, List.Subset.trans named (by simp)⟩, by simp⟩
  exact M.arithCheck_run (M.modeCheck_dest_run whole mode) ⟨legal.free, legal.mode, legal.sew, fun k hk => legal.groups k (groups hk), legal.unit⟩

theorem intOp_runs (g : (w : Nat) → BitVec w → BitVec w → BitVec w → BitVec w) :
    Runs (intOp q env g : M s0 PUnit) s ⟨⟩ (withVec s (wordRun s env q fun _ x y z =>
      (g (tyBits q.ty) (BitVec.ofNat _ x) (BitVec.ofNat _ y) (BitVec.ofNat _ z)).toNat)) :=
  (M.arithCheck_runs legal whole _ (by simp)).bind <| (M.operandB_runs _ _).bind <| M.vec_runs.bind (M.putVec_runs _)

theorem floatOp_runs (l : M.Legal) (g : Rnd → FVal → FVal → FVal → FRes) :
    Runs (floatOp q env l g : M s0 PUnit) s ⟨⟩ (withVec s (wordRun s env q fun r x y z =>
      (fmtOf q.ty).round r (g r ((fmtOf q.ty).decode x) ((fmtOf q.ty).decode y) ((fmtOf q.ty).decode z)))) :=
  (M.arithCheck_runs legal whole _ (by simp)).bind <| (M.operandB_runs _ _).bind <| M.vec_runs.bind <| M.sbase_runs.bind <|
    (M.rounding_runs _ _).bind (M.putVec_runs _)

theorem vmvCore_runs : Runs (vmvCore q env : M s0 PUnit) s ⟨⟩ (withVec s (wordRun s env q fun _ _ y _ => y)) :=
  (M.arithCheck_runs legal whole _ (by simp)).bind <| (M.operandB_runs _ _).bind <| M.vec_runs.bind (M.putVec_runs _)

/-- A word that a routine may hold runs as it says. -/
theorem routineCore_runs {i : Instr} {g : Rnd → Nat → Nat → Nat → Nat} (op : routineOp i = some (q, g)) :
    ∃ c : VEnv → M s0 PUnit, routineCore i = some c ∧ Runs (c env) s ⟨⟩ (withVec s (wordRun s env q g)) := by
  cases i
  case vadd | vsub | vmul | vmadd | vand | vor | vxor => cases op; exact ⟨_, rfl, intOp_runs legal whole _⟩
  case vfadd | vfsub | vfmul | vfma => cases op; exact ⟨_, rfl, floatOp_runs legal whole _ _⟩
  case vmv => cases op; exact ⟨_, rfl, vmvCore_runs legal whole⟩
  all_goals cases op

end

section

variable {v : VecState}

/-! ## An evaluation -/

/-- The frame of the strip with these elements active alone. -/
def activeEnv (s : State) (xs : List (Nat × Nat)) : VEnv :=
  { stripEnv s with act := some (xs.foldl (fun acc p => acc ||| (1#8192 <<< p.1)) 0) }

/-- The active elements of an evaluation are those that it lists. -/
theorem getLsbD_active (xs : List (Nat × Nat)) (acc : Mask) {e : Nat} (he : e < 8192) :
    (xs.foldl (fun acc p => acc ||| (1#8192 <<< p.1)) acc).getLsbD e = (acc.getLsbD e || (xs.map (·.1)).contains e) := by
  induction xs generalizing acc with
  | nil => simp
  | cons p xs ih =>
    have bit : (1#8192 <<< p.1).getLsbD e = decide (e = p.1) := by
      simp only [BitVec.getLsbD_shiftLeft, BitVec.getLsbD_one, he, decide_true, Bool.true_and]
      rw [Bool.eq_iff_iff]
      simp only [Bool.and_eq_true, Bool.not_eq_true', decide_eq_false_iff_not, decide_eq_true_eq]
      omega
    rw [List.foldl_cons, ih, BitVec.getLsbD_or, bit, List.map_cons, List.contains_cons, Bool.or_assoc]
    rfl

theorem activeEnv_elems (s : State) (xs : List (Nat × Nat)) (m : Mask) :
    (activeEnv s xs).elems m = (List.range (limit s)).filter fun e => (xs.map (·.1)).contains e && m.getLsbD e := by
  refine List.filter_congr fun e he => congrArg (· && m.getLsbD e) ?_
  have inside : e < 8192 := (List.mem_range.mp he).trans_le (Nat.min_le_right _ _)
  exact (getLsbD_active xs 0 inside).trans (by simp)

/-- A routine whose words are legal (R165). -/
def Runnable (s : State) (is : List Instr) : Prop :=
  ∀ i ∈ is, ∃ q g, routineOp i = some (q, g) ∧ Claim.Legal s q (tyBits q.ty) ([q.vd, q.va] ++ bOf q)

theorem runnable_of_routine (h : Routine s f is) : Runnable s is := by
  intro i hi
  obtain ⟨q, g, op, legal, width, -⟩ := h.legal i hi
  exact ⟨q, g, op, width ▸ legal⟩

theorem routineRun_cons (xs : List (Nat × Nat)) {i : Instr} (is : List Instr) (v : VecState) {g : Rnd → Nat → Nat → Nat → Nat}
    (op : routineOp i = some (q, g)) : routineRun s (xs.map (·.1)) (i :: is) v
      = routineRun s (xs.map (·.1)) is (wordRun (withVec s v) (activeEnv s xs) q g) := by
  rw [routineRun, List.foldl_cons, op, wordRun, activeEnv_elems]
  rfl

/-- The words of a routine run one after another for the active elements. -/
theorem routine_runs (runnable : Runnable s is) (xs : List (Nat × Nat)) (v : VecState) :
    Runs (M.each is fun i => match routineCore i with
      | some c => c (activeEnv s xs)
      | none => pure ⟨⟩ : M s0 PUnit) (withVec s v) ⟨⟩ (withVec s (routineRun s (xs.map (·.1)) is v)) := by
  induction is generalizing v with
  | nil => exact .pure _
  | cons i is ih =>
    obtain ⟨q, g, op, legal⟩ := runnable i List.mem_cons_self
    obtain ⟨c, hc, runs⟩ := routineCore_runs (s0 := s0) (env := activeEnv s xs) (legal_withVec legal v) rfl op
    rw [routineRun_cons xs is v op]
    refine Runs.bind (a := ⟨⟩) ?_ (ih (fun j hj => runnable j (List.mem_cons_of_mem _ hj)) _)
    show Runs (match routineCore i with
      | some c => c (activeEnv s xs)
      | none => pure ⟨⟩ : M s0 PUnit) _ _ _
    rw [hc]
    exact runs

/-- An evaluation answers the function at each listed element, and leaves the state that it has computed (R165). -/
theorem M.invEval_runs (runnable : Runnable s is) (xs : List (Nat × Nat)) (v : VecState) :
    Runs (M.invEval (stripEnv s) f is xs : M s0 (List (Nat × Nat))) (withVec s v)
      (xs.map fun p => (p.1, (evaluated s f is v xs).elem f.vd.toNat (tyBits f.ty) p.1)) (withVec s (evaluated s f is v xs)) :=
  (M.modVec_runs _).bind <| (routine_runs runnable xs _).bind <| M.vec_runs.bind (.pure _)

/-- The value of an element that an evaluation lists. -/
theorem resultOf_map (g : Nat → Nat) {ps : List (Nat × Nat)} {e : Nat} (mem : e ∈ ps.map (·.1)) :
    M.resultOf (ps.map fun p => (p.1, g p.1)) e = g e := by
  induction ps with
  | nil => cases mem
  | cons p ps ih =>
    by_cases first : e = p.1
    · simp [M.resultOf, aget, first]
    · simpa [M.resultOf, aget, first] using ih ((List.mem_cons.mp mem).resolve_left first)

/-! ## The bisection -/

/-- Where no element fails, the inversion goes on. -/
theorem orTrap_runs {env : VEnv} {c : BitVec 8} {xs : List InvElem} {p : InvElem → Bool} {m : Unit → M s0 α} {a : α}
    (passed : ∀ x ∈ xs, p x = false) (h : Runs (m ⟨⟩) s a t) : Runs (orTrap env f is c p xs m) s a t := by
  rw [orTrap, List.find?_eq_none.mpr fun x hx => by simp [passed x hx]]
  exact h

/-- An element that is evaluated at some argument is listed. -/
theorem mem_listed {xs : List InvElem} {x : InvElem} (hx : x ∈ xs) (arg : InvElem → Nat) : x.e ∈ (xs.map fun x => (x.e, arg x)).map (·.1) :=
  List.mem_map.mpr ⟨_, List.mem_map_of_mem hx, rfl⟩

/-- One iteration of `bisected`. -/
theorem bisected_succ (s : State) (f : VWord) (is : List Instr) (n : Nat) (v : VecState) (xs : List InvElem) :
    let v' := evaluated s f is v (midpoints f xs)
    let fm := v'.elem f.vd.toNat (tyBits f.ty)
    bisected s f is (n + 1) v xs = if wideElems f xs = [] then some (v, xs)
      else if (wideElems f xs).any fun x => (invArgs f).broken f.ty x (fm x.e) then none
      else bisected s f is n v' (halved f fm (el s f.vb (tyBits f.ty)) xs) := rfl

/-- The loop of an inversion finds what `bisected` says (R167). -/
theorem M.invLoop_runs (runnable : Runnable s is) {n : Nat} {v u : VecState} {xs ys : List InvElem}
    (found : bisected s f is n v xs = some (u, ys)) :
    Runs (M.invLoop (stripEnv s) f is (el s f.vb (tyBits f.ty)) n xs : M s0 (List InvElem)) (withVec s v) ys (withVec s u) := by
  induction n generalizing v xs with
  | zero =>
    cases found
    exact .pure _
  | succ n ih =>
    rw [bisected_succ] at found
    rw [M.invLoop_succ]
    split at found
    next done =>
      cases found
      rw [done]
      exact .pure _
    next going =>
      split at found
      next => cases found
      next monotone =>
        rw [if_neg (by simpa using going)]
        refine (M.invEval_runs runnable _ v).bind ?_
        have value (x : InvElem) (hx : x ∈ wideElems f xs) :=
          resultOf_map ((evaluated s f is v (midpoints f xs)).elem f.vd.toNat (tyBits f.ty)) (ps := midpoints f xs) (mem_listed hx _)
        have passed := List.any_eq_false.mp (eq_false_of_ne_true monotone)
        rw [List.find?_eq_none.mpr fun x hx => by rw [value x hx]; exact passed x hx, halved_congr _ value]
        exact ih found

/-! ## The routine -/

/-- Words that decode to instructions, each of which is accepted, give these instructions. -/
theorem filterMap_decoded {words : List (BitVec 64)} {g : BitVec 64 → Option Instr} (decoded : words.map decodeVector = is.map .ok)
    (accepted : ∀ w, ∀ i ∈ is, decodeVector w = .ok i → g w = some i) : words.filterMap g = is := by
  induction words generalizing is with
  | nil => exact (List.map_eq_nil_iff.mp decoded.symm).symm
  | cons w words ih =>
    cases is with
    | nil => cases decoded
    | cons i is =>
      obtain ⟨first, rest⟩ := List.cons.inj decoded
      rw [List.filterMap_cons_some (accepted w i List.mem_cons_self first), ih rest fun w j hj => accepted w j (List.mem_cons_of_mem _ hj)]

/-- A word that a routine may hold is among the words of R165, and writes no mask register. -/
theorem routineOp_allowed {i : Instr} {g : Rnd → Nat → Nat → Nat → Nat} (op : routineOp i = some (q, g)) :
    (routineCore (s0 := s0) i).isSome = true ∧ ∀ k n, (regUse k n i).mwr = [] := by
  cases i
  case vadd | vsub | vmul | vmadd | vand | vor | vxor | vfadd | vfsub | vfmul | vfma | vmv => exact ⟨rfl, fun _ _ => rfl⟩
  all_goals cases op

/-- The check of a routine finds a legal one (R165). -/
theorem M.invRoutine_runs {c : LoopCtx} (hc : s.hart.ctx = some c) (routine : Routine s f is) :
    Runs (M.invRoutine f : M s0 (Option (List Instr))) s (some is) s := by
  obtain ⟨words, length⟩ := routine.words c hc
  refine M.hart_runs.bind (.of_run fun r _ => congrArg (fun o => Except.ok (o, r)) ?_)
  simp only [hc]
  rw [filterMap_decoded words fun w i hi decoded => ?_, if_pos length]
  obtain ⟨q, g, op, -, -, apart⟩ := routine.legal i hi
  obtain ⟨listed, unmasked⟩ := routineOp_allowed (s0 := s0) op
  simp [decoded, listed, unmasked, apart]

/-! ## The inversion -/

theorem valued_congr {flo flo' fhi fhi' : Nat → Nat} {xs : List InvElem} (lo : ∀ x ∈ xs, flo x.e = flo' x.e)
    (hi : ∀ x ∈ xs, fhi x.e = fhi' x.e) : valued flo fhi xs = valued flo' fhi' xs :=
  List.map_congr_left fun x hx => by rw [lo x hx, hi x hx]

/-- The check of an inversion that fails for no element (R168). -/
structure Sound (f : VWord) (tgt : Nat → Nat) (x : InvElem) : Prop where
  lo : invNan f.ty x.lo = false
  hi : invNan f.ty x.hi = false
  sorted : invOrd f.ty x.lo ≤ invOrd f.ty x.hi
  encloses : (invArgs f).outside f.ty x (tgt x.e) = false

/-- An inversion that finds brackets has sound ends, and goes on from them by the loop of R167. -/
theorem inverted_some {v : VecState} {xs : List InvElem} (found : inverted s f is = some (v, xs)) :
    let w := tyBits f.ty
    let all := heldBrackets s.hart.vec w (acted s f)
    let v1 := evaluated s f is s.hart.vec (all.map fun x => (x.e, x.lo))
    let v2 := evaluated s f is v1 (all.map fun x => (x.e, x.hi))
    let ends := valued (v1.elem f.vd.toNat w) (v2.elem f.vd.toNat w) all
    (∀ x ∈ ends, Sound f (el s f.vb w) x)
    ∧ bisected s f is (invArgs f).cap v2 (ends.map fun x => (invArgs f).start f.ty x (el s f.vb w x.e)) = some (v, xs) := by
  intro w all v1 v2 ends
  simp only [inverted] at found
  split at found
  next => cases found
  next passed =>
    refine ⟨fun x hx => ?_, found⟩
    have sound := List.any_eq_false.mp (eq_false_of_ne_true passed) x hx
    simp only [Bool.or_eq_true, not_or, Bool.not_eq_true, decide_eq_true_eq, not_lt] at sound
    obtain ⟨⟨⟨lo, hi⟩, sorted⟩, encloses⟩ := sound
    exact ⟨lo, hi, sorted, encloses⟩

/-- The state after an inversion that has found these brackets: the last evaluation, the brackets, and the block behind the routine. -/
def inversionDone (s : State) (f : VWord) (is : List Instr) (v : VecState) (xs : List InvElem) : State :=
  behindRoutine (withVec s (withBrackets f xs (evaluated s f is v (xs.map fun x => (x.e, if (invArgs f).lower then x.lo else x.hi))))) f

theorem M.invFinish_runs (runnable : Runnable s is) {v : VecState} {xs : List InvElem} :
    Runs (M.invFinish (stripEnv s) f is xs : M s0 PUnit) (withVec s v) ⟨⟩ (withVec s (withBrackets f xs
      (evaluated s f is v (xs.map fun x => (x.e, if (invArgs f).lower then x.lo else x.hi))))) :=
  (M.invEval_runs runnable _ v).bind (M.modVec_runs _)

theorem M.invAdvance_runs : Runs (M.invAdvance f : M s0 PUnit) s ⟨⟩ (behindRoutine s f) := by
  rintro r rfl
  exact ⟨_, rfl, rfl⟩

theorem invRun_runs (runnable : Runnable s is) {v : VecState} {xs : List InvElem} (found : inverted s f is = some (v, xs)) :
    Runs (invRun (stripEnv s) f is (el s f.vb (tyBits f.ty)) (heldBrackets s.hart.vec (tyBits f.ty) (acted s f)) : M s0 PUnit) s ⟨⟩
      (inversionDone s f is v xs) := by
  obtain ⟨sound, bisects⟩ := inverted_some found
  have ends {x : InvElem} (hx : x ∈ heldBrackets s.hart.vec (tyBits f.ty) (acted s f)) := sound _ (List.mem_map_of_mem hx)
  have all : upright f (heldBrackets s.hart.vec (tyBits f.ty) (acted s f)) = heldBrackets s.hart.vec (tyBits f.ty) (acted s f) :=
    List.filter_eq_self.mpr fun x hx => decide_eq_true (ends hx).sorted
  refine orTrap_runs (fun x hx => Bool.or_eq_false_iff.mpr ⟨(ends hx).lo, (ends hx).hi⟩) ?_
  rw [all]
  refine (M.invEval_runs runnable _ s.hart.vec).bind <| (M.invEval_runs runnable _ _).bind ?_
  rw [valued_congr (fun x hx => resultOf_map _ (mem_listed hx _)) (fun x hx => resultOf_map _ (mem_listed hx _))]
  refine orTrap_runs (fun x hx => ?_) ((M.invLoop_runs runnable bisects).bind <| (M.invFinish_runs runnable).bind M.invAdvance_runs)
  exact Bool.or_eq_false_iff.mpr ⟨decide_eq_false (Nat.not_lt.mpr (sound x hx).sorted), (sound x hx).encloses⟩

/-- An `inv` with a legal routine goes on behind it with the brackets that `inverted` finds (R165 to R168). -/
theorem invCore_runs {c : LoopCtx} {v : VecState} {xs : List InvElem} (hc : s.hart.ctx = some c)
    (legal : Claim.Legal s { f with rep := false } (tyBits f.ty) [f.vd, f.va, f.vb]) (routine : Routine s f is)
    (found : inverted s f is = some (v, xs)) : Runs (invCore f (stripEnv s) : M s0 PUnit) s ⟨⟩ (inversionDone s f is v xs) := by
  have mode : Runs (M.modeCheck (stripEnv s) M.plain (some f.vd) : M s0 PUnit) s ⟨⟩ s :=
    .of_run fun r hr => M.modeCheck_dest_run rfl (hr ▸ legal.mode)
  rw [invCore_eq]
  exact mode.bind <| Runs.bind (a := ⟨⟩) (.of_run fun r hr => M.needSew_run _ (hr ▸ legal.sew)) <|
    Runs.bind (a := ⟨⟩) (.of_run fun r hr => M.needGroups_run _ (hr ▸ legal.groups)) <| (M.invRoutine_runs hc routine).bind <|
    M.vec_runs.bind (invRun_runs (runnable_of_routine routine) found)

end

end Sys2Proof.Machine
end

section
/-!
PROOFS. The bracket words (R164 to R169): what `vbrk` and `vbrkrd` move, and what an `inv` that goes on leaves of every bracket.
-/

open Sys2Proof Sys2Proof.Machine Sys2Proof.Claim

namespace Sys2Proof.Proofs

variable {s t : State} {f : VWord}

theorem acted_nodup (s : State) (f : VWord) : (acted s f).Nodup := List.nodup_range.filter _

theorem acted_lt {e : Nat} (h : e ∈ acted s f) : e < 8192 :=
  (List.mem_range.mp (List.mem_of_mem_filter h)).trans_le (Nat.min_le_right _ _)

/-! ## `vbrk` and `vbrkrd` -/

/-- Elements of both brackets written in one pass. -/
theorem foldl_setBracket (w : Nat) (lo hi : Nat → Nat) (es : List Nat) (v : VecState) :
    es.foldl (fun v e => { v with blo := setBracket v.blo w e (lo e), bhi := setBracket v.bhi w e (hi e) }) v
      = { v with blo := setBrackets v.blo w id lo es, bhi := setBrackets v.bhi w id hi es } := by
  induction es generalizing v with
  | nil => rfl
  | cons e es ih => exact ih _

theorem vbrk_exec (legal : Legal s { f with rep := false } (tyBits f.ty) [f.va, f.vb]) :
    exec (.vbrk f) s = .next (vecNext s { s.hart.vec with
      blo := setBrackets s.hart.vec.blo (tyBits f.ty) id (el s f.va (tyBits f.ty)) (acted s f)
      bhi := setBrackets s.hart.vec.bhi (tyBits f.ty) id (el s f.vb (tyBits f.ty)) (acted s f) }) := by
  refine vexec_putVec (core := vbrkCore f) legal.free ?_
  rw [vbrkCore, M.bind_ok (M.modeCheck_run (env := stripEnv s) M.plain rfl (mmode_of_legal legal)), M.bind_ok (M.needSew_run _ legal.sew),
    M.bind_ok (M.needGroups_run _ legal.groups), M.bind_ok (M.vec_run _)]
  exact congrArg (fun v => M.putVec v (Run.start s)) (foldl_setBracket ..)

/-- A bracket whose performed elements have been taken from a vector group. -/
theorem bracketElem_moved (b : Bracket) (r : Reg) {w e : Nat} (within : e * w + w ≤ 65536) :
    bracketElem (setBrackets b w id (el s r w) (acted s f)) w e = if e ∈ acted s f then el s r w e else bracketElem b w e := by
  have elems : (acted s f).map id = acted s f := List.map_id _
  split
  next mem => exact bracketElem_setBrackets_mem (elem := id) within (elems.symm ▸ acted_nodup s f) mem (BitVec.isLt _) b
  next other => exact bracketElem_setBrackets_other within (elems.symm ▸ other) b

theorem vbrkrd_exec (legal : Legal s { f with rep := false } (tyBits f.ty) [f.vd]) :
    exec (.vbrkrd f) s = .next (elementwise s f (tyBits f.ty) fun e =>
      bracketElem (if f.ctl.getLsbD 0 then s.hart.vec.bhi else s.hart.vec.blo) (tyBits f.ty) e) := by
  refine vexec_putVec (core := vbrkrdCore f) legal.free ?_
  rw [vbrkrdCore, M.bind_ok (M.modeCheck_legal M.plain legal.mode), M.bind_ok (M.needSew_run _ legal.sew),
    M.bind_ok (M.needGroups_run _ legal.groups), M.bind_ok (M.vec_run _)]
  rfl

/-! ## `inv` -/

/-- What an inversion leaves of an element's bracket and of its bit of mu (R166, R167). -/
theorem bracket_found {v : VecState} {xs : List InvElem} (computed : Computed s.hart.vec v)
    (bracketed : Bracketed s.hart.vec f.ty (acted s f) xs) {e : Nat} (within : e * tyBits f.ty + tyBits f.ty ≤ 65536) :
    let w := tyBits f.ty
    let ord (b : Bracket) (e : Nat) : Nat := invOrd f.ty (bracketElem b w e)
    let old := s.hart.vec
    let new := withBrackets f xs v
    if e ∈ acted s f then
      ord old.blo e ≤ ord new.blo e ∧ ord new.blo e ≤ ord new.bhi e ∧ ord new.bhi e ≤ ord old.bhi e
      ∧ (f.x.toNat / 32768 ≠ 0 → (new.mask (f.x.toNat / 32768)).getLsbD e
        = decide (ord new.bhi e - ord new.blo e > 2 ^ (f.x.toNat / 1024 % 32)))
    else bracketElem new.blo w e = bracketElem old.blo w e ∧ bracketElem new.bhi w e = bracketElem old.bhi w e := by
  intro w ord old new
  obtain ⟨elems, inside⟩ := bracketed
  obtain ⟨newLo, newHi⟩ := withBrackets_brackets f xs v
  rw [computed.brackets.1] at newLo
  rw [computed.brackets.2] at newHi
  have once : (xs.map (·.e)).Nodup := elems.symm ▸ acted_nodup s f
  split
  next mem =>
    obtain ⟨x, hx, rfl⟩ := List.mem_map.mp (elems.symm ▸ mem)
    obtain ⟨lo, hi, above, sorted, below⟩ := inside x hx
    have atLo : bracketElem new.blo w x.e = x.lo :=
      (congrArg (bracketElem · w x.e) newLo).trans (bracketElem_setBrackets_mem within once hx lo _)
    have atHi : bracketElem new.bhi w x.e = x.hi :=
      (congrArg (bracketElem · w x.e) newHi).trans (bracketElem_setBrackets_mem within once hx hi _)
    have register : f.x.toNat / 32768 < 8 := by
      have := f.x.isLt
      omega
    simp only [ord, atLo, atHi]
    exact ⟨above, sorted, below, fun some_ => withBrackets_mask some_ register (acted_lt mem) once hx v⟩
  next other =>
    have apart : e ∉ xs.map (·.e) := elems.symm ▸ other
    exact ⟨(congrArg (bracketElem · w e) newLo).trans (bracketElem_setBrackets_other within apart _),
      (congrArg (bracketElem · w e) newHi).trans (bracketElem_setBrackets_other within apart _)⟩

/-- An `inv` that goes on has ended its inversion. -/
theorem inv_ends (answers : Answers s (do
    let env ← M.frame
    M.vamoGuard env
    invCore f env) ⟨⟩ t) : exec (.inv f) s = .next t ∧ Ended s f (acted s f) t := by
  obtain ⟨r, run, same⟩ := answers
  refine ⟨exec_of_run rfl run same, ?_⟩
  rw [M.bind_ok (M.frame_run _)] at run
  exact same ▸ M.vamoGuard_looks.then (fun _ => invCore_yields) _ _ _ rfl run

/-- Settles O35. The bracket words write the elements of the brackets alone. Every part of an inversion that goes on keeps each bracket inside the
one that it began with (`invCore_yields`); an inversion with a legal routine goes on to what `inverted` finds (`invCore_runs`). -/
theorem bracketsShrinkUnderInversion : Obligations.BracketsShrinkUnderInversion := by
  intro s t f vs w es ord within
  refine ⟨fun legal => ?_, vbrkrd_exec, fun answers => ?_, fun c is v xs hc legal routine found => ?_⟩
  · exact ⟨_, vbrk_exec legal, _, _, rfl, fun e fits => ⟨bracketElem_moved _ _ fits, bracketElem_moved _ _ fits⟩⟩
  · obtain ⟨runs, v, xs, computed, bracketed, rfl⟩ := inv_ends answers
    refine ⟨runs, fun c hc => ?_, rfl, rfl, rfl, rfl, fun e fits => bracket_found computed bracketed fits⟩
    exact congrArg (Option.map _) hc
  · obtain ⟨r, run, same⟩ := invCore_runs hc legal routine found (Run.start s) rfl
    refine (vexecJump_next legal.free run).trans (congrArg Host.Outcome.next (same.trans ?_))
    simp only [inversionDone, behindRoutine, withVec, hc]
    rfl

end Sys2Proof.Proofs
end
